-- ==== Sys2Proof/Word.lean ====
section
/-!
DEFINITION. The words of the machine: a byte, a 32-bit word (one register, one code word), a 64-bit
word (a pair of registers, a pointer), and their plainest arithmetic.
-/
namespace Sys2Proof

abbrev Byte := BitVec 8
/-- One register or one code word, R246. -/
abbrev Word := BitVec 32
/-- A pair of registers, low half in the even register, R196 and R232; a global pointer, R12. -/
abbrev DWord := BitVec 64

/-- The low and the high half of a pair joined, R232. -/
def pairOf (lo hi : Word) : DWord := hi ++ lo
/-- The low half of a pair. -/
def loOf (x : DWord) : Word := x.setWidth 32
/-- The high half of a pair. -/
def hiOf (x : DWord) : Word := (x >>> 32).setWidth 32

end Sys2Proof
end

