-- ==== Sys2Proof/Machine/Store.lean ====
section
/-!
DEFINITION. A sparse store: the cells that differ from zero, in strictly rising order of their keys. Device
memory, system memory, scratchpad, tiles, and the register slots of a thread are stores: each of them reads as
zero where nothing has been written (R51, R54, R57; for device and system memory see the assumption log).
-/
namespace Sys2Proof.Machine

/-- Cells by key, strictly rising keys, no zero entry. `Store 8` is a list of `Host.Cell`. -/
abbrev Store (w : Nat) := List (Nat × BitVec w)

/-- DESIGN CHOICE: log 1. -/
def Store.get {w : Nat} : Store w → Nat → BitVec w
  | [], _ => 0
  | (k, v) :: r, a => if a = k then v else Store.get r a

def Store.set {w : Nat} : Store w → Nat → BitVec w → Store w
  | [], a, v => if v = 0 then [] else [(a, v)]
  | (k, x) :: r, a, v =>
    if a < k then (if v = 0 then (k, x) :: r else (a, v) :: (k, x) :: r)
    else if a = k then (if v = 0 then r else (a, v) :: r)
    else (k, x) :: Store.set r a v

/-- Every key of the store lies above `k`. -/
def Store.above {w : Nat} (k : Nat) (m : Store w) : Bool := m.all fun c => decide (k < c.1)

/-- The canonical form: strictly rising keys and no zero entry, so that equal contents are equal data. -/
def Store.wf {w : Nat} : Store w → Bool
  | [] => true
  | (k, v) :: r => (v != 0) && Store.above k r && Store.wf r

/-- The canonical form of device memory. -/
def Memory.wf (m : List Host.Cell) : Bool := Store.wf m

/-- The store with keys `lo ≤ k < hi` set to zero. -/
def Store.zero {w : Nat} (m : Store w) (lo hi : Nat) : Store w :=
  m.filter fun c => decide (c.1 < lo) || decide (hi ≤ c.1)

/-- Successive values from a key on. -/
def Store.setAll {w : Nat} (m : Store w) (a : Nat) : List (BitVec w) → Store w
  | [] => m
  | v :: vs => Store.setAll (m.set a v) (a + 1) vs

/-- `n` successive values from a key on. -/
def Store.getAll {w : Nat} (m : Store w) (a : Nat) : Nat → List (BitVec w)
  | 0 => []
  | n + 1 => m.get a :: Store.getAll m (a + 1) n

/-- Little-endian value of bytes, R232. -/
def leNat : List Byte → Nat
  | [] => 0
  | b :: bs => b.toNat + 256 * leNat bs

/-- The `n` bytes of a number, little-endian, R232. -/
def leBytes (v : Nat) : Nat → List Byte
  | 0 => []
  | n + 1 => BitVec.ofNat 8 v :: leBytes (v / 256) n

/-- `n` bytes from a key on, as a little-endian number. -/
def Store.rd (m : Store 8) (a n : Nat) : Nat := leNat (m.getAll a n)

/-- A number written as `n` little-endian bytes from a key on. -/
def Store.wr (m : Store 8) (a n v : Nat) : Store 8 := m.setAll a (leBytes v n)

/-- An association list read with a default for absent keys. -/
def Assoc.get {κ α : Type} [DecidableEq κ] (l : List (κ × α)) (k : κ) (d : α) : α :=
  match l.find? (fun e => e.1 = k) with
  | some e => e.2
  | none => d

def Assoc.set {κ α : Type} [DecidableEq κ] (l : List (κ × α)) (k : κ) (v : α) : List (κ × α) :=
  (k, v) :: l.filter (fun e => e.1 ≠ k)

/-- Element `i` of a list of fixed length, changed by `f`; unchanged where there is none. -/
def updAt {α : Type} (l : List α) (i : Nat) (f : α → α) : List α := l.modify i f

/-- At most `n` of the elements that satisfy a predicate, the first ones, with all the others: a cache of `n` entries filled at
its front. -/
def capped {α : Type} (p : α → Bool) : Nat → List α → List α
  | _, [] => []
  | n, x :: xs =>
    if p x then (match n with | 0 => capped p 0 xs | k + 1 => x :: capped p k xs) else x :: capped p n xs

/-- Bits `[hi:lo]` of a number. -/
def bits (x hi lo : Nat) : Nat := (x / 2 ^ lo) % 2 ^ (hi - lo + 1)

/-- Bit `i` of a number. -/
def bit (x i : Nat) : Bool := x.testBit i

/-- The number `x` with bits `[hi:lo]` replaced by `v`. -/
def setBits (x hi lo v : Nat) : Nat :=
  x - bits x hi lo * 2 ^ lo + (v % 2 ^ (hi - lo + 1)) * 2 ^ lo

/-- A stable sort by insertion; `le` must be total. -/
def insertBy {α : Type} (le : α → α → Bool) (x : α) : List α → List α
  | [] => [x]
  | y :: ys => if le x y then x :: y :: ys else y :: insertBy le x ys
def sortBy {α : Type} (le : α → α → Bool) : List α → List α
  | [] => []
  | x :: xs => insertBy le x (sortBy le xs)

def ceilDiv (a b : Nat) : Nat := (a + b - 1) / b

/-- `x` rounded up to a multiple of `m`. -/
def roundUp (x m : Nat) : Nat := ceilDiv x m * m

end Sys2Proof.Machine
end

