-- ==== Sys2Proof/Syntax.lean ====
section
/-!
DEFINITION. The syntax of the machine's steps: one constructor of `Instr` for each row of the opcode table. The
table lists the instructions of lanes, of matrix streams and of the control core, and beside them the events of the
device and of its host, each whole and indivisible (file 95); an event carries as arguments what it takes from
outside (a register write's data, a sensor's reading) and which unit, context, team or launch it concerns.
-/
namespace Sys2Proof

/-! ### Types, R255 -/

/-- Class I. -/
inductive ITy where
  | n8 | n16 | n32 | n64 | i8 | i16 | i32 | i64
  deriving DecidableEq, Repr

/-- Class M. -/
inductive MTy where
  | n8 | n16 | n32 | n64 | i8 | i16 | i32 | i64 | n128
  deriving DecidableEq, Repr

/-- Class F. -/
inductive FTy where
  | f32 | f16 | bf16 | f64 | e4m3 | e5m2 | e3m2 | e2m3 | e2m1
  deriving DecidableEq, Repr

/-- Class C. -/
inductive CTy where
  | n8 | n16 | n32 | n64 | i8 | i16 | i32 | i64 | f32 | f16 | bf16 | f64
  deriving DecidableEq, Repr

/-- Class A. -/
inductive ATy where
  | n32 | i32 | n64 | i64 | f32 | f64 | f16 | bf16
  deriving DecidableEq, Repr

/-! ### Operands -/

/-- A source: a vector register, a uniform register, or the literal's 64 bits (R254, R272). -/
inductive Src where
  | v (n : Nat)
  | s (n : Nat)
  | lit (x : DWord)
  deriving DecidableEq, Repr

/-- A destination of the integer instructions: a vector register, or the uniform register of a twin (R260). -/
inductive Dst where
  | v (n : Nat)
  | s (n : Nat)
  deriving DecidableEq, Repr

/-- The rounding field, R234. -/
inductive Rnd where
  | dyn | rn | rz | ru | rd | ra | rs
  deriving DecidableEq, Repr

/-- Scopes, R110. -/
inductive Scope where
  | grp | team | die | dev | sys
  deriving DecidableEq, Repr

/-- Orders of a load, of a store, of an atomic and of a fence, R108. -/
inductive LdOrd where
  | plain
  | rlx (sc : Scope)
  | acq (sc : Scope)
  deriving DecidableEq, Repr

inductive StOrd where
  | plain
  | rlx (sc : Scope)
  | rel (sc : Scope)
  deriving DecidableEq, Repr

inductive AtOrd where
  | rlx | acq | rel | ar
  deriving DecidableEq, Repr

inductive FenceOrd where
  | sc | acq | rel | ar
  deriving DecidableEq, Repr

/-- Cache hints, R66. -/
inductive Hint where
  | kall | kevict | kl2 | knone
  deriving DecidableEq, Repr

/-- Special registers, R274. -/
inductive SpecialReg where
  | lane | tid | group | role | team | core | nteam | tx | ty | tz | nx | ny | nz
  | tpart | fmode | fstat | fseed | meet | frame | clk
  deriving DecidableEq, Repr

/-- Integer conditions, R281. -/
inductive ICond where
  | eq | ne | lt | le | gt | ge
  deriving DecidableEq, Repr

/-- Floating conditions, R301; a base form has the first six. -/
inductive FCond where
  | eq | ne | lt | le | gt | ge | un | ord
  deriving DecidableEq, Repr

/-- Floating types of a base form's MOD, R258. -/
inductive BTy where
  | f32 | f16 | bf16
  deriving DecidableEq, Repr

inductive VoteKind where
  | all | any | eq | ballot
  deriving DecidableEq, Repr

inductive ShflMode where
  | idx | up | down | xor
  deriving DecidableEq, Repr

/-- Operations of reductions and scans, R315. -/
inductive RedOp where
  | add | min | max | and | or | xor | fadd | fmin | fmax
  deriving DecidableEq, Repr

/-- Filters of `texf`, R319. -/
inductive Filt where
  | pt | lin | tri
  deriving DecidableEq, Repr

/-- Atomic operations, R86. -/
inductive AOp where
  | exch | cas | add | and | or | xor | min | max | incb | decb | fadd | fmin | fmax
  deriving DecidableEq, Repr

/-- Path hints of `mvx`, R367. -/
inductive PathHint where
  | auto | core | bank
  deriving DecidableEq, Repr

/-! ### What events carry -/

inductive Port where
  | a | b
  deriving DecidableEq, Repr

/-- Who writes or reads a register: the physical function of a port, one of its virtual functions (R438, R441), or a
control core's `syswr` and `sysrd` (R373, R440). -/
inductive Agent where
  | port (p : Port)
  | vf (p : Port) (v : Nat)
  | firmware (core : Nat)
  deriving DecidableEq, Repr

/-- The function of a port that a host request goes through, R438. -/
inductive Func where
  | pf
  | vf (v : Nat)
  deriving DecidableEq, Repr

inductive Bar where
  | bar0 | bar2
  deriving DecidableEq, Repr

/-- A write to one register: the writer, the data and the bytes it enables, both counted from the register's
lowest byte (R438). -/
structure Wr where
  by_ : Agent
  data : DWord
  en : BitVec 8
  deriving DecidableEq, Repr

/-- What training found on one channel, R2, R70, R81. -/
structure ChannelReport where
  trained : Bool
  hj : Bool
  corrected : Nat
  deriving DecidableEq, Repr

/-- What Stage 1 found on one die, R449. -/
structure DieReport where
  linkOk : Bool
  channels : List ChannelReport
  deriving DecidableEq, Repr

/-- What Stage 1 found, R448, R449. -/
structure StartReport where
  dies : List DieReport
  deriving DecidableEq, Repr

/-- Where a management message came from, R452, R453. -/
inductive Via where
  | mailbox (p : Port)
  | vendorMessage (p : Port)
  | smbus
  deriving DecidableEq, Repr

/-- Host AtomicOps, R437. -/
inductive HostAtomic where
  | fetchAdd (bytes : Nat) (x : DWord)
  | swap (bytes : Nat) (x : DWord)
  | cas (bytes : Nat) (expected x : DWord)
  | cas128
  deriving DecidableEq, Repr

/-- A request at a home slice, R64: what it does to the bytes at its physical address. -/
inductive SliceOp where
  | read (n : Nat)
  | write (bytes : List Byte)
  | atomic (t : ATy) (op : AOp) (b c : DWord)
  deriving DecidableEq, Repr

/-- A request at a home slice, R64, of an agent of a context, for a line of device memory or of the memory behind a port. -/
structure SliceRequest where
  die : Nat
  slice : Nat
  pa : Nat
  op : SliceOp
  port : Option Nat := none
  ctx : Nat := 0
  deriving DecidableEq, Repr

/-- Fields of a BA-STREAM, R74, which both devices of the clamshell pair of a die's channel receive. -/
structure BankStream where
  die : Nat
  channel : Nat
  bank : Nat
  row : Nat
  first : Nat
  count : Nat
  mfmt : Nat
  vfmt : Nat
  smask : Nat
  deriving DecidableEq, Repr

/-- The steps of the machine: one constructor for each row of the opcode table. -/
inductive Instr where
  -- events of the start, of power, clock and temperature
  | powerGood
  | stage1 (r : StartReport)
  | stage2Entry
  | governorInterval (watts : Nat)
  | quietStepUp (watts : Nat)
  | thermalInterval (sensors : List (List Nat))
  | thermRelease
  | ucieModuleFail (dieA dieB moduleNo : Nat) (retrained : Bool)
  -- events of the host ports
  | portLinkDown (p : Port)
  | vfFlr (v : Nat)
  | pfFlr (p : Port)
  | apertureRead (p : Port) (f : Func) (slot off n : Nat)
  | apertureWrite (p : Port) (f : Func) (slot off : Nat) (bytes : List Byte)
  | hostAtomicop (p : Port) (f : Func) (slot off : Nat) (op : HostAtomic)
  | atsInvalidation (p : Port) (page count : Nat)
  | priGrant (slot page target : Nat)
  | priRefuse (slot page : Nat)
  | registerWrite (bar : Bar) (off : Nat) (w : Wr)
  | mgmtSemAcquire (by_ : Agent)
  | mgmtSemRelease (w : Wr)
  | ctxCtrlWrite (n : Nat) (w : Wr)
  | ctxRfmtabWrite (n : Nat) (w : Wr)
  | partWinWrite (p : Nat) (w : Wr)
  | vfMapWrite (v half : Nat) (w : Wr)
  | tlbInvalidate (w : Wr)
  | tlbInvalidateDone (p : Port)
  | ctxReplay (n : Nat) (w : Wr)
  | ctxReplayFail (n : Nat) (w : Wr)
  | ceclr (ch : Nat) (w : Wr)
  | baclr (ch : Nat) (w : Wr)
  | lqCtlWrite (n q : Nat) (w : Wr)
  | cancel (n q : Nat) (w : Wr)
  | lqTailWrite (n q : Nat) (w : Wr)
  | trapResume (n : Nat) (w : Wr)
  | trapEnd (n : Nat) (w : Wr)
  | ctxSave (n : Nat) (w : Wr)
  | saveComplete (n : Nat)
  | ctxRestore (n : Nat) (w : Wr)
  | restoredRecordEnter (core : Nat)
  -- management messages
  | mboxGo (p : Port) (w : Wr)
  | getId (v : Via)
  | getMeas (v : Via) (nonce : List Byte)
  | getCert (v : Via) (alg off : Nat)
  | fwBegin (v : Via) (len : Nat)
  | fwData (v : Via) (off : Nat) (bytes : List Byte)
  | fwCommit (v : Via)
  -- launches, teams and groups
  | launchPrereqRead (n q : Nat)
  | prereqReread (n q : Nat)
  | launchRecordRead (n q : Nat)
  | launchAccept (n q : Nat)
  | teamPlace
  | clusterPlace
  | streamFetchComplete (team : Nat)
  | groupLeaveSlot (core slot : Nat)
  | teamEnd (team : Nat)
  | orderedReductionCommit (launch : Nat)
  | launchRetire (launch : Nat)
  | clauseIssue (core pipe : Nat)
  | longLatencyComplete (core slot idx : Nat)
  | faultRecordWrite (n : Nat)
  | pageWalk (core n : Nat) (va : DWord)
  | homeSliceRequest (r : SliceRequest)
  | ueOnWriteback (pa : Nat)
  | siphonLand (team idx count : Nat)
  | wellheadTimeout (core : Nat)
  | sumpDrain (n : Nat)
  | manifoldWindowTimeout (core idx : Nat)
  | manifoldPass (core : Nat)
  | baLoad (die channel bank slot off : Nat) (data : List Byte)
  | baStream (r : BankStream)
  | baDrain (die channel bank words : Nat)
  | dicePatch (launch die : Nat)
  | gridCopyReceive (launch idx : Nat)
  | bucketResolve (launch bucket : Nat)
  | bucketCommit (launch bucket : Nat)
  | bucketSteal (launch thief : Nat)
  | cisternUe (launch bucket : Nat)
  | controlCoreHalt (core : Nat)
  -- base forms, R258
  | nopBase
  | movBase (d : Nat) (a : Src)
  | addBase (d : Nat) (a b : Src)
  | subBase (d : Nat) (a b : Src)
  | mulBase (d : Nat) (a b : Src)
  | andBase (d : Nat) (a b : Src)
  | orBase (d : Nat) (a b : Src)
  | xorBase (d : Nat) (a b : Src)
  | shlBase (d : Nat) (a b : Src)
  | shrBase (d : Nat) (a b : Src)
  | sraBase (d : Nat) (a b : Src)
  | minBase (sg : Bool) (d : Nat) (a b : Src)
  | maxBase (sg : Bool) (d : Nat) (a b : Src)
  | icmpBase (c : ICond) (d : Nat) (a b : Src)
  | faddBase (t : BTy) (d : Nat) (a b : Src)
  | fsubBase (t : BTy) (d : Nat) (a b : Src)
  | fmulBase (t : BTy) (d : Nat) (a b : Src)
  | fminBase (t : BTy) (d : Nat) (a b : Src)
  | fmaxBase (t : BTy) (d : Nat) (a b : Src)
  | fcmpBase (c : FCond) (d : Nat) (a b : Src)
  | brxBase (a : Src)
  | retBase
  | exitBase
  | brkBase
  | braBase (disp : DWord)
  | bnzBase (a : Src) (disp : DWord)
  | bzBase (a : Src) (disp : DWord)
  | meetBase (disp : DWord)
  -- control, integer and address, R259
  | nop
  | bra (disp : DWord)
  | bnz (a : Src) (disp : DWord)
  | bz (a : Src) (disp : DWord)
  | brx (a : Src)
  | meet (disp : DWord)
  | call (adv : Nat) (disp : DWord)
  | calli (a : Src) (adv : Nat)
  | frame (n8 : Nat)
  | ret
  | exit
  | refill (d : Nat) (disp : DWord)
  | brk (code : Nat)
  | wrs (r : SpecialReg) (a : Src)
  | part (a : Src)
  | add (t : ITy) (d : Dst) (a b : Src)
  | sub (t : ITy) (d : Dst) (a b : Src)
  | mul (t : ITy) (d : Dst) (a b : Src)
  | mulhi (t : ITy) (d : Dst) (a b : Src)
  | mulw (t : ITy) (d : Dst) (a b : Src)
  | mad (t : ITy) (d : Dst) (a b c : Src)
  | adds (t : ITy) (d : Dst) (a b : Src)
  | subs (t : ITy) (d : Dst) (a b : Src)
  | abs (t : ITy) (d : Dst) (a : Src)
  | min (t : ITy) (d : Dst) (a b : Src)
  | max (t : ITy) (d : Dst) (a b : Src)
  | and (t : ITy) (d : Dst) (a b : Src)
  | or (t : ITy) (d : Dst) (a b : Src)
  | xor (t : ITy) (d : Dst) (a b : Src)
  | not (t : ITy) (d : Dst) (a : Src)
  | shl (t : ITy) (d : Dst) (a b : Src)
  | shr (t : ITy) (d : Dst) (a b : Src)
  | sra (t : ITy) (d : Dst) (a b : Src)
  | rotl (t : ITy) (d : Dst) (a b : Src)
  | popc (t : ITy) (d : Dst) (a : Src)
  | clz (t : ITy) (d : Dst) (a : Src)
  | ctz (t : ITy) (d : Dst) (a : Src)
  | brev (t : ITy) (d : Dst) (a : Src)
  | bfe (t : ITy) (d : Dst) (a : Src) (pos widthM1 : Nat)
  | bfi (t : ITy) (d : Dst) (a b : Src) (pos widthM1 : Nat)
  | icmp (t : ITy) (c : ICond) (d : Dst) (a b : Src)
  | sel (t : ITy) (d : Dst) (a b c : Src)
  | lea (t : ITy) (d : Dst) (a b : Src) (sh : Nat)
  | mov (t : ITy) (d : Dst) (a : Src)
  | div (t : ITy) (d : Nat) (a b : Src) (f : Nat)
  | rds (d : Dst) (r : SpecialReg)
  -- floating point and conversion, R259
  | fadd (t : FTy) (r : Rnd) (d : Nat) (a b : Src)
  | fsub (t : FTy) (r : Rnd) (d : Nat) (a b : Src)
  | fmul (t : FTy) (r : Rnd) (d : Nat) (a b : Src)
  | ffma (t : FTy) (r : Rnd) (d : Nat) (a b c : Src)
  | fmin (t : FTy) (d : Nat) (a b : Src)
  | fmax (t : FTy) (d : Nat) (a b : Src)
  | fabs (t : FTy) (d : Nat) (a : Src)
  | fneg (t : FTy) (d : Nat) (a : Src)
  | fcmp (t : FTy) (c : FCond) (d : Nat) (a b : Src)
  | frnd (t : FTy) (r : Rnd) (d : Nat) (a : Src)
  | fclass (t : FTy) (d : Nat) (a : Src)
  | lerp (t : FTy) (r : Rnd) (d : Nat) (a b c : Src)
  | fdot2 (t : FTy) (d : Nat) (a b c : Src)
  | cvt (to_ from_ : FTy) (r : Rnd) (d : Nat) (a : Src)
  | cvtfi (to_ : ITy) (from_ : FTy) (r : Rnd) (d : Nat) (a : Src)
  | cvtif (to_ : FTy) (from_ : ITy) (r : Rnd) (d : Nat) (a : Src)
  | rcp (t : FTy) (d : Nat) (a : Src)
  | rsqrt (t : FTy) (d : Nat) (a : Src)
  | sqrt (t : FTy) (d : Nat) (a : Src)
  | exp2 (t : FTy) (d : Nat) (a : Src)
  | log2 (t : FTy) (d : Nat) (a : Src)
  | sincospi (t : FTy) (d : Nat) (a : Src)
  | tanh (t : FTy) (d : Nat) (a : Src)
  -- collectives, hashing and filtering, R259
  | vote (k : VoteKind) (d : Nat) (a : Src)
  | matchLanes (t : CTy) (d : Nat) (a : Src)
  | shfl (t : CTy) (m : ShflMode) (d : Nat) (a b : Src)
  | tred (t : CTy) (op : RedOp) (d : Nat) (a : Src)
  | tscan (t : CTy) (op : RedOp) (excl : Bool) (d : Nat) (a : Src)
  | hrand (d : Nat) (a b : Src)
  | texf (t : FTy) (k : Filt) (level : Nat) (d : Nat) (a b : Src) (f : Nat)
  -- memory, atomics, synchronisation and engines, R259
  | ld (t : MTy) (o : LdOrd) (h : Hint) (d : Nat) (a : Src) (off : BitVec 12) (f : Nat)
  | st (t : MTy) (o : StOrd) (h : Hint) (a : Src) (off : BitVec 12) (b : Src)
  | ldt (t : MTy) (h : Hint) (d : Nat) (a : Src) (off : BitVec 12) (f : Nat)
  | ldsp (t : MTy) (o : LdOrd) (d : Nat) (a : Src) (off : BitVec 12) (f : Nat)
  | stsp (t : MTy) (o : StOrd) (a : Src) (off : BitVec 12) (b : Src)
  | atom (op : AOp) (t : ATy) (o : AtOrd) (sc : Scope) (h : Hint) (d : Nat) (a : Src) (off : BitVec 12)
      (b c : Src) (f : Nat)
  | redOrd (op : AOp) (t : ATy) (h : Hint) (a : Src) (off : BitVec 12) (b : Src)
  | fence (o : FenceOrd) (sc : Scope)
  | binit (a b : Src)
  | barrive (d : Nat) (a : Src)
  | waitph (a b : Src)
  | rres (d : Nat) (a : Src)
  | rpub (a b : Src)
  | racq (d : Nat) (a : Src)
  | rrel (a b : Src)
  | siph (a : Src)
  | tspawn (d : Nat) (a b c : Src)
  | garrive
  | rtrace (any cullB cullF : Bool) (d : Nat) (a b : Src) (f : Nat)
  | gemit (cull : Bool) (a b : Src)
  -- accumulator, neural and matrix-vector, R259
  | accrd (t : FTy) (r : Rnd) (d : Nat) (tile row : Nat) (f : Nat)
  | accsp (t : FTy) (r : Rnd) (a : Src) (tile row : Nat)
  | accwr (t : FTy) (a : Src) (tile row : Nat)
  | neval (t : FTy) (nin nout : Nat) (d : Nat) (a b : Src) (f : Nat)
  | mvx (t : FTy) (h : PathHint) (nrc nvM1 : Nat) (d : Nat) (a b c : Src) (f : Nat)
  | mvxa (t : FTy) (h : PathHint) (nrc nvM1 : Nat) (d : Nat) (a b c : Src) (f : Nat)
  | mvxs (t : FTy) (h : PathHint) (nrc nvM1 : Nat) (d : Nat) (a b c : Src) (f : Nat)
  -- matrix streams, R261
  | mnop
  | mset (d : Nat) (x : DWord)
  | maddi (d a : Nat) (i : BitVec 12)
  | mloop (l : Nat) (a : Nat ⊕ DWord)
  | mnext (l : Nat)
  | mwait (n a : Nat)
  | marr (n : Nat)
  | macq (d a : Nat)
  | mrel (a b : Nat)
  | mzero (tile : Nat)
  | mmul (t : FTy) (scl : Bool) (kv : Nat) (tile a b : Nat)
  | mmulb (t : FTy) (scl : Bool) (kv : Nat) (tile a b : Nat)
  | mstop
  -- the control core, R262
  | sysrd (d : Nat) (a : Src)
  | syswr (a b : Src)
  | tlbinv (d : Nat) (a b : Src)
  | gresume (d : Nat) (a b : Src)
  | gkill (d : Nat) (a b : Src)
  | ctxsv (d : Nat) (a b : Src)
  | ctxld (d : Nat) (a b : Src)
  | dwmap (d : Nat) (a : Src)
  | idle
  -- the end of power
  | powerRemoved
  deriving DecidableEq, Repr

end Sys2Proof
end

