-- ==== Sys2Proof/Machine/Forms.lean ====
section
/-!
DEFINITION. The forms of the instructions: the codes and sizes of their types (R255, R271, R295, R324), the operands
each instruction names with the registers they occupy (R253), and the conditions under which its fields are valid
(R252 to R256 and the row of each instruction). Well-formedness and decoding both rest on them.
-/
namespace Sys2Proof

/-! ### Types: codes, widths and sizes -/

def ITy.code : ITy → Nat
  | .n8 => 0 | .n16 => 1 | .n32 => 2 | .n64 => 3 | .i8 => 4 | .i16 => 5 | .i32 => 6 | .i64 => 7
def ITy.ofCode : Nat → Option ITy
  | 0 => some .n8 | 1 => some .n16 | 2 => some .n32 | 3 => some .n64
  | 4 => some .i8 | 5 => some .i16 | 6 => some .i32 | 7 => some .i64 | _ => none
def ITy.width : ITy → Nat
  | .n8 => 8 | .n16 => 16 | .n32 => 32 | .n64 => 64 | .i8 => 8 | .i16 => 16 | .i32 => 32 | .i64 => 64
def ITy.signed : ITy → Bool
  | .i8 => true | .i16 => true | .i32 => true | .i64 => true | _ => false
/-- Registers an operand of the type's width occupies, R271. -/
def ITy.regs : ITy → Nat
  | .n64 => 2 | .i64 => 2 | _ => 1

def MTy.code : MTy → Nat
  | .n8 => 0 | .n16 => 1 | .n32 => 2 | .n64 => 3 | .i8 => 4 | .i16 => 5 | .i32 => 6 | .i64 => 7 | .n128 => 8
def MTy.ofCode : Nat → Option MTy
  | 0 => some .n8 | 1 => some .n16 | 2 => some .n32 | 3 => some .n64
  | 4 => some .i8 | 5 => some .i16 | 6 => some .i32 | 7 => some .i64 | 8 => some .n128 | _ => none
/-- Bytes in memory, R324. -/
def MTy.bytes : MTy → Nat
  | .n8 => 1 | .i8 => 1 | .n16 => 2 | .i16 => 2 | .n32 => 4 | .i32 => 4 | .n64 => 8 | .i64 => 8 | .n128 => 16
def MTy.signed : MTy → Bool
  | .i8 => true | .i16 => true | .i32 => true | .i64 => true | _ => false
def MTy.regs : MTy → Nat
  | .n64 => 2 | .i64 => 2 | .n128 => 4 | _ => 1
/-- The types a strong access takes, R325. -/
def MTy.strongOk : MTy → Bool
  | .n32 => true | .i32 => true | .n64 => true | .i64 => true | _ => false

def FTy.code : FTy → Nat
  | .f32 => 0 | .f16 => 1 | .bf16 => 2 | .f64 => 3 | .e4m3 => 4 | .e5m2 => 5 | .e3m2 => 6 | .e2m3 => 7 | .e2m1 => 8
def FTy.ofCode : Nat → Option FTy
  | 0 => some .f32 | 1 => some .f16 | 2 => some .bf16 | 3 => some .f64
  | 4 => some .e4m3 | 5 => some .e5m2 | 6 => some .e3m2 | 7 => some .e2m3 | 8 => some .e2m1 | _ => none
/-- Elements held by one 32-bit register, R232; an `.f64` element takes two registers. -/
def FTy.perReg : FTy → Nat
  | .f32 => 1 | .f16 => 2 | .bf16 => 2 | .f64 => 1 | .e4m3 => 4 | .e5m2 => 4 | .e3m2 => 4 | .e2m3 => 4 | .e2m1 => 8
/-- Registers an arithmetic operand of the type occupies, R295. -/
def FTy.regs : FTy → Nat
  | .f64 => 2 | _ => 1
/-- `.f64`, `.f32`, `.f16` and `.bf16`, R298. -/
def FTy.isArith : FTy → Bool
  | .f64 => true | .f32 => true | .f16 => true | .bf16 => true | _ => false

def CTy.code : CTy → Nat
  | .n8 => 0 | .n16 => 1 | .n32 => 2 | .n64 => 3 | .i8 => 4 | .i16 => 5 | .i32 => 6 | .i64 => 7
  | .f32 => 8 | .f16 => 9 | .bf16 => 10 | .f64 => 11
def CTy.ofCode : Nat → Option CTy
  | 0 => some .n8 | 1 => some .n16 | 2 => some .n32 | 3 => some .n64
  | 4 => some .i8 | 5 => some .i16 | 6 => some .i32 | 7 => some .i64
  | 8 => some .f32 | 9 => some .f16 | 10 => some .bf16 | 11 => some .f64 | _ => none
/-- The integer type of a collective's type, if it is one. -/
def CTy.int? : CTy → Option ITy
  | .n8 => some .n8 | .n16 => some .n16 | .n32 => some .n32 | .n64 => some .n64
  | .i8 => some .i8 | .i16 => some .i16 | .i32 => some .i32 | .i64 => some .i64 | _ => none
/-- The floating type of a collective's type, if it is one. -/
def CTy.float? : CTy → Option FTy
  | .f32 => some .f32 | .f16 => some .f16 | .bf16 => some .bf16 | .f64 => some .f64 | _ => none
def CTy.regs : CTy → Nat
  | .n64 => 2 | .i64 => 2 | .f64 => 2 | _ => 1

def ATy.code : ATy → Nat
  | .n32 => 0 | .i32 => 1 | .n64 => 2 | .i64 => 3 | .f32 => 4 | .f64 => 5 | .f16 => 6 | .bf16 => 7
def ATy.ofCode : Nat → Option ATy
  | 0 => some .n32 | 1 => some .i32 | 2 => some .n64 | 3 => some .i64
  | 4 => some .f32 | 5 => some .f64 | 6 => some .f16 | 7 => some .bf16 | _ => none
/-- Registers of an atomic's operand, R334: a pair for the 64-bit types. -/
def ATy.regs : ATy → Nat
  | .n64 => 2 | .i64 => 2 | .f64 => 2 | _ => 1
/-- Bytes an atomic reads and writes; the alignment it requires, R88. -/
def ATy.bytes (t : ATy) : Nat := 4 * t.regs

def BTy.code : BTy → Nat
  | .f32 => 0 | .f16 => 1 | .bf16 => 2
def BTy.ofCode : Nat → Option BTy
  | 0 => some .f32 | 1 => some .f16 | 2 => some .bf16 | _ => none
/-- The extended form's type, R249. -/
def BTy.toFTy : BTy → FTy
  | .f32 => .f32 | .f16 => .f16 | .bf16 => .bf16

/-! ### Codes of the other fields -/

def Rnd.code : Rnd → Nat
  | .dyn => 0 | .rn => 1 | .rz => 2 | .ru => 3 | .rd => 4 | .ra => 5 | .rs => 6
def Rnd.ofCode : Nat → Option Rnd
  | 0 => some .dyn | 1 => some .rn | 2 => some .rz | 3 => some .ru | 4 => some .rd | 5 => some .ra | 6 => some .rs
  | _ => none

def Scope.code : Scope → Nat
  | .grp => 1 | .team => 2 | .die => 3 | .dev => 4 | .sys => 5
def Scope.ofCode : Nat → Option Scope
  | 1 => some .grp | 2 => some .team | 3 => some .die | 4 => some .dev | 5 => some .sys | _ => none

/-- SCO and ORD of a load, R251. -/
def LdOrd.sco : LdOrd → Nat
  | .plain => 0 | .rlx sc => sc.code | .acq sc => sc.code
def LdOrd.ord : LdOrd → Nat
  | .plain => 0 | .rlx _ => 0 | .acq _ => 1
def LdOrd.ofCode (sco ord : Nat) : Option LdOrd :=
  if sco = 0 then (if ord = 0 then some .plain else none)
  else match Scope.ofCode sco with
    | none => none
    | some sc => if ord = 0 then some (.rlx sc) else if ord = 1 then some (.acq sc) else none
def LdOrd.strong : LdOrd → Bool
  | .plain => false | _ => true

def StOrd.sco : StOrd → Nat
  | .plain => 0 | .rlx sc => sc.code | .rel sc => sc.code
def StOrd.ord : StOrd → Nat
  | .plain => 0 | .rlx _ => 0 | .rel _ => 2
def StOrd.ofCode (sco ord : Nat) : Option StOrd :=
  if sco = 0 then (if ord = 0 then some .plain else none)
  else match Scope.ofCode sco with
    | none => none
    | some sc => if ord = 0 then some (.rlx sc) else if ord = 2 then some (.rel sc) else none
def StOrd.strong : StOrd → Bool
  | .plain => false | _ => true

def AtOrd.code : AtOrd → Nat
  | .rlx => 0 | .acq => 1 | .rel => 2 | .ar => 3
def AtOrd.ofCode : Nat → Option AtOrd
  | 0 => some .rlx | 1 => some .acq | 2 => some .rel | 3 => some .ar | _ => none

def FenceOrd.code : FenceOrd → Nat
  | .sc => 0 | .acq => 1 | .rel => 2 | .ar => 3
def FenceOrd.ofCode : Nat → Option FenceOrd
  | 0 => some .sc | 1 => some .acq | 2 => some .rel | 3 => some .ar | _ => none

def Hint.code : Hint → Nat
  | .kall => 0 | .kevict => 1 | .kl2 => 2 | .knone => 3
def Hint.ofCode : Nat → Option Hint
  | 0 => some .kall | 1 => some .kevict | 2 => some .kl2 | 3 => some .knone | _ => none

/-- The number of a special register, R274. -/
def SpecialReg.code : SpecialReg → Nat
  | .lane => 0x000 | .tid => 0x001 | .group => 0x002 | .role => 0x003 | .team => 0x004 | .core => 0x005
  | .nteam => 0x006 | .tx => 0x007 | .ty => 0x008 | .tz => 0x009 | .nx => 0x00A | .ny => 0x00B | .nz => 0x00C
  | .tpart => 0x010 | .fmode => 0x011 | .fstat => 0x012 | .fseed => 0x013
  | .meet => 0x020 | .frame => 0x021 | .clk => 0x022
def SpecialReg.ofCode : Nat → Option SpecialReg
  | 0x000 => some .lane | 0x001 => some .tid | 0x002 => some .group | 0x003 => some .role | 0x004 => some .team
  | 0x005 => some .core | 0x006 => some .nteam | 0x007 => some .tx | 0x008 => some .ty | 0x009 => some .tz
  | 0x00A => some .nx | 0x00B => some .ny | 0x00C => some .nz
  | 0x010 => some .tpart | 0x011 => some .fmode | 0x012 => some .fstat | 0x013 => some .fseed
  | 0x020 => some .meet | 0x021 => some .frame | 0x022 => some .clk | _ => none
/-- Registers a special register's value occupies, R274. -/
def SpecialReg.regs : SpecialReg → Nat
  | .meet => 2 | .clk => 2 | _ => 1
/-- Whether the twin of `rds` reads it, R274. -/
def SpecialReg.twinOk : SpecialReg → Bool
  | .lane => false | .tid => false | .meet => false | .frame => false | _ => true
/-- Whether `wrs` writes it, R274. -/
def SpecialReg.writeOk : SpecialReg → Bool
  | .fmode => true | .fstat => true | .fseed => true | .meet => true | _ => false

def ICond.code : ICond → Nat
  | .eq => 0 | .ne => 1 | .lt => 2 | .le => 3 | .gt => 4 | .ge => 5
def ICond.ofCode : Nat → Option ICond
  | 0 => some .eq | 1 => some .ne | 2 => some .lt | 3 => some .le | 4 => some .gt | 5 => some .ge | _ => none

def FCond.code : FCond → Nat
  | .eq => 0 | .ne => 1 | .lt => 2 | .le => 3 | .gt => 4 | .ge => 5 | .un => 6 | .ord => 7
def FCond.ofCode : Nat → Option FCond
  | 0 => some .eq | 1 => some .ne | 2 => some .lt | 3 => some .le | 4 => some .gt | 5 => some .ge
  | 6 => some .un | 7 => some .ord | _ => none

def VoteKind.code : VoteKind → Nat
  | .all => 0 | .any => 1 | .eq => 2 | .ballot => 3
def VoteKind.ofCode : Nat → Option VoteKind
  | 0 => some .all | 1 => some .any | 2 => some .eq | 3 => some .ballot | _ => none

def ShflMode.code : ShflMode → Nat
  | .idx => 0 | .up => 1 | .down => 2 | .xor => 3
def ShflMode.ofCode : Nat → Option ShflMode
  | 0 => some .idx | 1 => some .up | 2 => some .down | 3 => some .xor | _ => none

def RedOp.code : RedOp → Nat
  | .add => 0 | .min => 1 | .max => 2 | .and => 3 | .or => 4 | .xor => 5 | .fadd => 6 | .fmin => 7 | .fmax => 8
def RedOp.ofCode : Nat → Option RedOp
  | 0 => some .add | 1 => some .min | 2 => some .max | 3 => some .and | 4 => some .or | 5 => some .xor
  | 6 => some .fadd | 7 => some .fmin | 8 => some .fmax | _ => none
/-- The types each operation takes, R315. -/
def RedOp.takes (op : RedOp) (t : CTy) : Bool :=
  match op with
  | .add => t.int?.isSome
  | .min => t.int?.isSome
  | .max => t.int?.isSome
  | .and => match t.int? with | some i => !i.signed | none => false
  | .or => match t.int? with | some i => !i.signed | none => false
  | .xor => match t.int? with | some i => !i.signed | none => false
  | .fadd => t.float?.isSome
  | .fmin => t.float?.isSome
  | .fmax => t.float?.isSome

def Filt.code : Filt → Nat
  | .pt => 0 | .lin => 1 | .tri => 2
def Filt.ofCode : Nat → Option Filt
  | 0 => some .pt | 1 => some .lin | 2 => some .tri | _ => none

def AOp.code : AOp → Nat
  | .exch => 0 | .cas => 1 | .add => 2 | .and => 3 | .or => 4 | .xor => 5 | .min => 6 | .max => 7
  | .incb => 8 | .decb => 9 | .fadd => 10 | .fmin => 11 | .fmax => 12
def AOp.ofCode : Nat → Option AOp
  | 0 => some .exch | 1 => some .cas | 2 => some .add | 3 => some .and | 4 => some .or | 5 => some .xor
  | 6 => some .min | 7 => some .max | 8 => some .incb | 9 => some .decb
  | 10 => some .fadd | 11 => some .fmin | 12 => some .fmax | _ => none
def ATy.isFloat : ATy → Bool
  | .f32 => true | .f64 => true | .f16 => true | .bf16 => true | _ => false
/-- The pairs of operation and type of R86. -/
def AOp.takes (op : AOp) (t : ATy) : Bool :=
  match op with
  | .fadd => t.isFloat
  | .fmin => t.isFloat
  | .fmax => t.isFloat
  | .add => !t.isFloat
  | .min => !t.isFloat
  | .max => !t.isFloat
  | _ => t == .n32 || t == .n64
/-- The operations a reduction range may name, R94. -/
def AOp.reduces : AOp → Bool
  | .exch => false | .cas => false | .incb => false | .decb => false | _ => true

def PathHint.code : PathHint → Nat
  | .auto => 0 | .core => 1 | .bank => 2
def PathHint.ofCode : Nat → Option PathHint
  | 0 => some .auto | 1 => some .core | 2 => some .bank | _ => none

/-! ### Operands named by an instruction -/

/-- One operand: its register or literal, how many registers it occupies, whether it is a destination, and the number
of vector and of uniform registers that its field can name. -/
structure Opnd where
  x : Src
  size : Nat
  dst : Bool
  vlim : Nat
  slim : Nat
  deriving DecidableEq, Repr

/-- R253: the base is a multiple of the size and the last register exists. A literal names no register. -/
def Opnd.inRange (o : Opnd) : Bool :=
  match o.x with
  | .v n => n % o.size == 0 && decide (n + o.size ≤ o.vlim)
  | .s n => n % o.size == 0 && decide (n + o.size ≤ o.slim)
  | .lit _ => true

/-- R254: a literal of a 32-bit operand has a high word of zeros or of copies of bit 31. -/
def lit32Ok (x : DWord) : Bool :=
  hiOf x == 0 || ((hiOf x == BitVec.allOnes 32) && (loOf x).msb)

def Opnd.litOk (o : Opnd) : Bool :=
  match o.x with
  | .lit x => decide (o.size = 2) || lit32Ok x
  | _ => true

def Src.isVec : Src → Bool
  | .v _ => true | _ => false
def Src.isLit : Src → Bool
  | .lit _ => true | _ => false
def Src.isUni : Src → Bool
  | .s _ => true | _ => false

def Dst.toSrc : Dst → Src
  | .v n => .v n | .s n => .s n
def Dst.isUni : Dst → Bool
  | .s _ => true | _ => false

/-- An operand of an extended form. -/
def xs (x : Src) (size : Nat) : Opnd := ⟨x, size, false, 1024, 192⟩
/-- A destination of an extended form. -/
def xd (d : Nat) (size : Nat) : Opnd := ⟨.v d, size, true, 1024, 192⟩
def xdd (d : Dst) (size : Nat) : Opnd := ⟨d.toSrc, size, true, 1024, 192⟩
/-- An operand and a destination of a base form, R248. -/
def bs (x : Src) (size : Nat) : Opnd := ⟨x, size, false, 64, 64⟩
def bd (d : Nat) : Opnd := ⟨.v d, 1, true, 64, 64⟩

/-- Elements a conversion handles, R305. -/
def cvtCount (a b : FTy) : Nat := Nat.max 1 (Nat.max (if a = .f64 then 1 else a.perReg) (if b = .f64 then 1 else b.perReg))
/-- Registers `n` elements of a type occupy, R305. -/
def cvtRegs (t : FTy) (n : Nat) : Nat := if t = .f64 then 2 * n else Machine.ceilDiv n t.perReg

/-- Rows per lane of `mvx`, R367. -/
def mvxRows (nrc : Nat) : Nat := 2 ^ nrc

/-- The registers and literals an instruction names, destinations first, with their sizes. D of `accrd` and A of `accwr` are one register
for each type but FP32 (R357, R359).
DEDUCED: log 28. -/
def Instr.opnds : Instr → List Opnd
  | .movBase d a => [bd d, bs a 1]
  | .addBase d a b => [bd d, bs a 1, bs b 1]
  | .subBase d a b => [bd d, bs a 1, bs b 1]
  | .mulBase d a b => [bd d, bs a 1, bs b 1]
  | .andBase d a b => [bd d, bs a 1, bs b 1]
  | .orBase d a b => [bd d, bs a 1, bs b 1]
  | .xorBase d a b => [bd d, bs a 1, bs b 1]
  | .shlBase d a b => [bd d, bs a 1, bs b 1]
  | .shrBase d a b => [bd d, bs a 1, bs b 1]
  | .sraBase d a b => [bd d, bs a 1, bs b 1]
  | .minBase _ d a b => [bd d, bs a 1, bs b 1]
  | .maxBase _ d a b => [bd d, bs a 1, bs b 1]
  | .icmpBase _ d a b => [bd d, bs a 1, bs b 1]
  | .faddBase _ d a b => [bd d, bs a 1, bs b 1]
  | .fsubBase _ d a b => [bd d, bs a 1, bs b 1]
  | .fmulBase _ d a b => [bd d, bs a 1, bs b 1]
  | .fminBase _ d a b => [bd d, bs a 1, bs b 1]
  | .fmaxBase _ d a b => [bd d, bs a 1, bs b 1]
  | .fcmpBase _ d a b => [bd d, bs a 1, bs b 1]
  | .brxBase a => [bs a 2]
  | .bnzBase a _ => [bs a 1]
  | .bzBase a _ => [bs a 1]
  | .bnz a _ => [xs a 1]
  | .bz a _ => [xs a 1]
  | .brx a => [xs a 2]
  | .calli a _ => [xs a 2]
  | .refill d _ => [xd d 1]
  | .wrs r a => [xs a r.regs]
  | .part a => [xs a 1]
  | .add t d a b => [xdd d t.regs, xs a t.regs, xs b t.regs]
  | .sub t d a b => [xdd d t.regs, xs a t.regs, xs b t.regs]
  | .mul t d a b => [xdd d t.regs, xs a t.regs, xs b t.regs]
  | .mulhi t d a b => [xdd d t.regs, xs a t.regs, xs b t.regs]
  | .mulw _ d a b => [xdd d 2, xs a 1, xs b 1]
  | .mad t d a b c => [xdd d t.regs, xs a t.regs, xs b t.regs, xs c t.regs]
  | .adds t d a b => [xdd d t.regs, xs a t.regs, xs b t.regs]
  | .subs t d a b => [xdd d t.regs, xs a t.regs, xs b t.regs]
  | .abs t d a => [xdd d t.regs, xs a t.regs]
  | .min t d a b => [xdd d t.regs, xs a t.regs, xs b t.regs]
  | .max t d a b => [xdd d t.regs, xs a t.regs, xs b t.regs]
  | .and t d a b => [xdd d t.regs, xs a t.regs, xs b t.regs]
  | .or t d a b => [xdd d t.regs, xs a t.regs, xs b t.regs]
  | .xor t d a b => [xdd d t.regs, xs a t.regs, xs b t.regs]
  | .not t d a => [xdd d t.regs, xs a t.regs]
  | .shl t d a b => [xdd d t.regs, xs a t.regs, xs b 1]
  | .shr t d a b => [xdd d t.regs, xs a t.regs, xs b 1]
  | .sra t d a b => [xdd d t.regs, xs a t.regs, xs b 1]
  | .rotl t d a b => [xdd d t.regs, xs a t.regs, xs b 1]
  | .popc t d a => [xdd d 1, xs a t.regs]
  | .clz t d a => [xdd d 1, xs a t.regs]
  | .ctz t d a => [xdd d 1, xs a t.regs]
  | .brev t d a => [xdd d t.regs, xs a t.regs]
  | .bfe t d a _ _ => [xdd d t.regs, xs a t.regs]
  | .bfi t d a b _ _ => [xdd d t.regs, xs a t.regs, xs b t.regs]
  | .icmp t _ d a b => [xdd d 1, xs a t.regs, xs b t.regs]
  | .sel t d a b c => [xdd d t.regs, xs a t.regs, xs b t.regs, xs c 1]
  | .lea t d a b _ => [xdd d 2, xs a 2, xs b t.regs]
  | .mov t d a => [xdd d t.regs, xs a t.regs]
  | .div t d a b _ => [xd d (2 * t.regs), xs a t.regs, xs b t.regs]
  | .rds d r => [xdd d r.regs]
  | .fadd t _ d a b => [xd d t.regs, xs a t.regs, xs b t.regs]
  | .fsub t _ d a b => [xd d t.regs, xs a t.regs, xs b t.regs]
  | .fmul t _ d a b => [xd d t.regs, xs a t.regs, xs b t.regs]
  | .ffma t _ d a b c => [xd d t.regs, xs a t.regs, xs b t.regs, xs c t.regs]
  | .fmin t d a b => [xd d t.regs, xs a t.regs, xs b t.regs]
  | .fmax t d a b => [xd d t.regs, xs a t.regs, xs b t.regs]
  | .fabs t d a => [xd d t.regs, xs a t.regs]
  | .fneg t d a => [xd d t.regs, xs a t.regs]
  | .fcmp t _ d a b => [xd d 1, xs a t.regs, xs b t.regs]
  | .frnd t _ d a => [xd d t.regs, xs a t.regs]
  | .fclass t d a => [xd d 1, xs a t.regs]
  | .lerp t _ d a b c => [xd d t.regs, xs a t.regs, xs b t.regs, xs c t.regs]
  | .fdot2 t d a b c => [xd d 1, xs a (if t = .f32 then 2 else t.regs), xs b (if t = .f32 then 2 else t.regs), xs c 1]
  | .cvt t s _ d a => [xd d (cvtRegs t (cvtCount t s)), xs a (cvtRegs s (cvtCount t s))]
  | .cvtfi t s _ d a => [xd d t.regs, xs a s.regs]
  | .cvtif t s _ d a => [xd d t.regs, xs a s.regs]
  | .rcp t d a => [xd d t.regs, xs a t.regs]
  | .rsqrt t d a => [xd d t.regs, xs a t.regs]
  | .sqrt t d a => [xd d t.regs, xs a t.regs]
  | .exp2 t d a => [xd d t.regs, xs a t.regs]
  | .log2 t d a => [xd d t.regs, xs a t.regs]
  | .sincospi t d a => [xd d 2, xs a t.regs]
  | .tanh t d a => [xd d t.regs, xs a t.regs]
  | .vote _ d a => [xd d 1, xs a 1]
  | .matchLanes t d a => [xd d 1, xs a t.regs]
  | .shfl t _ d a b => [xd d t.regs, xs a t.regs, xs b 1]
  | .tred t _ d a => [xd d t.regs, xs a t.regs]
  | .tscan t _ _ d a => [xd d t.regs, xs a t.regs]
  | .hrand d a b => [xd d 1, xs a 2, xs b 1]
  | .texf t k _ d a b _ => [xd d (if t = .f32 then 4 else 2), xs a 2, xs b (if k = .tri then 4 else 2)]
  | .ld t _ _ d a _ _ => [xd d t.regs, xs a 2]
  | .st t _ _ a _ b => [xs a 2, xs b t.regs]
  | .ldt t _ d a _ _ => [xd d t.regs, xs a 2]
  | .ldsp t _ d a _ _ => [xd d t.regs, xs a 1]
  | .stsp t _ a _ b => [xs a 1, xs b t.regs]
  | .atom op t _ _ _ d a _ b c _ =>
    if op = .cas then [xd d t.regs, xs a 2, xs b t.regs, xs c t.regs] else [xd d t.regs, xs a 2, xs b t.regs]
  | .redOrd _ t _ a _ b => [xs a 2, xs b t.regs]
  | .binit a b => [xs a 1, xs b 1]
  | .barrive d a => [xd d 1, xs a 1]
  | .waitph a b => [xs a 1, xs b 1]
  | .rres d a => [xd d 1, xs a 1]
  | .rpub a b => [xs a 1, xs b 1]
  | .racq d a => [xd d 1, xs a 1]
  | .rrel a b => [xs a 1, xs b 1]
  | .siph a => [xs a 1]
  | .tspawn d a b c => [xd d 1, xs a 2, xs b 16, xs c 1]
  | .rtrace _ _ _ d a b _ => [xd d 8, xs a 2, xs b 8]
  | .gemit _ a b => [xs a 1, xs b 16]
  | .accrd t _ d _ _ _ => [xd d (if t = .f32 then 2 else 1)]
  | .accsp _ _ a _ _ => [xs a 1]
  | .accwr t a _ _ => [xs a (if t = .f32 then 2 else 1)]
  | .neval _ _ _ d a b _ => [xd d 8, xs a 2, xs b 8]
  | .mvx _ _ _ _ d a b c _ => [xd d 8, xs a 2, xs b 2, xs c 1]
  | .mvxa _ _ _ _ d a b c _ => [xd d 8, xs a 2, xs b 2, xs c 1]
  | .mvxs _ _ _ _ d a b c _ => [xd d 8, xs a 2, xs b 2, xs c 1]
  | .sysrd d a => [⟨.s d, 1, true, 0, 192⟩, ⟨a, 1, false, 0, 192⟩]
  | .syswr a b => [⟨a, 1, false, 0, 192⟩, ⟨b, 1, false, 0, 192⟩]
  | .tlbinv d a b => [⟨.s d, 1, true, 0, 192⟩, ⟨a, 2, false, 0, 192⟩, ⟨b, 1, false, 0, 192⟩]
  | .gresume d a b => [⟨.s d, 1, true, 0, 192⟩, ⟨a, 1, false, 0, 192⟩, ⟨b, 1, false, 0, 192⟩]
  | .gkill d a b => [⟨.s d, 1, true, 0, 192⟩, ⟨a, 1, false, 0, 192⟩, ⟨b, 1, false, 0, 192⟩]
  | .ctxsv d a b => [⟨.s d, 1, true, 0, 192⟩, ⟨a, 2, false, 0, 192⟩, ⟨b, 1, false, 0, 192⟩]
  | .ctxld d a b => [⟨.s d, 1, true, 0, 192⟩, ⟨a, 2, false, 0, 192⟩, ⟨b, 1, false, 0, 192⟩]
  | .dwmap d a => [⟨.s d, 1, true, 0, 192⟩, ⟨a, 1, false, 0, 192⟩]
  | _ => []

/-- The vector registers that R190 checks when the instruction is performed: base and count of each operand. `neval`
and `mvx` name as many as their fields give (R360, R367). -/
def Instr.vecRegs (i : Instr) : List (Nat × Nat) :=
  let sized := i.opnds.filterMap fun o => match o.x with | .v n => some (n, o.size) | _ => none
  match i with
  | .neval _ nin nout d a b _ =>
    [(d, nout)] ++ (match a with | .v n => [(n, 2)] | _ => []) ++ (match b with | .v n => [(n, nin)] | _ => [])
  | .mvx _ _ nrc nv d _ _ c _ => [(d, mvxRows nrc * (nv + 1))] ++ (match c with | .v n => [(n, 1)] | _ => [])
  | .mvxa _ _ nrc nv d _ _ c _ => [(d, mvxRows nrc * (nv + 1))] ++ (match c with | .v n => [(n, 1)] | _ => [])
  | .mvxs _ _ nrc nv d _ _ c _ => [(d, mvxRows nrc * (nv + 1))] ++ (match c with | .v n => [(n, 1)] | _ => [])
  | _ => sized

/-- The vector registers that the instruction reads: three of the four of a trilinear `texf` (R319), 14 of the 16 of `gemit`
(R346). -/
def Instr.readRegs (i : Instr) : List (Nat × Nat) :=
  let sized := i.opnds.filterMap fun o => match o.x with | .v n => if o.dst then none else some (n, o.size) | _ => none
  match i with
  | .neval _ nin _ _ a b _ =>
    (match a with | .v n => [(n, 2)] | _ => []) ++ (match b with | .v n => [(n, nin)] | _ => [])
  | .mvxa _ _ nrc nv d _ _ _ _ => (d, mvxRows nrc * (nv + 1)) :: sized
  | .texf _ .tri _ _ a b _ => (match a with | .v n => [(n, 2)] | _ => []) ++ (match b with | .v n => [(n, 3)] | _ => [])
  | .gemit _ a b => (match a with | .v n => [(n, 1)] | _ => []) ++ (match b with | .v n => [(n, 14)] | _ => [])
  | _ => sized

/-- The uniform registers that the instruction reads: base and count of each operand. -/
def Instr.readUnis (i : Instr) : List (Nat × Nat) :=
  let sized := i.opnds.filterMap fun o => match o.x with | .s n => if o.dst then none else some (n, o.size) | _ => none
  match i with
  | .neval _ nin _ _ a b _ =>
    (match a with | .s n => [(n, 2)] | _ => []) ++ (match b with | .s n => [(n, nin)] | _ => [])
  | .texf _ .tri _ _ a b _ => (match a with | .s n => [(n, 2)] | _ => []) ++ (match b with | .s n => [(n, 3)] | _ => [])
  | .gemit _ a b => (match a with | .s n => [(n, 1)] | _ => []) ++ (match b with | .s n => [(n, 14)] | _ => [])
  | _ => sized

/-- Whether the instruction names a vector register, R177, R180. -/
def Instr.namesVector (i : Instr) : Bool := !i.vecRegs.isEmpty

/-- The flag a long-latency instruction names, R252. -/
def Instr.flag? : Instr → Option Nat
  | .div _ _ _ _ f => some f
  | .texf _ _ _ _ _ _ f => some f
  | .ld _ _ _ _ _ _ f => some f
  | .ldt _ _ _ _ _ f => some f
  | .ldsp _ _ _ _ _ f => some f
  | .atom _ _ _ _ _ _ _ _ _ _ f => some f
  | .rtrace _ _ _ _ _ _ f => some f
  | .accrd _ _ _ _ _ f => some f
  | .neval _ _ _ _ _ _ f => some f
  | .mvx _ _ _ _ _ _ _ _ f => some f
  | .mvxa _ _ _ _ _ _ _ _ f => some f
  | .mvxs _ _ _ _ _ _ _ _ f => some f
  | _ => none

/-- The instructions that R178 places last in a clause. -/
def Instr.isLast : Instr → Bool
  | .braBase _ => true | .bnzBase _ _ => true | .bzBase _ _ => true | .brxBase _ => true
  | .retBase => true | .exitBase => true
  | .bra _ => true | .bnz _ _ => true | .bz _ _ => true | .brx _ => true
  | .call _ _ => true | .calli _ _ => true | .ret => true | .exit => true | .refill _ _ => true
  | .waitph _ _ => true
  | _ => false

/-- A destination and the sources of an instruction of the twin family: a twin's sources are uniform or literal. -/
def twinOk (d : Dst) (srcs : List Src) : Bool := !d.isUni || srcs.all fun x => !x.isVec

/-- The twin rule of R260 for every instruction that has a twin. -/
def Instr.twinsOk : Instr → Bool
  | .add _ d a b => twinOk d [a, b] | .sub _ d a b => twinOk d [a, b] | .mul _ d a b => twinOk d [a, b]
  | .mulhi _ d a b => twinOk d [a, b] | .mulw _ d a b => twinOk d [a, b] | .mad _ d a b c => twinOk d [a, b, c]
  | .adds _ d a b => twinOk d [a, b] | .subs _ d a b => twinOk d [a, b] | .abs _ d a => twinOk d [a]
  | .min _ d a b => twinOk d [a, b] | .max _ d a b => twinOk d [a, b] | .and _ d a b => twinOk d [a, b]
  | .or _ d a b => twinOk d [a, b] | .xor _ d a b => twinOk d [a, b] | .not _ d a => twinOk d [a]
  | .shl _ d a b => twinOk d [a, b] | .shr _ d a b => twinOk d [a, b] | .sra _ d a b => twinOk d [a, b]
  | .rotl _ d a b => twinOk d [a, b] | .popc _ d a => twinOk d [a] | .clz _ d a => twinOk d [a]
  | .ctz _ d a => twinOk d [a] | .brev _ d a => twinOk d [a] | .bfe _ d a _ _ => twinOk d [a]
  | .bfi _ d a b _ _ => twinOk d [a, b] | .icmp _ _ d a b => twinOk d [a, b] | .sel _ d a b c => twinOk d [a, b, c]
  | .lea _ d a b _ => twinOk d [a, b] | .mov _ d a => twinOk d [a]
  | _ => true

/-- Stream registers, tiles and loop counters, and the uniform registers of the control core, in range (R253, R372). -/
def Instr.kindRegsOk : Instr → Bool
  | .mset d _ => decide (d < 32)
  | .maddi d a _ => decide (d < 32) && decide (a < 32)
  | .mloop l a => decide (l < 3) && (match a with | .inl n => decide (n < 32) | .inr _ => true)
  | .mnext l => decide (l < 3)
  | .mwait _ a => decide (a < 32)
  | .macq d a => decide (d < 32) && decide (a < 32)
  | .mrel a b => decide (a < 32) && decide (b < 32)
  | .mzero t => decide (t < 64)
  | .mmul _ _ _ t a b => decide (t < 64) && decide (a < 32) && decide (b < 32)
  | .mmulb _ _ _ t a b => decide (t < 64) && decide (a < 32) && decide (b < 32)
  | .sysrd _ a => a.isUni
  | .syswr a b => a.isUni && b.isUni
  | .tlbinv _ a b => a.isUni && b.isUni
  | .gresume _ a b => a.isUni && b.isUni
  | .gkill _ a b => a.isUni && b.isUni
  | .ctxsv _ a b => a.isUni && b.isUni
  | .ctxld _ a b => a.isUni && b.isUni
  | .dwmap _ a => a.isUni
  | _ => true

/-- Every register field is one that R253 admits. -/
def Instr.regsOk (i : Instr) : Bool := i.opnds.all Opnd.inRange && i.twinsOk && i.kindRegsOk

/-- Every literal of a 32-bit operand meets R254. -/
def Instr.litsOk (i : Instr) : Bool :=
  i.opnds.all Opnd.litOk && (match i with
    | .mset _ x => lit32Ok x
    | .mloop _ (.inr x) => lit32Ok x
    | _ => true)

/-- The flag field of a long-latency instruction names a flag, R252. -/
def Instr.flagOk (i : Instr) : Bool := match i.flag? with | some f => decide (f < 12) | none => true

/-- `mulhi`, `bfe`, `lea` and `div` take the 32-bit and 64-bit types, R279. -/
def ITy.wide : ITy → Bool
  | .n32 => true | .i32 => true | .n64 => true | .i64 => true | _ => false

/-- A fixed or absent literal place: the sources before the last hold none, R254. -/
def noLit (l : List Src) : Bool := l.all fun x => !x.isLit

/-- T of `mmul` with its scale bit, R353. -/
def mmulOk (t : FTy) (scl : Bool) (kv : Nat) : Bool :=
  decide (kv < 64) && (match t with
    | .f16 => !scl | .bf16 => !scl
    | .e4m3 => true | .e5m2 => true | .e3m2 => true | .e2m3 => true
    | .e2m1 => scl
    | _ => false)

/-- The conditions of R367 on an `mvx`. -/
def mvxOk (t : FTy) (nrc nv : Nat) (a b c : Src) : Bool :=
  (t == .bf16 || t == .e4m3) && decide (nrc < 4) && decide (nv < 16) && decide (mvxRows nrc * (nv + 1) ≤ 64)
    && a.isUni && b.isUni && !c.isLit

/-- The conditions on T, S, RND, I and the operand kinds that make an instruction of its row valid (detail 5 of R263),
and the places where a literal may stand (R254, R259). -/
def Instr.fieldsOk : Instr → Bool
  | .addBase _ a b => noLit [a] && !b.isUni | .subBase _ a b => noLit [a] && !b.isUni | .mulBase _ a b => noLit [a] && !b.isUni
  | .andBase _ a b => noLit [a] && !b.isUni | .orBase _ a b => noLit [a] && !b.isUni | .xorBase _ a b => noLit [a] && !b.isUni
  | .shlBase _ a b => noLit [a] && !b.isUni | .shrBase _ a b => noLit [a] && !b.isUni | .sraBase _ a b => noLit [a] && !b.isUni
  | .minBase _ _ a b => noLit [a] && !b.isUni | .maxBase _ _ a b => noLit [a] && !b.isUni | .icmpBase _ _ a b => noLit [a] && !b.isUni
  | .faddBase _ _ a b => noLit [a] && !b.isUni | .fsubBase _ _ a b => noLit [a] && !b.isUni | .fmulBase _ _ a b => noLit [a] && !b.isUni
  | .fminBase _ _ a b => noLit [a] && !b.isUni | .fmaxBase _ _ a b => noLit [a] && !b.isUni
  | .fcmpBase c _ a b => noLit [a] && !b.isUni && decide (c.code < 6)
  | .brxBase a => noLit [a] | .bnzBase a _ => noLit [a] | .bzBase a _ => noLit [a]
  | .bnz a _ => noLit [a] | .bz a _ => noLit [a] | .brx a => noLit [a]
  | .call adv _ => decide (adv ≤ 128)
  | .calli a adv => noLit [a] && decide (adv ≤ 128)
  | .frame n => decide (1 ≤ n) && decide (n ≤ 128)
  | .brk code => decide (code < 4096)
  | .wrs r a => r.writeOk && (decide (r = .meet) || !a.isVec)
  | .part a => !a.isVec
  | .add _ _ a _ => noLit [a] | .sub _ _ a _ => noLit [a] | .mul _ _ a _ => noLit [a]
  | .mulhi t _ a _ => t.wide && noLit [a]
  | .mulw t _ a _ => (t == .n32 || t == .i32) && noLit [a]
  | .mad _ _ a b _ => noLit [a, b]
  | .adds _ _ a _ => noLit [a] | .subs _ _ a _ => noLit [a]
  | .abs t _ _ => t.signed
  | .min _ _ a _ => noLit [a] | .max _ _ a _ => noLit [a]
  | .and t _ a _ => !t.signed && noLit [a] | .or t _ a _ => !t.signed && noLit [a]
  | .xor t _ a _ => !t.signed && noLit [a] | .not t _ _ => !t.signed
  | .shl _ _ a _ => noLit [a] | .shr _ _ a _ => noLit [a] | .sra _ _ a _ => noLit [a] | .rotl _ _ a _ => noLit [a]
  | .popc t _ _ => !t.signed | .clz t _ _ => !t.signed | .ctz t _ _ => !t.signed | .brev t _ _ => !t.signed
  | .bfe t _ _ p n => t.wide && decide (p < 64) && decide (n < 64) && decide (p + n + 1 ≤ t.width)
  | .bfi t _ a _ p n =>
    t.wide && !t.signed && decide (p < 64) && decide (n < 64) && decide (p + n + 1 ≤ t.width) && noLit [a]
  | .icmp _ _ _ a _ => noLit [a]
  | .sel _ _ a b _ => noLit [a, b]
  | .lea t _ a _ sh => t.wide && decide (sh ≤ 8) && noLit [a]
  | .div t _ a _ _ => t.wide && noLit [a]
  | .rds d r => !d.isUni || r.twinOk
  | .fadd t _ _ a _ => t.isArith && noLit [a] | .fsub t _ _ a _ => t.isArith && noLit [a]
  | .fmul t _ _ a _ => t.isArith && noLit [a] | .ffma t _ _ a b _ => t.isArith && noLit [a, b]
  | .fmin t _ a _ => t.isArith && noLit [a] | .fmax t _ a _ => t.isArith && noLit [a]
  | .fabs t _ _ => t.isArith | .fneg t _ _ => t.isArith
  | .fcmp t _ _ a _ => t.isArith && noLit [a]
  | .frnd t _ _ _ => t.isArith | .fclass t _ _ => t.isArith
  | .lerp t _ _ a b _ => t.isArith && t != .f64 && noLit [a, b]
  | .fdot2 t _ a b _ => t.isArith && t != .f64 && noLit [a, b]
  | .cvt t s _ _ a => t != s && (!a.isLit || decide (cvtRegs s (cvtCount t s) ≤ 2))
  | .cvtfi _ s _ _ _ => s.isArith
  | .cvtif t _ _ _ _ => t.isArith
  | .rcp t _ _ => t == .f32 || t == .f16 | .rsqrt t _ _ => t == .f32 || t == .f16
  | .sqrt t _ _ => t == .f32 || t == .f16 | .exp2 t _ _ => t == .f32 || t == .f16
  | .log2 t _ _ => t == .f32 || t == .f16 | .sincospi t _ _ => t == .f32 || t == .f16
  | .tanh t _ _ => t == .f32 || t == .f16
  | .vote _ _ a => noLit [a]
  | .matchLanes t _ a => noLit [a] && decide (t.code < 4)
  | .shfl t _ _ a _ => noLit [a] && (t == .n32 || t == .n64)
  | .tred t op _ a => noLit [a] && op.takes t
  | .tscan t op _ _ a => noLit [a] && op.takes t
  | .hrand _ a _ => noLit [a]
  | .texf t k lv _ a b _ =>
    noLit [a, b] && (t == .f32 || t == .f16) && decide (lv < 16) && (k != .tri || lv == 0)
  | .ld t o _ _ a _ _ => noLit [a] && (!o.strong || t.strongOk)
  | .st t o _ a _ b => noLit [a] && (!o.strong || t.strongOk) && (!b.isLit || t != .n128)
  | .ldt _ _ _ a _ _ => noLit [a]
  | .ldsp t o _ a _ _ => noLit [a] && (!o.strong || t.strongOk)
  | .stsp t o a _ b => noLit [a] && (!o.strong || t.strongOk) && (!b.isLit || t != .n128)
  | .atom op t _ _ _ _ a _ b c _ =>
    op.takes t && noLit [a] && (if op = .cas then noLit [b] else decide (c = .v 0))
  | .redOrd op t _ a _ _ => op.reduces && op.takes t && noLit [a]
  | .binit a _ => noLit [a] | .barrive _ a => noLit [a] | .waitph a _ => noLit [a]
  | .rres _ a => noLit [a] | .rpub a _ => noLit [a] | .racq _ a => noLit [a] | .rrel a _ => noLit [a]
  | .siph a => noLit [a]
  | .tspawn _ a b _ => noLit [a, b]
  | .rtrace _ _ _ _ a b _ => noLit [a, b]
  | .gemit _ a b => noLit [a, b]
  | .accrd t _ _ tl w _ => (t == .f32 || t == .f16 || t == .bf16) && decide (tl < 64) && decide (w < 64)
  | .accsp t _ a tl w => noLit [a] && (t == .f32 || t == .f16 || t == .bf16) && decide (tl < 64) && decide (w < 64)
  | .accwr t a tl w => noLit [a] && (t == .f32 || t == .f16 || t == .bf16) && decide (tl < 64) && decide (w < 64)
  | .neval t nin nout _ a b _ =>
    noLit [a, b] && (t == .f32 || t == .bf16) && nin % 8 == 0 && nout % 8 == 0
      && decide (8 ≤ nin) && decide (nin ≤ 64) && decide (8 ≤ nout) && decide (nout ≤ 64)
  | .mvx t _ nrc nv _ a b c _ => mvxOk t nrc nv a b c
  | .mvxa t _ nrc nv _ a b c _ => mvxOk t nrc nv a b c
  | .mvxs t _ nrc nv _ a b c _ => mvxOk t nrc nv a b c
  | .mwait n _ => decide (n < 256)
  | .marr n => decide (n < 256)
  | .mmul t scl kv _ _ _ => mmulOk t scl kv
  | .mmulb t scl kv _ _ _ => mmulOk t scl kv
  | _ => true

/-- The largest vector register of an operand whose count the fields give exists (R253): `neval` and `mvx`. -/
def Instr.spanOk : Instr → Bool
  | .neval _ nin nout d _ b _ =>
    decide (d + nout ≤ 1024) && (match b with
      | .v n => decide (n + nin ≤ 1024) | .s n => decide (n + nin ≤ 192) | .lit _ => true)
  | .mvx _ _ nrc nv d _ _ _ _ => decide (d + mvxRows nrc * (nv + 1) ≤ 1024)
  | .mvxa _ _ nrc nv d _ _ _ _ => decide (d + mvxRows nrc * (nv + 1) ≤ 1024)
  | .mvxs _ _ nrc nv d _ _ _ _ => decide (d + mvxRows nrc * (nv + 1) ≤ 1024)
  | _ => true

end Sys2Proof
end

