-- ==== Sys2Proof/Config.lean ====
section
/-!
DEFINITION. What the form of the device fixes, the limits the spec states as numbers, and the free values: opaque
constants that stand for what the spec leaves open, so that nothing can be proved of their values.
-/
namespace Sys2Proof.Config

/-- The three forms in which the device is ordered, R1. -/
inductive Form where
  | bareDie    -- SXV-4101
  | package    -- SXV-4404
  | module     -- SXV-4404M
  deriving DecidableEq, Repr

/-- Density of every memory device, R70. -/
inductive Density where
  | gbit16
  | gbit32
  deriving DecidableEq, Repr

/-- Compute dies of a form, R1. -/
def Form.dies : Form → Nat
  | .bareDie => 1
  | .package => 4
  | .module => 4

/-- DEV_ID.FORM, R439. -/
def Form.code : Form → Nat
  | .bareDie => 1
  | .package => 4
  | .module => 5

/-- The power limit in watts, R454. -/
def Form.wattLimit : Form → Nat
  | .bareDie => 300
  | .package => 1150
  | .module => 1600

/-- Granules of 2 KiB in a channel, R70. -/
def Density.granules : Density → Nat
  | .gbit16 => 2031616
  | .gbit32 => 4063232

def coresPerDie : Nat := 48
def contextSlots : Nat := 64
def channelsPerDie : Nat := 12
/-- R167: group slots of a core, four to each lane pipeline. -/
def groupSlots : Nat := 512
def pipelines : Nat := 128
/-- R50: registers of a core's register file. -/
def registerFile : Nat := 1048576
/-- R49: scratchpad bytes of a core. -/
def scratchpad : Nat := 4194304
/-- R57: tiles of a core. -/
def tilesPerCore : Nat := 64
/-- R199: streams a sequencer holds. -/
def streamSlots : Nat := 8
/-- R219: records a wellhead holds. -/
def wellheadRoom : Nat := 4096
/-- R222: core cycles a record stands before its key forms a group. -/
def wellheadCycles : Nat := 256
/-- R363: open windows of a manifold, rows of a window, windows of a pass. -/
def manifoldWindows : Nat := 16
def windowRows : Nat := 256
/-- R152: commands a siphon holds. -/
def siphonQueue : Nat := 64
/-- R181: largest value of a flag counter. -/
def flagMax : Nat := 63
/-- R195: return entries held in hardware. -/
def returnEntries : Nat := 16
/-- R385: bytes of a cistern. -/
def cisternBytes : Nat := 2097152
def cisterns : Nat := 16
def sampleUnits : Nat := 8
def dicers : Nat := 4
/-- R73: words of a bank arithmetic unit's result queue. -/
def resultQueue : Nat := 512
/-- R34: pages of a core's miss queue. -/
def missQueue : Nat := 64
/-- R33: entries of a core's TLB and of a die's walk cache. -/
def tlbEntries : Nat := 2048
def tlbWays : Nat := 8
def walkEntries : Nat := 512
/-- R33, R34: walk slots of a die's walker, and requests that may join one walk. -/
def walkSlots : Nat := 64
def missJoins : Nat := 256
/-- R27: entries of a die's address translation cache. R443: those of a port's aperture translation cache. -/
def atcEntries : Nat := 1024
def apertureEntries : Nat := 256
/-- R49: lines of 128 bytes of a core's instruction cache, of its L1 and of a home slice, and the ways of each. -/
def codeLines : Nat := 512
def codeWays : Nat := 4
def l1Lines : Nat := 1024
def l1Ways : Nat := 8
def l2Lines : Nat := 16384
def l2Ways : Nat := 16

/-! ### Free values (R11, R93, R227, R452): the spec names a set, the device produces a member of it -/

/-- A choice among several permitted results, by a number of the state's counter.
DESIGN CHOICE: log 8. -/
opaque pick : Nat → Nat
/-- The mean busy fraction of the channels, in sixteenths, that the sluice finds at its n-th call (R227). -/
opaque sluiceBusy : Nat → Nat
/-- The bound of control points of which one is NaN (R381), as a number and a power of two. -/
opaque openBound : List Nat → Nat → Int × Int
/-- The part's silicon revision and serial number, and its public keys (R439, R451, R452). -/
opaque siliconRev : Nat
opaque serialNumber : Nat → Byte
opaque ed25519Public : Nat → Byte
opaque mlDsaPublic : Nat → Byte
/-- The SHA-384 digest of a message, byte by byte (R452). -/
opaque sha384 : List Byte → Nat → Byte
/-- The device's two signatures over a message, byte by byte (R451, R452). -/
opaque ed25519Sign : List Byte → Nat → Byte
opaque mlDsaSign : List Byte → Nat → Byte
/-- Whether a firmware image carries both Brihel signatures, and its rollback counter (R453). -/
opaque imageSigned : List Byte → Bool
opaque imageRollback : List Byte → Nat
/-- The fused rollback counter (R449). -/
opaque fusedRollback : Nat
/-- The control-core firmware, the memory-training result (of what each channel reported) and the fuse state (of every
core mask) as the digests take them (R452). -/
opaque controlFirmware : List Byte
opaque trainingResult : List Bool → List Byte
opaque fuseState : List Nat → List Byte
/-- A byte of the certificate chain of an algorithm, and the chain's length (R452). -/
opaque certificate : Nat → Nat → Byte
opaque certificateLength : Nat → Nat

end Sys2Proof.Config
end

