-- ==== Sys2Proof/Machine/State.lean ====
section
/-!
DEFINITION. The state of the device, all of it plain data: what programs see (R171), what the register blocks of the
device hold, the memories, and what each engine holds while its work is in progress. Every field stands at its reset
value in `State.reset`.
-/
namespace Sys2Proof.Machine

/-! ### Why a step can stop -/

/-- A stop for an access to something that the device does not have. -/
inductive Fault where
  /-- Raised by an event that names device physical memory at or above M of R32, which does not exist (safe). -/
  | noSuchMemory
  deriving DecidableEq, Repr

/-- An instruction without a meaning. -/
inductive Refusal where
  /-- Raised by an arm of the dispatch whose instruction has no meaning yet (safe). -/
  | notModelled (mnemonic : String)
  deriving DecidableEq, Repr

/-! ### Traps and faults -/

/-- Trap causes, R419. -/
inductive Cause where
  | illegalInstr | regOutOfFrame | stackOverflow | returnUnderflow | pageFault | accessViolation | misaligned
  | determinismConflict | nevalHandle | nevalWeights | ringMisuse | barrierMisuse | brk | watch | memUncorrectable
  deriving DecidableEq, Repr

/-- Kinds of access, R22 and KIND of R40. -/
inductive Access where
  | read | write | atomic | fetch
  deriving DecidableEq, Repr

/-- What a thread's, a stream's or an engine's performance finds instead of completing. `level` is LEVEL of R40;
`demand` marks the replayable faults of R38, `ue` the device address of an uncorrectable error (R80), `source` is the
SOURCE of R41. -/
structure Trap where
  cause : Cause
  detail : Nat := 0
  aux : Nat := 0
  kind : Access := .read
  level : Nat := 7
  demand : Bool := false
  ue : Option Nat := none
  source : Nat := 0
  deriving DecidableEq, Repr

/-- The unit that a fault record names, R41. -/
structure Source where
  code : Nat
  die : Nat := 0
  core : Nat := 0
  group : Nat := 0
  lane : Nat := 0
  pc : DWord := 0
  deriving DecidableEq, Repr

/-- A trap record, R423. -/
structure TrapRec where
  pc : DWord := 0
  cause : Cause
  detail : Nat
  stream : Bool := false
  die : Nat
  core : Nat
  group : Nat
  lane : Nat
  aux : Nat
  more : Nat := 0
  deriving DecidableEq, Repr

/-- A fault record, R40, outstanding from its fault to its replay (R43). `id` names it to those who wait on it; `seq`
is given when it is written; `trap` is the trap of a lane that made it, which the context keeps where the record turns fatal
(R420). -/
structure FaultRec where
  id : Nat
  va : Nat
  sub : Nat
  kind : Access
  src : Source
  level : Nat
  joined : Nat := 0
  seq : Option Nat := none
  trap : Option TrapRec := none
  deriving DecidableEq, Repr

/-! ### Threads and groups -/

/-- An entry of a return stack, R192. -/
structure RetEntry where
  addr : DWord
  adv : Nat
  f : Nat
  deriving DecidableEq, Repr

/-- Why a lane is Held in wait or Stopped: the phase of a barrier object, with where it goes on (R147), the grid barrier (R225), a trap, or an
outstanding replayable fault by its record's `id` (R39). -/
inductive Hold where
  | none
  | phase (off : Nat) (p : Word) (next : DWord)
  | grid
  | trap
  | record (id : Nat)
  deriving DecidableEq, Repr

/-- Thread states, R172. -/
inductive LaneState where
  | ready | heldMeet | heldWait | stopped | exited | vacant
  deriving DecidableEq, Repr

/-- A trap of an `neval` found at close (R365, R417), kept until the lane's clause ends. -/
structure NevalTrap where
  cause : Cause
  detail : Nat
  aux : Nat
  flag : Nat
  deriving DecidableEq, Repr

/-- The rest of a clause that a thread stands inside, R416: instructions left, and WAIT, SETA and SETB of its header. -/
structure Mid where
  left : Nat
  wait : Nat
  setA : Nat
  setB : Nat
  deriving DecidableEq, Repr

/-- A thread, R171: one lane of a group. `slots` holds its register stack; `seq` is SEQ of R96; `mark` is set by
`garrive` until the clause ends (R343); `noWatch` lets the watched instruction pass once (R422); `neval` holds the traps found
at close by flag (R365); `grid` names the grid-shading task the lane holds as launch, patch and grid
(R386); `bad` lists the slots that hold an uncorrectable error (R79); `due` keeps the address and the meeting address in force
until the lane next issues, where the debug window has written others (R425). -/
structure Lane where
  st : LaneState := .vacant
  hold : Hold := .none
  pc : DWord := 0
  meet : DWord := BitVec.allOnes 64
  wb : Nat := 0
  f : Nat := 0
  ret : List RetEntry := []
  slots : Store 32 := []
  seq : Nat := 0
  mark : Bool := false
  noWatch : Bool := false
  neval : List NevalTrap := []
  grid : Option (Nat × Nat × Nat) := none
  bad : List Nat := []
  mid : Option Mid := none
  due : Option (DWord × DWord) := none
  deriving DecidableEq, Repr

/-- A texture or ray request of one lane, with the registers its issue read. -/
structure LaneOp where
  lane : Nat
  addr : DWord
  args : List Word
  dst : Nat
  deriving DecidableEq, Repr

/-- The three instructions of the `mvx` family, R370. -/
inductive MvxKind where
  | plain | acc | scaled
  deriving DecidableEq, Repr

/-- What an outstanding long-latency issue still has to do before its registers can be written: nothing, texture reads
(R322), ray queries (R345), an `mvx` call (R371), or a wait for manifold passes by its number (R366). -/
inductive Work where
  | none
  | tex (t : FTy) (k : Filt) (level : Nat) (ops : List LaneOp)
  | ray (any cullB cullF : Bool) (ops : List LaneOp)
  | mvx (kind : MvxKind) (t : FTy) (h : PathHint) (nr nv : Nat) (desc vaddr : DWord) (ops : List LaneOp)
  | neval (no : Nat)
  deriving DecidableEq, Repr

/-- One outstanding issue of a long-latency instruction, R181: the flag it counts on, the lanes' results still to be
written as (lane, slot, value), and the `%fstat` bits raised when the results are written (R241). -/
structure Pend where
  flag : Nat
  pc : DWord
  lanes : List Nat
  work : Work
  writes : List (Nat × Nat × Word)
  fstat : Nat
  waitOn : Option Nat := none
  deriving DecidableEq, Repr

/-- A resident group, R167 and R171, in slot `slot` of core `core`; `badUni` lists the uniform registers that hold an
uncorrectable error (R79). -/
structure Group where
  core : Nat
  slot : Nat
  ctx : Nat
  team : Nat
  role : Nat
  index : Nat
  lanes : List Lane
  sregs : Store 32 := []
  badUni : List Nat := []
  flags : List Nat := List.replicate 12 0
  tpart : Nat := 5
  fmode : Word := 1
  fstat : Nat := 0
  fseed : Word := 0
  lam : Nat := 31
  age : Nat := 0
  tasks : Bool := false
  pend : List Pend := []
  trap : Option TrapRec := none
  deriving DecidableEq, Repr

/-! ### Teams and streams -/

/-- A matrix stream, R197 to R200 and R348: `idx` counts instructions, `stack` holds the open loops (the counter and
the index after its `mloop`). -/
inductive StreamState where
  | fetching | running | held | ended | stopped
  deriving DecidableEq, Repr

structure Stream where
  entry : DWord
  len : Nat
  words : List Word := []
  st : StreamState := .fetching
  idx : Nat := 0
  pos : Nat := 0
  m : Store 32 := []
  l : List Nat := [0, 0, 0]
  loops : List (Nat × Nat × Nat) := []
  waitOn : Option Nat := none
  deriving DecidableEq, Repr

/-- A role of a team: its descriptor of R205. -/
structure Role where
  entry : DWord
  cont : DWord
  g : Nat
  b : Nat
  task : Bool
  k : Nat
  d : Nat
  deriving DecidableEq, Repr

/-- A placed team, R167 and R168: its cores in quarter order, its window (keys are the offsets of R14), its tiles
(key 4096 × tile + 64 × row + column), its stream, the group slots reserved on its cores (core, slot, index),
where its window and its tiles hold uncorrectable errors (R79), and SEQ of R96 of the threads, by `%tid`, whose lanes have been
left. -/
structure Team where
  id : Nat
  ctx : Nat
  launch : Nat
  no : Nat
  cores : List Nat
  logical : Nat
  spsize : Nat
  tiles : Nat
  barbase : Nat
  roles : List Role
  slots : List (Nat × Nat × Nat)
  det : Bool
  spad : Store 8 := []
  acc : Store 32 := []
  stream : Option Stream := none
  badSpad : List Nat := []
  badAcc : List Nat := []
  seqs : List (Nat × Nat) := []
  deriving DecidableEq, Repr

/-! ### Launches -/

/-- One recorded contribution, R96 and R97: its key, its address and physical address, its range, whether its page lets L2 keep
its line (R23), and its operand. -/
structure Contribution where
  key : Nat × Nat × Nat
  va : Nat
  pa : Nat
  range : Nat
  keep : Bool
  value : DWord
  deriving DecidableEq, Repr

/-- One range of a reduction table, R94, with the physical bytes it declares. -/
structure RedRange where
  base : Nat
  bytes : Nat
  op : AOp
  ty : ATy
  log : Nat
  logBytes : Nat
  deriving DecidableEq, Repr

/-- A shaded vertex: the values of R346 and the CULL bit; none until it is emitted. -/
structure Vertex where
  vals : List Word
  cull : Bool
  deriving DecidableEq, Repr

/-- A diced grid, R382, with its window of pixels (R384) and the state of its vertices. `open_` counts its tasks that
have not left their lanes (R386). -/
structure Grid where
  patch : Nat
  g : Nat
  nu : Nat
  nv : Nat
  window : Int × Int × Int × Int
  oqe : Bool
  oq : Nat
  verts : List (Option Vertex)
  open_ : Nat
  deriving DecidableEq, Repr

inductive BucketState where
  | waiting | resolved | committed
  deriving DecidableEq, Repr

/-- A bucket or a quadrant of one, R383 and R387: the number of its bucket, its square and its die; the copies in its
cistern in order of arrival and those spilled, as tokens (patch, grid), the spilled ones with their place in the pool; what
its resolve found: the words of its pixels by plane, and its counts. `stolen` names the die that stole it. -/
structure Bucket where
  id : Nat
  no : Nat
  x : Nat
  y : Nat
  size : Nat
  die : Nat
  st : BucketState := .waiting
  stolen : Option Nat := none
  cistern : Bool := false
  copies : List (Nat × Nat) := []
  spilled : List (Nat × Nat × Nat) := []
  pixels : List (Nat × Nat × List Nat) := []
  tested : Nat := 0
  passed : Nat := 0
  oq : List Nat := []
  ues : Nat := 0
  waitOn : Option Nat := none
  deriving DecidableEq, Repr

/-- A patch that a dicer holds, R380 and R392: whether its record has been read and diced, and its grids whose task
records are still to be appended, each with the team and quarter chosen for it and the arguments of the records left. -/
structure Dicing where
  die : Nat
  patch : Nat
  diced : Bool := false
  entry : DWord := 0
  rest : List (Nat × Option (Nat × Nat) × List (List Word)) := []
  waitOn : Option Nat := none
  deriving DecidableEq, Repr

/-- A render launch, R375 to R414: its descriptor, the patches each die has still to dice, those that its dicers hold,
the patches diced again (R410), its grids, the copies on their way as (patch, grid, bucket number, what it waits on), its
buckets in ascending order, and its counters. -/
structure Render where
  desc : List Word
  todo : List (Nat × List Nat)
  held : List Dicing := []
  again : List Nat := []
  grids : List Grid := []
  flight : List (Nat × Nat × Nat × Option Nat) := []
  buckets : List Bucket := []
  stats : List Nat := List.replicate 9 0
  oq : List Nat := List.replicate 64 0
  invalid : Nat := 0
  abort : Bool := false
  deriving DecidableEq, Repr

/-- An accepted launch, R203 to R217: the words of its record, the tables read with it, how many teams (or clusters)
have been placed and have ended, how many clusters have retired in rank order and the count that PROG was last told (R217), the cores that have held a team of it
(R59), and the bytes that a host has written in its ranges, each with the value that it held before (R98). -/
structure Launch where
  id : Nat
  ctx : Nat
  queue : Nat
  record : List Word
  table : List RedRange
  accepted : Nat
  placed : Nat := 0
  ended : List Nat := []
  retired : Nat := 0
  told : Nat := 0
  contrib : List Contribution := []
  committed : Bool := false
  seen : List Nat := []
  hosted : List (Nat × Byte) := []
  render : Option Render := none
  waitOn : Option Nat := none
  deriving DecidableEq, Repr

/-- What the engine holds of the record at a queue's HEAD, R203 and R207. -/
inductive Head where
  | none
  | prereq (npre : Nat) (entries : List (Nat × Nat × Bool))
  | read (record : List Word) (table : List RedRange) (render : Option (List Word))
  | placing (launch : Nat)
  deriving DecidableEq, Repr

/-- A launch queue, R201 and R202. -/
structure LQ where
  base : DWord := 0
  ctl : Word := 0
  err : Bool := false
  ecode : Nat := 0
  erridx : Nat := 0
  tail : BitVec 16 := 0
  head : Nat := 0
  taking : Head := .none
  waitOn : Option Nat := none
  deriving DecidableEq, Repr

/-- A record of a wellhead or a sump, R219 and R341: `since` is the core's cycle at which it entered the wellhead. -/
structure Task where
  team : Nat
  quarter : Nat
  role : Nat
  entry : DWord
  args : List Word
  grid : Option (Nat × Nat × Nat) := none
  since : Nat := 0
  deriving DecidableEq, Repr

/-- A command accepted by a siphon, R152 to R157: its descriptor, the mode and seed taken at acceptance, how many
elements have been copied, IDX[i] of the row that the copy stands in (R156), and the source its faults are charged to. -/
structure Copy where
  siphon : Nat
  core : Nat
  ctx : Nat
  team : Nat
  desc : List Word
  fmode : Word
  fseed : Word
  done : Nat := 0
  index : Option Nat := none
  src : Source
  waitOn : Option Nat := none
  deriving DecidableEq, Repr

/-- One row of a manifold window, R362 to R366: the lane and the issue it belongs to, its operands as read at issue, and,
once its window has been read, its outputs or the trap that its lane takes. -/
structure Row where
  slot : Nat
  lane : Nat
  no : Nat
  t : FTy
  ins : List Word
  nout : Nat
  dst : Nat
  flag : Nat
  pc : DWord
  outs : List Word := []
  trap : Option (Cause × Nat) := none
  deriving DecidableEq, Repr

/-- A window of a manifold, R363: its key (context, handle), its rows in order of arrival, the cycle at which it opened,
whether it has closed, and whether its weights have been read. -/
structure Window where
  core : Nat
  ctx : Nat
  handle : DWord
  rows : List Row
  since : Nat
  closed : Bool := false
  loaded : Bool := false
  waitOn : Option Nat := none
  deriving DecidableEq, Repr

/-- A request that waits for a window, R363. -/
structure Request where
  core : Nat
  ctx : Nat
  handle : DWord
  row : Row
  deriving DecidableEq, Repr

/-! ### Contexts -/

/-- An entry of the residency region table, R45; none where the entry is not enabled. -/
structure Region where
  base : Nat
  size : Nat
  map : Nat
  deriving DecidableEq, Repr

/-- A trap held for the host, R422: the group it stopped, the address after the instruction, and its record. -/
structure HeldTrap where
  core : Nat
  slot : Nat
  next : DWord
  record : TrapRec
  deriving DecidableEq, Repr

/-- A context slot: the registers of R28 to R31, R42, R45, R201, R221, R421, R426 and R443, and what the device keeps
for the context; `unread` lists the entries of the region table that a reading still waits for (R27, R45). -/
structure Ctx where
  ptroot : DWord := 0
  ctrl : Word := 0
  faulted : Bool := false
  rfmlost : Bool := false
  asidclash : Bool := false
  aperr : Bool := false
  portbad : Bool := false
  fsub : Nat := 0
  fqbase : DWord := 0
  fqsize : Word := 0
  fqhead : BitVec 16 := 0
  fqtail : Nat := 0
  fqwrap : Bool := false
  seq : Nat := 0
  recs : List FaultRec := []
  rfmtab : DWord := 0
  regions : List (Option Region) := []
  unread : List Nat := []
  sumpBase : DWord := 0
  sumpCtl : Word := 0
  shead : Nat := 0
  stail : Nat := 0
  sumpWait : Option Nat := none
  trapctl : Word := 0
  held : List HeldTrap := []
  fatal : Option TrapRec := none
  busy : Bool := false
  saved : Bool := false
  perr : Bool := false
  rerr : Bool := false
  savesz : Word := 0
  savebase : Word := 0
  watch : List (BitVec 128) := List.replicate 4 0
  apvbase : DWord := 0
  lq : List LQ := List.replicate 4 {}
  deriving DecidableEq, Repr

/-- A save of a context, R431 to R434: the device address of its header, its groups, teams, paused copies, wellhead
records (with their core) and held traps, as they stand in the device's private form; `image` is the bytes written, by which
`ctxld` knows a save wherever it stands, and `part` tells one that a control core took during a pre-emption (R427). -/
structure Saved where
  ctx : Nat
  at_ : Nat
  image : List Byte := []
  part : Bool := false
  teams : List Team
  groups : List Group
  copies : List Copy
  tasks : List (Nat × Task)
  held : List HeldTrap
  deriving DecidableEq, Repr

/-! ### Translation -/

/-- A leaf as a translation holds it, R18: the level at which it stands, whether it is a 64 KiB page, and the entry. -/
structure Leaf where
  level : Nat
  big : Bool
  entry : DWord
  deriving DecidableEq, Repr

/-- An entry of a core's TLB or of a port's aperture translation cache, tagged by PART and ASID (R33, R443); `unit` is
the core or the port. -/
structure TlbEntry where
  unit : Nat
  part : Nat
  asid : Nat
  vbase : Nat
  leaf : Leaf
  deriving DecidableEq, Repr

/-- An entry of a die's walk cache: a table entry of level 3, 2 or 1 (R33), read below the root ROOT (R29). -/
structure WalkEntry where
  die : Nat
  root : Nat
  part : Nat
  asid : Nat
  level : Nat
  vbase : Nat
  entry : DWord
  deriving DecidableEq, Repr

/-- An entry of a die's address translation cache (R27): a host page translated, or refused. -/
structure AtsEntry where
  die : Nat
  ctx : Nat
  page : Nat
  target : Option Nat
  deriving DecidableEq, Repr

/-! ### The caches of data, R49, R60, R61 -/

/-- A sector of 32 bytes that a core's L1 holds (R49): the memory and the number of the sector, its bytes, which stores of
other cores leave as they were until an acquire, and whether its line is first to be evicted (R66). -/
structure L1Sector where
  core : Nat
  key : Nat × Nat
  bytes : List Byte
  first : Bool := false
  deriving DecidableEq, Repr

/-- A line of 128 bytes that its home slice holds in L2 (R61, R62): the memory and the number of the line, whether it is dirty
with, then, the bytes that device memory still holds beneath it, whether it is first to be evicted (R66), and whether it was
corrected when it was read, so that its eviction writes it back (R71). What the slice answers for a line, held or not, is what
`State.mem` or `State.sysMem` reads. -/
structure L2Line where
  key : Nat × Nat
  dirty : Bool := false
  below : List Byte := []
  first : Bool := false
  fix : Bool := false
  deriving DecidableEq, Repr

/-! ### The device's own registers and engines -/

inductive Stage where
  | priming | stage1 | stage2 | halted
  deriving DecidableEq, Repr

/-- Owner of `MGMT_SEM`, R440. -/
inductive Owner where
  | free | port (p : Port) | firmware
  deriving DecidableEq, Repr

/-- A die's registers of R439; `turn` is the core to which its walker gave a slot last (R34). -/
structure Die where
  en : BitVec 48
  halt : BitVec 48 := 0
  memok : Bool := false
  bank : Bool := false
  linkok : Bool := false
  peak : Nat := 0
  temp : Nat := 0
  sluiceCtl : Word := 0x80C#32
  sluiceHint : List Word := [0#32, 0x804#32, 0x1010#32]
  mfldWin : Word := 256#32
  turn : Nat := 47
  deriving DecidableEq, Repr

/-- A channel's registers of R81. -/
structure Channel where
  trained : Bool := false
  hj : Bool := false
  ue : Bool := false
  bafault : Bool := false
  cecnt : Nat := 0
  ueaddr : DWord := 0
  unitcnt : Nat := 0
  illcnt : Nat := 0
  uecnt : Nat := 0
  deriving DecidableEq, Repr

/-- A bank arithmetic unit, R73 and R74: its vector slots (key 4096 × slot + byte), those that the controller has loaded, each with
the call for which it has (its core, its group's slot and its address), its result queue, where a status word is marked, and whether a parity error stands in it (R79). -/
structure BankUnit where
  channel : Nat
  device : Nat
  bank : Nat
  slots : Store 8 := []
  loaded : List (Nat × Nat × Nat × Nat) := []
  queue : List (Word × Bool) := []
  parity : Bool := false
  deriving DecidableEq, Repr

/-- The quiet registers and the governor's variables, R454 and R455; `cool` counts the intervals at or below 95 °C. -/
structure Quiet where
  cap : Word := 80#32
  pwrCap : Word
  act : Word := 0x00321400#32
  eng : Bool := false
  floor : Bool := false
  clk : Nat := 16
  pwr : Nat := 0
  g : Nat := 80
  low : Nat := 0
  cool : Nat := 0
  deriving DecidableEq, Repr

/-- What is private to a host port: its link, its invalidation interface (R36) and its mailbox (R452); `mboxSem` tells whether the
port held `MGMT_SEM` when its GO arrived (R440), `sent` and `sentLen` are the message that it sent. -/
structure PortState where
  up : Bool := true
  invva : DWord := 0
  invctl : Word := 0
  busy : Bool := false
  mboxLen : BitVec 16 := 0
  mboxBusy : Bool := false
  mboxSem : Bool := false
  mbox : Store 8 := []
  sent : Store 8 := []
  sentLen : BitVec 16 := 0
  deriving DecidableEq, Repr

/-- The firmware slots and an image being taken, R453. -/
structure Firmware where
  active : Nat := 0
  images : List (List Byte) := [[], []]
  next : Option Nat := none
  taking : Option (Nat × Store 8) := none
  deriving DecidableEq, Repr

/-- A core's own state: its cycle counter (R277), its debug block (R424) and its control core (R372, R436).
DESIGN CHOICE: log 3. -/
structure CoreState where
  clk : BitVec 64 := 0
  dwinLane : Nat := 0
  dwinBase : Nat := 0
  dwinSlot : Option Nat := none
  ctlPc : DWord := 0
  ctlRegs : Store 32 := []
  ctlPending : Bool := false
  deriving DecidableEq, Repr

/-- A byte that a thread has stored and that has not been performed (R119, R331): its core, group slot, lane and context, its place (an
offset in the window of a team, or a port and an address, without a port in device memory), its value, what its page and hint keep
in L2 (R67), and whether the threads of its group have it from an `.sc` fence of their scope (R118). -/
structure HeldByte where
  core : Nat
  slot : Nat
  lane : Nat
  ctx : Nat
  team : Option Nat
  port : Option Nat
  addr : Nat
  byte : Byte
  keep : Bool
  first : Bool
  shared : Bool := false
  deriving DecidableEq, Repr

/-- The clause that a lane pipeline is performing, R174: the words still to perform and the class that performs them; `delay`
tells whether the plain stores of its threads are held back (R119, R331). -/
structure Issue where
  core : Nat
  pipe : Nat
  slot : Nat
  lanes : List Nat
  pc : DWord
  words : List Word
  left : Nat
  wait : Nat
  setA : Nat
  setB : Nat
  delay : Bool := false
  deriving DecidableEq, Repr

/-- Where a request for a walk stands, R33 and R34: in its core's miss queue, in a slot of its die's walker, or ended, so that
the accesses that joined it go on. -/
inductive MissStage where
  | queued | walking | walked
  deriving DecidableEq, Repr

/-- A page that a core waits for, R34, with the threads whose accesses joined the request, as slot and lane. -/
structure Miss where
  core : Nat
  ctx : Nat
  page : Nat
  stage : MissStage := .queued
  joined : List (Nat × Nat) := []
  deriving DecidableEq, Repr

/-- Code bytes that a core's instruction caches hold, R58. -/
structure CodeLine where
  core : Nat
  loc : Bool
  addr : Nat
  bytes : List Byte
  deriving DecidableEq, Repr

/-- What a host request returned: nothing yet, bytes, or Unsupported Request. -/
inductive Reply where
  | none
  | data (bytes : List Byte)
  | unsupported
  | message (bytes : List Byte)
  deriving DecidableEq, Repr

/-- Which agent performs the current instruction. -/
inductive Who where
  | lanes | stream | control
  deriving DecidableEq, Repr

/-- What became of the current instruction: performed, split by a trap, or waiting before it. -/
inductive Fate where
  | go | split | wait
  deriving DecidableEq, Repr

/-- The instruction being performed: its agent, its class in ascending lane order, its address and that of the next
instruction, the flags of its clause (R179), for R331 what its lanes have written: the bytes written each on its own, and
the places of the words written whole (R109); the pages for which finished walks have served
its lanes (R34); and whether its plain stores are held back (R331). -/
structure Cur where
  who : Who
  core : Nat
  slot : Nat
  lanes : List Nat
  pc : DWord
  next : DWord
  setA : Nat := 15
  setB : Nat := 15
  fate : Fate := .go
  wrote : List (Nat × Nat) := []
  words : List (Nat × Nat) := []
  served : List Nat := []
  delay : Bool := false
  deriving DecidableEq, Repr

/-- Which agent moves next. -/
inductive Act where
  | event (i : Instr)
  | lane (core pipe : Nat)
  | stream (team : Nat)
  | control (core : Nat)
  | land (core slot idx n : Nat)
  | tick (core n : Nat)
  | elapse (us : Nat)
  | evictTlb (unit : Nat) (vbase : Nat)
  | codeLine (core : Nat) (ctx : Nat) (va : Nat)
  | memoryError (pa : Nat)
  | hostMemoryError (port a : Nat)
  | singleBit (pa : Nat)
  | evictLine (memory line : Nat)
  | dropSector (core memory sector : Nat)
  | ats (die ctx page : Nat) (target : Option Nat)
  | regions (n : Nat)
  | unitError (channel device bank : Nat)
  | uniformError (core slot i : Nat)
  | registerError (core slot lane i : Nat)
  | windowError (team off : Nat)
  | tileError (team cell : Nat)
  | placeSaved (n : Nat)
  | progress (launch : Nat)
  | message (v : Via) (code : Nat)
  | hostRead (by_ : Agent) (bar : Bar) (off n : Nat)
  | delayStores (core pipe : Nat)
  | performStores (core slot k : Nat)
  deriving DecidableEq, Repr

/-- What is fixed when a part is made and ordered: its form, its memory devices and its fuses (R1, R4, R70). -/
structure Part where
  form : Config.Form
  density : Config.Density
  deriving DecidableEq, Repr

structure State where
  part : Part
  powered : Bool
  stage : Stage
  err : Nat
  single : Bool
  therm : Bool
  linklost : Bool
  trip : Bool
  dies : BitVec 4
  memMib : Nat
  mgmt : Owner
  quiet : Quiet
  die : List Die
  vfmap : List (BitVec 128)
  ports : List PortState
  partWin : List Word
  chan : List Channel
  ucie : List (Nat × Nat × List Bool)
  units : List BankUnit
  fw : Firmware
  code : Store 8
  ctx : List Ctx
  cores : List (Nat × CoreState)
  mem : List Host.Cell
  sysMem : Store 8
  ue : List Nat
  sysUe : List Nat
  ce : List Nat
  l1 : List L1Sector
  l2 : List L2Line
  past : List (Nat × List Byte)
  tlb : List TlbEntry
  aptc : List TlbEntry
  walk : List WalkEntry
  atc : List AtsEntry
  ats : List (Nat × Nat × Nat)
  pri : List (Nat × Nat)
  misses : List Miss
  lines : List CodeLine
  launches : List Launch
  teams : List Team
  groups : List Group
  wells : List (Nat × Task)
  sumps : List (Nat × Nat × Task)
  copies : List Copy
  windows : List Window
  requests : List Request
  issues : List Issue
  stores : List HeldByte
  saves : List Saved
  images : List Saved
  cur : Cur
  us : Nat
  ids : Nat
  free : Nat
  reply : Reply
  agenda : List Act
  deriving DecidableEq, Repr

/-- The density of a part's memory devices: those of a module are HJ-32B (R1), of 32 Gbit (R70). -/
def Part.devices (p : Part) : Config.Density := if p.form = .module then .gbit32 else p.density

/-! ### Reset -/

/-- A part as ordered: the module, 32 Gbit devices.
DESIGN CHOICE: log 2. -/
def Part.reset : Part := ⟨.module, .gbit32⟩

def Cur.reset : Cur := { who := .lanes, core := 0, slot := 0, lanes := [], pc := 0, next := 0 }

/-- The device before power-good: every register at the value of its table, every memory reading as zero, no work.
DESIGN CHOICE: log 1. DESIGN CHOICE: log 2. DESIGN CHOICE: log 3. -/
def State.reset : State where
  part := Part.reset
  powered := false
  stage := .priming
  err := 0
  single := false
  therm := false
  linklost := false
  trip := false
  dies := 0
  memMib := 0
  mgmt := .free
  quiet := { pwrCap := BitVec.ofNat 32 (Part.reset.form.wattLimit) }
  die := List.replicate 4 { en := BitVec.allOnes 48 }
  vfmap := List.replicate 16 0
  ports := List.replicate 2 {}
  partWin := List.replicate 4 0
  chan := List.replicate 48 {}
  ucie := []
  units := []
  fw := {}
  code := []
  ctx := List.replicate 64 {}
  cores := []
  mem := []
  sysMem := []
  ue := []
  sysUe := []
  ce := []
  l1 := []
  l2 := []
  past := []
  tlb := []
  aptc := []
  walk := []
  atc := []
  ats := []
  pri := []
  misses := []
  lines := []
  launches := []
  teams := []
  groups := []
  wells := []
  sumps := []
  copies := []
  windows := []
  requests := []
  issues := []
  stores := []
  saves := []
  images := []
  cur := Cur.reset
  us := 0
  ids := 0
  free := 0
  reply := .none
  agenda := []

end Sys2Proof.Machine
end

