-- ==== Sys2Proof/Machine/Slices.lean ====
section
/-!
DEFINITION. Physical memory (R32, R27) as its home slices answer it (R61 to R63): the places of bytes, the lines that a slice
holds in L2, the single-bit errors that a read from device memory corrects (R71), uncorrectable errors (R79, R80), and the values
that a line held before (R37).
-/
namespace Sys2Proof.Machine

/-! ### Physical memory -/

/-- A place in physical memory: device memory (R32), or a host's memory behind a port (R27). -/
inductive Place where
  | dev (a : Nat)
  | sys (port : Nat) (a : Nat)
  deriving DecidableEq, Repr

/-- Where a host's byte stands in the store of system memory: one address space for each port.
DEDUCED: log 55. -/
def sysKey (port a : Nat) : Nat := (port % 2) * 2 ^ 64 + a % 2 ^ 64

def Place.add : Place → Nat → Place
  | .dev a, n => .dev (a + n)
  | .sys p a, n => .sys p (a + n)

/-- A byte named: its memory and its place there. -/
def Place.cell : Place → Nat × Nat
  | .dev a => (0, a)
  | .sys p a => (1, sysKey p a)

/-- The line of 128 bytes and the sector of 32 that hold a place. -/
def Place.lineNo (p : Place) : Nat × Nat := (p.cell.1, p.cell.2 / 128)
def Place.sectorNo (p : Place) : Nat × Nat := (p.cell.1, p.cell.2 / 32)

/-- What the home slice of a byte answers (R61, R62). DESIGN CHOICE: log 4. DEDUCED: log 55. -/
def State.rdByte (s : State) : Place → Byte
  | .dev a => Store.get s.mem a
  | .sys p a => s.sysMem.get (sysKey p a)

/-- A write to a held line leaves device memory as it was: L2 is write-back with respect to it (R61). -/
def L2Line.written (m : Store 8) (a : Nat) (e : L2Line) : L2Line :=
  if e.key = (0, a / 128) ∧ e.dirty = false then { e with dirty := true, below := m.getAll (a / 128 * 128) 128 } else e

/-- A byte written at its home slice. DESIGN CHOICE: log 4. -/
def State.wrByte (s : State) (p : Place) (x : Byte) : State :=
  match p with
  | .dev a => { s with mem := Store.set s.mem a x, l2 := s.l2.map (L2Line.written s.mem a) }
  | .sys q a => { s with sysMem := s.sysMem.set (sysKey q a) x }

/-- A byte as it stands in device memory, beneath a dirty line where there is one (R61, R77). -/
def State.devByte (s : State) (a : Nat) : Byte :=
  match s.l2.find? fun e => e.key == (0, a / 128) && e.dirty with
  | some e => e.below.getD (a % 128) 0
  | none => Store.get s.mem a

def State.rdBytes (s : State) (p : Place) : Nat → List Byte
  | 0 => []
  | n + 1 => s.rdByte p :: s.rdBytes (p.add 1) n
def State.wrBytes (s : State) (p : Place) : List Byte → State
  | [] => s
  | x :: xs => (s.wrByte p x).wrBytes (p.add 1) xs
/-- `n` bytes as a little-endian number, and a number written as `n` bytes, R232. -/
def State.rdNat (s : State) (p : Place) (n : Nat) : Nat := leNat (s.rdBytes p n)
def State.wrNat (s : State) (p : Place) (n v : Nat) : State := s.wrBytes p (leBytes v n)

/-! ### Home slices and channels, R62, R63 -/

/-- Dies that take part in Stage 2: four, or one (R32, R449). -/
def State.dieCount (s : State) : Nat := if s.part.form = .bareDie ∨ s.single then 1 else 4
/-- Home die, slice, channel and granule index of a device physical address, R63. -/
def homeOf (d pa : Nat) : Nat × Nat × Nat × Nat :=
  let n := 12 * d
  let g := pa / 2048
  let q := g / n
  let k := (q ^^^ (q / 2 ^ 5) ^^^ (q / 2 ^ 10) ^^^ (q / 2 ^ 15) ^^^ (q / 2 ^ 20)) % 2 ^ 16
  let ch := (g % n + k % n) % n
  (ch / 12, 4 * (ch % 12) + pa / 128 % 4, ch, q)
/-- R62: the slice of a host address, and its die: that of the port, or the one that runs. -/
def sysSlice (a : Nat) : Nat := ((a / 2 ^ 7) ^^^ (a / 2 ^ 13) ^^^ (a / 2 ^ 19)) % 48
def sysHome (d port a : Nat) : Nat × Nat := (if d = 1 then 0 else 2 * (port % 2), sysSlice a)
/-- Channel, device, bank, row and column of a device physical address, R63. -/
def placeOf (d pa : Nat) : Nat × Nat × Nat × Nat × Nat :=
  let (_, _, ch, q) := homeOf d pa
  (ch, pa / 1024 % 2, (q ^^^ (q / 32)) % 32, q / 32, pa % 1024)
/-- The die that runs alone in single-die operation, by its physical number (R449). -/
def State.soloDie (s : State) : Nat := if s.single ∧ s.dies = 4#4 then 2 else 0
/-- The physical number of a die (R449), which registers and records name.
DESIGN CHOICE: log 34. -/
def State.physDie (s : State) (d : Nat) : Nat := if s.single then s.soloDie else d
/-- The global number of a channel in the registers of R81: that of the physical die. -/
def State.chanNo (s : State) (ch : Nat) : Nat := 12 * s.soloDie + ch
/-- M of R32: device physical memory in bytes. -/
def State.memBytes (s : State) : Nat := 12 * s.dieCount * s.part.devices.granules * 2048

/-- R80, R81: an uncorrectable error at a device address is recorded in its channel. -/
def State.noteUe (s : State) (pa : Nat) : State :=
  let ch := s.chanNo (homeOf s.dieCount pa).2.2.1
  { s with chan := updAt s.chan ch fun c => { c with ue := true, ueaddr := BitVec.ofNat 64 (pa / 64 * 64 + 1) } }
/-- An error named as `State.ueIn` names it: one of a line of system memory has no channel. -/
def State.noteUeAt (s : State) (pa : Nat) : State := if pa < 2 ^ 64 then s.noteUe pa else s
def State.noteTrapUe (s : State) (t : Trap) : State := match t.ue with | some pa => s.noteUeAt pa | none => s

/-- R71, R79: the first code block with an uncorrectable error among the bytes of a run. An error in L2 of a line of system
memory stands in a sector (R79). -/
def State.ueIn (s : State) (p : Place) (n : Nat) : Option Nat :=
  match p with
  | .dev a => s.ue.find? fun e => decide (e / 64 * 64 < a + n) && decide (a < e / 64 * 64 + 64)
  | .sys q a => (s.sysUe.find? fun e => decide (e / 32 * 32 < sysKey q a + n) && decide (sysKey q a < e / 32 * 32 + 32)).map
      fun e => 2 ^ 64 + e

/-! ### L2 -/

/-- The home die and slice of a line, R61, R62. -/
def State.sliceOf (s : State) (key : Nat × Nat) : Nat × Nat :=
  if key.1 = 0 then ((homeOf s.dieCount (128 * key.2)).1, (homeOf s.dieCount (128 * key.2)).2.1)
  else sysHome s.dieCount (128 * key.2 / 2 ^ 64) (128 * key.2 % 2 ^ 64)

/-- R71: a block in which a single-bit error was corrected is counted in its channel (R81). -/
def State.countCe (s : State) (pa : Nat) : State :=
  { s with chan := updAt s.chan (s.chanNo (homeOf s.dieCount pa).2.2.1) fun c => { c with cecnt := Nat.min (c.cecnt + 1) 0xFFFFFF } }

/-- A line leaves its slice: a dirty one, or one that was corrected, is written back (R61, R71), over the bytes that device memory
held beneath it (R37); an error in a copy of system memory goes with it (R79). -/
def State.evictLine (s : State) (key : Nat × Nat) : State :=
  let mine := s.l2.filter fun e => e.key == key
  if key.1 = 0 then
    { s with
      l2 := s.l2.filter fun e => e.key != key
      ce := if mine.any fun e => e.fix || e.dirty then s.ce.filter fun b => b / 128 != key.2 else s.ce
      past := ((mine.filter fun e => e.dirty).map fun e => (key.2, e.below)) ++ s.past }
  else { s with l2 := s.l2.filter fun e => e.key != key, sysUe := s.sysUe.filter fun x => x / 128 != key.2 }

/-- The set of its slice in which a line stands, R49.
DESIGN CHOICE: log 62. -/
def State.l2Set (s : State) (key : Nat × Nat) : Nat :=
  (if key.1 = 0 then 4 * (homeOf s.dieCount (128 * key.2)).2.2.2 + key.2 / 4 % 4 else key.2 / 48) % (Config.l2Lines / Config.l2Ways)

/-- A line allocated; a set of a slice holds 16.
DESIGN CHOICE: log 62. -/
def State.keepLine (s : State) (key : Nat × Nat) (first fix : Bool) : State :=
  let mine (e : L2Line) : Bool := s.sliceOf e.key == s.sliceOf key && s.l2Set e.key == s.l2Set key
  let s := if (s.l2.filter mine).length < Config.l2Ways then s
    else match (s.l2.find? fun e => mine e && e.first).or (s.l2.find? mine) with
      | some e => s.evictLine e.key
      | none => s
  { s with l2 := s.l2 ++ [{ key, first, fix }] }

/-- R37: from an ordinary store to a 2 MiB page on, none of the values that the page's lines held before counts; the entry without
bytes marks the page until an invalidation covers it. -/
def State.storedPage (s : State) (line : Nat) : State :=
  { s with past := (line, []) :: s.past.filter fun e => e.1 / 16384 != line / 16384 }

/-- R37: a line about to be written otherwise than by an ordinary store: in a page stored to and not covered by an invalidation
since, its old value still counts. -/
def State.keepPast (s : State) (line : Nat) : State :=
  if s.past.any fun e => e.1 / 16384 == line / 16384 then { s with past := (line, s.rdBytes (.dev (128 * line)) 128) :: s.past } else s

/-- R37: what a write of a line of device memory leaves of the values before it; `old` tells one that is no ordinary store (an atomic,
`red.ord`, residency feedback), after which they still count.
DEDUCED: log 83. -/
def State.writtenPage (s : State) (old : Bool) (line : Nat) : State := if old then s.keepPast line else s.storedPage line

/-- An access to one line at its home slice. One that finds the line not held reads it from memory, where single-bit errors are
corrected and counted; a corrected line is written back at once for a write, else on its eviction (R71). A held line is marked first
for eviction where the access says so (R66). -/
def State.homeLine (s : State) (key : Nat × Nat) (write keep first : Bool) (old : Bool := false) : State :=
  let mine (b : Nat) : Bool := key.1 == 0 && b / 128 == key.2
  let s := if write && key.1 == 0 then s.writtenPage old key.2 else s
  match s.l2.find? fun e => e.key == key with
  | some e =>
    { s with
      ce := if write && e.fix then s.ce.filter (fun b => !mine b) else s.ce
      l2 := s.l2.map fun e => if e.key = key then { e with fix := e.fix && !write, first := e.first || (keep && first) } else e }
  | none =>
    let found := s.ce.filter mine
    let s := found.foldl State.countCe s
    let s := if write then { s with ce := s.ce.filter fun b => !mine b } else s
    if keep then s.keepLine key first (!write && !found.isEmpty) else s

/-- The lines of `n` bytes from a place, at their home slices. -/
def State.homeRange (s : State) (p : Place) (n : Nat) (write keep first : Bool) (old : Bool := false) : State :=
  let a := p.lineNo.2
  (List.range ((p.cell.2 + n - 1) / 128 + 1 - a)).foldl (fun s k => s.homeLine (p.cell.1, a + k) write keep first old) s

/-- A line written at device memory, past L2 (R25, R158): its L2 copy is invalidated, its corrected blocks are written back (R71), and
its old value still counts (R37). -/
def State.throughLine (s : State) (line : Nat) : State :=
  let s := s.evictLine (0, line)
  let s := (s.ce.filter fun b => b / 128 == line).foldl State.countCe s
  State.keepPast { s with ce := s.ce.filter fun b => b / 128 != line } line

end Sys2Proof.Machine
end

