-- ==== Sys2Proof/Machine/Ops.lean ====
section
/-!
DEFINITION. The named operations over the state: finding and changing one context, core, group, lane, team or launch;
reading and writing the registers of the current thread; the end of a context (R39); taking a trap or a fault (R39 to
R43, R415 to R423), one shared operation for every cause; the return from one; and the runners that perform an
instruction for each thread of its class or once for the class (R174, R177).
-/
namespace Sys2Proof.Machine

/-! ### Finding and changing parts of the state -/

def State.ctxAt (s : State) (n : Nat) : Ctx := s.ctx.getD n {}
def State.updCtx (s : State) (n : Nat) (f : Ctx → Ctx) : State := { s with ctx := updAt s.ctx n f }
def State.coreAt (s : State) (c : Nat) : CoreState := Assoc.get s.cores c {}
def State.updCore (s : State) (c : Nat) (f : CoreState → CoreState) : State :=
  { s with cores := Assoc.set s.cores c (f (s.coreAt c)) }
def State.portAt (s : State) (p : Port) : PortState := s.ports.getD (match p with | .a => 0 | .b => 1) {}
def State.updPort (s : State) (p : Port) (f : PortState → PortState) : State :=
  { s with ports := updAt s.ports (match p with | .a => 0 | .b => 1) f }
def State.dieAt (s : State) (d : Nat) : Die := s.die.getD d { en := 0 }
def State.updDie (s : State) (d : Nat) (f : Die → Die) : State := { s with die := updAt s.die d f }

def Group.isAt (g : Group) (core slot : Nat) : Bool := g.core == core && g.slot == slot
def State.group? (s : State) (core slot : Nat) : Option Group := s.groups.find? fun g => g.isAt core slot
def State.updGroup (s : State) (core slot : Nat) (f : Group → Group) : State :=
  { s with groups := s.groups.map fun g => if g.isAt core slot then f g else g }
def State.team? (s : State) (id : Nat) : Option Team := s.teams.find? fun t => t.id == id
def State.updTeam (s : State) (id : Nat) (f : Team → Team) : State :=
  { s with teams := s.teams.map fun t => if t.id == id then f t else t }
def State.launch? (s : State) (id : Nat) : Option Launch := s.launches.find? fun l => l.id == id
def State.updLaunch (s : State) (id : Nat) (f : Launch → Launch) : State :=
  { s with launches := s.launches.map fun l => if l.id == id then f l else l }

def Group.lane (g : Group) (l : Nat) : Lane := g.lanes.getD l {}
def Group.updLane (g : Group) (l : Nat) (f : Lane → Lane) : Group := { g with lanes := updAt g.lanes l f }
/-- The lanes of a group changed, those of a list by number. -/
def Group.updLanes (g : Group) (ls : List Nat) (f : Lane → Lane) : Group := ls.foldl (fun g l => g.updLane l f) g

/-- The group of the current instruction, R174. -/
def State.grp (s : State) : Option Group := s.group? s.cur.core s.cur.slot
def State.updGrp (s : State) (f : Group → Group) : State := s.updGroup s.cur.core s.cur.slot f
def State.lane (s : State) (l : Nat) : Lane := match s.grp with | some g => g.lane l | none => {}
def State.updLane (s : State) (l : Nat) (f : Lane → Lane) : State := s.updGrp fun g => g.updLane l f
/-- The context, team and role of the current class. -/
def State.myCtx (s : State) : Nat := match s.grp with | some g => g.ctx | none => 0
def State.myTeam (s : State) : Option Team := match s.grp with | some g => s.team? g.team | none => none
def State.myRole (s : State) : Option Role :=
  match s.grp, s.myTeam with
  | some g, some t => t.roles[g.role]?
  | _, _ => none

/-- A fresh name for a launch, a team, a record or a pass. -/
def State.fresh (s : State) : Nat × State := (s.ids, { s with ids := s.ids + 1 })
/-- A free choice among `n` (R11): its number comes from nowhere in the state.
DESIGN CHOICE: log 8. -/
def State.choose (s : State) (n : Nat) : Nat × State := (Config.pick s.free % (if n = 0 then 1 else n), { s with free := s.free + 1 })

/-! ### Registers of the current thread -/

/-- Register `vi` of a thread is stack slot WB + i, R190. -/
def Lane.v (t : Lane) (i : Nat) : Word := t.slots.get (t.wb + i)
def Lane.setV (t : Lane) (i : Nat) (x : Word) : Lane :=
  { t with slots := t.slots.set (t.wb + i) x, bad := t.bad.filter fun k => k ≠ t.wb + i }

/-- A uniform register: the group's, or the control core's own (R171, R372). -/
def State.uni (s : State) (n : Nat) : Word :=
  match s.cur.who with
  | .control => (s.coreAt s.cur.core).ctlRegs.get n
  | _ => match s.grp with | some g => g.sregs.get n | none => 0
def State.setUni (s : State) (n : Nat) (x : Word) : State :=
  match s.cur.who with
  | .control => s.updCore s.cur.core fun c => { c with ctlRegs := c.ctlRegs.set n x }
  | _ => s.updGrp fun g => { g with sregs := g.sregs.set n x, badUni := g.badUni.filter fun k => k ≠ n }

/-- The k-th register of a source, for one lane: a literal is its two words, low first (R254). -/
def State.reg (s : State) (l : Nat) (x : Src) (k : Nat) : Word :=
  match x with
  | .v n => (s.lane l).v (n + k)
  | .s n => s.uni (n + k)
  | .lit w => if k = 0 then loOf w else hiOf w
def State.pair (s : State) (l : Nat) (x : Src) : DWord := pairOf (s.reg l x 0) (s.reg l x 1)
/-- `n` registers of a source. -/
def State.regs (s : State) (l : Nat) (x : Src) (n : Nat) : List Word := (List.range n).map (s.reg l x)

/-- A vector register written; its words from a base on. -/
def State.setV (s : State) (l d : Nat) (x : Word) : State := s.updLane l fun t => t.setV d x
def State.setVs (s : State) (l d : Nat) : List Word → State
  | [] => s
  | x :: xs => (s.setV l d x).setVs l (d + 1) xs
/-- A destination written for one lane, or once for the class in a twin (R260). -/
def State.setDst (s : State) (l : Nat) (d : Dst) (xs : List Word) : State :=
  match d with
  | .v n => s.setVs l n xs
  | .s n => (xs.zipIdx).foldl (fun s e => s.setUni (n + e.2) e.1) s

/-- The lowest lane of the class, whose operands stand for a uniform performance (R177). -/
def State.lead (s : State) : Nat := s.cur.lanes.headD 0

/-- R190: every vector register the instruction names lies in the lane's frame. -/
def Lane.inFrame (t : Lane) (regs : List (Nat × Nat)) : Bool := regs.all fun r => decide (r.1 + r.2 ≤ t.f)
/-- R79: a register that the instruction reads holds an uncorrectable error.
DESIGN CHOICE: log 11. -/
def Lane.meetsError (t : Lane) (regs : List (Nat × Nat)) : Bool :=
  t.bad.any fun k => regs.any fun r => decide (t.wb + r.1 ≤ k) && decide (k < t.wb + r.1 + r.2)

/-- The slots of a thread below this one are spilled, where its role's budget is `b` registers (R194). -/
def Lane.spilled (t : Lane) (b : Nat) : Nat := t.wb + t.f - b
/-- R194: a fill that slots `from_` to `upto` need, in blocks of 8, meets an uncorrectable error. -/
def Lane.fillError (t : Lane) (b from_ upto : Nat) : Bool :=
  t.bad.any fun k => decide (k < t.spilled b) && decide (k / 8 * 8 < Nat.min upto (t.spilled b)) && decide (from_ < k / 8 * 8 + 8)

/-- The role of the current group; a group always has one. -/
def State.role (s : State) : Role := s.myRole.getD ⟨0, 0, 0, 0, false, 0, 0⟩

/-- R79: a uniform register that the instruction reads holds an uncorrectable error. -/
def State.uniError (s : State) (i : Instr) : Bool :=
  match s.cur.who, s.grp with
  | .lanes, some g => g.badUni.any fun k => i.readUnis.any fun r => decide (r.1 ≤ k) && decide (k < r.1 + r.2)
  | _, _ => false

/-- R79, R194: the instruction meets an uncorrectable error for a thread, in a register that it reads or in a fill that a register
it names needs. -/
def State.meetsError (s : State) (l : Nat) (i : Instr) : Bool :=
  let t := s.lane l
  t.meetsError i.readRegs || s.uniError i
    || i.vecRegs.any fun r => t.fillError s.role.b (t.wb + r.1) (t.wb + r.1 + r.2)

/-! ### Fields of context registers -/

def Ctx.en (c : Ctx) : Bool := bit c.ctrl.toNat 31
def Ctx.part (c : Ctx) : Nat := bits c.ctrl.toNat 23 22
def Ctx.ats (c : Ctx) : Bool := bit c.ctrl.toNat 21
def Ctx.port (c : Ctx) : Nat := bits c.ctrl.toNat 20 20
def Ctx.asid (c : Ctx) : Nat := bits c.ctrl.toNat 15 0
/-- A save of the context is in progress, R427; BUSY with SAVED is a restore (R434). -/
def Ctx.saving (c : Ctx) : Bool := c.busy && !c.saved
def Ctx.dbg (c : Ctx) : Bool := bit c.trapctl.toNat 31
/-- N of the fault queue where it is valid, R42. -/
def Ctx.fqN (c : Ctx) : Option Nat :=
  let n := bits c.fqsize.toNat 4 0
  if 6 ≤ n ∧ n ≤ 16 then some n else none
def Ctx.fqFull (c : Ctx) : Bool :=
  match c.fqN with
  | some n => decide ((c.fqtail + 1) % 2 ^ n = c.fqhead.toNat % 2 ^ n)
  | none => true
/-- CTX_STATUS, R31: PENDING counts the records written and not replayed, FQFULL the presence of waiting ones. -/
def Ctx.pendingRecs (c : Ctx) : Nat := (c.recs.filter fun r => r.seq.isSome).length
def Ctx.waitsForRoom (c : Ctx) : Bool := c.fqFull && c.recs.any fun r => r.seq.isNone
/-- N of the sump, R221; 0 where it is disabled. -/
def Ctx.sumpN (c : Ctx) : Nat :=
  let n := bits c.sumpCtl.toNat 4 0
  if 5 ≤ n ∧ n ≤ 20 then n else 0
def LQ.en (q : LQ) : Bool := bit q.ctl.toNat 31
def LQ.prio (q : LQ) : Nat := bits q.ctl.toNat 29 28
def LQ.logN (q : LQ) : Option Nat :=
  let n := bits q.ctl.toNat 3 0
  if 4 ≤ n ∧ n ≤ 12 then some n else none

/-- A partition window, R32: its size and base in GiB. -/
def winSize (w : Word) : Nat := bits w.toNat 24 16
def winBase (w : Word) : Nat := bits w.toNat 8 0
/-- Where a partition's address stands in device memory; none outside the window (R32). -/
def State.window (s : State) (part a : Nat) : Option Nat :=
  let w := s.partWin.getD part 0
  if a < winSize w * 2 ^ 30 then some (winBase w * 2 ^ 30 + a) else none

/-! ### Fault records, R40 to R43 -/

def Access.code : Access → Nat
  | .read => 0 | .write => 1 | .atomic => 2 | .fetch => 3
/-- R43: read and fetch are one class, write and atomic the other. -/
def Access.writes : Access → Bool
  | .write => true | .atomic => true | _ => false

def Cause.code : Cause → Nat
  | .illegalInstr => 1 | .regOutOfFrame => 2 | .stackOverflow => 3 | .returnUnderflow => 4 | .pageFault => 5
  | .accessViolation => 6 | .misaligned => 7 | .determinismConflict => 8 | .nevalHandle => 9 | .nevalWeights => 10
  | .ringMisuse => 11 | .barrierMisuse => 12 | .brk => 13 | .watch => 14 | .memUncorrectable => 15
/-- The causes whose sub-cause of R38 is their detail. -/
def Cause.isFault : Cause → Bool
  | .pageFault => true | .accessViolation => true | _ => false

/-- The 32 bytes of a fault record, R40. -/
def faultBytes (va seq : Nat) (phase fatal : Bool) (sub : Nat) (kind : Access) (src : Source) (joined level : Nat) :
    List Byte :=
  leBytes va 8
    ++ leBytes (kind.code + src.code * 16 + sub * 256 + (if fatal then 2 ^ 14 else 0) + (if phase then 2 ^ 15 else 0)
        + seq % 2 ^ 16 * 2 ^ 16) 4
    ++ leBytes (src.lane * 16 + src.group * 2 ^ 9 + src.core * 2 ^ 18 + src.die * 2 ^ 24) 4
    ++ leBytes src.pc.toNat 8
    ++ leBytes (level + Nat.min joined 0xFFFF * 2 ^ 16) 4 ++ leBytes 0 4

/-- Where the record at the tail of a context's fault queue stands; none where it cannot be written (R39). -/
def State.fqPlace (s : State) (n : Nat) (logN : Nat) : Option Place :=
  let c := s.ctxAt n
  let a := bits c.fqbase.toNat 51 12 * 4096 + 32 * (c.fqtail % 2 ^ logN)
  if bit c.fqbase.toNat 0 then
    (if (s.ports.getD c.port {}).up then some (.sys c.port a) else none)
  else (s.window c.part a).map .dev

/-- The tail advanced by a record, R40, R42. -/
def Ctx.advanceTail (c : Ctx) (logN : Nat) : Ctx :=
  { c with seq := (c.seq + 1) % 2 ^ 16, fqtail := (c.fqtail + 1) % 2 ^ logN,
           fqwrap := if (c.fqtail + 1) % 2 ^ logN = 0 then !c.fqwrap else c.fqwrap }

/-- The bytes of a record written at a place that no page gives, by its home slice, then `k`; an uncorrectable error that the write
meets is reported in their stead (R80).
DESIGN CHOICE: log 78. -/
def State.putRecord (s : State) (p : Place) (xs : List Byte) (k : State → State) : State :=
  match s.ueIn p xs.length with
  | some pa => s.noteUeAt pa
  | none => k ((s.homeRange p xs.length true false false).wrBytes p xs)

/-- R39: the record of a fatal fault, written where the queue has room and the write can be performed. -/
def State.writeFatalRecord (s : State) (n va sub : Nat) (kind : Access) (src : Source) (level : Nat) : State :=
  let c := s.ctxAt n
  match c.fqN with
  | none => s
  | some logN =>
    if c.fqFull then s
    else match s.fqPlace n logN with
      | none => s
      | some p => s.putRecord p (faultBytes va c.seq c.fqwrap true sub kind src 0 level) fun s => s.updCtx n (·.advanceTail logN)

/-! ### The end of a context, R39, R420 -/

/-- The cores that hold a group, a stream or a wellhead record of a context, R450. -/
def State.coresOf (s : State) (n : Nat) : List Nat :=
  ((s.groups.filter fun g => g.ctx == n).map (·.core) ++ ((s.teams.filter fun t => t.ctx == n).map (·.cores)).flatten).eraseDups

def State.signal (s : State) (core : Nat) : State := s.updCore core fun c => { c with ctlPending := true }

/-- LQ_HEAD reads the head record's index modulo 2^N, all 16 bits while LOG2N is invalid (R202).
DESIGN CHOICE: log 68. -/
def LQ.index (q : LQ) : Nat := q.head % 2 ^ q.logN.getD 16

/-- Another record becomes the head record: nothing of it has been read. A record that is being placed stays the head record. -/
def LQ.retake (q : LQ) : LQ :=
  match q.taking with
  | .placing _ => q
  | _ => { q with taking := .none, waitOn := none }

/-- A queue whose context ends: an accepted record is passed, a record not yet accepted is taken again (R203). -/
def LQ.atEnd (q : LQ) : LQ :=
  match q.taking with
  | .placing _ => { q with taking := .none, head := (q.head + 1) % 2 ^ (q.logN.getD 12), waitOn := none }
  | _ => { q with taking := .none, waitOn := none }

/-- The oldest held trap is shown and its group mapped into the debug window, R422. -/
def State.showHeld (s : State) (n : Nat) : State :=
  match (s.ctxAt n).held with
  | h :: _ => s.updCore h.core fun c => { c with dwinSlot := some h.slot }
  | [] => s

/-- A core whose debug window is free maps the group of a held record that stands shown: that of the lowest context slot.
DESIGN CHOICE: log 71. -/
def State.showOthers (s : State) (core : Nat) : State :=
  if (s.coreAt core).dwinSlot.isSome then s
  else match (List.range s.ctx.length).find? fun n => ((s.ctxAt n).held.head?.map (·.core)) == some core with
    | some n => s.showHeld n
    | none => s

/-- What is left of a context's slot. The pointers of its sump meet, whose records are discarded.
DESIGN CHOICE: log 58. -/
def Ctx.drained (c : Ctx) : Ctx :=
  { c with recs := [], held := [], busy := false, saved := false, stail := c.shead, sumpWait := none,
           lq := c.lq.map LQ.atEnd }

/-- Walks without the threads that wait for them no longer; an ended one that none waits for is forgotten (R34). -/
def leaveWalks (gone : Miss → Nat × Nat → Bool) (ms : List Miss) : List Miss :=
  (ms.map fun m => { m with joined := m.joined.filter fun x => !gone m x }).filter fun m => m.stage != .walked || !m.joined.isEmpty

/-- The debug windows of cores, where groups that leave are no longer mapped (R424). -/
def unmapped (slots : List (Nat × Nat)) (cores : List (Nat × CoreState)) : List (Nat × CoreState) :=
  cores.map fun c => match c.2.dwinSlot with
    | some k => if slots.contains (c.1, k) then (c.1, { c.2 with dwinSlot := none }) else c
    | none => c

/-- R39: the context's work is stopped and drained; what its engines, queues and windows hold is discarded; its save
is discarded (R430).
DEDUCED: log 58. -/
def State.drain (s : State) (n : Nat) : State :=
  let team (id : Nat) : Bool := match s.team? id with | some t => t.ctx == n | none => false
  let slots := (s.groups.filter fun g => g.ctx == n).map fun g => (g.core, g.slot)
  let cores := s.coresOf n
  let s := cores.foldl State.signal s
  cores.foldl State.showOthers { s with
    groups := s.groups.filter fun g => g.ctx != n
    teams := s.teams.filter fun t => t.ctx != n
    launches := s.launches.filter fun l => l.ctx != n
    wells := s.wells.filter fun w => !team w.2.team
    sumps := s.sumps.filter fun w => w.1 != n
    copies := s.copies.filter fun c => c.ctx != n
    windows := s.windows.filter fun w => w.ctx != n
    requests := s.requests.filter fun r => r.ctx != n
    issues := s.issues.filter fun i => !slots.contains (i.core, i.slot)
    saves := s.saves.filter fun v => v.ctx != n
    images := s.images.filter fun v => v.ctx != n
    pri := s.pri.filter fun p => p.1 != n
    atc := s.atc.filter fun e => !(e.ctx == n && e.target.isNone)
    ats := s.ats.filter fun e => e.2.1 != n
    misses := s.misses.filter fun m => m.ctx != n
    cores := unmapped slots s.cores
    ctx := updAt s.ctx n Ctx.drained }

/-- R39, R447, R450, R456: the context ends. FSUB keeps the sub-cause of the first fatal fault.
DEDUCED: log 58. -/
def State.endContext (s : State) (n sub : Nat) : State :=
  let s := s.drain n
  s.updCtx n fun c => if c.faulted then c else { c with faulted := true, fsub := sub }

/-- R420: the record of the trap that ends a context, kept if it is the first. -/
def State.keepFatal (s : State) (n : Nat) (r : TrapRec) : State :=
  s.updCtx n fun c => if c.fatal.isSome then c else { c with fatal := some r }

/-- R420: the trap of a replayable fault that turns fatal, where a lane took one. -/
def State.keepTrap (s : State) (n : Nat) (r : FaultRec) : State :=
  match r.trap with
  | some t => s.keepFatal n t
  | none => s

/-- A fatal fault: its record is written first if there is room, then the context ends (R39). -/
def State.fatalFault (s : State) (n va sub : Nat) (kind : Access) (src : Source) (level : Nat) : State :=
  if (s.ctxAt n).faulted then s
  else (s.writeFatalRecord n va sub kind src level).endContext n sub

/-- Whether a fault joins an outstanding record, R43.
DEDUCED: log 39. -/
def FaultRec.joins (r : FaultRec) (va sub : Nat) (kind : Access) : Bool :=
  r.va / 4096 == va / 4096 && r.sub == sub && (r.kind.writes == kind.writes)

/-- A replayable fault, R39, R42, R43: it joins an outstanding record or makes one, and answers the record to wait on;
with no valid queue it is fatal, and there is nothing to wait on.
DEDUCED: log 39. -/
def State.replayable (s : State) (n va sub : Nat) (kind : Access) (src : Source) (level : Nat) (trap : Option TrapRec) :
    State × Option Nat :=
  let c := s.ctxAt n
  match c.recs.find? fun r => r.joins va sub kind with
  | some r =>
    (s.updCtx n fun c => { c with recs := c.recs.map fun q =>
        if q.id = r.id ∧ q.seq.isNone then { q with joined := Nat.min (q.joined + 1) 0xFFFF } else q },
     some r.id)
  | none =>
    if c.fqN.isNone then (s.fatalFault n va sub kind src level, none)
    else
      let (id, s) := s.fresh
      (s.updCtx n fun c => { c with recs := c.recs ++ [⟨id, va, sub, kind, src, level, 0, none, trap⟩] }, some id)

/-- The core of a source, by the number that the model's state uses. -/
def State.sourceCore (s : State) (x : Source) : Nat := if s.single then x.core else 48 * x.die + x.core

/-- Whether a source is an engine of a core (R41): a unit of a die, and the launch engine, is none. -/
def Source.ofCore (x : Source) : Bool := decide (2 ≤ x.code) && decide (x.code ≤ 8) && x.code != 7

/-- A fault of an engine (R41): what it waits on, or the end of its context. One whose record is to be written is an event of the
engine's core (R436). An access to a declared range is a trap
that names the lane that issued the instruction (R98, R417); an uncorrectable error ends the context (R79). -/
def State.engineFault (s : State) (n : Nat) (t : Trap) (src : Source) : State × Option Nat :=
  let s := s.noteTrapUe t
  if t.cause.isFault then
    (if t.demand then (if src.ofCore then s.signal (s.sourceCore src) else s).replayable n t.aux t.detail t.kind src t.level none
     else (s.fatalFault n t.aux t.detail t.kind src t.level, none))
  else if t.cause = .determinismConflict then
    ((s.keepFatal n { pc := src.pc, cause := t.cause, detail := t.detail, die := src.die, core := src.core,
                      group := src.group, lane := src.lane, aux := t.aux }).endContext n 0, none)
  else (s.endContext n 0, none)

/-! ### Taking a trap, R415 to R423 -/

/-- Die and core number of a core, R170.
DESIGN CHOICE: log 34. -/
def dieOf (core : Nat) : Nat := core / 48
def coreOf (core : Nat) : Nat := core % 48

/-- AUX of a trap record, R423: the lane's address for causes 5 to 8, 12 and 14, the address of the `neval` for 9 and
10, otherwise 0. -/
def Trap.recordAux (t : Trap) : Nat :=
  match t.cause with
  | .pageFault => t.aux | .accessViolation => t.aux | .misaligned => t.aux | .determinismConflict => t.aux
  | .nevalHandle => t.aux | .nevalWeights => t.aux | .barrierMisuse => t.aux | .watch => t.aux
  | _ => 0

/-- Whether a trap is held for the host, R419. -/
def Cause.held : Cause → Bool
  | .brk => true | .watch => true | _ => false

/-- The trap record of a lane, R423.
DEDUCED: log 60. -/
def State.trapRec (s : State) (t : Trap) (core slot lane : Nat) (pc : DWord) (more : Nat) : TrapRec :=
  { pc, cause := t.cause, detail := t.detail, die := s.physDie (dieOf core), core := coreOf core, group := slot, lane,
    aux := t.recordAux, more }

/-- Lanes Stopped at an address, R415. -/
def State.stopLanes (s : State) (core slot : Nat) (ls : List Nat) (pc : DWord) (h : Hold) : State :=
  s.updGroup core slot fun g => g.updLanes ls fun t => { t with st := .stopped, hold := h, pc }

/-- Taking a trap or a fault on lanes of a group: the lanes from the trapping one on are Stopped at the address given
(R415, R417), the trap goes to the core's control core (R436), and it is disposed of as R419 says: a fault goes to the
fault queue or ends the context (R39), a held trap waits for the host (R422), any other ends the context (R420). -/
def State.takeTrap (s : State) (core slot : Nat) (ls : List Nat) (pc : DWord) (srcCode : Nat) (t : Trap) (more : Nat) :
    State :=
  match s.group? core slot with
  | none => s
  | some g =>
    let n := g.ctx
    let lane := ls.headD 0
    let src : Source := { code := srcCode, die := s.physDie (dieOf core), core := coreOf core, group := slot, lane, pc }
    let r := s.trapRec t core slot lane pc more
    let s := (s.signal core).noteTrapUe t
    if t.cause.isFault && t.demand then
      match s.replayable n t.aux t.detail t.kind src t.level (some r) with
      | (s, some id) => (s.stopLanes core slot ls pc (.record id)).updGroup core slot fun g => { g with trap := some r }
      | (s, none) => s.keepFatal n r
    else if t.cause.isFault then (s.keepFatal n r).fatalFault n t.aux t.detail t.kind src t.level
    else if t.cause.held && (s.ctxAt n).dbg then
      let s := s.stopLanes core slot ls pc .trap
      let s := s.updGroup core slot fun g => { g with trap := some r }
      let first := (s.ctxAt n).held.isEmpty
      let s := s.updCtx n fun c => { c with held := c.held ++ [⟨core, slot, s.cur.next, r⟩] }
      if first then s.showHeld n else s
    else (s.keepFatal n r).endContext n 0

/-- Whether a trap holds a lane. -/
def Lane.trapped (t : Lane) : Bool := t.st == .stopped && t.hold == .trap

/-- The record that stopped a group is forgotten with the last of its Stopped lanes. -/
def Group.dropTrap (g : Group) : Group := { g with trap := if g.lanes.any fun t => t.st == .stopped then g.trap else none }

/-- R422, R373: lanes of a group that a trap stopped go on as `f` says; the group's record goes with the last. This is the
return from a held trap. -/
def State.resumeTrap (s : State) (core slot : Nat) (mask : Nat) (f : Lane → Lane) : State :=
  s.updGroup core slot fun g =>
    let lanes := g.lanes.zipIdx.map fun e => if bit mask e.2 && e.1.trapped then f { e.1 with st := .ready, hold := .none } else e.1
    { g with lanes }.dropTrap

/-- R44: the lanes that wait on a record, replayed, become Ready at their address. -/
def Lane.replay (id : Nat) (t : Lane) : Lane :=
  if t.st = .stopped ∧ t.hold = .record id then { t with st := .ready, hold := .none } else t

/-! ### Performing an instruction -/

/-- What one performance answers: the state after it and where the thread goes (none: to the next instruction), the
trap it takes in place of any effect, or that it must wait before the instruction. -/
inductive Res where
  | ok (s : State) (to_ : Option DWord)
  | trap (t : Trap)
  | wait (s : State)

/-- A thread that has performed the instruction, at its next address. -/
def State.setPc (s : State) (l : Nat) (pc : DWord) : State := s.updLane l fun t => { t with pc, noWatch := false }

def State.withFate (s : State) (f : Fate) : State := { s with cur := { s.cur with fate := f } }

/-- R415: lanes `ls`, the first of which traps, are Stopped at the current instruction, and the class splits.
DEDUCED: log 60. -/
def State.split (s : State) (ls : List Nat) (t : Trap) : State :=
  (s.takeTrap s.cur.core s.cur.slot ls s.cur.pc t.source t 0).withFate .split

/-- A request for a walk that has ended, R34. -/
def Miss.ended (m : Miss) : Bool := m.stage == .walked

/-- Nothing of the instruction is performed: what it asked of a host (R27) and of its core's walker (R34) stands, and it is
tried again.
DEDUCED: log 18. -/
def State.waitBefore (s0 s : State) : State :=
  { s0 with
    pri := s.pri, ats := s.ats
    misses := s0.misses.filter Miss.ended ++ s.misses.filter fun (m : Miss) => !m.ended }.withFate .wait

/-- R174: the instruction is performed for each thread of the class in ascending lane order; the first trap splits the
class. Each thread's named registers are checked first (R190), then what the registers that it reads hold (R79). A wait is one
before the instruction, from `s0`.
DEDUCED: log 18. DESIGN CHOICE: log 11. -/
def runLanes (i : Instr) (body : Nat → State → Res) (s0 : State) : List Nat → State → State
  | [], s => s.withFate .go
  | l :: ls, s =>
    if !(s.lane l).inFrame i.vecRegs then s.split (l :: ls) { cause := .regOutOfFrame }
    else if s.meetsError l i then s.split (l :: ls) { cause := .memUncorrectable }
    else match body l s with
      | .trap t => s.split (l :: ls) t
      | .wait s => s0.waitBefore s
      | .ok s' to_ => runLanes i body s0 ls (s'.setPc l (to_.getD s.cur.next))

def perLane (i : Instr) (body : Nat → State → Res) (s : State) : State :=
  runLanes i body s s.cur.lanes s

/-- The current instruction's next address taken by every thread of the class, or by the control core. -/
def State.advance (s : State) : State :=
  match s.cur.who with
  | .control => (s.updCore s.cur.core fun c => { c with ctlPc := s.cur.next }).withFate .go
  | _ => (s.updGrp fun g => g.updLanes s.cur.lanes fun t => { t with pc := s.cur.next, noWatch := false }).withFate .go

/-- R177, R417: a uniform instruction is performed once; a trap stops the whole class. -/
def perClass (body : State → Res) (s : State) : State :=
  match body s with
  | .trap t => s.split s.cur.lanes t
  | .wait s => s.withFate .wait
  | .ok s' _ => s'.advance

/-- R417: a class whose instruction reads a uniform register with an uncorrectable error stops whole (R79). -/
def uniformly (i : Instr) (k : State → State) (s : State) : State :=
  if s.uniError i then s.split s.cur.lanes { cause := .memUncorrectable } else k s

abbrev Out := Host.Outcome State Fault Refusal

/-- The outcome of a step that completes.
DESIGN CHOICE: log 6. -/
def done (s : State) : Out := .next s

end Sys2Proof.Machine
end

