-- ==== Sys2Proof/Machine/Operands.lean ====
section
/-!
DEFINITION. Operand forms: sources by type (R271, R272), results with their extension (R271), and the two ways a result
is computed, for each thread of the class or once for it (R177, R260, R278).
-/
namespace Sys2Proof.Machine

/-- A source of `n` registers for a lane, as a number of 32 or 64 bits; a literal is its own 64 bits. -/
def State.arg (s : State) (l : Nat) (x : Src) (n : Nat) : DWord :=
  if n = 2 then s.pair l x else (s.reg l x 0).setWidth 64

/-- A number of 64 bits in two registers, low half first. -/
def twoWords (x : DWord) : List Word := [loOf x, hiOf x]

end Sys2Proof.Machine

namespace Sys2Proof
open Machine

/-- The w bits of an operand, R271. -/
def ITy.bits (t : ITy) (x : DWord) : Nat := x.toNat % 2 ^ t.width
/-- The operand as a number of the type, R271. -/
def ITy.val (t : ITy) (x : DWord) : Int :=
  if t.signed && Machine.bit x.toNat (t.width - 1) then (t.bits x : Int) - (2 ^ t.width : Nat) else (t.bits x : Int)
/-- The least and the greatest number of the type. -/
def ITy.least (t : ITy) : Int := if t.signed then -((2 ^ (t.width - 1) : Nat) : Int) else 0
def ITy.most (t : ITy) : Int := ((2 ^ (if t.signed then t.width - 1 else t.width) : Nat) : Int) - 1
/-- sat(x) of R278. -/
def ITy.sat (t : ITy) (x : Int) : Int := if x < t.least then t.least else if t.most < x then t.most else x

/-- A result as the registers of its type hold it, wrapped and extended (R271, R278). -/
def ITy.out (t : ITy) (x : Int) : List Word :=
  match t with
  | .n64 => twoWords (BitVec.ofInt 64 x)
  | .i64 => twoWords (BitVec.ofInt 64 x)
  | .n32 => [BitVec.ofInt 32 x]
  | .i32 => [BitVec.ofInt 32 x]
  | .n16 => [(BitVec.ofInt 16 x).setWidth 32]
  | .i16 => [(BitVec.ofInt 16 x).signExtend 32]
  | .n8 => [(BitVec.ofInt 8 x).setWidth 32]
  | .i8 => [(BitVec.ofInt 8 x).signExtend 32]

end Sys2Proof

namespace Sys2Proof.Machine

/-- A source of an integer type, as a number of the type. -/
def State.int (s : State) (t : ITy) (l : Nat) (x : Src) : Int := t.val (s.arg l x t.regs)
/-- A source of an integer type, as its w bits. -/
def State.ibits (s : State) (t : ITy) (l : Nat) (x : Src) : Nat := t.bits (s.arg l x t.regs)

/-- R278: a result computed from the registers and written, for each thread, or once for the class in a twin and on
the control core. -/
def compute (i : Instr) (d : Dst) (f : State → Nat → List Word) (s : State) : State :=
  match d with
  | .v _ => perLane i (fun l s => .ok (s.setDst l d (f s l)) none) s
  | .s _ => uniformly i (perClass fun s => .ok (s.setDst s.lead d (f s s.lead)) none) s

/-- A transfer of control by every thread of the class, or by the control core. -/
def State.jumpAll (s : State) (pc : DWord) : State :=
  match s.cur.who with
  | .control => (s.updCore s.cur.core fun c => { c with ctlPc := pc }).withFate .go
  | _ => (s.updGrp fun g => g.updLanes s.cur.lanes fun t => { t with pc, noWatch := false }).withFate .go

/-- R285: the address that a label designates. -/
def State.label (s : State) (disp : DWord) : DWord := s.cur.pc + disp

end Sys2Proof.Machine
end

