-- ==== Sys2Proof/Machine/Flags.lean ====
section
/-!
DEFINITION. Completion flags (R181, R182) and the status register (R241): the issue of a long-latency instruction, the
completion of an outstanding issue, and the status bits of an issue.
-/
namespace Sys2Proof.Machine

/-! ### Status bits, R241 -/

def State.orFstat (s : State) (fl : Nat) : State := s.updGrp fun g => { g with fstat := g.fstat ||| fl }

/-! ### Long-latency issue, R181 -/

/-- What one thread's issue answers: the results still to be written as (register, value), with their status bits; a
trap; or a wait before the instruction. -/
inductive LongRes where
  | ok (s : State) (results : List (Nat × Word)) (fl : Nat)
  | trap (t : Trap)
  | wait (s : State)

/-- Registers from a base, for a result of several words. -/
def resultsAt (d : Nat) (xs : List Word) : List (Nat × Word) := xs.zipIdx.map fun e => (d + e.2, e.1)

/-- An issue entered: the flag counts one for the class, and the results stand as stack slots of their lanes. -/
def State.addPend (s : State) (p : Pend) : State :=
  s.updGrp fun g => { g with flags := updAt g.flags p.flag (· + 1), pend := g.pend ++ [p] }

/-- The flag counter stands at 63, so that an issue waits (R181). -/
def State.flagFull (s : State) (f : Nat) : Bool :=
  match s.grp with | some g => decide (Config.flagMax ≤ g.flags.getD f 0) | none => false

/-- The issue of the lanes before the one that traps, or of all, entered if there are any. -/
def State.issueFor (s : State) (f : Nat) (work : Work) (lanes : List Nat) (ws : List (Nat × Nat × Word)) (fl : Nat) :
    State :=
  if lanes.isEmpty then s
  else s.addPend { flag := f, pc := s.cur.pc, lanes, work, writes := ws, fstat := fl }

/-- The threads of the class one after another (R174), their results gathered.
DEDUCED: log 12. -/
def runLong (i : Instr) (f : Nat) (work : Work) (body : Nat → State → LongRes) (s0 : State) :
    List Nat → List Nat → List (Nat × Nat × Word) → Nat → State → State
  | [], got, ws, fl, s => (s.issueFor f work got ws fl).withFate .go
  | l :: ls, got, ws, fl, s =>
    if !(s.lane l).inFrame i.vecRegs then (s.issueFor f work got ws fl).split (l :: ls) { cause := .regOutOfFrame }
    else if s.meetsError l i then
      (s.issueFor f work got ws fl).split (l :: ls) { cause := .memUncorrectable }
    else match body l s with
      | .trap t => (s.issueFor f work got ws fl).split (l :: ls) t
      | .wait s => s0.waitBefore s
      | .ok s' rs k =>
        let wb := (s.lane l).wb
        runLong i f work body s0 ls (got ++ [l]) (ws ++ rs.map fun r => (l, wb + r.1, r.2)) (fl ||| k)
          (s'.setPc l s.cur.next)

/-- A long-latency instruction whose results are known at its issue.
DESIGN CHOICE: log 15. -/
def perLaneLong (i : Instr) (f : Nat) (body : Nat → State → LongRes) (s : State) : State :=
  if s.flagFull f then s.withFate .wait else runLong i f .none body s s.cur.lanes [] [] 0 s

/-! ### Completion, R181, R241 -/

/-- The results of an issue written to the slots of its lanes. -/
def Group.writeBack (g : Group) (ws : List (Nat × Nat × Word)) : Group :=
  ws.foldl (fun g e => g.updLane e.1 fun t =>
    { t with slots := t.slots.set e.2.1 e.2.2, bad := t.bad.filter fun b => b ≠ e.2.1 }) g

/-- The issue in place `idx` completes: the results of the lanes that are still its own are written, its status bits are raised and its flag counts down. -/
def Group.complete (g : Group) (idx : Nat) (ws : List (Nat × Nat × Word)) (fl : Nat) : Group :=
  match g.pend[idx]? with
  | none => g
  | some p =>
    let g := g.writeBack (ws.filter fun e => p.lanes.contains e.1)
    { g with flags := updAt g.flags p.flag (· - 1), fstat := g.fstat ||| fl, pend := g.pend.eraseIdx idx }

end Sys2Proof.Machine
end

