-- ==== Sys2Proof/Machine/Translate.lean ====
section
/-!
DEFINITION. Translation of the global space: the four-level table (R17 to R21), page attributes (R22 to R27), the order
of the checks (R38), and the caches of translations (R33, R35, R443).
-/
namespace Sys2Proof.Machine

/-! ### Entries, R18 -/

def pteV (e : DWord) : Bool := bit e.toNat 0
def pteType (e : DWord) : Nat := bits e.toNat 2 1
def pteR (e : DWord) : Bool := bit e.toNat 3
def pteW (e : DWord) : Bool := bit e.toNat 4
def pteX (e : DWord) : Bool := bit e.toNat 5
def pteCache (e : DWord) : Nat := bits e.toNat 7 6
def pteSysAtom (e : DWord) : Bool := bit e.toNat 8
def pteBanked (e : DWord) : Bool := bit e.toNat 9
def pteNonres (e : DWord) : Bool := bit e.toNat 10
def pteLoc (e : DWord) : Bool := bit e.toNat 11
/-- ADDR as a byte address, bits [51:12]. -/
def pteAddr (e : DWord) : Nat := bits e.toNat 51 12 * 4096
def pteDemand (e : DWord) : Bool := bit e.toNat 56

/-- Bits of virtual address below the page or table that an entry of a level maps, R17. -/
def levelShift (level : Nat) : Nat := 12 + 9 * level

/-- R17: the index that a level takes from a virtual address. -/
def levelIndex (level va : Nat) : Nat := va / 2 ^ levelShift level % (if level = 3 then 8192 else 512)

/-- A valid entry that is malformed at its level, R19. -/
def pteMalformed (level : Nat) (e : DWord) : Bool :=
  let ty := pteType e
  let a := pteAddr e
  ty == 3 || bits e.toNat 55 52 != 0
    || (ty == 1 && level == 0)
    || (ty == 2 && level != 0)
    || (ty != 1 && (level == 3 || pteCache e == 3 || (pteW e && !pteR e)
          || (level == 2 && a % 2 ^ 30 != 0) || (level == 1 && a % 2 ^ 21 != 0) || (ty == 2 && a % 2 ^ 16 != 0)
          || (pteBanked e && (level != 1 || pteLoc e || pteNonres e))))

/-- Bytes that a leaf's page maps. -/
def Leaf.pageSize (l : Leaf) : Nat := if l.big then 2 ^ 16 else 2 ^ levelShift l.level
/-- The physical address, or host address, that a leaf gives a virtual address. -/
def Leaf.target (l : Leaf) (va : Nat) : Nat := pteAddr l.entry / l.pageSize * l.pageSize + va % l.pageSize

/-- A fault of a walk or of a check: its sub-cause, its level, and whether it is replayable (R38); or the device address of an
uncorrectable error in a table (R79, R80). -/
structure XFault where
  sub : Nat
  level : Nat
  demand : Bool := false
  ue : Option Nat := none
  deriving DecidableEq, Repr

/-! ### The walk -/

/-- Whose walk it is: the die of the walker, PART, ASID, and the root below which it reads (R29, R33). -/
structure Walker where
  die : Nat
  part : Nat
  asid : Nat
  root : Nat
  deriving DecidableEq, Repr

/-- A die's walk-cache entry for a level, R33: one read below the same root (R29). -/
def State.cachedEntry (s : State) (w : Walker) (level va : Nat) : Option DWord :=
  (s.walk.find? fun e => e.die == w.die && e.root == w.root && e.part == w.part && e.asid == w.asid && e.level == level
      && e.vbase == va / 2 ^ levelShift level).map (·.entry)

/-- An entry of a table: the walk cache's, or the 8 bytes at an address relative to the partition window (R21). A table address
outside the window faults with the level whose entry could not be read.
DESIGN CHOICE: log 61. -/
def State.tableEntry (s : State) (w : Walker) (level va a : Nat) : Except XFault DWord :=
  match s.cachedEntry w level va with
  | some e => .ok e
  | none => match s.window w.part a with
    | none => .error ⟨0x05, level, false, none⟩
    | some p => match s.ueIn (.dev p) 8 with
      | some pa => .error ⟨0, level, false, some pa⟩
      | none => .ok (BitVec.ofNat 64 (s.rdNat (.dev p) 8))

/-- The walk from a level down, reading one 8-byte entry at each level from a table at an address relative to the
partition window (R17, R21). The answer is the leaf, with the table entries read on the way. -/
def State.walkFrom (s : State) (w : Walker) (va : Nat) : Nat → Nat → Except XFault (Leaf × List (Nat × DWord))
  | level, table =>
    match s.tableEntry w level va (table + 8 * levelIndex level va) with
    | .error f => .error f
    | .ok e =>
      if !pteV e then
        (if pteDemand e then .error ⟨0x02, level, true, none⟩ else .error ⟨0x03, level, false, none⟩)
      else if pteMalformed level e then .error ⟨0x04, level, false, none⟩
      else if pteType e == 1 then
        match level with
        | 0 => .error ⟨0x04, 0, false, none⟩
        | l + 1 =>
          match s.walkFrom w va l (pteAddr e) with
          | .ok (leaf, es) => .ok (leaf, (l + 1, e) :: es)
          | .error f => .error f
      else .ok (⟨level, pteType e == 2, e⟩, [])
  termination_by structural level => level

/-- The device addresses of the entries that the walk reads from memory: those that the walk cache does not hold. -/
def State.walkReads (s : State) (w : Walker) (va : Nat) : Nat → Nat → List Nat
  | level, table =>
    let a := table + 8 * levelIndex level va
    (if (s.cachedEntry w level va).isSome then [] else (s.window w.part a).toList)
      ++ match level, s.tableEntry w level va a with
        | l + 1, .ok e => if pteV e && !pteMalformed (l + 1) e && pteType e == 1 then s.walkReads w va l (pteAddr e) else []
        | _, _ => []
  termination_by structural level => level

def Ctx.walker (c : Ctx) (die : Nat) : Walker := ⟨die, c.part, c.asid, bits c.ptroot.toNat 51 16 * 2 ^ 16⟩

/-- The walk of a context's table from its root, R28, R29. -/
def State.walkCtx (s : State) (n die va : Nat) : Except XFault (Leaf × List (Nat × DWord)) :=
  let w := (s.ctxAt n).walker die
  s.walkFrom w va 3 w.root

/-! ### An access translated -/

/-- What kind of access is made: its kind (R22), whether it is marked tiled (R26), and whether it is a bank-mode write
(R25). `port` names the host port whose aperture makes it; otherwise a core's TLB serves it. -/
structure Mode where
  kind : Access := .read
  tiled : Bool := false
  bank : Bool := false
  core : Nat := 0
  port : Option Nat := none
  deriving DecidableEq, Repr

/-- What translation answers: a place with its leaf; zeros for a tiled read of a page that is not resident; a fault; or
a wait for the translation of a host page in a die's cache (R27). -/
inductive Xl where
  | ok (p : Place) (l : Leaf)
  | zeros (l : Leaf)
  | bad (f : XFault)
  | pri (page : Nat)

/-- The entry of a TLB that maps an address, R33: a core's, or a port's aperture cache (R443).
DEDUCED: log 10. -/
def State.tlbHit (s : State) (n : Nat) (m : Mode) (va : Nat) : Option Leaf :=
  let c := s.ctxAt n
  let l := match m.port with | some _ => s.aptc | none => s.tlb
  let unit := m.port.getD m.core
  (l.find? fun e => e.unit == unit && e.part == c.part && e.asid == c.asid
      && decide (e.vbase ≤ va) && decide (va < e.vbase + e.leaf.pageSize)).map (·.leaf)

/-- R22, R25, R24, R26: the checks on the leaf after the window's, in the order of R38. -/
def permission (m : Mode) (l : Leaf) : Option XFault :=
  let e := l.entry
  let no (sub : Nat) : Option XFault := some ⟨sub, l.level, sub == 0x0B, none⟩
  if m.kind == .read && !pteR e then no 0x06
  else if (m.kind == .write || m.kind == .atomic) && !pteW e then no 0x07
  else if m.kind == .fetch && !pteX e then no 0x08
  else if (m.kind == .write || m.kind == .atomic) && pteBanked e && !m.bank then no 0x09
  else if m.kind == .atomic && pteLoc e && !pteSysAtom e then no 0x0A
  else if pteNonres e && !m.tiled then no 0x0B
  else none

/-- The leaf that maps an address of a context, after the checks that come before it (R38).
DEDUCED: log 10. -/
def State.leafAt (s : State) (n : Nat) (m : Mode) (va : Nat) : Except XFault Leaf :=
  if !(s.ctxAt n).en then .error ⟨0x05, 7, false, none⟩
  else if va % 2 ^ 64 ≥ 2 ^ 52 then .error ⟨0x01, 7, false, none⟩
  else match s.tlbHit n m va with
    | some l => .ok l
    | none => match s.walkCtx n (dieOf m.core) va with
      | .ok (l, _) => .ok l
      | .error f => .error f

/-- The die whose address translation cache an access uses, R27: the core's; the launch engine and the rendering units, which are
no core's, use that of die 0.
DESIGN CHOICE: log 65. -/
def Mode.die (m : Mode) : Nat := if m.core < 192 then dieOf m.core else 0

/-- A page behind a host port, R27: through the address translation cache of the die, where ATS is on. -/
def State.hostPlace (s : State) (n : Nat) (m : Mode) (l : Leaf) (va : Nat) : Xl :=
  let c := s.ctxAt n
  let a := l.target va
  if !c.ats then .ok (.sys c.port a) l
  else match s.atc.find? fun e => e.die == m.die && e.ctx == n && e.page == a / 4096 with
    | none => .pri (a / 4096)
    | some e => match e.target with
      | none => .bad ⟨0x0C, l.level, false, none⟩
      | some t => .ok (.sys c.port (t * 4096 + a % 4096)) l

/-- R38: one byte address of a context's global space, for one access. -/
def State.translate (s : State) (n : Nat) (m : Mode) (va : Nat) : Xl :=
  match s.leafAt n m va with
  | .error f => .bad f
  | .ok l =>
    if pteLoc l.entry then
      match permission m l with
      | some f => .bad f
      | none => if pteNonres l.entry then .zeros l else s.hostPlace n m l va
    else
      match s.window (s.ctxAt n).part (l.target va) with
      | none => .bad ⟨0x05, l.level, false, none⟩
      | some p => match permission m l with
        | some f => .bad f
        | none => if pteNonres l.entry then .zeros l else .ok (.dev p) l

/-- R38: the trap cause of a sub-cause. -/
def subCause (sub : Nat) : Cause := if sub ≤ 4 ∧ sub ≠ 1 ∨ sub = 0x0B ∨ sub = 0x0C then .pageFault else .accessViolation

def ueTrap (pa : Nat) : Trap := { cause := .memUncorrectable, ue := some pa }

/-- A fault at an address, as the trap it raises. -/
def XFault.trap (f : XFault) (kind : Access) (va : Nat) : Trap :=
  match f.ue with
  | some pa => ueTrap pa
  | none => { cause := subCause f.sub, detail := f.sub, aux := va, kind, level := f.level, demand := f.demand }

/-- The entries of tables that the translation of an access reads from memory, by their home slices, where no TLB serves it (R61,
R71).
DESIGN CHOICE: log 78. -/
def State.tableReads (s : State) (n : Nat) (m : Mode) (va len : Nat) : State :=
  let w := (s.ctxAt n).walker (dieOf m.core)
  (List.range ((va % 4096 + len + 4095) / 4096)).foldl (fun s k =>
    let a := va / 4096 * 4096 + 4096 * k
    if (s.tlbHit n m a).isSome then s
    else (s.walkReads w a 3 w.root).foldl (fun s p => s.homeLine (0, p / 128) false false false) s) s

/-- What an access of several bytes finds: the place of each run of bytes (none where it reads zeros), a fault at the
first byte of the page that faults, or a host page to wait for. -/
inductive Span where
  | ok (runs : List (Option Place × Nat × Leaf))
  | bad (t : Trap)
  | pri (page : Nat)

/-- The runs of `n` bytes from an address, page by page in ascending order (R34, R328). -/
def State.span (s : State) (ctx : Nat) (m : Mode) : Nat → Nat → Nat → Span
  | 0, _, _ => .ok []
  | fuel + 1, va, n =>
    if n = 0 then .ok []
    else
      let k := Nat.min n (4096 - va % 4096)
      match s.translate ctx m va with
      | .bad f => .bad (f.trap m.kind va)
      | .pri p => .pri p
      | .zeros l => match s.span ctx m fuel ((va + k) % 2 ^ 64) (n - k) with
        | .ok rs => .ok ((none, k, l) :: rs)
        | e => e
      | .ok p l => match s.span ctx m fuel ((va + k) % 2 ^ 64) (n - k) with
        | .ok rs => .ok ((some p, k, l) :: rs)
        | e => e

/-- Pages that `n` bytes can touch. -/
def pagesOf (n : Nat) : Nat := n / 4096 + 2

/-- The bytes of a span, zeros where a page is not resident. -/
def State.rdRuns (s : State) : List (Option Place × Nat × Leaf) → List Byte
  | [] => []
  | (some p, k, _) :: rs => s.rdBytes p k ++ s.rdRuns rs
  | (none, k, _) :: rs => List.replicate k 0 ++ s.rdRuns rs

/-- Bytes written along a span. -/
def State.wrRuns (s : State) : List (Option Place × Nat × Leaf) → List Byte → State
  | [], _ => s
  | (some p, k, _) :: rs, xs => (s.wrBytes p (xs.take k)).wrRuns rs (xs.drop k)
  | (none, k, _) :: rs, xs => s.wrRuns rs (xs.drop k)

/-- The translation of a host page asked of the host by ATS for a die, R27. -/
def State.askPri (s : State) (ctx : Nat) (m : Mode) (page : Nat) : State :=
  if s.ats.contains (m.die, ctx, page) then s else { s with ats := s.ats ++ [(m.die, ctx, page)] }

/-- An entry of a die's address translation cache, R27. -/
def State.fillAtc (s : State) (e : AtsEntry) : State :=
  { s with
    atc := capped (fun x => x.die == e.die) Config.atcEntries
      (e :: s.atc.filter fun x => !(x.die == e.die && x.ctx == e.ctx && x.page == e.page)) }

/-- The host's answer to a translation request: the die's cache holds it, or a page request is raised, whose answer the request
then waits for (R27). -/
def State.answerAts (s : State) (die ctx page : Nat) (target : Option Nat) : State :=
  if !s.ats.contains (die, ctx, page) || s.pri.contains (ctx, page) then s
  else match target with
    | some t => { s with ats := s.ats.filter fun r => r != (die, ctx, page) }.fillAtc ⟨die, ctx, page, some t⟩
    | none => { s with pri := s.pri ++ [(ctx, page)] }

/-- The answer to a page request, R27: the caches of the dies that wait for it hold the page, or that it was refused. -/
def State.answerPri (s : State) (ctx page : Nat) (target : Option Nat) : State :=
  if !s.pri.contains (ctx, page) then s
  else
    let mine (r : Nat × Nat × Nat) : Bool := r.2 == (ctx, page)
    (s.ats.filter mine).foldl (fun s r => s.fillAtc ⟨r.1, ctx, page, target⟩)
      { s with pri := s.pri.filter fun p => p != (ctx, page), ats := s.ats.filter fun r => !mine r }

/-! ### Filling and invalidating the caches -/

/-- R35: a leaf that a TLB may hold: its frame lies in the partition window, and it is resident. -/
def State.cacheable (s : State) (n va : Nat) (l : Leaf) : Bool :=
  !pteNonres l.entry && (pteLoc l.entry || (s.window (s.ctxAt n).part (l.target va)).isSome)

/-- The set of a TLB in which a translation stands, R33.
DESIGN CHOICE: log 62. -/
def TlbEntry.set (e : TlbEntry) : Nat := e.vbase / e.leaf.pageSize % (Config.tlbEntries / Config.tlbWays)

/-- R33, R35: a walk that succeeds enters the core's TLB, of which a set holds 8 of its 2,048 entries, and its die's walk cache, which
holds 512.
DESIGN CHOICE: log 62. -/
def State.fillWalk (s : State) (core n va : Nat) (l : Leaf) (es : List (Nat × DWord)) : State :=
  let w := (s.ctxAt n).walker (dieOf core)
  let t : TlbEntry := ⟨core, w.part, w.asid, va / l.pageSize * l.pageSize, l⟩
  { s with
    tlb := capped (fun e => e.unit == core && e.set == t.set) Config.tlbWays (t :: s.tlb)
    walk := capped (fun e => e.die == w.die) Config.walkEntries
      (es.map (fun e => ⟨w.die, w.root, w.part, w.asid, e.1, va / 2 ^ levelShift e.1, e.2⟩) ++ s.walk) }

/-- Whether an entry's page meets the range of an invalidation. -/
def TlbEntry.meets (e : TlbEntry) (lo hi : Nat) : Bool :=
  decide (e.vbase < hi) && decide (lo < e.vbase + e.leaf.pageSize)

/-- R36: scope 0 removes every translation; scope 1 those of a context; scope 2 those of a context in a range. The
walk-cache entries of the context go with them, and, whatever the range, every entry of the address translation caches that
the context has: those name host addresses, and a range names virtual ones.
DEDUCED: log 56. DESIGN CHOICE: log 75. -/
def State.invalidate (s : State) (scope slot lo count : Nat) : State :=
  let c := s.ctxAt slot
  let hi := lo + 4096 * (if count = 0 then 2 ^ 20 else count)
  let mine (part asid : Nat) : Bool := scope == 0 || (part == c.part && asid == c.asid)
  let hit (e : TlbEntry) : Bool := mine e.part e.asid && (scope != 2 || e.meets lo hi)
  { s with
    tlb := s.tlb.filter fun e => !hit e
    aptc := s.aptc.filter fun e => !hit e
    walk := s.walk.filter fun w => !mine w.part w.asid
    atc := s.atc.filter fun e => !(scope == 0 || e.ctx == slot) }

end Sys2Proof.Machine
end

