-- ==== Sys2Proof/Machine/Cache.lean ====
section
/-!
DEFINITION. The caches of data: which levels an access may use (R23, R65 to R68), the lines that home slices hold in L2, with
the single-bit errors that a read from device memory corrects (R61, R62, R71), and the sectors that a core holds in L1 (R60),
which an acquire invalidates.
-/
namespace Sys2Proof.Machine

/-- Runs of bytes that an access touches: their place (none where they read zeros), how many, and the leaf. -/
abbrev Runs := List (Option Place × Nat × Leaf)

/-! ### The effective policy, R67 -/

/-- The levels at which an access may allocate its line, and whether the line is first to be evicted. -/
structure Policy where
  l1 : Bool
  l2 : Bool
  first : Bool
  deriving DecidableEq, Repr

/-- R23, R67: the weaker of the page's CACHE and the hint; WB-ALL of a page behind a host port is L2-ONLY. -/
def policy (l : Leaf) (h : Hint) : Policy :=
  let l2 := decide (pteCache l.entry ≤ 1) && h != .knone
  { l1 := l2 && pteCache l.entry == 0 && !pteLoc l.entry && h != .kl2, l2, first := h == .kevict }

/-! ### L2 -/

/-- An access of an engine or of a host; all but a siphon's carry no hint. `old` tells a write that is no ordinary store (R37). -/
def State.homeRuns (s : State) (write : Bool) (runs : Runs) (h : Hint := .kall) (old : Bool := false) : State :=
  runs.foldl (fun s r => match r.1 with
    | some p => let y := policy r.2.2 h; s.homeRange p r.2.1 write y.l2 y.first old
    | none => s) s

/-- The lines of device memory that a write past L2 is about to write (R25, R158). -/
def State.throughRuns (s : State) (runs : Runs) : State :=
  runs.foldl (fun s r => match r.1 with
    | some p => (List.range ((p.cell.2 + r.2.1 - 1) / 128 + 1 - p.lineNo.2)).foldl (fun s k => s.throughLine (p.lineNo.2 + k)) s
    | none => s) s

/-! ### The invalidation of R36 -/

/-- FLUSH of R36: the L2 lines of the range are written back and invalidated; without a range, every line. What they held before
counts no longer (R37).
DESIGN CHOICE: log 74. -/
def State.flushLines (s : State) (scope slot lo count : Nat) : State :=
  let frame (k : Nat) : Option (Nat × Nat) :=
    let m : Mode := { core := 192 }
    match s.leafAt slot m (lo + 4096 * k) with
    | .error _ => none
    | .ok l =>
      if pteLoc l.entry then
        match s.hostPlace slot m l (lo + 4096 * k) with
        | .ok p _ => some (p.cell.1, p.cell.2 / 4096)
        | _ => none
      else (s.window (s.ctxAt slot).part (l.target (lo + 4096 * k))).map fun a => (0, a / 4096)
  let frames := if scope = 2 then (List.range (if count = 0 then 2 ^ 20 else count)).filterMap frame else []
  let s := (s.l2.filter fun e => scope != 2 || frames.contains (e.key.1, e.key.2 / 32)).foldl (fun s e => s.evictLine e.key) s
  { s with past := s.past.filter fun e => scope == 2 && !frames.contains (0, e.1 / 32) }

/-- An invalidation of R36, by the fields of `TLB_INVCTL`; its range is that of the translations before it. -/
def State.invalidation (s : State) (ctl lo : Nat) : State :=
  let scope := bits ctl 29 28
  let slot := bits ctl 27 22
  let count := bits ctl 19 0
  (if bit ctl 21 then s.flushLines scope slot lo count else s).invalidate scope slot lo count

/-! ### L1 -/

/-- The byte that a core's L1 holds. -/
def State.l1Byte (s : State) (core : Nat) (p : Place) : Option Byte :=
  (s.l1.find? fun e => e.core == core && e.key == p.sectorNo).map fun e => e.bytes.getD (p.cell.2 % 32) 0

/-- A byte as a plain load of a core's thread sees it: its L1's copy, else what the home slice answers. -/
def State.seenByte (s : State) (core : Nat) (p : Place) : Byte := (s.l1Byte core p).getD (s.rdByte p)

def State.seenBytes (s : State) (core : Nat) (p : Place) (n : Nat) : List Byte :=
  (List.range n).map fun k => s.seenByte core (p.add k)

/-- The sectors of `n` bytes from a place. -/
def sectorsOf (p : Place) (n : Nat) : List (Nat × Nat) :=
  (List.range ((p.cell.2 + n - 1) / 32 + 1 - p.sectorNo.2)).map fun k => (p.cell.1, p.sectorNo.2 + k)

/-- A sector as its home slice answers it. -/
def State.sectorBytes (s : State) (key : Nat × Nat) : List Byte :=
  Store.getAll (if key.1 = 0 then s.mem else s.sysMem) (32 * key.2) 32

/-- The lines that a core's L1 holds sectors of, the newest first. -/
def State.l1Lines (s : State) (core : Nat) : List (Nat × Nat) :=
  ((s.l1.filter fun e => e.core == core).map fun e => (e.key.1, e.key.2 / 4)).eraseDups

/-- A line invalidated in a core's L1. -/
def State.dropLine (s : State) (core : Nat) (line : Nat × Nat) : State :=
  { s with l1 := s.l1.filter fun e => !(e.core == core && (e.key.1, e.key.2 / 4) == line) }

/-- R66: what a core's L1 holds of the lines of a run is marked first for eviction, where the access says so. -/
def State.firstLines (s : State) (core : Nat) (y : Policy) (p : Place) (n : Nat) : State :=
  if y.l1 && y.first then
    let lines := (sectorsOf p n).map fun k => (k.1, k.2 / 4)
    { s with l1 := s.l1.map fun e => if e.core = core ∧ (e.key.1, e.key.2 / 4) ∈ lines then { e with first := true } else e }
  else s

/-- A sector allocated in a core's L1, of which a set holds 8 lines (R49).
DESIGN CHOICE: log 62. -/
def State.fillSector (s : State) (core : Nat) (first : Bool) (key : Nat × Nat) : State :=
  let sets := Config.l1Lines / Config.l1Ways
  let lines := (s.l1Lines core).filter fun l => l.2 % sets == key.2 / 4 % sets
  let early := lines.filter fun l => s.l1.any fun e => e.core == core && e.first && (e.key.1, e.key.2 / 4) == l
  let s := if lines.contains (key.1, key.2 / 4) || decide (lines.length < Config.l1Ways) then s
    else match early.getLast?.or lines.getLast? with
      | some l => s.dropLine core l
      | none => s
  { s with l1 := ⟨core, key, s.sectorBytes key, first⟩ :: s.l1 }

/-- R60: L1 is not consulted for what a thread of the core reads from now on. -/
def State.acquire (s : State) (core : Nat) : State := { s with l1 := s.l1.filter fun e => e.core != core }

/-- R60: an atomic, and a red.ord, invalidate the line in the issuing core's L1. -/
def State.dropLines (s : State) (core : Nat) (p : Place) (n : Nat) : State :=
  (sectorsOf p n).foldl (fun s k => s.dropLine core (k.1, k.2 / 4)) s

/-- R60: a store updates a sector that its core's L1 holds. -/
def State.l1Write (s : State) (core : Nat) (p : Place) (x : Byte) : State :=
  { s with l1 := s.l1.map fun e =>
      if e.core = core ∧ e.key = p.sectorNo then { e with bytes := e.bytes.set (p.cell.2 % 32) x } else e }

/-! ### Loads of a thread, R60, R67 -/

/-- Whether a load may take a run from L1: a plain one, of a policy that allocates there. -/
def usesL1 (strong : Bool) (h : Hint) (l : Leaf) : Bool := !strong && (policy l h).l1

/-- The bytes that a load of a core's thread returns: those of a plain one whose policy is L1 and L2 come first from L1, all others
from the home slices. -/
def State.seenRuns (s : State) (core : Nat) (strong : Bool) (h : Hint) : Runs → List Byte
  | [] => []
  | (some p, k, l) :: rs => (if usesL1 strong h l then s.seenBytes core p k else s.rdBytes p k) ++ s.seenRuns core strong h rs
  | (none, k, _) :: rs => List.replicate k 0 ++ s.seenRuns core strong h rs

/-- R79: the uncorrectable error that a load meets: bytes that it takes from L1 hold none, since they are fetched again. -/
def State.seenError (s : State) (core : Nat) (strong : Bool) (h : Hint) (runs : Runs) : Option Nat :=
  runs.findSome? fun r => match r.1 with
    | none => none
    | some p =>
      if usesL1 strong h r.2.2 then (List.range r.2.1).findSome? fun k =>
        if (s.l1Byte core (p.add k)).isSome then none else s.ueIn (p.add k) 1
      else s.ueIn p r.2.1

/-- What a load leaves in the caches: one performed at the home slice drops what L1 holds of its bytes (R68), one that misses L1
allocates, and `.kevict` marks what L1 holds of its lines (R66). -/
def State.loadedRuns (s : State) (core : Nat) (strong : Bool) (h : Hint) (runs : Runs) : State :=
  runs.foldl (fun s r => match r.1 with
    | none => s
    | some p =>
      let y := policy r.2.2 h
      if !usesL1 strong h r.2.2 then (s.homeRange p r.2.1 false y.l2 y.first).dropLines core p r.2.1
      else
        let missing := (sectorsOf p r.2.1).filter fun k => !(s.l1.any fun e => e.core == core && e.key == k)
        let s := if missing.isEmpty then s
          else missing.foldl (fun s k => s.fillSector core y.first k) (s.homeRange p r.2.1 false y.l2 y.first)
        s.firstLines core y p r.2.1) s

end Sys2Proof.Machine
end

