-- ==== Sys2Proof/Machine/Memory.lean ====
section
/-!
DEFINITION. Accesses to the global space by any agent: reads and writes of bytes through translation with the checks of
R38, uncorrectable errors (R79, R80), declared ranges and logs (R98), and watchpoints (R426). One total order of
the accesses at the home slices: each is performed there when it is made (R61); what a thread reads may be its core's L1 (R60).
-/
namespace Sys2Proof.Machine

def State.ueRuns (s : State) (runs : List (Option Place × Nat × Leaf)) : Option Nat :=
  runs.findSome? fun r => match r.1 with | some p => s.ueIn p r.2.1 | none => none

/-- What an access answers: its bytes and where they lie, a trap, or a host page to wait for. -/
inductive Got where
  | ok (bytes : List Byte) (runs : List (Option Place × Nat × Leaf))
  | bad (t : Trap)
  | pri (page : Nat)

/-- `n` bytes read. -/
def State.readVa (s : State) (ctx : Nat) (m : Mode) (va n : Nat) : Got :=
  match s.span ctx m (pagesOf n) va n with
  | .bad t => .bad t
  | .pri p => .pri p
  | .ok runs => match s.ueRuns runs with
    | some pa => .bad (ueTrap pa)
    | none => .ok (s.rdRuns runs) runs

/-- What a write answers. -/
inductive Put where
  | ok (s : State)
  | bad (t : Trap)
  | pri (page : Nat)

/-! ### Declared ranges, R98 -/

/-- Whether two byte ranges meet. -/
def meets (a n b k : Nat) : Bool := decide (a < b + k) && decide (b < a + n)

/-- R98: the detail of an access to a declared range or log of an unretired launch; `who` is the launch that makes it. -/
def State.reserved (s : State) (ctx who : Nat) (kind : Access) (va n : Nat) : Option Nat :=
  s.launches.findSome? fun l =>
    if l.ctx != ctx then none
    else
      let d := if l.id = who then 2 else 1
      l.table.findSome? fun r =>
        if meets va n r.log r.logBytes || (kind.writes && meets va n r.base r.bytes) then some d else none

def conflict (d va : Nat) : Trap := { cause := .determinismConflict, detail := d, aux := va }

/-- Bytes written by launch `who`. An uncorrectable error in a code block that the write meets is met also where the write covers the whole
block (R71).
DESIGN CHOICE: log 90. -/
def State.writeVa (s : State) (ctx who : Nat) (m : Mode) (va : Nat) (xs : List Byte) : Put :=
  match s.span ctx m (pagesOf xs.length) va xs.length with
  | .bad t => .bad t
  | .pri p => .pri p
  | .ok runs => match s.reserved ctx who m.kind va xs.length with
    | some d => .bad (conflict d va)
    | none => match s.ueRuns runs with
      | some pa => .bad (ueTrap pa)
      | none => .ok (((s.tableReads ctx m va xs.length).homeRuns true runs).wrRuns runs xs)

/-- The number by which accesses of engines that are no part of a core name their translations: it is no core's, so they
have no TLB and no walk cache of R33. -/
def engineCore : Nat := 192
def engineMode : Mode := { core := engineCore }

/-- The source of the launch engine's faults (R41). The engines of all dies act as one (R203): their records name die 0, or the
die that runs alone (R449).
DESIGN CHOICE: log 65. -/
def State.launchSource (s : State) : Source := { code := 9, die := s.physDie 0 }

/-- An engine's plain read: its bytes, or what the engine waits on (the end of its context: nothing). -/
def State.engineRead (s : State) (ctx : Nat) (m : Mode) (va n : Nat) (src : Source) :
    Except (State × Option Nat) (State × List Byte) :=
  match s.readVa ctx m va n with
  | .ok xs runs => .ok ((s.tableReads ctx m va n).homeRuns false runs, xs)
  | .bad t => .error (s.engineFault ctx t src)
  | .pri p => .error (s.askPri ctx m p, none)

/-- An engine's plain store, for launch `who`. -/
def State.engineWrite (s : State) (ctx who : Nat) (m : Mode) (va : Nat) (xs : List Byte) (src : Source) :
    Except (State × Option Nat) State :=
  match s.writeVa ctx who { m with kind := .write } va xs with
  | .ok s => .ok s
  | .bad t => .error (s.engineFault ctx t src)
  | .pri p => .error (s.askPri ctx m p, none)

/-! ### Watchpoints, R426 -/

/-- The lowest watchpoint that an access of `n` bytes touches.
DEDUCED: log 57. -/
def Ctx.watched (c : Ctx) (kind : Access) (va n : Nat) : Option Nat :=
  if !c.dbg then none
  else (List.range 4).find? fun w =>
    let x := (c.watch.getD w 0).toNat
    let len := 2 ^ (Nat.min (bits x 4 0) 30)
    let base := bits x 127 64 / len * len
    bit x 63 && (if kind.writes then bit x 61 else bit x 62) && meets va n base len

/-! ### Scratchpad windows, R14, R79 -/

/-- R14, R168: each of `n` bytes at an offset lies in the team's window of its quarter. Windows of the full size follow
one another without a gap. -/
def Team.inWindow (t : Team) (off n : Nat) : Bool :=
  decide (off / 2 ^ 22 < t.cores.length)
    && (if t.spsize = 2 ^ 22 then decide (off + n ≤ 2 ^ 22 * t.cores.length) else decide (off % 2 ^ 22 + n ≤ t.spsize))

/-- DEDUCED: log 40. -/
def windowTrap (off : Nat) (kind : Access) : Trap :=
  { cause := .accessViolation, detail := 0x0D, aux := off, kind }

def Team.rd (t : Team) (off n : Nat) : Nat := t.spad.rd off n
/-- The code word of 8 bytes around a byte lies whole among `n` bytes written. -/
def wordWithin (e off n : Nat) : Bool := decide (off ≤ e / 8 * 8) && decide (e / 8 * 8 + 8 ≤ off + n)
/-- Bytes of a window written: an error goes with its code word of 8 bytes where all of it is written (R79, R80). -/
def Team.wr (t : Team) (off n v : Nat) : Team :=
  { t with spad := t.spad.wr off n v, badSpad := t.badSpad.filter fun e => !wordWithin e off n }
def Team.mended (off n : Nat) (t : Team) : Team := { t with badSpad := t.badSpad.filter fun e => !wordWithin e off n }
/-- R79: the code word of 8 bytes around a byte of the read holds an error. -/
def Team.spadError (t : Team) (off n : Nat) : Bool := t.badSpad.any fun e => meets (e / 8 * 8) 8 off n
/-- A write of part of a code word reads what it leaves of it, and meets an error in it (R79, R80).
DEDUCED: log 86. -/
def Team.partError (t : Team) (off n : Nat) : Bool := t.badSpad.any fun e => meets (e / 8 * 8) 8 off n && !wordWithin e off n

end Sys2Proof.Machine
end

