-- ==== Sys2Proof/Machine/Access.lean ====
section
/-!
DEFINITION. Loads, stores and fences of lanes (R323 to R333): the order of checks of R327 with watchpoints (R426), the
bytes of an access, residency feedback (R46 to R48), and the instructions.
-/
namespace Sys2Proof.Machine

/-- The launch of the current group. -/
def State.myLaunch (s : State) : Nat := match s.myTeam with | some t => t.launch | none => 0

/-! ### Checks, R327 -/

/-- What a check answers: the places of the access, a trap, or a host page to wait for. -/
inductive Chk where
  | ok (runs : Runs)
  | trap (t : Trap)
  | wait (s : State)

/-- R13: bits above 51 of a pointer. -/
def pointerTrap (kind : Access) (va : Nat) : Option Trap :=
  if 2 ^ 52 ≤ va then some (XFault.trap ⟨0x01, 7, false, none⟩ kind va) else none

def misaligned (a : Nat) : Trap := { cause := .misaligned, aux := a }

/-! ### Residency feedback, R46 to R48 -/

/-- The enabled region of lowest index that holds an address. -/
def Ctx.regionAt (c : Ctx) (a : Nat) : Option Region :=
  c.regions.findSome? fun r => match r with
    | some r => if r.base ≤ a ∧ a < r.base + r.size then some r else none
    | none => none

/-- What the feedback of one read finds for each of its bits: the byte of the map and the bit, or none where it cannot be
written (R48), with the leaf of its page; a host page to wait for (R27); or a trap: an uncorrectable error, in the byte or in an entry of
a table that translates it (R80), or a declared range (R98). -/
inductive Feed where
  | ok (marks : List (Option (Place × Nat × Leaf)))
  | bad (t : Trap)
  | pri (page : Nat)

/-- The address of the byte of a region's map that holds the bit of an address (R46). -/
def Region.mapByte (r : Region) (a : Nat) : Nat := (r.map + (a - r.base) / 2 ^ 16 / 8) % 2 ^ 64

/-- One bit: its number in a region's map is that of the unit of 64 KiB (R46). It is written by an atomic OR (R46, R47), so that a page
that takes no atomics loses it.
DEDUCED: log 17. -/
def State.mapBit (s : State) (ctx who core : Nat) (r : Region) (a : Nat) : Feed :=
  let bitNo := (a - r.base) / 2 ^ 16
  let va := r.mapByte a
  match s.translate ctx { kind := .atomic, core } va with
  | .ok p leaf => match s.reserved ctx who .atomic va 1 with
    | some d => .bad (conflict d va)
    | none => match s.ueIn p 1 with
      | some pa => .bad (ueTrap pa)
      | none => .ok [some (p, bitNo % 8, leaf)]
  | .pri page => .pri page
  | .bad f => match f.ue with
    | some pa => .bad (ueTrap pa)
    | none => .ok [none]
  | .zeros _ => .ok [none]

/-- The bits of a tiled read: one for each run that lies in a page that is not resident, inside an enabled region. -/
def State.marks (s : State) (ctx who core : Nat) : Nat → Runs → Feed
  | _, [] => .ok []
  | va, (some _, k, _) :: rs => s.marks ctx who core (va + k) rs
  | va, (none, k, _) :: rs =>
    match (s.ctxAt ctx).regionAt va with
    | none => s.marks ctx who core (va + k) rs
    | some r => match s.mapBit ctx who core r va with
      | .ok ms => match s.marks ctx who core (va + k) rs with
        | .ok rest => .ok (ms ++ rest)
        | e => e
      | e => e

/-- One bit set by an atomic OR at its home slice (R46), by a thread of a core. -/
def State.setMark (s : State) (ctx core : Nat) : Option (Place × Nat × Leaf) → State
  | some (p, b, l) => ((s.homeRuns true [(some p, 1, l)] .kall true).dropLines core p 1).wrByte p (s.rdByte p ||| BitVec.ofNat 8 (2 ^ b))
  | none => s.updCtx ctx fun c => { c with rfmlost := true }

/-- The entries of tables read that translate the map bytes of a tiled read (R61, R71, R81). -/
def State.mapReads (s : State) (ctx core : Nat) : Nat → Runs → State
  | _, [] => s
  | va, (some _, k, _) :: rs => s.mapReads ctx core (va + k) rs
  | va, (none, k, _) :: rs =>
    (match (s.ctxAt ctx).regionAt va with
      | none => s
      | some r => s.tableReads ctx { kind := .atomic, core } (r.mapByte va) 1).mapReads ctx core (va + k) rs

/-- R46 to R48: the feedback of a tiled read, made after it. -/
def State.feedback (s : State) (ctx who core va : Nat) (runs : Runs) : State :=
  match s.marks ctx who core va runs with
  | .ok ms => ms.foldl (fun s m => s.setMark ctx core m) (s.mapReads ctx core va runs)
  | _ => s

/-! ### The checks of a lane's access, R327 -/

/-- A request for the walk of a page, still to end. -/
def Miss.wants (m : Miss) (core ctx page : Nat) : Bool := m.core == core && m.ctx == ctx && m.page == page && !m.ended

/-- R34: an ended walk that a thread of a core has joined, and has not yet used. -/
def Miss.serves (m : Miss) (core ctx page : Nat) (who : Nat × Nat) : Bool :=
  m.core == core && m.ctx == ctx && m.page == page && m.ended && m.joined.contains who

/-- The first page of an access by lane `l` that neither a TLB entry nor a finished walk serves (R34), among `n` bytes. -/
def State.missing (s : State) (ctx core l : Nat) : Nat → Nat → Nat → Option Nat
  | 0, _, _ => none
  | fuel + 1, va, n =>
    if n = 0 then none
    else
      let k := Nat.min n (4096 - va % 4096)
      if (s.tlbHit ctx { core } va).isSome || s.cur.served.contains (va / 4096)
          || s.misses.any (fun m => m.serves core ctx (va / 4096) (s.cur.slot, l)) then
        s.missing ctx core l fuel ((va + k) % 2 ^ 64) (n - k)
      else some (va / 4096)

/-- R34: a full miss queue. -/
def State.missFull (s : State) (core : Nat) : Bool :=
  decide (Config.missQueue ≤ (s.misses.filter fun m => m.core == core && !m.ended).length)

/-- R34: a page enters its core's miss queue for the threads given, or these join the request that stands there, up to 256; a full
queue makes it wait outside. -/
def State.miss (s : State) (core ctx page : Nat) (who : List (Nat × Nat)) : State :=
  if s.misses.any fun m => m.wants core ctx page then
    { s with misses := s.misses.map fun m =>
        if m.wants core ctx page then
          { m with joined := (m.joined ++ who.filter fun x => !m.joined.contains x).take Config.missJoins } else m }
  else if s.missFull core then s
  else { s with misses := s.misses ++ [⟨core, ctx, page, .queued, who⟩] }

/-- Checks 2 to 5 of R327 on a global access of `n` bytes by a lane, then the watchpoints, then an uncorrectable error
among its bytes. That a context is disabled is judged before the table of R38. `align` is what its address must be a
multiple of; `plain` is the hint of a load that may read L1, whose bytes hold no uncorrectable error (R79). Translations that the core's TLB does not hold are waited for (R34), and so is what residency feedback needs of a
host (R27).
DEDUCED: log 57. -/
def State.check (s : State) (l : Nat) (kind : Access) (tiled : Bool) (va n align : Nat) (plain : Option Hint := none) : Chk :=
  let ctx := s.myCtx
  match pointerTrap kind va with
  | some t => .trap (if (s.ctxAt ctx).en then t else XFault.trap ⟨0x05, 7, false, none⟩ kind va)
  | none =>
    if va % align ≠ 0 then .trap (misaligned va)
    else if !(s.ctxAt ctx).en then .trap (XFault.trap ⟨0x05, 7, false, none⟩ kind va)
    else match s.missing ctx s.cur.core l (pagesOf n) va n with
    | some page => .wait (s.miss s.cur.core ctx page [(s.cur.slot, l)])
    | none =>
      let m : Mode := { kind, tiled, core := s.cur.core }
      match s.span ctx m (pagesOf n) va n with
      | .bad t => .trap t
      | .pri p => .wait (s.askPri ctx m p)
      | .ok runs =>
        match s.reserved ctx s.myLaunch kind va n with
        | some d => .trap (conflict d va)
        | none =>
          match if (s.lane l).noWatch then none else (s.ctxAt ctx).watched kind va n with
          | some w => .trap { cause := .watch, detail := w, aux := va }
          | none => match s.seenError s.cur.core plain.isNone (plain.getD .kall) runs with
            | some pa => .trap (ueTrap pa)
            | none => match s.marks ctx s.myLaunch s.cur.core va runs with
              | .bad t => .trap t
              | .pri p => .wait (s.askPri ctx { kind := .atomic, core := s.cur.core } p)
              | .ok _ => .ok runs

/-- R34: the access of lane `l` has been performed: the walks that it waited for have served it, and serve the threads of its class
that perform with it. -/
def State.walkServed (s : State) (core ctx l va n : Nat) : State :=
  let who := (s.cur.slot, l)
  let mine (m : Miss) : Bool :=
    m.serves core ctx m.page who && decide (va / 4096 ≤ m.page) && decide (m.page ≤ (va + n - 1) / 4096)
  { s with
    misses := leaveWalks (fun m x => mine m && x == who) s.misses
    cur := { s.cur with served := ((s.misses.filter mine).map fun m => m.page) ++ s.cur.served } }

/-! ### Accesses of engines on behalf of lanes, R38, R41, R98 -/

/-- An access by an engine that works for launch `who`: the reservation of R98 comes after the checks of R38. The answer is the
state after the reads of tables, with the places; `plain` tells a read that may take its bytes from L1 (R79). The error is the state
with the fault taken, and the record to wait on. -/
def State.engineCheck (s : State) (ctx who : Nat) (src : Source) (m : Mode) (va n : Nat) (plain : Bool := false) :
    Except (State × Option Nat) (State × Runs) :=
  match s.span ctx m (pagesOf n) va n with
  | .bad t => .error (s.engineFault ctx t src)
  | .pri p => .error (s.askPri ctx m p, none)
  | .ok runs =>
    match s.reserved ctx who m.kind va n with
    | some d => .error (s.engineFault ctx (conflict d va) src)
    | none => match s.seenError m.core (!plain) .kall runs with
      | some pa => .error (s.engineFault ctx (ueTrap pa) src)
      | none => match s.marks ctx who m.core va runs with
        | .bad t => .error (s.engineFault ctx t src)
        | .pri p => .error (s.askPri ctx { m with kind := .atomic } p, none)
        | .ok _ => .ok (s.tableReads ctx m va n, runs)

/-- The source of an engine's access for a lane of a group, R41. -/
def State.laneSource (s : State) (code core slot lane : Nat) (pc : DWord) : Source :=
  { code, die := s.physDie (dieOf core), core := coreOf core, group := slot, lane, pc }

/-- The launch of a team and of a group. -/
def State.launchOfTeam (s : State) (team : Nat) : Nat := match s.team? team with | some t => t.launch | none => 0
def State.launchOf (s : State) (g : Group) : Nat := s.launchOfTeam g.team

/-! ### Stores of a class, R331 -/

/-- A byte stored on its own: where an earlier lane of the same issue has written it, it ends with one of the two values. `size`
is that of the words stored whole.
DEDUCED: log 14. -/
def State.storeOne (s : State) (size : Nat) (cell : Nat × Nat) (put : State → State) : State :=
  if s.cur.wrote.contains cell || s.cur.words.any (fun w => w.1 == cell.1 && decide (w.2 ≤ cell.2) && decide (cell.2 < w.2 + size)) then
    let (k, s) := s.choose 2
    if k = 0 then s else put { s with cur := { s.cur with wrote := cell :: s.cur.wrote } }
  else put { s with cur := { s.cur with wrote := cell :: s.cur.wrote } }

/-- A word stored whole (R109): where an earlier lane of the same issue has stored it, it ends with one of the two words; a byte
of it that a lane has stored on its own ends with one of the two bytes, and once the word's byte stays there it stands in the word.
`puts` are its bytes.
DEDUCED: log 14. -/
def State.storeWord (s : State) (cell : Nat × Nat) (puts : List (State → State)) : State :=
  let (k, s) := if s.cur.words.contains cell then s.choose 2 else (1, { s with cur := { s.cur with words := cell :: s.cur.words } })
  if k = 0 then s
  else puts.zipIdx.foldl (fun s e =>
    let at_ := (cell.1, cell.2 + e.2)
    if s.cur.wrote.contains at_ then
      let (k, s) := s.choose 2
      if k = 0 then s else e.1 { s with cur := { s.cur with wrote := s.cur.wrote.filter fun x => x != at_ } }
    else e.1 s) s

/-- Bytes stored from a cell on: words of `size` bytes where the store is aligned, bytes where it is not (R109). -/
def State.storeCells (s : State) (size : Nat) (whole : Bool) (cell : Nat × Nat) : Nat → List (State → State) → State
  | 0, _ => s
  | fuel + 1, puts =>
    match puts with
    | [] => s
    | p :: ps =>
      if whole then (s.storeWord cell (puts.take size)).storeCells size whole (cell.1, cell.2 + size) fuel (puts.drop size)
      else (s.storeOne size cell p).storeCells size whole (cell.1, cell.2 + 1) fuel ps

/-- A byte stored by a thread of a core: its L1's copy is updated, and the byte passes to the home slice (R60). -/
def State.putByte (s : State) (core : Nat) (p : Place) (x : Byte) : State := (s.wrByte p x).l1Write core p x

/-- Bytes stored along a span by an engine of a core. -/
def State.putRuns (s : State) (core : Nat) : Runs → List Byte → State
  | [], _ => s
  | (some p, k, _) :: rs, xs =>
    (((xs.take k).zipIdx).foldl (fun s e => s.putByte core (p.add e.2) e.1) s).putRuns core rs (xs.drop k)
  | (none, k, _) :: rs, xs => s.putRuns core rs (xs.drop k)

/-- The bytes of a store at their places; `size` and `whole` as R109 divides it. -/
def State.storeRuns (s : State) (core size : Nat) (whole : Bool) (h : Hint) : Runs → List Byte → State
  | [], _ => s
  | (some p, k, l) :: rs, xs =>
    let y := policy l h
    (((s.homeRange p k true y.l2 y.first).firstLines core y p k).storeCells size whole p.cell k
      ((xs.take k).zipIdx.map fun e => fun s => s.putByte core (p.add e.2) e.1)).storeRuns core size whole h rs (xs.drop k)
  | (none, k, _) :: rs, xs => s.storeRuns core size whole h rs (xs.drop k)

/-- Bytes stored in the team's window. -/
def State.storeSpad (s : State) (team off size : Nat) (whole : Bool) (xs : List Byte) : State :=
  (s.storeCells size whole (2, off) xs.length
    (xs.zipIdx.map fun e => fun s => s.updTeam team fun t => t.wr (off + e.2) 1 e.1.toNat)).updTeam team (Team.mended off xs.length)

/-! ### Stores held back, R119, R331 -/

def HeldByte.place (b : HeldByte) : Place := match b.port with | none => .dev b.addr | some q => .sys q b.addr
/-- The byte named: in a window as memory 2. -/
def HeldByte.cell (b : HeldByte) : Nat × Nat := if b.team.isSome then (2, b.addr) else b.place.cell
/-- The aligned word of 8 bytes that holds it. -/
def HeldByte.word (b : HeldByte) : Nat × Nat := (b.cell.1, b.cell.2 / 8)
def HeldByte.of (b : HeldByte) (core slot : Nat) : Bool := b.core == core && b.slot == slot

/-- A byte that lane `l` of the class stores, held back. -/
def State.heldByte (s : State) (l : Nat) (team port : Option Nat) (addr : Nat) (y : Policy) (x : Byte) : HeldByte :=
  { core := s.cur.core, slot := s.cur.slot, lane := l, ctx := s.myCtx, team, port, addr, byte := x, keep := y.l2, first := y.first }

/-- The bytes of a plain store by lane `l`, held back. -/
def State.holdRuns (s : State) (l : Nat) (h : Hint) : Runs → List Byte → State
  | [], _ => s
  | (some p, k, f) :: rs, xs =>
    let held := (xs.take k).zipIdx.map fun (e : Byte × Nat) => match p with
      | .dev a => s.heldByte l none none (a + e.2) (policy f h) e.1
      | .sys q a => s.heldByte l none (some q) (a + e.2) (policy f h) e.1
    State.holdRuns { s with stores := s.stores ++ held } l h rs (xs.drop k)
  | (none, k, _) :: rs, xs => s.holdRuns l h rs (xs.drop k)

/-- The bytes of a plain store to a team's window, held back. -/
def State.holdSpad (s : State) (l team off : Nat) (xs : List Byte) : State :=
  { s with stores := s.stores ++ xs.zipIdx.map fun e => s.heldByte l (some team) none (off + e.2) ⟨false, false, false⟩ e.1 }

/-- A byte held back is performed: in its window, or at its home slice and in its core's L1 (R60). An error that it meets there ends its
context (R80).
DEDUCED: log 86. -/
def State.performByte (s : State) (b : HeldByte) : State :=
  match b.team with
  | some t => s.updTeam t fun t => t.wr b.addr 1 b.byte.toNat
  | none => match s.ueIn b.place 1 with
    | some pa => (s.noteUeAt pa).endContext b.ctx 0
    | none => (s.homeRange b.place 1 true b.keep b.first).putByte b.core b.place b.byte

/-- The stores held back of which `f` holds are performed, in the order in which they were made; an error in a window goes with a code
word all of which they write (R79). -/
def State.perform? (s : State) (f : HeldByte → Bool) : State :=
  let now := s.stores.filter f
  let s := now.foldl State.performByte { s with stores := s.stores.filter fun b => !f b }
  (now.filter fun b => (List.range 8).all fun k => now.any fun c => c.team == b.team && c.addr == b.addr / 8 * 8 + k).foldl
    (fun s b => match b.team with
      | some t => s.updTeam t (Team.mended (b.addr / 8 * 8) 8)
      | none => s) s

/-- The stores to memory that are held back are performed: those that a host's translations placed behind a port (R27), or all
(R36). -/
def State.performTranslated (s : State) (port : Option Nat) : State :=
  s.perform? fun b => b.team.isNone && (port.isNone || b.port == port)

/-- The threads of a group have, of each other, stores held back that an `.sc` fence of their scope came after (R118). -/
def State.sharing (s : State) (core slot : Nat) : Bool := s.stores.any fun b => b.of core slot && b.shared

/-- The stores held back that go before what threads of a group do next: their own, and all of the group's where some of them are
shared (R118, R120). -/
def State.before (s : State) (core slot : Nat) (lanes : List Nat) (b : HeldByte) : Bool :=
  b.of core slot && (lanes.contains b.lane || s.sharing core slot)

/-- R118: what lane `l` holds back comes before the loads of its group's threads from now on. -/
def State.share (s : State) (l : Nat) : State :=
  { s with stores := s.stores.map fun b => if b.of s.cur.core s.cur.slot && b.lane == l then { b with shared := true } else b }

/-- The cells of the bytes of an access. -/
def cellsOf (runs : Runs) : List (Option (Nat × Nat)) :=
  (runs.map fun r => (List.range r.2.1).map fun k => r.1.map fun p => (p.add k).cell).flatten

/-- The bytes held back that lane `l` reads: its own, and those that its group shares (R112, R118). -/
def State.heldFor (s : State) (l : Nat) : List HeldByte :=
  s.stores.filter fun b => b.of s.cur.core s.cur.slot && (b.lane == l || b.shared)

/-- What lane `l` reads of bytes of which stores are held back: what was stored last. -/
def State.forward (s : State) (l : Nat) (cells : List (Option (Nat × Nat))) (xs : List Byte) : List Byte :=
  (s.heldFor l).foldl (fun xs b => cells.zipWith (fun c x => if c = some b.cell then b.byte else x) xs) xs

/-- Its team as lane `l` finds it: an error in a code word of the window, all of which it reads from stores held back, is none (R79). -/
def State.teamFor (s : State) (l : Nat) : Option Team :=
  s.myTeam.map fun t => { t with badSpad := t.badSpad.filter fun e =>
    !((List.range 8).all fun k => (s.heldFor l).any fun b => b.cell == (2, e / 8 * 8 + k)) }

end Sys2Proof.Machine
namespace Sys2Proof
/-- R324: bytes read, as the registers of the type hold them. -/
def MTy.load (t : MTy) (x : Nat) : List Word :=
  match t with
  | .n8 => [BitVec.ofNat 32 (x % 2 ^ 8)]
  | .i8 => [(BitVec.ofNat 8 x).signExtend 32]
  | .n16 => [BitVec.ofNat 32 (x % 2 ^ 16)]
  | .i16 => [(BitVec.ofNat 16 x).signExtend 32]
  | .n32 => [BitVec.ofNat 32 x]
  | .i32 => [BitVec.ofNat 32 x]
  | .n64 => [BitVec.ofNat 32 x, BitVec.ofNat 32 (x / 2 ^ 32)]
  | .i64 => [BitVec.ofNat 32 x, BitVec.ofNat 32 (x / 2 ^ 32)]
  | .n128 => (List.range 4).map fun k => BitVec.ofNat 32 (x / 2 ^ (32 * k))
/-- R109: an aligned access is made of words of up to 8 bytes. -/
def MTy.wordBytes (t : MTy) : Nat := Nat.min t.bytes 8
/-- The scope of a load that acquires, R113. -/
def LdOrd.acquires : LdOrd → Option Scope
  | .acq sc => some sc
  | _ => none
end Sys2Proof
namespace Sys2Proof.Machine

/-- The bytes of a store's data, R324. -/
def State.storeData (s : State) (t : MTy) (l : Nat) (b : Src) : List Byte :=
  leBytes (((List.range t.regs).foldl (fun a k => a + (s.reg l b k).toNat * 2 ^ (32 * k)) 0)) t.bytes

/-- The effective address of a global operand, R323. -/
def State.ea (s : State) (l : Nat) (a : Src) (off : BitVec 12) : Nat := (s.pair l a + off.signExtend 64).toNat
/-- The offset of a scratchpad operand, R323. -/
def State.spOff (s : State) (l : Nat) (a : Src) (off : BitVec 12) : Nat := (s.reg l a 0 + off.signExtend 32).toNat

/-! ### The instructions, R328 to R333 -/

/-- R60, R113: after an acquire at a scope that reaches beyond the group, L1 is not consulted for what the core's threads read.
The scope of a team reaches other cores only where it has several. -/
def State.acquireAt (s : State) (core : Nat) : Option Scope → State
  | none => s
  | some .grp => s
  | some .team => match s.myTeam with
    | some t => if t.cores.length ≤ 1 then s else s.acquire core
    | none => s
  | some _ => s.acquire core

/-- What a load of lane `l` leaves: the caches (R60, R67), the walks that served it, its acquire, and residency feedback (R47). -/
def State.afterLoad (s : State) (l : Nat) (strong : Bool) (acq : Option Scope) (h : Hint) (va n : Nat) (runs : Runs) : State :=
  (((s.loadedRuns s.cur.core strong h runs).walkServed s.cur.core s.myCtx l va n).acquireAt s.cur.core acq).feedback
    s.myCtx s.myLaunch s.cur.core va runs

/-- A load of a class, R329: each lane's value is read when it issues. -/
def loadGlobal (i : Instr) (t : MTy) (tiled strong : Bool) (acq : Option Scope) (h : Hint) (align d : Nat) (a : Src)
    (off : BitVec 12) (f : Nat) (s : State) : State :=
  perLaneLong i f (fun l s =>
    let va := s.ea l a off
    match s.check l .read tiled va t.bytes align (if strong then none else some h) with
    | .trap e => .trap e
    | .wait s => .wait s
    | .ok runs => .ok (s.afterLoad l strong acq h va t.bytes runs)
        (resultsAt d (t.load (leNat (s.forward l (cellsOf runs) (s.seenRuns s.cur.core strong h runs))))) 0) s

def execLd (t : MTy) (o : LdOrd) (h : Hint) (d : Nat) (a : Src) (off : BitVec 12) (f : Nat) (s : State) : Out :=
  done (loadGlobal (.ld t o h d a off f) t false o.strong o.acquires h (if o.strong then t.bytes else 1) d a off f s)

/-- R330. -/
def execLdt (t : MTy) (h : Hint) (d : Nat) (a : Src) (off : BitVec 12) (f : Nat) (s : State) : Out :=
  done (loadGlobal (.ldt t h d a off f) t true false none h 1 d a off f s)

/-- A store's bytes on their way, R331: performed, or held back where the group's plain stores are.
DESIGN CHOICE: log 4. -/
def State.storeOrHold (s : State) (l : Nat) (strong : Bool) (size : Nat) (whole : Bool) (h : Hint) (runs : Runs) (xs : List Byte) :
    State :=
  if s.cur.delay && !strong then s.holdRuns l h runs xs else s.storeRuns s.cur.core size whole h runs xs

/-- R331. -/
def execSt (t : MTy) (o : StOrd) (h : Hint) (a : Src) (off : BitVec 12) (b : Src) (s : State) : Out :=
  done (perLane (.st t o h a off b) (fun l s =>
    let va := s.ea l a off
    match s.check l .write false va t.bytes (if o.strong then t.bytes else 1) with
    | .trap e => .trap e
    | .wait s => .wait s
    | .ok runs => .ok ((s.storeOrHold l o.strong t.wordBytes (va % t.bytes == 0) h runs (s.storeData t l b)).walkServed
        s.cur.core s.myCtx l va t.bytes) none) s)

/-- Checks 2 and 3 of R327 on a scratchpad access of the current team, then an uncorrectable error of what it reads (R79). -/
def Team.check (t : Team) (kind : Access) (off n align : Nat) : Option Trap :=
  if !t.inWindow off n then some (windowTrap off kind)
  else if off % align ≠ 0 then some (misaligned off)
  else if (if kind = .read then t.spadError off n else t.partError off n) then some { cause := .memUncorrectable }
  else none

/-- What lane `l` reads of its team's window. -/
def State.spadLoad (s : State) (l : Nat) (tm : Team) (off n : Nat) : Nat :=
  leNat (s.forward l ((List.range n).map fun k => some (2, off + k)) (tm.spad.getAll off n))

def execLdsp (t : MTy) (o : LdOrd) (d : Nat) (a : Src) (off : BitVec 12) (f : Nat) (s : State) : Out :=
  done (perLaneLong (.ldsp t o d a off f) f (fun l s =>
    match s.teamFor l with
    | none => .trap (windowTrap 0 .read)
    | some tm =>
      let x := s.spOff l a off
      match tm.check .read x t.bytes (if o.strong then t.bytes else 1) with
      | some e => .trap e
      | none => .ok (s.acquireAt s.cur.core o.acquires) (resultsAt d (t.load (s.spadLoad l tm x t.bytes))) 0) s)

/-- A store to the team's window on its way: performed, or held back where the group's plain stores are.
DESIGN CHOICE: log 4. -/
def State.spadOrHold (s : State) (l team : Nat) (strong : Bool) (off size : Nat) (whole : Bool) (xs : List Byte) : State :=
  if s.cur.delay && !strong then s.holdSpad l team off xs else s.storeSpad team off size whole xs

def execStsp (t : MTy) (o : StOrd) (a : Src) (off : BitVec 12) (b : Src) (s : State) : Out :=
  done (perLane (.stsp t o a off b) (fun l s =>
    match s.teamFor l with
    | none => .trap (windowTrap 0 .write)
    | some tm =>
      let x := s.spOff l a off
      match tm.check .write x t.bytes (if o.strong then t.bytes else 1) with
      | some e => .trap e
      | none => .ok (s.spadOrHold l tm.id o.strong x t.wordBytes (x % t.bytes == 0) (s.storeData t l b)) none) s)

/-- What a fence of lane `l` leaves: one that acquires makes L1 unread (R60, R113), and before an `.sc` fence of the group's scope what
the lane holds back becomes its group's (R118). -/
def State.fenced (s : State) (l : Nat) (o : FenceOrd) (sc : Scope) : State :=
  (if o = .sc then s.share l else s).acquireAt s.cur.core (if o = .rel then none else some sc)

/-- R333: a fence touches no location. -/
def execFence (o : FenceOrd) (sc : Scope) (s : State) : Out :=
  done (perLane (.fence o sc) (fun l s => .ok (s.fenced l o sc) none) s)

end Sys2Proof.Machine
end

