-- ==== Sys2Proof/Machine/Fp.lean ====
section
/-!
DEFINITION. The floating-point formats and their exact arithmetic (R229 to R243): values of encodings, dyadic numbers,
`round()` with its six modes, flush and NaN rules, conversions, and the chunked sum.
-/
namespace Sys2Proof
namespace Machine

/-! ### Formats, R229 -/

/-- How a format spends its top exponent: infinities and NaNs, one NaN only, or neither. -/
inductive Specials where
  | ieee | nanOnly | none
  deriving DecidableEq, Repr

structure Fmt where
  eb : Nat
  mb : Nat
  bias : Nat
  sp : Specials
  deriving DecidableEq, Repr

end Machine

def FTy.fmt : FTy → Machine.Fmt
  | .f64 => ⟨11, 52, 1023, .ieee⟩ | .f32 => ⟨8, 23, 127, .ieee⟩ | .f16 => ⟨5, 10, 15, .ieee⟩
  | .bf16 => ⟨8, 7, 127, .ieee⟩ | .e5m2 => ⟨5, 2, 15, .ieee⟩ | .e4m3 => ⟨4, 3, 7, .nanOnly⟩
  | .e3m2 => ⟨3, 2, 3, .none⟩ | .e2m3 => ⟨2, 3, 1, .none⟩ | .e2m1 => ⟨2, 1, 1, .none⟩

namespace Machine

/-- Bits of an encoding. -/
def Fmt.width (f : Fmt) : Nat := 1 + f.eb + f.mb
/-- The magnitude bits of the largest finite value. -/
def Fmt.maxBits (f : Fmt) : Nat :=
  match f.sp with
  | .ieee => (2 ^ f.eb - 2) * 2 ^ f.mb + (2 ^ f.mb - 1)
  | .nanOnly => 2 ^ (f.eb + f.mb) - 2
  | .none => 2 ^ (f.eb + f.mb) - 1
/-- The magnitude bits of infinity (ieee formats). -/
def Fmt.infBits (f : Fmt) : Nat := (2 ^ f.eb - 1) * 2 ^ f.mb
/-- The canonical NaN, R230. -/
def Fmt.nanBits (f : Fmt) : Nat :=
  match f.sp with
  | .ieee => f.infBits + 2 ^ (f.mb - 1)
  | .nanOnly => 2 ^ (f.eb + f.mb) - 1
  | .none => 0
def Fmt.signBits (f : Fmt) (s : Bool) : Nat := if s then 2 ^ (f.eb + f.mb) else 0
/-- The exponent of the smallest normal value. -/
def Fmt.emin (f : Fmt) : Int := 1 - (f.bias : Int)
end Machine

/-- The bit of `%fmode` that flushes a format, R237. -/
def FTy.fzBit : FTy → Nat
  | .f64 => 17 | .f32 => 16 | .f16 => 15 | .bf16 => 14 | _ => 13

namespace Machine

/-- What an encoding stands for: a NaN with its mantissa field, an infinity, or (−1)^s × m × 2^e. -/
inductive FVal where
  | nan (s : Bool) (man : Nat)
  | inf (s : Bool)
  | fin (s : Bool) (m : Nat) (e : Int)
  deriving DecidableEq, Repr

def Fmt.decode (f : Fmt) (x : Nat) : FVal :=
  let s := bit x (f.eb + f.mb)
  let ex := bits x (f.eb + f.mb - 1) f.mb
  let man := x % 2 ^ f.mb
  let mag := x % 2 ^ (f.eb + f.mb)
  if f.sp = .ieee ∧ ex = 2 ^ f.eb - 1 then (if man = 0 then .inf s else .nan s man)
  else if f.sp = .nanOnly ∧ mag = 2 ^ (f.eb + f.mb) - 1 then .nan s man
  else if ex = 0 then .fin s man (f.emin - f.mb)
  else .fin s (2 ^ f.mb + man) ((ex : Int) - f.bias - f.mb)

def FVal.isNan : FVal → Bool
  | .nan _ _ => true | _ => false
def FVal.isInf : FVal → Bool
  | .inf _ => true | _ => false
def FVal.isZero : FVal → Bool
  | .fin _ m _ => m == 0 | _ => false
def FVal.neg? : FVal → Bool
  | .nan s _ => s | .inf s => s | .fin s _ _ => s
def FVal.negate : FVal → FVal
  | .nan s m => .nan s m | .inf s => .inf (!s) | .fin s m e => .fin (!s) m e

end Machine

/-- R230: a NaN of an ieee format with more than one mantissa bit, other than E5M2, whose quiet bit is clear. -/
def FTy.signalling (t : FTy) (v : Machine.FVal) : Bool :=
  match v with
  | .nan _ man => t.isArith && !Machine.bit man (t.fmt.mb - 1)
  | _ => false

namespace Machine

/-! ### Dyadic numbers -/

/-- The exact number n × 2^e. -/
structure Dy where
  n : Int
  e : Int
  deriving DecidableEq, Repr

def pow2 (k : Int) : Nat := 2 ^ k.toNat
def Dy.ofVal : FVal → Dy
  | .fin s m e => ⟨if s then -(m : Int) else m, e⟩
  | _ => ⟨0, 0⟩
def Dy.int (n : Int) : Dy := ⟨n, 0⟩
def Dy.add (a b : Dy) : Dy :=
  if a.n = 0 then b else if b.n = 0 then a
  else
    let e := Min.min a.e b.e
    ⟨a.n * pow2 (a.e - e) + b.n * pow2 (b.e - e), e⟩
def Dy.neg (a : Dy) : Dy := ⟨-a.n, a.e⟩
def Dy.sub (a b : Dy) : Dy := a.add b.neg
def Dy.mul (a b : Dy) : Dy := ⟨a.n * b.n, a.e + b.e⟩
def Dy.lt (a b : Dy) : Bool := decide ((a.sub b).n < 0)
def Dy.le (a b : Dy) : Bool := decide ((a.sub b).n ≤ 0)
def Dy.eq (a b : Dy) : Bool := decide ((a.sub b).n = 0)
/-- The magnitude as a fraction of natural numbers. -/
def Dy.num (a : Dy) : Nat := a.n.natAbs * pow2 a.e
def Dy.den (a : Dy) : Nat := pow2 (-a.e)

/-! ### Flags of R241 and the mode register, R237 -/

def flIV : Nat := 1
def flDZ : Nat := 2
def flOF : Nat := 4
def flUF : Nat := 8
def flNX : Nat := 16
def flID : Nat := 32

/-- A result and the status bits it raises. -/
structure FRes where
  val : Nat
  fl : Nat := 0
  deriving DecidableEq, Repr

/-- What an operation takes from its group and thread: `%fmode`, the mode in use, the seed, and the thread's part of the
stochastic index (R236). -/
structure FEnv where
  fmode : Word
  rm : Nat
  seed : Word
  idx : Nat
  deriving DecidableEq, Repr

def FEnv.fz (e : FEnv) (t : FTy) : Bool := bit e.fmode.toNat t.fzBit
def FEnv.nanc (e : FEnv) : Bool := bit e.fmode.toNat 19
def FEnv.sat (e : FEnv) : Bool := bit e.fmode.toNat 18

/-- A write of `%fmode`, R237. -/
def writeFmode (x : Word) : Word :=
  let rm := bits x.toNat 2 0
  (x &&& 0xFE000#32) ||| BitVec.ofNat 32 (if rm = 0 ∨ rm = 7 then 1 else rm)

/-- R236. -/
def srHash (seed : Word) (idx : Nat) : Nat :=
  let step (h : Word) (w : Word) : Word :=
    let h := (h ^^^ w) * 0x85EBCA6B#32
    let h := h ^^^ (h >>> 13)
    let h := h * 0xC2B2AE35#32
    h ^^^ (h >>> 16)
  (step (step (seed ^^^ 0x9E3779B9#32) (BitVec.ofNat 32 idx)) (BitVec.ofNat 32 (idx / 2 ^ 32))).toNat

/-! ### Rounding, R235 -/

/-- The choice between a and a + 1, where the value lies a fraction rem ÷ den above a, R235 and R236. -/
def roundsUp (mode : Nat) (neg : Bool) (a rem den r : Nat) : Bool :=
  match mode with
  | 2 => false
  | 3 => decide (rem ≠ 0) && !neg
  | 4 => decide (rem ≠ 0) && neg
  | 5 => decide (den ≤ 2 * rem)
  | 6 => decide (r * den < rem * 2 ^ 32)
  | _ => decide (den < 2 * rem) || (decide (2 * rem = den) && a % 2 == 1)

/-- The binary exponent of p ÷ q > 0. -/
def fracLog2 (p q : Nat) : Int :=
  let k : Int := (Nat.log2 p : Int) - Nat.log2 q
  if q * pow2 k ≤ p * pow2 (-k) then k else k - 1

/-- p ÷ q in units of 2^u: the floor, the remainder and its denominator. -/
def quantum (p q : Nat) (u : Int) : Nat × Nat × Nat :=
  let n := p * pow2 (-u)
  let d := q * pow2 u
  (n / d, n % d, d)

/-- A magnitude above the largest finite value, by mode and sign (R235); `sat` as R240. The NaN of a format without infinity
keeps the sign.
DESIGN CHOICE: log 30. -/
def Fmt.overflow (f : Fmt) (mode : Nat) (s sat : Bool) : Nat :=
  let toInf := match mode with | 2 => false | 3 => !s | 4 => s | _ => true
  f.signBits s + (if sat || !toInf then f.maxBits
    else match f.sp with | .ieee => f.infBits | .nanOnly => f.nanBits | .none => f.maxBits)

/-- `round()` of the positive number p ÷ q with a sign, to a format under a mode, with the bits NX, UF and OF of R241. A number above
max finite that the format's extended exponent range holds is its own neighbour (R235).
DESIGN CHOICE: log 93. -/
def Fmt.roundFrac (f : Fmt) (mode r : Nat) (sat s : Bool) (p q : Nat) : FRes :=
  let ex := fracLog2 p q
  let u := (if ex < f.emin then f.emin else ex) - f.mb
  let (a, rem, den) := quantum p q u
  let k := if roundsUp mode s a rem den r then a + 1 else a
  let mag := (u - (f.emin - f.mb)).toNat * 2 ^ f.mb + k
  if f.maxBits < mag then ⟨f.overflow mode s sat, flOF + flNX⟩
  else if rem = 0 then ⟨f.signBits s + mag, 0⟩
  else
    let tiny :=
      if ex < f.emin then
        let (a', rem', den') := quantum p q (ex - f.mb)
        let k' := if roundsUp mode s a' rem' den' r then a' + 1 else a'
        decide (ex + 1 < f.emin) || decide (k' < 2 ^ (f.mb + 1))
      else false
    ⟨f.signBits s + mag, flNX + (if tiny then flUF else 0)⟩

/-- `round()` of an exact number, zero with the sign given. -/
def Fmt.roundDy (f : Fmt) (mode r : Nat) (zeroNeg : Bool) (x : Dy) : FRes :=
  if x.n = 0 then ⟨f.signBits zeroNeg, 0⟩ else f.roundFrac mode r false (decide (x.n < 0)) x.num x.den

/-- R237: with NANC set, a NaN of a format whose only special values are NaNs is the canonical one. -/
def FEnv.canon (e : FEnv) (f : Fmt) (r : FRes) : FRes :=
  if e.nanc ∧ f.sp = .nanOnly ∧ r.val = f.signBits true + f.nanBits then { r with val := f.nanBits } else r

/-- A result of an operation that reads `%fmode`: flushed under R238, else rounded under the mode in use. `j` is the
element's position in its register (R236). -/
def FEnv.finish (e : FEnv) (t : FTy) (j : Nat) (s : Bool) (p q : Nat) (sat : Bool := false) : FRes :=
  let f := t.fmt
  if p = 0 then ⟨f.signBits s, 0⟩
  else if e.fz t && decide (fracLog2 p q < f.emin) then ⟨f.signBits s, flUF + flNX⟩
  else e.canon f (f.roundFrac e.rm (if e.rm = 6 then srHash e.seed (e.idx + j) else 0) sat s p q)
def FEnv.finishDy (e : FEnv) (t : FTy) (j : Nat) (zeroNeg : Bool) (x : Dy) : FRes :=
  if x.n = 0 then ⟨t.fmt.signBits zeroNeg, 0⟩ else e.finish t j (decide (x.n < 0)) x.num x.den

/-! ### Operands and NaNs, R230, R238, R239 -/

/-- An operand as an operation takes it: a signalling NaN raises IV, a subnormal is flushed where FZ asks and raises
ID. -/
def FEnv.operand (e : FEnv) (t : FTy) (x : Nat) : FVal × Nat :=
  match t.fmt.decode x with
  | .fin s m ex =>
    if e.fz t && decide (m ≠ 0) && decide (m < 2 ^ t.fmt.mb) then (.fin s 0 ex, flID) else (.fin s m ex, 0)
  | v => (v, if t.signalling v then flIV else 0)

/-- The NaN result of an operation in one format, R239: the first NaN operand quieted, or the canonical NaN.
DEDUCED: log 30. -/
def FEnv.nanOf (e : FEnv) (t : FTy) (vs : List FVal) : Nat :=
  if e.nanc then t.fmt.nanBits
  else match vs.find? FVal.isNan with
    | some (.nan s man) =>
      t.fmt.signBits s + t.fmt.infBits + (if bit man (t.fmt.mb - 1) then man else man + 2 ^ (t.fmt.mb - 1))
    | _ => t.fmt.nanBits
def invalid (t : FTy) (fl : Nat) : FRes := ⟨t.fmt.nanBits, fl ||| flIV⟩

/-! ### Conversions between formats, R239, R240 -/

/-- One element converted, R306: quiet-bit and payload rules for NaNs (the NaN of e4m3 has no payload), infinities by R240, one
rounding.
DEDUCED: log 30. -/
def FEnv.convert (e : FEnv) (to_ from_ : FTy) (j : Nat) (x : Nat) : FRes :=
  let (v, fl) := e.operand from_ x
  let f := to_.fmt
  match v with
  | .nan s man =>
    match f.sp with
    | .none => ⟨0, fl ||| flIV⟩
    | .nanOnly => ⟨if e.nanc then f.nanBits else f.signBits s + f.nanBits, fl⟩
    | .ieee =>
      if e.nanc then ⟨f.nanBits, fl⟩
      else
        let src := from_.fmt
        let payload := if src.sp = .nanOnly then 0 else if f.mb ≤ src.mb then man / 2 ^ (src.mb - f.mb) else man * 2 ^ (f.mb - src.mb)
        ⟨f.signBits s + f.infBits + (payload % 2 ^ (f.mb - 1)) + 2 ^ (f.mb - 1), fl⟩
  | .inf s =>
    if f.sp = .ieee ∧ !e.sat then ⟨f.signBits s + f.infBits, fl⟩
    else if f.sp = .nanOnly ∧ !e.sat then e.canon f ⟨f.signBits s + f.nanBits, fl ||| flIV⟩
    else ⟨f.signBits s + f.maxBits, fl ||| flIV⟩
  | .fin s m ex =>
    let d : Dy := ⟨m, ex⟩
    let r := e.finish to_ j s d.num d.den e.sat
    ⟨r.val, r.fl ||| fl⟩

/-! ### The chunked sum, R243 -/

/-- A product of two elements with their scales, as `chunk_sum` classifies it. -/
def prodOf (x y : FVal) : FVal :=
  let s := x.neg? != y.neg?
  match x, y with
  | .nan _ _, _ => .nan false 0
  | _, .nan _ _ => .nan false 0
  | .inf _, b => if b.isZero then .nan false 0 else .inf s
  | a, .inf _ => if a.isZero then .nan false 0 else .inf s
  | .fin _ m e, .fin _ n k => .fin s (m * n) (e + k)

/-- The value of a scaled element, R231. -/
def scaled (v : FVal) (scale : Nat) : FVal :=
  if scale = 0xFF then .nan false 0
  else match v with
    | .fin s m e => .fin s m (e + (scale : Int) - 127)
    | v => v

/-- IEEE addition to nearest in FP32, with canonical NaNs and no flush (R243). -/
def add32 (a b : Nat) : Nat :=
  let f := FTy.f32.fmt
  match f.decode a, f.decode b with
  | .nan _ _, _ => f.nanBits
  | _, .nan _ _ => f.nanBits
  | .inf s, .inf s' => if s = s' then a else f.nanBits
  | .inf _, _ => a
  | _, .inf _ => b
  | x, y =>
    let z := x.isZero && y.isZero && x.neg? && y.neg?
    (f.roundDy 1 0 z ((Dy.ofVal x).add (Dy.ofVal y))).val

/-- The chunk result s of R243 for the products of one chunk. -/
def chunkOf (ps : List FVal) : Nat :=
  let f := FTy.f32.fmt
  let pos := ps.any fun p => p.isInf && !p.neg?
  let neg := ps.any fun p => p.isInf && p.neg?
  if ps.any FVal.isNan || (pos && neg) then f.nanBits
  else if pos then f.infBits
  else if neg then f.signBits true + f.infBits
  else (f.roundDy 1 0 (ps.all fun p => p.isZero && p.neg?) (ps.foldl (fun a p => a.add (Dy.ofVal p)) ⟨0, 0⟩)).val

/-- `chunk_sum`: chunks of 64 products, ascending, added to the start. -/
def chunkSum (c : Nat) : Nat → List FVal → Nat
  | 0, _ => c
  | fuel + 1, ps => if ps.isEmpty then c else chunkSum (add32 c (chunkOf (ps.take 64))) fuel (ps.drop 64)
def chunkSumAll (c : Nat) (ps : List FVal) : Nat := chunkSum c (ps.length / 64 + 1) ps

end Machine
end Sys2Proof
end

