-- ==== Sys2Proof/Machine/Place.lean ====
section
/-!
DEFINITION. Placement: the fields of a launch record (R204, R205), what a team needs and what a core has free (R212,
R213), the deterministic order (R215, R216), binding groups to pipelines and slots, wellheads and the groups they form
(R219 to R222), and what happens when groups leave and grid barriers open (R172, R225).
-/
namespace Sys2Proof.Machine

/-! ### The launch record, R204, R205 -/

abbrev LRec := List Word

def LRec.w (r : LRec) (off : Nat) : Nat := (r.getD (off / 4) 0).toNat
def LRec.d (r : LRec) (off : Nat) : Nat := r.w off + r.w (off + 4) * 2 ^ 32
def LRec.det (r : LRec) : Bool := bit (r.w 0) 31
def LRec.extCode (r : LRec) : Nat := bits (r.w 0) 30 29
/-- Team extent E. -/
def LRec.ext (r : LRec) : Nat := 2 ^ r.extCode
def LRec.nrole (r : LRec) : Nat := bits (r.w 0) 28 27 + 1
def LRec.npre (r : LRec) : Nat := bits (r.w 0) 26 24
def LRec.spsize (r : LRec) : Nat := bits (r.w 4) 10 0
def LRec.gx (r : LRec) : Nat := r.w 8
def LRec.gy (r : LRec) : Nat := r.w 0xC
def LRec.gz (r : LRec) : Nat := r.w 0x10
def LRec.cx (r : LRec) : Nat := bits (r.w 0x14) 15 0
def LRec.cy (r : LRec) : Nat := bits (r.w 0x14) 31 16
def LRec.tiles (r : LRec) : Nat := bits (r.w 0x18) 6 0
def LRec.barbase (r : LRec) : Nat := bits (r.w 0x1C) 23 0
def LRec.mentry (r : LRec) : Nat := r.d 0x20
def LRec.mlen (r : LRec) : Nat := bits (r.w 0x28) 8 0
def LRec.redtab (r : LRec) : Nat := r.d 0x30
def LRec.compl (r : LRec) : Nat := r.d 0x40
def LRec.complv (r : LRec) : Nat := r.d 0x48
def LRec.prog (r : LRec) : Nat := r.d 0x90
def LRec.rdesc (r : LRec) : Nat := r.d 0x98
/-- Role descriptor r. -/
def LRec.role (r : LRec) (k : Nat) : Role :=
  let o := 0xA0 + 24 * k
  { entry := BitVec.ofNat 64 (r.d o), cont := BitVec.ofNat 64 (r.d (o + 8)), g := bits (r.w (o + 0x10)) 31 24,
    b := 8 * bits (r.w (o + 0x10)) 23 16, task := bit (r.w (o + 0x10)) 15,
    k := 8 * bits (r.w (o + 0x14)) 31 16, d := bits (r.w (o + 0x14)) 15 0 }
def LRec.roles (r : LRec) : List Role := (List.range r.nrole).map r.role
/-- Teams of the grid. -/
def LRec.teams (r : LRec) : Nat := r.gx * r.gy * r.gz
/-- Whether some role has a continuation, R226. -/
def LRec.hasCont (r : LRec) : Bool := r.roles.any fun x => x.cont != 0

/-! ### Resources, R213 -/

/-- Groups of each role in the order of R169: the role of every group index. -/
def roleIndices (roles : List Role) : List Nat :=
  (roles.zipIdx.map fun e => List.replicate e.1.g e.2).flatten
/-- The role of a group index. -/
def roleAt (roles : List Role) (i : Nat) : Nat := (roleIndices roles).getD i 0
/-- Group indices of one quarter. -/
def indicesOn (roles : List Role) (e q : Nat) : List Nat :=
  (List.range (roleIndices roles).length).filter fun i => i % e == q

structure Need where
  slots : Nat
  regs : Nat
  spad : Nat
  tiles : Nat
  streams : Nat
  deriving DecidableEq, Repr

def Need.add (a b : Need) : Need := ⟨a.slots + b.slots, a.regs + b.regs, a.spad + b.spad, a.tiles + b.tiles, a.streams + b.streams⟩
def Need.zero : Need := ⟨0, 0, 0, 0, 0⟩
/-- What a core has, R49, R50, R57, R167, R199. -/
def Need.ok (n : Need) : Bool :=
  decide (n.slots ≤ Config.groupSlots) && decide (n.regs ≤ Config.registerFile) && decide (n.spad ≤ Config.scratchpad)
    && decide (n.tiles ≤ Config.tilesPerCore) && decide (n.streams ≤ Config.streamSlots)

/-- What a team needs on quarter q. -/
def needOn (roles : List Role) (e spBytes tiles : Nat) (stream : Bool) (q : Nat) : Need :=
  let rs := (indicesOn roles e q).map fun i => roles.getD (roleAt roles i) ⟨0, 0, 0, 0, false, 0, 0⟩
  { slots := rs.length
    regs := rs.foldl (fun a r => a + roundUp (32 * r.b) 256) 0
    spad := roundUp (spBytes + rs.foldl (fun a r => a + 32 * (4 * r.k + 16 * r.d)) 0) 4096
    tiles := if q = 0 then tiles else 0
    streams := if q = 0 ∧ stream then 1 else 0 }

def Team.needOn (t : Team) (q : Nat) : Need :=
  Machine.needOn t.roles t.cores.length t.spsize t.tiles t.stream.isSome q

/-- What the teams on a core hold. -/
def usedOn (teams : List Team) (core : Nat) : Need :=
  teams.foldl (fun a t =>
    match t.cores.idxOf? core with
    | some q => a.add (t.needOn q)
    | none => a) Need.zero

/-- Enabled cores of a die that are not halted, R212, R450. -/
def State.coreOn (s : State) (core : Nat) : Bool :=
  let d := s.dieAt (s.physDie (dieOf core))
  decide (dieOf core < s.dieCount) && bit d.en.toNat (coreOf core) && !bit d.halt.toNat (coreOf core)

/-- R447: no team is placed once a pair of dies has lost every module.
DEDUCED: log 26. -/
def State.mayPlace (s : State) : Bool :=
  s.stage == .stage2 && !(s.ucie.any fun e => e.2.2.all (!·))

/-- The units of a die for an extent, in ascending order of their quarter-0 core, R212. -/
def State.unitsOf (s : State) (die e : Nat) : List (List Nat) :=
  ((List.range 48).filter fun c => c % e == 0).filterMap fun c =>
    let u := (List.range e).map fun i => 48 * die + c + i
    if u.all s.coreOn then some u else none

/-- Free group slots of the cores of a unit, or of a die. -/
def freeSlots (teams : List Team) (cores : List Nat) : Nat :=
  cores.foldl (fun a c => a + (Config.groupSlots - (usedOn teams c).slots)) 0
def State.dieFree (s : State) (teams : List Team) (die : Nat) : Nat :=
  freeSlots teams (((List.range 48).map fun c => 48 * die + c).filter s.coreOn)

/-- The first element with the greatest value. -/
def argMax {α : Type} (f : α → Nat) : List α → Option α
  | [] => none
  | x :: xs => match argMax f xs with
    | none => some x
    | some y => if f x < f y then some y else some x

/-- The unit of a die that fits with the most free slots, the lowest on ties. -/
def State.unitIn (s : State) (teams : List Team) (need : Nat → Need) (e die : Nat) : Option (List Nat) :=
  argMax (freeSlots teams) ((s.unitsOf die e).filter fun u =>
    u.zipIdx.all fun c => ((usedOn teams c.1).add (need c.2)).ok)

/-- Dies in descending order of free group slots, the lowest first on ties, R213. -/
def State.dieOrder (s : State) (teams : List Team) : List Nat :=
  (List.range s.dieCount) |> sortBy fun a b =>
    let x := s.dieFree teams a
    let y := s.dieFree teams b
    decide (y < x) || (x == y && decide (a ≤ b))

/-- The unit that R213 chooses for a team, if one fits. -/
def State.unitFor (s : State) (teams : List Team) (need : Nat → Need) (e : Nat) : Option (List Nat) :=
  (s.dieOrder teams).findSome? (s.unitIn teams need e)

/-! ### Binding groups to pipelines and slots, R213 -/

/-- The pipeline of a core with the fewest groups, and its lowest free slot. -/
def pickSlot (used : List Nat) : Nat :=
  let count (p : Nat) : Nat := (used.filter fun k => k / 4 == p).length
  let p := (argMax (fun p => 4 - count p) (List.range Config.pipelines)).getD 0
  ((List.range 4).map fun j => 4 * p + j).find? (fun k => !used.contains k) |>.getD (4 * p)

def bindSlots (core : Nat) : List Nat → List Nat → List (Nat × Nat × Nat)
  | _, [] => []
  | used, i :: is => let k := pickSlot used; (core, k, i) :: bindSlots core (k :: used) is

/-- Slots reserved on a core. -/
def usedSlots (teams : List Team) (core : Nat) : List Nat :=
  (teams.map fun t => (t.slots.filter fun e => e.1 == core).map fun e => e.2.1).flatten

/-- The slots of every group of a team on its unit. -/
def bindTeam (teams : List Team) (roles : List Role) (unit : List Nat) : List (Nat × Nat × Nat) :=
  (unit.zipIdx.map fun c => bindSlots c.1 (usedSlots teams c.1) (indicesOn roles unit.length c.2)).flatten

/-- A thread at placement, R191, R171. -/
def Lane.start (entry : DWord) (b : Nat) : Lane := { st := .ready, pc := entry, f := b }

/-- The groups launched with a team: those of every role that is not a task role (R169, R205). -/
def Team.launchGroups (t : Team) : List Group :=
  t.slots.filterMap fun e =>
    let r := roleAt t.roles e.2.2
    let d := t.roles.getD r ⟨0, 0, 0, 0, false, 0, 0⟩
    if d.task then none
    else some { core := e.1, slot := e.2.1, ctx := t.ctx, team := t.id, role := r, index := e.2.2,
                lanes := List.replicate 32 (Lane.start d.entry d.b) }

/-- R59: the instruction caches of the cores on which this is the first team of a launch are invalidated. -/
def State.dropCode (s : State) (launch : Nat) (unit : List Nat) : State :=
  let seen := match s.launch? launch with | some l => l.seen | none => []
  let new := unit.filter fun c => !seen.contains c
  { s.updLaunch launch fun l => { l with seen := l.seen ++ new } with lines := s.lines.filter fun l => !new.contains l.core }

/-- A team of a launch placed on a unit, R213: its resources are reserved, its groups are resident, its stream's fetch
begins. Its threads come after what its launch comes after (R131): L1 is not consulted for what they read (R60). -/
def State.placeTeam (s : State) (l : Launch) (no logical : Nat) (unit : List Nat) : State :=
  let (id, s) := s.fresh
  let r := l.record
  let t : Team := {
    id, ctx := l.ctx, launch := l.id, no, cores := unit, logical, spsize := 4096 * LRec.spsize r, tiles := LRec.tiles r
    barbase := LRec.barbase r, roles := LRec.roles r, slots := bindTeam s.teams (LRec.roles r) unit, det := LRec.det r
    stream := if LRec.mentry r = 0 then none
              else some { entry := BitVec.ofNat 64 (LRec.mentry r), len := LRec.mlen r } }
  { (unit.foldl State.acquire (s.dropCode l.id unit)) with teams := s.teams ++ [t], groups := s.groups ++ t.launchGroups }

def LRec.need (r : LRec) (q : Nat) : Need :=
  needOn r.roles r.ext (4096 * r.spsize) r.tiles (r.mentry != 0) q

/-! ### Deterministic order, R215, R216 -/

/-- `hd()`, the place of a point on the curve: fuel counts the halvings of s. -/
def hdGo (n : Nat) : Nat → Nat → Nat → Nat → Nat → Nat
  | 0, _, _, _, d => d
  | fuel + 1, s, x, y, d =>
    if s = 0 then d
    else
      let rx := if x &&& s > 0 then 1 else 0
      let ry := if y &&& s > 0 then 1 else 0
      let d := d + s * s * ((3 * rx) ^^^ ry)
      if ry = 0 then
        (if rx = 1 then hdGo n fuel (s / 2) (n - 1 - y) (n - 1 - x) d else hdGo n fuel (s / 2) y x d)
      else hdGo n fuel (s / 2) x y d
def hd (n x y : Nat) : Nat := hdGo n 64 (n / 2) x y 0

def LRec.cw (r : LRec) : Nat := r.gx / r.cx
def LRec.ch (r : LRec) : Nat := r.gy * r.gz / r.cy
def LRec.clusters (r : LRec) : Nat := r.cw * r.ch
/-- The least power of two at or above a number. -/
def powerAbove (n : Nat) : Nat := if n ≤ 1 then 1 else 2 ^ (Nat.log2 (n - 1) + 1)
/-- Clusters (cx, cy) in rank order. -/
def LRec.ranked (r : LRec) : List (Nat × Nat) :=
  let n := powerAbove (Nat.max r.cw r.ch)
  let cs := (List.range r.clusters).map fun i => (i % r.cw, i / r.cw)
  cs |> sortBy fun a b => decide (hd n a.2 a.1 ≤ hd n b.2 b.1)
/-- The `%team` numbers of a cluster, by position, R215. -/
def LRec.clusterTeams (r : LRec) (c : Nat × Nat) : List Nat :=
  (List.range (r.cx * r.cy)).map fun p => (c.1 * r.cx + p % r.cx) + r.gx * (c.2 * r.cy + p / r.cx)
/-- The rank of the cluster that holds a team. -/
def LRec.rankOf (r : LRec) (team : Nat) : Nat :=
  r.ranked.findIdx fun c => (r.clusterTeams c).contains team
/-- L of R214. -/
def LRec.clusterCores (r : LRec) : Nat := r.cx * r.cy * r.ext

/-- R216: the unit of a team of the cluster of rank k: die f if it fits there, else the die with the most free slots
that holds a fitting unit. -/
def State.unitDet (s : State) (teams : List Team) (r : LRec) (rank : Nat) : Option (List Nat) :=
  let f := rank * s.dieCount / r.clusters
  match s.unitIn teams r.need r.ext f with
  | some u => some u
  | none => s.unitFor teams r.need r.ext

/-- Teams placed one after another, all or none: (number, logical core, first die's rank if deterministic). -/
def State.placeAll (s : State) (l : Launch) : List (Nat × Nat × Option Nat) → Option State
  | [] => some s
  | (no, logical, rank) :: rest =>
    let u := match rank with
      | some k => s.unitDet s.teams l.record k
      | none => s.unitFor s.teams (LRec.need l.record) (LRec.ext l.record)
    match u with
    | none => none
    | some unit => (s.placeTeam l no logical unit).placeAll l rest

/-- Every team of a launch has been placed: all teams, or all clusters of a deterministic launch. -/
def Launch.allPlaced (l : Launch) : Bool :=
  decide ((if LRec.det l.record then LRec.clusters l.record else LRec.teams l.record) ≤ l.placed)

/-- The teams of the cluster of a rank, with their logical cores, R216. -/
def LRec.clusterPlan (r : LRec) (rank : Nat) : List (Nat × Nat × Option Nat) :=
  (r.clusterTeams (r.ranked.getD rank (0, 0))).zipIdx.map fun e =>
    (e.1, (rank * r.clusterCores + e.2 * r.ext) % 256, some rank)

/-! ### Wellheads, R219 to R222 -/

def Task.sameKey (a b : Task) : Bool :=
  a.team == b.team && a.quarter == b.quarter && a.role == b.role && a.entry == b.entry

def State.wellCount (s : State) (core : Nat) : Nat := (s.wells.filter fun w => w.1 == core).length
/-- The core of a team's quarter. -/
def Team.coreAt (t : Team) (q : Nat) : Nat := t.cores.getD q 0

/-- The lowest free group index of a task role on a quarter, with its reserved slot, R222. -/
def State.freeIndex (s : State) (t : Team) (role quarter : Nat) : Option (Nat × Nat × Nat) :=
  let c := t.coreAt quarter
  argMax (fun e => 256 - e.2.2) (t.slots.filter fun e =>
    e.1 == c && roleAt t.roles e.2.2 == role && (s.group? e.1 e.2.1).isNone)

/-- A thread at task entry, R191, R222. `seq` is the number of `red.ord` contributions that its `%tid` has made (R96). -/
def Lane.ofTask (entry : DWord) (b seq : Nat) (k : Task) : Lane :=
  { st := .ready, pc := entry, f := b, grid := k.grid, slots := Store.setAll [] 0 k.args, seq }

/-- R96: the contributions that lane `l` of a team's group index has made in groups that have left. -/
def Team.seqOf (t : Team) (idx l : Nat) : Nat := ((t.seqs.find? fun e => e.1 == 32 * idx + l).map (·.2)).getD 0

/-- R96: what the threads of a group that leaves have contributed stays with the team. -/
def Team.keepSeqs (g : Group) (t : Team) : Team :=
  { t with seqs := (g.lanes.zipIdx.filterMap fun e => if e.1.seq = 0 then none else some (32 * g.index + e.2, e.1.seq))
                     ++ t.seqs.filter fun e => e.1 / 32 != g.index }

/-- R222: a group formed from the oldest records of a key, up to 32 of them. -/
def State.formGroup (s : State) (core : Nat) (k : Task) : State :=
  match s.team? k.team with
  | none => s
  | some t =>
    if (s.ctxAt t.ctx).saving then s
    else match s.freeIndex t k.role k.quarter with
    | none => s
    | some (c, slot, idx) =>
      let mine := s.wells.filter fun w => w.1 == core && w.2.sameKey k
      let take := (mine.map (·.2)).take 32
      let b := (t.roles.getD k.role ⟨0, 0, 0, 0, false, 0, 0⟩).b
      let lanes := take.zipIdx.map fun e => Lane.ofTask k.entry b (t.seqOf idx e.2) e.1
      let vacant : List Lane := (List.range (32 - lanes.length)).map fun j => { seq := t.seqOf idx (lanes.length + j) }
      let rest := (mine.drop 32)
      let s : State :=
        { s with
          wells := (s.wells.filter fun w => !(w.1 == core && w.2.sameKey k)) ++ rest
          groups := s.groups ++ [{ core := c, slot, ctx := t.ctx, team := t.id, role := k.role, index := idx,
                                   lanes := lanes ++ vacant, tasks := true }] }
      s.acquire c

/-- Records of a key in a wellhead. -/
def State.keyCount (s : State) (core : Nat) (k : Task) : Nat :=
  (s.wells.filter fun w => w.1 == core && w.2.sameKey k).length

/-- Groups formed for every key of a core that has 32 records, R222. -/
def State.formFull (s : State) (core : Nat) : State :=
  match s.wells.find? fun w => w.1 == core && decide (32 ≤ s.keyCount core w.2) with
  | some w => s.formGroup core w.2
  | none => s

/-- A record appended to a wellhead, where it enters at the core's present cycle. -/
def State.enterWell (s : State) (core : Nat) (k : Task) : State :=
  ({ s with wells := s.wells ++ [(core, { k with since := (s.coreAt core).clk.toNat })] }).formFull core

/-! ### Leaving and ending, R172, R211, R225 -/

def Lane.gone (t : Lane) : Bool := t.st == .exited || t.st == .vacant
def Group.idle (g : Group) : Bool := g.lanes.all Lane.gone && g.flags.all fun f => f == 0

def State.groupsOf (s : State) (team : Nat) : List Group := s.groups.filter fun g => g.team == team

/-- R225: a team has arrived at the grid barrier. -/
def State.arrived (s : State) (team : Nat) : Bool :=
  (s.groupsOf team).all fun g =>
    (g.lanes.all fun t => t.gone || (t.st == .heldWait && t.hold == .grid)) && g.flags.all fun f => f == 0

/-- The address and the meeting address by which meetings judge a thread: what the debug window has written takes effect when it
next issues (R425). -/
def Lane.judged (t : Lane) : DWord × DWord := t.due.getD (t.pc, t.meet)

/-- A held thread goes on at an address, or where the debug window has written that it shall (R425).
DEDUCED: log 51. -/
def Lane.goTo (pc : DWord) (t : Lane) : Lane :=
  if t.judged.1 ≠ t.pc then t else { t with pc, due := t.due.map fun d => (pc, d.2) }

/-- Arrival at a meeting, R185: a thread whose address has become its meeting address is held there; one with no meeting address
never is (R184). -/
def Lane.arrive (t : Lane) : Lane :=
  if t.st = .ready ∧ t.pc = t.meet ∧ t.meet ≠ BitVec.allOnes 64 then { t with st := .heldMeet } else t

/-- R225: when every team of the grid has arrived or ended, each held thread becomes Ready at its role's CONT (or where the debug
window has written, R425), and has acquired (R60). -/
def State.openGrid (s : State) (launch : Nat) : State :=
  match s.launch? launch with
  | none => s
  | some l =>
    let teams := s.teams.filter fun t => t.launch == launch
    let held (g : Group) : Bool := g.lanes.any fun t => t.st == .heldWait && t.hold == .grid
    if !l.allPlaced || s.saves.any (fun v => v.teams.any fun t => t.launch == launch)
        || !(teams.all fun t => s.arrived t.id) then s
    else
      let s := (s.groups.filter fun g => held g && teams.any fun t => t.id == g.team).foldl (fun s g => s.acquire g.core) s
      { s with groups := s.groups.map fun g =>
          match teams.find? fun t => t.id == g.team with
          | none => g
          | some t =>
            if held g then
              let cont := (t.roles.getD g.role ⟨0, 0, 0, 0, false, 0, 0⟩).cont
              { g with lanes := g.lanes.map fun x =>
                  if x.st = .heldWait ∧ x.hold = .grid then
                    Lane.arrive (Lane.goTo cont { x with st := .ready, hold := .none }) else x }
            else g }

/-- Whether a team has threads left: in its groups, or as tasks that may still enter a lane. -/
def State.hasThreads (s : State) (team : Nat) : Bool :=
  (s.groupsOf team).any (fun g => g.lanes.any fun t => !t.gone)
    || s.wells.any (fun w => w.2.team == team) || s.sumps.any (fun w => w.2.2.team == team)
    || s.saves.any fun v => v.tasks.any fun w => w.2.team == team

/-- R200: the stream of a team whose threads have all exited ends, without a trap. -/
def State.endStreams (s : State) : State :=
  { s with teams := s.teams.map fun t =>
      match t.stream with
      | none => t
      | some m => if m.st = .ended ∨ m.st = .stopped ∨ s.hasThreads t.id then t
                  else { t with stream := some { m with st := .ended } } }

/-- Whether a team of a launch is resident or saved. -/
def State.teamsLeft (s : State) (launch : Nat) : Bool :=
  s.teams.any (fun t => t.launch == launch) || s.saves.any fun v => v.teams.any fun t => t.launch == launch

/-- A save with those of its teams of which `p` holds. -/
def Saved.only (p : Nat → Bool) (v : Saved) : Saved :=
  { v with
    teams := v.teams.filter fun t => p t.id
    groups := v.groups.filter fun g => p g.team
    copies := v.copies.filter fun c => p c.team
    tasks := v.tasks.filter fun w => p w.2.team
    held := v.held.filter fun h => !(v.groups.any fun g => !p g.team && g.isAt h.core h.slot) }

/-- A save without some teams. -/
def Saved.without (ids : List Nat) (v : Saved) : Saved := v.only fun id => !ids.contains id

/-- The teams of a launch stopped and released, with everything that is theirs, saved teams and held records among them, R211;
where the record shown goes, the next is shown (R422).
DESIGN CHOICE: log 71. -/
def State.dropTeams (s : State) (ids : List Nat) : State :=
  let slots := (s.groups.filter fun g => ids.contains g.team).map fun g => (g.core, g.slot)
  let mine (h : HeldTrap) : Bool := slots.contains (h.core, h.slot)
  let shown := (List.range s.ctx.length).filter fun n => (s.ctxAt n).held.head?.any mine
  let s : State := { s with
    saves := s.saves.map (Saved.without ids)
    images := s.images.map (Saved.without ids)
    groups := s.groups.filter fun g => !ids.contains g.team
    teams := s.teams.filter fun t => !ids.contains t.id
    wells := s.wells.filter fun w => !ids.contains w.2.team
    sumps := s.sumps.filter fun w => !ids.contains w.2.2.team
    copies := s.copies.filter fun c => !ids.contains c.team
    windows := s.windows.map fun w => { w with rows := w.rows.filter fun r => !slots.contains (w.core, r.slot) }
    requests := s.requests.filter fun r => !slots.contains (r.core, r.row.slot)
    issues := s.issues.filter fun i => !slots.contains (i.core, i.slot)
    misses := leaveWalks (fun m x => slots.contains (m.core, x.1)) s.misses
    cores := unmapped slots s.cores
    ctx := s.ctx.map fun c => { c with held := c.held.filter fun h => !mine h } }
  (slots.map (·.1)).eraseDups.foldl State.showOthers (shown.foldl State.showHeld s)

def State.dropLaunch (s : State) (id : Nat) : State :=
  let s := s.dropTeams (((s.teams ++ (s.saves.map (·.teams)).flatten).filter fun t => t.launch == id).map (·.id))
  { s with launches := s.launches.filter fun l => l.id != id }

/-- The contributions of a launch have been written to its ranges (R100). -/
def Launch.wrote (l : Launch) : Bool := l.committed && !l.contrib.isEmpty

/-- CANCEL of a queue, R211. A launch whose contributions have been written goes on to retire, since a launch that ends otherwise
commits nothing (R101). While LOG2N is invalid HEAD takes all 16 bits of TAIL.
DESIGN CHOICE: log 68. DESIGN CHOICE: log 87. -/
def State.cancelQueue (s : State) (n q : Nat) : State :=
  let ids := (s.launches.filter fun l => l.ctx == n && l.queue == q && !l.wrote).map (·.id)
  let s := ids.foldl State.dropLaunch s
  s.updCtx n fun c => { c with lq := updAt c.lq q fun x =>
    { x with head := x.tail.toNat % 2 ^ x.logN.getD 16, taking := .none, waitOn := none } }

end Sys2Proof.Machine
end

