-- ==== Sys2Proof/Machine/Control.lean ====
section
/-!
DEFINITION. Transfers of control, the register window, the ends of threads, tasks entering lanes, and the special
registers (R274 to R277, R284 to R293).
-/
namespace Sys2Proof.Machine

/-! ### No operation, branches and meetings, R286, R287 -/

def execNopBase (s : State) : Out := done (perClass (fun s => .ok s none) s)
def execNop (s : State) : Out := done (perClass (fun s => .ok s none) s)

/-- A branch on a 32-bit source, once for the class where the source is uniform (R273). -/
def branchIf (i : Instr) (a : Src) (taken : Word → Bool) (disp : DWord) (s : State) : State :=
  match a with
  | .v _ => perLane i (fun l s => .ok s (if taken (s.reg l a 0) then some (s.label disp) else none)) s
  | _ => uniformly i (fun s => if taken (s.reg s.lead a 0) then s.jumpAll (s.label disp) else s.advance) s

/-- An indirect branch. -/
def branchTo (i : Instr) (a : Src) (s : State) : State :=
  match a with
  | .v _ => perLane i (fun l s => .ok s (some (s.pair l a))) s
  | _ => uniformly i (fun s => s.jumpAll (s.pair s.lead a)) s

def execBraBase (disp : DWord) (s : State) : Out := done (s.jumpAll (s.label disp))
def execBra (disp : DWord) (s : State) : Out := done (s.jumpAll (s.label disp))
def execBnzBase (a : Src) (disp : DWord) (s : State) : Out := done (branchIf (.bnzBase a disp) a (· != 0) disp s)
def execBnz (a : Src) (disp : DWord) (s : State) : Out := done (branchIf (.bnz a disp) a (· != 0) disp s)
def execBzBase (a : Src) (disp : DWord) (s : State) : Out := done (branchIf (.bzBase a disp) a (· == 0) disp s)
def execBz (a : Src) (disp : DWord) (s : State) : Out := done (branchIf (.bz a disp) a (· == 0) disp s)
def execBrxBase (a : Src) (s : State) : Out := done (branchTo (.brxBase a) a s)
def execBrx (a : Src) (s : State) : Out := done (branchTo (.brx a) a s)

/-- R287: the label written to `%meet`, at once. -/
def meetAt (i : Instr) (disp : DWord) (s : State) : State :=
  perLane i (fun l s => .ok (s.updLane l fun t => { t with meet := s.label disp }) none) s
def execMeetBase (disp : DWord) (s : State) : Out := done (meetAt (.meetBase disp) disp s)
def execMeet (disp : DWord) (s : State) : Out := done (meetAt (.meet disp) disp s)

/-! ### The register window, R288 to R290 -/

/-- R288, R192: the effect of a call with an advance of `n` registers. -/
def Lane.call (t : Lane) (n : Nat) (next : DWord) : Lane :=
  { t with ret := ⟨next, n, t.f⟩ :: t.ret, wb := t.wb + n, f := t.f - n }

def callTo (i : Instr) (n : Nat) (target : State → Nat → DWord) (s : State) : State :=
  perLane i (fun l s =>
    let t := s.lane l
    if t.f < n then .trap { cause := .regOutOfFrame }
    else if Config.returnEntries + s.role.d ≤ t.ret.length then .trap { cause := .stackOverflow }
    else .ok (s.updLane l fun t => t.call n s.cur.next) (some (target s l))) s

def execCall (adv : Nat) (disp : DWord) (s : State) : Out :=
  done (callTo (.call adv disp) (8 * adv) (fun s _ => s.label disp) s)
def execCalli (a : Src) (adv : Nat) (s : State) : Out :=
  done (callTo (.calli a adv) (8 * adv) (fun s l => s.pair l a) s)

/-- R289: the frame set to `n` registers; slots exposed above the old top read as 0. -/
def Lane.setFrame (t : Lane) (n : Nat) : Lane :=
  let top := t.wb + t.f
  let new := t.wb + n
  { t with f := n, slots := t.slots.zero top new, bad := t.bad.filter fun k => !(decide (top ≤ k) && decide (k < new)) }

/-- R289. A frame that lowers the top makes spilled slots resident: they are filled before it (R194).
DEDUCED: log 81. -/
def execFrame (n8 : Nat) (s : State) : Out :=
  done (perLane (.frame n8) (fun l s =>
    let t := s.lane l
    let r := s.role
    if r.b + r.k < t.wb + 8 * n8 then .trap { cause := .stackOverflow }
    else if decide (8 * n8 < t.f) && t.fillError r.b (t.wb + 8 * n8 - r.b) (t.wb + t.f) then .trap { cause := .memUncorrectable }
    else .ok (s.updLane l fun t => t.setFrame (8 * n8)) none) s)

/-- R290. The slots that become resident are filled before it, in blocks of 8 (R194). -/
def returnFrom (i : Instr) (s : State) : State :=
  perLane i (fun l s =>
    let t := s.lane l
    match t.ret with
    | [] => .trap { cause := .returnUnderflow }
    | e :: rest =>
      if t.fillError s.role.b (t.wb - e.adv + e.f - s.role.b) (t.wb + t.f) then .trap { cause := .memUncorrectable }
      else .ok (s.updLane l fun t => { t with ret := rest, wb := t.wb - e.adv, f := e.f }) (some e.addr)) s
def execRetBase (s : State) : Out := done (returnFrom .retBase s)
def execRet (s : State) : Out := done (returnFrom .ret s)

/-! ### The end of a thread, R291 -/

/-- R291: a thread ends. Its return stack and its backing area are discarded; a lane of a task group becomes Vacant. -/
def Lane.exit (t : Lane) (tasks : Bool) (b : Nat) : Lane :=
  { t with st := if tasks then .vacant else .exited, hold := .none, ret := [], mark := false, mid := none, grid := none,
           slots := t.slots.zero 0 (t.wb + t.f - b), bad := t.bad.filter fun k => !decide (k < t.wb + t.f - b) }

/-- R386: a task of a grid has left its lane. -/
def State.gridTaskLeft (s : State) (k : Option (Nat × Nat × Nat)) : State :=
  match k with
  | none => s
  | some (launch, patch, g) => s.updLaunch launch fun l =>
    { l with render := l.render.map fun r => { r with grids := r.grids.map fun x =>
        if x.patch = patch ∧ x.g = g then { x with open_ := x.open_ - 1 } else x } }

def State.exitLane (s : State) (core slot l : Nat) : State :=
  match s.group? core slot with
  | none => s
  | some g =>
    let b := match s.team? g.team with | some t => (t.roles.getD g.role ⟨0, 0, 0, 0, false, 0, 0⟩).b | none => 0
    (s.gridTaskLeft (g.lane l).grid).updGroup core slot fun h => h.updLane l fun t => t.exit g.tasks b

def exitAll (i : Instr) (s : State) : State :=
  perLane i (fun l s => .ok (s.exitLane s.cur.core s.cur.slot l) none) s
def execExitBase (s : State) : Out := done (exitAll .exitBase s)
def execExit (s : State) : Out := done (exitAll .exit s)

/-! ### Tasks entering lanes, R223, R292 -/

/-- The records of a wellhead that match a group and an entry, oldest first. -/
def State.matching (s : State) (g : Group) (entry : DWord) : List Task :=
  match s.team? g.team with
  | none => []
  | some t =>
    let q := (t.cores.idxOf? g.core).getD 0
    (s.wells.filter fun w => w.1 == g.core && w.2.team == g.team && w.2.quarter == q && w.2.role == g.role
        && w.2.entry == entry).map (·.2)

/-- The first `n` elements that satisfy a predicate removed. -/
def dropFirst {α : Type} (p : α → Bool) : Nat → List α → List α
  | _, [] => []
  | 0, xs => xs
  | n + 1, x :: xs => if p x then dropFirst p n xs else x :: dropFirst p (n + 1) xs

/-- R223: `n` tasks enter the Vacant lanes of the current group in ascending lane order. What an earlier task of such a
lane still had outstanding writes none of its registers.
DEDUCED: log 23. -/
def State.fillLanes (s : State) (g : Group) (entry : DWord) (n : Nat) : State :=
  let b := s.role.b
  let tasks := (s.matching g entry).take n
  let lanes := ((List.range 32).filter fun l => (g.lane l).st == .vacant).take n
  let fresh (ls : List Nat) (p : Pend) : Pend :=
    { p with lanes := p.lanes.filter fun l => !ls.contains l, writes := p.writes.filter fun w => !ls.contains w.1 }
  let q := match s.team? g.team with | some t => (t.cores.idxOf? g.core).getD 0 | none => 0
  let mine (w : Nat × Task) : Bool :=
    w.1 == g.core && w.2.team == g.team && w.2.quarter == q && w.2.role == g.role && w.2.entry == entry
  { (s.acquire g.core).updGrp (fun g =>
      (lanes.zip tasks).foldl (fun g e => g.updLane e.1 fun t => Lane.ofTask entry b t.seq e.2)
        { g with pend := g.pend.map (fresh lanes) }) with
    wells := dropFirst mine n s.wells }

/-- R292: the count is the same for every thread of the class; the first of them fills the lanes.
DEDUCED: log 23. -/
def execRefill (d : Nat) (disp : DWord) (s : State) : Out :=
  done (match s.grp with
    | none => s
    | some g =>
      let entry := s.label disp
      let vacant := (g.lanes.filter fun t => t.st == .vacant).length
      let n := if g.tasks then Nat.min vacant (s.matching g entry).length else 0
      let lead := s.lead
      perLane (.refill d disp) (fun l s =>
        let s := if l = lead then s.fillLanes g entry n else s
        .ok (s.setV l d (BitVec.ofNat 32 n)) none) s)

/-! ### Breakpoints, R293 -/

def execBrkBase (s : State) : Out := done (perLane .brkBase (fun _ _ => .trap { cause := .brk }) s)
def execBrk (code : Nat) (s : State) : Out :=
  done (perLane (.brk code) (fun _ _ => .trap { cause := .brk, detail := code }) s)

/-! ### Special registers, R274 to R277 -/

/-- `%core`, R170, R216, R449: the core, a running die that is alone counting as die 0, or the logical core in a deterministic
launch.
DEDUCED: log 32. -/
def State.coreId (s : State) (g : Group) : Nat :=
  match s.team? g.team with
  | some t =>
    if t.det then t.logical + (t.cores.idxOf? g.core).getD 0
    else g.core
  | none => g.core

/-- The value of a special register, for a lane of the current group.
DEDUCED: log 32. -/
def State.special (s : State) (l : Nat) (r : SpecialReg) (g : Group) : List Word :=
  let w (n : Nat) : List Word := [BitVec.ofNat 32 n]
  let t := s.lane l
  let no := match s.team? g.team with | some t => t.no | none => 0
  let rc : LRec := match s.team? g.team with
    | some t => (match s.launch? t.launch with | some x => x.record | none => [])
    | none => []
  match r with
  | .lane => w l
  | .tid => w (32 * g.index + l)
  | .group => w g.index
  | .role => w g.role
  | .team => w no
  | .core => w (s.coreId g)
  | .nteam => w (LRec.teams rc)
  | .tx => w (no % LRec.gx rc)
  | .ty => w (no / LRec.gx rc % LRec.gy rc)
  | .tz => w (no / LRec.gx rc / LRec.gy rc)
  | .nx => w (LRec.gx rc)
  | .ny => w (LRec.gy rc)
  | .nz => w (LRec.gz rc)
  | .tpart => w g.tpart
  | .fmode => [g.fmode]
  | .fstat => w g.fstat
  | .fseed => [g.fseed]
  | .meet => twoWords t.meet
  | .frame => w t.f
  | .clk => twoWords (s.coreAt g.core).clk

/-- `rds`, R275. A control core has its own `%clk`; of the registers of a group it has none, and what its twin of `rds`
reads for them is a free value.
DEDUCED: log 54. -/
def execRds (d : Dst) (r : SpecialReg) (s : State) : Out :=
  done (match s.cur.who, s.grp with
    | .control, _ =>
      if r = .clk then perClass (fun s => .ok (s.setDst 0 d (twoWords (s.coreAt s.cur.core).clk)) none) s
      else
        let (n, s) := s.choose (2 ^ 32)
        perClass (fun s => .ok (s.setDst 0 d [BitVec.ofNat 32 n]) none) s
    | _, some g => compute (.rds d r) d (fun s l => s.special l r g) s
    | _, none => s)

/-- `wrs`, R276: group registers once for the class, `%meet` for each thread. -/
def execWrs (r : SpecialReg) (a : Src) (s : State) : Out :=
  done (match r with
    | .meet => perLane (.wrs r a) (fun l s => .ok (s.updLane l fun t => { t with meet := s.pair l a }) none) s
    | .fmode =>
      uniformly (.wrs r a) (perClass fun s => .ok (s.updGrp fun g => { g with fmode := writeFmode (s.reg s.lead a 0) }) none) s
    | .fstat =>
      uniformly (.wrs r a) (perClass fun s => .ok (s.updGrp fun g => { g with fstat := (s.reg s.lead a 0).toNat % 64 }) none) s
    | .fseed =>
      uniformly (.wrs r a) (perClass fun s => .ok (s.updGrp fun g => { g with fseed := s.reg s.lead a 0 }) none) s
    | _ => s.advance)

end Sys2Proof.Machine
end

