-- ==== Sys2Proof/Machine/Special.lean ====
section
/-!
DEFINITION. The special functions (R244, R309, R310). Reciprocals and square roots are rounded from exact integers. The
transcendental functions are evaluated in fixed point with 640 fraction bits, far beyond what decides a rounding to 24
bits, and rounded once; arguments at which a function is exact are taken apart first.
-/
namespace Sys2Proof.Machine

/-! ### Fixed point -/

/-- Fraction bits.
UNVERIFIED: log 31. -/
def fpBits : Nat := 640
def fpOne : Nat := 2 ^ fpBits
def fpMul (a b : Nat) : Nat := a * b / fpOne

/-- Square root of a number, rounded down: bits decided from the highest. -/
def isqrtGo (n : Nat) : Nat → Nat → Nat
  | 0, r => r
  | k + 1, r => let t := r + 2 ^ k; isqrtGo n k (if t * t ≤ n then t else r)
def isqrt (n : Nat) : Nat := isqrtGo n (Nat.log2 n / 2 + 1) 0

/-- atan(1/k): Σ (−1)^i ÷ ((2i+1) k^(2i+1)). -/
def atanInv (k : Nat) : Nat → Nat → Nat → Bool → Int → Int
  | 0, _, _, _, acc => acc
  | fuel + 1, i, p, neg, acc =>
    let t : Int := (p / (2 * i + 1) : Nat)
    atanInv k fuel (i + 1) (p / (k * k)) (!neg) (if neg then acc - t else acc + t)
/-- π. -/
def fpPi : Nat :=
  (16 * atanInv 5 160 0 (fpOne / 5) false 0 - 4 * atanInv 239 60 0 (fpOne / 239) false 0).toNat

/-- Σ z^(2i+1) ÷ (2i+1), which is atanh z. -/
def atanhGo (zz : Nat) : Nat → Nat → Nat → Nat → Nat
  | 0, _, _, acc => acc
  | fuel + 1, i, p, acc => atanhGo zz fuel (i + 1) (fpMul p zz) (acc + p / (2 * i + 1))
def fpAtanh (z : Nat) : Nat := atanhGo (fpMul z z) 230 0 z 0
/-- ln 2 = 2 atanh(1/3). -/
def fpLn2 : Nat := 2 * fpAtanh (fpOne / 3)

/-- Σ y^i ÷ i!. -/
def expGo (y : Nat) : Nat → Nat → Nat → Nat → Nat
  | 0, _, _, acc => acc
  | fuel + 1, i, t, acc => expGo y fuel (i + 1) (fpMul t y / (i + 1)) (acc + t)
/-- e^y for 0 ≤ y < 1. -/
def fpExp (y : Nat) : Nat := expGo y 140 0 fpOne 0

/-- Σ (−1)^k t_k where t_0 is given and t_(k+1) = t_k y² ÷ ((2k+a)(2k+a+1)): sine with a = 2, cosine with a = 1. -/
def trigGo (yy a : Nat) : Nat → Nat → Nat → Bool → Int → Int
  | 0, _, _, _, acc => acc
  | fuel + 1, k, t, neg, acc =>
    trigGo yy a fuel (k + 1) (fpMul t yy / ((2 * k + a) * (2 * k + a + 1))) (!neg)
      (if neg then acc - (t : Int) else acc + t)
def fpSin (y : Nat) : Nat := (trigGo (fpMul y y) 2 70 0 y false 0).toNat
def fpCos (y : Nat) : Nat := (trigGo (fpMul y y) 1 70 0 fpOne false 0).toNat

/-! ### The functions on exact operands -/

/-- What a function gives: an encoding-free special result, or a signed fraction p ÷ q, exact or as evaluated. `dz` marks
a division by zero, `iv` an invalid operation. -/
inductive SpRes where
  | nan
  | inf (s dz : Bool)
  | frac (s : Bool) (p q : Nat) (exact : Bool)

def zeroRes (s : Bool) : SpRes := .frac s 0 1 true

/-- 1 ÷ x. -/
def spRcp (s : Bool) (x : Dy) : SpRes := if x.n = 0 then .inf s true else .frac s x.den x.num true

/-- √(p ÷ q): the root scaled by 2^k, exact where it squares back. -/
def sqrtFrac (p q : Nat) : Nat × Nat × Bool :=
  let k := 400
  let n := p * 2 ^ (2 * k) / q
  let r := isqrt n
  (if r * r = n ∧ n * q = p * 2 ^ (2 * k) then (r, 2 ^ k, true) else (2 * r + 1, 2 ^ (k + 1), false))

def spSqrt (s : Bool) (x : Dy) : SpRes :=
  if x.n = 0 then zeroRes s
  else if s then .nan
  else let (a, b, ex) := sqrtFrac x.num x.den; .frac false a b ex

def spRsqrt (s : Bool) (x : Dy) : SpRes :=
  if x.n = 0 then .inf s true
  else if s then .nan
  else let (a, b, ex) := sqrtFrac x.den x.num; .frac false a b ex

/-- 2^x: exact at integers; arguments whose results lie beyond both ends of the format are stood for by others there. -/
def spExp2 (s : Bool) (x : Dy) : SpRes :=
  let p := x.num
  let q := x.den
  if p = 0 then .frac false 1 1 true
  else if !s && decide (200 * q ≤ p) then .frac false (2 ^ 200) 1 true
  else if s && decide (300 * q ≤ p) then .frac false 1 (2 ^ 300) true
  else
    let n : Int := if s then -(((p + q - 1) / q : Nat) : Int) else ((p / q : Nat) : Int)
    let f := if s then ((p + q - 1) / q) * q - p else p % q
    let v := if f = 0 then fpOne else fpExp (fpLn2 * f / q)
    .frac false (v * pow2 n) (fpOne * pow2 (-n)) (f == 0)

/-- log₂ x: exact at powers of two. -/
def spLog2 (s : Bool) (x : Dy) : SpRes :=
  if x.n = 0 then .inf true true
  else if s then .nan
  else
    let p := x.num
    let q := x.den
    let k := fracLog2 p q
    let a := p * pow2 (-k)
    let b := q * pow2 k
    let n : Int := k * (fpOne : Int)
    let v : Int := if a = b then n else n + ((2 * fpAtanh (fpOne * (a - b) / (a + b)) * fpOne / fpLn2 : Nat) : Int)
    .frac (decide (v < 0)) v.natAbs fpOne (a == b)

/-- tanh x. Above 32 it is stood for by a number that rounds as it does. -/
def spTanh (s : Bool) (x : Dy) : SpRes :=
  let p := x.num
  let q := x.den
  if p = 0 then zeroRes s
  else if 32 * q ≤ p then .frac s (2 ^ 64 - 1) (2 ^ 64) false
  else
    let y := 2 * p * fpOne / q
    let k := y / fpLn2
    let e := fpExp (y - k * fpLn2) * 2 ^ k
    .frac s (e - fpOne) (e + fpOne) false

/-- sin or cos of πf for a fraction f = p ÷ q below one half. -/
def halfSin (p q : Nat) : Nat :=
  if 4 * p ≤ q then fpSin (fpPi * p / q) else fpCos (fpPi * (q - 2 * p) / (2 * q))
def halfCos (p q : Nat) : Nat :=
  if 4 * p ≤ q then fpCos (fpPi * p / q) else fpSin (fpPi * (q - 2 * p) / (2 * q))

/-- sin πx and cos πx, R310, with the signed zeros of R244. -/
def spSinCos (s : Bool) (x : Dy) : SpRes × SpRes :=
  let p := x.num
  let q := x.den
  let n := 2 * p / q
  let f := 2 * p % q
  let quad := n % 4
  if f = 0 then
    ((if quad = 0 ∨ quad = 2 then zeroRes s else .frac (s != (quad == 3)) 1 1 true),
     (if quad = 1 ∨ quad = 3 then zeroRes false else .frac (quad == 2) 1 1 true))
  else
    let si := halfSin f (2 * q)
    let co := halfCos f (2 * q)
    match quad with
    | 0 => (.frac s si fpOne false, .frac false co fpOne false)
    | 1 => (.frac s co fpOne false, .frac true si fpOne false)
    | 2 => (.frac (!s) si fpOne false, .frac true co fpOne false)
    | _ => (.frac (!s) co fpOne false, .frac false si fpOne false)

/-! ### Delivery, R309 -/

/-- The functions of R309; `sincospi` counts as two. -/
inductive SpFun where
  | rcp | rsqrt | sqrt | exp2 | log2 | sin | cos | tanh
  deriving DecidableEq, Repr

/-- A function at a finite operand, and at an infinity. -/
def SpFun.at (f : SpFun) (s : Bool) (x : Dy) : SpRes :=
  match f with
  | .rcp => spRcp s x | .rsqrt => spRsqrt s x | .sqrt => spSqrt s x | .exp2 => spExp2 s x
  | .log2 => spLog2 s x | .sin => (spSinCos s x).1 | .cos => (spSinCos s x).2 | .tanh => spTanh s x
def SpFun.atInf (f : SpFun) (s : Bool) : SpRes :=
  match f with
  | .rcp => zeroRes s
  | .rsqrt => if s then .nan else zeroRes false
  | .sqrt => if s then .nan else .inf false false
  | .exp2 => if s then zeroRes false else .inf false false
  | .log2 => if s then .nan else .inf false false
  | .sin => .nan
  | .cos => .nan
  | .tanh => .frac s 1 1 true

/-- One element, R309: the `.f32` reference, and for `.f16` that reference rounded once more.
UNVERIFIED: log 31. -/
def FEnv.special (e : FEnv) (f : SpFun) (t : FTy) (j : Nat) (x : Nat) : FRes :=
  let e := { e with rm := 1 }
  let (v, fl) := e.operand t x
  let r : SpRes := match v with
    | .nan _ _ => .nan
    | .inf s => f.atInf s
    | .fin s m ex => f.at s ⟨m, ex⟩
  match v, r with
  | .nan _ _, _ => ⟨e.nanOf t [v], fl⟩
  | _, .nan => invalid t fl
  | _, .inf s dz => ⟨t.fmt.signBits s + t.fmt.infBits, fl ||| (if dz then flDZ else 0)⟩
  | _, .frac s p q exact =>
    let nx := if exact then 0 else flNX
    if t = .f32 then
      let r := e.finish .f32 j s p q
      ⟨r.val, r.fl ||| nx ||| fl⟩
    else
      let f32 := FTy.f32.fmt
      let r32 := if p = 0 then ⟨f32.signBits s, 0⟩ else f32.roundFrac 1 0 false s p q
      let nx := nx ||| (r32.fl &&& flNX)
      match f32.decode r32.val with
      | .fin s m ex =>
        let d : Dy := ⟨m, ex⟩
        let r := e.finish t j s d.num d.den
        let small := decide (m = 0) || decide (fracLog2 d.num d.den < t.fmt.emin)
        let uf := if nx ≠ 0 ∧ r.fl &&& flNX = 0 ∧ small then flUF else 0
        ⟨r.val, r.fl ||| nx ||| uf ||| fl⟩
      | _ => ⟨t.fmt.signBits s + t.fmt.infBits, fl ||| flOF ||| flNX⟩

end Sys2Proof.Machine
end

