-- ==== Sys2Proof/Machine/Float.lean ====
section
/-!
DEFINITION. Floating-point arithmetic, comparison, classification and conversion on elements (R295 to R310).
-/
namespace Sys2Proof.Machine

/-! ### Exact operations on values, R297, R298 -/

/-- A sum without NaNs; none for infinities of opposite sign. `down` is mode 4, which signs an exact zero. -/
def FVal.add (down : Bool) (x y : FVal) : Option FVal :=
  match x, y with
  | .inf s, .inf s' => if s = s' then some (.inf s) else none
  | .inf s, _ => some (.inf s)
  | _, .inf s => some (.inf s)
  | x, y =>
    if x.isZero && y.isZero && x.neg? == y.neg? then some x
    else
      let d := (Dy.ofVal x).add (Dy.ofVal y)
      some (if d.n = 0 then .fin down 0 0 else .fin (decide (d.n < 0)) d.n.natAbs d.e)

/-- A product without NaNs; none for 0 × ∞. -/
def FVal.mul (x y : FVal) : Option FVal :=
  match prodOf x y with
  | .nan _ _ => none
  | v => some v

/-- A value rounded and delivered, R296. -/
def FEnv.deliver (e : FEnv) (t : FTy) (j fl : Nat) (v : FVal) : FRes :=
  match v with
  | .nan _ _ => ⟨t.fmt.nanBits, fl⟩
  | .inf s => ⟨t.fmt.signBits s + t.fmt.infBits, fl⟩
  | .fin s m ex =>
    let d : Dy := ⟨m, ex⟩
    let r := e.finish t j s d.num d.den
    ⟨r.val, r.fl ||| fl⟩

/-- R296: an element of an operation on values, which is none where it is invalid. `also` names an invalid operation
that raises IV even beside a NaN operand (R298). -/
def FEnv.element (e : FEnv) (t : FTy) (j : Nat) (xs : List Nat) (op : List FVal → Option FVal)
    (also : List FVal → Bool := fun _ => false) : FRes :=
  let ops := xs.map (e.operand t)
  let vs := ops.map (·.1)
  let fl := ops.foldl (fun a o => a ||| o.2) 0
  if vs.any FVal.isNan then ⟨e.nanOf t vs, if also vs then fl ||| flIV else fl⟩
  else match op vs with
    | none => invalid t fl
    | some v => e.deliver t j fl v

def opAdd (down : Bool) : List FVal → Option FVal
  | [a, b] => a.add down b
  | _ => none
def opSub (down : Bool) : List FVal → Option FVal
  | [a, b] => a.add down b.negate
  | _ => none
def opMul : List FVal → Option FVal
  | [a, b] => a.mul b
  | _ => none
def opFma (down : Bool) : List FVal → Option FVal
  | [a, b, c] => match a.mul b with
    | some p => p.add down c
    | none => none
  | _ => none
/-- R298: 0 × ∞ with a NaN c still raises IV. -/
def fmaInvalid : List FVal → Bool
  | [a, b, _] => !a.isNan && !b.isNan && (a.mul b).isNone
  | _ => false
/-- a + c × (b − a), R298. -/
def opLerp (down : Bool) : List FVal → Option FVal
  | [a, b, c] => match b.add down a.negate with
    | none => none
    | some d => match c.mul d with
      | none => none
      | some p => a.add down p
  | _ => none

/-! ### Elements of operands, R295 -/

/-- What `fp_element` takes from the group and the thread; the mode of a rounding field (R234, R236). -/
def State.fenv (s : State) (l : Nat) (r : Rnd) : FEnv :=
  match s.grp with
  | none => ⟨1, 1, 0, 0⟩
  | some g =>
    let no := match s.team? g.team with | some t => t.no | none => 0
    { fmode := g.fmode, rm := if r = .dyn then g.fmode.toNat % 8 else r.code, seed := g.fseed
      idx := no * 2 ^ 32 + (32 * g.index + l) * 8 }

/-- Element `j` of an operand of an arithmetic type. -/
def State.element (s : State) (t : FTy) (l : Nat) (j : Nat) (x : Src) : Nat :=
  (s.arg l x t.regs).toNat / 2 ^ (t.fmt.width * j) % 2 ^ t.fmt.width

end Sys2Proof.Machine
namespace Sys2Proof
/-- Elements of an operand of an arithmetic type, R295. -/
def FTy.elems (t : FTy) : Nat := if t = .f64 then 1 else t.perReg
/-- Elements packed into the registers of a destination. -/
def FTy.pack (t : FTy) (xs : List Nat) : List Word :=
  if t = .f64 then Machine.twoWords (BitVec.ofNat 64 (xs.headD 0))
  else [BitVec.ofNat 32 (xs.zipIdx.foldl (fun a e => a + e.1 % 2 ^ t.fmt.width * 2 ^ (t.fmt.width * e.2)) 0)]
end Sys2Proof
namespace Sys2Proof.Machine

/-- The results of an instruction on elements, with the status bits raised. -/
def elementwise (t : FTy) (srcs : List Src) (f : Nat → List Nat → FRes) (s : State) (l : Nat) : List Nat × Nat :=
  let rs := (List.range t.elems).map fun j => f j (srcs.map (s.element t l j))
  (rs.map (·.val), rs.foldl (fun a r => a ||| r.fl) 0)

/-- An instruction on elements performed for each thread, its status bits raised at once (R241). -/
def fpCompute (i : Instr) (t : FTy) (r : Rnd) (d : Nat) (srcs : List Src) (f : FEnv → Nat → List Nat → FRes)
    (s : State) : State :=
  perLane i (fun l s =>
    let (xs, fl) := elementwise t srcs (f (s.fenv l r)) s l
    .ok ((s.setVs l d (t.pack xs)).orFstat fl) none) s

/-! ### Arithmetic, R298 -/

def faddE (t : FTy) (e : FEnv) (j : Nat) (xs : List Nat) : FRes := e.element t j xs (opAdd (e.rm == 4))
def fsubE (t : FTy) (e : FEnv) (j : Nat) (xs : List Nat) : FRes := e.element t j xs (opSub (e.rm == 4))
def fmulE (t : FTy) (e : FEnv) (j : Nat) (xs : List Nat) : FRes := e.element t j xs opMul
def ffmaE (t : FTy) (e : FEnv) (j : Nat) (xs : List Nat) : FRes := e.element t j xs (opFma (e.rm == 4)) fmaInvalid
/-- A NaN operand raises no IV beside an invalid case (R298).
DESIGN CHOICE: log 94. -/
def lerpE (t : FTy) (e : FEnv) (j : Nat) (xs : List Nat) : FRes := e.element t j xs (opLerp (e.rm == 4))

/-- R299: `fmin` (`lt` is the order) and `fmax`. -/
def FVal.below (x y : FVal) : Bool :=
  match x, y with
  | .inf s, .inf s' => s && !s'
  | .inf s, _ => s
  | _, .inf s => !s
  | x, y => if x.isZero && y.isZero then x.neg? && !y.neg? else (Dy.ofVal x).lt (Dy.ofVal y)

/-- An operand's bits after flush. -/
def FEnv.flushed (e : FEnv) (t : FTy) (x : Nat) : Nat :=
  match e.operand t x with
  | (.fin s 0 _, _) => t.fmt.signBits s
  | _ => x

def fminmaxE (max : Bool) (t : FTy) (e : FEnv) (_ : Nat) (xs : List Nat) : FRes :=
  match xs with
  | [a, b] =>
    let (x, fx) := e.operand t a
    let (y, fy) := e.operand t b
    let fl := fx ||| fy
    if x.isNan && y.isNan then ⟨e.nanOf t [x, y], fl⟩
    else if x.isNan then ⟨e.flushed t b, fl⟩
    else if y.isNan then ⟨e.flushed t a, fl⟩
    else ⟨if (if max then x.below y else y.below x) then e.flushed t b else e.flushed t a, fl⟩
  | _ => ⟨0, 0⟩

def execFaddBase (t : BTy) (d : Nat) (a b : Src) (s : State) : Out :=
  done (fpCompute (.faddBase t d a b) t.toFTy .dyn d [a, b] (faddE t.toFTy) s)
def execFsubBase (t : BTy) (d : Nat) (a b : Src) (s : State) : Out :=
  done (fpCompute (.fsubBase t d a b) t.toFTy .dyn d [a, b] (fsubE t.toFTy) s)
def execFmulBase (t : BTy) (d : Nat) (a b : Src) (s : State) : Out :=
  done (fpCompute (.fmulBase t d a b) t.toFTy .dyn d [a, b] (fmulE t.toFTy) s)
def execFminBase (t : BTy) (d : Nat) (a b : Src) (s : State) : Out :=
  done (fpCompute (.fminBase t d a b) t.toFTy .dyn d [a, b] (fminmaxE false t.toFTy) s)
def execFmaxBase (t : BTy) (d : Nat) (a b : Src) (s : State) : Out :=
  done (fpCompute (.fmaxBase t d a b) t.toFTy .dyn d [a, b] (fminmaxE true t.toFTy) s)
def execFadd (t : FTy) (r : Rnd) (d : Nat) (a b : Src) (s : State) : Out :=
  done (fpCompute (.fadd t r d a b) t r d [a, b] (faddE t) s)
def execFsub (t : FTy) (r : Rnd) (d : Nat) (a b : Src) (s : State) : Out :=
  done (fpCompute (.fsub t r d a b) t r d [a, b] (fsubE t) s)
def execFmul (t : FTy) (r : Rnd) (d : Nat) (a b : Src) (s : State) : Out :=
  done (fpCompute (.fmul t r d a b) t r d [a, b] (fmulE t) s)
def execFfma (t : FTy) (r : Rnd) (d : Nat) (a b c : Src) (s : State) : Out :=
  done (fpCompute (.ffma t r d a b c) t r d [a, b, c] (ffmaE t) s)
def execFmin (t : FTy) (d : Nat) (a b : Src) (s : State) : Out :=
  done (fpCompute (.fmin t d a b) t .dyn d [a, b] (fminmaxE false t) s)
def execFmax (t : FTy) (d : Nat) (a b : Src) (s : State) : Out :=
  done (fpCompute (.fmax t d a b) t .dyn d [a, b] (fminmaxE true t) s)
def execLerp (t : FTy) (r : Rnd) (d : Nat) (a b c : Src) (s : State) : Out :=
  done (fpCompute (.lerp t r d a b c) t r d [a, b, c] (lerpE t) s)

/-! ### Sign, comparison, rounding to integers, classes: R300 to R303 -/

def fabsE (t : FTy) (_ : FEnv) (_ : Nat) (xs : List Nat) : FRes := ⟨xs.headD 0 % 2 ^ (t.fmt.width - 1), 0⟩
def fnegE (t : FTy) (_ : FEnv) (_ : Nat) (xs : List Nat) : FRes := ⟨xs.headD 0 ^^^ 2 ^ (t.fmt.width - 1), 0⟩
def execFabs (t : FTy) (d : Nat) (a : Src) (s : State) : Out := done (fpCompute (.fabs t d a) t .dyn d [a] (fabsE t) s)
def execFneg (t : FTy) (d : Nat) (a : Src) (s : State) : Out := done (fpCompute (.fneg t d a) t .dyn d [a] (fnegE t) s)

/-- R301 on two values neither of which is NaN; ±0 are equal. -/
def FCond.onNumbers (c : FCond) (x y : FVal) : Bool :=
  let eq := (x.isZero && y.isZero) || (!x.below y && !y.below x)
  let lt := x.below y && !eq
  match c with
  | .eq => eq | .ne => !eq | .lt => lt | .le => lt || eq | .gt => !lt && !eq | .ge => !lt | .un => false | .ord => true
/-- The condition where an operand is NaN. -/
def FCond.onNan : FCond → Bool
  | .ne => true | .un => true | _ => false
/-- The conditions that raise IV for any NaN. -/
def FCond.signals : FCond → Bool
  | .lt => true | .le => true | .gt => true | .ge => true | _ => false

def fcmpE (c : FCond) (t : FTy) (e : FEnv) (_ : Nat) (xs : List Nat) : FRes :=
  match xs with
  | [a, b] =>
    let (x, fx) := e.operand t a
    let (y, fy) := e.operand t b
    let fl := fx ||| fy
    if x.isNan || y.isNan then
      ⟨if FCond.onNan c then 1 else 0, if FCond.signals c then fl ||| flIV else fl⟩
    else ⟨if FCond.onNumbers c x y then 1 else 0, fl⟩
  | _ => ⟨0, 0⟩

/-- R301: one register receives 1 or 0, or each half its element's. -/
def fcmpOf (i : Instr) (c : FCond) (t : FTy) (d : Nat) (a b : Src) (s : State) : State :=
  perLane i (fun l s =>
    let (xs, fl) := elementwise t [a, b] (fcmpE c t (s.fenv l .dyn)) s l
    let w := xs.zipIdx.foldl (fun n e => n + e.1 * 2 ^ (16 * e.2)) 0
    .ok ((s.setV l d (BitVec.ofNat 32 w)).orFstat fl) none) s
def execFcmpBase (c : FCond) (d : Nat) (a b : Src) (s : State) : Out :=
  done (fcmpOf (.fcmpBase c d a b) c .f32 d a b s)
def execFcmp (t : FTy) (c : FCond) (d : Nat) (a b : Src) (s : State) : Out :=
  done (fcmpOf (.fcmp t c d a b) c t d a b s)

/-- The magnitude p ÷ q rounded to an integer under a mode, R302, R307. -/
def roundInt (mode r : Nat) (s : Bool) (p q : Nat) : Nat :=
  let (a, rem, den) := quantum p q 0
  if rem = 0 then a else if roundsUp mode s a rem den r then a + 1 else a
def FEnv.srAt (e : FEnv) (j : Nat) : Nat := if e.rm = 6 then srHash e.seed (e.idx + j) else 0

def frndE (t : FTy) (e : FEnv) (j : Nat) (xs : List Nat) : FRes :=
  let a := xs.headD 0
  match e.operand t a with
  | (.nan s m, fl) => ⟨e.nanOf t [.nan s m], fl⟩
  | (.inf _, fl) => ⟨a, fl⟩
  | (.fin s m ex, fl) =>
    let d : Dy := ⟨m, ex⟩
    let k := roundInt e.rm (e.srAt j) s d.num d.den
    ⟨if k = 0 then t.fmt.signBits s else (t.fmt.roundFrac 1 0 false s k 1).val, fl⟩
def execFrnd (t : FTy) (r : Rnd) (d : Nat) (a : Src) (s : State) : Out :=
  done (fpCompute (.frnd t r d a) t r d [a] (frndE t) s)

/-- R303. -/
def classBit (t : FTy) (x : Nat) : Nat :=
  match t.fmt.decode x with
  | .inf s => if s then 0 else 7
  | .nan s m => if t.signalling (.nan s m) then 8 else 9
  | .fin s 0 _ => if s then 3 else 4
  | .fin s m _ => if m < 2 ^ t.fmt.mb then (if s then 2 else 5) else if s then 1 else 6
def execFclass (t : FTy) (d : Nat) (a : Src) (s : State) : Out :=
  done (perLane (.fclass t d a) (fun l s =>
    let w := (List.range t.elems).foldl (fun n j => n + 2 ^ classBit t (s.element t l j a) * 2 ^ (16 * j)) 0
    .ok (s.setV l d (BitVec.ofNat 32 w)) none) s)

/-- R304. -/
def execFdot2 (t : FTy) (d : Nat) (a b c : Src) (s : State) : Out :=
  done (perLane (.fdot2 t d a b c) (fun l s =>
    let w := t.fmt.width
    let el (x : Src) (j : Nat) : FVal :=
      t.fmt.decode (if t = .f32 then (s.reg l x j).toNat else (s.reg l x 0).toNat / 2 ^ (w * j) % 2 ^ w)
    let ps := [prodOf (el a 0) (el b 0), prodOf (el a 1) (el b 1)]
    .ok (s.setV l d (BitVec.ofNat 32 (chunkSumAll (s.reg l c 0).toNat ps))) none) s)

/-! ### Conversions, R305 to R308 -/

/-- Element `j` of an operand of a conversion, R305. -/
def State.cvtElem (s : State) (t : FTy) (l : Nat) (x : Src) (j : Nat) : Nat :=
  if t = .f64 then pairNat (s.reg l x (2 * j)) (s.reg l x (2 * j + 1))
  else (s.reg l x (j / t.perReg)).toNat / 2 ^ (t.fmt.width * (j % t.perReg)) % 2 ^ t.fmt.width
where pairNat (a b : Word) : Nat := a.toNat + 2 ^ 32 * b.toNat

/-- The registers of `n` converted elements. -/
def packCvt (t : FTy) (xs : List Nat) : List Word :=
  if t = .f64 then (xs.map fun x => twoWords (BitVec.ofNat 64 x)).flatten
  else (List.range (cvtRegs t xs.length)).map fun r =>
    BitVec.ofNat 32 ((List.range t.perReg).foldl (fun a k =>
      a + xs.getD (r * t.perReg + k) 0 % 2 ^ t.fmt.width * 2 ^ (t.fmt.width * k)) 0)

def execCvt (to_ from_ : FTy) (r : Rnd) (d : Nat) (a : Src) (s : State) : Out :=
  done (perLane (.cvt to_ from_ r d a) (fun l s =>
    let e := s.fenv l r
    let rs := (List.range (cvtCount to_ from_)).map fun j =>
      e.convert to_ from_ (if to_ = .f64 then 0 else j % to_.perReg) (s.cvtElem from_ l a j)
    .ok ((s.setVs l d (packCvt to_ (rs.map (·.val)))).orFstat (rs.foldl (fun x y => x ||| y.fl) 0)) none) s)

/-- R307, R240. -/
def FEnv.toInt (e : FEnv) (to_ : ITy) (from_ : FTy) (x : Nat) : Int × Nat :=
  match e.operand from_ x with
  | (.nan _ _, fl) => (0, fl ||| flIV)
  | (.inf s, fl) => (if s then to_.least else to_.most, fl ||| flIV)
  | (.fin s m ex, fl) =>
    let d : Dy := ⟨m, ex⟩
    let k : Int := roundInt e.rm (e.srAt 0) s d.num d.den
    let v := if s then -k else k
    if v < to_.least then (to_.least, fl ||| flIV)
    else if to_.most < v then (to_.most, fl ||| flIV)
    else (v, if k * (d.den : Int) = (d.num : Int) then fl else fl ||| flNX)

def execCvtfi (to_ : ITy) (from_ : FTy) (r : Rnd) (d : Nat) (a : Src) (s : State) : Out :=
  done (perLane (.cvtfi to_ from_ r d a) (fun l s =>
    let (v, fl) := (s.fenv l r).toInt to_ from_ (s.element from_ l 0 a)
    .ok ((s.setVs l d (to_.out v)).orFstat fl) none) s)

/-- R308. -/
def FEnv.ofInt (e : FEnv) (to_ : FTy) (v : Int) : FRes := e.finish to_ 0 (decide (v < 0)) v.natAbs 1 e.sat

def execCvtif (to_ : FTy) (from_ : ITy) (r : Rnd) (d : Nat) (a : Src) (s : State) : Out :=
  done (perLane (.cvtif to_ from_ r d a) (fun l s =>
    let x := (s.fenv l r).ofInt to_ (s.int from_ l a)
    .ok ((s.setVs l d (to_.pack [x.val])).orFstat x.fl) none) s)

/-! ### Special functions, R309, R310 -/

def specialOf (i : Instr) (f : SpFun) (t : FTy) (d : Nat) (a : Src) (s : State) : State :=
  fpCompute i t .dyn d [a] (fun e j xs => e.special f t j (xs.headD 0)) s
def execRcp (t : FTy) (d : Nat) (a : Src) (s : State) : Out := done (specialOf (.rcp t d a) .rcp t d a s)
def execRsqrt (t : FTy) (d : Nat) (a : Src) (s : State) : Out := done (specialOf (.rsqrt t d a) .rsqrt t d a s)
def execSqrt (t : FTy) (d : Nat) (a : Src) (s : State) : Out := done (specialOf (.sqrt t d a) .sqrt t d a s)
def execExp2 (t : FTy) (d : Nat) (a : Src) (s : State) : Out := done (specialOf (.exp2 t d a) .exp2 t d a s)
def execLog2 (t : FTy) (d : Nat) (a : Src) (s : State) : Out := done (specialOf (.log2 t d a) .log2 t d a s)
def execTanh (t : FTy) (d : Nat) (a : Src) (s : State) : Out := done (specialOf (.tanh t d a) .tanh t d a s)
/-- R310: the sines in D, the cosines in D + 1. -/
def execSincospi (t : FTy) (d : Nat) (a : Src) (s : State) : Out :=
  done (perLane (.sincospi t d a) (fun l s =>
    let e := s.fenv l .dyn
    let (xs, f1) := elementwise t [a] (fun j xs => e.special .sin t j (xs.headD 0)) s l
    let (ys, f2) := elementwise t [a] (fun j xs => e.special .cos t j (xs.headD 0)) s l
    .ok ((s.setVs l d (t.pack xs ++ t.pack ys)).orFstat (f1 ||| f2)) none) s)

end Sys2Proof.Machine
end

