-- ==== Sys2Proof/Machine/Barrier.lean ====
section
/-!
DEFINITION. Barrier objects and rings in a team's scratchpad window: their fields, their checks and their indivisible
operations (R143 to R150, R162 to R165), and the instructions of lanes that perform them (R337 to R339).
-/
namespace Sys2Proof.Machine

/-! ### Barrier objects, R143 to R149 -/

structure BarObj where
  phase : Nat
  texp : Nat
  tcnt : Nat
  bpend : Nat
  deriving DecidableEq, Repr

/-- DEDUCED: log 35. -/
def Team.bar (t : Team) (off : Nat) : BarObj :=
  ⟨t.rd off 4, t.rd (off + 6) 2, t.rd (off + 4) 2, t.rd (off + 8) 4⟩
/-- The fields written back; the reserved word is left.
DEDUCED: log 35. -/
def Team.setBar (t : Team) (off : Nat) (b : BarObj) : Team :=
  (((t.wr off 4 b.phase).wr (off + 4) 2 b.tcnt).wr (off + 6) 2 b.texp).wr (off + 8) 4 b.bpend

/-- R146. -/
def BarObj.complete (b : BarObj) : BarObj :=
  if b.tcnt = b.texp ∧ b.bpend = 0 then { b with phase := (b.phase + 1) % 2 ^ 32, tcnt := 0 } else b
/-- One arrival, R145. -/
def BarObj.arrive (b : BarObj) : BarObj := BarObj.complete { b with tcnt := b.tcnt + 1 }
/-- `k` arrivals one after another; none where one of them finds every expected arrival counted (R149, R165). -/
def BarObj.arrivals : Nat → BarObj → Option BarObj
  | 0, b => some b
  | k + 1, b => if b.tcnt = b.texp ∧ 0 < b.bpend then none else BarObj.arrivals k b.arrive
/-- R147. -/
def BarObj.passed (b : BarObj) (p : Nat) : Bool :=
  decide ((b.phase + 2 ^ 32 - p % 2 ^ 32 + 2 ^ 32 - 1) % 2 ^ 32 < 2 ^ 31)

def barrierMisuse (d off : Nat) : Trap := { cause := .barrierMisuse, detail := d, aux := off }
def ringMisuse (d : Nat) : Trap := { cause := .ringMisuse, detail := d }
def memError : Trap := { cause := .memUncorrectable }

/-- The checks of an object that come before its contents: R14, then detail 1 of R149, then an uncorrectable error of
its bytes (R79). Its violation of the window is recorded as an atomic access.
DEDUCED: log 40. -/
def Team.barPlace (t : Team) (off : Nat) : Option Trap :=
  if !t.inWindow off 16 then some (windowTrap off .atomic)
  else if off % 16 ≠ 0 then some (barrierMisuse 1 off)
  else if t.spadError off 16 then some memError
  else none

/-- What an operation on an object answers: the window after it with its result, a trap, or a hold (R150). -/
inductive BarRes where
  | ok (t : Team) (v : Nat)
  | trap (e : Trap)
  | hold

/-- `binit`, R145, R149. -/
def Team.barInit (t : Team) (off n : Nat) : BarRes :=
  match t.barPlace off with
  | some e => .trap e
  | none =>
    if n = 0 ∨ 65535 < n then .trap (barrierMisuse 7 off)
    else
      let b := t.bar off
      if b.tcnt ≠ 0 ∨ b.bpend ≠ 0 then .trap (barrierMisuse 3 off)
      else .ok ((t.setBar off { b with texp := n, tcnt := 0, bpend := 0 }).wr (off + 12) 4 0) 0

/-- `barrive`; for a stream (`hold`) an object that is not initialised holds it (R150). -/
def Team.barArrive (t : Team) (off : Nat) (hold : Bool) : BarRes :=
  match t.barPlace off with
  | some e => .trap e
  | none =>
    let b := t.bar off
    if b.texp = 0 then (if hold then .hold else .trap (barrierMisuse 2 off))
    else if b.tcnt = b.texp then .trap (barrierMisuse 9 off)
    else .ok (t.setBar off b.arrive) b.phase

/-- `waitph`: 1 where the phase is complete. -/
def Team.barWait (t : Team) (off p : Nat) (hold : Bool) : BarRes :=
  match t.barPlace off with
  | some e => .trap e
  | none =>
    let b := t.bar off
    if b.texp = 0 then (if hold then .hold else .trap (barrierMisuse 2 off))
    else .ok t (if b.passed p then 1 else 0)

/-- R145: bytes of a copy landed on its object. -/
def Team.land (t : Team) (off n : Nat) : Team :=
  let b := t.bar off
  t.setBar off (BarObj.complete { b with bpend := (b.bpend + 2 ^ 32 - n % 2 ^ 32) % 2 ^ 32 })

/-! ### Rings, R162 to R165 -/

structure Ring where
  sbase : Nat
  n : Nat
  lsz : Nat
  resv : Nat
  pub : Nat
  acq : Nat
  rel : Nat
  pbar : Nat
  sbar : Nat
  done : Nat
  deriving DecidableEq, Repr

def Team.ring (t : Team) (off : Nat) : Ring :=
  { sbase := t.rd off 3, n := t.rd (off + 5) 1 + 1, lsz := t.rd (off + 4) 1, resv := t.rd (off + 8) 2,
    pub := t.rd (off + 10) 2, acq := t.rd (off + 12) 2, rel := t.rd (off + 14) 2, pbar := t.rd (off + 16) 4,
    sbar := t.rd (off + 20) 4, done := t.rd (off + 32) 32 }
/-- The header's counters and DONE bits written back. -/
def Team.setRing (t : Team) (off : Nat) (r : Ring) : Team :=
  ((((t.wr (off + 8) 2 r.resv).wr (off + 10) 2 r.pub).wr (off + 12) 2 r.acq).wr (off + 14) 2 r.rel).wr (off + 32) 32 r.done

/-- d(x, y) of R163. -/
def Ring.d (r : Ring) (x y : Nat) : Nat := (x + 2 * r.n - y) % (2 * r.n)
/-- A slot counted from a head among the next `k`. -/
def Ring.among (r : Ring) (head k slot : Nat) : Bool :=
  decide (slot < r.n) && decide ((slot + r.n - head % r.n) % r.n < k)

/-- Detail 2 of R165, on the header's bytes and fields. -/
def Team.ringMalformed (t : Team) (off : Nat) (r : Ring) : Bool :=
  let n2 := 2 * r.n
  let ctr := decide (r.resv < n2) && decide (r.pub < n2) && decide (r.acq < n2) && decide (r.rel < n2)
  t.rd (off + 3) 1 != 0 || t.rd (off + 6) 2 != 0 || t.rd (off + 24) 8 != 0
    || r.n == 1 || decide (r.lsz < 4) || decide (16 < r.lsz) || r.sbase % 16 != 0
    || !ctr || decide (r.d r.acq r.rel + r.d r.pub r.acq + r.d r.resv r.pub > r.n)
    || (List.range 256).any fun k => bit r.done k
        && !(r.among r.rel (r.d r.acq r.rel) k || r.among r.pub (r.d r.resv r.pub) k)

/-- Checks 1 to 4 of R165; for a stream a header of zeros holds it (R150). An uncorrectable error of the header's bytes stands
after detail 1.
DESIGN CHOICE: log 64. -/
def Team.ringCheck (t : Team) (off : Nat) (hold : Bool) : Option (Option Trap) :=
  if !t.inWindow off 64 then some (some (windowTrap off .atomic))
  else if off % 64 ≠ 0 then some (some (ringMisuse 1))
  else if t.spadError off 64 then some (some memError)
  else if hold && t.rd off 64 == 0 then some none
  else
    let r := t.ring off
    if t.ringMalformed off r then some (some (ringMisuse 2))
    else if !t.inWindow r.sbase (r.n * 2 ^ r.lsz) then some (some (windowTrap r.sbase .atomic))
    else none

/-- `rres`, R163. -/
def Team.ringReserve (t : Team) (off : Nat) : BarRes :=
  match t.ringCheck off false with
  | some (some e) => .trap e
  | some none => .hold
  | none =>
    let r := t.ring off
    if r.d r.resv r.rel = r.n then .ok t 0xFFFFFFFF
    else .ok (t.setRing off { r with resv := (r.resv + 1) % (2 * r.n) }) (r.resv % r.n)

/-- `racq`, R163. -/
def Team.ringAcquire (t : Team) (off : Nat) (hold : Bool) : BarRes :=
  match t.ringCheck off hold with
  | some (some e) => .trap e
  | some none => .hold
  | none =>
    let r := t.ring off
    if r.acq = r.pub then .ok t 0xFFFFFFFF
    else .ok (t.setRing off { r with acq := (r.acq + 1) % (2 * r.n) }) (r.acq % r.n)

/-- The advance of a head over the finished slots: the DONE bits left, the head, and how many slots it passed. -/
def ringPass (n : Nat) : Nat → Nat → Nat → Nat → Nat × Nat × Nat
  | 0, done, head, k => (done, head, k)
  | left + 1, done, head, k =>
    if bit done (head % n) then ringPass n left (done - 2 ^ (head % n)) ((head + 1) % (2 * n)) (k + 1)
    else (done, head, k)

/-- Check 5 of R165 on the object told of an advance, before the arrivals: its place, detail 3 for its offset and for
TEXP = 0; an uncorrectable error of its bytes stands between the two.
DESIGN CHOICE: log 64. -/
def Team.ringBar (t : Team) (bar : Nat) : Option Trap :=
  if bar = 0xFFFFFFFF then none
  else if !t.inWindow bar 16 then some (windowTrap bar .atomic)
  else if bar % 16 ≠ 0 then some (ringMisuse 3)
  else if t.spadError bar 16 then some memError
  else if (t.bar bar).texp = 0 then some (ringMisuse 3)
  else none

/-- Detail 3 of R165 for the arrivals of an advance of `k` slots. -/
def Team.ringBarFull (t : Team) (bar k : Nat) : Bool :=
  decide (bar ≠ 0xFFFFFFFF) && ((t.bar bar).arrivals k).isNone
/-- The arrivals of an advance, R163. -/
def Team.ringArrive (t : Team) (bar k : Nat) : Team :=
  if bar = 0xFFFFFFFF ∨ k = 0 then t
  else match (t.bar bar).arrivals k with
    | none => t
    | some b => t.setBar bar b

/-- `rpub` (`pub`) and `rrel` of a slot, R163. Detail 3 for the arrivals comes before detail 4 or 5, which is judged on
the operation as it would be performed. -/
def Team.ringFinish (t : Team) (off slot : Nat) (pub hold : Bool) : BarRes :=
  match t.ringCheck off hold with
  | some (some e) => .trap e
  | some none => .hold
  | none =>
    let r := t.ring off
    let bar := if pub then r.pbar else r.sbar
    match t.ringBar bar with
    | some e => .trap e
    | none =>
      let head := if pub then r.pub else r.rel
      let room := if pub then r.d r.resv r.pub else r.d r.acq r.rel
      let ok := r.among head room slot && !bit r.done slot
      if !ok then .trap (ringMisuse (if pub then 4 else 5))
      else
        let (done, head', k) := ringPass r.n room (r.done + 2 ^ slot) head 0
        if t.ringBarFull bar k then .trap (ringMisuse 3)
        else
          let t := t.setRing off (if pub then { r with done, pub := head' } else { r with done, rel := head' })
          .ok (t.ringArrive bar k) 0

/-! ### The instructions of lanes -/

/-- A result put back: the team's window after the operation, then what the lane gets. -/
def State.afterBar (s : State) (r : BarRes) (k : State → Nat → Res) : Res :=
  match r with
  | .ok t v => k (s.updTeam t.id fun _ => t) v
  | .trap e => .trap e
  | .hold => .wait s

/-- The current class's team, R14 and R168; a group always has one. -/
def State.onTeam (s : State) (f : Team → Res) : Res :=
  match s.myTeam with
  | some t => f t
  | none => .trap { cause := .accessViolation, detail := 0x0D }

/-- `binit`, R337. -/
def execBinit (a b : Src) (s : State) : Out :=
  done (perLane (.binit a b) (fun l s => s.onTeam fun t =>
    s.afterBar (t.barInit (s.reg l a 0).toNat (s.reg l b 0).toNat) fun s _ => .ok s none) s)

/-- `barrive`, R337: D receives PHASE before the arrival. -/
def execBarrive (d : Nat) (a : Src) (s : State) : Out :=
  done (perLane (.barrive d a) (fun l s => s.onTeam fun t =>
    s.afterBar (t.barArrive (s.reg l a 0).toNat false) fun s v => .ok (s.setV l d (BitVec.ofNat 32 v)) none) s)

/-- `waitph`, R338: a thread whose phase is not complete is held, and keeps the address of the `waitph` (R148). One that goes
on has acquired (R123, R60). -/
def execWaitph (a b : Src) (s : State) : Out :=
  done (perLane (.waitph a b) (fun l s => s.onTeam fun t =>
    let off := (s.reg l a 0).toNat
    let p := s.reg l b 0
    s.afterBar (t.barWait off p.toNat false) fun s v =>
      if v = 1 then .ok (s.acquire s.cur.core) none
      else .ok (s.updLane l fun x => { x with st := .heldWait, hold := .phase off p s.cur.next }) (some s.cur.pc)) s)

/-- `rres`, R339, which acquires (R124). -/
def execRres (d : Nat) (a : Src) (s : State) : Out :=
  done (perLane (.rres d a) (fun l s => s.onTeam fun t =>
    s.afterBar (t.ringReserve (s.reg l a 0).toNat) fun s v =>
      .ok ((s.acquire s.cur.core).setV l d (BitVec.ofNat 32 v)) none) s)

/-- `rpub`, R339. -/
def execRpub (a b : Src) (s : State) : Out :=
  done (perLane (.rpub a b) (fun l s => s.onTeam fun t =>
    s.afterBar (t.ringFinish (s.reg l a 0).toNat (s.reg l b 0).toNat true false) fun s _ => .ok s none) s)

/-- `racq`, R339, which acquires (R124). -/
def execRacq (d : Nat) (a : Src) (s : State) : Out :=
  done (perLane (.racq d a) (fun l s => s.onTeam fun t =>
    s.afterBar (t.ringAcquire (s.reg l a 0).toNat false) fun s v =>
      .ok ((s.acquire s.cur.core).setV l d (BitVec.ofNat 32 v)) none) s)

/-- `rrel`, R339. -/
def execRrel (a b : Src) (s : State) : Out :=
  done (perLane (.rrel a b) (fun l s => s.onTeam fun t =>
    s.afterBar (t.ringFinish (s.reg l a 0).toNat (s.reg l b 0).toNat false false) fun s _ => .ok s none) s)

end Sys2Proof.Machine
end

