-- ==== Sys2Proof/WellFormed.lean ====
section
/-!
DEFINITION. Well-formedness of an instruction: its registers exist and are aligned (R253), its literals meet R254,
its flag is one of twelve (R252), and its fields hold values that its row admits (R255, R256).
-/
namespace Sys2Proof

/-- Bit by bit what the encoding admits: what a decoder never yields otherwise. -/
def Instr.wf (i : Instr) : Bool := i.regsOk && i.spanOk && i.fieldsOk && i.flagOk && i.litsOk

end Sys2Proof
end

