-- ==== Sys2Proof/Decode.lean ====
section
/-!
DEFINITION. Decoding code words into instructions (R246 to R264), total and rejecting by name, and the encoder written
from the same tables. A word sequence is first split into the fields of its form (`Raw`), its opcode is looked up in
the opcode map (`rows`), and the checks of R263 are made in the order of their detail codes.
-/
namespace Sys2Proof

open Sys2Proof.Machine (bits bit)

/-- The fields of one instruction, base (R248) or extended (R250). In a base word `usel` holds AU and `modf` MOD. -/
structure Raw where
  ext : Bool
  op : Nat
  a : Nat := 0
  b : Nat := 0
  c : Nat := 0
  d : Nat := 0
  h : Nat := 0
  ord : Nat := 0
  sco : Nat := 0
  rnd : Nat := 0
  r : Nat := 0
  usel : Nat := 0
  t : Nat := 0
  s : Nat := 0
  i : Nat := 0
  f : Nat := 0
  modf : Nat := 0
  lit : Option DWord := none
  deriving DecidableEq, Repr

/-- Words of the form that a first word's length code names, R246. -/
def lengthOf (w : Word) : Nat :=
  match bits w.toNat 1 0 with
  | 0 => 1
  | 1 => 3
  | 2 => 3
  | _ => 5

def Raw.ofBase (w : Word) (lit : Option DWord) : Raw :=
  let x := w.toNat
  { ext := false, op := bits x 9 2, d := bits x 15 10, a := bits x 21 16, b := bits x 27 22,
    modf := bits x 30 28, usel := bits x 31 31, lit }

def Raw.ofExt (w0 w1 w2 : Word) (lit : Option DWord) : Raw :=
  let x := w0.toNat
  let y := w1.toNat
  let z := w2.toNat
  { ext := true, op := bits x 11 2, d := bits x 21 12, a := bits x 31 22,
    b := bits y 9 0, c := bits y 19 10, rnd := bits y 22 20, sco := bits y 25 23, ord := bits y 27 26, h := bits y 31 28,
    f := bits z 3 0, i := bits z 15 4, s := bits z 23 16, t := bits z 27 24, usel := bits z 30 28, r := bits z 31 31, lit }

/-- The fields of the instruction at the head of a word sequence, and the words after it; none where words are
missing. -/
def Raw.parse : List Word → Option (Raw × List Word)
  | [] => none
  | w0 :: ws =>
    match bits w0.toNat 1 0 with
    | 0 => some (Raw.ofBase w0 none, ws)
    | 1 => match ws with
      | w1 :: w2 :: rest => some (Raw.ofExt w0 w1 w2 none, rest)
      | _ => none
    | 2 => match ws with
      | lo :: hi :: rest => some (Raw.ofBase w0 (some (pairOf lo hi)), rest)
      | _ => none
    | _ => match ws with
      | w1 :: w2 :: lo :: hi :: rest => some (Raw.ofExt w0 w1 w2 (some (pairOf lo hi)), rest)
      | _ => none

/-- The words that hold the fields. -/
def Raw.words (r : Raw) : List Word :=
  let lit := match r.lit with | none => [] | some x => [loOf x, hiOf x]
  let len := (if r.lit.isSome then 2 else 0) + (if r.ext then 1 else 0)
  if r.ext then
    [BitVec.ofNat 32 (r.a * 2 ^ 22 + r.d * 2 ^ 12 + r.op * 4 + len),
     BitVec.ofNat 32 (r.h * 2 ^ 28 + r.ord * 2 ^ 26 + r.sco * 2 ^ 23 + r.rnd * 2 ^ 20 + r.c * 2 ^ 10 + r.b),
     BitVec.ofNat 32 (r.r * 2 ^ 31 + r.usel * 2 ^ 28 + r.t * 2 ^ 24 + r.s * 2 ^ 16 + r.i * 2 ^ 4 + r.f)] ++ lit
  else
    [BitVec.ofNat 32 (r.usel * 2 ^ 31 + r.modf * 2 ^ 28 + r.b * 2 ^ 22 + r.a * 2 ^ 16 + r.d * 2 ^ 10 + r.op * 4 + len)]
      ++ lit

/-! ### The opcode maps -/

/-- The fields an opcode may use, R256. -/
inductive Fld where
  | d | a | b | c | rnd | ord | h | t | s | i | f | mod
  deriving DecidableEq, Repr

/-- Who performs an instruction: a lane, a matrix stream, the control core. -/
inductive Kind where
  | lane | stream | system
  deriving DecidableEq, Repr

/-- The Literal column of the maps: none, required (a label, or `mset`'s value), or the source that a literal may
replace (0 A, 1 B, 2 C); `cas` of `atom` takes its literal in C, every other operation in B. -/
inductive LitRule where
  | no | req | src (p : Nat) | atomSrc
  deriving DecidableEq, Repr

/-- One row of an opcode map: its fields, its literal rule, and the instruction that its field values name. -/
structure Row where
  ext : Bool
  op : Nat
  kind : Kind
  fields : List Fld
  lit : LitRule
  build : Raw → Option Instr

/-- S of `atom` is `cas`, R86. -/
def Raw.isCas (r : Raw) : Bool := r.s == 1

/-- The source position that the literal of this word replaces. -/
def Row.litPos (w : Row) (r : Raw) : Option Nat :=
  match w.lit with
  | .src p => if r.lit.isSome then some p else none
  | .atomSrc => if r.lit.isSome then some (if r.isCas then 2 else 1) else none
  | _ => none

/-- Whether the opcode uses a field in this word, R256, R254. -/
def Row.uses (w : Row) (r : Raw) (x : Fld) : Bool :=
  w.fields.contains x &&
    (match x with
     | .a => w.litPos r != some 0
     | .b => w.litPos r != some 1
     | .c => w.litPos r != some 2 && (w.lit != .atomSrc || r.isCas)
     | _ => true)

/-- R256: every field that the opcode does not use is 0 (detail 3). A USEL bit belongs to its source. -/
def Row.unusedZero (w : Row) (r : Raw) : Bool :=
  let z (x : Fld) (v : Nat) : Bool := w.uses r x || v == 0
  let u (x : Fld) (k : Nat) : Bool := (w.uses r x && w.kind != .stream) || !(bit r.usel k)
  z .d r.d && z .a r.a && z .b r.b && z .c r.c && z .rnd r.rnd && z .ord r.ord && z .ord r.sco && z .h r.h
    && z .t r.t && z .s r.s && z .i r.i && z .f r.f && z .mod r.modf && r.r == 0
    && u .a 0 && u .b 1 && u .c 2

/-- A source field: a literal where one replaces it, else a uniform or a vector register, R248, R250. -/
def Raw.src (r : Raw) (isLit : Bool) (u : Nat) (n : Nat) : Src :=
  match isLit, r.lit with
  | true, some x => .lit x
  | _, _ => if bit r.usel u then .s n else .v n

/-- Source A, B and C of a word whose literal, if it has one, replaces source `p`. -/
def Raw.sa (r : Raw) (p : Nat) : Src := r.src (p == 0) 0 r.a
def Raw.sb (r : Raw) (p : Nat) : Src := r.src (p == 1) 1 r.b
def Raw.sc (r : Raw) (p : Nat) : Src := r.src (p == 2) 2 r.c
/-- The literal of a form that requires one. -/
def Raw.disp (r : Raw) : DWord := r.lit.getD 0
/-- The destination of an integer instruction or of its twin, R260. -/
def Raw.dd (r : Raw) (twin : Bool) : Dst := if twin then .s r.d else .v r.d
def Raw.imm (r : Raw) : BitVec 12 := BitVec.ofNat 12 r.i

/-- Lane rows of the base and extended maps, stream rows and system rows. -/
def baseRow (op : Nat) (fields : List Fld) (lit : LitRule) (build : Raw → Option Instr) : Row :=
  ⟨false, op, .lane, fields, lit, build⟩
def extRow (op : Nat) (fields : List Fld) (lit : LitRule) (build : Raw → Option Instr) : Row :=
  ⟨true, op, .lane, fields, lit, build⟩
def streamRow (op : Nat) (fields : List Fld) (lit : LitRule) (build : Raw → Option Instr) : Row :=
  ⟨true, op, .stream, fields, lit, build⟩
def sysRow (op : Nat) (fields : List Fld) (build : Raw → Option Instr) : Row :=
  ⟨true, op, .system, fields, .no, build⟩

/-! Shapes of rows that many instructions share. -/

def base3 (op : Nat) (k : Nat → Src → Src → Instr) : Row :=
  baseRow op [.d, .a, .b] (.src 1) fun r => some (k r.d (r.sa 1) (r.sb 1))
def base3m {α : Type} (op : Nat) (dec : Nat → Option α) (k : α → Nat → Src → Src → Instr) : Row :=
  baseRow op [.d, .a, .b, .mod] (.src 1) fun r => (dec r.modf).map fun m => k m r.d (r.sa 1) (r.sb 1)
def signOf : Nat → Option Bool
  | 0 => some false | 1 => some true | _ => none
def bcondOf (n : Nat) : Option FCond := if n < 6 then FCond.ofCode n else none

/-- An integer row of 0x040 + k, or its twin at 0x0C0 + k. -/
def int1 (tw : Bool) (k : Nat) (mk : ITy → Dst → Src → Instr) : Row :=
  extRow ((if tw then 0x0C0 else 0x040) + k) [.d, .a, .t] (.src 0) fun r =>
    (ITy.ofCode r.t).map fun t => mk t (r.dd tw) (r.sa 0)
def int2 (tw : Bool) (k : Nat) (mk : ITy → Dst → Src → Src → Instr) : Row :=
  extRow ((if tw then 0x0C0 else 0x040) + k) [.d, .a, .b, .t] (.src 1) fun r =>
    (ITy.ofCode r.t).map fun t => mk t (r.dd tw) (r.sa 1) (r.sb 1)
def int3 (tw : Bool) (k : Nat) (mk : ITy → Dst → Src → Src → Src → Instr) : Row :=
  extRow ((if tw then 0x0C0 else 0x040) + k) [.d, .a, .b, .c, .t] (.src 2) fun r =>
    (ITy.ofCode r.t).map fun t => mk t (r.dd tw) (r.sa 2) (r.sb 2) (r.sc 2)

def flt1 (op : Nat) (mk : FTy → Nat → Src → Instr) : Row :=
  extRow op [.d, .a, .t] (.src 0) fun r => (FTy.ofCode r.t).map fun t => mk t r.d (r.sa 0)
def flt2 (op : Nat) (mk : FTy → Nat → Src → Src → Instr) : Row :=
  extRow op [.d, .a, .b, .t] (.src 1) fun r => (FTy.ofCode r.t).map fun t => mk t r.d (r.sa 1) (r.sb 1)
def flt2r (op : Nat) (mk : FTy → Rnd → Nat → Src → Src → Instr) : Row :=
  extRow op [.d, .a, .b, .rnd, .t] (.src 1) fun r => do
    some (mk (← FTy.ofCode r.t) (← Rnd.ofCode r.rnd) r.d (r.sa 1) (r.sb 1))
def mvxRow (op : Nat) (mk : FTy → PathHint → Nat → Nat → Nat → Src → Src → Src → Nat → Instr) : Row :=
  extRow op [.d, .a, .b, .c, .s, .t, .f] .no fun r => do
    some (mk (← FTy.ofCode r.t) (← PathHint.ofCode (bits r.s 1 0)) (bits r.s 7 6) (bits r.s 5 2)
      r.d (r.sa 3) (r.sb 3) (r.sc 3) r.f)
def mmulRow (op : Nat) (mk : FTy → Bool → Nat → Nat → Nat → Nat → Instr) : Row :=
  streamRow op [.d, .a, .b, .s, .t] .no fun r => do
    some (mk (← FTy.ofCode r.t) (bit r.s 0) (bits r.s 7 1) r.d r.a r.b)
def sys3 (op : Nat) (mk : Nat → Src → Src → Instr) : Row :=
  sysRow op [.d, .a, .b] fun r => some (mk r.d (r.sa 3) (r.sb 3))
/-- H of an instruction that carries the cache hint: bits [31:30] must be 0, R326. -/
def hintOf (h : Nat) : Option Hint := if h < 4 then Hint.ofCode h else none

/-- R258: integer base forms.
DEDUCED: log 29. -/
def baseIntRows : List Row :=
  [ baseRow 0x00 [] .no fun _ => some .nopBase,
    baseRow 0x01 [.d, .a] (.src 0) fun r => some (.movBase r.d (r.sa 0)),
    base3 0x02 .addBase,
    base3 0x03 .subBase,
    base3 0x04 .mulBase,
    base3 0x05 .andBase,
    base3 0x06 .orBase,
    base3 0x07 .xorBase,
    base3 0x08 .shlBase,
    base3 0x09 .shrBase,
    base3 0x0A .sraBase,
    base3m 0x0B signOf .minBase,
    base3m 0x0C signOf .maxBase,
    base3m 0x0D ICond.ofCode .icmpBase ]

/-- R258: floating and control base forms.
DEDUCED: log 29. -/
def baseFloatRows : List Row :=
  [ base3m 0x10 BTy.ofCode .faddBase,
    base3m 0x11 BTy.ofCode .fsubBase,
    base3m 0x12 BTy.ofCode .fmulBase,
    base3m 0x13 BTy.ofCode .fminBase,
    base3m 0x14 BTy.ofCode .fmaxBase,
    base3m 0x15 bcondOf .fcmpBase,
    baseRow 0x20 [] .req fun r => some (.braBase r.disp),
    baseRow 0x21 [.a] .req fun r => some (.bnzBase (r.sa 3) r.disp),
    baseRow 0x22 [.a] .req fun r => some (.bzBase (r.sa 3) r.disp),
    baseRow 0x23 [.a] .no fun r => some (.brxBase (r.sa 3)),
    baseRow 0x24 [] .req fun r => some (.meetBase r.disp),
    baseRow 0x25 [] .no fun _ => some .retBase,
    baseRow 0x26 [] .no fun _ => some .exitBase,
    baseRow 0x27 [] .no fun _ => some .brkBase ]

/-- R259: control. -/
def controlRows : List Row :=
  [ extRow 0x000 [] .no fun _ => some .nop,
    extRow 0x001 [] .req fun r => some (.bra r.disp),
    extRow 0x002 [.a] .req fun r => some (.bnz (r.sa 3) r.disp),
    extRow 0x003 [.a] .req fun r => some (.bz (r.sa 3) r.disp),
    extRow 0x004 [.a] .no fun r => some (.brx (r.sa 3)),
    extRow 0x005 [] .req fun r => some (.meet r.disp),
    extRow 0x006 [.i] .req fun r => some (.call r.i r.disp),
    extRow 0x007 [.a, .i] .no fun r => some (.calli (r.sa 3) r.i),
    extRow 0x008 [.i] .no fun r => some (.frame r.i),
    extRow 0x009 [] .no fun _ => some .ret,
    extRow 0x00A [] .no fun _ => some .exit,
    extRow 0x00B [.d] .req fun r => some (.refill r.d r.disp),
    extRow 0x00C [.i] .no fun r => some (.brk r.i),
    extRow 0x00D [.a, .i] (.src 0) fun r => (SpecialReg.ofCode r.i).map fun x => .wrs x (r.sa 0),
    extRow 0x00E [.a] (.src 0) fun r => some (.part (r.sa 0)) ]

/-- R259, R260: integer and address instructions, and their twins. -/
def intRows1 (tw : Bool) : List Row :=
  [ int2 tw 0x00 .add,
    int2 tw 0x01 .sub,
    int2 tw 0x02 .mul,
    int2 tw 0x03 .mulhi,
    int2 tw 0x04 .mulw,
    int3 tw 0x05 .mad,
    int2 tw 0x06 .adds,
    int2 tw 0x07 .subs,
    int1 tw 0x08 .abs,
    int2 tw 0x09 .min,
    int2 tw 0x0A .max,
    int2 tw 0x0B .and,
    int2 tw 0x0C .or,
    int2 tw 0x0D .xor,
    int1 tw 0x0E .not ]

def intRows2 (tw : Bool) : List Row :=
  [ int2 tw 0x0F .shl,
    int2 tw 0x10 .shr,
    int2 tw 0x11 .sra,
    int2 tw 0x12 .rotl,
    int1 tw 0x13 .popc,
    int1 tw 0x14 .clz,
    int1 tw 0x15 .ctz,
    int1 tw 0x16 .brev,
    extRow ((if tw then 0x0C0 else 0x040) + 0x17) [.d, .a, .i, .t] (.src 0) fun r =>
      (ITy.ofCode r.t).map fun t => .bfe t (r.dd tw) (r.sa 0) (bits r.i 5 0) (bits r.i 11 6),
    extRow ((if tw then 0x0C0 else 0x040) + 0x18) [.d, .a, .b, .i, .t] (.src 1) fun r =>
      (ITy.ofCode r.t).map fun t => .bfi t (r.dd tw) (r.sa 1) (r.sb 1) (bits r.i 5 0) (bits r.i 11 6),
    extRow ((if tw then 0x0C0 else 0x040) + 0x19) [.d, .a, .b, .s, .t] (.src 1) fun r => do
      some (.icmp (← ITy.ofCode r.t) (← ICond.ofCode r.s) (r.dd tw) (r.sa 1) (r.sb 1)),
    int3 tw 0x1A .sel,
    extRow ((if tw then 0x0C0 else 0x040) + 0x1B) [.d, .a, .b, .i, .t] (.src 1) fun r =>
      (ITy.ofCode r.t).map fun t => .lea t (r.dd tw) (r.sa 1) (r.sb 1) r.i,
    int1 tw 0x1C .mov,
    extRow ((if tw then 0x0C0 else 0x040) + 0x1E) [.d, .i] .no fun r => (SpecialReg.ofCode r.i).map fun x => .rds (r.dd tw) x ]

/-- R259: `div`, which has no twin. -/
def divRow : Row :=
  extRow 0x05D [.d, .a, .b, .t, .f] (.src 1) fun r =>
    (ITy.ofCode r.t).map fun t => .div t r.d (r.sa 1) (r.sb 1) r.f

/-- R259: floating point and conversion. -/
def floatRows : List Row :=
  [ flt2r 0x080 .fadd,
    flt2r 0x081 .fsub,
    flt2r 0x082 .fmul,
    extRow 0x083 [.d, .a, .b, .c, .rnd, .t] (.src 2) fun r => do
      some (.ffma (← FTy.ofCode r.t) (← Rnd.ofCode r.rnd) r.d (r.sa 2) (r.sb 2) (r.sc 2)),
    flt2 0x084 .fmin,
    flt2 0x085 .fmax,
    flt1 0x086 .fabs,
    flt1 0x087 .fneg,
    extRow 0x088 [.d, .a, .b, .s, .t] (.src 1) fun r => do
      some (.fcmp (← FTy.ofCode r.t) (← FCond.ofCode r.s) r.d (r.sa 1) (r.sb 1)),
    extRow 0x089 [.d, .a, .rnd, .t] (.src 0) fun r => do
      some (.frnd (← FTy.ofCode r.t) (← Rnd.ofCode r.rnd) r.d (r.sa 0)),
    flt1 0x08A .fclass,
    extRow 0x08B [.d, .a, .b, .c, .rnd, .t] (.src 2) fun r => do
      some (.lerp (← FTy.ofCode r.t) (← Rnd.ofCode r.rnd) r.d (r.sa 2) (r.sb 2) (r.sc 2)),
    extRow 0x08C [.d, .a, .b, .c, .t] (.src 2) fun r =>
      (FTy.ofCode r.t).map fun t => .fdot2 t r.d (r.sa 2) (r.sb 2) (r.sc 2),
    extRow 0x08D [.d, .a, .rnd, .s, .t] (.src 0) fun r => do
      some (.cvt (← FTy.ofCode r.t) (← FTy.ofCode r.s) (← Rnd.ofCode r.rnd) r.d (r.sa 0)),
    extRow 0x08E [.d, .a, .rnd, .s, .t] (.src 0) fun r => do
      some (.cvtfi (← ITy.ofCode r.t) (← FTy.ofCode r.s) (← Rnd.ofCode r.rnd) r.d (r.sa 0)),
    extRow 0x08F [.d, .a, .rnd, .s, .t] (.src 0) fun r => do
      some (.cvtif (← FTy.ofCode r.t) (← ITy.ofCode r.s) (← Rnd.ofCode r.rnd) r.d (r.sa 0)),
    flt1 0x090 .rcp,
    flt1 0x091 .rsqrt,
    flt1 0x092 .sqrt,
    flt1 0x093 .exp2,
    flt1 0x094 .log2,
    flt1 0x095 .sincospi,
    flt1 0x096 .tanh ]

/-- R259: collectives, hashing and filtering. -/
def collectiveRows : List Row :=
  [ extRow 0x100 [.d, .a, .s] .no fun r => (VoteKind.ofCode r.s).map fun k => .vote k r.d (r.sa 3),
    extRow 0x101 [.d, .a, .t] .no fun r => (CTy.ofCode r.t).map fun t => .matchLanes t r.d (r.sa 3),
    extRow 0x102 [.d, .a, .b, .s, .t] (.src 1) fun r => do
      some (.shfl (← CTy.ofCode r.t) (← ShflMode.ofCode r.s) r.d (r.sa 1) (r.sb 1)),
    extRow 0x103 [.d, .a, .s, .t] .no fun r => do
      some (.tred (← CTy.ofCode r.t) (← RedOp.ofCode r.s) r.d (r.sa 3)),
    extRow 0x104 [.d, .a, .s, .t] .no fun r => do
      if r.s < 32 then some (.tscan (← CTy.ofCode r.t) (← RedOp.ofCode (bits r.s 3 0)) (bit r.s 4) r.d (r.sa 3)) else none,
    extRow 0x105 [.d, .a, .b] (.src 1) fun r => some (.hrand r.d (r.sa 1) (r.sb 1)),
    extRow 0x106 [.d, .a, .b, .s, .t, .f] .no fun r => do
      if r.s < 64 then
        some (.texf (← FTy.ofCode r.t) (← Filt.ofCode (bits r.s 1 0)) (bits r.s 5 2) r.d (r.sa 3) (r.sb 3) r.f)
      else none ]

/-- R259: memory and atomics. -/
def memoryRows : List Row :=
  [ extRow 0x140 [.d, .a, .i, .ord, .h, .t, .f] .no fun r => do
      some (.ld (← MTy.ofCode r.t) (← LdOrd.ofCode r.sco r.ord) (← hintOf r.h) r.d (r.sa 3) r.imm r.f),
    extRow 0x141 [.a, .b, .i, .ord, .h, .t] (.src 1) fun r => do
      some (.st (← MTy.ofCode r.t) (← StOrd.ofCode r.sco r.ord) (← hintOf r.h) (r.sa 1) r.imm (r.sb 1)),
    extRow 0x142 [.d, .a, .i, .h, .t, .f] .no fun r => do
      some (.ldt (← MTy.ofCode r.t) (← hintOf r.h) r.d (r.sa 3) r.imm r.f),
    extRow 0x143 [.d, .a, .i, .ord, .t, .f] .no fun r => do
      some (.ldsp (← MTy.ofCode r.t) (← LdOrd.ofCode r.sco r.ord) r.d (r.sa 3) r.imm r.f),
    extRow 0x144 [.a, .b, .i, .ord, .t] (.src 1) fun r => do
      some (.stsp (← MTy.ofCode r.t) (← StOrd.ofCode r.sco r.ord) (r.sa 1) r.imm (r.sb 1)),
    extRow 0x145 [.d, .a, .b, .c, .i, .s, .ord, .h, .t, .f] .atomSrc fun r => do
      let p := if r.isCas then 2 else 1
      some (.atom (← AOp.ofCode r.s) (← ATy.ofCode r.t) (← AtOrd.ofCode r.ord) (← Scope.ofCode r.sco) (← hintOf r.h)
        r.d (r.sa p) r.imm (r.sb p) (r.sc p) r.f),
    extRow 0x146 [.a, .b, .i, .s, .h, .t] (.src 1) fun r => do
      some (.redOrd (← AOp.ofCode r.s) (← ATy.ofCode r.t) (← hintOf r.h) (r.sa 1) r.imm (r.sb 1)),
    extRow 0x147 [.ord] .no fun r => do some (.fence (← FenceOrd.ofCode r.ord) (← Scope.ofCode r.sco)) ]

/-- R259: synchronisation and engines. -/
def syncRows : List Row :=
  [ extRow 0x180 [.a, .b] (.src 1) fun r => some (.binit (r.sa 1) (r.sb 1)),
    extRow 0x181 [.d, .a] .no fun r => some (.barrive r.d (r.sa 3)),
    extRow 0x182 [.a, .b] (.src 1) fun r => some (.waitph (r.sa 1) (r.sb 1)),
    extRow 0x183 [.d, .a] .no fun r => some (.rres r.d (r.sa 3)),
    extRow 0x184 [.a, .b] (.src 1) fun r => some (.rpub (r.sa 1) (r.sb 1)),
    extRow 0x185 [.d, .a] .no fun r => some (.racq r.d (r.sa 3)),
    extRow 0x186 [.a, .b] (.src 1) fun r => some (.rrel (r.sa 1) (r.sb 1)),
    extRow 0x187 [.a] .no fun r => some (.siph (r.sa 3)),
    extRow 0x188 [.d, .a, .b, .c] (.src 2) fun r => some (.tspawn r.d (r.sa 2) (r.sb 2) (r.sc 2)),
    extRow 0x189 [] .no fun _ => some .garrive,
    extRow 0x18A [.d, .a, .b, .s, .f] .no fun r =>
      if r.s < 8 then some (.rtrace (bit r.s 0) (bit r.s 1) (bit r.s 2) r.d (r.sa 3) (r.sb 3) r.f) else none,
    extRow 0x18B [.a, .b, .s] .no fun r =>
      if r.s < 2 then some (.gemit (bit r.s 0) (r.sa 3) (r.sb 3)) else none ]

/-- R259: accumulator, neural and matrix-vector. -/
def engineRows : List Row :=
  [ extRow 0x1C0 [.d, .i, .rnd, .t, .f] .no fun r => do
      some (.accrd (← FTy.ofCode r.t) (← Rnd.ofCode r.rnd) r.d (bits r.i 11 6) (bits r.i 5 0) r.f),
    extRow 0x1C1 [.a, .i, .rnd, .t] .no fun r => do
      some (.accsp (← FTy.ofCode r.t) (← Rnd.ofCode r.rnd) (r.sa 3) (bits r.i 11 6) (bits r.i 5 0)),
    extRow 0x1C2 [.a, .i, .t] .no fun r =>
      (FTy.ofCode r.t).map fun t => .accwr t (r.sa 3) (bits r.i 11 6) (bits r.i 5 0),
    extRow 0x1C3 [.d, .a, .b, .s, .t, .f] .no fun r => do
      if r.s < 64 then
        some (.neval (← FTy.ofCode r.t) (8 * (bits r.s 2 0 + 1)) (8 * (bits r.s 5 3 + 1)) r.d (r.sa 3) (r.sb 3) r.f)
      else none,
    mvxRow 0x1C4 .mvx,
    mvxRow 0x1C5 .mvxa,
    mvxRow 0x1C6 .mvxs ]

/-- R261: matrix streams. -/
def streamRows : List Row :=
  [ streamRow 0x300 [] .no fun _ => some .mnop,
    streamRow 0x301 [.d] .req fun r => some (.mset r.d r.disp),
    streamRow 0x302 [.d, .a, .i] .no fun r => some (.maddi r.d r.a r.imm),
    streamRow 0x303 [.d, .a] (.src 0) fun r =>
      some (.mloop r.d (match r.lit with | some x => .inr x | none => .inl r.a)),
    streamRow 0x304 [.d] .no fun r => some (.mnext r.d),
    streamRow 0x305 [.a, .i] .no fun r => some (.mwait r.i r.a),
    streamRow 0x306 [.i] .no fun r => some (.marr r.i),
    streamRow 0x307 [.d, .a] .no fun r => some (.macq r.d r.a),
    streamRow 0x308 [.a, .b] .no fun r => some (.mrel r.a r.b),
    streamRow 0x309 [.d] .no fun r => some (.mzero r.d),
    mmulRow 0x30A .mmul,
    mmulRow 0x30B .mmulb,
    streamRow 0x30C [] .no fun _ => some .mstop ]

/-- R262: the control core. -/
def systemRows : List Row :=
  [ sysRow 0x380 [.d, .a] fun r => some (.sysrd r.d (r.sa 3)),
    sysRow 0x381 [.a, .b] fun r => some (.syswr (r.sa 3) (r.sb 3)),
    sys3 0x382 .tlbinv,
    sys3 0x383 .gresume,
    sys3 0x384 .gkill,
    sys3 0x385 .ctxsv,
    sys3 0x386 .ctxld,
    sysRow 0x387 [.d, .a] fun r => some (.dwmap r.d (r.sa 3)),
    sysRow 0x388 [] fun _ => some .idle ]

/-- R258 to R262: the rows of one form whose opcodes begin at a group's base. -/
def rowsOf (ext : Bool) (op : Nat) : List Row :=
  if !ext then (if op < 0x10 then baseIntRows else baseFloatRows)
  else if op < 0x040 then controlRows
  else if op < 0x04F then intRows1 false
  else if op = 0x05D then [divRow]
  else if op < 0x080 then intRows2 false
  else if op < 0x0C0 then floatRows
  else if op < 0x0CF then intRows1 true
  else if op < 0x100 then intRows2 true
  else if op < 0x140 then collectiveRows
  else if op < 0x180 then memoryRows
  else if op < 0x1C0 then syncRows
  else if op < 0x300 then engineRows
  else if op < 0x380 then streamRows
  else systemRows

/-- R247: the row of a length form and opcode, if the maps list one. -/
def rowOf (ext : Bool) (op : Nat) : Option Row := (rowsOf ext op).find? fun w => w.op == op

/-! ### The checks of R263 -/

/-- Why words are not an instruction. -/
inductive Reject where
  | short                 -- words of the form are missing
  | detail (n : Nat)      -- the detail code of R263
  deriving DecidableEq, Repr

/-- A word with its orders, rounding and hint as they are, or with small ones, which no register field depends on. -/
def Raw.plain (r : Raw) : List Raw :=
  [r, { r with i := 0 }, { r with sco := 0, ord := 0, rnd := 0, h := 0 }, { r with sco := 1, ord := 0, rnd := 0, h := 0 }]
/-- A word with every T, and with every S. -/
def Raw.types (r : Raw) : List Raw := (List.range 16).map fun t => { r with t }
def Raw.subs (r : Raw) : List Raw := (List.range 256).map fun s => { r with s }

/-- The instructions that a word with an invalid code would be with a valid one in its place: with one of T and S changed where
that makes one, else with both.
DEDUCED: log 28. -/
def Row.nearest (w : Row) (r : Raw) : List Instr :=
  let of (rs : List Raw) : List Instr := (rs.map Raw.plain).flatten.filterMap w.build
  match of [r] with
  | [] => match of (r.types ++ r.subs) with
    | [] => of ((r.types.map Raw.subs).flatten)
    | is => is
  | is => is

/-- The instruction that the fields name, or the lowest detail code that applies (R264).
DEDUCED: log 28. -/
def Row.instr (w : Row) (r : Raw) : Except Reject Instr :=
  if (match w.lit with | .no => r.lit.isSome | .req => r.lit.isNone | _ => false) then .error (.detail 2)
  else if !w.unusedZero r then .error (.detail 3)
  else match w.build r with
    | none =>
      if !r.ext then .error (.detail 3)
      else
        let is := w.nearest r
        .error (.detail (if is.isEmpty || is.any fun i => i.regsOk && i.spanOk then 5 else 4))
    | some i =>
      if !(i.regsOk && i.spanOk) then .error (.detail 4)
      else if !i.fieldsOk then .error (.detail 5)
      else if !i.flagOk then .error (.detail 6)
      else if !i.litsOk then .error (.detail 10)
      else .ok i

/-- The clause header's opcode, R257: a base opcode that is assigned, but to no instruction. -/
def headerOp : Nat := 0xFF

/-- R372: the instructions of lanes that a control core performs too: the uniform twins, `nop`, `bra`, and `bz` and `bnz`
of a uniform register.
DEDUCED: log 54. -/
def Instr.onControl (i : Instr) : Bool :=
  match i with
  | .nop => true
  | .bra _ => true
  | .bz a _ => a.isUni
  | .bnz a _ => a.isUni
  | i => i.opnds.any fun o => o.dst && o.x.isUni

/-- R264 for words performed by an agent of kind `k`: an opcode of another kind is detail 9, an unassigned one
detail 1; the header's opcode needs a literal (R258), and a header that stands among a clause's instructions is detail 1.
DEDUCED: log 28. -/
def Raw.decode (k : Kind) (r : Raw) : Except Reject Instr :=
  match rowOf r.ext r.op with
  | none =>
    if !r.ext ∧ r.op = headerOp then .error (.detail (if k = .stream then 9 else if r.lit.isNone then 2 else 1))
    else .error (.detail 1)
  | some w =>
    match w.instr r with
    | .error (.detail n) => if w.kind ≠ k ∧ 9 < n then .error (.detail 9)
                            else if w.kind ≠ k ∧ k = .stream then .error (.detail 9) else .error (.detail n)
    | .error e => .error e
    | .ok i => if w.kind ≠ k ∧ !(k = .system ∧ i.onControl) then .error (.detail 9) else .ok i

/-- The instruction at the head of a word sequence, for an agent of kind `k`, and the words after it. -/
def decodeFor (k : Kind) (ws : List Word) : Except Reject (Instr × List Word) :=
  match Raw.parse ws with
  | none => .error .short
  | some (r, rest) =>
    match r.decode k with
    | .ok i => .ok (i, rest)
    | .error e => .error e

/-- The instruction at the head of a word sequence, whoever performs it. -/
def decode (ws : List Word) : Except Reject (Instr × List Word) :=
  match Raw.parse ws with
  | none => .error .short
  | some (r, rest) =>
    match rowOf r.ext r.op with
    | none => .error (.detail 1)
    | some w => match w.instr r with | .ok i => .ok (i, rest) | .error e => .error e

/-! ### The clause header, R257, R179 -/

structure Header where
  unif : Bool
  safe : Bool
  wait : Nat
  count : Nat
  setA : Nat
  setB : Nat
  live : Word
  deriving DecidableEq, Repr

/-- Fields and reserved bits of a header, R257; none where the word is no header or fails R180 (detail 7). -/
def Header.ofWords (w0 w1 w2 : Word) : Option Header :=
  let x := w0.toNat
  let y := w1.toNat
  let h : Header := { unif := bit x 28, safe := bit x 27, wait := bits x 26 15, count := bits x 14 10,
                      setA := bits y 3 0, setB := bits y 7 4, live := w2 }
  if bits x 9 0 = 0x3FE && bits x 31 29 = 0 && bits y 31 8 = 0 && decide (1 ≤ h.count) && decide (h.count ≤ 24)
      && (decide (h.setA < 12) || h.setA == 15) && (decide (h.setB < 12) || h.setB == 15)
      && (h.safe || h.live == 0) then some h else none

/-! ### The encoder -/

/-- A register field and its USEL bit; a literal leaves both 0, R254. -/
def Src.field : Src → Nat
  | .v n => n | .s n => n | .lit _ => 0
def Src.uselBit (x : Src) (k : Nat) : Nat := match x with | .s _ => 2 ^ k | _ => 0
def Src.lit? : Src → Option DWord
  | .lit x => some x | _ => none
def Dst.field : Dst → Nat
  | .v n => n | .s n => n
def Dst.twinOp (d : Dst) (k : Nat) : Nat := (match d with | .v _ => 0x040 | .s _ => 0x0C0) + k
def boolBit (b : Bool) : Nat := if b then 1 else 0

/-- The fields common to an opcode with sources A, B and C (the last of them perhaps a literal). -/
def raw1 (ext : Bool) (op d : Nat) (a : Src) : Raw :=
  { ext, op, d, a := a.field, usel := a.uselBit 0, lit := a.lit? }
def raw2 (ext : Bool) (op d : Nat) (a b : Src) : Raw :=
  { ext, op, d, a := a.field, b := b.field, usel := a.uselBit 0 + b.uselBit 1, lit := b.lit? }
def raw3 (op d : Nat) (a b c : Src) : Raw :=
  { ext := true, op, d, a := a.field, b := b.field, c := c.field,
    usel := a.uselBit 0 + b.uselBit 1 + c.uselBit 2, lit := c.lit? }
def rawLabel (ext : Bool) (op : Nat) (x : DWord) : Raw := { ext, op, lit := some x }
def rawMvx (op : Nat) (t : FTy) (h : PathHint) (nrc nv d : Nat) (a b c : Src) (f : Nat) : Raw :=
  { raw3 op d a b c with t := t.code, s := nrc * 64 + nv * 4 + h.code, f }

/-- The fields of an instruction; none for an event, which no word encodes. -/
def Instr.raw : Instr → Option Raw
  | .nopBase => some { ext := false, op := 0x00 }
  | .movBase d a => some (raw1 false 0x01 d a)
  | .addBase d a b => some (raw2 false 0x02 d a b)
  | .subBase d a b => some (raw2 false 0x03 d a b)
  | .mulBase d a b => some (raw2 false 0x04 d a b)
  | .andBase d a b => some (raw2 false 0x05 d a b)
  | .orBase d a b => some (raw2 false 0x06 d a b)
  | .xorBase d a b => some (raw2 false 0x07 d a b)
  | .shlBase d a b => some (raw2 false 0x08 d a b)
  | .shrBase d a b => some (raw2 false 0x09 d a b)
  | .sraBase d a b => some (raw2 false 0x0A d a b)
  | .minBase sg d a b => some { raw2 false 0x0B d a b with modf := boolBit sg }
  | .maxBase sg d a b => some { raw2 false 0x0C d a b with modf := boolBit sg }
  | .icmpBase c d a b => some { raw2 false 0x0D d a b with modf := c.code }
  | .faddBase t d a b => some { raw2 false 0x10 d a b with modf := t.code }
  | .fsubBase t d a b => some { raw2 false 0x11 d a b with modf := t.code }
  | .fmulBase t d a b => some { raw2 false 0x12 d a b with modf := t.code }
  | .fminBase t d a b => some { raw2 false 0x13 d a b with modf := t.code }
  | .fmaxBase t d a b => some { raw2 false 0x14 d a b with modf := t.code }
  | .fcmpBase c d a b => some { raw2 false 0x15 d a b with modf := c.code }
  | .brxBase a => some (raw1 false 0x23 0 a)
  | .retBase => some { ext := false, op := 0x25 }
  | .exitBase => some { ext := false, op := 0x26 }
  | .brkBase => some { ext := false, op := 0x27 }
  | .braBase x => some (rawLabel false 0x20 x)
  | .bnzBase a x => some { raw1 false 0x21 0 a with lit := some x }
  | .bzBase a x => some { raw1 false 0x22 0 a with lit := some x }
  | .meetBase x => some (rawLabel false 0x24 x)
  | .nop => some { ext := true, op := 0x000 }
  | .bra x => some (rawLabel true 0x001 x)
  | .bnz a x => some { raw1 true 0x002 0 a with lit := some x }
  | .bz a x => some { raw1 true 0x003 0 a with lit := some x }
  | .brx a => some (raw1 true 0x004 0 a)
  | .meet x => some (rawLabel true 0x005 x)
  | .call n x => some { rawLabel true 0x006 x with i := n }
  | .calli a n => some { raw1 true 0x007 0 a with i := n }
  | .frame n => some { ext := true, op := 0x008, i := n }
  | .ret => some { ext := true, op := 0x009 }
  | .exit => some { ext := true, op := 0x00A }
  | .refill d x => some { rawLabel true 0x00B x with d }
  | .brk n => some { ext := true, op := 0x00C, i := n }
  | .wrs x a => some { raw1 true 0x00D 0 a with i := x.code }
  | .part a => some (raw1 true 0x00E 0 a)
  | .add t d a b => some { raw2 true (d.twinOp 0x00) d.field a b with t := t.code }
  | .sub t d a b => some { raw2 true (d.twinOp 0x01) d.field a b with t := t.code }
  | .mul t d a b => some { raw2 true (d.twinOp 0x02) d.field a b with t := t.code }
  | .mulhi t d a b => some { raw2 true (d.twinOp 0x03) d.field a b with t := t.code }
  | .mulw t d a b => some { raw2 true (d.twinOp 0x04) d.field a b with t := t.code }
  | .mad t d a b c => some { raw3 (d.twinOp 0x05) d.field a b c with t := t.code }
  | .adds t d a b => some { raw2 true (d.twinOp 0x06) d.field a b with t := t.code }
  | .subs t d a b => some { raw2 true (d.twinOp 0x07) d.field a b with t := t.code }
  | .abs t d a => some { raw1 true (d.twinOp 0x08) d.field a with t := t.code }
  | .min t d a b => some { raw2 true (d.twinOp 0x09) d.field a b with t := t.code }
  | .max t d a b => some { raw2 true (d.twinOp 0x0A) d.field a b with t := t.code }
  | .and t d a b => some { raw2 true (d.twinOp 0x0B) d.field a b with t := t.code }
  | .or t d a b => some { raw2 true (d.twinOp 0x0C) d.field a b with t := t.code }
  | .xor t d a b => some { raw2 true (d.twinOp 0x0D) d.field a b with t := t.code }
  | .not t d a => some { raw1 true (d.twinOp 0x0E) d.field a with t := t.code }
  | .shl t d a b => some { raw2 true (d.twinOp 0x0F) d.field a b with t := t.code }
  | .shr t d a b => some { raw2 true (d.twinOp 0x10) d.field a b with t := t.code }
  | .sra t d a b => some { raw2 true (d.twinOp 0x11) d.field a b with t := t.code }
  | .rotl t d a b => some { raw2 true (d.twinOp 0x12) d.field a b with t := t.code }
  | .popc t d a => some { raw1 true (d.twinOp 0x13) d.field a with t := t.code }
  | .clz t d a => some { raw1 true (d.twinOp 0x14) d.field a with t := t.code }
  | .ctz t d a => some { raw1 true (d.twinOp 0x15) d.field a with t := t.code }
  | .brev t d a => some { raw1 true (d.twinOp 0x16) d.field a with t := t.code }
  | .bfe t d a p n => some { raw1 true (d.twinOp 0x17) d.field a with t := t.code, i := n * 64 + p }
  | .bfi t d a b p n => some { raw2 true (d.twinOp 0x18) d.field a b with t := t.code, i := n * 64 + p }
  | .icmp t c d a b => some { raw2 true (d.twinOp 0x19) d.field a b with t := t.code, s := c.code }
  | .sel t d a b c => some { raw3 (d.twinOp 0x1A) d.field a b c with t := t.code }
  | .lea t d a b sh => some { raw2 true (d.twinOp 0x1B) d.field a b with t := t.code, i := sh }
  | .mov t d a => some { raw1 true (d.twinOp 0x1C) d.field a with t := t.code }
  | .div t d a b f => some { raw2 true 0x05D d a b with t := t.code, f }
  | .rds d x => some { ext := true, op := d.twinOp 0x1E, d := d.field, i := x.code }
  | .fadd t r d a b => some { raw2 true 0x080 d a b with t := t.code, rnd := r.code }
  | .fsub t r d a b => some { raw2 true 0x081 d a b with t := t.code, rnd := r.code }
  | .fmul t r d a b => some { raw2 true 0x082 d a b with t := t.code, rnd := r.code }
  | .ffma t r d a b c => some { raw3 0x083 d a b c with t := t.code, rnd := r.code }
  | .fmin t d a b => some { raw2 true 0x084 d a b with t := t.code }
  | .fmax t d a b => some { raw2 true 0x085 d a b with t := t.code }
  | .fabs t d a => some { raw1 true 0x086 d a with t := t.code }
  | .fneg t d a => some { raw1 true 0x087 d a with t := t.code }
  | .fcmp t c d a b => some { raw2 true 0x088 d a b with t := t.code, s := c.code }
  | .frnd t r d a => some { raw1 true 0x089 d a with t := t.code, rnd := r.code }
  | .fclass t d a => some { raw1 true 0x08A d a with t := t.code }
  | .lerp t r d a b c => some { raw3 0x08B d a b c with t := t.code, rnd := r.code }
  | .fdot2 t d a b c => some { raw3 0x08C d a b c with t := t.code }
  | .cvt t s r d a => some { raw1 true 0x08D d a with t := t.code, s := s.code, rnd := r.code }
  | .cvtfi t s r d a => some { raw1 true 0x08E d a with t := t.code, s := s.code, rnd := r.code }
  | .cvtif t s r d a => some { raw1 true 0x08F d a with t := t.code, s := s.code, rnd := r.code }
  | .rcp t d a => some { raw1 true 0x090 d a with t := t.code }
  | .rsqrt t d a => some { raw1 true 0x091 d a with t := t.code }
  | .sqrt t d a => some { raw1 true 0x092 d a with t := t.code }
  | .exp2 t d a => some { raw1 true 0x093 d a with t := t.code }
  | .log2 t d a => some { raw1 true 0x094 d a with t := t.code }
  | .sincospi t d a => some { raw1 true 0x095 d a with t := t.code }
  | .tanh t d a => some { raw1 true 0x096 d a with t := t.code }
  | .vote k d a => some { raw1 true 0x100 d a with s := k.code }
  | .matchLanes t d a => some { raw1 true 0x101 d a with t := t.code }
  | .shfl t m d a b => some { raw2 true 0x102 d a b with t := t.code, s := m.code }
  | .tred t o d a => some { raw1 true 0x103 d a with t := t.code, s := o.code }
  | .tscan t o x d a => some { raw1 true 0x104 d a with t := t.code, s := o.code + 16 * boolBit x }
  | .hrand d a b => some (raw2 true 0x105 d a b)
  | .texf t k lv d a b f => some { raw2 true 0x106 d a b with t := t.code, s := lv * 4 + k.code, f }
  | .ld t o h d a off f => some { raw1 true 0x140 d a with t := t.code, sco := o.sco, ord := o.ord, h := h.code, i := off.toNat, f }
  | .st t o h a off b => some { raw2 true 0x141 0 a b with t := t.code, sco := o.sco, ord := o.ord, h := h.code, i := off.toNat }
  | .ldt t h d a off f => some { raw1 true 0x142 d a with t := t.code, h := h.code, i := off.toNat, f }
  | .ldsp t o d a off f => some { raw1 true 0x143 d a with t := t.code, sco := o.sco, ord := o.ord, i := off.toNat, f }
  | .stsp t o a off b => some { raw2 true 0x144 0 a b with t := t.code, sco := o.sco, ord := o.ord, i := off.toNat }
  | .atom op t o sc h d a off b c f => some { (if op = .cas then raw3 0x145 d a b c else raw2 true 0x145 d a b) with
      t := t.code, s := op.code, sco := sc.code, ord := o.code, h := h.code, i := off.toNat, f }
  | .redOrd op t h a off b => some { raw2 true 0x146 0 a b with t := t.code, s := op.code, h := h.code, i := off.toNat }
  | .fence o sc => some { ext := true, op := 0x147, sco := sc.code, ord := o.code }
  | .binit a b => some (raw2 true 0x180 0 a b)
  | .barrive d a => some (raw1 true 0x181 d a)
  | .waitph a b => some (raw2 true 0x182 0 a b)
  | .rres d a => some (raw1 true 0x183 d a)
  | .rpub a b => some (raw2 true 0x184 0 a b)
  | .racq d a => some (raw1 true 0x185 d a)
  | .rrel a b => some (raw2 true 0x186 0 a b)
  | .siph a => some (raw1 true 0x187 0 a)
  | .tspawn d a b c => some (raw3 0x188 d a b c)
  | .garrive => some { ext := true, op := 0x189 }
  | .rtrace any cb cf d a b f => some { raw2 true 0x18A d a b with s := boolBit any + 2 * boolBit cb + 4 * boolBit cf, f }
  | .gemit cull a b => some { raw2 true 0x18B 0 a b with s := boolBit cull }
  | .accrd t r d tl w f => some { ext := true, op := 0x1C0, d, t := t.code, rnd := r.code, i := tl * 64 + w, f }
  | .accsp t r a tl w => some { raw1 true 0x1C1 0 a with t := t.code, rnd := r.code, i := tl * 64 + w }
  | .accwr t a tl w => some { raw1 true 0x1C2 0 a with t := t.code, i := tl * 64 + w }
  | .neval t nin nout d a b f => some { raw2 true 0x1C3 d a b with t := t.code, s := (nin / 8 - 1) + 8 * (nout / 8 - 1), f }
  | .mvx t h nrc nv d a b c f => some (rawMvx 0x1C4 t h nrc nv d a b c f)
  | .mvxa t h nrc nv d a b c f => some (rawMvx 0x1C5 t h nrc nv d a b c f)
  | .mvxs t h nrc nv d a b c f => some (rawMvx 0x1C6 t h nrc nv d a b c f)
  | .mnop => some { ext := true, op := 0x300 }
  | .mset d x => some { ext := true, op := 0x301, d, lit := some x }
  | .maddi d a i => some { ext := true, op := 0x302, d, a, i := i.toNat }
  | .mloop l (.inl a) => some { ext := true, op := 0x303, d := l, a }
  | .mloop l (.inr x) => some { ext := true, op := 0x303, d := l, lit := some x }
  | .mnext l => some { ext := true, op := 0x304, d := l }
  | .mwait n a => some { ext := true, op := 0x305, a, i := n }
  | .marr n => some { ext := true, op := 0x306, i := n }
  | .macq d a => some { ext := true, op := 0x307, d, a }
  | .mrel a b => some { ext := true, op := 0x308, a, b }
  | .mzero t => some { ext := true, op := 0x309, d := t }
  | .mmul t scl kv tl a b => some { ext := true, op := 0x30A, d := tl, a, b, t := t.code, s := boolBit scl + 2 * kv }
  | .mmulb t scl kv tl a b => some { ext := true, op := 0x30B, d := tl, a, b, t := t.code, s := boolBit scl + 2 * kv }
  | .mstop => some { ext := true, op := 0x30C }
  | .sysrd d a => some (raw1 true 0x380 d a)
  | .syswr a b => some (raw2 true 0x381 0 a b)
  | .tlbinv d a b => some (raw2 true 0x382 d a b)
  | .gresume d a b => some (raw2 true 0x383 d a b)
  | .gkill d a b => some (raw2 true 0x384 d a b)
  | .ctxsv d a b => some (raw2 true 0x385 d a b)
  | .ctxld d a b => some (raw2 true 0x386 d a b)
  | .dwmap d a => some (raw1 true 0x387 d a)
  | .idle => some { ext := true, op := 0x388 }
  | _ => none

/-- A row of the table that no agent fetches: an event of the device or of its host. -/
def Instr.isEvent (i : Instr) : Bool := i.raw.isNone

def Reject.code : Reject → Nat
  | .short => 1
  | .detail n => n

/-- The words of an instruction. -/
def encode (i : Instr) : List Word :=
  match i.raw with
  | some r => r.words
  | none => []

/-- The words of `nbits` bits of a number, zeros above them, up to the five words of the longest form. -/
def tableWords (nbits w : Nat) : List Word :=
  let v := w % 2 ^ nbits
  (List.range 5).map fun k => BitVec.ofNat 32 (v / 2 ^ (32 * k))

/-- The instruction that decoding reads from an instruction whose bits are `w`, the first word lowest. -/
def decodeTableWord (nbits w : Nat) : Option Instr :=
  match decode (tableWords nbits w) with
  | .ok (i, _) => some i
  | .error _ => none

end Sys2Proof
end

