-- ==== Sys2Proof/Machine/Fetch.lean ====
section
/-!
DEFINITION. Fetching code: words of lane clauses through the instruction cache (R58, R59), words of matrix streams and
of control-core code, and the classes from which a group issues (R173, R175, R180, R183, R416).
-/
namespace Sys2Proof.Machine

/-- The line of 128 bytes that holds a place, as the instruction caches name it: behind which memory, and its address. -/
def Place.line : Place → Bool × Nat
  | .dev a => (false, a / 128 * 128)
  | .sys p a => (true, sysKey p a / 128 * 128)
def Place.key : Place → Nat
  | .dev a => a
  | .sys p a => sysKey p a

/-- A code byte as a core's fetch sees it: its instruction cache's copy, else memory's. -/
def State.codeByte (s : State) (core : Nat) (p : Place) : Byte :=
  match s.lines.find? fun l => l.core == core && (l.loc, l.addr) == p.line with
  | some l => l.bytes.getD (p.key - l.addr) 0
  | none => s.rdByte p

/-- R79: the uncorrectable error that a fetch of bytes meets: those that the instruction cache holds are fetched again. -/
def State.codeError (s : State) (core : Nat) (p : Place) (n : Nat) : Option Nat :=
  (List.range n).findSome? fun k =>
    if s.lines.any fun l => l.core == core && (l.loc, l.addr) == (p.add k).line then none else s.ueIn (p.add k) 1

/-- A word of lane code fetched at an address, which checks X (R22, R58). -/
def State.fetchWord (s : State) (ctx core : Nat) (va : Nat) : Except (Trap ⊕ Nat) Word :=
  let m : Mode := { kind := .fetch, core }
  match s.translate ctx m (va % 2 ^ 64) with
  | .bad f => .error (.inl (f.trap .fetch (va % 2 ^ 64)))
  | .pri p => .error (.inr p)
  | .zeros _ => .ok 0
  | .ok p _ => match s.codeError core p 4 with
    | some pa => .error (.inl (ueTrap pa))
    | none => .ok (BitVec.ofNat 32 (leNat ((List.range 4).map fun k => s.codeByte core (p.add k))))

/-- `n` words fetched in ascending order. -/
def State.fetchWords (s : State) (ctx core : Nat) : Nat → Nat → Except (Trap ⊕ Nat) (List Word)
  | 0, _ => .ok []
  | n + 1, va => match s.fetchWord ctx core va with
    | .error e => .error e
    | .ok w => match s.fetchWords ctx core n (va + 4) with
      | .ok ws => .ok (w :: ws)
      | .error e => .error e

/-- The words of `n` instructions from an address, each located by the length code of the one before (R247). -/
def State.fetchInstrs (s : State) (ctx core : Nat) : Nat → Nat → Except (Trap ⊕ Nat) (List Word)
  | 0, _ => .ok []
  | n + 1, va => match s.fetchWord ctx core va with
    | .error e => .error e
    | .ok w => match s.fetchWords ctx core (lengthOf w - 1) (va + 4) with
      | .error e => .error e
      | .ok ws => match s.fetchInstrs ctx core n (va + 4 * lengthOf w) with
        | .ok rest => .ok (w :: ws ++ rest)
        | .error e => .error e

/-- What a fetch of `n` bytes of lane code leaves: the lines that the instruction cache does not hold are read through L2 (R58), and
so are the entries of tables that translate them. -/
def State.fetched (s : State) (ctx core va n : Nat) : State :=
  let m : Mode := { kind := .fetch, core }
  (List.range ((va % 128 + n + 127) / 128)).foldl (fun s k =>
    let a := (va / 128 * 128 + 128 * k) % 2 ^ 64
    match s.translate ctx m a with
    | .ok p l =>
      if s.lines.any fun x => x.core == core && (x.loc, x.addr) == p.line then s
      else (s.tableReads ctx m a 1).homeRuns false [(some p, 1, l)]
    | _ => s) s

/-- A clause header at an address: none where it fails R180. A word that cannot be fetched is found before the header is judged.
DESIGN CHOICE: log 76. -/
def State.fetchHeader (s : State) (ctx core : Nat) (va : Nat) : Except (Trap ⊕ Nat) (Option Header) :=
  match s.fetchWords ctx core 3 va with
  | .ok [a, b, c] => .ok (if va % 4 = 0 then Header.ofWords a b c else none)
  | .ok _ => .ok none
  | .error e => .error e

/-- What a class would issue under: its header, or what is left of a clause it stands inside (R416). -/
def State.headerAt (s : State) (g : Group) (t : Lane) : Except (Trap ⊕ Nat) (Option Header) :=
  match t.mid with
  | some m => .ok (some ⟨false, false, m.wait, m.left, m.setA, m.setB, 0⟩)
  | none => s.fetchHeader g.ctx g.core t.pc.toNat

/-- Whether a Ready thread stands at a safe-point clause that it has not issued, R428. -/
def State.atSafePoint (s : State) (g : Group) (t : Lane) : Bool :=
  t.mid.isNone && (match s.fetchHeader g.ctx g.core t.pc.toNat with | .ok (some h) => h.safe | _ => false)

/-- R183: the registers that a safe point's LIVE mask clears in one thread. -/
def Lane.applyLive (t : Lane) (live : Word) : Lane :=
  { t with
    slots := t.slots.filter fun c =>
      !(decide (t.wb ≤ c.1) && decide (c.1 < t.wb + t.f) && !bit live.toNat ((c.1 - t.wb) / 32))
    bad := t.bad.filter fun k =>
      !(decide (t.wb ≤ k) && decide (k < t.wb + t.f) && !bit live.toNat ((k - t.wb) / 32)) }

/-! ### Issue classes, R173, R175 -/

/-- The lanes of a group that form one class with a lane.
DEDUCED: log 27. -/
def Group.classOf (g : Group) (l : Nat) : List Nat :=
  let t := g.lane l
  (List.range 32).filter fun k =>
    let u := g.lane k
    u.st == .ready && u.pc == t.pc && u.meet == t.meet && u.mid == t.mid

/-- The lowest lanes of the Ready classes, in the cyclic order after λ. -/
def Group.classHeads (g : Group) : List Nat :=
  let heads := (List.range 32).filter fun l =>
    (g.lane l).st == .ready && (g.classOf l).headD 32 == l
  (heads.filter fun l => decide (g.lam < l)) ++ heads.filter fun l => decide (l ≤ g.lam)

/-- Whether a wait mask and a safe point allow issue, R181, R183. -/
def Group.flagsAllow (g : Group) (h : Header) : Bool :=
  let zero (n : Nat) : Bool := g.flags.getD n 0 == 0
  ((List.range 12).all fun n => !bit h.wait n || zero n) && (!h.safe || (List.range 12).all zero)

/-- Whether a group issues at all: no lane Stopped (R415), not mapped into the debug window (R425). -/
def State.mayIssue (s : State) (g : Group) : Bool :=
  (g.lanes.all fun t => t.st != .stopped) && (s.coreAt g.core).dwinSlot != some g.slot
    && !(s.issues.any fun i => i.core == g.core && i.slot == g.slot)

/-- Whether pre-emption holds a group: a quiescent group issues nothing further (R428). -/
def State.quiescent (s : State) (g : Group) : Bool :=
  (g.flags.all fun f => f == 0)
    && !(s.issues.any fun i => i.core == g.core && i.slot == g.slot)
    && ((g.lanes.any fun t => t.st == .stopped)
        || g.lanes.all fun t => t.st != .ready || s.atSafePoint g t)

/-! ### The control core's code, R372 -/

/-- Whether a control core performs code: after Stage 2 entry, unless it is fused off or halted (R448, R450). -/
def State.ctlRuns (s : State) (core : Nat) : Bool := s.stage == .stage2 && s.coreOn core

/-- The words at a control core's program counter, up to those of the longest form. -/
def State.ctlWords (s : State) (core : Nat) : List Word :=
  (List.range 5).map fun k => BitVec.ofNat 32 (s.code.rd (((s.coreAt core).ctlPc.toNat + 4 * k) % 2 ^ 64) 4)

end Sys2Proof.Machine
end

