-- ==== Sys2Proof/Machine/Stream.lean ====
section
/-!
DEFINITION. Matrix streams (R197 to R200, R347 to R355): their traps, their instructions, and the end of their fetch.
-/
namespace Sys2Proof.Machine

/-- The team whose stream performs the current instruction. -/
def State.streamTeam (s : State) : Option Team := s.team? s.cur.slot

def Team.updStream (t : Team) (f : Stream → Stream) : Team := { t with stream := t.stream.map f }

/-- R349, R423: a stream that fails a check traps to its core's control core and is not resumed: the trap ends its
context. An uncorrectable error that it reads ends the context too (R79). The record of a window or tile violation names SOURCE 3,
with the offset, or 0 for a tile, as its VA.
DEDUCED: log 22. DESIGN CHOICE: log 80. -/
def State.streamTrap (s : State) (team : Nat) (t : Trap) : State :=
  match s.team? team with
  | none => s
  | some m =>
    let core := m.coreAt 0
    let n := m.ctx
    let s := (s.signal core).noteTrapUe t
    let die := s.physDie (dieOf core)
    let idx := match m.stream with | some x => x.idx | none => 0
    let r : TrapRec := { cause := t.cause, detail := t.detail, stream := true, die, core := coreOf core, group := 0,
                         lane := 0, aux := idx }
    if t.cause = .memUncorrectable then s.endContext n 0
    else
      let s := s.keepFatal n r
      if t.cause.isFault then
        s.fatalFault n t.aux t.detail t.kind { code := 3, die, core := coreOf core } t.level
      else s.endContext n 0

/-! ### One instruction of a stream -/

/-- What one performance of a stream instruction answers. -/
inductive StreamRes where
  | ok (t : Team)
  | goto (t : Team) (idx pos : Nat)
  | trap (e : Trap)
  | hold

/-- R348: the stream passes to the next instruction, and ends beyond its last. -/
def Stream.next (m : Stream) (pos : Nat) : Stream :=
  if m.len ≤ m.idx + 1 then { m with idx := m.idx + 1, pos, st := .ended } else { m with idx := m.idx + 1, pos, st := .running }
def Stream.goto (m : Stream) (idx pos : Nat) : Stream :=
  if m.len ≤ idx then { m with idx, pos, st := .ended } else { m with idx, pos, st := .running }

/-- A stream instruction performed for the current team: a hold leaves the stream before it (R150, R352). -/
def perStream (body : Team → Stream → StreamRes) (s : State) : State :=
  match s.streamTeam with
  | none => s
  | some t => match t.stream with
    | none => s
    | some m => match body t m with
      | .ok t' => s.updTeam t.id fun _ => t'.updStream fun m => m.next s.cur.next.toNat
      | .goto t' idx pos => s.updTeam t.id fun _ => t'.updStream fun m => m.goto idx pos
      | .trap e => s.streamTrap t.id e
      | .hold => s.updTeam t.id fun t => t.updStream fun m => { m with st := .held }

def Stream.reg (m : Stream) (n : Nat) : Nat := (m.m.get n).toNat
def Team.setM (t : Team) (n v : Nat) : Team := t.updStream fun m => { m with m := m.m.set n (BitVec.ofNat 32 v) }

/-- A barrier operation's answer for a stream. -/
def BarRes.stream (r : BarRes) (k : Team → Nat → StreamRes) : StreamRes :=
  match r with
  | .ok t v => k t v
  | .trap e => .trap e
  | .hold => .hold

/-! ### Scalar, barrier and ring instructions, R350 to R352 -/

def execMnop (s : State) : Out := done (perStream (fun t _ => .ok t) s)

def execMset (d : Nat) (x : DWord) (s : State) : Out :=
  done (perStream (fun t _ => .ok (t.setM d (loOf x).toNat)) s)

def execMaddi (d a : Nat) (i : BitVec 12) (s : State) : Out :=
  done (perStream (fun t m => .ok (t.setM d (m.m.get a + i.signExtend 32).toNat)) s)

/-- The index and the word position after the first `mnext` of a counter among the instructions that `ws` holds, the
first of which has index `idx` and stands at word `pos`. -/
def findNext (l : Nat) : Nat → List Word → Nat → Nat → Option (Nat × Nat)
  | 0, _, _, _ => none
  | fuel + 1, ws, idx, pos =>
    match ws with
    | [] => none
    | w :: _ =>
      let n := lengthOf w
      match decodeFor .stream ws with
      | .ok (.mnext k, _) => if k = l then some (idx + 1, pos + n) else findNext l fuel (ws.drop n) (idx + 1) (pos + n)
      | _ => findNext l fuel (ws.drop n) (idx + 1) (pos + n)

/-- R351. -/
def execMloop (l : Nat) (a : Nat ⊕ DWord) (s : State) : Out :=
  done (perStream (fun t m =>
    let pos := s.cur.next.toNat
    let n := match a with | .inl r => m.reg r | .inr x => (loOf x).toNat
    if 3 ≤ m.loops.length ∨ m.loops.any (fun e => e.1 == l) then .trap { cause := .illegalInstr, detail := 5 }
    else match findNext l (m.len - m.idx) (m.words.drop pos) (m.idx + 1) pos with
      | none => .trap { cause := .illegalInstr, detail := 5 }
      | some (idx', pos') =>
        if n = 0 then .goto t idx' pos'
        else .ok (t.updStream fun m => { m with l := updAt m.l l fun _ => n, loops := (l, m.idx + 1, pos) :: m.loops })) s)

/-- R351. -/
def execMnext (l : Nat) (s : State) : Out :=
  done (perStream (fun t m =>
    match m.loops with
    | [] => .trap { cause := .illegalInstr, detail := 5 }
    | (k, idx, pos) :: rest =>
      if k ≠ l then .trap { cause := .illegalInstr, detail := 5 }
      else
        let v := (m.l.getD l 0 + 2 ^ 32 - 1) % 2 ^ 32
        let t := t.updStream fun m => { m with l := updAt m.l l fun _ => v }
        if v ≠ 0 then .goto t idx pos else .ok (t.updStream fun m => { m with loops := rest })) s)

/-- R144: the offset of a barrier object that a stream names by number. -/
def Team.barNo (t : Team) (n : Nat) : Nat := t.barbase + 16 * n

/-- R352. -/
def execMwait (n a : Nat) (s : State) : Out :=
  done (perStream (fun t m =>
    (t.barWait (t.barNo n) (m.reg a) true).stream fun t v => if v = 1 then .ok t else .hold) s)

/-- R352. -/
def execMarr (n : Nat) (s : State) : Out :=
  done (perStream (fun t _ => (t.barArrive (t.barNo n) true).stream fun t _ => .ok t) s)

def execMacq (d a : Nat) (s : State) : Out :=
  done (perStream (fun t m => (t.ringAcquire (m.reg a) true).stream fun t v => .ok (t.setM d v)) s)

def execMrel (a b : Nat) (s : State) : Out :=
  done (perStream (fun t m => (t.ringFinish (m.reg a) (m.reg b) false true).stream fun t _ => .ok t) s)

/-! ### Tiles, R57, R353 to R355 -/

def tileKey (tile row col : Nat) : Nat := 4096 * tile + 64 * row + col
def Team.tileOk (t : Team) (tile : Nat) : Bool := decide (tile < t.tiles)
/-- R79: an element of a tile holds an uncorrectable error. -/
def Team.tileError (t : Team) (tile : Nat) : Bool := t.badAcc.any fun k => k / 4096 == tile
/-- DEDUCED: log 40. -/
def tileTrap : Trap := { cause := .accessViolation, detail := 0x0D }

/-- `mzero`, R350. -/
def execMzero (tile : Nat) (s : State) : Out :=
  done (perStream (fun t _ =>
    if !t.tileOk tile then .trap tileTrap
    else .ok { t with acc := t.acc.zero (4096 * tile) (4096 * tile + 4096),
                      badAcc := t.badAcc.filter fun k => k / 4096 != tile }) s)

end Sys2Proof.Machine
namespace Sys2Proof
/-- RB of R353. -/
def FTy.rowBytes : FTy → Nat
  | .f16 => 128 | .bf16 => 128 | .e4m3 => 64 | .e5m2 => 64 | .e3m2 => 48 | .e2m3 => 48 | .e2m1 => 32
  | .f32 => 256 | .f64 => 512
end Sys2Proof
namespace Sys2Proof.Machine

/-- SZ of R353. -/
def operandSize (t : FTy) (scl : Bool) : Nat := 64 * t.rowBytes + (if scl then 128 else 0)

/-- R232: element `e` of packed bits. -/
def packedAt (t : FTy) (bits e : Nat) : Nat := bits / 2 ^ (t.fmt.width * e) % 2 ^ t.fmt.width

/-- The elements of a row of an operand that form products, with their block scales (R353, R354). -/
def Team.operandRow (tm : Team) (t : FTy) (scl : Bool) (kv off row : Nat) : List FVal :=
  let bits := tm.rd (off + row * t.rowBytes) t.rowBytes
  let n := if kv = 0 then 64 else kv
  let s0 := if scl then tm.rd (off + 64 * t.rowBytes + 2 * row) 1 else 127
  let s1 := if scl then tm.rd (off + 64 * t.rowBytes + 2 * row + 1) 1 else 127
  (List.range n).map fun e => scaled (t.fmt.decode (packedAt t bits e)) (if e < 32 then s0 else s1)

/-- One row of a tile updated, R354. -/
def rowUpdate (acc : Store 32) (key : Nat) (x : List FVal) (ys : List (List FVal)) : Store 32 :=
  (ys.zipIdx).foldl (fun acc y =>
    let k := key + y.2
    acc.set k (BitVec.ofNat 32 (chunkSumAll (acc.get k).toNat (x.zipWith prodOf y.1)))) acc

/-- The checks of R349 on an operand of `mmul`: order 4, then order 5. -/
def Team.operandTrap (tm : Team) (a na b nb : Nat) : Option Trap :=
  if !tm.inWindow a na then some (windowTrap a .read)
  else if !tm.inWindow b nb then some (windowTrap b .read)
  else if a % 128 ≠ 0 ∨ b % 128 ≠ 0 then some { cause := .misaligned, aux := if a % 128 ≠ 0 then a else b }
  else if tm.spadError a na || tm.spadError b nb then some memError
  else none

/-- `mmul` (one band of 64 rows) and `mmulb` (four bands of 16), R354, R355. -/
def multiply (tm : Team) (t : FTy) (scl : Bool) (kv tile a b bands : Nat) : StreamRes :=
  let sz := operandSize t scl
  let step := roundUp sz 128
  if !tm.tileOk tile then .trap tileTrap
  else match tm.operandTrap a sz b ((bands - 1) * step + sz) with
    | some e => .trap e
    | none =>
      if tm.tileError tile then .trap memError
      else
        let rows := 64 / bands
        let acc := (List.range bands).foldl (fun acc k =>
          let ys := (List.range 64).map fun j => tm.operandRow t scl kv (b + k * step) j
          (List.range rows).foldl (fun acc r =>
            let i := k * rows + r
            rowUpdate acc (tileKey tile i 0) (tm.operandRow t scl kv a i) ys) acc) tm.acc
        .ok { tm with acc }

/-- `mmul`, R354. -/
def execMmul (t : FTy) (scl : Bool) (kv tile a b : Nat) (s : State) : Out :=
  done (perStream (fun tm m => multiply tm t scl kv tile (m.reg a) (m.reg b) 1) s)

/-- `mmulb`, R355. -/
def execMmulb (t : FTy) (scl : Bool) (kv tile a b : Nat) (s : State) : Out :=
  done (perStream (fun tm m => multiply tm t scl kv tile (m.reg a) (m.reg b) 4) s)

/-- `mstop`, R200. -/
def execMstop (s : State) : Out :=
  done (match s.streamTeam with
    | none => s
    | some t => s.updTeam t.id fun t => t.updStream fun m => { m with st := .ended })

/-! ### The fetch, R197 -/

/-- `STREAM_FETCH_COMPLETE`: the words of a stream enter the loop buffer, read through L2 and not through the instruction cache (R58),
and it begins, or the fetch waits on a fault of SOURCE 3 (R41). -/
def execStreamFetchComplete (team : Nat) (s : State) : Out :=
  done (match s.team? team with
  | none => s
  | some t => match t.stream with
    | none => s
    | some m =>
      if m.st != .fetching || m.waitOn.isSome || (s.ctxAt t.ctx).saving then s
      else
        let core := t.coreAt 0
        let bare := { s with lines := s.lines.filter fun l => l.core != core }
        match bare.fetchInstrs t.ctx core m.len m.entry.toNat with
        | .ok words =>
          let s := { bare.fetched t.ctx core m.entry.toNat (4 * words.length) with lines := s.lines }
          s.updTeam team fun t => t.updStream fun m => { m with words, st := if m.len = 0 then .ended else .running }
        | .error (.inr page) => s.askPri t.ctx { kind := .fetch, core } page
        | .error (.inl e) =>
          match s.engineFault t.ctx e { code := 3, die := s.physDie (dieOf core), core := coreOf core } with
          | (s, w) => s.updTeam team fun t => t.updStream fun m => { m with waitOn := w })

end Sys2Proof.Machine
end

