-- ==== Sys2Proof/Machine/Acc.lean ====
section
/-!
DEFINITION. Accumulator transfers (R356 to R359).
-/
namespace Sys2Proof.Machine

/-- The keys of the two elements of a row that lane `l` handles. -/
def laneElems (tile row l : Nat) : List Nat := [tileKey tile row (2 * l), tileKey tile row (2 * l + 1)]

/-- The check on the tile, then an uncorrectable error of an element read (R79). -/
def Team.accCheck (tm : Team) (tile : Nat) (read : Bool) (keys : List Nat) : Option Trap :=
  if !tm.tileOk tile then some tileTrap
  else if read && keys.any tm.badAcc.contains then some memError
  else none

/-- The two elements of a lane in a format, with the status bits of the conversion. -/
def Team.accRead (tm : Team) (t : FTy) (e : FEnv) (keys : List Nat) : List Nat × Nat :=
  if t = .f32 then (keys.map fun k => (tm.acc.get k).toNat, 0)
  else
    let rs := keys.zipIdx.map fun k => e.convert t .f32 k.2 (tm.acc.get k.1).toNat
    (rs.map (·.val), rs.foldl (fun a r => a ||| r.fl) 0)

/-- `accrd`, R357. -/
def execAccrd (t : FTy) (r : Rnd) (d : Nat) (tile row : Nat) (f : Nat) (s : State) : Out :=
  done (perLaneLong (.accrd t r d tile row f) f (fun l s =>
    match s.myTeam with
    | none => .trap tileTrap
    | some tm =>
      let keys := laneElems tile row l
      match tm.accCheck tile true keys with
      | some e => .trap e
      | none =>
        let (xs, fl) := tm.accRead t (s.fenv l r) keys
        let ws := if t = .f32 then xs.map (BitVec.ofNat 32)
          else [BitVec.ofNat 32 (xs.getD 0 0 % 2 ^ 16 + xs.getD 1 0 % 2 ^ 16 * 2 ^ 16)]
        .ok s (resultsAt d ws) fl) s)

/-- `accsp`, R358. -/
def execAccsp (t : FTy) (r : Rnd) (a : Src) (tile row : Nat) (s : State) : Out :=
  done (perLane (.accsp t r a tile row) (fun l s =>
    match s.myTeam with
    | none => .trap tileTrap
    | some tm =>
      let keys := laneElems tile row l
      let z := if t = .f32 then 4 else 2
      let base := (s.reg l a 0).toNat
      let off := base + 2 * l * z
      match tm.accCheck tile true keys with
      | some e => .trap e
      | none =>
        if !tm.inWindow off (2 * z) then .trap (windowTrap off .write)
        else if base % (2 * z) ≠ 0 then .trap (misaligned base)
        else if tm.partError off (2 * z) then .trap { cause := .memUncorrectable }
        else
          let (xs, fl) := tm.accRead t (s.fenv l r) keys
          .ok ((s.storeSpad tm.id off z true ((xs.map fun x => leBytes x z).flatten)).orFstat fl) none) s)

/-- R359: a widening to FP32 under no flush of its result and no saturation. -/
def FEnv.exactly (e : FEnv) : FEnv := { e with fmode := e.fmode &&& ~~~0x50000#32 }

/-- `accwr`, R359. -/
def execAccwr (t : FTy) (a : Src) (tile row : Nat) (s : State) : Out :=
  done (perLane (.accwr t a tile row) (fun l s =>
    match s.myTeam with
    | none => .trap tileTrap
    | some tm =>
      let keys := laneElems tile row l
      match tm.accCheck tile false keys with
      | some e => .trap { e with kind := .write }
      | none =>
        let e := (s.fenv l .dyn).exactly
        let x := (s.reg l a 0).toNat
        let rs : List FRes :=
          if t = .f32 then [⟨x, 0⟩, ⟨(s.reg l a 1).toNat, 0⟩]
          else [e.convert .f32 t 0 (x % 2 ^ 16), e.convert .f32 t 1 (x / 2 ^ 16)]
        let put (tm : Team) : Team :=
          { tm with acc := (keys.zip rs).foldl (fun acc k => acc.set k.1 (BitVec.ofNat 32 k.2.val)) tm.acc,
                    badAcc := tm.badAcc.filter fun k => !keys.contains k }
        .ok ((s.updTeam tm.id put).orFstat (rs.foldl (fun a r => a ||| r.fl) 0)) none) s)

end Sys2Proof.Machine
end

