-- ==== Sys2Proof/Machine/Frame.lean ====
section
/-!
DEFINITION. A render launch's descriptor and its conditions (R375, R376), and what a render launch holds when it is
accepted: patches dealt to dies (R380) and buckets (R383).
-/
namespace Sys2Proof.Machine

/-- Comparison of values; a NaN compares with nothing. -/
def FVal.le (x y : FVal) : Bool :=
  match x, y with
  | .nan _ _, _ => false
  | _, .nan _ _ => false
  | .inf s, .inf s' => s || !s'
  | .inf s, _ => s
  | _, .inf s => !s
  | x, y => (Dy.ofVal x).le (Dy.ofVal y)

/-- A word as an FP32 value. -/
def f32 (x : Nat) : FVal := FTy.f32.fmt.decode x
def FVal.finite (x : FVal) : Bool := !x.isNan && !x.isInf

/-! ### The render descriptor, R375 -/

abbrev RDesc := List Word

def RDesc.w (r : RDesc) (off : Nat) : Nat := (r.getD (off / 4) 0).toNat
def RDesc.d (r : RDesc) (off : Nat) : Nat := r.w off + r.w (off + 4) * 2 ^ 32
def RDesc.patches (r : RDesc) : Nat := r.d 0
def RDesc.npatch (r : RDesc) : Nat := r.w 8
def RDesc.height (r : RDesc) : Nat := bits (r.w 0xC) 31 16 + 1
def RDesc.width (r : RDesc) : Nat := bits (r.w 0xC) 15 0 + 1
def RDesc.bszCode (r : RDesc) : Nat := bits (r.w 0x10) 31 30
def RDesc.bucket (r : RDesc) : Nat := 16 * 2 ^ r.bszCode
def RDesc.sppCode (r : RDesc) : Nat := bits (r.w 0x10) 29 28
def RDesc.spp (r : RDesc) : Nat := 16 * 2 ^ r.sppCode
def RDesc.gauss (r : RDesc) : Bool := bit (r.w 0x10) 27
def RDesc.half (r : RDesc) : Bool := bit (r.w 0x10) 26
def RDesc.srole (r : RDesc) : Nat := bits (r.w 0x10) 25 24
def RDesc.rate (r : RDesc) : Nat := bits (r.w 0x14) 7 0
def RDesc.splitAt (r : RDesc) : Nat := r.w 0x18
def RDesc.frameNo (r : RDesc) : Word := BitVec.ofNat 32 (r.w 0x1C)
def RDesc.znear (r : RDesc) : Nat := r.w 0x20
def RDesc.zfar (r : RDesc) : Nat := r.w 0x24
def RDesc.outbase (r : RDesc) : Nat := r.d 0x28
def RDesc.opitch (r : RDesc) : Nat := r.w 0x30
def RDesc.depth (r : RDesc) : Nat := r.d 0x38
def RDesc.normal (r : RDesc) : Nat := r.d 0x40
def RDesc.spill (r : RDesc) : Nat := r.d 0x48
def RDesc.spillSize (r : RDesc) : Nat := r.d 0x50
def RDesc.statsAt (r : RDesc) : Nat := r.d 0x58
def RDesc.oqAt (r : RDesc) : Nat := r.d 0x60
def RDesc.rstat (r : RDesc) : Nat := r.d 0x68

/-- R375: every field meets its condition; R376 on SROLE. -/
def RDesc.valid (r : RDesc) (roles : List Role) : Bool :=
  decide (r.patches % 256 = 0) && decide (1 ≤ r.npatch) && decide (r.npatch ≤ 2 ^ 24)
    && decide (r.height ≤ 16384) && decide (r.width ≤ 16384) && r.bszCode != 3 && r.sppCode != 3
    && bits (r.w 0x10) 23 0 == 0 && bits (r.w 0x14) 31 8 == 0 && decide (8 ≤ r.rate) && decide (r.rate ≤ 32)
    && (f32 r.splitAt).finite && (f32 0x3F800000).le (f32 r.splitAt)
    && (f32 0).le (f32 r.znear) && (f32 r.znear).le (f32 r.zfar)
    && r.outbase % 16 == 0 && r.opitch % 16 == 0 && decide (r.width * (if r.half then 8 else 16) ≤ r.opitch)
    && r.w 0x34 == 0 && r.depth % 4 == 0 && r.normal % 4 == 0 && r.spill % 4096 == 0 && r.spillSize % 4096 == 0
    && r.spillSize != 0 && r.statsAt % 8 == 0 && r.oqAt % 8 == 0 && r.rstat % 8 == 0
    && r.d 0x70 == 0 && r.d 0x78 == 0
    && r.srole != 0 && (match roles[r.srole]? with | some x => x.task | none => false)

/-! ### Patches and buckets at acceptance -/

/-- R380: the patches of a die, of `d` dies. -/
def patchesOf (r : RDesc) (d die : Nat) : List Nat := (List.range r.npatch).filter fun n => n / 64 % d == die

/-- R383: the die that owns a bucket. -/
def bucketDie (d bx bcol : Nat) : Nat := if d = 4 then bx / 2 % 2 + 2 * (bcol / 2 % 2) else 0

/-- R383: the buckets in ascending number. -/
def bucketsOf (r : RDesc) (d : Nat) : List Bucket :=
  let nbx := ceilDiv r.width r.bucket
  (List.range (nbx * ceilDiv r.height r.bucket)).map fun n =>
    { id := n, no := n, x := n % nbx * r.bucket, y := n / nbx * r.bucket, size := r.bucket,
      die := bucketDie d (n % nbx) (n / nbx) }

/-- What a render launch holds at acceptance. -/
def Render.start (r : RDesc) (d : Nat) : Render :=
  { desc := r, todo := (List.range d).map fun die => (die, patchesOf r d die), buckets := bucketsOf r d }

/-- R386. -/
def Grid.complete (g : Grid) : Bool := g.open_ == 0
/-- R390: every patch has been diced and every grid is complete. -/
def Render.allShaded (r : Render) : Bool :=
  r.todo.all (fun x => x.2.isEmpty) && r.held.isEmpty && r.grids.all Grid.complete
def Render.allCommitted (r : Render) : Bool := r.buckets.all fun b => b.st == .committed

/-- R377: a render launch holds its teams. One that has aborted commits no further bucket (R389) and waits for none. -/
def Render.holdsTeams (r : Render) : Bool :=
  !r.held.isEmpty || !r.grids.all Grid.complete || (!r.abort && !(r.allShaded && r.allCommitted))

end Sys2Proof.Machine
end

