-- ==== Sys2Proof/Machine/Dice.lean ====
section
/-!
DEFINITION. Patches and their dicing: the patch record and its conditions (R378, R379), splitting and dicing (R381), the
grids with their vertices (R382) and windows (R384), as functions of the record alone.
-/
namespace Sys2Proof.Machine

/-! ### FP32 with `%fmode` at reset -/

def renderEnv : FEnv := { fmode := 1, rm := 1, seed := 0, idx := 0 }
def r32add (a b : Nat) : Nat := (faddE .f32 renderEnv 0 [a, b]).val
def r32sub (a b : Nat) : Nat := (fsubE .f32 renderEnv 0 [a, b]).val
def r32mul (a b : Nat) : Nat := (fmulE .f32 renderEnv 0 [a, b]).val
def r32fma (a b c : Nat) : Nat := (ffmaE .f32 renderEnv 0 [a, b, c]).val
def r32min (a b : Nat) : Nat := (fminmaxE false .f32 renderEnv 0 [a, b]).val
def r32max (a b : Nat) : Nat := (fminmaxE true .f32 renderEnv 0 [a, b]).val
def r32abs (a : Nat) : Nat := a % 2 ^ 31
def one32 : Nat := 0x3F800000

/-- The exact value of a finite word; an infinity stands beyond every finite value of FP32 and every sum of two. -/
def exact32 (x : Nat) : Dy :=
  match f32 x with
  | .fin s m e => ⟨if s then -(m : Int) else m, e⟩
  | .inf s => ⟨if s then -1 else 1, 200⟩
  | .nan _ _ => ⟨0, 0⟩

def Dy.floor (a : Dy) : Int := if 0 ≤ a.e then a.n * (pow2 a.e : Nat) else a.n / (pow2 (-a.e) : Nat)
def Dy.max (a b : Dy) : Dy := if a.lt b then b else a
def Dy.min (a b : Dy) : Dy := if b.lt a then b else a
/-- round(a ÷ b) to FP32 with mode 1, of R235; a zero is positive. -/
def round32 (a b : Dy) : Nat :=
  if a.n = 0 ∨ b.n = 0 then 0
  else (FTy.f32.fmt.roundFrac 1 0 false (decide (a.n < 0) != decide (b.n < 0)) (a.num * b.den) (a.den * b.num)).val

/-! ### The patch record, R378, R379 -/

/-- A point: x, y, z as FP32 words. -/
abbrev P3 := Nat × Nat × Nat

def P3.map2 (f : Nat → Nat → Nat) (p q : P3) : P3 := (f p.1 q.1, f p.2.1 q.2.1, f p.2.2 q.2.2)
def P3.finite (p : P3) : Bool := (f32 p.1).finite && (f32 p.2.1).finite && (f32 p.2.2).finite

abbrev PatchRec := List Word

def PatchRec.w (r : PatchRec) (off : Nat) : Nat := (r.getD (off / 4) 0).toNat
def PatchRec.bicubic (r : PatchRec) : Bool := bit (r.w 0) 31
def PatchRec.oqe (r : PatchRec) : Bool := bit (r.w 0) 6
def PatchRec.oq (r : PatchRec) : Nat := bits (r.w 0) 5 0
def PatchRec.pad (r : PatchRec) : Nat := r.w 4
def PatchRec.entry (r : PatchRec) : DWord := BitVec.ofNat 64 (r.w 8 + r.w 0xC * 2 ^ 32)
def PatchRec.user (r : PatchRec) : Nat := r.w 0x10
def PatchRec.point (r : PatchRec) (m : Nat) : P3 := (r.w (0x20 + 12 * m), r.w (0x24 + 12 * m), r.w (0x28 + 12 * m))
/-- Control points per row, and rows. -/
def PatchRec.order (r : PatchRec) : Nat := if r.bicubic then 4 else 2
/-- The control points, row by row. -/
def PatchRec.rows (r : PatchRec) : List (List P3) :=
  (List.range r.order).map fun l => (List.range r.order).map fun k => r.point (r.order * l + k)

/-- R379.
DEDUCED: log 44. -/
def PatchRec.valid (r : PatchRec) : Bool :=
  bits (r.w 0) 30 7 == 0 && (f32 r.pad).finite && (f32 0).le (f32 r.pad)
    && r.w 0x14 == 0 && r.w 0x18 == 0 && r.w 0x1C == 0
    && (List.range 8).all (fun k => r.w (0xE0 + 4 * k) == 0)
    && r.rows.all fun row => row.all P3.finite

/-! ### Splitting, R381 -/

/-- A sub-patch: its control points row by row and its parameter range. -/
structure Sub where
  rows : List (List P3)
  u0 : Dy
  u1 : Dy
  v0 : Dy
  v1 : Dy

def mid (p q : Nat) : Nat := r32mul 0x3F000000 (r32add p q)
def mid3 (p q : P3) : P3 := P3.map2 mid p q

/-- One row split at parameter ½. -/
def splitRow : List P3 → List P3 × List P3
  | [a, b] => ([a, mid3 a b], [mid3 a b, b])
  | [a, b, c, d] =>
    let ab := mid3 a b
    let bc := mid3 b c
    let cd := mid3 c d
    let abc := mid3 ab bc
    let bcd := mid3 bc cd
    let abcd := mid3 abc bcd
    ([a, ab, abc, abcd], [abcd, bcd, cd, d])
  | ps => (ps, ps)

def transpose (n : Nat) (rows : List (List P3)) : List (List P3) :=
  (List.range n).map fun k => rows.map fun row => row.getD k (0, 0, 0)

def halfway (a b : Dy) : Dy := let s := a.add b; ⟨s.n, s.e - 1⟩

def Sub.splitU (p : Sub) : Sub × Sub :=
  let m := halfway p.u0 p.u1
  ({ p with rows := p.rows.map fun r => (splitRow r).1, u1 := m },
   { p with rows := p.rows.map fun r => (splitRow r).2, u0 := m })
def Sub.splitV (p : Sub) : Sub × Sub :=
  let n := p.rows.length
  let m := halfway p.v0 p.v1
  let cols := transpose n p.rows
  ({ p with rows := transpose n (cols.map fun r => (splitRow r).1), v1 := m },
   { p with rows := transpose n (cols.map fun r => (splitRow r).2), v0 := m })

def cheb (p q : P3) : Nat := r32max (r32abs (r32sub q.1 p.1)) (r32abs (r32sub q.2.1 p.2.1))

/-- The sum of the lengths along one row, ascending. -/
def rowLength (row : List P3) : Nat :=
  match row.zipWith cheb (row.drop 1) with
  | [] => 0
  | c :: cs => cs.foldl r32add c
def longest (rows : List (List P3)) : Nat :=
  match rows.map rowLength with
  | [] => 0
  | x :: xs => xs.foldl r32max x

/-- The least n ≥ 1 with n × rate ≥ L; 2^40 where L is not finite, so that no n is. -/
def diceCount (rate len : Nat) : Nat :=
  let x := exact32 len
  if !(f32 len).finite then 2 ^ 40
  else Nat.max 1 (ceilDiv (16 * x.num) (rate * x.den))

/-- The bound of control points along one coordinate. A NaN among them, which only overflow within a split can make, has
no place in the order: the bound is then a free value. -/
def boundOf (pick : P3 → Nat) (rows : List (List P3)) : Dy × Dy :=
  let ps := rows.flatten.map pick
  if ps.any fun p => (f32 p).isNan then
    let free (k : Nat) : Dy := ⟨(Config.openBound ps k).1, (Config.openBound ps k).2⟩
    (free 0, free 1)
  else
    let xs := ps.map exact32
    (xs.foldl Dy.min (xs.headD ⟨0, 0⟩), xs.foldl Dy.max (xs.headD ⟨0, 0⟩))

structure Bound where
  x0 : Dy
  x1 : Dy
  y0 : Dy
  y1 : Dy

def Sub.bound (p : Sub) : Bound :=
  let (x0, x1) := boundOf (·.1) p.rows
  let (y0, y1) := boundOf (·.2.1) p.rows
  ⟨x0, x1, y0, y1⟩

/-- R381, item 1: the bound grown by PAD lies outside a frame of w × h pixels. -/
def Bound.outside (b : Bound) (pad : Dy) (w h : Nat) : Bool :=
  (b.x1.add pad).lt ⟨0, 0⟩ || (Dy.int w).le (b.x0.sub pad) || (b.y1.add pad).lt ⟨0, 0⟩ || (Dy.int h).le (b.y0.sub pad)

/-- A sub-patch to dice: its grid of nu × nv micropolygons. -/
structure Diced where
  sub : Sub
  nu : Nat
  nv : Nat

/-- R381: what a sub-patch of depth 24 − fuel yields, in order. -/
def diceGo (r : RDesc) (pad : Dy) : Nat → Sub → List Diced
  | fuel, p =>
    let b := p.bound
    if b.outside pad r.width r.height then []
    else
      let lu := longest p.rows
      let lv := longest (transpose p.rows.length p.rows)
      let nu := diceCount r.rate lu
      let nv := diceCount r.rate lv
      let wide := (exact32 r.splitAt).lt (Dy.max (b.x1.sub b.x0) (b.y1.sub b.y0))
      match fuel with
      | 0 => [⟨p, Nat.min nu 15, Nat.min nv 15⟩]
      | k + 1 =>
        if wide || decide (15 < nu) || decide (15 < nv) then
          let (a, c) := if (f32 lv).le (f32 lu) then p.splitU else p.splitV
          diceGo r pad k a ++ diceGo r pad k c
        else [⟨p, nu, nv⟩]

def PatchRec.dice (r : RDesc) (p : PatchRec) : List Diced :=
  diceGo r (exact32 p.pad) 24 ⟨p.rows, ⟨0, 0⟩, ⟨1, 0⟩, ⟨0, 0⟩, ⟨1, 0⟩⟩

/-! ### Grids, R382, R384 -/

def lerp3 (s : Nat) (p q : P3) : P3 := P3.map2 (fun p q => r32fma s (r32sub q p) p) p q

/-- Points reduced to one at s, level by level. -/
def deCasteljau (s : Nat) : Nat → List P3 → P3
  | 0, ps => ps.headD (0, 0, 0)
  | n + 1, ps => deCasteljau s n (ps.zipWith (lerp3 s) (ps.drop 1))

/-- The position of vertex (i, j). -/
def Diced.position (d : Diced) (i j : Nat) : P3 :=
  let s := round32 (Dy.int i) (Dy.int d.nu)
  let t := round32 (Dy.int j) (Dy.int d.nv)
  let n := d.sub.rows.length - 1
  deCasteljau t n (d.sub.rows.map (deCasteljau s n))

/-- round(a + i × (b − a) ÷ n). -/
def paramAt (a b : Dy) (i n : Nat) : Nat :=
  round32 ((a.mul (Dy.int n)).add ((Dy.int i).mul (b.sub a))) (Dy.int n)

/-- R384: the window of a grid, as px and py ranges within the frame; empty where a low end lies above its high end. -/
def Diced.window (d : Diced) (r : RDesc) (pad : Dy) : Int × Int × Int × Int :=
  let b := d.sub.bound
  let lo (x : Dy) : Int := max 0 (x.sub pad).floor
  let hi (x : Dy) (n : Nat) : Int := min ((n : Int) - 1) (x.add pad).floor
  (lo b.x0, hi b.x1 r.width, lo b.y0, hi b.y1 r.height)

def Grid.vertices (g : Grid) : Nat := (g.nu + 1) * (g.nv + 1)

/-- The grid of a token. -/
def Diced.grid (d : Diced) (r : RDesc) (p : PatchRec) (n g : Nat) : Grid :=
  { patch := n, g, nu := d.nu, nv := d.nv, window := d.window r (exact32 p.pad), oqe := p.oqe, oq := p.oq,
    verts := List.replicate ((d.nu + 1) * (d.nv + 1)) none, open_ := (d.nu + 1) * (d.nv + 1) }

/-- R392: the argument record of vertex k. -/
def Diced.args (d : Diced) (r : RDesc) (p : PatchRec) (n g k : Nat) : List Word :=
  let i := k % (d.nu + 1)
  let j := k / (d.nu + 1)
  let (x, y, z) := d.position i j
  let at_ := r.patches + 256 * n
  [k, i + j * 2 ^ 8 + d.nu * 2 ^ 16 + d.nv * 2 ^ 24, paramAt d.sub.u0 d.sub.u1 i d.nu, paramAt d.sub.v0 d.sub.v1 j d.nv,
   x, y, z, n, g, p.user, at_ % 2 ^ 32, at_ / 2 ^ 32 % 2 ^ 32, round32 (d.sub.u1.sub d.sub.u0) (Dy.int d.nu),
   round32 (d.sub.v1.sub d.sub.v0) (Dy.int d.nv), 0, 0].map (BitVec.ofNat 32)

end Sys2Proof.Machine
end

