-- ==== Sys2Proof/Machine/Neural.lean ====
section
/-!
DEFINITION. Neural evaluation (R360 to R366): requests and windows, the read of a network at the close of its window, the
rows, and the passes.
-/
namespace Sys2Proof.Machine

/-! ### Windows, R363 -/

/-- CYC of a core's die, with its limits.
DEDUCED: log 33. -/
def State.windowCycles (s : State) (core : Nat) : Nat :=
  Nat.min 4096 (Nat.max 64 (bits (s.dieAt (dieOf core)).mfldWin.toNat 12 0))

def Window.isKey (w : Window) (core ctx : Nat) (handle : DWord) : Bool :=
  w.core == core && w.ctx == ctx && w.handle == handle && !w.closed

def State.openWindows (s : State) (core : Nat) : Nat := (s.windows.filter fun w => w.core == core && !w.closed).length

/-- A request joins or opens a window, or waits. -/
def State.enterWindow (s : State) (r : Request) : State :=
  if s.windows.any fun w => w.isKey r.core r.ctx r.handle then
    { s with windows := s.windows.map fun w =>
        if w.isKey r.core r.ctx r.handle then { w with rows := w.rows ++ [r.row] } else w }
  else if s.openWindows r.core < Config.manifoldWindows then
    { s with windows := s.windows ++ [{ core := r.core, ctx := r.ctx, handle := r.handle, rows := [r.row],
                                        since := (s.coreAt r.core).clk.toNat }] }
  else { s with requests := s.requests ++ [r] }

/-! ### The network, R361 -/

structure NetLayer where
  nin : Nat
  nout : Nat
  act : Nat
  waddr : Nat

/-- The fields of a network descriptor that R361 fixes; none where it reserves or forbids one. -/
def layersOf (xs : List Byte) : Option (Bool × List NetLayer) :=
  let w (off : Nat) : Nat := leNat ((xs.drop off).take 4)
  let lm1 := bits (w 0) 2 0
  let width (off : Nat) : Nat := bits (w off) 14 8 + 1
  let entry (l : Nat) : Nat := 0x10 + 16 * l
  let ok := bits (w 0) 31 15 == 0 && bits (w 0) 7 3 == 0 && decide (width 0 ≤ 64) && bits (w 4) 31 2 == 0
    && decide (bits (w 4) 1 0 < 2) && w 8 == 0 && w 0xC == 0
    && (List.range (lm1 + 1)).all fun l =>
        let e := entry l
        bits (w (e + 8)) 31 15 == 0 && decide (width (e + 8) ≤ 64) && bits (w (e + 8)) 7 2 == 0 && w (e + 0xC) == 0
  if ok then
    some (bits (w 4) 1 0 == 1, (List.range (lm1 + 1)).map fun l =>
      { nin := if l = 0 then width 0 else width (entry (l - 1) + 8), nout := width (entry l + 8),
        act := bits (w (entry l + 8)) 1 0, waddr := w (entry l) + w (entry l + 4) * 2 ^ 32 })
  else none

/-! ### The evaluation, R362 -/

def canon32 (x : Nat) : Nat := if (f32 x).isNan then FTy.f32.fmt.nanBits else x

/-- bf(): an FP32 word rounded to BF16. -/
def toBf (x : Nat) : Nat :=
  match f32 x with
  | .nan _ _ => FTy.bf16.fmt.nanBits
  | .inf s => FTy.bf16.fmt.signBits s + FTy.bf16.fmt.infBits
  | v => (FTy.bf16.fmt.roundDy 1 0 v.neg? (Dy.ofVal v)).val

def tanh32 (x : Nat) : Nat := (renderEnv.special .tanh .f32 0 x).val

def half (y : Nat) : Nat := r32mul 0x3F000000 y

/-- act(y) of R362; every NaN result is the canonical one. -/
def activate (act y : Nat) : Nat :=
  canon32 (match act with
    | 0 => y
    | 1 => if (f32 y).isNan then y else if (f32 y).le (f32 0) then 0 else y
    | 2 => tanh32 y
    | _ => r32add (half (tanh32 (half y))) 0x3F000000)

/-- A layer with its weights and biases as read: for each output its bias and its elements. -/
structure Weights where
  layer : NetLayer
  rows : List (Nat × List FVal)

/-- One layer applied to BF16 inputs: FP32 outputs. -/
def Weights.apply (w : Weights) (x : List Nat) : List Nat :=
  let xs := (x.take w.layer.nin).map FTy.bf16.fmt.decode
  w.rows.map fun r => activate w.layer.act (chunkSumAll r.1 (r.2.zipWith prodOf xs))

def evalLayers : List Weights → List Nat → List Nat
  | [], x => x
  | [w], x => w.apply x
  | w :: ws, x => evalLayers ws ((w.apply x).map toBf)

/-- The elements of a row's inputs, as BF16. -/
def Row.inputs (r : Row) : List Nat :=
  if r.t = .f32 then r.ins.map fun w => toBf w.toNat
  else (r.ins.map fun w => [w.toNat % 2 ^ 16, w.toNat / 2 ^ 16]).flatten

def Row.capacity (r : Row) (regs : Nat) : Nat := if r.t = .f32 then regs else 2 * regs

/-- The registers that a row's outputs fill. -/
def Row.outputs (r : Row) (ys : List Nat) : List Word :=
  if r.t = .f32 then (List.range r.nout).map fun k => BitVec.ofNat 32 (ys.getD k 0)
  else (List.range r.nout).map fun k =>
    BitVec.ofNat 32 (toBf (ys.getD (2 * k) 0) + toBf (ys.getD (2 * k + 1) 0) * 2 ^ 16)

/-! ### The close of a window, R363, R365 -/

/-- A read of the manifold for a window, at the home slices. -/
def State.manifoldRead (s : State) (w : Window) (va n : Nat) : Except (State × Option Nat) (State × List Byte) :=
  let r := w.rows.headD ⟨0, 0, 0, .f32, [], 0, 0, 0, 0, [], none⟩
  let who := match s.group? w.core r.slot with | some g => s.launchOf g | none => 0
  match s.engineCheck w.ctx who (s.laneSource 4 w.core r.slot r.lane r.pc) { kind := .read, core := w.core } va n with
  | .error e => .error e
  | .ok (s, runs) => .ok (s.homeRuns false runs, s.rdRuns runs)

/-- The weights and biases of a layer. -/
def State.readLayer (s : State) (w : Window) (fp8 : Bool) (l : NetLayer) : Except (State × Option Nat) (State × Weights) :=
  let rb := if fp8 then 64 else 128
  match s.manifoldRead w l.waddr (l.nout * rb + 4 * l.nout) with
  | .error e => .error e
  | .ok (s, xs) =>
    let t := if fp8 then FTy.e4m3 else FTy.bf16
    let z := if fp8 then 1 else 2
    .ok (s, { layer := l, rows := (List.range l.nout).map fun o =>
      (leNat ((xs.drop (l.nout * rb + 4 * o)).take 4),
       (List.range l.nin).map fun i => t.fmt.decode (leNat ((xs.drop (o * rb + z * i)).take z))) })

def State.readLayers (s : State) (w : Window) (fp8 : Bool) :
    List NetLayer → Except (State × Option Nat) (State × List Weights)
  | [] => .ok (s, [])
  | l :: ls => match s.readLayer w fp8 l with
    | .error e => .error e
    | .ok (s, x) => match s.readLayers w fp8 ls with
      | .error e => .error e
      | .ok (s, xs) => .ok (s, x :: xs)

/-- The rows of a window with what its reads give each: outputs, or the trap of its lane. -/
def State.loadRows (s : State) (w : Window) : Except (State × Option Nat) (State × List Row) :=
  let all (c : Cause) (d : Nat) : List Row := w.rows.map fun r => { r with trap := some (c, d) }
  match s.manifoldRead w w.handle.toNat 144 with
  | .error e => .error e
  | .ok (s, xs) => match layersOf xs with
    | none => .ok (s, all .nevalHandle 2)
    | some (fp8, ls) =>
      if ls.any fun l => decide (2 ^ 52 ≤ l.waddr) || l.waddr % 128 != 0 then .ok (s, all .nevalWeights 1)
      else match s.readLayers w fp8 ls with
        | .error e => .error e
        | .ok (s, ws) =>
          let nin := (ls.map NetLayer.nin).headD 0
          let nout := (ls.map NetLayer.nout).getLastD 0
          .ok (s, w.rows.map fun r =>
            if r.capacity r.ins.length < nin ∨ r.capacity r.nout < nout then { r with trap := some (.nevalHandle, 3) }
            else { r with outs := r.outputs (evalLayers ws r.inputs) })

/-- The reads at the close of the window in place `k`; they acquire at device scope (R127), so that the core's L1 is not consulted
for what its threads read after them (R60). -/
def State.loadWindow (s : State) (k : Nat) : State :=
  match s.windows[k]? with
  | none => s
  | some w =>
    if !w.closed || w.loaded || w.waitOn.isSome then s
    else if w.rows.isEmpty then { s with windows := updAt s.windows k fun w => { w with loaded := true } }
    else match s.loadRows w with
      | .ok (s, rows) => { s.acquire w.core with windows := updAt s.windows k fun w => { w with rows, loaded := true } }
      | .error (s, none) => s
      | .error (s, some id) => { s with windows := updAt s.windows k fun w => { w with waitOn := some id } }

/-- The open window in place `k` closes: it stands last among the windows, and its network is read.
DEDUCED: log 36. -/
def State.shutWindow (s : State) (k : Nat) : State :=
  match s.windows[k]? with
  | none => s
  | some w =>
    let s := { s with windows := s.windows.eraseIdx k ++ [{ w with closed := true }] }
    s.loadWindow (s.windows.length - 1)

/-- Whether a window can take a request. -/
def State.admits (s : State) (r : Request) : Bool :=
  (s.windows.any fun w => w.isKey r.core r.ctx r.handle) || decide (s.openWindows r.core < Config.manifoldWindows)

/-- Windows of a core with 256 rows close, and waiting requests enter windows in order of arrival. -/
def State.admitNext (s : State) (core : Nat) : Nat → State
  | 0 => s
  | n + 1 =>
    match s.windows.findIdx? fun w => w.core == core && !w.closed && decide (Config.windowRows ≤ w.rows.length) with
    | some k => (s.shutWindow k).admitNext core n
    | none => match s.requests.find? fun r => r.core == core && s.admits r with
      | some r => (State.enterWindow { s with requests := s.requests.erase r } r).admitNext core n
      | none => s

/-- Moves that admission can take: each request enters once, and each closes a window at most once. -/
def State.admitFuel (s : State) : Nat := 2 * s.requests.length + 2

def State.closeWindow (s : State) (k : Nat) : State :=
  match s.windows[k]? with
  | none => s
  | some w => if w.closed then s else (s.shutWindow k).admitNext w.core s.admitFuel

/-- Every open window of a core closes, in order of opening. -/
def State.closeAll (s : State) (core : Nat) : Nat → State
  | 0 => s
  | n + 1 => match s.windows.findIdx? fun w => w.core == core && !w.closed with
    | some k => (s.closeWindow k).closeAll core n
    | none => s

/-- A request of a lane reaches its core's manifold.
DEDUCED: log 36. -/
def State.request (s : State) (r : Request) : State := (s.enterWindow r).admitNext r.core s.admitFuel

/-! ### `neval`, R360 -/

def execNeval (t : FTy) (nin nout : Nat) (d : Nat) (a b : Src) (f : Nat) (s : State) : Out :=
  if s.flagFull f then done (s.withFate .wait)
  else
    let no := s.ids
    done (runLong (.neval t nin nout d a b f) f (.neval no) (fun l s =>
      let h := s.pair l a
      match s.grp with
      | none => .ok s [] 0
      | some g =>
        if 2 ^ 52 ≤ h.toNat ∨ h.toNat % 256 ≠ 0 then .trap { cause := .nevalHandle, detail := 1, aux := s.cur.pc.toNat }
        else
          let row : Row := { slot := g.slot, lane := l, no, t, ins := s.regs l b nin, nout, dst := (s.lane l).wb + d,
                             flag := f, pc := s.cur.pc }
          .ok (State.request { s with ids := Nat.max s.ids (no + 1) } { core := g.core, ctx := g.ctx, handle := h, row }) [] 0) s s.cur.lanes [] [] 0 s)

/-! ### Timeouts and passes, R363, R366 -/

/-- `MANIFOLD_WINDOW_TIMEOUT`. -/
def execManifoldWindowTimeout (core idx : Nat) (s : State) : Out :=
  done (match s.windows[idx]? with
    | none => s
    | some w =>
      if w.core = core ∧ !w.closed ∧ w.since + s.windowCycles core ≤ (s.coreAt core).clk.toNat then s.closeWindow idx
      else s)

/-- A row delivered: its outputs stand to be written by its issue, or its lane keeps the trap it will take. -/
def Group.deliver (g : Group) (r : Row) : Group :=
  match r.trap with
  | some (cause, detail) =>
    if g.pend.any fun p => p.work == .neval r.no && p.lanes.contains r.lane then
      g.updLane r.lane fun t => { t with neval := t.neval ++ [⟨cause, detail, r.pc.toNat, r.flag⟩] }
    else g
  | none =>
    { g with pend := g.pend.map fun p =>
        if p.work = .neval r.no ∧ p.lanes.contains r.lane then
          { p with writes := p.writes ++ (r.outs.zipIdx.map fun e => (r.lane, r.dst + e.2, e.1)) } else p }

def State.deliver (s : State) (core : Nat) (r : Row) : State := s.updGroup core r.slot fun g => g.deliver r

/-- `MANIFOLD_PASS`: up to 16 closed windows of a core in order of closing; a window whose reads wait holds the whole
pass. -/
def execManifoldPass (core : Nat) (s : State) : Out :=
  let mine (s : State) : List Nat :=
    ((List.range s.windows.length).filter fun k =>
      match s.windows[k]? with | some w => w.core == core && w.closed | none => false).take Config.manifoldWindows
  let s := (mine s).foldl State.loadWindow s
  let ks := mine s
  let ws := ks.filterMap fun k => s.windows[k]?
  done (if !ws.all fun w => w.loaded then s
    else
      let s := ws.foldl (fun s w => w.rows.foldl (fun s r => s.deliver core r) s) s
      { s with windows := (s.windows.zipIdx.filter fun e => !ks.contains e.2).map (·.1) })

/-- Whether rows of an issue are still in a manifold. -/
def State.rowsLeft (s : State) (no : Nat) : Bool :=
  s.windows.any (fun w => w.rows.any fun r => r.no == no) || s.requests.any fun r => r.row.no == no

end Sys2Proof.Machine
end

