-- ==== Sys2Proof/Machine/Texture.lean ====
section
/-!
DEFINITION. The texture unit (R319 to R322): the descriptor, the texels that a lookup takes, and the reference sequence
of R321.
-/
namespace Sys2Proof.Machine

/-! ### The descriptor, R320 -/

abbrev TexDesc := List Word

def TexDesc.w (d : TexDesc) (off : Nat) : Nat := (d.getD (off / 4) 0).toNat
def TexDesc.base (d : TexDesc) : Nat := d.w 0 + d.w 4 * 2 ^ 32
def TexDesc.wm1 (d : TexDesc) : Nat := bits (d.w 8) 15 0
def TexDesc.hm1 (d : TexDesc) : Nat := bits (d.w 8) 31 16
def TexDesc.addrV (d : TexDesc) : Nat := bits (d.w 0xC) 11 10
def TexDesc.addrU (d : TexDesc) : Nat := bits (d.w 0xC) 9 8
def TexDesc.channels (d : TexDesc) : Nat := 2 ^ bits (d.w 0xC) 7 6
def TexDesc.half (d : TexDesc) : Bool := bits (d.w 0xC) 5 4 == 0
def TexDesc.lm1 (d : TexDesc) : Nat := bits (d.w 0xC) 3 0
def TexDesc.pitch (d : TexDesc) : Nat := d.w 0x10
def TexDesc.lstride (d : TexDesc) : Nat := d.w 0x18 + d.w 0x1C * 2 ^ 32
/-- Bytes of a channel and of a texel. -/
def TexDesc.chan (d : TexDesc) : Nat := if d.half then 2 else 4
def TexDesc.texel (d : TexDesc) : Nat := d.channels * d.chan
def TexDesc.width (d : TexDesc) (l : Nat) : Nat := Nat.max 1 ((d.wm1 + 1) / 2 ^ l)
def TexDesc.height (d : TexDesc) (l : Nat) : Nat := Nat.max 1 ((d.hm1 + 1) / 2 ^ l)

def TexDesc.valid (d : TexDesc) : Bool :=
  bits (d.w 0xC) 31 12 == 0 && d.addrV != 3 && d.addrU != 3 && bits (d.w 0xC) 7 6 != 3 && decide (bits (d.w 0xC) 5 4 < 2)
    && d.w 0x14 == 0 && d.base % d.texel == 0 && d.pitch % d.texel == 0 && d.lstride % d.texel == 0

/-! ### Coordinates, R321 -/

/-- 32-bit arithmetic that wraps. -/
def wrapI (x : Int) : Int := (BitVec.ofInt 32 x).toInt
/-- `cvtfi.i32.f32.rz`. -/
def toI32 (x : Nat) : Int := ({ renderEnv with rm := 2 }.toInt .i32 .f32 x).1
def floor32 (x : Nat) : Nat := (frndE .f32 { renderEnv with rm := 4 } 0 [x]).val
def ofNat32 (n : Nat) : Nat := round32 (Dy.int n) ⟨1, 0⟩
def half32 : Nat := 0x3F000000

/-- One axis of a bilinear lookup: the texel index and the weights of it and of the next. -/
def axisOf (u size : Nat) : Int × Nat × Nat :=
  let xs := r32sub (r32mul u (ofNat32 size)) half32
  let fx := floor32 xs
  let wh := r32sub xs fx
  (toI32 fx, r32sub one32 wh, wh)

/-- The index of a point lookup. -/
def pointOf (u size : Nat) : Int := toI32 (floor32 (r32mul u (ofNat32 size)))

/-- The level pair and fraction of a trilinear lookup. -/
def lodOf (lam lm1 : Nat) : Nat × Nat × Nat :=
  let lc := r32min (r32max lam 0) (ofNat32 lm1)
  let lo := (toI32 (floor32 lc)).toNat
  (lo, Nat.min (lo + 1) lm1, r32sub lc (floor32 lc))

/-- A texel index brought into its level, or none where the border answers. -/
def addressed (mode size : Nat) (i : Int) : Option Nat :=
  match mode with
  | 0 => some (i % (size : Int)).toNat
  | 1 => some (min (max i 0) ((size : Int) - 1)).toNat
  | _ => if i < 0 ∨ (size : Int) ≤ i then none else some i.toNat

/-- The address of a texel; none where `tex()` returns without a read. -/
def TexDesc.place (d : TexDesc) (l : Nat) (i j : Int) : Option Nat :=
  match addressed d.addrU (d.width l) i, addressed d.addrV (d.height l) j with
  | some i, some j => some ((d.base + l * d.lstride + j * d.pitch + i * d.texel) % 2 ^ 64)
  | _, _ => none

/-- The texels of a bilinear lookup at a level. -/
def TexDesc.square (d : TexDesc) (l u v : Nat) : List (Nat × Int × Int) :=
  let i := (axisOf u (d.width l)).1
  let j := (axisOf v (d.height l)).1
  [(l, i, j), (l, wrapI (i + 1), j), (l, i, wrapI (j + 1)), (l, wrapI (i + 1), wrapI (j + 1))]

/-- Every texel of a lookup. -/
def TexDesc.texels (d : TexDesc) (k : Filt) (level u v lam : Nat) : List (Nat × Int × Int) :=
  let l := Nat.min level d.lm1
  match k with
  | .pt => [(l, pointOf u (d.width l), pointOf v (d.height l))]
  | .lin => d.square l u v
  | .tri => let (a, b, _) := lodOf lam d.lm1; d.square a u v ++ d.square b u v

/-! ### Values, R321 -/

/-- Texel bytes read, by address. -/
abbrev TexelMap := List (Nat × Nat)

/-- `tex()`: one channel as an FP32 word. -/
def TexDesc.tex (d : TexDesc) (m : TexelMap) (l : Nat) (i j : Int) (c : Nat) : Nat :=
  match d.place l i j with
  | none => 0
  | some a =>
    if d.channels ≤ c then (if c = 3 then one32 else 0)
    else
      let x := Assoc.get m a 0 / 2 ^ (8 * d.chan * c) % 2 ^ (8 * d.chan)
      if d.half then (renderEnv.convert .f32 .f16 0 x).val else x

def cs2 (wl wh tl th : Nat) : Nat := chunkSumAll 0 [prodOf (f32 wl) (f32 tl), prodOf (f32 wh) (f32 th)]

def TexDesc.bil (d : TexDesc) (m : TexelMap) (l u v c : Nat) : Nat :=
  let (i, wxl, wxh) := axisOf u (d.width l)
  let (j, wyl, wyh) := axisOf v (d.height l)
  let row (j : Int) : Nat := cs2 wxl wxh (d.tex m l i j c) (d.tex m l (wrapI (i + 1)) j c)
  cs2 wyl wyh (row j) (row (wrapI (j + 1)))

/-- The result of one channel. -/
def TexDesc.channel (d : TexDesc) (m : TexelMap) (k : Filt) (level u v lam c : Nat) : Nat :=
  let l := Nat.min level d.lm1
  match k with
  | .pt => d.tex m l (pointOf u (d.width l)) (pointOf v (d.height l)) c
  | .lin => d.bil m l u v c
  | .tri =>
    let (a, b, fl) := lodOf lam d.lm1
    cs2 (r32sub one32 fl) fl (d.bil m a u v c) (d.bil m b u v c)

/-- Four channels delivered in T. -/
def texOut (t : FTy) (xs : List Nat) : List Word :=
  if t = .f32 then xs.map (BitVec.ofNat 32)
  else
    let h (k : Nat) : Nat := (renderEnv.convert .f16 .f32 0 (xs.getD k 0)).val
    [BitVec.ofNat 32 (h 0 + h 1 * 2 ^ 16), BitVec.ofNat 32 (h 2 + h 3 * 2 ^ 16)]

/-! ### The reads, R322 -/

/-- Texels read one after another as plain loads of the thread (R108, R129), with residency feedback. -/
def State.readTexels (s : State) (g : Group) (src : Source) (d : TexDesc) :
    List (Nat × Int × Int) → TexelMap → Except (State × Option Nat) (State × TexelMap)
  | [], m => .ok (s, m)
  | (l, i, j) :: rest, m =>
    match d.place l i j with
    | none => s.readTexels g src d rest m
    | some a => match s.engineCheck g.ctx (s.launchOf g) src { kind := .read, tiled := true, core := g.core } a d.texel
        true with
      | .error e => .error e
      | .ok (s, runs) =>
        let x := leNat (s.seenRuns g.core false .kall runs)
        ((s.loadedRuns g.core false .kall runs).feedback g.ctx (s.launchOf g) g.core a runs).readTexels g src d rest
          (Assoc.set m a x)

/-- One lane's lookup. -/
def State.texOne (s : State) (g : Group) (pc : DWord) (t : FTy) (k : Filt) (level : Nat) (op : LaneOp) :
    Except (State × Option Nat) (State × List Word) :=
  let src := s.laneSource 6 g.core g.slot op.lane pc
  match s.engineCheck g.ctx (s.launchOf g) src { kind := .read, core := g.core } op.addr.toNat 32 true with
  | .error e => .error e
  | .ok (s, runs) =>
    let bytes := s.seenRuns g.core false .kall runs
    let s := s.loadedRuns g.core false .kall runs
    let d : TexDesc := (List.range 8).map fun k => BitVec.ofNat 32 (leNat ((bytes.drop (4 * k)).take 4))
    if !d.valid then .ok (s, texOut t (List.replicate 4 FTy.f32.fmt.nanBits))
    else
      let x (n : Nat) : Nat := (op.args.getD n 0).toNat
      match s.readTexels g src d (d.texels k level (x 0) (x 1) (x 2)) [] with
      | .error e => .error e
      | .ok (s, m) => .ok (s, texOut t ((List.range 4).map (d.channel m k level (x 0) (x 1) (x 2))))

/-- The lookups of an issue, lane by lane: the values to be written as (lane, slot, value). -/
def State.texAll (s : State) (g : Group) (pc : DWord) (t : FTy) (k : Filt) (level : Nat) :
    List LaneOp → Except (State × Option Nat) (State × List (Nat × Nat × Word))
  | [] => .ok (s, [])
  | op :: ops => match s.texOne g pc t k level op with
    | .error e => .error e
    | .ok (s, ws) => match s.texAll g pc t k level ops with
      | .error e => .error e
      | .ok (s, rest) => .ok (s, (ws.zipIdx.map fun e => (op.lane, op.dst + e.2, e.1)) ++ rest)

/-! ### `texf`, R319 -/

/-- The operands of a request, read when it issues: an address, and `n` registers. -/
def State.laneOps (s : State) (a b : Src) (n d : Nat) : List LaneOp :=
  s.cur.lanes.map fun l => { lane := l, addr := s.pair l a, args := s.regs l b n, dst := (s.lane l).wb + d }

/-- A request whose address must be a multiple of `align`, left to its unit. -/
def perLaneRequest (i : Instr) (f : Nat) (a : Src) (align : Nat) (work : Work) (s : State) : State :=
  if s.flagFull f then s.withFate .wait
  else runLong i f work (fun l s =>
    let va := (s.pair l a).toNat
    if va % align ≠ 0 then .trap (misaligned va) else .ok s [] 0) s s.cur.lanes [] [] 0 s

/-- The lookups of an outstanding issue made: its values stand to be written, or it waits on what it met (R41). -/
def State.readTextures (s : State) (g : Group) (idx : Nat) : State :=
  let upd (s : State) (f : Pend → Pend) : State := s.updGroup g.core g.slot fun g => { g with pend := updAt g.pend idx f }
  match g.pend[idx]? with
  | some p => match p.work with
    | .tex t k level ops =>
      match s.texAll g p.pc t k level (ops.filter fun o => p.lanes.contains o.lane) with
      | .ok (s, ws) => upd s fun p => { p with work := .none, writes := ws, waitOn := none }
      | .error (s, w) => upd s fun p => { p with waitOn := w }
    | _ => s
  | none => s

/-- `texf`: its reads are plain loads in the thread's program order (R129), made when it issues.
DEDUCED: log 13. -/
def execTexf (t : FTy) (k : Filt) (level : Nat) (d : Nat) (a b : Src) (f : Nat) (s : State) : Out :=
  let s' := perLaneRequest (.texf t k level d a b f) f a 32 (.tex t k level (s.laneOps a b 3 d)) s
  done (match s.grp, s'.grp with
    | some g, some h => if g.pend.length < h.pend.length then s'.readTextures h g.pend.length else s'
    | _, _ => s')

end Sys2Proof.Machine
end

