-- ==== Sys2Proof/Machine/Bank.lean ====
section
/-!
DEFINITION. The bank arithmetic units of HJ-32B devices (R72 to R78): half-rows as a unit reads them, the three extension
commands of the memory controller, which both devices of a clamshell pair receive, and what it passes to the sluice (R81).
-/
namespace Sys2Proof.Machine

/-! ### Half-rows, R72 -/

/-- Format, bytes of a chunk's elements, and chunks of a half-row, by MFMT. -/
def mfmtType : Nat → FTy
  | 0 => .bf16 | 1 => .e4m3 | 2 => .e5m2 | _ => .e2m1
def mfmtChunk : Nat → Nat
  | 0 => 128 | 1 => 64 | 2 => 64 | _ => 32
def mfmtPerHalf : Nat → Nat
  | 0 => 8 | 1 => 16 | 2 => 16 | _ => 30

/-- The elements of a chunk from its bytes and its two scales. -/
def chunkElems (mfmt : Nat) (data scales : List Byte) : List FVal :=
  let t := mfmtType mfmt
  let x := leNat data
  (List.range 64).map fun e =>
    let v := t.fmt.decode (packedAt t x e)
    if mfmt = 3 then scaled v (scales.getD (e / 32) 0).toNat else v

/-- `n` fields of `w` bits, each from the number that its digit of `picks` names. -/
def mixFields (w n picks : Nat) (xs : List Nat) : Nat :=
  (List.range n).foldl (fun a i =>
    a + xs.getD (picks / xs.length ^ i % xs.length) 0 / 2 ^ (w * i) % 2 ^ w * 2 ^ (w * i)) 0

/-- A half-row each of whose elements and scales comes from one of several. -/
def mixHalfRow (mfmt picks : Nat) (rows : List (List Byte)) : List Byte :=
  let w := (mfmtType mfmt).fmt.width
  let k := if mfmt = 3 then 960 else 1024
  let part (w from_ n p : Nat) : List Byte :=
    leBytes (mixFields w (8 * n / w) p (rows.map fun x => leNat ((x.drop from_).take n))) n
  part w 0 k picks ++ part 8 k (1024 - k) (picks / rows.length ^ 2048)

/-- The half-rows that the device and L2 have held since the last ordinary store to the page, unless an invalidation has covered it
(R37): what the device holds, what the home slice answers, and this with a line as it was before.
DEDUCED: log 83. -/
def State.heldRows (s : State) (pa : Nat) : List (List Byte) :=
  let above := s.rdBytes (.dev pa) 1024
  let old (e : Nat × List Byte) : Option (List Byte) :=
    if e.1 / 8 = pa / 1024 ∧ e.2.length = 128 then some (above.take (e.1 % 8 * 128) ++ e.2 ++ above.drop (e.1 % 8 * 128 + 128))
    else none
  (((List.range 1024).map fun k => s.devByte (pa + k)) :: above :: s.past.filterMap old).eraseDups

/-- A half-row as the bank arithmetic of its device reads it (R77): each element is one of the values that it has held (R37). -/
def State.halfRow (s : State) (mfmt pa : Nat) : State × List Byte :=
  match s.heldRows pa with
  | [row] => (s, row)
  | rows =>
    let (picks, s) := s.choose (rows.length ^ 2112)
    (s, mixHalfRow mfmt picks rows)

/-! ### Units -/

/-- A channel and bank named by their numbers in the registers of R81, on a die that has bank arithmetic (R2). -/
def State.hasUnit (s : State) (channel bank : Nat) : Bool :=
  let first := s.chanNo 0
  s.stage == .stage2 && decide (first ≤ channel) && decide (channel < first + 12 * s.dieCount)
    && decide (bank < 32) && (s.dieAt (channel / Config.channelsPerDie)).bank

/-- A channel of a die, as the registers of R81 number it. -/
def dieChannel (die channel : Nat) : Nat := Config.channelsPerDie * die + channel
def streamChannel (r : BankStream) : Nat := dieChannel r.die r.channel
/-- Whether a command to a channel of a die finds units in a bank. -/
def State.namesUnit (s : State) (die channel bank : Nat) : Bool :=
  decide (channel < Config.channelsPerDie) && s.hasUnit (dieChannel die channel) bank

def BankUnit.isAt (u : BankUnit) (channel device bank : Nat) : Bool :=
  u.channel == channel && u.device == device && u.bank == bank

def State.unit (s : State) (channel device bank : Nat) : BankUnit :=
  (s.units.find? fun u => u.isAt channel device bank).getD { channel, device, bank }

def State.setUnit (s : State) (u : BankUnit) : State :=
  { s with units := u :: s.units.filter fun v => !v.isAt u.channel u.device u.bank }

/-- The units of both devices of a clamshell pair changed. -/
def State.onPair (s : State) (channel bank : Nat) (f : BankUnit → BankUnit) : State :=
  (s.setUnit (f (s.unit channel 0 bank))).setUnit (f (s.unit channel 1 bank))

/-! ### BA-LOAD, the bytes -/

/-- Bytes in a vector slot, which the call for which they are loaded may use from then on, and no other (R73). -/
def BankUnit.load (call : Option (Nat × Nat × Nat)) (slot off : Nat) (data : List Byte) (u : BankUnit) : BankUnit :=
  { u with
    slots := u.slots.setAll (4096 * slot + off) data
    loaded := (call.map fun c => (slot, c)).toList ++ u.loaded.filter fun e => e.1 != slot }

/-- A vector slot is loaded for a call. -/
def BankUnit.holds (u : BankUnit) (call : Nat × Nat × Nat) (slot : Nat) : Bool := u.loaded.contains (slot, call)

/-! ### BA-STREAM, R75, R76 -/

/-- The device physical address of a half-row of a logical channel: the inverse of R63. -/
def halfRowAt (d ch device bank row : Nat) : Nat :=
  let n := 12 * d
  let q := 32 * row + (bank ^^^ (row % 32))
  let k := (q ^^^ (q / 2 ^ 5) ^^^ (q / 2 ^ 10) ^^^ (q / 2 ^ 15) ^^^ (q / 2 ^ 20)) % 2 ^ 16
  2048 * (q * n + (ch + n - k % n) % n) + 1024 * device

/-- Elements of chunk j in a slot, R73. -/
def BankUnit.vector (u : BankUnit) (vfmt slot j : Nat) : List FVal :=
  let t : FTy := if vfmt = 0 then .bf16 else .e4m3
  let z := if vfmt = 0 then 2 else 1
  (List.range 64).map fun e => t.fmt.decode (u.slots.rd (4096 * slot + z * (64 * j + e)) z)

/-- The results of a stream over the bytes of its half-row, R75. -/
def BankUnit.results (u : BankUnit) (r : BankStream) (row : List Byte) : List Word :=
  let n := mfmtChunk r.mfmt
  ((List.range r.count).map fun i =>
    let j := r.first + i
    let m := chunkElems r.mfmt ((row.drop (n * j)).take n) ((row.drop (960 + 2 * j)).take 2)
    ((List.range 16).filter (bit r.smask)).map fun k =>
      BitVec.ofNat 32 (chunkOf (m.zipWith prodOf (u.vector r.vfmt k j)))).flatten

/-- R76: the stream is rejected. -/
def BankUnit.rejects (u : BankUnit) (r : BankStream) (words : Nat) : Bool :=
  decide (4 ≤ r.mfmt) || decide (mfmtPerHalf r.mfmt < r.first + r.count) || words == 0
    || decide (Config.resultQueue < u.queue.length + words + 1)

def statusWord (ue unit ill : Bool) (ce : Nat) : Word :=
  BitVec.ofNat 32 (2 ^ 31 + (if ue then 2 ^ 30 else 0) + (if unit then 2 ^ 29 else 0) + (if ill then 2 ^ 28 else 0) + Nat.min ce 255)

/-- The half-row that a stream reads in one device of the pair. -/
def State.streamAt (s : State) (r : BankStream) (device : Nat) : Nat :=
  halfRowAt s.dieCount (streamChannel r - s.chanNo 0) device r.bank r.row

/-- The words of a stream queued in one device of the pair, R75, R76. A queue that is full takes no word.
DEDUCED: log 38. -/
def State.stream (s : State) (r : BankStream) (device : Nat) : State :=
  let u := s.unit (streamChannel r) device r.bank
  let pa := s.streamAt r device
  let words := r.count * ((List.range 16).filter (bit r.smask)).length
  let ill := u.rejects r words
  let (s', row) := if ill then (s, []) else s.halfRow r.mfmt pa
  let xs := if ill then List.replicate (Nat.min words (Config.resultQueue - 1 - u.queue.length)) 0#32 else u.results r row
  let status := statusWord (!ill && (s.ueIn (.dev pa) 1024).isSome) u.parity ill
    (if ill then 0 else (s.ce.filter fun b => decide (pa ≤ b) && decide (b < pa + 1024)).length)
  s'.setUnit { u with queue := (u.queue ++ xs.map (fun x => (x, false)) ++ [(status, true)]).take Config.resultQueue, parity := false }

/-! ### BA-DRAIN -/

/-- R78, R81: what a status word counts in its channel. -/
def Channel.takeStatus (c : Channel) (w : Word) : Channel :=
  let x := w.toNat
  let add (b : Bool) (n : Nat) : Nat := Nat.min 255 (n + if b then 1 else 0)
  { c with
    cecnt := Nat.min 0xFFFFFF (c.cecnt + bits x 7 0)
    bafault := c.bafault || bit x 30 || bit x 29 || bit x 28
    uecnt := add (bit x 30) c.uecnt
    unitcnt := add (bit x 29) c.unitcnt
    illcnt := add (bit x 28) c.illcnt }

/-- Words removed from the head of a queue, followed by words of 0. -/
def BankUnit.head (words : Nat) (u : BankUnit) : List Word :=
  ((u.queue.take words).map fun x => x.1) ++ List.replicate (words - u.queue.length) 0#32
/-- The status words among them. -/
def BankUnit.statuses (words : Nat) (u : BankUnit) : List Word := ((u.queue.take words).filter fun x => x.2).map fun x => x.1

/-- Words drained from both devices: each status word goes to the sluice. -/
def State.drainPair (s : State) (channel bank words : Nat) : State :=
  let status := (s.unit channel 0 bank).statuses words ++ (s.unit channel 1 bank).statuses words
  let s := s.onPair channel bank fun u => { u with queue := u.queue.drop words }
  { s with chan := updAt s.chan channel fun c => status.foldl Channel.takeStatus c }

/-- `BA_DRAIN`: each device returns its words, the lower device first. -/
def execBaDrain (die channel bank words : Nat) (s : State) : Out :=
  done (if !s.namesUnit die channel bank || words == 0 || decide (8 < words) then s
    else
      let ch := dieChannel die channel
      let data := (s.unit ch 0 bank).head words ++ (s.unit ch 1 bank).head words
      { (s.drainPair ch bank words) with reply := .data (data.map fun w => leBytes w.toNat 4).flatten })

end Sys2Proof.Machine
end

