-- ==== Sys2Proof/Machine/Integer.lean ====
section
/-!
DEFINITION. The integer and address instructions (R278 to R283), in their base forms, extended forms and uniform twins,
and the divider (R245).
-/
namespace Sys2Proof.Machine

/-! ### Operations on the w bits of an operand, R279 -/

/-- w low bits of a number moved up by `b`, R279. -/
def shiftUp (w a b : Nat) : Nat := if w ≤ b then 0 else a * 2 ^ b % 2 ^ w
def shiftDown (w a b : Nat) : Nat := if w ≤ b then 0 else a / 2 ^ b
/-- Bits moved down with copies of bit w − 1. -/
def shiftArith (w a b : Nat) : Int :=
  let x : Int := if bit a (w - 1) then (a : Int) - (2 ^ w : Nat) else a
  x.fdiv ((2 ^ Nat.min b (w - 1) : Nat) : Int)
def rotateUp (w a b : Nat) : Nat := a * 2 ^ (b % w) % 2 ^ w + a / 2 ^ (w - b % w)
def popcount (w a : Nat) : Nat := (List.range w).foldl (fun n i => if bit a i then n + 1 else n) 0
def zerosAbove (w a : Nat) : Nat := if a = 0 then w else w - 1 - Nat.log2 a
def zerosBelow (w a : Nat) : Nat := ((List.range w).find? fun i => bit a i).getD w
def reverseBits (w a : Nat) : Nat := (List.range w).foldl (fun n i => if bit a i then n + 2 ^ (w - 1 - i) else n) 0

end Sys2Proof.Machine

namespace Sys2Proof
/-- The condition of `icmp` on two numbers, R281. -/
def ICond.holds (c : ICond) (a b : Int) : Bool :=
  match c with
  | .eq => decide (a = b) | .ne => decide (a ≠ b) | .lt => decide (a < b) | .le => decide (a ≤ b)
  | .gt => decide (b < a) | .ge => decide (b ≤ a)
end Sys2Proof

namespace Sys2Proof.Machine

/-- A shift count: the unsigned value of one register or literal, R279. -/
def State.count (s : State) (l : Nat) (x : Src) : Nat := (s.reg l x 0).toNat
def boolWord (b : Bool) : Word := if b then 1 else 0

/-! ### Results, R279 to R282, shared by the forms of an operation -/

def addOf (t : ITy) (a b : Src) (s : State) (l : Nat) : List Word := t.out (s.int t l a + s.int t l b)
def subOf (t : ITy) (a b : Src) (s : State) (l : Nat) : List Word := t.out (s.int t l a - s.int t l b)
def mulOf (t : ITy) (a b : Src) (s : State) (l : Nat) : List Word := t.out (s.int t l a * s.int t l b)
def minOf (t : ITy) (a b : Src) (s : State) (l : Nat) : List Word := t.out (Min.min (s.int t l a) (s.int t l b))
def maxOf (t : ITy) (a b : Src) (s : State) (l : Nat) : List Word := t.out (Max.max (s.int t l a) (s.int t l b))
def andOf (t : ITy) (a b : Src) (s : State) (l : Nat) : List Word := t.out (s.ibits t l a &&& s.ibits t l b : Nat)
def orOf (t : ITy) (a b : Src) (s : State) (l : Nat) : List Word := t.out (s.ibits t l a ||| s.ibits t l b : Nat)
def xorOf (t : ITy) (a b : Src) (s : State) (l : Nat) : List Word := t.out (s.ibits t l a ^^^ s.ibits t l b : Nat)
def shlOf (t : ITy) (a b : Src) (s : State) (l : Nat) : List Word := t.out (shiftUp t.width (s.ibits t l a) (s.count l b))
def shrOf (t : ITy) (a b : Src) (s : State) (l : Nat) : List Word :=
  t.out (shiftDown t.width (s.ibits t l a) (s.count l b))
def sraOf (t : ITy) (a b : Src) (s : State) (l : Nat) : List Word :=
  t.out (shiftArith t.width (s.ibits t l a) (s.count l b))
def icmpOf (t : ITy) (c : ICond) (a b : Src) (s : State) (l : Nat) : List Word :=
  [boolWord (c.holds (s.int t l a) (s.int t l b))]
def movOf (t : ITy) (a : Src) (s : State) (l : Nat) : List Word := t.out (s.int t l a)

/-- R282. -/
def leaOf (t : ITy) (a b : Src) (sh : Nat) (s : State) (l : Nat) : List Word :=
  twoWords (s.pair l a + BitVec.ofInt 64 (s.int t l b) * BitVec.ofNat 64 (2 ^ sh))

/-- R280. -/
def bfeOf (t : ITy) (a : Src) (p widthM1 : Nat) (s : State) (l : Nat) : List Word :=
  let n := widthM1 + 1
  let x := s.ibits t l a / 2 ^ p % 2 ^ n
  t.out (if t.signed && bit x widthM1 then (x : Int) - (2 ^ n : Nat) else (x : Int))
def bfiOf (t : ITy) (a b : Src) (p widthM1 : Nat) (s : State) (l : Nat) : List Word :=
  t.out (setBits (s.ibits t l b) (p + widthM1) p (s.ibits t l a) : Nat)

/-- R245. -/
def divide (t : ITy) (a b : Int) : Int × Int :=
  if b = 0 then (-1, a)
  else if t.signed ∧ a = t.least ∧ b = -1 then (t.least, 0)
  else (a.tdiv b, a.tmod b)

/-! ### Base forms, R258 -/

def execMovBase (d : Nat) (a : Src) (s : State) : Out := done (compute (.movBase d a) (.v d) (movOf .n32 a) s)
def execAddBase (d : Nat) (a b : Src) (s : State) : Out := done (compute (.addBase d a b) (.v d) (addOf .n32 a b) s)
def execSubBase (d : Nat) (a b : Src) (s : State) : Out := done (compute (.subBase d a b) (.v d) (subOf .n32 a b) s)
def execMulBase (d : Nat) (a b : Src) (s : State) : Out := done (compute (.mulBase d a b) (.v d) (mulOf .n32 a b) s)
def execAndBase (d : Nat) (a b : Src) (s : State) : Out := done (compute (.andBase d a b) (.v d) (andOf .n32 a b) s)
def execOrBase (d : Nat) (a b : Src) (s : State) : Out := done (compute (.orBase d a b) (.v d) (orOf .n32 a b) s)
def execXorBase (d : Nat) (a b : Src) (s : State) : Out := done (compute (.xorBase d a b) (.v d) (xorOf .n32 a b) s)
def execShlBase (d : Nat) (a b : Src) (s : State) : Out := done (compute (.shlBase d a b) (.v d) (shlOf .n32 a b) s)
def execShrBase (d : Nat) (a b : Src) (s : State) : Out := done (compute (.shrBase d a b) (.v d) (shrOf .n32 a b) s)
def execSraBase (d : Nat) (a b : Src) (s : State) : Out := done (compute (.sraBase d a b) (.v d) (sraOf .n32 a b) s)
/-- R279: MOD 1 makes the type `.i32`. -/
def modTy (sg : Bool) : ITy := if sg then .i32 else .n32
def execMinBase (sg : Bool) (d : Nat) (a b : Src) (s : State) : Out :=
  done (compute (.minBase sg d a b) (.v d) (minOf (modTy sg) a b) s)
def execMaxBase (sg : Bool) (d : Nat) (a b : Src) (s : State) : Out :=
  done (compute (.maxBase sg d a b) (.v d) (maxOf (modTy sg) a b) s)
def execIcmpBase (c : ICond) (d : Nat) (a b : Src) (s : State) : Out :=
  done (compute (.icmpBase c d a b) (.v d) (icmpOf .n32 c a b) s)

/-! ### Extended forms and twins, R259, R260 -/

def execAdd (t : ITy) (d : Dst) (a b : Src) (s : State) : Out := done (compute (.add t d a b) d (addOf t a b) s)
def execSub (t : ITy) (d : Dst) (a b : Src) (s : State) : Out := done (compute (.sub t d a b) d (subOf t a b) s)
def execMul (t : ITy) (d : Dst) (a b : Src) (s : State) : Out := done (compute (.mul t d a b) d (mulOf t a b) s)
def execMulhi (t : ITy) (d : Dst) (a b : Src) (s : State) : Out :=
  done (compute (.mulhi t d a b) d
    (fun s l => t.out ((s.int t l a * s.int t l b).fdiv ((2 ^ t.width : Nat) : Int))) s)
def execMulw (t : ITy) (d : Dst) (a b : Src) (s : State) : Out :=
  done (compute (.mulw t d a b) d (fun s l => twoWords (BitVec.ofInt 64 (s.int t l a * s.int t l b))) s)
def execMad (t : ITy) (d : Dst) (a b c : Src) (s : State) : Out :=
  done (compute (.mad t d a b c) d (fun s l => t.out (s.int t l a * s.int t l b + s.int t l c)) s)
def execAdds (t : ITy) (d : Dst) (a b : Src) (s : State) : Out :=
  done (compute (.adds t d a b) d (fun s l => t.out (t.sat (s.int t l a + s.int t l b))) s)
def execSubs (t : ITy) (d : Dst) (a b : Src) (s : State) : Out :=
  done (compute (.subs t d a b) d (fun s l => t.out (t.sat (s.int t l a - s.int t l b))) s)
def execAbs (t : ITy) (d : Dst) (a : Src) (s : State) : Out :=
  done (compute (.abs t d a) d (fun s l => t.out ((s.int t l a).natAbs : Int)) s)
def execMin (t : ITy) (d : Dst) (a b : Src) (s : State) : Out := done (compute (.min t d a b) d (minOf t a b) s)
def execMax (t : ITy) (d : Dst) (a b : Src) (s : State) : Out := done (compute (.max t d a b) d (maxOf t a b) s)
def execAnd (t : ITy) (d : Dst) (a b : Src) (s : State) : Out := done (compute (.and t d a b) d (andOf t a b) s)
def execOr (t : ITy) (d : Dst) (a b : Src) (s : State) : Out := done (compute (.or t d a b) d (orOf t a b) s)
def execXor (t : ITy) (d : Dst) (a b : Src) (s : State) : Out := done (compute (.xor t d a b) d (xorOf t a b) s)
def execNot (t : ITy) (d : Dst) (a : Src) (s : State) : Out :=
  done (compute (.not t d a) d (fun s l => t.out (2 ^ t.width - 1 - s.ibits t l a : Nat)) s)
def execShl (t : ITy) (d : Dst) (a b : Src) (s : State) : Out := done (compute (.shl t d a b) d (shlOf t a b) s)
def execShr (t : ITy) (d : Dst) (a b : Src) (s : State) : Out := done (compute (.shr t d a b) d (shrOf t a b) s)
def execSra (t : ITy) (d : Dst) (a b : Src) (s : State) : Out := done (compute (.sra t d a b) d (sraOf t a b) s)
def execRotl (t : ITy) (d : Dst) (a b : Src) (s : State) : Out :=
  done (compute (.rotl t d a b) d (fun s l => t.out (rotateUp t.width (s.ibits t l a) (s.count l b))) s)
def execPopc (t : ITy) (d : Dst) (a : Src) (s : State) : Out :=
  done (compute (.popc t d a) d (fun s l => [BitVec.ofNat 32 (popcount t.width (s.ibits t l a))]) s)
def execClz (t : ITy) (d : Dst) (a : Src) (s : State) : Out :=
  done (compute (.clz t d a) d (fun s l => [BitVec.ofNat 32 (zerosAbove t.width (s.ibits t l a))]) s)
def execCtz (t : ITy) (d : Dst) (a : Src) (s : State) : Out :=
  done (compute (.ctz t d a) d (fun s l => [BitVec.ofNat 32 (zerosBelow t.width (s.ibits t l a))]) s)
def execBrev (t : ITy) (d : Dst) (a : Src) (s : State) : Out :=
  done (compute (.brev t d a) d (fun s l => t.out (reverseBits t.width (s.ibits t l a))) s)
def execBfe (t : ITy) (d : Dst) (a : Src) (p n : Nat) (s : State) : Out :=
  done (compute (.bfe t d a p n) d (bfeOf t a p n) s)
def execBfi (t : ITy) (d : Dst) (a b : Src) (p n : Nat) (s : State) : Out :=
  done (compute (.bfi t d a b p n) d (bfiOf t a b p n) s)
def execIcmp (t : ITy) (c : ICond) (d : Dst) (a b : Src) (s : State) : Out :=
  done (compute (.icmp t c d a b) d (icmpOf t c a b) s)
/-- R281: the bits of A where C is not 0, else of B. -/
def execSel (t : ITy) (d : Dst) (a b c : Src) (s : State) : Out :=
  done (compute (.sel t d a b c) d (fun s l => if s.reg l c 0 ≠ 0 then movOf t a s l else movOf t b s l) s)
def execLea (t : ITy) (d : Dst) (a b : Src) (sh : Nat) (s : State) : Out :=
  done (compute (.lea t d a b sh) d (leaOf t a b sh) s)
def execMov (t : ITy) (d : Dst) (a : Src) (s : State) : Out := done (compute (.mov t d a) d (movOf t a) s)

/-- R283: the quotient, then the remainder, written when the flag counts down. -/
def execDiv (t : ITy) (d : Nat) (a b : Src) (f : Nat) (s : State) : Out :=
  done (perLaneLong (.div t d a b f) f (fun l s =>
    let (q, r) := divide t (s.int t l a) (s.int t l b)
    .ok s (resultsAt d (t.out q ++ t.out r)) 0) s)

end Sys2Proof.Machine
end

