-- ==== Sys2Proof/Machine/Atomic.lean ====
section
/-!
DEFINITION. Atomics (R83 to R89, R334, R335), requests at a home slice (R64), and ordered reductions with their commit
(R94 to R101, R336).
-/
namespace Sys2Proof
/-- The integer and the floating reading of class A. -/
def ATy.int? : ATy → Option ITy
  | .n32 => some .n32 | .i32 => some .i32 | .n64 => some .n64 | .i64 => some .i64 | _ => none
def ATy.float : ATy → FTy
  | .f64 => .f64 | .f16 => .f16 | .bf16 => .bf16 | _ => .f32
def ATy.width (t : ATy) : Nat := 32 * t.regs
def AtOrd.acquires : AtOrd → Bool
  | .acq => true | .ar => true | _ => false
end Sys2Proof

namespace Sys2Proof.Machine

/-! ### The operations, R86, R87 -/

/-- R87: to nearest, no flush, canonical NaNs. -/
def atomicEnv : FEnv := { fmode := 0x80000#32, rm := 1, seed := 0, idx := 0 }

/-- A floating operation on each element of a word. -/
def aopFloat (op : AOp) (t : FTy) (old b : Nat) : Nat :=
  let w := t.fmt.width
  let one (x y : Nat) : FRes := match op with
    | .fmin => fminmaxE false t atomicEnv 0 [x, y]
    | .fmax => fminmaxE true t atomicEnv 0 [x, y]
    | _ => faddE t atomicEnv 0 [x, y]
  (List.range t.elems).foldl (fun a j =>
    a + (one (old / 2 ^ (w * j) % 2 ^ w) (b / 2 ^ (w * j) % 2 ^ w)).val % 2 ^ w * 2 ^ (w * j)) 0

/-- The new value of an atomic, R86, on numbers of the type's width. -/
def aop (op : AOp) (t : ATy) (old b c : Nat) : Nat :=
  let m := 2 ^ t.width
  let less (x y : Nat) : Bool := match t.int? with
    | some i => decide (i.val (BitVec.ofNat 64 x) < i.val (BitVec.ofNat 64 y))
    | none => decide (x < y)
  match op with
  | .exch => b
  | .cas => if old = c then b else old
  | .add => (old + b) % m
  | .and => old &&& b
  | .or => old ||| b
  | .xor => old ^^^ b
  | .min => if less b old then b else old
  | .max => if less old b then b else old
  | .incb => if old < b then old + 1 else old
  | .decb => if b < old then old - 1 else old
  | .fadd => aopFloat .fadd t.float old b
  | .fmin => aopFloat .fmin t.float old b
  | .fmax => aopFloat .fmax t.float old b

/-- An atomic at a place: the value found, and the state with the value written. -/
def State.atomicAt (s : State) (p : Place) (op : AOp) (t : ATy) (b c : Nat) : Nat × State :=
  let old := s.rdNat p t.bytes
  (old, s.wrNat p t.bytes (aop op t old b c))

/-- The first place of an access that lies in one page. -/
def firstPlace : Runs → Option Place
  | (p, _, _) :: _ => p
  | [] => none

def srcNat (s : State) (l : Nat) (x : Src) (regs : Nat) : Nat := (s.arg l x regs).toNat

/-- What an atomic leaves beside its value: its line invalidated in its core's L1 (R60), the walks that served it, its acquire. -/
def State.afterAtomic (s : State) (l : Nat) (p : Place) (n va : Nat) (acq : Option Scope) : State :=
  ((s.dropLines s.cur.core p n).walkServed s.cur.core s.myCtx l va n).acquireAt s.cur.core acq

/-- `atom`, R334, R335: the lanes' operations are performed at the home slice in ascending lane order (R85). -/
def execAtom (op : AOp) (t : ATy) (o : AtOrd) (sc : Scope) (h : Hint) (d : Nat) (a : Src) (off : BitVec 12) (b c : Src)
    (f : Nat) (s : State) : Out :=
  done (perLaneLong (.atom op t o sc h d a off b c f) f (fun l s =>
    let va := s.ea l a off
    match s.check l .atomic false va t.bytes t.bytes with
    | .trap e => .trap e
    | .wait s => .wait s
    | .ok runs => match firstPlace runs with
      | none => .ok s [] 0
      | some p =>
        let (old, s') := (s.homeRuns true runs .kall true).atomicAt p op t (srcNat s l b t.regs) (srcNat s l c t.regs)
        .ok (s'.afterAtomic l p t.bytes va (if o.acquires then some sc else none)) (resultsAt d (wordsOfNat t.regs old)) 0) s)
where wordsOfNat (regs x : Nat) : List Word := (twoWords (BitVec.ofNat 64 x)).take regs

/-! ### Requests at a home slice, R64 -/

/-- The place that a request names: device memory, or a host's behind a port. -/
def requestPlace (r : SliceRequest) : Place := match r.port with | none => .dev r.pa | some q => .sys q r.pa

/-- A request that arrives at the home slice of its line (R61, R62), of an agent of a context: what it returns stands as the reply.
An uncorrectable error that it meets ends the context (R80). It names no page, and so no cache policy: a line that it finds not
held is allocated.
DESIGN CHOICE: log 85. -/
def execHomeSliceRequest (r : SliceRequest) (s : State) : Out :=
  if s.stage ≠ .stage2 then done s
  else if r.port.isNone && decide (s.memBytes ≤ r.pa) then .fault .noSuchMemory
  else
    let p := requestPlace r
    let n := match r.op with | .read n => n | .write xs => xs.length | .atomic t _ _ _ => t.bytes
    if s.sliceOf p.lineNo ≠ (r.die, r.slice) ∨ 128 < r.pa % 128 + n then done s
    else match s.ueIn p n with
      | some pa => done { (s.noteUeAt pa).endContext r.ctx 0 with reply := .none }
      | none =>
        let s' := s.homeRange p n (match r.op with | .read _ => false | _ => true) true false
          (match r.op with | .atomic .. => true | _ => false)
        match r.op with
        | .read n => done { s' with reply := .data (s.rdBytes p n) }
        | .write xs => done { s'.wrBytes p xs with reply := .none }
        | .atomic t op b c =>
          if r.pa % t.bytes ≠ 0 ∨ op.takes t = false then done s
          else
            let (old, s) := s'.atomicAt p op t (b.toNat % 2 ^ t.width) (c.toNat % 2 ^ t.width)
            done { s with reply := .data (leBytes old t.bytes) }

/-- R80: an uncorrectable error found outside any access ends every enabled context whose window holds the address. -/
def execUeOnWriteback (pa : Nat) (s : State) : Out :=
  if s.stage ≠ .stage2 then done s
  else if s.memBytes ≤ pa then .fault .noSuchMemory
  else
    let inWin (n : Nat) : Bool :=
      let w := s.partWin.getD (s.ctxAt n).part 0
      (s.ctxAt n).en && decide (winBase w * 2 ^ 30 ≤ pa) && decide (pa < (winBase w + winSize w) * 2 ^ 30)
    let hit := (List.range Config.contextSlots).filter inWin
    done (hit.foldl (fun s n => s.endContext n 0) (s.noteUe pa))

/-! ### Ordered reductions, R94 to R101 -/

/-- R99. -/
def lslice (va : Nat) : Nat := ((va / 2 ^ 7) ^^^ (va / 2 ^ 16) ^^^ (va / 2 ^ 25) ^^^ (va / 2 ^ 34)) % 512

/-- R97, check 4: the page checks of an address for the atomic kind, with detail 7 for a page behind a host port. -/
def State.redPage (s : State) (va : Nat) : Except Trap (Nat × Leaf) :=
  let m : Mode := { kind := .atomic, core := s.cur.core }
  match s.leafAt s.myCtx m va with
  | .error f => .error (f.trap .atomic va)
  | .ok l =>
    if pteLoc l.entry then
      .error (if pteW l.entry then conflict 7 va else XFault.trap ⟨0x07, l.level, false, none⟩ .atomic va)
    else match s.translate s.myCtx m va with
      | .ok (.dev p) f => .ok (p, f)
      | .bad f => .error (f.trap .atomic va)
      | _ => .error (conflict 7 va)

/-- R97, check 7: the 32 bytes of the log in which a contribution is recorded. A page behind a host port that is not resident is
refused with detail 7 too.
DESIGN CHOICE: log 63. -/
def State.logPage (s : State) (va : Nat) : Except Trap (Nat × Leaf) :=
  let m : Mode := { kind := .write, core := s.cur.core }
  match s.leafAt s.myCtx m va with
  | .error f => .error (f.trap .write va)
  | .ok l => match s.translate s.myCtx m va with
    | .ok (.dev p) f => .ok (p, f)
    | .bad f => if pteLoc l.entry && f.sub != 0x07 then .error (conflict 7 va) else .error (f.trap .write va)
    | _ => .error (conflict 7 va)

/-- R94: the contents of the log are unspecified: 32 bytes of it become free values.
DEDUCED: log 16. -/
def State.writeLog (s : State) (p : Nat) (l : Leaf) : State :=
  let (x, s) := s.choose (2 ^ 256)
  (s.homeRuns true [(some (.dev p), 32, l)] .kall true).wrNat (.dev p) 32 x

/-- R34: the first of the two pages of a contribution that is still to be walked for. -/
def State.redMissing (s : State) (l va log : Nat) : Option Nat :=
  (s.missing s.myCtx s.cur.core l 1 (va % 2 ^ 64) 1).or (s.missing s.myCtx s.cur.core l 1 (log % 2 ^ 64) 1)

/-- One lane's contribution, checked in the order of R97, then against the watchpoints (R22, R426) and the log's errors (R80), and
recorded.
DEDUCED: log 16. DEDUCED: log 57. -/
def State.contribute (s : State) (l : Nat) (op : AOp) (t : ATy) (va : Nat) (x : DWord) : Res :=
  match s.grp, s.launch? s.myLaunch with
  | some g, some la =>
    match la.table.findIdx? (fun r => decide (r.base ≤ va) && decide (va < r.base + r.bytes)) with
    | none => .trap (conflict 3 va)
    | some k => match la.table[k]? with
      | none => .trap (conflict 3 va)
      | some r =>
        if r.op ≠ op ∨ r.ty ≠ t then .trap (conflict 4 va)
        else if va % t.bytes ≠ 0 then .trap (misaligned va)
        else
          let share := r.logBytes / 32 / 512
          let held := (la.contrib.filter fun c => lslice c.va == lslice va).length
          let logVa := r.log + 32 * (lslice va * share + held)
          match if (s.ctxAt g.ctx).en then s.redMissing l va logVa else none with
          | some page => .wait (s.miss s.cur.core g.ctx page [(s.cur.slot, l)])
          | none => match s.redPage va with
            | .error e => .trap e
            | .ok (pa, leaf) =>
              let seq := (s.lane l).seq
              if 2 ^ 32 ≤ seq then .trap (conflict 6 va)
              else if share ≤ held then .trap (conflict 5 va)
              else match s.logPage logVa with
                | .error e => .trap e
                | .ok (lp, logLeaf) => match if (s.lane l).noWatch then none else (s.ctxAt g.ctx).watched .atomic va t.bytes with
                  | some w => .trap { cause := .watch, detail := w, aux := va }
                  | none => match s.ueIn (.dev lp) 32 with
                  | some e => .trap (ueTrap e)
                  | none =>
                    let no := match s.myTeam with | some tm => tm.no | none => 0
                    let c : Contribution := ⟨(no, 32 * g.index + l, seq), va, pa, k, (policy leaf .kall).l2, x⟩
                    let s := (((s.writeLog lp logLeaf).dropLines s.cur.core (.dev pa) t.bytes).walkServed s.cur.core g.ctx l va
                      1).walkServed s.cur.core g.ctx l (logVa % 2 ^ 64) 1
                    let s := s.updLaunch la.id fun la => { la with contrib := la.contrib ++ [c] }
                    .ok (s.updLane l fun t => { t with seq := seq + 1 }) none
  | _, _ => .trap (conflict 3 va)

/-- `red.ord`, R336. -/
def execRedOrd (op : AOp) (t : ATy) (h : Hint) (a : Src) (off : BitVec 12) (b : Src) (s : State) : Out :=
  done (perLane (.redOrd op t h a off b) (fun l s => s.contribute l op t (s.ea l a off) (s.arg l b t.regs)) s)

/-- Keys of R96, compared in order. -/
def keyLe (a b : Nat × Nat × Nat) : Bool :=
  decide (a.1 < b.1) || (a.1 == b.1 && (decide (a.2.1 < b.2.1) || (a.2.1 == b.2.1 && decide (a.2.2 ≤ b.2.2))))

/-- Width in bits of an element of a range, and the elements of the bytes that a contribution names: for `.f16` and `.bf16` an
element is one half of them (R100). -/
def RedRange.elemBits (r : RedRange) : Nat := match r.ty with | .f16 => 16 | .bf16 => 16 | t => t.width
def RedRange.elems (r : RedRange) : Nat := r.ty.width / r.elemBits

/-- The contributions to one address applied to a value in the order given, R100. -/
def RedRange.apply (r : RedRange) (cs : List Contribution) (x : Nat) : Nat :=
  cs.foldl (fun x c => aop r.op r.ty x (c.value.toNat % 2 ^ r.ty.width) 0 % 2 ^ r.ty.width) x

/-- The bytes of an address before the first write of a host since the launch was accepted, R98. -/
def State.beforeHost (s : State) (la : Launch) (pa n : Nat) : Nat :=
  leNat ((List.range n).map fun k => Assoc.get la.hosted (pa + k) (s.rdByte (.dev (pa + k))))

/-- R98, R93: an element that a host has written is left at the host's value, at the value that the commit gives the one before it,
or at the value that the commit gives the host's. -/
def State.unspecified (s : State) (la : Launch) (pa : Nat) (r : RedRange) (cs : List Contribution) : Nat × State :=
  let n := r.ty.bytes
  let now := s.rdNat (.dev pa) n
  let part (x e : Nat) : Nat := x / 2 ^ (r.elemBits * e) % 2 ^ r.elemBits
  (List.range r.elems).foldl (fun (a : Nat × State) e =>
    let b := r.elemBits / 8
    if la.hosted.any fun h => decide (pa + e * b ≤ h.1) && decide (h.1 < pa + (e + 1) * b) then
      let (k, s) := a.2.choose 3
      let x := if k = 0 then now else if k = 1 then r.apply cs (s.beforeHost la pa n) else r.apply cs now
      (a.1 + part x e * 2 ^ (r.elemBits * e), s)
    else (a.1 + part (r.apply cs now) e * 2 ^ (r.elemBits * e), a.2)) (0, s)

/-- The contributions to one element, at one address where it lay, applied in key order and written once, R100. L2 keeps the line as
the page of the first allows (R23). -/
def State.commitOne (s : State) (la : Launch) (pa range : Nat) (cs : List Contribution) : State :=
  match la.table[range]? with
  | none => s
  | some r =>
    let (x, s) := s.unspecified la pa r cs
    (s.homeRange (.dev pa) r.ty.bytes true (cs.any fun c => c.keep) false true).wrNat (.dev pa) r.ty.bytes x

/-- The elements of a launch's ranges one after another, each with the contributions that name it (R100).
DESIGN CHOICE: log 15. -/
def State.commit (s : State) (la : Launch) : State :=
  let cs := sortBy (fun a b => keyLe a.key b.key) la.contrib
  ((cs.map fun c => (c.va, c.pa, c.range)).eraseDups).foldl (fun s e =>
    s.commitOne la e.2.1 e.2.2 (cs.filter fun c => c.va == e.1 && c.pa == e.2.1 && c.range == e.2.2)) s

/-- The first uncorrectable error among the bytes of the elements that a commit writes. -/
def State.commitError (s : State) (la : Launch) : Option Nat :=
  la.contrib.findSome? fun c => match la.table[c.range]? with
    | some r => s.ueIn (.dev c.pa) r.ty.bytes
    | none => none

/-- `ORDERED_REDUCTION_COMMIT`, R100, when every team has exited: every element of the launch's ranges, or none where an uncorrectable
error ends the context (R101).
DESIGN CHOICE: log 79. -/
def execOrderedReductionCommit (launch : Nat) (s : State) : Out :=
  done (match s.launch? launch with
  | none => s
  | some la =>
    if la.committed || !la.allPlaced || s.teamsLeft launch then s
    else match s.commitError la with
      | some pa => (s.noteUe pa).endContext la.ctx 0
      | none => (s.commit la).updLaunch launch fun la => { la with committed := true })

end Sys2Proof.Machine
end

