-- ==== Sys2Proof/Machine/Collective.lean ====
section
/-!
DEFINITION. Collectives over the tiles of a class (R188, R189, R311 to R317) and hashed random numbers (R318).
-/
namespace Sys2Proof.Machine

/-! ### Participants, R188, R189, R311 -/

/-- T of R188. -/
def State.tileSize (s : State) : Nat := match s.grp with | some g => 2 ^ g.tpart | none => 32
/-- The participants in the tile of a lane, ascending. -/
def State.tileOf (s : State) (cls : List Nat) (l : Nat) : List Nat :=
  cls.filter fun k => k / s.tileSize == l / s.tileSize

/-- R311: a collective of the whole class, or of the lanes below the lowest that fails R190 (or R79), which traps. `f`
gives each participant's result words and the status bits of the issue. -/
def collective (i : Instr) (d : Nat) (f : State → List Nat → (Nat → List Word) × Nat) (s : State) : State :=
  let bad (l : Nat) : Bool := !(s.lane l).inFrame i.vecRegs || s.meetsError l i
  let cls := s.cur.lanes.takeWhile fun l => !bad l
  let rest := s.cur.lanes.dropWhile fun l => !bad l
  let (out, fl) := f s cls
  let s' := (cls.foldl (fun a l => (a.setVs l d (out l)).setPc l s.cur.next) s).orFstat fl
  match rest with
  | [] => s'.withFate .go
  | l :: _ =>
    s'.split rest (if !(s.lane l).inFrame i.vecRegs then { cause := .regOutOfFrame } else { cause := .memUncorrectable })

/-- A collective without status bits. -/
def collectivePure (i : Instr) (d : Nat) (f : State → List Nat → Nat → List Word) (s : State) : State :=
  collective i d (fun s c => (f s c, 0)) s

/-- A mask of lanes. -/
def maskOf (ls : List Nat) : Word := BitVec.ofNat 32 (ls.foldl (fun a l => a + 2 ^ l) 0)

/-! ### Vote, match, shuffle: R312 to R314 -/

def voteOf (k : VoteKind) (part : List Nat) (true? : Nat → Bool) : Word :=
  match k with
  | .all => boolWord (part.all true?)
  | .any => boolWord (part.any true?)
  | .eq => boolWord (part.all true? || !part.any true?)
  | .ballot => maskOf (part.filter true?)

def execVote (k : VoteKind) (d : Nat) (a : Src) (s : State) : Out :=
  done (collectivePure (.vote k d a) d (fun s c l => [voteOf k (s.tileOf c l) fun p => s.reg p a 0 != 0]) s)

/-- The operand of a collective, its low w bits for an integer type. -/
def State.collArg (s : State) (t : CTy) (l : Nat) (x : Src) : Nat :=
  match t.int? with
  | some i => s.ibits i l x
  | none => (s.arg l x t.regs).toNat

def execMatchLanes (t : CTy) (d : Nat) (a : Src) (s : State) : Out :=
  done (collectivePure (.matchLanes t d a) d
    (fun s c l => [maskOf ((s.tileOf c l).filter fun p => s.collArg t p a == s.collArg t l a)]) s)

/-- The source lane of a shuffle and whether it is valid, R314. -/
def shflFrom (m : ShflMode) (size l b : Nat) : Nat × Bool :=
  let base := l / size * size
  match m with
  | .idx => (base + b % size, true)
  | .up => (l - b, decide (b < size) && decide (base + b ≤ l))
  | .down => (l + b, decide (b < size) && decide (l + b < base + size))
  | .xor => (l ^^^ (b % size), true)

def execShfl (t : CTy) (m : ShflMode) (d : Nat) (a b : Src) (s : State) : Out :=
  done (collectivePure (.shfl t m d a b) d (fun s c l =>
    let (src, ok) := shflFrom m s.tileSize l (s.reg l b 0).toNat
    s.regs (if ok && (s.tileOf c l).contains src then src else l) a t.regs) s)

/-! ### Reductions and scans, R315, R316 -/

/-- The bits of a register or a pair. -/
def bitsOf (xs : List Word) : Nat := (xs.headD 0).toNat + 2 ^ 32 * (xs.getD 1 0).toNat
def wordsOf (regs : Nat) (x : Nat) : List Word := (twoWords (BitVec.ofNat 64 x)).take regs

/-- An integer operation of R315. -/
def intRed (op : RedOp) (t : ITy) (a b : DWord) : Int :=
  let x := t.val a
  let y := t.val b
  match op with
  | .add => x + y
  | .min => Min.min x y
  | .max => Max.max x y
  | .and => (t.bits a &&& t.bits b : Nat)
  | .or => (t.bits a ||| t.bits b : Nat)
  | .xor => (t.bits a ^^^ t.bits b : Nat)
  | _ => x

/-- A floating operation of R315 on one element. -/
def floatRed (op : RedOp) (t : FTy) (e : FEnv) (a b : Nat) : FRes :=
  match op with
  | .fmin => fminmaxE false t e 0 [a, b]
  | .fmax => fminmaxE true t e 0 [a, b]
  | _ => faddE t e 0 [a, b]

/-- `op` of R315 on two operands, with the status bits. -/
def redStep (op : RedOp) (t : CTy) (e : FEnv) (a b : Nat) : Nat × Nat :=
  match t.int?, t.float? with
  | some i, _ => (bitsOf (i.out (intRed op i (BitVec.ofNat 64 a) (BitVec.ofNat 64 b))), 0)
  | none, some f =>
    let w := f.fmt.width
    let rs := (List.range f.elems).map fun j => floatRed op f e (a / 2 ^ (w * j) % 2 ^ w) (b / 2 ^ (w * j) % 2 ^ w)
    (bitsOf (f.pack (rs.map (·.val))), rs.foldl (fun x r => x ||| r.fl) 0)
  | none, none => (a, 0)

/-- An operand as it enters the tree, read and extended under R271. -/
def State.redArg (s : State) (t : CTy) (l : Nat) (x : Src) : Nat :=
  match t.int? with
  | some i => bitsOf (i.out (s.int i l x))
  | none => (s.arg l x t.regs).toNat

/-- One level of the tree: neighbours combined, absent ones passed over. -/
def redLevel (f : Nat → Nat → Nat × Nat) : List (Option Nat) → List (Option Nat) × Nat
  | x :: y :: rest =>
    let (r, fl) := redLevel f rest
    match x, y with
    | none, y => (y :: r, fl)
    | x, none => (x :: r, fl)
    | some a, some b => let (v, k) := f a b; (some v :: r, fl ||| k)
  | xs => (xs, 0)
def redTree (f : Nat → Nat → Nat × Nat) : Nat → List (Option Nat) → Option Nat × Nat
  | 0, xs => (xs.headD none, 0)
  | n + 1, xs =>
    let (ys, fl) := redLevel f xs
    let (v, k) := redTree f n ys
    (v, fl ||| k)

/-- Bases of the tiles that hold participants. -/
def State.tileBases (s : State) (cls : List Nat) : List Nat := ((cls.map fun l => l / s.tileSize).eraseDups).map (· * s.tileSize)

/-- The environment of a collective's floating operations: mode 1 (R315). -/
def State.redEnv (s : State) : FEnv := { s.fenv 0 .rn with rm := 1 }

def execTred (t : CTy) (op : RedOp) (d : Nat) (a : Src) (s : State) : Out :=
  done (collective (.tred t op d a) d (fun s c =>
    let size := s.tileSize
    let f := redStep op t s.redEnv
    let tree (base : Nat) : Option Nat × Nat :=
      redTree f (Nat.log2 size) ((List.range size).map fun k =>
        if c.contains (base + k) then some (s.redArg t (base + k) a) else none)
    let rs := (s.tileBases c).map fun b => (b, tree b)
    (fun l => wordsOf t.regs (((rs.find? fun r => r.1 == l / size * size).bind (·.2.1)).getD 0),
     rs.foldl (fun x r => x ||| r.2.2) 0)) s)

/-- The identity of an operation, R316. -/
def redIdentity (op : RedOp) (t : CTy) : Nat :=
  match t.int?, t.float? with
  | some i, _ => match op with
    | .and => bitsOf (i.out (-1))
    | .min => bitsOf (i.out i.most)
    | .max => bitsOf (i.out i.least)
    | _ => 0
  | none, some f =>
    let x := match op with
      | .fmin => f.fmt.infBits
      | .fmax => f.fmt.signBits true + f.fmt.infBits
      | _ => 0
    bitsOf (f.pack (List.replicate f.elems x))
  | none, none => 0

/-- The chain of R316 over the participants: each lane's result, and the status bits. -/
def scanGo (f : Nat → Nat → Nat × Nat) (arg : Nat → Nat) (excl : Bool) (ident : Nat) :
    List Nat → Option Nat → List (Nat × Nat) × Nat
  | [], _ => ([], 0)
  | l :: ls, acc =>
    let (v, k) := match acc with | none => (arg l, 0) | some x => f x (arg l)
    let out := if excl then acc.getD ident else v
    let (r, fl) := scanGo f arg excl ident ls (some v)
    ((l, out) :: r, fl ||| k)

def execTscan (t : CTy) (op : RedOp) (excl : Bool) (d : Nat) (a : Src) (s : State) : Out :=
  done (collective (.tscan t op excl d a) d (fun s c =>
    let f := redStep op t s.redEnv
    let rs := (s.tileBases c).map fun b =>
      scanGo f (fun l => s.redArg t l a) excl (redIdentity op t) (s.tileOf c b) none
    let all := (rs.map (·.1)).flatten
    (fun l => wordsOf t.regs (((all.find? fun e => e.1 == l).map (·.2)).getD 0),
     rs.foldl (fun x r => x ||| r.2) 0)) s)

/-! ### `part`, R317 -/

def execPart (a : Src) (s : State) : Out :=
  done (uniformly (.part a) (perClass fun s =>
    let v := (s.reg s.lead a 0).toNat
    .ok (s.updGrp fun g => { g with tpart := if 1 ≤ v ∧ v ≤ 5 then v else 5 }) none) s)

/-! ### Hashed random numbers, R318 -/

def hrandStep (h w : Word) : Word :=
  let h := (h ^^^ w) * 0x9E3779B1#32
  let h := h ^^^ (h >>> 15)
  let h := h * 0x2C1B3C6D#32
  h ^^^ (h >>> 12)
def hrandOf (p x k : Word) : Word :=
  let h := hrandStep (hrandStep (hrandStep 0x2545F491#32 p) x) k
  h ^^^ (h >>> 16)

def execHrand (d : Nat) (a b : Src) (s : State) : Out :=
  done (perLane (.hrand d a b) (fun l s => .ok (s.setV l d (hrandOf (s.reg l a 0) (s.reg l a 1) (s.reg l b 0))) none) s)

end Sys2Proof.Machine
end

