-- ==== Sys2Proof/Machine/Mvx.lean ====
section
/-!
DEFINITION. The matrix-vector family (R367 to R371) and the sluice (R227, R228): the core path, which reads the matrix at the
home slices, and the bank path, on which the units of its half-rows form the chunk results (R75, R78).
-/
namespace Sys2Proof.Machine

/-! ### The descriptor and the matrix, R368, R369 -/

abbrev MvxDesc := List Word

def MvxDesc.w (d : MvxDesc) (off : Nat) : Nat := (d.getD (off / 4) 0).toNat
def MvxDesc.mbase (d : MvxDesc) : Nat := d.w 0 + d.w 4 * 2 ^ 32
def MvxDesc.rows (d : MvxDesc) : Nat := d.w 8
def MvxDesc.mfmt (d : MvxDesc) : Nat := bits (d.w 0xC) 31 29
def MvxDesc.kc (d : MvxDesc) : Nat := bits (d.w 0xC) 15 0
def MvxDesc.vstride (d : MvxDesc) : Nat := d.w 0x10
def MvxDesc.rscale (d : MvxDesc) : Nat := d.w 0x18 + d.w 0x1C * 2 ^ 32

def MvxDesc.valid (d : MvxDesc) (k : MvxKind) (vaddr : Nat) : Bool :=
  decide (d.mbase < 2 ^ 52) && d.mbase % 1024 == 0 && d.rows != 0 && decide (d.mfmt < 4) && bits (d.w 0xC) 28 16 == 0
    && d.kc != 0 && d.vstride % 128 == 0 && d.w 0x14 == 0 && (k != .scaled || d.rscale % 4 == 0) && vaddr % 128 == 0

/-- Blocks of a row, and the address of a block. -/
def MvxDesc.bpr (d : MvxDesc) : Nat := ceilDiv d.kc (mfmtPerHalf d.mfmt)
def MvxDesc.block (d : MvxDesc) (q b : Nat) : Nat := (d.mbase + (q * d.bpr + b) * 1024) % 2 ^ 64
/-- Blocks of the whole matrix. -/
def MvxDesc.blocks (d : MvxDesc) : List Nat := (List.range (d.rows * d.bpr)).map fun k => (d.mbase + k * 1024) % 2 ^ 64

def MvxDesc.ofBytes (xs : List Byte) : MvxDesc := (List.range 8).map fun i => BitVec.ofNat 32 (leNat ((xs.drop (4 * i)).take 4))

/-- round(y × S), FP32. -/
def scaleRow (y sc : Nat) : Nat :=
  match prodOf (f32 y) (f32 sc) with
  | .nan _ _ => FTy.f32.fmt.nanBits
  | .inf s => FTy.f32.fmt.signBits s + FTy.f32.fmt.infBits
  | .fin s m e => (FTy.f32.fmt.roundDy 1 0 s (Dy.ofVal (.fin s m e))).val

/-! ### The reads of a call, R370 -/

/-- What a part of a call answers, or the fault that it takes and what it waits on. -/
abbrev CallPart (α : Type) := Except (State × Option Nat) (State × α)

/-- Parts one after another. -/
def eachPart {α β : Type} (f : State → α → CallPart β) : State → List α → CallPart (List β)
  | s, [] => .ok (s, [])
  | s, x :: xs => match f s x with
    | .error e => .error e
    | .ok (s, y) => match eachPart f s xs with
      | .error e => .error e
      | .ok (s, ys) => .ok (s, y :: ys)

/-- Who calls: the group, and the source of its faults. -/
structure Caller where
  g : Group
  src : Source

/-- A call named: its core, its group's slot and its address. -/
def Caller.call (k : Caller) : Nat × Nat × Nat := (k.g.core, k.g.slot, k.src.pc.toNat)

/-- A read of a call, at the home slices. -/
def Caller.read (k : Caller) (s : State) (va n : Nat) : CallPart (List Byte) :=
  match s.engineCheck k.g.ctx (s.launchOf k.g) k.src { kind := .read, core := k.g.core } va n with
  | .error e => .error e
  | .ok (s, runs) => .ok (s.homeRuns false runs, s.rdRuns runs)

/-- Chunk j of row q. -/
def MvxDesc.chunk (d : MvxDesc) (k : Caller) (q : Nat) (s : State) (j : Nat) : CallPart (List FVal) :=
  let cph := mfmtPerHalf d.mfmt
  let n := mfmtChunk d.mfmt
  let at_ := d.block q (j / cph)
  match k.read s (at_ + n * (j % cph)) n with
  | .error e => .error e
  | .ok (s, data) =>
    if d.mfmt = 3 then
      match k.read s (at_ + 960 + 2 * (j % cph)) 2 with
      | .error e => .error e
      | .ok (s, sc) => .ok (s, chunkElems 3 data sc)
    else .ok (s, chunkElems d.mfmt data [])

def vectorSize (t : FTy) : Nat := if t = .bf16 then 2 else 1

/-- The bytes of vector v, chunk by chunk. -/
def MvxDesc.vector (d : MvxDesc) (k : Caller) (t : FTy) (vaddr : Nat) (s : State) (v : Nat) : CallPart (List Byte) :=
  match eachPart (fun s j => k.read s ((vaddr + v * d.vstride + j * 64 * vectorSize t) % 2 ^ 64) (64 * vectorSize t)) s
      (List.range d.kc) with
  | .error e => .error e
  | .ok (s, cs) => .ok (s, cs.flatten)

def vectorElems (t : FTy) (kc : Nat) (xs : List Byte) : List FVal :=
  let z := vectorSize t
  (List.range (64 * kc)).map fun i => t.fmt.decode (leNat ((xs.drop (z * i)).take z))

/-- The sums of row q for each vector on the core path, from the start values `cs`. -/
def MvxDesc.coreSums (d : MvxDesc) (k : Caller) (t : FTy) (vs : List (List Byte)) (s : State) (q : Nat) (cs : List Nat) :
    CallPart (List Nat) :=
  match eachPart (d.chunk k q) s (List.range d.kc) with
  | .error e => .error e
  | .ok (s, m) => .ok (s, (cs.zip vs).map fun c => chunkSumAll c.1 (m.flatten.zipWith prodOf (vectorElems t d.kc c.2)))

/-! ### The sluice, R227 -/

/-- Where a block lies, if its page is BANKED device memory. -/
def State.bankedAt (s : State) (ctx core va : Nat) : Option Nat :=
  match s.translate ctx { core } va with
  | .ok (.dev p) l => if pteBanked l.entry then some p else none
  | _ => none

/-- R227, condition 1. -/
def State.bankable (s : State) (g : Group) (d : MvxDesc) : Bool :=
  (s.dieAt (s.physDie (dieOf g.core))).bank
    && d.blocks.all fun va => match s.bankedAt g.ctx g.core va with
        | some p => (s.dieAt (s.physDie (homeOf s.dieCount p).1)).bank
        | none => false

/-- The entries of tables that the sluice reads to find where blocks lie (R61, R71, R81). -/
def State.blockReads (s : State) (g : Group) (vas : List Nat) : State :=
  vas.foldl (fun s va => s.tableReads g.ctx { core := g.core } va 1) s

/-- R227: the share, in sixteenths, of 64 lines of a matrix that the home slices hold.
DESIGN CHOICE: log 73. -/
def State.heldShare (s : State) (g : Group) (d : MvxDesc) : Nat :=
  let lines := 8 * d.blocks.length
  let held (i : Nat) : Bool := match s.bankedAt g.ctx g.core ((d.mbase + 128 * (i * lines / 64)) % 2 ^ 64) with
    | some p => s.l2.any fun e => e.key == (0, p / 128)
    | none => false
  16 * ((List.range 64).filter held).length / 64

/-- The path of a call; U is a free value. RESMAX and UTH are compared as they stand, also above 16.
DEDUCED: log 33. DEDUCED: log 37. DESIGN CHOICE: log 92. -/
def State.sluice (s : State) (g : Group) (h : PathHint) (n : Nat) (d : MvxDesc) : Bool :=
  let die := s.dieAt (dieOf g.core)
  let ctl := die.sluiceCtl.toNat
  let mode := bits ctl 31 30
  let hint := (die.sluiceHint.getD (match h with | .core => 0 | .auto => 1 | .bank => 2) 0).toNat
  let busy := Config.sluiceBusy s.free % 17
  s.bankable g d && mode != 1
    && (mode == 2
        || (decide (s.heldShare g d < bits ctl 12 8)
            && decide (n ≤ if bits ctl 4 0 ≤ busy then bits hint 12 8 else bits hint 4 0)))

/-! ### The bank path, R371 -/

/-- BA-LOADs of one vector's elements for a block, 32 bytes after 32, to both devices. -/
def State.loadVector (s : State) (call : Nat × Nat × Nat) (channel bank slot : Nat) (xs : List Byte) : State :=
  (List.range (xs.length / 32)).foldl (fun s i =>
    s.onPair channel bank (BankUnit.load (some call) slot (32 * i) ((xs.drop (32 * i)).take 32))) s

/-- One block of a row in the banks: the units start with an empty queue and no slot loaded; vector elements are loaded, both
devices stream, and their words are drained. The answer is the words of the block's device and whether a status word reports an
error. -/
def State.bankBlock (s : State) (call : Nat × Nat × Nat) (d : MvxDesc) (t : FTy) (pa n : Nat) (vs : List (List Byte)) : State × List Word × Bool :=
  let (ch, device, bank, row, _) := placeOf s.dieCount pa
  let channel := s.chanNo ch
  let words := n * vs.length + 1
  let s := s.onPair channel bank fun u => { u with queue := [], loaded := [] }
  let s := vs.zipIdx.foldl (fun s v => s.loadVector call channel bank v.2 v.1) s
  let r : BankStream :=
    { die := channel / 12, channel := channel % 12, bank, row, first := 0, count := n, mfmt := d.mfmt
      vfmt := if t = .bf16 then 0 else 1, smask := 2 ^ vs.length - 1 }
  let s := (s.stream r 0).stream r 1
  let status := (s.unit channel 0 bank).statuses words ++ (s.unit channel 1 bank).statuses words
  (s.drainPair channel bank words, (s.unit channel device bank).head words, status.any fun w => bits w.toNat 30 28 != 0)

/-- The sums of row q for each vector in the banks, block by block from block `b`, added by the combiner in ascending chunk order;
none where a status word reports an error. -/
def MvxDesc.bankSums (d : MvxDesc) (k : Caller) (t : FTy) (vs : List (List Byte)) (q : Nat) :
    State → List Nat → Nat → Nat → CallPart (Option (List Nat))
  | s, cs, _, 0 => .ok (s, some cs)
  | s, cs, b, left + 1 =>
    let va := d.block q b
    match s.reserved k.g.ctx (s.launchOf k.g) .read va 1024 with
    | some x => .error (s.engineFault k.g.ctx (conflict x va) k.src)
    | none => match s.bankedAt k.g.ctx k.g.core va with
      | none => .ok (s, none)
      | some pa =>
        let cph := mfmtPerHalf d.mfmt
        let n := Nat.min cph (d.kc - b * cph)
        let z := 64 * vectorSize t
        let (s, ws, bad) := (s.blockReads k.g [va]).bankBlock k.call d t pa n (vs.map fun xs => (xs.drop (b * cph * z)).take (n * z))
        if bad then .ok (s, none)
        else
          let sum (v c : Nat) : Nat := (List.range n).foldl (fun c j => add32 c (ws.getD (j * vs.length + v) 0).toNat) c
          d.bankSums k t vs q s (cs.zipIdx.map fun c => sum c.2 c.1) (b + 1) left

/-! ### A call performed, R370, R371 -/

/-- How a path forms the sums of a row: none where the path fails (R78). -/
abbrev RowSums := State → Nat → List Nat → CallPart (Option (List Nat))

/-- The results of one lane for one row. -/
def MvxDesc.rowResults (d : MvxDesc) (kind : MvxKind) (k : Caller) (sums : RowSums) (s : State) (q : Nat) (cs : List Nat) :
    CallPart (Option (List Nat)) :=
  if d.rows ≤ q then .ok (s, some cs)
  else match sums s q cs with
    | .error e => .error e
    | .ok (s, none) => .ok (s, none)
    | .ok (s, some ys) =>
      if kind = .scaled then
        match k.read s ((d.rscale + 4 * q) % 2 ^ 64) 4 with
        | .error e => .error e
        | .ok (s, sc) => .ok (s, some (ys.map fun y => scaleRow y (leNat sc)))
      else .ok (s, some ys)

/-- The results of a call on one path, lane by lane and row by row: none where one is missing. -/
def MvxDesc.results (d : MvxDesc) (kind : MvxKind) (k : Caller) (sums : RowSums) (nr nv : Nat) (ops : List LaneOp) (s : State) :
    CallPart (Option (List (Nat × Nat × Word))) :=
  let cells := (ops.map fun op => (List.range nr).map fun i => (op, i)).flatten
  match eachPart (fun s (x : LaneOp × Nat) =>
      match d.rowResults kind k sums s (x.1.addr.toNat + x.2) ((List.range nv).map fun v => (x.1.args.getD (x.2 * nv + v) 0).toNat) with
      | .error e => .error e
      | .ok (s, ys) => .ok (s, ys.map fun ys => ys.zipIdx.map fun y => (x.1.lane, x.1.dst + x.2 * nv + y.2, BitVec.ofNat 32 y.1))) s
      cells with
  | .error e => .error e
  | .ok (s, rs) => .ok (s, if rs.all Option.isSome then some (rs.filterMap id).flatten else none)

/-- The values that a call writes, as (lane, slot, value). A call that fails in the banks runs again in the core (R78).
DEDUCED: log 37. -/
def State.mvxAll (s : State) (g : Group) (pc : DWord) (kind : MvxKind) (t : FTy) (h : PathHint) (nr nv : Nat)
    (desc vaddr : Nat) (ops : List LaneOp) : CallPart (List (Nat × Nat × Word)) :=
  let lead := match ops with | op :: _ => op.lane | [] => 0
  let k : Caller := ⟨g, s.laneSource 8 g.core g.slot lead pc⟩
  match k.read s desc 32 with
  | .error e => .error e
  | .ok (s, xs) =>
    let d := MvxDesc.ofBytes xs
    if !d.valid kind vaddr then
      .ok (s, (ops.map fun op => (List.range (nr * nv)).map fun i => (op.lane, op.dst + i, BitVec.ofNat 32 FTy.f32.fmt.nanBits)).flatten)
    else
      let none_ := (ops.map fun op => (List.range nr).map fun i => op.addr.toNat + i).flatten.all fun q => decide (d.rows ≤ q)
      let bank := s.sluice g h nv d
      let read := if (s.dieAt (s.physDie (dieOf g.core))).bank then s.blockReads g d.blocks else s
      match eachPart (d.vector k t vaddr) { read with free := s.free + 1 } (if none_ then [] else List.range nv) with
      | .error e => .error e
      | .ok (s, vs) =>
        let core (s : State) : CallPart (List (Nat × Nat × Word)) :=
          match d.results kind k (fun s q cs => match d.coreSums k t vs s q cs with
              | .error e => .error e
              | .ok (s, ys) => .ok (s, some ys)) nr nv ops s with
          | .error e => .error e
          | .ok (s, ws) => .ok (s, ws.getD [])
        if !bank then core s
        else match d.results kind k (fun s q cs => d.bankSums k t vs q s cs 0 d.bpr) nr nv ops s with
          | .error e => .error e
          | .ok (s, some ws) => .ok (s, ws)
          | .ok (s, none) => core s

/-- R73: no slot loaded for a call serves a later one. -/
def State.callOver (s : State) (call : Nat × Nat × Nat) : State :=
  { s with units := s.units.map fun u => { u with loaded := u.loaded.filter fun e => e.2 != call } }

/-! ### The instructions, R367 -/

/-- The issue of a call: each lane's first row stands as its `addr`, its start values as its `args`. -/
def mvxIssue (i : Instr) (k : MvxKind) (t : FTy) (h : PathHint) (nrc nv d : Nat) (a b c : Src) (f : Nat) (s : State) :
    State :=
  let nr := mvxRows nrc
  let n := nr * (nv + 1)
  let ops : List LaneOp := s.cur.lanes.map fun l =>
    { lane := l, addr := (s.reg l c 0).setWidth 64, dst := (s.lane l).wb + d,
      args := if k = .acc then s.regs l (.v d) n else List.replicate n 0 }
  perLaneRequest i f a 32 (.mvx k t h nr (nv + 1) (s.pair s.lead a) (s.pair s.lead b) ops) s

def execMvx (t : FTy) (h : PathHint) (nrc nvM1 : Nat) (d : Nat) (a b c : Src) (f : Nat) (s : State) : Out :=
  done (mvxIssue (.mvx t h nrc nvM1 d a b c f) .plain t h nrc nvM1 d a b c f s)
def execMvxa (t : FTy) (h : PathHint) (nrc nvM1 : Nat) (d : Nat) (a b c : Src) (f : Nat) (s : State) : Out :=
  done (mvxIssue (.mvxa t h nrc nvM1 d a b c f) .acc t h nrc nvM1 d a b c f s)
def execMvxs (t : FTy) (h : PathHint) (nrc nvM1 : Nat) (d : Nat) (a b c : Src) (f : Nat) (s : State) : Out :=
  done (mvxIssue (.mvxs t h nrc nvM1 d a b c f) .scaled t h nrc nvM1 d a b c f s)

/-! ### BA-LOAD and BA-STREAM for a call, R72, R73 -/

/-- The outstanding calls with a block of their matrix, in BANKED pages, at a device address of which `need` holds. -/
def State.calls (s : State) (need : Nat → Bool) : List (Nat × Nat × Nat) :=
  (s.groups.map fun g => g.pend.filterMap fun p => match p.work with
    | .mvx k _ _ _ _ desc vaddr _ => match s.readVa g.ctx { core := g.core } desc.toNat 32 with
      | .ok xs _ =>
        let d := MvxDesc.ofBytes xs
        if d.valid k vaddr.toNat && d.blocks.any fun va => (s.bankedAt g.ctx g.core va).any need then
          some (g.core, g.slot, p.pc.toNat)
        else none
      | _ => none
    | _ => none).flatten

/-- The calls that need a half-row: its 2 KiB granule holds a block of theirs. -/
def State.callsOn (s : State) (pa : Nat) : List (Nat × Nat × Nat) := s.calls fun p => p / 2048 == pa / 2048

/-- The calls with a block in a bank of a channel. -/
def State.callsIn (s : State) (channel bank : Nat) : List (Nat × Nat × Nat) :=
  s.calls fun p => let (ch, _, b, _, _) := placeOf s.dieCount p; s.chanNo ch == channel && b == bank

/-- `BA_LOAD`: each device writes the 32 bytes of its data lanes to the slot at byte 32 × off; the lower device's come first. They are
loaded for the first outstanding call with a block in the bank, or for none.
DEDUCED: log 84. -/
def execBaLoad (die channel bank slot off : Nat) (data : List Byte) (s : State) : Out :=
  let ch := dieChannel die channel
  done (if !s.namesUnit die channel bank || decide (16 ≤ slot) || decide (128 ≤ off) || data.length != 64 then s
    else s.onPair ch bank fun u => u.load (s.callsIn ch bank).head? slot (32 * off) ((data.drop (32 * u.device)).take 32))

/-- `BA_STREAM`: both devices read their half-rows and queue their results, then their status words. The controller streams only
what an outstanding call needs, from slots that it has loaded for that call. -/
def execBaStream (r : BankStream) (s : State) : Out :=
  let ready (call : Nat × Nat × Nat) (device : Nat) : Bool :=
    (List.range 16).all fun k => !bit r.smask k || (s.unit (streamChannel r) device r.bank).holds call k
  done (if !s.namesUnit r.die r.channel r.bank || r.count == 0 || decide (32 < r.count) || decide (32 ≤ r.first)
      || decide (2 ^ 17 ≤ r.row) || decide (2 ≤ r.vfmt) || decide (8 ≤ r.mfmt) || decide (2 ^ 16 ≤ r.smask)
      || !(s.callsOn (s.streamAt r 0)).any (fun c => ready c 0 && ready c 1) then s
    else (s.stream r 0).stream r 1)

end Sys2Proof.Machine
end

