-- ==== Sys2Proof/Machine/Ray.lean ====
section
/-!
DEFINITION. The ray unit (R344, R345, R402 to R407): nodes, instances and triangles, their exact tests, and the traversal in the
order of R406, on a stack of eight entries with the restart trail of R407.
-/
namespace Sys2Proof.Machine

/-! ### Exact numbers with infinities, R404 -/

/-- An exact rational, an infinity, or no value. -/
inductive Ext where
  | none
  | inf (neg : Bool)
  | q (n : Int) (d : Nat)
  deriving DecidableEq, Repr

def Ext.ofDy (a : Dy) : Ext := .q (a.n * (pow2 a.e : Nat)) (pow2 (-a.e))
def Ext.ofVal : FVal → Ext
  | .nan _ _ => .none
  | .inf s => .inf s
  | v => .ofDy (Dy.ofVal v)
def Ext.of32 (x : Nat) : Ext := .ofVal (f32 x)

def Ext.le : Ext → Ext → Bool
  | .none, _ => false
  | _, .none => false
  | .inf s, .inf s' => s || !s'
  | .inf s, _ => s
  | _, .inf s => !s
  | .q a b, .q c d => decide (a * d ≤ c * b)
def Ext.lt (a b : Ext) : Bool := a.le b && !b.le a
def Ext.max (a b : Ext) : Ext := if a.le b then b else a
def Ext.min (a b : Ext) : Ext := if a.le b then a else b

def Ext.sub : Ext → Ext → Ext
  | .none, _ => .none
  | _, .none => .none
  | .inf s, .inf s' => if s = s' then .none else .inf s
  | .inf s, _ => .inf s
  | _, .inf s => .inf (!s)
  | .q a b, .q c d => .q (a * d - c * b) (b * d)
/-- A quotient by a number that is not zero. -/
def Ext.div : Ext → Ext → Ext
  | .none, _ => .none
  | _, .none => .none
  | .inf _, .inf _ => .none
  | .inf s, .q c _ => .inf (s != decide (c < 0))
  | .q _ _, .inf _ => .q 0 1
  | .q a b, .q c d => if c < 0 then .q (-(a * d)) (b * c.natAbs) else .q (a * d) (b * c.natAbs)
def Ext.isZero : Ext → Bool
  | .q 0 _ => true | _ => false

/-! ### Rays, nodes and items, R402, R403 -/

structure Ray where
  o : P3
  d : P3
  tmin : Ext

/-- What a child slot holds. -/
inductive Kid where
  | node (addr : Nat)
  | triangles (addr count : Nat)
  | instance_ (addr : Nat)
  deriving DecidableEq, Repr

/-- A child with its slot and its box, low and high on each axis. -/
structure Child where
  slot : Nat
  kid : Kid
  lo : P3
  hi : P3

def byteAt (xs : List Byte) (k : Nat) : Nat := (xs.getD k 0).toNat
def bytesAt (xs : List Byte) (k n : Nat) : Nat := leNat ((xs.drop k).take n)

/-- One bound of a child's box on an axis: o + q × 2^(e − 127), rounded under a mode. -/
def boxBound (mode o q e : Nat) : Nat :=
  match f32 o with
  | .fin s m ex =>
    let v := (Dy.ofVal (.fin s m ex)).add ⟨q, (e : Int) - 127⟩
    (FTy.f32.fmt.roundDy mode 0 s v).val
  | _ => o

/-- The children of a node in ascending slot; none where the node breaks R402. -/
def childrenOf (xs : List Byte) : List Child :=
  let org (k : Nat) : Nat := bytesAt xs (4 * k) 4
  let ew := bytesAt xs 0xC 4
  let ex (k : Nat) : Nat := ew / 256 ^ k % 256
  let nb := bytesAt xs 0x10 8
  let lb := bytesAt xs 0x18 8
  let head (c : Nat) : Nat := byteAt xs (0x20 + c)
  let ok := (List.range 3).all (fun k => (f32 (org k)).finite && ex k != 255) && ew / 2 ^ 24 == 0
    && nb % 128 == 0 && lb % 16 == 0 && (List.range 8).all (fun c => bits (head c) 5 3 == 0)
    && (List.range 24).all (fun k => byteAt xs (0x68 + k) == 0)
  if !ok then []
  else (List.range 8).filterMap fun c =>
    let q (k : Nat) : Nat := byteAt xs (0x28 + 6 * c + k)
    let idx := bytesAt xs (0x58 + 2 * c) 2
    let lo (k : Nat) : Nat := boxBound 4 (org k) (q k) (ex k)
    let hi (k : Nat) : Nat := boxBound 3 (org k) (q (k + 3)) (ex k)
    let child (kid : Kid) : Option Child :=
      if (List.range 3).any fun k => decide (q (k + 3) < q k) then none
      else some ⟨c, kid, (lo 0, lo 1, lo 2), (hi 0, hi 1, hi 2)⟩
    match bits (head c) 7 6 with
    | 1 => child (.node ((nb + 128 * idx) % 2 ^ 64))
    | 2 => child (.triangles ((lb + 48 * idx) % 2 ^ 64) (bits (head c) 2 0 + 1))
    | 3 => child (.instance_ ((lb + 64 * idx) % 2 ^ 64))
    | _ => none

/-- R403: a ray taken into an instance. -/
def Ray.transform (r : Ray) (xs : List Byte) : Ray :=
  let m (i k : Nat) : Nat := bytesAt xs (16 * i + 4 * k) 4
  let row (i : Nat) (p : P3) : Nat := r32add (r32add (r32mul (m i 0) p.1) (r32mul (m i 1) p.2.1)) (r32mul (m i 2) p.2.2)
  { r with o := (r32add (row 0 r.o) (m 0 3), r32add (row 1 r.o) (m 1 3), r32add (row 2 r.o) (m 2 3)),
           d := (row 0 r.d, row 1 r.d, row 2 r.d) }

/-! ### The tests, R404, R405 -/

/-- The near and far values of one axis; none where its interval is empty or has no value. -/
def axisSpan (o d lo hi : Nat) : Option (Ext × Ext) :=
  let eo := Ext.of32 o
  let ed := Ext.of32 d
  if eo = .none ∨ ed = .none then none
  else if ed.isZero then
    (if (Ext.of32 lo).le eo && eo.le (Ext.of32 hi) then some (.inf true, .inf false) else none)
  else
    let a := ((Ext.of32 lo).sub eo).div ed
    let b := ((Ext.of32 hi).sub eo).div ed
    if a = .none ∨ b = .none then none else some (a.min b, a.max b)

/-- R404: the entry value of a box that the ray enters. -/
def Ray.enters (r : Ray) (tc : Ext) (c : Child) : Option Ext :=
  match axisSpan r.o.1 r.d.1 c.lo.1 c.hi.1, axisSpan r.o.2.1 r.d.2.1 c.lo.2.1 c.hi.2.1,
      axisSpan r.o.2.2 r.d.2.2 c.lo.2.2 c.hi.2.2 with
  | some x, some y, some z =>
    let e := ((r.tmin.max x.1).max y.1).max z.1
    if e.le (((tc.min x.2).min y.2).min z.2) then some e else none
  | _, _, _ => none

/-- A point as exact coordinates. -/
abbrev D3 := Dy × Dy × Dy
def P3.exact (p : P3) : D3 := (exact32 p.1, exact32 p.2.1, exact32 p.2.2)
def D3.cross (a b : D3) : D3 :=
  ((a.2.1.mul b.2.2).sub (a.2.2.mul b.2.1), (a.2.2.mul b.1).sub (a.1.mul b.2.2), (a.1.mul b.2.1).sub (a.2.1.mul b.1))
def D3.dot (a b : D3) : Dy := ((a.1.mul b.1).add (a.2.1.mul b.2.1)).add (a.2.2.mul b.2.2)

/-- A hit: t exactly, and the words of the record. -/
structure RayHit where
  t : Ext
  t32 : Nat
  b1 : Nat
  b2 : Nat
  back : Bool
  tri : Nat
  inst : Nat := 0xFFFFFFFF
  user : Nat := 0

/-- The quotient of exact numbers. -/
def Dy.quot (a b : Dy) : Ext := (Ext.ofDy a).div (Ext.ofDy b)

/-- R405: a triangle item of 48 bytes. -/
def Ray.hits (r : Ray) (cullB cullF : Bool) (tc : Ext) (xs : List Byte) : Option RayHit :=
  let v (k : Nat) : P3 := (bytesAt xs (12 * k) 4, bytesAt xs (12 * k + 4) 4, bytesAt xs (12 * k + 8) 4)
  let e1 := P3.map2 r32sub (v 1) (v 0)
  let e2 := P3.map2 r32sub (v 2) (v 0)
  let s := P3.map2 r32sub r.o (v 0)
  if !(e1.finite && e2.finite && s.finite && r.d.finite) then none
  else
    let p := D3.cross r.d.exact e2.exact
    let det := D3.dot e1.exact p
    let q := D3.cross s.exact e1.exact
    let nb1 := D3.dot s.exact p
    let nb2 := D3.dot r.d.exact q
    let nt := D3.dot e2.exact q
    if det.n = 0 then none
    else
      let back := decide (det.n < 0)
      let zero : Ext := .q 0 1
      let t := nt.quot det
      if zero.le (nb1.quot det) && zero.le (nb2.quot det) && ((nb1.add nb2).quot det).le (.q 1 1)
          && r.tmin.le t && t.lt tc && !(if back then cullB else cullF) then
        some { t, t32 := round32 nt det, b1 := round32 nb1 det, b2 := round32 nb2 det, back, tri := bytesAt xs 0x24 4 }
      else none

/-! ### The traversal, R406, R407 -/

/-- An item of the stack: what it is, the ray, the instance on whose path it lies, whether it stands below one, its level, the slot
of the child that it is, and its entry value. -/
structure RayItem where
  kid : Kid
  ray : Ray
  inst : Nat := 0xFFFFFFFF
  user : Nat := 0
  bottom : Bool := false
  level : Nat
  slot : Nat := 0
  entry : Ext

/-- The restart trail at one level: the child descended into, and the last child taken, up to which the level is finished. -/
structure TrailStep where
  path : Nat
  last : Nat

/-- A traversal: the core and its state, the best hit so far, the current bound, the stack with its newest item first, whether
entries of it have been discarded, and the trail from the root's level down. -/
structure Trav where
  s : State
  best : Option RayHit := none
  tc : Ext
  stack : List RayItem
  lost : Bool := false
  trail : List TrailStep := []

/-- What a query carries along: how it reads, and its options. -/
structure Query where
  read : State → Nat → Nat → Except (State × Option Nat) (State × List Byte)
  any : Bool
  cullB : Bool
  cullF : Bool
  root : RayItem

/-- A push on a stack of eight entries: on a full one it discards the oldest (R407). -/
def Trav.push (tr : Trav) (x : RayItem) : Trav :=
  { tr with stack := (x :: tr.stack).take 8, lost := tr.lost || decide (8 ≤ tr.stack.length) }

/-- Children that a ray enters, as items, nearest first, the lowest slot on ties. -/
def RayItem.entered (x : RayItem) (tc : Ext) (cs : List Child) : List RayItem :=
  sortBy (fun a b => a.entry.le b.entry) (cs.filterMap fun c => (x.ray.enters tc c).map fun e =>
    { x with kid := c.kid, level := x.level + 1, slot := c.slot, entry := e })

/-- The items pushed so that the nearest is popped first. -/
def Trav.pushAll (tr : Trav) (xs : List RayItem) : Trav := xs.reverse.foldl Trav.push tr

/-- R402: a node at a level above 64 is not visited. -/
def RayItem.beyond (x : RayItem) : Bool := match x.kid with | .node _ => decide (64 < x.level) | _ => false

/-- A child taken: the trail at its parent's level. One that leads down begins the trail below it anew. -/
def Trav.take (tr : Trav) (x : RayItem) (down : Bool) : Trav :=
  if x.level = 0 then tr
  else
    let above := tr.trail.take (x.level - 1)
    if down then { tr with trail := above ++ [⟨x.slot, x.slot⟩] }
    else match tr.trail.drop (x.level - 1) with
      | [] => { tr with trail := above ++ [⟨8, x.slot⟩] }
      | e :: below => { tr with trail := above ++ { e with last := x.slot } :: below }

/-- The triangles of a leaf, ascending. -/
def Query.triangles (k : Query) (x : RayItem) : Nat → Nat → Trav → Except (State × Option Nat) (Trav × Bool)
  | 0, _, tr => .ok (tr, false)
  | n + 1, addr, tr =>
    match k.read tr.s addr 48 with
    | .error e => .error e
    | .ok (s, xs) =>
      let tr := { tr with s }
      match x.ray.hits k.cullB k.cullF tr.tc xs with
      | none => k.triangles x n ((addr + 48) % 2 ^ 64) tr
      | some h =>
        let tr := { tr with best := some { h with inst := x.inst, user := x.user }, tc := h.t }
        if k.any then .ok (tr, true) else k.triangles x n ((addr + 48) % 2 ^ 64) tr

/-- R403: the root of an instance's own hierarchy, for the ray taken into it; none where the record names no root. -/
def Query.into (k : Query) (s : State) (x : RayItem) (addr : Nat) : Except (State × Option Nat) (State × Option RayItem) :=
  match k.read s addr 64 with
  | .error e => .error e
  | .ok (s, ys) =>
    let root := bytesAt ys 0x30 8
    .ok (s, if root % 128 ≠ 0 then none
      else some { x with kid := .node root, ray := x.ray.transform ys, inst := bytesAt ys 0x38 4, user := bytesAt ys 0x3C 4,
                         bottom := true })

/-- R407: the trail followed from a node or an instance down. At each level the children after the last one taken are pushed. -/
def Query.follow (k : Query) : List TrailStep → RayItem → Trav → Except (State × Option Nat) Trav
  | [], _, tr => .ok tr
  | e :: es, x, tr =>
    let at_ : Except (State × Option Nat) (State × Option RayItem) := match x.kid with
      | .instance_ a => k.into tr.s x a
      | _ => .ok (tr.s, some x)
    match at_ with
    | .error e => .error e
    | .ok (s, none) => .ok { tr with s }
    | .ok (s, some x) => match x.kid with
      | .node a => match k.read s a 128 with
        | .error e => .error e
        | .ok (s, xs) =>
          let all := x.entered (.inf false) (childrenOf xs)
          let after := ((all.dropWhile fun y => y.slot != e.last).drop 1).filter fun y => y.entry.le tr.tc
          let tr := ({ tr with s }).pushAll after
          match all.find? fun y => y.slot == e.path with
          | some y => k.follow es y tr
          | none => .ok tr
      | _ => .ok { tr with s }

/-- One round: the newest item is popped and processed; a stack that is empty after entries were discarded is filled again from
the trail. The answer says whether the traversal is over. -/
def Query.round (k : Query) (tr : Trav) : Except (State × Option Nat) (Trav × Bool) :=
  match tr.stack with
  | [] =>
    if tr.lost then (k.follow tr.trail k.root { tr with lost := false }).map fun tr => (tr, false) else .ok (tr, true)
  | x :: rest =>
    let tr := { tr with stack := rest }
    if tr.tc.lt x.entry || x.beyond then .ok (tr, false)
    else match x.kid with
      | .node a =>
        match k.read tr.s a 128 with
        | .error e => .error e
        | .ok (s, xs) => .ok (({ (tr.take x true) with s }).pushAll (x.entered tr.tc (childrenOf xs)), false)
      | .triangles a n => k.triangles x n a (tr.take x false)
      | .instance_ a =>
        if x.bottom then .ok (tr.take x false, false)
        else match k.into tr.s x a with
          | .error e => .error e
          | .ok (s, none) => .ok ({ (tr.take x false) with s }, false)
          | .ok (s, some y) => .ok (({ (tr.take x true) with s }).push y, false)

/-- Rounds until the traversal is over. A hierarchy of 64 levels with eight children each is done in fewer than 2^210. -/
def Query.go (k : Query) : Nat → Trav → Except (State × Option Nat) Trav
  | 0, tr => .ok tr
  | n + 1, tr => match k.round tr with
    | .error e => .error e
    | .ok (tr, true) => .ok tr
    | .ok (tr, false) => k.go n tr

/-- The hit record, R344. -/
def rayRecord : Option RayHit → List Word
  | none => [0x7F800000#32, 0xFFFFFFFF#32, 0xFFFFFFFF#32, 0, 0, 0, 0, 0]
  | some h => [h.t32, h.tri, h.inst, h.b1, h.b2, 1 + (if h.back then 2 else 0), h.user, 0].map (BitVec.ofNat 32)

/-- One ray: its eight registers and its root. -/
def Query.trace (read : State → Nat → Nat → Except (State × Option Nat) (State × List Byte)) (any cullB cullF : Bool) (s : State)
    (args : List Word) (root : Nat) : Except (State × Option Nat) (State × List Word) :=
  let x (n : Nat) : Nat := (args.getD n 0).toNat
  let tmin := Ext.of32 (x 3)
  let tmax := Ext.of32 (x 7)
  if args.any (fun w => (f32 w.toNat).isNan) || !tmin.le tmax then .ok (s, rayRecord none)
  else
    let top : RayItem := { kid := .node root, ray := ⟨(x 0, x 1, x 2), (x 4, x 5, x 6), tmin⟩, level := 0, entry := tmin }
    match ({ read, any, cullB, cullF, root := top } : Query).go (2 ^ 210) { s, tc := tmax, stack := [top] } with
    | .error e => .error e
    | .ok tr => .ok (tr.s, rayRecord tr.best)

/-! ### `rtrace`, R344, R345 -/

/-- A ray unit's read for a lane, at the home slices. -/
def State.rayRead (g : Group) (pc : DWord) (lane : Nat) (s : State) (va n : Nat) : Except (State × Option Nat) (State × List Byte) :=
  match s.engineCheck g.ctx (s.launchOf g) (s.laneSource 5 g.core g.slot lane pc) { kind := .read, core := g.core } va n with
  | .error e => .error e
  | .ok (s, runs) => .ok (s.homeRuns false runs, s.rdRuns runs)

/-- The queries of an issue: the values to be written as (lane, slot, value). -/
def State.rayAll (s : State) (g : Group) (pc : DWord) (any cullB cullF : Bool) :
    List LaneOp → Except (State × Option Nat) (State × List (Nat × Nat × Word))
  | [] => .ok (s, [])
  | op :: ops =>
    match Query.trace (State.rayRead g pc op.lane) any cullB cullF s op.args op.addr.toNat with
    | .error e => .error e
    | .ok (s, ws) => match s.rayAll g pc any cullB cullF ops with
      | .error e => .error e
      | .ok (s, rest) => .ok (s, (ws.zipIdx.map fun e => (op.lane, op.dst + e.2, e.1)) ++ rest)

def execRtrace (any cullB cullF : Bool) (d : Nat) (a b : Src) (f : Nat) (s : State) : Out :=
  done (perLaneRequest (.rtrace any cullB cullF d a b f) f a 128 (.ray any cullB cullF (s.laneOps a b 8 d)) s)

end Sys2Proof.Machine
end

