-- ==== Sys2Proof/Machine/Complete.lean ====
section
/-!
DEFINITION. The completion of long-latency issues (R181): the work of the units that an issue waits for is done, its
registers are written and its flag falls.
-/
namespace Sys2Proof.Machine

/-- What the work of an issue answers: its values, or what it waits on.
DEDUCED: log 13. -/
def State.perform (s : State) (g : Group) (p : Pend) : Except (State × Option Nat) (State × List (Nat × Nat × Word)) :=
  let mine (ops : List LaneOp) : List LaneOp := ops.filter fun o => p.lanes.contains o.lane
  match p.work with
  | .none => .ok (s, p.writes)
  | .neval no => if s.rowsLeft no then .error (s, none) else .ok (s, p.writes)
  | .tex t k level ops => s.texAll g p.pc t k level (mine ops)
  | .ray any cullB cullF ops => match s.rayAll g p.pc any cullB cullF (mine ops) with
    | .ok (s, ws) => .ok (s.acquire g.core, ws)
    | .error e => .error e
  | .mvx k t h nr nv desc vaddr ops => match s.mvxAll g p.pc k t h nr nv desc.toNat vaddr.toNat (mine ops) with
    | .ok (s, ws) => .ok ((s.acquire g.core).callOver (g.core, g.slot, p.pc.toNat), ws)
    | .error e => .error e

/-- `LONG_LATENCY_COMPLETE`, R181, R241.
DEDUCED: log 12. -/
def execLongLatencyComplete (core slot idx : Nat) (s : State) : Out :=
  done (match s.group? core slot with
  | none => s
  | some g => match g.pend[idx]? with
    | none => s
    | some p =>
      if p.waitOn.isSome then s
      else match s.perform g p with
        | .ok (s, ws) => s.updGroup core slot fun g => g.complete idx ws p.fstat
        | .error (s, w) => s.updGroup core slot fun g => { g with pend := updAt g.pend idx fun p => { p with waitOn := w } })

end Sys2Proof.Machine
end

