-- ==== Sys2Proof/Machine/Sample.lean ====
section
/-!
DEFINITION. The sample unit: sample positions (R394, R395), vertices at a sample (R396), early culling (R397), the test
of triangles (R398), fragments and layers (R399, R400), and the values of a pixel (R401, R413), as functions of the
grids of a bucket.
-/
namespace Sys2Proof.Machine

/-! ### Samples, R394, R395 -/

/-- sob(q) of R394. -/
def sobGo (q : Word) : Nat → Word → Word → Word
  | 0, r, _ => r
  | n + 1, r, g => sobGo q n (if q.getLsbD (31 - n) then r ^^^ g else r) (g ^^^ (g >>> 1))
def sob (q : Word) : Word := sobGo q 32 0 0x80000000#32

/-- frac(q) as an exact number of 24 bits. -/
def fracDy (q : Word) : Dy := ⟨(q >>> 8).toNat, -24⟩

/-- The coordinates of a sample: X and Y exactly and as FP32, the lens offset, and the time. -/
structure Sample where
  xe : Dy
  ye : Dy
  x : Nat
  y : Nat
  du : Nat
  dv : Nat
  t : Nat

/-- R395. -/
def lensOf (u v : Nat) : Nat × Nat :=
  let a := r32sub (r32mul 0x40000000 u) one32
  let b := r32sub (r32mul 0x40000000 v) one32
  let da := exact32 a
  let db := exact32 b
  if da.n = 0 ∧ db.n = 0 then (0, 0)
  else
    let abs (d : Dy) : Dy := ⟨d.n.natAbs, d.e⟩
    let first := (abs db).lt (abs da)
    let rho := if first then a else b
    let w := if first then r32mul 0x3E800000 (round32 db da)
             else r32sub 0x3F000000 (r32mul 0x3E800000 (round32 da db))
    (r32mul rho (renderEnv.special .cos .f32 0 w).val, r32mul rho (renderEnv.special .sin .f32 0 w).val)

/-- R394: sample s of a pixel. -/
def sampleOf (r : RDesc) (px py s : Nat) : Sample :=
  let pk := BitVec.ofNat 32 (py * r.width + px)
  let key (d : Nat) : Word := hrandOf pk r.frameNo (BitVec.ofNat 32 (0xFFFF0000 + d))
  let w (n : Nat) : Word := BitVec.ofNat 32 n
  let m := w (r.spp - 1)
  let suv := w s ^^^ (key 5 &&& m)
  let st := w s ^^^ (key 6 &&& m)
  let one : Dy := ⟨1, 0⟩
  let fx := fracDy ((w s).reverse ^^^ key 0)
  let fy := fracDy (sob (w s) ^^^ key 1)
  let bits (d : Dy) : Nat := round32 d one
  let u := bits (fracDy (suv.reverse ^^^ key 2))
  let v := bits (fracDy (sob suv ^^^ key 3))
  let (du, dv) := lensOf u v
  { xe := (Dy.int px).add fx, ye := (Dy.int py).add fy,
    x := r32add (bits (Dy.int px)) (bits fx), y := r32add (bits (Dy.int py)) (bits fy), du, dv,
    t := bits (fracDy (st.reverse ^^^ key 4)) }

/-! ### Vertices, R396 -/

/-- Value `k` of a vertex: 0 to 2 and 3 to 5 the positions, 6 the radius, 7 to 9 the colour, 10 the opacity, 11 to 13
the normal (R346). -/
def Vertex.val (v : Vertex) (k : Nat) : Nat := (v.vals.getD k 0).toNat

/-- A vertex relative to a sample, and its depth there. -/
def Vertex.at (v : Vertex) (q : Sample) : P3 :=
  let along (k : Nat) : Nat := r32fma q.t (r32sub (v.val (k + 3)) (v.val k)) (v.val k)
  (r32sub (r32fma q.du (v.val 6) (along 0)) q.x, r32sub (r32fma q.dv (v.val 6) (along 1)) q.y, along 2)

/-- Corner (i, j) of a grid, if it was emitted. -/
def Grid.corner (g : Grid) (i j : Nat) : Option Vertex := (g.verts[j * (g.nu + 1) + i]?).join

/-- The corners of micropolygon (i, j): c00, c10, c01, c11. -/
def Grid.corners (g : Grid) (i j : Nat) : Option (Vertex × Vertex × Vertex × Vertex) :=
  match g.corner i j, g.corner (i + 1) j, g.corner i (j + 1), g.corner (i + 1) (j + 1) with
  | some a, some b, some c, some d => some (a, b, c, d)
  | _, _, _, _ => none

/-! ### Early culling, R397 -/

/-- Whether every corner lies outside the frame on one side, at both ends of the shutter, grown by its radius. A
corner with a NaN is on no side. -/
def outsideFrame (w h : Nat) (vs : List Vertex) : Bool :=
  let ends (v : Vertex) (k : Nat) : List Nat := [v.val k, v.val (k + 3)]
  let ok (v : Vertex) (k : Nat) : Bool := (ends v k).all (fun x => !(f32 x).isNan) && !(f32 (v.val 6)).isNan
  let rad (v : Vertex) : Dy := exact32 (r32abs (v.val 6))
  let low (k : Nat) : Bool := vs.all fun v => ok v k && (ends v k).all fun x => ((exact32 x).add (rad v)).lt ⟨0, 0⟩
  let high (k n : Nat) : Bool := vs.all fun v => ok v k && (ends v k).all fun x => (Dy.int n).le ((exact32 x).sub (rad v))
  low 0 || high 0 w || low 1 || high 1 h

/-- DEDUCED: log 44. -/
def Grid.culled (g : Grid) (w h i j : Nat) : Bool :=
  match g.corners i j with
  | none => true
  | some (a, b, c, d) => (a.cull && b.cull && c.cull && d.cull) || outsideFrame w h [a, b, c, d]

/-- Micropolygons in ascending j, then i. -/
def Grid.micros (g : Grid) : List (Nat × Nat) :=
  (List.range (g.nu * g.nv)).map fun k => (k % g.nu, k / g.nu)
def Grid.culledCount (g : Grid) (r : RDesc) : Nat :=
  (g.micros.filter fun m => g.culled r.width r.height m.1 m.2).length

/-! ### The triangle test, R398 -/

/-- ax × by − ay × bx. -/
def edgeOf (a b : P3) : Dy :=
  ((exact32 a.1).mul (exact32 b.2.1)).sub ((exact32 a.2.1).mul (exact32 b.1))

/-- Whether edge P to Q owns its zeros: the top-left rule. -/
def ownsZero (p q : P3) : Bool :=
  let dy := (exact32 q.2.1).sub (exact32 p.2.1)
  let dx := (exact32 q.1).sub (exact32 p.1)
  decide (0 < dy.n) || (decide (dy.n = 0) && decide (dx.n < 0))

/-- The depth of a sample that a triangle covers between ZNEAR and ZFAR. -/
def hitDepth (r : RDesc) (a b c : P3) : Option Nat :=
  if !(a.finite && b.finite && c.finite) then none
  else
    let ab := edgeOf a b
    let bc := edgeOf b c
    let ca := edgeOf c a
    let d := (ab.add bc).add ca
    if d.n = 0 then none
    else
      let flip := decide (d.n < 0)
      let inEdge (e : Dy) (p q : P3) : Bool :=
        let e := if flip then e.neg else e
        decide (0 < e.n) || (decide (e.n = 0) && (if flip then ownsZero q p else ownsZero p q))
      if inEdge ab a b && inEdge bc b c && inEdge ca c a then
        let z := round32 (((bc.mul (exact32 a.2.2)).add (ca.mul (exact32 b.2.2))).add (ab.mul (exact32 c.2.2))) d
        if (f32 r.znear).le (f32 z) && (f32 z).le (f32 r.zfar) then some z else none
      else none

/-! ### Fragments and layers, R399, R400 -/

structure Layer where
  c : List Nat
  a : Nat
  z : Nat
  n : List Nat
  deriving DecidableEq, Repr

/-- The fragment of a micropolygon, from its corner (i, j). -/
def Vertex.fragment (v : Vertex) (z : Nat) : Layer :=
  let a := r32min (r32max (v.val 10) 0) one32
  { c := (List.range 3).map fun k => r32mul (v.val (7 + k)) a, a, z, n := (List.range 3).map fun k => v.val (11 + k) }

def blendOver (f b : Layer) : Layer :=
  let t := r32sub one32 f.a
  { f with c := f.c.zipWith (fun fc bc => r32fma t bc fc) b.c, a := r32fma t b.a f.a }

/-- A fragment placed among the layers of a sample; none where it is discarded at once. A sample holds up to four layers: an
opaque fragment behind four of them is composited into the last like any other, for inserted it would be a fifth.
DEDUCED: log 69. -/
def placeFragment (f : Layer) (ls : List Layer) : Option (List Layer) :=
  let before (l : Layer) : Bool := (f32 l.z).le (f32 f.z)
  if ls.any fun l => l.a == one32 && before l then none
  else
    let k := (ls.filter before).length
    let ins := ls.take k ++ f :: ls.drop k
    some (if f.a = one32 ∧ k < 4 then ls.take k ++ [f]
      else if ls.length < 4 then ins
      else if k = 4 then ls.take 3 ++ (ls.drop 3).map fun l => blendOver l f
      else match ins.drop 3 with
        | [l, g] => ins.take 3 ++ [blendOver l g]
        | _ => ins)

/-- What a sample holds: its layers, how many (sample, triangle) pairs passed, and the queries that count it. -/
structure SampleState where
  layers : List Layer := []
  passed : Nat := 0
  oq : List Nat := []
  deriving DecidableEq, Repr

/-- One triangle tested at a sample. -/
def SampleState.triangle (st : SampleState) (r : RDesc) (g : Grid) (q : Sample) (base a b c : Vertex) : SampleState :=
  match hitDepth r (a.at q) (b.at q) (c.at q) with
  | none => st
  | some z =>
    let st := { st with passed := st.passed + 1 }
    match placeFragment (base.fragment z) st.layers with
    | none => st
    | some ls => { st with layers := ls, oq := if g.oqe && !st.oq.contains g.oq then g.oq :: st.oq else st.oq }

/-- Whether a pixel lies in a grid's window. -/
def Grid.covers (g : Grid) (px py : Nat) : Bool :=
  let (x0, x1, y0, y1) := g.window
  decide (x0 ≤ px) && decide ((px : Int) ≤ x1) && decide (y0 ≤ py) && decide ((py : Int) ≤ y1)

/-- The grids of a bucket, in token order, tested at one sample (R388). -/
def sampleState (r : RDesc) (gs : List Grid) (px py s : Nat) : SampleState :=
  let q := sampleOf r px py s
  gs.foldl (fun st g =>
    if !g.covers px py then st
    else g.micros.foldl (fun st m =>
      match g.corners m.1 m.2 with
      | none => st
      | some (a, b, c, d) =>
        if g.culled r.width r.height m.1 m.2 then st
        else (st.triangle r g q a a b d).triangle r g q a a d c) st) {}

/-- The value of a sample, R, G, B and alpha. -/
def SampleState.value (st : SampleState) : List Nat :=
  match st.layers with
  | [] => [0, 0, 0, 0]
  | l :: ls => let x := ls.foldl blendOver l; x.c ++ [x.a]

/-! ### Pixels, R401 -/

def finOf (x : Dy) : FVal := .fin (decide (x.n < 0)) x.n.natAbs x.e

/-- g of the Gaussian filter. -/
def gaussAt : Nat → Dy
  | 0 => ⟨31, -5⟩ | 1 => ⟨193, -8⟩ | 2 => ⟨117, -8⟩ | _ => ⟨55, -8⟩

/-- A quotient of two FP32 sums, the second positive, rounded once. -/
def quotient32 (a b : Nat) : Nat :=
  match f32 a with
  | .nan _ _ => FTy.f32.fmt.nanBits
  | .inf _ => a
  | .fin s m _ => if m = 0 then FTy.f32.fmt.signBits s else round32 (exact32 a) (exact32 b)

/-- The samples that the filter of a pixel takes, in its order, with their weights: (pixel, sample, weight). -/
def filterTaps (r : RDesc) (px py : Nat) : List (Nat × Nat × Nat × Dy) :=
  let spp := List.range r.spp
  if !r.gauss then spp.map fun s => (px, py, s, ⟨1, 0⟩)
  else
    let near (c n : Nat) : List Nat := (List.range 3).filterMap fun k => if 1 ≤ c + k ∧ c + k - 1 < n then some (c + k - 1) else none
    ((near py r.height).map fun y => ((near px r.width).map fun x => spp.filterMap fun s =>
      let q := sampleOf r x y s
      let off (v : Dy) (c : Nat) : Dy := let d := v.sub ⟨2 * c + 1, -1⟩; ⟨d.n.natAbs, d.e⟩
      let dx := off q.xe px
      let dy := off q.ye py
      let cell (d : Dy) : Nat := ((⟨4, 0⟩ : Dy).mul d).floor.toNat
      if dx.lt ⟨1, 0⟩ && dy.lt ⟨1, 0⟩ then some (x, y, s, (gaussAt (cell dx)).mul (gaussAt (cell dy)))
      else none).flatten).flatten

/-- The four channels of a pixel. -/
def pixelColour (r : RDesc) (at_ : Nat → Nat → Nat → SampleState) (px py : Nat) : List Nat :=
  let taps := (filterTaps r px py).map fun t => (finOf t.2.2.2, (at_ t.1 t.2.1 t.2.2.1).value)
  (List.range 4).map fun k =>
    let sum := chunkSumAll 0 (taps.map fun t => prodOf t.1 (f32 (t.2.getD k 0)))
    if r.gauss then quotient32 sum (chunkSumAll 0 (taps.map fun t => prodOf t.1 (f32 one32)))
    else r32mul sum (round32 ⟨1, 0⟩ (Dy.int r.spp))

/-- The depth of a pixel and the normal of the layer that gives it. -/
def pixelDepth (r : RDesc) (at_ : Nat → Nat → Nat → SampleState) (px py : Nat) : List Nat :=
  let fronts := (List.range r.spp).filterMap fun s => (at_ px py s).layers.head?
  let nearer (best : Option Layer) (l : Layer) : Option Layer :=
    match best with
    | none => some l
    | some b => if (f32 b.z).le (f32 l.z) then some b else some l
  match fronts.foldl nearer none with
  | none => [FTy.f32.fmt.infBits, 0, 0, 0]
  | some l => l.z :: l.n

end Sys2Proof.Machine
end

