-- ==== Sys2Proof/Machine/Task.lean ====
section
/-!
DEFINITION. Tasks, wellheads and sumps (R219 to R224, R341), grid barriers (R225, R343), and groups and teams that leave
(R172, R200, R217).
-/
namespace Sys2Proof.Machine

/-! ### Spawning, R220, R221, R341 -/

def Ctx.sumpEmpty (c : Ctx) : Bool := c.shead == c.stail
def Ctx.sumpFull (c : Ctx) : Bool := c.sumpN == 0 || (c.shead + 1) % 2 ^ c.sumpN == c.stail
/-- The virtual address of record `i` of a context's sump. -/
def Ctx.sumpVa (c : Ctx) (i : Nat) : Nat := bits c.sumpBase.toNat 51 12 * 4096 + 128 * i

/-- A restored record of a team that waits for room in a wellhead keeps a later one of the team out of it (R434). -/
def State.restoreWaits (s : State) (core team : Nat) : Bool :=
  s.saves.any fun v => v.tasks.any fun w => w.1 == core && w.2.team == team

def State.wellRoom (s : State) (core team : Nat) : Bool :=
  decide (s.wellCount core < Config.wellheadRoom) && !s.restoreWaits core team

/-- The sump's record at SHEAD written: its 128 bytes have a form private to the device, so they become free values.
DESIGN CHOICE: log 43. -/
def State.writeSump (s : State) (p : Place) (l : Leaf) : State :=
  let (x, s) := s.choose (2 ^ 1024)
  (s.homeRuns true [(some p, 128, l)]).wrNat p 128 x

/-- The status that a lane's `tspawn` receives, with its record enqueued where R220 says. A sump that lies in a declared range
or a log takes the conflict of R98; an uncorrectable error that the write meets is the thread's (R80). -/
def State.spawn (s : State) (k : Task) (core : Nat) (isTask : Bool) (done : State → Nat → Res) : Res :=
  let n := s.myCtx
  let c := s.ctxAt n
  if !isTask then done s 2
  else if s.wellRoom core k.team && c.sumpEmpty then done (s.enterWell core k) 0
  else if c.sumpFull then done s 1
  else match s.translate n { kind := .write, core } (c.sumpVa c.shead) with
    | .bad f => .trap { f.trap .write (c.sumpVa c.shead) with source := 7 }
    | .pri p => .wait (s.askPri n { kind := .write, core } p)
    | .zeros _ => done s 1
    | .ok p l => match s.reserved n s.myLaunch .write (c.sumpVa c.shead) 128, s.ueIn p 128 with
    | some d, _ => .trap (conflict d (c.sumpVa c.shead))
    | none, some pa => .trap (ueTrap pa)
    | none, none =>
      let s := ((s.tableReads n { kind := .write, core } (c.sumpVa c.shead) 128).writeSump p l).updCtx n fun c =>
        { c with shead := (c.shead + 1) % 2 ^ c.sumpN }
      done { s with sumps := s.sumps ++ [(n, c.shead, k)] } 0

/-- `tspawn`, R341. -/
def execTspawn (d : Nat) (a b c : Src) (s : State) : Out :=
  done (perLane (.tspawn d a b c) (fun l s =>
    match s.grp, s.myTeam with
    | some g, some t =>
      let role := (s.reg l c 0).toNat
      let isTask := match t.roles[role]? with | some r => r.task | none => false
      let k : Task := { team := t.id, quarter := (t.cores.idxOf? g.core).getD 0, role, entry := s.pair l a,
                        args := s.regs l b 16 }
      s.spawn k g.core isTask fun s v => .ok (s.setV l d (BitVec.ofNat 32 v)) none
    | _, _ => .ok s none) s)

/-- `WELLHEAD_TIMEOUT`, R222: a group forms from the oldest key that is full, or whose oldest record has stood for 256
core cycles. -/
def execWellheadTimeout (core : Nat) (s : State) : Out :=
  let now := (s.coreAt core).clk.toNat
  let due (w : Nat × Task) : Bool :=
    w.1 == core && (decide (w.2.since + Config.wellheadCycles ≤ now) || decide (32 ≤ s.keyCount core w.2))
      && (match s.team? w.2.team with
          | some t => (s.freeIndex t w.2.role w.2.quarter).isSome && !(s.ctxAt t.ctx).saving
          | none => false)
  done (match s.wells.find? due with
    | some w => s.formGroup core w.2
    | none => s)

/-- Whether a team stands in a save. -/
def State.savedTeam (s : State) (team : Nat) : Bool := s.saves.any fun v => v.teams.any fun t => t.id == team

/-- `SUMP_DRAIN`, R221: the record at STAIL moves into its wellhead. A fault of its read names the die of that wellhead's core, and core
0 (R41; log 91). A record that CANCEL discarded is passed over; one of a team
that a control core has saved waits for the team.
DESIGN CHOICE: log 43. DESIGN CHOICE: log 91. -/
def execSumpDrain (n : Nat) (s : State) : Out :=
  let c := s.ctxAt n
  if !c.en || c.faulted || c.busy || c.saved || c.sumpEmpty || c.sumpN == 0 || c.sumpWait.isSome then done s
  else
    let pass (s : State) : State := s.updCtx n fun c => { c with stail := (c.stail + 1) % 2 ^ c.sumpN }
    match s.sumps.find? fun w => w.1 == n && w.2.1 == c.stail with
    | none => done (pass s)
    | some w => match s.team? w.2.2.team with
      | none => done (if s.savedTeam w.2.2.team then s else pass s)
      | some t =>
        let core := t.coreAt w.2.2.quarter
        if !s.wellRoom core t.id then done s
        else match s.engineRead n { core := engineCore } (c.sumpVa c.stail) 128 { code := 7, die := s.physDie (dieOf core) } with
          | .error (s, some id) => done (s.updCtx n fun c => { c with sumpWait := some id })
          | .error (s, none) => done s
          | .ok (s, _) =>
            let s := { s with sumps := s.sumps.filter fun x => !(x.1 == n && x.2.1 == c.stail) }
            done ((pass s).enterWell core w.2.2)

/-! ### Grid barriers, R343 -/

def execGarrive (s : State) : Out :=
  done (perLane .garrive (fun l s =>
    if s.role.cont = 0 then .trap (barrierMisuse 6 0)
    else .ok (s.updLane l fun t => { t with mark := true }) none) s)

/-! ### Groups and teams that leave, R172, R200, R217, R224, R377 -/

/-- `GROUP_LEAVE_SLOT`: its index and slot are free for the next tasks of its role. -/
def execGroupLeaveSlot (core slot : Nat) (s : State) : Out :=
  done (match s.group? core slot with
  | none => s
  | some g =>
    if !g.idle || s.issues.any (fun i => i.core == core && i.slot == slot) then s
    else
      let s := { (s.updTeam g.team (Team.keepSeqs g)) with groups := s.groups.filter fun g => !g.isAt core slot }
      let s := s.updCore core fun c => if c.dwinSlot = some slot then { c with dwinSlot := none } else c
      (s.formFull core).showOthers core)

/-- Whether everything of a team but its resources has ended.
DEDUCED: log 19. -/
def State.teamOver (s : State) (t : Team) : Bool :=
  (s.groupsOf t.id).isEmpty
    && !(s.wells.any fun w => w.2.team == t.id) && !(s.sumps.any fun w => w.2.2.team == t.id)
    && !(s.saves.any fun v => v.tasks.any fun w => w.2.team == t.id)
    && !(s.copies.any fun c => c.team == t.id)
    && (match s.launch? t.launch with | some l => (match l.render with | some r => !r.holdsTeams | none => true) | none => true)

/-- Ranks counted as retired from the first, given those that have ended, R217. -/
def retiredRanks (ended : List Nat) : Nat → Nat → Nat
  | 0, n => n
  | fuel + 1, n => if ended.contains n then retiredRanks ended fuel (n + 1) else n

/-- R217: the count of retired clusters after a team ends, with the ranks that have ended. -/
def State.progress (s : State) (t : Team) (l : Launch) : List Nat × Nat :=
  if !t.det then (l.ended, l.retired)
  else
    let rank := LRec.rankOf l.record t.no
    let mates := LRec.clusterTeams l.record ((LRec.ranked l.record).getD rank (0, 0))
    let mate (u : Team) : Bool := u.launch == l.id && u.id != t.id && mates.contains u.no
    if s.teams.any mate || s.saves.any fun v => v.teams.any mate then (l.ended, l.retired)
    else
      let ended := rank :: l.ended
      (ended, retiredRanks ended (ended.length + 1) l.retired)

/-- R217: the count of retired clusters written to PROG, where it has advanced; a fault on the write waits (SOURCE 9). -/
def State.tellProgress (s : State) (launch : Nat) : State :=
  match s.launch? launch with
  | none => s
  | some l =>
    if l.waitOn.isSome ∨ l.told = l.retired ∨ LRec.prog l.record = 0 then s
    else match s.engineWrite l.ctx l.id engineMode (LRec.prog l.record) (leBytes l.retired 8) s.launchSource with
      | .ok s => s.updLaunch launch fun l => { l with told := l.retired }
      | .error (s, w) => s.updLaunch launch fun l => { l with waitOn := w }

/-- `TEAM_END`: the window, the tiles and every other resource of the team are released at once; the progress word of a
deterministic launch follows.
DEDUCED: log 19. -/
def execTeamEnd (team : Nat) (s : State) : Out :=
  done (match s.team? team with
  | none => s
  | some t =>
    if !s.teamOver t || (s.ctxAt t.ctx).saving then s
    else
      let gone : State := { s with teams := s.teams.filter fun u => u.id != team }
      match s.launch? t.launch with
      | none => gone
      | some l =>
        let (ended, n) := s.progress t l
        (gone.updLaunch l.id fun l => { l with ended, retired := n }).tellProgress l.id)

end Sys2Proof.Machine
end

