-- ==== Sys2Proof/Machine/Launch.lean ====
section
/-!
DEFINITION. The launch engine: the records of the launch queues (R201 to R207), their reduction tables (R94, R95) and
rejection (R206), acceptance, service and placement (R208 to R216), and retirement (R210, R411 to R414).
-/
namespace Sys2Proof.Machine

/-! ### The head record, R203 -/


/-- A context whose launches are taken and served: enabled, not ended, neither being saved nor saved. -/
def Ctx.live (c : Ctx) : Bool := c.en && !c.faulted && !c.busy && !c.saved

/-- The size of a queue whose head record may proceed. -/
def Ctx.headOf (c : Ctx) (q : Nat) : Option (LQ × Nat) :=
  let x := c.lq.getD q {}
  match x.logN with
  | none => none
  | some n => if c.live && x.en && x.waitOn.isNone && decide (x.head % 2 ^ n ≠ x.tail.toNat % 2 ^ n) then some (x, n) else none

def LQ.recordVa (x : LQ) (n : Nat) : Nat := bits x.base.toNat 51 12 * 4096 + 256 * (x.head % 2 ^ n)

def State.updLQ (s : State) (n q : Nat) (f : LQ → LQ) : State := s.updCtx n fun c => { c with lq := updAt c.lq q f }

/-- HEAD passes the head record; `n` is 12 where LOG2N has become invalid since.
DESIGN CHOICE: log 68. -/
def LQ.pass (x : LQ) (n : Nat) : LQ := { x with head := (x.head + 1) % 2 ^ n, taking := .none }

/-- A rejected record, R206. -/
def LQ.reject (n code : Nat) (x : LQ) : LQ := { x.pass n with err := true, ecode := code, erridx := x.head % 2 ^ n }

/-- A read by the engine that fails holds the queue, or has ended the context. -/
def State.holdQueue (n q : Nat) (r : State × Option Nat) : State := r.1.updLQ n q fun x => { x with waitOn := r.2 }

def wordsAt (xs : List Byte) (n : Nat) : List Word :=
  (List.range n).map fun k => BitVec.ofNat 32 (leNat ((xs.drop (4 * k)).take 4))

/-! ### Prerequisites, R203, R207 -/

/-- The prerequisites still unsatisfied read again; each that now holds is marked. A misaligned one is judged with the
record (R206).
DESIGN CHOICE: log 24. -/
def State.readPrereqs (s : State) (n : Nat) : List (Nat × Nat × Bool) → List (Nat × Nat × Bool) × State × Option Nat
  | [] => ([], s, none)
  | (a, v, ok) :: rest =>
    if ok || a % 8 != 0 then
      let (es, r) := s.readPrereqs n rest
      ((a, v, true) :: es, r)
    else match s.engineRead n engineMode a 8 s.launchSource with
      | .error e => ((a, v, false) :: rest, e)
      | .ok (s, xs) =>
        let (es, r) := s.readPrereqs n rest
        ((a, v, decide (v ≤ leNat xs)) :: es, r)

/-- The prerequisites of the head record judged. -/
def State.judge (s : State) (n q npre : Nat) (es : List (Nat × Nat × Bool)) : State :=
  let (es, s, w) := s.readPrereqs n es
  if (s.ctxAt n).faulted then s else s.updLQ n q fun x => { x with taking := .prereq npre es, waitOn := w }

/-- `LAUNCH_PREREQ_READ`, R203 item 1. -/
def execLaunchPrereqRead (n q : Nat) (s : State) : Out :=
  done (match (s.ctxAt n).headOf q with
  | none => s
  | some (x, logN) =>
    if x.taking ≠ .none then s
    else match s.engineRead n engineMode (x.recordVa logN) 4 s.launchSource with
      | .error e => State.holdQueue n q e
      | .ok (s, w0) =>
        let npre := bits (leNat w0) 26 24
        if 4 < npre then s.updLQ n q (LQ.reject logN 1)
        else match s.engineRead n engineMode (x.recordVa logN + 0x50) (16 * npre) s.launchSource with
          | .error e => State.holdQueue n q e
          | .ok (s, xs) =>
            s.judge n q npre ((List.range npre).map fun i =>
              (leNat ((xs.drop (16 * i)).take 8), leNat ((xs.drop (16 * i + 8)).take 8), false)))

/-- `PREREQ_REREAD`, R207. -/
def execPrereqReread (n q : Nat) (s : State) : Out :=
  done (match (s.ctxAt n).headOf q with
  | none => s
  | some (x, _) => match x.taking with
    | .prereq npre es => s.judge n q npre es
    | _ => s)

/-! ### The reduction table, R94, R95 -/

def rangeOf (log logBytes : Nat) (ws : List Word) : Option RedRange :=
  let w (k : Nat) : Nat := (ws.getD k 0).toNat
  let base := w 0 + w 1 * 2 ^ 32
  match AOp.ofCode (bits (w 3) 31 24), ATy.ofCode (bits (w 3) 23 20) with
  | some op, some ty =>
    if bits (w 3) 19 0 = 0 ∧ base < 2 ^ 52 ∧ base % 128 = 0 ∧ w 2 ≠ 0 ∧ w 2 % 128 = 0 ∧ op.reduces = true ∧ op.takes ty = true
    then some { base, bytes := w 2, op, ty, log, logBytes } else none
  | _, _ => none

/-- Each range with the entries after it. -/
def rangesApart : List RedRange → Bool
  | [] => true
  | r :: rs => !meets r.base r.bytes r.log r.logBytes && rs.all (fun x => !meets r.base r.bytes x.base x.bytes) && rangesApart rs

/-- The table of a header and its entries; none where a condition of R95 breaks. -/
def tableOf (hdr : List Word) (entries : List Word) : Option (List RedRange) :=
  let w (k : Nat) : Nat := (hdr.getD k 0).toNat
  let log := w 0 + w 1 * 2 ^ 32
  let cap := w 2
  let count := bits (w 3) 6 0
  if log < 2 ^ 52 ∧ log % 4096 = 0 ∧ cap % 512 = 0 ∧ 512 ≤ cap ∧ cap ≤ 2 ^ 28 ∧ w 3 < 2 ^ 7 ∧ 1 ≤ count ∧ count ≤ 64 then
    let rs := (List.range count).map fun i => rangeOf log (32 * cap) ((entries.drop (4 * i)).take 4)
    if rs.all Option.isSome then
      let rs := rs.filterMap id
      if rangesApart rs then some rs else none
    else none
  else none

/-! ### Rejection, R206, R214 -/

/-- The first code of R206.
DESIGN CHOICE: log 24. -/
def LRec.bad1 (r : LRec) : Bool :=
  let zero (off n : Nat) : Bool := (List.range n).all fun k => r.w (off + 4 * k) == 0
  bits (r.w 0) 23 0 != 0 || r.extCode == 3 || decide (4 < r.npre)
    || bits (r.w 4) 31 11 != 0 || decide (1024 < r.spsize)
    || (!r.det && r.w 0x14 != 0) || bits (r.w 0x18) 31 7 != 0 || decide (64 < r.tiles)
    || bits (r.w 0x1C) 31 24 != 0 || r.barbase % 16 != 0 || bits (r.w 0x28) 31 9 != 0 || r.w 0x2C != 0
    || !zero 0x38 2 || !zero (0x50 + 16 * r.npre) (4 * (4 - r.npre)) || !zero (0xA0 + 24 * r.nrole) (6 * (4 - r.nrole))
    || (List.range r.nrole).any (fun k => bits (r.w (0xA0 + 24 * k + 0x10)) 14 0 != 0)
    || r.roles.any (fun x => x.g == 0 || x.b == 0 || decide (1024 < x.b))
    || (match r.roles with | x :: _ => x.task | [] => false)
    || decide (192 < r.roles.foldl (fun a x => a + x.g) 0)
    || r.gx == 0 || r.gy == 0 || r.gz == 0 || decide (2 ^ 31 ≤ r.teams)
    || r.compl % 8 != 0 || r.prog % 8 != 0 || (List.range r.npre).any fun i => r.d (0x50 + 16 * i) % 8 != 0

def LRec.bad2 (r : LRec) : Bool := r.mentry != 0 && (r.mlen == 0 || decide (256 < r.mlen))

/-- R214. -/
def LRec.bad5 (r : LRec) : Bool :=
  r.det && (r.cx == 0 || r.cy == 0 || r.clusterCores != powerAbove r.clusterCores || decide (128 < r.clusterCores)
    || r.gx % r.cx != 0 || (r.gy * r.gz) % r.cy != 0 || !(List.range r.ext).all fun q => (r.need q).ok)

/-- The teams of the grid in the order of their placement. -/
def LRec.plan (r : LRec) : List (Nat × Nat × Option Nat) :=
  if r.det then ((List.range r.clusters).map r.clusterPlan).flatten
  else (List.range r.teams).map fun t => (t, 0, none)

/-- R206, code 4: judged on the device with every enabled core free. -/
def State.bad4 (s : State) (r : LRec) : Bool :=
  let empty := { s with teams := [] }
  (empty.unitFor [] r.need r.ext).isNone
    || (r.hasCont
        && (empty.placeAll { id := 0, ctx := 0, queue := 0, record := r, table := [], accepted := 0 } r.plan).isNone)

/-- The lowest code whose condition a record meets. `desc` is none where RDESC is 0; its inner value is none where the
descriptor could not be read (R376).
DEDUCED: log 25. -/
def State.rejection (s : State) (r : LRec) (table : Option (List RedRange)) (desc : Option (Option (List Word))) : Option Nat :=
  if r.bad1 then some 1
  else if r.bad2 then some 2
  else if table.isNone then some 3
  else if s.bad4 r then some 4
  else if r.bad5 then some 5
  else match desc with
    | none => none
    | some none => some 6
    | some (some d) => if RDesc.valid d r.roles then none else some 6

/-! ### The record read, R203 item 2 -/

/-- The record as the launch takes it: NPRE and the entries from the first read. -/
def patchRecord (ws : List Word) (npre : Nat) (es : List (Nat × Nat × Bool)) : List Word :=
  let ws := updAt ws 0 fun w => BitVec.ofNat 32 (setBits w.toNat 26 24 npre)
  (es.zipIdx).foldl (fun ws e =>
    let put (ws : List Word) (k v : Nat) : List Word := updAt (updAt ws k fun _ => BitVec.ofNat 32 v) (k + 1) fun _ => BitVec.ofNat 32 (v / 2 ^ 32)
    put (put ws (0x14 + 4 * e.2) e.1.1) (0x16 + 4 * e.2) e.1.2.1) ws

/-- What a part of the record read answers. -/
def State.readTable (s : State) (n : Nat) (r : LRec) : Except (State × Option Nat) (State × Option (List RedRange)) :=
  if r.redtab = 0 then .ok (s, some [])
  else match s.engineRead n engineMode r.redtab 16 s.launchSource with
    | .error e => .error e
    | .ok (s, h) =>
      let hdr := wordsAt h 4
      let count := bits (hdr.getD 3 0).toNat 6 0
      if count = 0 ∨ 64 < count then .ok (s, none)
      else match s.engineRead n engineMode (r.redtab + 16) (16 * count) s.launchSource with
        | .error e => .error e
        | .ok (s, es) => .ok (s, tableOf hdr (wordsAt es (4 * count)))

/-- R376: a fault on the descriptor read that is fatal, as a replayable one is with no valid fault queue (R42), rejects the record and
ends nothing.
DEDUCED: log 25. -/
def State.readDesc (s : State) (n : Nat) (r : LRec) : Except (State × Option Nat) (State × Option (Option (List Word))) :=
  if r.rdesc = 0 then .ok (s, none)
  else if r.rdesc % 128 ≠ 0 then .ok (s, some none)
  else match s.readVa n engineMode r.rdesc 128 with
    | .ok xs runs => .ok ((s.tableReads n engineMode r.rdesc 128).homeRuns false runs, some (some (wordsAt xs 32)))
    | .pri p => .error (s.askPri n engineMode p, none)
    | .bad t => if t.cause.isFault && (!t.demand || (s.ctxAt n).fqN.isNone) then .ok (s, some none) else .error (s.engineFault n t s.launchSource)

/-- `LAUNCH_RECORD_READ`. Where a read waits on a fault, the record, its table and its descriptor are read anew at the retry.
DESIGN CHOICE: log 82. -/
def execLaunchRecordRead (n q : Nat) (s : State) : Out :=
  done (match (s.ctxAt n).headOf q with
  | none => s
  | some (x, logN) => match x.taking with
    | .prereq npre es =>
      if !es.all fun e => e.2.2 then s
      else match s.engineRead n engineMode (x.recordVa logN) 256 s.launchSource with
        | .error e => State.holdQueue n q e
        | .ok (s, xs) =>
          let r : LRec := patchRecord (wordsAt xs 64) npre es
          match s.readTable n r with
          | .error e => State.holdQueue n q e
          | .ok (s, table) => match s.readDesc n r with
            | .error e => State.holdQueue n q e
            | .ok (s, desc) => match s.rejection r table desc with
              | some code => s.updLQ n q (LQ.reject logN code)
              | none => s.updLQ n q fun x => { x with taking := .read r (table.getD []) desc.join }
    | _ => s)

/-! ### Acceptance, R95, R203 item 4 -/

/-- R95: a range or a log of a table overlaps one of another unretired launch of the context. -/
def State.overlapsLaunch (s : State) (n : Nat) (table : List RedRange) : Bool :=
  s.launches.any fun l => l.ctx == n && l.table.any fun a => table.any fun b =>
    [(a.base, a.bytes), (a.log, a.logBytes)].any fun x => [(b.base, b.bytes), (b.log, b.logBytes)].any fun y =>
      meets x.1 x.2 y.1 y.2

def execLaunchAccept (n q : Nat) (s : State) : Out :=
  done (match (s.ctxAt n).headOf q with
  | none => s
  | some (x, _) => match x.taking with
    | .read r table desc =>
      if s.overlapsLaunch n table then s
      else
        let (id, s) := s.fresh
        let l : Launch := { id, ctx := n, queue := q, record := r, table, accepted := s.us,
                            render := desc.map fun d => Render.start d s.dieCount }
        { (s.updLQ n q fun x => { x with taking := .placing id }) with launches := s.launches ++ [l] }
    | _ => s)

/-! ### Service and placement, R208, R209, R213, R216, R226 -/

def Launch.prio (s : State) (l : Launch) : Nat :=
  Nat.min 3 (((s.ctxAt l.ctx).lq.getD l.queue {}).prio + (s.us - l.accepted) / 2000)

/-- The eligible launches, in the order of their acceptance. -/
def State.eligible (s : State) : List Launch := s.launches.filter fun l => !l.allPlaced && (s.ctxAt l.ctx).live

/-- The launch that the engine serves. -/
def State.served (s : State) : Option Launch := if s.mayPlace then argMax (Launch.prio s) s.eligible else none

/-- A launch with `k` more teams or clusters placed; with the last, its queue's HEAD passes its record. -/
def State.countPlaced (s : State) (l : Launch) (k : Nat) : State :=
  let s := s.updLaunch l.id fun l => { l with placed := l.placed + k }
  if !({ l with placed := l.placed + k } : Launch).allPlaced then s
  else s.updLQ l.ctx l.queue fun x =>
    if x.taking = .placing l.id then x.pass (x.logN.getD 12) else x

/-- The teams that the launch places at once next: one team, one cluster, or all of a launch with continuations. -/
def Launch.nextTeams (l : Launch) : List (Nat × Nat × Option Nat) × Nat :=
  let r : LRec := l.record
  if r.hasCont then (r.plan, if r.det then r.clusters else r.teams)
  else if r.det then (r.clusterPlan l.placed, 1)
  else ([(l.placed, 0, none)], 1)

def State.place (s : State) (l : Launch) : State :=
  let (teams, k) := l.nextTeams
  match s.placeAll l teams with
  | none => s
  | some s => s.countPlaced l k

/-- `TEAM_PLACE` serves a launch that is not deterministic. -/
def execTeamPlace (s : State) : Out :=
  done (match s.served with
  | some l => if LRec.det l.record then s else s.place l
  | none => s)

/-- `CLUSTER_PLACE` serves a deterministic one. -/
def execClusterPlace (s : State) : Out :=
  done (match s.served with
  | some l => if LRec.det l.record then s.place l else s
  | none => s)

/-! ### Retirement, R210, R377, R411 to R414 -/

/-- The counters of R411, with the micropolygons culled early. -/
def Render.counters (r : Render) : List Nat :=
  r.stats.zipIdx.map fun e => if e.2 = 3 then (r.grids.map fun g => g.culledCount r.desc).foldl (· + ·) 0 else e.1

/-- The status word of R414. -/
def Render.status (r : Render) : Nat :=
  (if r.allCommitted then 1 else 0) + (if r.abort then 2 else 0) + Nat.min r.invalid (2 ^ 32 - 1) * 2 ^ 32

/-- The stores that a render launch makes before it retires: (address, value). -/
def Render.finalStores (r : Render) : List (Nat × Nat) :=
  let d : RDesc := r.desc
  let block (a : Nat) (xs : List Nat) : List (Nat × Nat) := if a = 0 then [] else xs.zipIdx.map fun e => (a + 8 * e.2, e.1)
  block d.statsAt r.counters ++ block d.oqAt r.oq ++ block d.rstat [r.status]

/-- Stores of 8 bytes by the launch engine one after another.
DEDUCED: log 20. -/
def State.storeWords (s : State) (n who : Nat) : List (Nat × Nat) → Except (State × Option Nat) State
  | [] => .ok s
  | (a, v) :: rest => match s.engineWrite n who engineMode (a % 2 ^ 64) (leBytes v 8) s.launchSource with
    | .ok s => s.storeWords n who rest
    | .error e => .error e

/-- What a launch still has to store.
DEDUCED: log 20. -/
def Launch.lastStores (l : Launch) : List (Nat × Nat) :=
  (match l.render with | some r => r.finalStores | none => [])
    ++ (if LRec.compl l.record = 0 then [] else [(LRec.compl l.record, LRec.complv l.record)])

/-- `LAUNCH_RETIRE`: once every team has ended and its contributions are committed. -/
def execLaunchRetire (launch : Nat) (s : State) : Out :=
  done (match s.launch? launch with
  | none => s
  | some l =>
    let rendered := match l.render with | some r => r.abort || (r.allShaded && r.allCommitted) | none => true
    if !l.allPlaced || s.teamsLeft launch || !(l.committed || l.table.isEmpty) || !rendered || l.waitOn.isSome
        || (s.ctxAt l.ctx).saved then s
    else if l.told ≠ l.retired ∧ LRec.prog l.record ≠ 0 then s.tellProgress launch
    else match s.storeWords l.ctx launch l.lastStores with
      | .ok s => { s with launches := s.launches.filter fun x => x.id != launch }
      | .error (s, w) => s.updLaunch launch fun l => { l with waitOn := w })

end Sys2Proof.Machine
end

