-- ==== Sys2Proof/Machine/Render.lean ====
section
/-!
DEFINITION. The rendering units: `gemit` (R346, R393), the dicers and their task records (R380, R392), cisterns, the
spill pool and buckets (R383 to R389), resolve, commit and stealing (R390, R401), and an error in a cistern (R410).
-/
namespace Sys2Proof.Machine

abbrev Token := Nat × Nat

def State.updRender (s : State) (launch : Nat) (f : Render → Render) : State :=
  s.updLaunch launch fun l => { l with render := l.render.map f }

def Render.grid? (r : Render) (t : Token) : Option Grid := r.grids.find? fun g => g.patch == t.1 && g.g == t.2
def Render.updGrid (r : Render) (t : Token) (f : Grid → Grid) : Render :=
  { r with grids := r.grids.map fun g => if g.patch = t.1 ∧ g.g = t.2 then f g else g }
def Render.bucket? (r : Render) (id : Nat) : Option Bucket := r.buckets.find? fun b => b.id == id
def Render.updBucket (r : Render) (id : Nat) (f : Bucket → Bucket) : Render :=
  { r with buckets := r.buckets.map fun b => if b.id = id then f b else b }
def Render.count (r : Render) (k n : Nat) : Render := { r with stats := updAt r.stats k (· + n) }

/-! ### `gemit`, R346, R393 -/

/-- The grid of a lane's task. -/
def State.gridOf (s : State) (k : Option (Nat × Nat × Nat)) : Option Grid :=
  match k with
  | none => none
  | some (launch, t) => match s.launch? launch with
    | none => none
    | some l => l.render.bind fun r => r.grid? t

/-- `gemit`, R346: emissions reach the cistern in the order in which they are performed.
DESIGN CHOICE: log 95. -/
def execGemit (cull : Bool) (a b : Src) (s : State) : Out :=
  done (perLane (.gemit cull a b) (fun l s =>
    let k := (s.reg l a 0).toNat
    match (s.lane l).grid, s.gridOf (s.lane l).grid with
    | some (launch, t), some g =>
      if g.vertices ≤ k then .trap (barrierMisuse 8 0)
      else .ok (s.updRender launch fun r => r.updGrid t fun g =>
        { g with verts := updAt g.verts k fun _ => some ⟨s.regs l b 14, cull⟩ }) none
    | _, _ => .trap (barrierMisuse 8 0)) s)

/-! ### Faults, R409 -/

def State.renderSource (s : State) (die : Nat) : Source := { code := 10, die := s.physDie die }

/-- A render launch whose units work: its context is neither ended nor saved. -/
def Ctx.renders (c : Ctx) : Bool := c.en && !c.faulted && !c.saved

/-! ### Task records, R392 -/

/-- The quarters of the launch's teams on a die: (team, quarter, core). -/
def State.quartersOn (s : State) (launch die : Nat) : List (Nat × Nat × Nat) :=
  (((s.teams.filter fun t => t.launch == launch).map fun t => t.cores.zipIdx.map fun c => (t.id, c.2, c.1)).flatten).filter
    fun q => dieOf q.2.2 == die

/-- Records of a launch in a core's wellhead. -/
def State.wellOf (s : State) (launch core : Nat) : Nat :=
  (s.wells.filter fun w => w.1 == core && (match s.team? w.2.team with | some t => t.launch == launch | none => false)).length

/-- The team and quarter chosen for a grid diced on a die. -/
def State.chooseQuarter (s : State) (launch die : Nat) : Option (Nat × Nat) :=
  let own := s.quartersOn launch die
  let die := if own.isEmpty then
      (argMax (fun d => (s.quartersOn launch d).length) (List.range s.dieCount)).getD die
    else die
  let qs := sortBy (fun x y => decide (x.2.2 ≤ y.2.2)) (s.quartersOn launch die)
  let most := qs.foldl (fun a q => Nat.max a (s.wellOf launch q.2.2)) 0
  (argMax (fun q => most - s.wellOf launch q.2.2) qs).map fun q => (q.1, q.2.1)

/-- What became of a record that a dicer appends: taken, no room in wellhead and sump, or a fault on the sump's write
(its context ended, or what it waits on). -/
inductive Sent where
  | ok (s : State)
  | full
  | hold (s : State) (w : Option Nat)

/-- R220: a record enters the wellhead, else the sump. -/
def State.sendTask (s : State) (n die core : Nat) (k : Task) : Sent :=
  let c := s.ctxAt n
  if s.wellRoom core k.team && c.sumpEmpty then .ok (s.enterWell core k)
  else if c.sumpFull then .full
  else match s.translate n { kind := .write, core := engineCore } (c.sumpVa c.shead) with
    | .bad f => let (s, w) := s.engineFault n (f.trap .write (c.sumpVa c.shead)) (s.renderSource die); .hold s w
    | .pri p => .hold (s.askPri n engineMode p) none
    | .zeros _ => .full
    | .ok p l => match s.ueIn p 128 with
    | some pa => let (s, w) := s.engineFault n (ueTrap pa) (s.renderSource die); .hold s w
    | none =>
      let s := ((s.tableReads n { kind := .write, core := engineCore } (c.sumpVa c.shead) 128).writeSump p l).updCtx n fun c =>
        { c with shead := (c.shead + 1) % 2 ^ c.sumpN }
      .ok { s with sumps := s.sumps ++ [(n, c.shead, k)] }

/-- The records of one grid appended in order: the state, those left, and what the dicer waits on. -/
def State.sendGrid (s : State) (n die core : Nat) (task : List Word → Task) :
    List (List Word) → State × List (List Word) × Option Nat
  | [] => (s, [], none)
  | x :: xs => match s.sendTask n die core (task x) with
    | .ok s => s.sendGrid n die core task xs
    | .full => (s, x :: xs, none)
    | .hold s w => (s, x :: xs, w)

/-- The grids that a dicer holds sent one after another. -/
def State.sendGrids (s : State) (n launch srole : Nat) (d : Dicing) :
    List (Nat × Option (Nat × Nat) × List (List Word)) → State × Dicing
  | [] => (s, { d with rest := [] })
  | (g, choice, args) :: more =>
    let choice := match choice with | some q => some q | none => s.chooseQuarter launch d.die
    match choice, choice.bind fun q => s.team? q.1 with
    | some (team, quarter), some t =>
      let task (x : List Word) : Task :=
        { team, quarter, role := srole, entry := d.entry, args := x, grid := some (launch, d.patch, g) }
      let (s, left, w) := s.sendGrid n d.die (t.coreAt quarter) task args
      if left.isEmpty then s.sendGrids n launch srole d more
      else (s, { d with rest := (g, choice, left) :: more, waitOn := w })
    | _, _ => (s, { d with rest := (g, choice, args) :: more })

/-! ### Dicing, R380 to R384 -/

/-- A bucket's pixels with its apron, as ranges within the frame; none where it owns no pixel (R383). -/
def Bucket.area (d : RDesc) (b : Bucket) : Option (Nat × Nat × Nat × Nat) :=
  if d.width ≤ b.x ∨ d.height ≤ b.y then none
  else
    let a := if d.gauss then 1 else 0
    some (b.x - a, Nat.min (d.width - 1) (b.x + b.size - 1 + a), b.y - a, Nat.min (d.height - 1) (b.y + b.size - 1 + a))

/-- R384: a bucket's pixels or apron hold a pixel of a grid's window. -/
def Bucket.meets (d : RDesc) (b : Bucket) (g : Grid) : Bool :=
  let (x0, x1, y0, y1) := g.window
  match b.area d with
  | none => false
  | some (a0, a1, c0, c1) =>
    decide (max x0 (a0 : Int) ≤ min x1 (a1 : Int)) && decide (max y0 (c0 : Int) ≤ min y1 (c1 : Int))

/-- A patch diced: its grids, its copies on their way, and the counts of R411. -/
def Render.takePatch (r : Render) (dies n : Nat) (p : PatchRec) (ds : List Diced) : Render :=
  let d : RDesc := r.desc
  let gs : List Grid := ds.zipIdx.map fun e => e.1.grid d p n e.2
  let whole := bucketsOf d dies
  let copies := (gs.map fun g => (whole.filter fun b => b.meets d g).map fun b => (n, g.g, b.no, (none : Option Nat))).flatten
  let r := { r with grids := r.grids.filter (fun (g : Grid) => g.patch != n) ++ gs, flight := r.flight ++ copies }
  if r.again.contains n then r
  else ((r.count 0 1).count 1 gs.length).count 2 (gs.foldl (fun (a : Nat) (g : Grid) => a + g.nu * g.nv) 0)

/-- The record of the patch that a dicer holds read and diced. -/
def State.readPatch (s : State) (l : Launch) (r : Render) (k : Nat) (h : Dicing) : State :=
  let d : RDesc := r.desc
  let setHeld (s : State) (f : Dicing → Dicing) : State := s.updRender l.id fun r => { r with held := updAt r.held k f }
  match s.engineRead l.ctx engineMode ((d.patches + 256 * h.patch) % 2 ^ 64) 256 (s.renderSource h.die) with
  | .error (s, w) => setHeld s fun h => { h with waitOn := w }
  | .ok (s, xs) =>
    let p : PatchRec := wordsAt xs 64
    if !p.valid then
      setHeld (s.updRender l.id fun r =>
          if r.again.contains h.patch then r else { r.count 0 1 with invalid := r.invalid + 1 })
        fun h => { h with diced := true }
    else
      let ds := p.dice d
      let rest := ds.zipIdx.map fun e =>
        (e.2, (none : Option (Nat × Nat)),
         (List.range ((e.1.nu + 1) * (e.1.nv + 1))).map fun v => e.1.args d p h.patch e.2 v)
      setHeld (s.updRender l.id fun r => r.takePatch s.dieCount h.patch p ds)
        fun h => { h with diced := true, entry := p.entry, rest }

/-- A patch whose records have all been appended leaves its dicer: its dicing has ended. -/
def Render.dicingEnds (r : Render) : Render :=
  { r with held := r.held.filter fun h => !(h.diced && h.rest.isEmpty) }

/-- The patch that a dicer holds goes forward: read and diced, or its records appended.
DEDUCED: log 45. -/
def State.advanceDicer (s : State) (launch k : Nat) : State :=
  match s.launch? launch with
  | none => s
  | some l => match l.render with
    | none => s
    | some r => match r.held[k]? with
      | none => s
      | some h =>
        if h.waitOn.isSome then s
        else if !h.diced then s.readPatch l r k h
        else
          let (s, h) := s.sendGrids l.ctx launch (RDesc.srole r.desc) h h.rest
          s.updRender launch fun r => { r with held := updAt r.held k fun _ => h }

/-- A patch may be diced: for one that is diced again (R410), once the tasks of its earlier dicing have left. -/
def Render.mayDice (r : Render) (n : Nat) : Bool :=
  !(r.held.any fun h => h.patch == n) && (r.grids.filter fun g => g.patch == n).all Grid.complete

/-- The patches of all launches that the dicers of a die hold. -/
def State.dicersBusy (s : State) (die : Nat) : Nat :=
  s.launches.foldl (fun a l => match l.render with
    | none => a
    | some r => a + (r.held.filter fun h => h.die == die).length) 0

/-- The next patch of a die taken by a free dicer; `busy` of the die's are not (R6). -/
def Render.nextPatch (r : Render) (die busy : Nat) : Render :=
  let todo := match r.todo.find? fun e => e.1 == die with | some e => e.2 | none => []
  match todo.find? r.mayDice with
  | none => r
  | some n =>
    if Config.dicers ≤ busy then r
    else { r with
      held := r.held ++ [{ die, patch := n }]
      todo := r.todo.map fun e => if e.1 = die then (e.1, e.2.erase n) else e }

/-- `DICE_PATCH`, R380, R392: a free dicer of the die takes its next patch, and the patches that its dicers hold go
forward: each is read and diced, and its records appended as far as there is room. -/
def execDicePatch (launch die : Nat) (s : State) : Out :=
  done (match s.launch? launch with
  | none => s
  | some l => match l.render with
    | none => s
    | some r =>
      let c := s.ctxAt l.ctx
      if !c.renders then s
      else
        let s := if c.live && !r.abort && s.teams.any (fun t => t.launch == launch) then
            s.updRender launch (·.nextPatch die (s.dicersBusy die)) else s
        let r := match s.launch? launch with | some l => l.render.getD r | none => r
        let ks := (r.held.zipIdx.filter fun e => e.1.die == die).map (·.2)
        let s := ks.foldl (fun s k => (s.advanceDicer launch k).advanceDicer launch k) s
        s.updRender launch Render.dicingEnds)

/-! ### Cisterns and the spill pool, R385, R387, R389 -/

/-- R385. -/
def Grid.copyBytes (g : Grid) : Nat := 64 * (g.vertices + 1)
def Render.copyBytes (r : Render) (t : Token) : Nat := match r.grid? t with | some g => g.copyBytes | none => 0

/-- Copies being placed: the state, the places held in the pool as (offset, bytes), the free cisterns of the die, the
next bucket name, and how many splits and spills there were. -/
structure Giving where
  s : State
  pool : List (Nat × Nat)
  free : Nat
  next : Nat
  split : Nat := 0
  spilt : Nat := 0

/-- The lowest place of the pool with room.
DEDUCED: log 46. -/
def poolPlace (pool : List (Nat × Nat)) (size n : Nat) : Option Nat :=
  let fits (o : Nat) : Bool := decide (o + n ≤ size) && pool.all fun p => !meets p.1 p.2 o n
  ((0 :: pool.map fun p => p.1 + p.2).filter fits) |> fun os => argMax (fun o => size - o) os

/-- Why a copy could not be placed: the pool has no room, after what has been placed, or its write faulted. -/
inductive Blocked where
  | full (x : Giving)
  | fault (s : State) (w : Option Nat)

/-- A copy written to the pool: its place. The bytes are private to the device, so they become free values. -/
def Giving.toPool (x : Giving) (l : Launch) (r : Render) (die : Nat) (t : Token) : Except Blocked (Giving × Nat) :=
  let d : RDesc := r.desc
  let n := r.copyBytes t
  match poolPlace x.pool d.spillSize n with
  | none => .error (.full x)
  | some o =>
    let (v, s) := x.s.choose (2 ^ (8 * n))
    match s.engineWrite l.ctx l.id engineMode ((d.spill + o) % 2 ^ 64) (leBytes v n) (s.renderSource die) with
    | .error (s, w) => .error (.fault s w)
    | .ok s => .ok ({ x with s, pool := (o, n) :: x.pool, spilt := x.spilt + 1 }, o)

def Bucket.fill (r : Render) (b : Bucket) : Nat := b.copies.foldl (fun a t => a + r.copyBytes t) 0

/-- R387: the oldest copies of a bucket move to the pool until `n` more bytes fit. -/
def Giving.spillOldest (l : Launch) (r : Render) (n : Nat) : List Token → Giving → Bucket → Except Blocked (Giving × Bucket)
  | [], x, b => .ok (x, b)
  | t :: ts, x, b =>
    if b.fill r + n ≤ Config.cisternBytes then .ok (x, b)
    else match x.toPool l r b.die t with
      | .error e => .error e
      | .ok (x, o) =>
        Giving.spillOldest l r n ts x { b with copies := b.copies.drop 1, spilled := b.spilled ++ [(t.1, t.2, o)] }

/-- The quadrants of a bucket, in the order of R387, each with what it takes of the spilled copies. -/
def Bucket.quadrants (r : Render) (b : Bucket) (next : Nat) : List Bucket :=
  let h := b.size / 2
  [(0, 0), (h, 0), (0, h), (h, h)].zipIdx.map fun e =>
    let q := { b with id := next + e.2, x := b.x + e.1.1, y := b.y + e.1.2, size := h, cistern := true, copies := [], spilled := [] }
    { q with spilled := b.spilled.filter fun t =>
        match r.grid? (t.1, t.2.1) with | some g => q.meets r.desc g | none => false }

/-- A copy given to a bucket with a cistern, which it may split: the buckets that stand in its place. -/
def Giving.give (l : Launch) (r : Render) : Nat → Giving → Bucket → Token → Except Blocked (Giving × List Bucket)
  | fuel, x, b, t =>
    let n := r.copyBytes t
    if b.fill r + n ≤ Config.cisternBytes then .ok (x, [{ b with copies := b.copies ++ [t] }])
    else
      let spill : Except Blocked (Giving × List Bucket) :=
        match Giving.spillOldest l r n b.copies x b with
        | .error e => .error e
        | .ok (x, b) => .ok (x, [{ b with copies := b.copies ++ [t] }])
      match fuel with
      | 0 => spill
      | k + 1 =>
        if b.size ≤ 16 ∨ x.free < 3 then spill
        else
          let all := b.copies ++ [t]
          let into (acc : Except Blocked (Giving × List Bucket)) (t : Token) : Except Blocked (Giving × List Bucket) :=
            acc.bind fun a => a.2.foldl (fun acc b => acc.bind fun a =>
              match r.grid? t with
              | none => .ok (a.1, a.2 ++ [b])
              | some g =>
                if b.meets r.desc g then (Giving.give l r k a.1 b t).map fun w => (w.1, a.2 ++ w.2)
                else .ok (a.1, a.2 ++ [b])) (.ok (a.1, []))
          let x := { x with free := x.free - 3, next := x.next + 4, split := x.split + 1 }
          (b.quadrants r (x.next - 4)).foldl (fun acc q => acc.bind fun a =>
            (all.foldl into (.ok (a.1, [q]))).map fun w => (w.1, a.2 ++ w.2)) (.ok (x, []))

/-- A copy received by a bucket: the first binds a free cistern of the die; with no cistern the copy goes to the pool. -/
def Giving.receive (x : Giving) (l : Launch) (r : Render) (b : Bucket) (t : Token) : Except Blocked (Giving × List Bucket) :=
  let first := b.copies.isEmpty && b.spilled.isEmpty && !b.cistern && decide (0 < x.free)
  let x := if first then { x with free := x.free - 1 } else x
  let b := if first then { b with cistern := true } else b
  if b.cistern then Giving.give l r 2 x b t
  else match x.toPool l r b.die t with
    | .error e => .error e
    | .ok (x, o) => .ok (x, [{ b with spilled := b.spilled ++ [(t.1, t.2, o)] }])

/-- The buckets of all launches whose cisterns a die has bound. -/
def State.boundOn (s : State) (die : Nat) : Nat :=
  s.launches.foldl (fun a l => match l.render with
    | none => a
    | some r => a + (r.buckets.filter fun b => b.cistern && b.die == die).length) 0

/-- The places that a render launch's copies hold in its pool. -/
def Render.pool (r : Render) : List (Nat × Nat) :=
  ((r.buckets.map fun b => b.spilled.map fun t => (t.2.2, r.copyBytes (t.1, t.2.1))).flatten).eraseDups

def Bucket.holds (b : Bucket) (t : Token) : Bool :=
  b.copies.contains t || b.spilled.any fun u => u.1 == t.1 && u.2.1 == t.2

/-- R389. -/
def Render.aborts (r : Render) : Render :=
  { r with abort := true, held := r.held.filter (·.diced),
           buckets := r.buckets.map fun b => if b.st = .committed then b else
             { b with st := .waiting, pixels := [], cistern := false, copies := [], spilled := [] }
           flight := [] }

/-- A copy delivered to the buckets that stand for its bucket and lack it. -/
def State.deliverCopy (s : State) (l : Launch) (r : Render) (t : Token) (g : Grid) (no : Nat) : Except Blocked (Giving × List Bucket) :=
  let start : Giving :=
    { s, pool := r.pool, next := r.buckets.foldl (fun a b => Nat.max a (b.id + 1)) 0
      free := Config.cisterns - (match r.buckets.find? fun b => b.no == no with | some b => s.boundOn b.die | none => 0) }
  r.buckets.foldl (fun acc b => acc.bind fun a =>
    if b.no = no ∧ b.st ≠ .committed ∧ !b.holds t ∧ b.meets r.desc g then
      (a.1.receive l r b t).map fun w => (w.1, a.2 ++ w.2)
    else .ok (a.1, a.2 ++ [b])) (.ok (start, []))

/-- `GRID_COPY_RECEIVE`: copy `idx` of those on their way arrives at the die that owns its bucket. -/
def execGridCopyReceive (launch idx : Nat) (s : State) : Out :=
  done (match s.launch? launch with
  | none => s
  | some l => match l.render with
    | none => s
    | some r => match r.flight[idx]? with
      | none => s
      | some (p, n, no, w) =>
        if w.isSome || !(s.ctxAt l.ctx).renders then s
        else
          let gone (s : State) (f : Render → Render) : State :=
            s.updRender launch fun r => f { r with flight := r.flight.eraseIdx idx }
          match r.grid? (p, n) with
          | none => gone s id
          | some g => match s.deliverCopy l r (p, n) g no with
            | .error (.full x) => x.s.updRender launch fun r => (r.aborts.count 6 x.split).count 7 x.spilt
            | .error (.fault s w) => s.updRender launch fun r => { r with flight := updAt r.flight idx fun f => (f.1, f.2.1, f.2.2.1, w) }
            | .ok (x, bs) => gone x.s fun r => ({ r with buckets := bs }.count 6 x.split).count 7 x.spilt)

/-! ### Resolve, commit and steal, R388, R390, R401 -/

def Bucket.at_ (b : Bucket) : Nat := b.stolen.getD b.die

/-- Sample units of a die that hold a bucket. -/
def State.unitsBusy (s : State) (die : Nat) : Nat :=
  s.launches.foldl (fun a l => match l.render with
    | none => a
    | some r => a + (r.buckets.filter fun b => b.st == .resolved && b.at_ == die).length) 0

/-- R390: a bucket is ready and unstarted. -/
def Render.ready (r : Render) (b : Bucket) : Bool :=
  r.allShaded && !r.abort && b.st == .waiting && b.waitOn.isNone && !(r.flight.any fun f => f.2.2.1 == b.no)

/-- The pixels that a bucket owns. -/
def Bucket.owned (d : RDesc) (b : Bucket) : List (Nat × Nat) :=
  ((List.range b.size).map fun j => (List.range b.size).map fun i => (b.x + i, b.y + j)).flatten.filter
    fun p => decide (p.1 < d.width) && decide (p.2 < d.height)

/-- R388: the grids of a bucket in token order. -/
def Render.gridsOf (r : Render) (b : Bucket) : List Grid :=
  sortBy (fun x y => decide (x.patch < y.patch) || (x.patch == y.patch && decide (x.g ≤ y.g)))
    (r.grids.filter fun g => b.holds (g.patch, g.g))

/-- The colour words as the plane holds them. -/
def RDesc.colourBytes (d : RDesc) (c : List Nat) : List Byte :=
  if d.half then (c.map fun x => leBytes (renderEnv.convert .f16 .f32 0 x).val 2).flatten
  else (c.map fun x => leBytes x 4).flatten

/-- What a bucket's resolve finds: channels, depth and normal of each owned pixel, and the counts of R411 and R413. -/
def Render.resolve (r : Render) (b : Bucket) : Bucket :=
  let d : RDesc := r.desc
  let gs := r.gridsOf b
  let at_ (px py k : Nat) : SampleState := sampleState d gs px py k
  let own := b.owned d
  let all := (own.map fun p => (List.range d.spp).map fun k => at_ p.1 p.2 k).flatten
  { b with
    st := .resolved
    pixels := own.map fun p => (p.1, p.2, pixelColour d at_ p.1 p.2 ++ pixelDepth d at_ p.1 p.2)
    tested := gs.foldl (fun a g =>
      a + (own.filter fun p => g.covers p.1 p.2).length * d.spp * (2 * (g.nu * g.nv - g.culledCount d))) 0
    passed := all.foldl (fun a x => a + x.passed) 0
    oq := (List.range 64).map fun q => (all.filter fun x => x.oq.contains q).length }

/-- The spilled copies of a bucket read back from the pool, or the fault of a read. -/
def State.readPool (s : State) (l : Launch) (r : Render) (die : Nat) :
    List (Nat × Nat × Nat) → Except (State × Option Nat) State
  | [] => .ok s
  | t :: ts =>
    match s.engineRead l.ctx engineMode ((RDesc.spill r.desc + t.2.2) % 2 ^ 64) (r.copyBytes (t.1, t.2.1)) (s.renderSource die) with
    | .error e => .error e
    | .ok (s, _) => s.readPool l r die ts

/-- R390: a die takes its ready buckets in ascending order; one that it has stolen is its to take. -/
def Render.turn (r : Render) (b : Bucket) : Bool :=
  b.stolen.isSome || (r.buckets.find? fun c => c.die == b.die && c.stolen.isNone && r.ready c).map (·.id) == some b.id

/-- `BUCKET_RESOLVE`. -/
def execBucketResolve (launch bucket : Nat) (s : State) : Out :=
  done (match s.launch? launch with
  | none => s
  | some l => match l.render with
    | none => s
    | some r => match r.bucket? bucket with
      | none => s
      | some b =>
        if !(s.ctxAt l.ctx).live || !r.ready b || !r.turn b || decide (Config.sampleUnits ≤ s.unitsBusy b.at_) then s
        else match s.readPool l r b.at_ b.spilled with
          | .error (s, w) => s.updRender launch fun r => r.updBucket bucket fun b => { b with waitOn := w }
          | .ok s => s.updRender launch fun r => r.updBucket bucket r.resolve)

/-- The stores of a bucket's commit: (address, bytes). -/
def RDesc.planes (d : RDesc) (b : Bucket) : List (Nat × List Byte) :=
  (b.pixels.map fun p =>
    let (px, py, ws) := p
    let colour := (d.outbase + py * d.opitch + px * (if d.half then 8 else 16), d.colourBytes (ws.take 4))
    let i := py * d.width + px
    let depth := if d.depth = 0 then [] else [(d.depth + 4 * i, leBytes (ws.getD 4 0) 4)]
    let normal := if d.normal = 0 then [] else [(d.normal + 12 * i, ((ws.drop 5).map fun x => leBytes x 4).flatten)]
    colour :: depth ++ normal).flatten

/-- Every store's places found before any is made. -/
def State.storeChecks (s : State) (l : Launch) (die : Nat) :
    List (Nat × List Byte) → Except (State × Option Nat) (State × List (Runs × List Byte))
  | [] => .ok (s, [])
  | (a, xs) :: rest =>
    match s.engineCheck l.ctx l.id (s.renderSource die) { kind := .write, core := engineCore } (a % 2 ^ 64) xs.length with
    | .error e => .error e
    | .ok (s, runs) => (s.storeChecks l die rest).map fun more => (more.1, (runs, xs) :: more.2)

/-- `BUCKET_COMMIT`, R401, R411 to R413. -/
def execBucketCommit (launch bucket : Nat) (s : State) : Out :=
  done (match s.launch? launch with
  | none => s
  | some l => match l.render with
    | none => s
    | some r => match r.bucket? bucket with
      | none => s
      | some b =>
        if !(s.ctxAt l.ctx).live || r.abort || b.st ≠ .resolved || b.waitOn.isSome then s
        else match s.storeChecks l b.at_ (RDesc.planes r.desc b) with
          | .error (s, w) => s.updRender launch fun r => r.updBucket bucket fun b => { b with waitOn := w }
          | .ok (s, puts) =>
            (puts.foldl (fun s p => (s.homeRuns true p.1).wrRuns p.1 p.2) s).updRender launch fun r =>
              let r := ((r.count 4 b.tested).count 5 b.passed).count 8 (if b.stolen.isSome then 1 else 0)
              { r.updBucket bucket (fun b => { b with st := .committed, pixels := [], cistern := false, copies := [], spilled := [] }) with
                oq := r.oq.zipWith (· + ·) b.oq })

/-- `BUCKET_STEAL`, R390: a die whose sample units are idle and which has no ready bucket of its own takes the highest
ready bucket of the die that holds the most. Buckets are counted launch by launch.
DEDUCED: log 46. -/
def execBucketSteal (launch thief : Nat) (s : State) : Out :=
  done (match s.launch? launch with
  | none => s
  | some l => match l.render with
    | none => s
    | some r =>
      let readyOn (d : Nat) : List Bucket := r.buckets.filter fun b => b.at_ == d && r.ready b
      if !(s.ctxAt l.ctx).live || decide (s.dieCount ≤ thief) || s.unitsBusy thief != 0 || !(readyOn thief).isEmpty then s
      else match argMax (fun d => ((readyOn d).filter fun b => b.stolen.isNone).length) (List.range s.dieCount) with
        | none => s
        | some d => match ((readyOn d).filter fun b => b.stolen.isNone).getLast? with
          | none => s
          | some b => s.updRender launch fun r => r.updBucket b.id fun b => { b with stolen := some thief })

/-! ### An error in a cistern, R79, R410 -/

/-- The bucket killed: it resolves again from its first copy, and its cistern is free (R69). -/
def Bucket.kill (b : Bucket) : Bucket :=
  if b.st = .committed then b
  else { b with st := .waiting, pixels := [], tested := 0, passed := 0, oq := [], waitOn := none, cistern := false }

/-- The copies of a cistern that no other bucket holds. -/
def Render.onlyIn (r : Render) (b : Bucket) : List Token :=
  b.copies.filter fun t => !(r.buckets.any fun c => c.id != b.id && c.holds t)

/-- The patches of lost copies are to be diced again, and their grids shaded again; the copies of the cistern that another bucket
holds as well travel to the bucket once more.
DEDUCED: log 45. -/
def Render.rebuild (r : Render) (b : Bucket) (dies : Nat) : Render :=
  let lost := r.onlyIn b
  let ps := (lost.map (·.1)).eraseDups
  let fresh := ps.filter fun n => !(r.todo.any fun e => e.2.contains n) && !(r.held.any fun h => h.patch == n && !h.diced)
  { (r.updBucket b.id fun b => { b.kill with copies := [], ues := b.ues + 1 }) with
    flight := r.flight ++ (b.copies.filter fun t => !lost.contains t).map fun t => (t.1, t.2, b.no, none)
    again := (r.again ++ ps).eraseDups
    todo := r.todo.map fun e => (e.1, (fresh.filter fun n => n / 64 % dies == e.1) ++ e.2) }

/-- `CISTERN_UE`. -/
def execCisternUe (launch bucket : Nat) (s : State) : Out :=
  done (match s.launch? launch with
  | none => s
  | some l => match l.render with
    | none => s
    | some r => match r.bucket? bucket with
      | none => s
      | some b =>
        if !(s.ctxAt l.ctx).renders || !b.cistern || b.copies.isEmpty then s
        else if 1 ≤ b.ues then s.endContext l.ctx 0
        else s.updRender launch fun r => r.rebuild b s.dieCount)

end Sys2Proof.Machine
end

