-- ==== Sys2Proof/Machine/Siphon.lean ====
section
/-!
DEFINITION. Siphons (R152 to R161, R340): acceptance of a command, the elements of a copy with their conversion, and the
landing of their bytes.
-/
namespace Sys2Proof.Machine

/-! ### The descriptor, R154 -/

abbrev Desc := List Word

def Desc.w (d : Desc) (off : Nat) : Nat := (d.getD (off / 4) 0).toNat
def Desc.q (d : Desc) (off : Nat) : Nat := d.w off + d.w (off + 4) * 2 ^ 32
def Desc.gaddr (d : Desc) : Nat := d.q 0
def Desc.soff (d : Desc) : Nat := d.w 0x8
def Desc.baroff (d : Desc) : Nat := d.w 0xC
def Desc.e0 (d : Desc) : Nat := d.w 0x10
def Desc.e1 (d : Desc) : Nat := d.w 0x14
def Desc.e2 (d : Desc) : Nat := d.w 0x18
def Desc.ctl (d : Desc) : Nat := d.w 0x1C
def Desc.gs1 (d : Desc) : Nat := d.q 0x20
def Desc.gs2 (d : Desc) : Nat := d.q 0x28
def Desc.ss1 (d : Desc) : Nat := d.w 0x30
def Desc.ss2 (d : Desc) : Nat := d.w 0x34
def Desc.idxoff (d : Desc) : Nat := d.w 0x38
def Desc.dir (d : Desc) : Nat := bits d.ctl 31 30
def Desc.gather (d : Desc) : Bool := bit d.ctl 29
def Desc.tiled (d : Desc) : Bool := bit d.ctl 28
def Desc.hint (d : Desc) : Hint := (Hint.ofCode (bits d.ctl 27 26)).getD .kall
def Desc.sfmt (d : Desc) : Nat := bits d.ctl 25 22
def Desc.dfmt (d : Desc) : Nat := bits d.ctl 21 18
def Desc.rnd (d : Desc) : Nat := bits d.ctl 17 15
def Desc.sat (d : Desc) : Bool := bit d.ctl 14

/-- Sizes and formats of the element format codes, R154. -/
def fmtBytes : Nat → Nat
  | 0 => 1 | 1 => 2 | 2 => 4 | 3 => 8 | 4 => 4 | 5 => 2 | 6 => 2 | 7 => 1 | 8 => 1 | _ => 1
def fmtType : Nat → Option FTy
  | 4 => some .f32 | 5 => some .f16 | 6 => some .bf16 | 7 => some .e4m3 | 8 => some .e5m2 | _ => none

def Desc.toSpad (d : Desc) : Bool := d.dir == 0
/-- Formats on the two sides of the copy. -/
def Desc.gfmt (d : Desc) : Nat := if d.toSpad then d.sfmt else d.dfmt
def Desc.pfmt (d : Desc) : Nat := if d.toSpad then d.dfmt else d.sfmt
def Desc.gsize (d : Desc) : Nat := fmtBytes d.gfmt
def Desc.ssize (d : Desc) : Nat := fmtBytes d.pfmt
def Desc.dsize (d : Desc) : Nat := fmtBytes d.dfmt
def Desc.elements (d : Desc) : Nat := d.e0 * d.e1 * d.e2
def Desc.bytes (d : Desc) : Nat := d.elements * d.dsize
/-- Bytes of the scratchpad extent, R155. -/
def Desc.extent (d : Desc) : Nat := (d.e1 - 1) * d.ss1 + (d.e2 - 1) * d.ss2 + d.e0 * d.ssize

/-- The pairs of formats that a copy may convert between, R155. -/
def fmtPairOk (a b : Nat) : Bool :=
  decide (a ≤ 8) && decide (b ≤ 8)
    && (a == b || (a == 4 && decide (5 ≤ b)) || (b == 4 && decide (5 ≤ a)) || (a == 5 && b == 6) || (a == 6 && b == 5))

/-- R155: a valid descriptor. -/
def Desc.valid (d : Desc) : Bool :=
  let ext (n : Nat) : Bool := decide (1 ≤ n) && decide (n ≤ 65536)
  d.dir != 3 && bits d.ctl 13 0 == 0 && d.w 0x3C == 0 && fmtPairOk d.sfmt d.dfmt && decide (d.rnd ≤ 5)
    && (!d.tiled || d.dir == 0) && ext d.e0 && ext d.e1 && ext d.e2 && decide (d.bytes ≤ 2 ^ 24)
    && d.gaddr % d.gsize == 0 && d.gs1 % d.gsize == 0 && d.gs2 % d.gsize == 0
    && d.soff % d.ssize == 0 && d.ss1 % d.ssize == 0 && d.ss2 % d.ssize == 0
    && (!d.gather || d.idxoff % 4 == 0) && d.baroff % 16 == 0

/-! ### Acceptance, R152, R153, R155 -/

def Team.words (t : Team) (off n : Nat) : List Word := (List.range n).map fun k => BitVec.ofNat 32 (t.rd (off + 4 * k) 4)

/-- Commands in one siphon's queue. -/
def State.queued (s : State) (core siphon : Nat) : Nat :=
  (s.copies.filter fun c => c.core == core && c.siphon == siphon).length

/-- The checks of R155 on a command, in its order; an uncorrectable error of the descriptor's bytes (R79) is judged where they
are read, before the offset's alignment, and AUX is the descriptor's offset for detail 5, BAROFF for detail 4.
DESIGN CHOICE: log 64. -/
def Team.siphonTrap (t : Team) (off : Nat) : Option Trap :=
  let d : Desc := t.words off 16
  if !t.inWindow off 64 then some (windowTrap off .read)
  else if t.spadError off 64 then some memError
  else if off % 16 ≠ 0 then some (barrierMisuse 5 off)
  else if !d.valid then some (barrierMisuse 5 off)
  else if !t.inWindow d.soff d.extent then some (windowTrap d.soff (if d.toSpad then .write else .read))
  else if d.gather && !t.inWindow d.idxoff (4 * d.e1) then some (windowTrap d.idxoff .read)
  else if !t.inWindow d.baroff 16 then some (windowTrap d.baroff .atomic)
  else if t.spadError d.baroff 16 then some memError
  else if (t.bar d.baroff).texp = 0 then some (barrierMisuse 5 off)
  else if 2 ^ 32 ≤ (t.bar d.baroff).bpend + d.bytes then some (barrierMisuse 4 d.baroff)
  else none

/-- One command of a lane. -/
def State.accept (s : State) (l off : Nat) : Res :=
  match s.grp, s.myTeam with
  | some g, some t =>
    let n0 := s.queued g.core 0
    let n1 := s.queued g.core 1
    if Config.siphonQueue ≤ n0 ∧ Config.siphonQueue ≤ n1 then .wait s
    else match t.siphonTrap off with
      | some e => .trap e
      | none =>
        let d : Desc := t.words off 16
        let b := t.bar d.baroff
        let c : Copy := {
          siphon := if n1 < n0 then 1 else 0, core := g.core, ctx := g.ctx, team := t.id, desc := d, fmode := g.fmode
          fseed := g.fseed
          src := { code := 2, die := s.physDie (dieOf g.core), core := coreOf g.core, group := g.slot, lane := l
                   pc := s.cur.pc } }
        let s := s.updTeam t.id fun t => t.setBar d.baroff { b with bpend := b.bpend + d.bytes }
        .ok { s with copies := s.copies ++ [c] } none
  | _, _ => .trap (windowTrap off .read)

/-- `siph`, R340: one command for each lane, or one for the class from a uniform register. -/
def execSiph (a : Src) (s : State) : Out :=
  let lead := s.lead
  done (perLane (.siph a) (fun l s =>
    if a.isVec || l == lead then s.accept l (s.reg l a 0).toNat else .ok s none) s)

/-! ### The copy, R156 to R160 -/

/-- R157: one element converted. -/
def Copy.convert (c : Copy) (idx x : Nat) : Nat :=
  let d : Desc := c.desc
  if d.sfmt = d.dfmt then x
  else match fmtType d.sfmt, fmtType d.dfmt with
    | some a, some b =>
      let fm := setBits c.fmode.toNat 18 18 (if d.sat then 1 else 0)
      let e : FEnv := { fmode := BitVec.ofNat 32 fm, rm := if d.rnd = 0 then c.fmode.toNat % 8 else d.rnd,
                        seed := c.fseed, idx }
      (e.convert b a 0 x).val
    | _, _ => x

/-- What an element's access finds: the state after it with the IDX[i] of its row, or the copy's wait or end. -/
inductive CopyRes where
  | ok (s : State) (index : Option Nat)
  | stop (s : State) (w : Option Nat)

/-- An access by the copy. -/
def State.copyCheck (s : State) (c : Copy) (m : Mode) (va n : Nat) : Except (State × Option Nat) (State × Runs) :=
  s.engineCheck c.ctx (s.launchOfTeam c.team) c.src m va n

/-- IDX[i] of the row that the next element stands in, read before the row's first element (R156). -/
def Copy.rowIndex (c : Copy) (t : Team) (i j : Nat) : Nat :=
  let read := t.rd (Desc.idxoff c.desc + 4 * i) 4
  if j = 0 then read else c.index.getD read

/-- The home slices at a write of a copy, with its hint (R154); a bank-mode one goes past L2 to device memory (R158). -/
def State.copyWrites (s : State) (d : Desc) (runs : Runs) : State :=
  if d.dir = 2 then runs.foldl (fun s r => if pteLoc r.2.2.entry then s.homeRuns true [r] else s.throughRuns [r]) s
  else s.homeRuns true runs d.hint

/-- Element (k, i, j) of R156 by its number in the element order, performed and landed. A store of it updates the L1 of the copy's
core (R60). An error in what it reads of the scratchpad, the object that counts it and the rest of a code word that it writes in part
included, ends the context (R79).
DESIGN CHOICE: log 21. -/
def State.copyElement (s : State) (c : Copy) (t : Team) : CopyRes :=
  let d : Desc := c.desc
  let n := c.done
  let j := n % d.e0
  let i := n / d.e0 % d.e1
  let k := n / (d.e0 * d.e1)
  let core := c.core
  let srow := d.soff + i * d.ss1 + k * d.ss2 + j * d.ssize
  let reads := (if d.gather && (j == 0 || c.index.isNone) then [(d.idxoff + 4 * i, 4)] else [])
    ++ (if d.toSpad then [] else [(srow, d.ssize)]) ++ [(d.baroff, 16)]
  if (reads.any fun r => t.spadError r.1 r.2) || (d.toSpad && t.partError srow d.ssize) then .stop (s.endContext c.ctx 0) none
  else
    let index := if d.gather then some (c.rowIndex t i j) else none
    let row := index.getD i
    let va := (d.gaddr + row * d.gs1 + k * d.gs2 + j * d.gsize) % 2 ^ 64
    if d.toSpad then
      match s.copyCheck c { kind := .read, tiled := d.tiled, core } va d.gsize with
      | .error (s, w) => .stop s w
      | .ok (s, runs) =>
        let x := leNat (s.rdRuns runs)
        let s := (s.homeRuns false runs d.hint).feedback c.ctx (s.launchOfTeam c.team) core va runs
        .ok (s.updTeam t.id fun t => (t.wr srow d.ssize (c.convert n x)).land d.baroff d.dsize) index
    else
      match s.copyCheck c { kind := .write, bank := d.dir == 2, core } va d.gsize with
      | .error (s, w) => .stop s w
      | .ok (s, runs) =>
        let xs := leBytes (c.convert n (t.rd srow d.ssize)) d.gsize
        let s := (s.copyWrites d runs).putRuns core runs xs
        .ok (s.updTeam t.id fun t => t.land d.baroff d.dsize) index

/-- The index in the list of all copies of the `idx`-th copy of a team. -/
def copyAt (team : Nat) : List Copy → Nat → Nat → Option Nat
  | [], _, _ => none
  | c :: cs, idx, pos =>
    if c.team = team then (match idx with | 0 => some pos | k + 1 => copyAt team cs k (pos + 1))
    else copyAt team cs idx (pos + 1)

/-- Up to `count` elements of a copy; a copy whose last element has landed leaves its queue.
DESIGN CHOICE: log 21. -/
def State.runCopy (s : State) (pos : Nat) : Nat → State
  | 0 => s
  | n + 1 =>
    match s.copies[pos]? with
    | none => s
    | some c => match s.team? c.team with
      | none => s
      | some t =>
        if c.waitOn.isSome then s
        else match s.copyElement c t with
          | .stop s none => s
          | .stop s w => { s with copies := updAt s.copies pos fun c => { c with waitOn := w } }
          | .ok s index =>
            if c.done + 1 < Desc.elements c.desc then
              State.runCopy { s with copies := updAt s.copies pos fun c => { c with done := c.done + 1, index } } pos n
            else { s with copies := s.copies.eraseIdx pos }

/-- `SIPHON_LAND`: the next elements of an accepted copy are performed, and their bytes land. -/
def execSiphonLand (team idx count : Nat) (s : State) : Out :=
  done (match copyAt team s.copies idx 0 with
    | some pos => s.runCopy pos (Nat.max 1 count)
    | none => s)

end Sys2Proof.Machine
end

