-- ==== Sys2Proof/Machine/Preempt.lean ====
section
/-!
DEFINITION. Pre-emption: the save of a context (R427 to R433, R161, R408) and its restore (R434), whole or by the parts
that a control core saves and loads (R374).
-/
namespace Sys2Proof.Machine

/-! ### The save area, R421, R432, R433 -/

def Ctx.saveBase (c : Ctx) : Nat := c.savebase.toNat * 4096
def Ctx.saveBytes (c : Ctx) : Nat := bits c.savesz.toNat 19 0 * 4096

/-- A byte range relative to a partition window lies wholly inside it. -/
def State.insideWindow (s : State) (part a n : Nat) : Bool := decide (a + n ≤ winSize (s.partWin.getD part 0) * 2 ^ 30)

/-- What a team needs at most in a save, R432. -/
def saveNeed (t : Team) : Nat :=
  4096
    + (roleIndices t.roles).foldl (fun a k =>
        let r := t.roles.getD k ⟨0, 0, 0, 0, false, 0, 0⟩
        a + 1024 + 32 * (64 + 16 * (16 + r.d) + 4 * (r.b + r.k))) 0
    + (if t.stream.isSome then 16384 else 0)
    + t.cores.length * t.spsize + t.tiles * 16384 + 128 * 128 + 128 * 4096 * t.cores.length
def savesNeed (ts : List Team) : Nat := ts.foldl (fun a t => a + saveNeed t) 64

/-- The 64-bit words of bytes, little-endian. -/
def dwordsOf : Nat → List Byte → List Nat
  | 0, _ => []
  | n + 1, xs => leNat (xs.take 8) :: dwordsOf n (xs.drop 8)
def xorSum (xs : List Byte) : Nat := (dwordsOf (xs.length / 8) xs).foldl (· ^^^ ·) 0

def saveMagic : Nat := 0x5C040A11

def saveHeader (bytes teams slot tasks sum : Nat) : List Byte :=
  leBytes saveMagic 4 ++ leBytes bytes 4 ++ leBytes (slot + teams * 2 ^ 16) 4 ++ leBytes tasks 4 ++ leBytes sum 8
    ++ List.replicate 40 0

/-- A save's bytes written at a device address, by the home slices: its header, and a body in the device's private form, whose bytes are
free values.
DESIGN CHOICE: log 41. -/
def State.writeSave (s : State) (pa bytes slot : Nat) (teams tasks : Nat) : State :=
  let (x, s) := s.choose (2 ^ (8 * (bytes - 64)))
  let body := leBytes x (bytes - 64)
  (s.homeRange (.dev pa) bytes true false false).wrBytes (.dev pa) (saveHeader bytes teams slot tasks (xorSum body) ++ body)

/-- R433: what of the header of a save at a device address, for an area of `room` bytes, is judged on its own. -/
def State.headerFits (s : State) (pa slot room : Nat) : Bool :=
  s.rdNat (.dev pa) 4 == saveMagic && s.rdNat (.dev (pa + 8)) 1 == slot && decide (s.rdNat (.dev (pa + 4)) 4 ≤ room)

/-- R433: the header of a save passes, its check word included. -/
def State.headerOk (s : State) (pa slot room : Nat) : Bool :=
  s.headerFits pa slot room
    && s.rdNat (.dev (pa + 0x10)) 8 == xorSum (s.rdBytes (.dev (pa + 64)) (s.rdNat (.dev (pa + 4)) 4 - 64))

/-- R80: the uncorrectable error that the check of a save meets: in its header, or, where that fits, among its bytes. -/
def State.saveError (s : State) (pa slot room : Nat) : Option Nat :=
  (s.ueIn (.dev pa) 64).or (if s.headerFits pa slot room then s.ueIn (.dev pa) (s.rdNat (.dev (pa + 4)) 4) else none)

/-- The bytes of a save read, by the home slices. -/
def State.saveReads (s : State) (pa slot room : Nat) : State :=
  s.homeRange (.dev pa) (if s.headerFits pa slot room then Nat.max 64 (s.rdNat (.dev (pa + 4)) 4) else 64) false false false

/-! ### What a save takes, R429, R431 -/

/-- R428: a lane Ready at a safe point that it has not issued is saved with the clause's LIVE applied. -/
def State.atRestLane (s : State) (g : Group) (t : Lane) : Lane :=
  if t.st = .ready ∧ t.mid.isNone then
    match s.fetchHeader g.ctx g.core t.pc.toNat with
    | .ok (some h) => if h.safe then t.applyLive h.live else t
    | _ => t
  else t

/-- The teams `ids` with all that is theirs, as one save. -/
def State.gather (s : State) (n at_ : Nat) (ids : List Nat) : Saved :=
  let mine (g : Group) : Bool := ids.contains g.team
  { ctx := n, at_
    teams := s.teams.filter fun t => ids.contains t.id
    groups := (s.groups.filter mine).map fun g => { g with lanes := g.lanes.map (s.atRestLane g) }
    copies := s.copies.filter fun c => ids.contains c.team
    tasks := s.wells.filter fun w => ids.contains w.2.team
    held := (s.ctxAt n).held.filter fun h => (s.groups.filter mine).any fun g => g.isAt h.core h.slot }

/-- Their resources released. Where a held record goes with them, the next is shown (R422). -/
def State.release (s : State) (n : Nat) (v : Saved) : State :=
  let ids := v.teams.map (·.id)
  let slots := v.groups.map fun g => (g.core, g.slot)
  let shown := (s.ctxAt n).held.head?.any fun h => slots.contains (h.core, h.slot)
  let s : State := { s with
    teams := s.teams.filter fun t => !ids.contains t.id
    groups := s.groups.filter fun g => !ids.contains g.team
    copies := s.copies.filter fun c => !ids.contains c.team
    wells := s.wells.filter fun w => !ids.contains w.2.team
    cores := unmapped slots s.cores
    ctx := updAt s.ctx n fun c => { c with held := c.held.filter fun h => !slots.contains (h.core, h.slot) } }
  (slots.map (·.1)).eraseDups.foldl State.showOthers (if shown then s.showHeld n else s)

/-- Where the copies of some teams stand that no fault pauses. -/
def State.running (s : State) (ids : List Nat) : List Nat :=
  (s.copies.zipIdx.filter fun c => ids.contains c.1.team && c.1.waitOn.isNone).map (·.2)

/-- R161: the copies of some teams that are not paused on a fault run to their end; those past the first `k` that wait for a host
page go on as far as they can. -/
def State.finishCopies (s : State) (ids : List Nat) : Nat → Nat → State
  | 0, _ => s
  | n + 1, k => match (s.running ids)[k]? with
    | none => s
    | some pos =>
      let s' := s.runCopy pos ((s.copies[pos]?.map fun c => Desc.elements c.desc).getD 0)
      s'.finishCopies ids n (if (s'.running ids).length < (s.running ids).length then k else k + 1)

/-! ### `CTX_SAVE`, R427, R432 -/

/-- R408: buckets being resolved are killed, and steals return to their owners. The copies of a killed bucket stand until they
are written to the pool. -/
def Render.preempt (r : Render) : Render :=
  { r with buckets := r.buckets.map fun b =>
      if b.st = .committed then b
      else { (if b.st = .resolved ∨ b.waitOn.isSome then b.kill else b) with stolen := none } }

/-- A write of SAVE.
DEDUCED: log 42. -/
def State.beginSave (s : State) (n : Nat) : State :=
  let c := s.ctxAt n
  if c.faulted || c.busy || c.saved then s
  else if !s.insideWindow c.part c.saveBase c.saveBytes then s.updCtx n fun c => { c with perr := true }
  else
    let s := s.updCtx n fun c => { c with busy := true }
    let cores := s.coresOf n
    let s := cores.foldl (fun s core => s.closeAll core s.windows.length) s
    { s with launches := s.launches.map fun l => if l.ctx = n then { l with render := l.render.map Render.preempt } else l }

/-! ### `SAVE_COMPLETE` -/

/-- R408: the copies in the cisterns of a launch written to its pool, bucket by bucket. -/
def Giving.emptyBucket (l : Launch) (r : Render) : List Token → Giving → Bucket → Except Blocked (Giving × Bucket)
  | [], x, b => .ok (x, { b with cistern := false })
  | t :: ts, x, b => match x.toPool l r b.die t with
    | .error e => .error e
    | .ok (x, o) => Giving.emptyBucket l r ts x { b with copies := b.copies.drop 1, spilled := b.spilled ++ [(t.1, t.2, o)] }

def Giving.emptyAll (l : Launch) (r : Render) : List Bucket → Giving → Except Blocked (Giving × List Bucket)
  | [], x => .ok (x, [])
  | b :: bs, x => match Giving.emptyBucket l r b.copies x b with
    | .error e => .error e
    | .ok (x, b) => match Giving.emptyAll l r bs x with
      | .error e => .error e
      | .ok (x, bs) => .ok (x, b :: bs)

/-- The cisterns of one launch emptied: what holds the save, if anything does. -/
def State.emptyCisterns (s : State) (l : Launch) : State × Bool :=
  match l.render with
  | none => (s, true)
  | some r =>
    if r.abort then (s, true)
    else if r.buckets.any fun b => b.waitOn.isSome then (s, false)
    else match Giving.emptyAll l r r.buckets { s, pool := r.pool, free := 0, next := 0 } with
      | .ok (x, bs) => (x.s.updRender l.id fun r => { r with buckets := bs }, true)
      | .error (.full x) => (x.s.updRender l.id Render.aborts, true)
      | .error (.fault s w) => match r.buckets.find? fun b => b.cistern with
        | some b => (s.updRender l.id fun r => r.updBucket b.id fun b => { b with waitOn := w }, false)
        | none => (s, false)

def State.emptyLaunches (s : State) : List Launch → State × Bool
  | [] => (s, true)
  | l :: ls => match s.emptyCisterns l with
    | (s, true) => s.emptyLaunches ls
    | (s, false) => (s, false)

/-- No copy of the launch is on its way but one that waits on a fault (R409), and no dicer of it can go forward but by room for its
records. -/
def State.dicersDone (s : State) (l : Launch) : Bool :=
  match l.render with
  | none => true
  | some r => r.flight.all (fun f => f.2.2.2.isSome)
      && r.held.zipIdx.all fun h => h.1.waitOn.isNone && h.1.diced && s.advanceDicer l.id h.2 == s

/-- The quarter for which a dicer's records are saved where it has chosen none and none of its launch is resident: the first of a
saved team. -/
def State.savedQuarter (s : State) (launch : Nat) : Option (Nat × Nat) :=
  (s.saves.findSome? fun v => v.teams.find? fun t => t.launch == launch).map fun t => (t.id, 0)

/-- R408: a dicer of a launch completes the patch it holds: its records for which wellhead and sump have no room are saved with
those of the wellheads, or with the team that a control core has saved already. -/
def State.endDicing (s : State) (launch srole : Nat) (h : Dicing) : State :=
  h.rest.foldl (fun s x =>
    match (x.2.1.or (s.chooseQuarter launch h.die)).or (s.savedQuarter launch) with
    | none => s
    | some q =>
      let records (t : Team) : List (Nat × Task) := x.2.2.map fun args =>
        (t.coreAt q.2, { team := q.1, quarter := q.2, role := srole, entry := h.entry, args, grid := some (launch, h.patch, x.1) })
      match s.team? q.1 with
      | some t => { s with wells := s.wells ++ records t }
      | none => { s with saves := s.saves.map fun v => match v.teams.find? fun t => t.id == q.1 with
          | some t => { v with tasks := v.tasks ++ records t }
          | none => v }) s

def State.endDicings (s : State) (n : Nat) : State :=
  (s.launches.filter fun l => l.ctx == n).foldl (fun s l => match l.render with
    | none => s
    | some r =>
      let ends (h : Dicing) : Bool := h.diced
      ((r.held.filter ends).foldl (fun s h => s.endDicing l.id (RDesc.srole r.desc) h) s).updRender l.id fun r =>
        { r with held := r.held.filter fun h => !ends h }) s

/-- R100, R429: the commit of a launch whose teams have all ended is still to be made. -/
def State.commitDue (s : State) (l : Launch) : Bool :=
  l.allPlaced && !s.teamsLeft l.id && !(l.committed || l.table.isEmpty)

/-- R428, R429: nothing of the context runs any more.
DEDUCED: log 42. -/
def State.atRest (s : State) (n : Nat) : Bool :=
  (s.groups.all fun g => g.ctx != n || s.quiescent g)
    && (s.copies.all fun c => c.ctx != n || c.waitOn.isSome)
    && (s.launches.all fun l => l.ctx != n || (s.dicersDone l && !s.commitDue l))

/-- The save of a context that is at rest: written, or abandoned where it does not fit, with every record left where it stands. What of
the bound of R432 it needs is a free value.
DESIGN CHOICE: log 41. -/
def State.finishSave (s : State) (n : Nat) : State :=
  let c := s.ctxAt n
  let most := savesNeed ((s.teams.filter fun t => t.ctx == n) ++ ((s.saves.filter fun v => v.ctx == n).map (·.teams)).flatten)
  let (x, s) := s.choose (most - 63)
  let abandoned := s.updCtx n fun c => { c with perr := true, busy := false }
  if c.saveBytes < 64 + x then abandoned
  else match s.window c.part c.saveBase with
    | none => abandoned
    | some pa =>
      let bytes := roundUp (64 + x) 4096
      match s.ueIn (.dev pa) bytes with
      | some ue => (s.noteUe ue).endContext n 0
      | none =>
      let s := s.endDicings n
      let parts := s.saves.filter fun v => v.ctx == n
      let v := s.gather n 0 ((s.teams.filter fun t => t.ctx == n).map (·.id))
      let tasks := (parts.map (·.tasks)).flatten ++ v.tasks
      let teams := (parts.map (·.teams)).flatten ++ v.teams
      let s := (s.release n v).writeSave pa bytes n teams.length tasks.length
      let all : Saved :=
        { ctx := n, at_ := pa, image := s.rdBytes (.dev pa) bytes
          teams, groups := (parts.map (·.groups)).flatten ++ v.groups
          copies := (parts.map (·.copies)).flatten ++ v.copies, tasks
          held := (parts.map (·.held)).flatten ++ v.held }
      let s : State := { s with saves := s.saves.filter (fun (v : Saved) => v.ctx != n) ++ [all], images := all :: s.images }
      s.updCtx n fun c => { c with busy := false, saved := true }

def execSaveComplete (n : Nat) (s : State) : Out :=
  done (if !(s.ctxAt n).saving || !s.atRest n then s
    else
      let (s, ok) := s.emptyLaunches (s.launches.filter fun l => l.ctx == n)
      if ok && (s.ctxAt n).saving then s.finishSave n else s)

/-! ### Restore, R434 -/

/-- Where a group of a saved team stands: its old slot's index, and the new slot of that index. -/
def movedSlot (t : Team) (new : List (Nat × Nat × Nat)) (core slot : Nat) : Nat × Nat :=
  match t.slots.find? fun e => e.1 == core && e.2.1 == slot with
  | some e => match new.find? fun x => x.2.2 == e.2.2 with
    | some x => (x.1, x.2.1)
    | none => (core, slot)
  | none => (core, slot)

/-- R148: a thread held in `waitph` performs the wait again after a restore. -/
def Lane.waitAgain (t : Lane) : Lane :=
  match t.hold with
  | .phase _ _ _ => { t with st := .ready, hold := .none }
  | _ => t

/-- A saved team placed on a unit: its groups in new slots and of the ages that they had, its copies on their new cores in the queues of
the siphons that they had, its held traps shown again. Its wellhead records stay to enter.
DESIGN CHOICE: log 88. -/
def State.placeSaved (s : State) (v : Saved) (t : Team) (unit : List Nat) : State :=
  let new := bindTeam s.teams t.roles unit
  let mine (id : Nat) : Bool := id == t.id
  let core (c : Nat) : Nat := match t.cores.idxOf? c with | some q => unit.getD q c | none => c
  let group (g : Group) : Group :=
    let m := movedSlot t new g.core g.slot
    { g with core := m.1, slot := m.2, lanes := g.lanes.map Lane.waitAgain }
  let source (x : Source) (old : Nat) : Source :=
    let m := movedSlot t new old x.group
    { x with die := s.physDie (dieOf (core old)), core := coreOf (core old), group := m.2 }
  let copy (c : Copy) : Copy := { c with core := core c.core, src := source c.src c.core }
  let groups := v.groups.filter fun g => mine g.team
  let held := (v.held.filter fun h => groups.any fun g => g.isAt h.core h.slot).map fun h =>
    let m := movedSlot t new h.core h.slot
    { h with core := m.1, slot := m.2 }
  let rest : Saved :=
    { v with
      teams := v.teams.filter fun u => u.id != t.id
      groups := v.groups.filter fun g => !mine g.team
      copies := v.copies.filter fun c => !mine c.team
      tasks := v.tasks.map fun w => if mine w.2.team then (unit.getD w.2.quarter 0, w.2) else w
      held := v.held.filter fun h => !(groups.any fun g => g.isAt h.core h.slot) }
  let s := s.dropCode t.launch unit
  let first := (s.ctxAt t.ctx).held.isEmpty && !held.isEmpty
  let s : State :=
    { s with
      teams := s.teams ++ [{ t with cores := unit, slots := new }]
      groups := s.groups ++ groups.map group
      copies := s.copies ++ (v.copies.filter fun c => mine c.team).map copy
      saves := s.saves.map fun u => if u = v then rest else u
      ctx := updAt s.ctx t.ctx fun c => { c with held := c.held ++ held } }
  let s := unit.foldl (fun s core => (s.signal core).acquire core) s
  if first then s.showHeld t.ctx else s

/-- R434: the records that wait for a core's wellhead enter it in saved order while it has room. -/
def State.enterRestored (s : State) (core : Nat) : Nat → State
  | 0 => s
  | n + 1 =>
    if Config.wellheadRoom ≤ s.wellCount core then s
    else
      let waits (w : Nat × Task) : Bool := w.1 == core && (s.team? w.2.team).isSome
      match s.saves.find? fun v => v.tasks.any waits with
      | none => s
      | some v => match v.tasks.find? waits with
        | none => s
        | some w =>
          let s := { s with saves := s.saves.map fun u => if u = v then { u with tasks := u.tasks.erase w } else u }
          (s.enterWell core w.2).enterRestored core n

/-- Saves of which nothing is left are forgotten. -/
def State.dropEmpty (s : State) : State :=
  { s with saves := s.saves.filter fun v => !(v.teams.isEmpty && v.tasks.isEmpty) }

def State.enterAll (s : State) (core : Nat) : State := (s.enterRestored core Config.wellheadRoom).dropEmpty

/-- `RESTORED_RECORD_ENTER`. -/
def execRestoredRecordEnter (core : Nat) (s : State) : Out := done (s.enterAll core)

/-- The first saved team of a context, with its save, that a unit fits (R213). -/
def State.nextSaved (s : State) (n : Nat) : Option (Saved × Team × List Nat) :=
  if !s.mayPlace then none
  else (s.saves.filter fun v => v.ctx == n).findSome? fun v => v.teams.findSome? fun t =>
    (s.unitFor s.teams t.needOn t.cores.length).map fun u => (v, t, u)

/-- The teams of a context being restored placed as units fit; with the last, SAVED and BUSY clear. -/
def State.restoreTeams (s : State) (n : Nat) : Nat → State
  | 0 => s
  | fuel + 1 =>
    if !(s.saves.any fun v => v.ctx == n && !v.teams.isEmpty) then
      s.updCtx n fun c => { c with saved := false, busy := false }
    else match s.nextSaved n with
      | none => s
      | some (v, t, u) => ((u.foldl State.enterAll (s.placeSaved v t u))).restoreTeams n fuel

/-- R432: a team that a control core took for a save that was then abandoned, with the unit on which it resumes: its own where that
is free.
DESIGN CHOICE: log 72. -/
def State.nextBack (s : State) (n : Nat) : Option (Saved × Team × List Nat) :=
  if !s.mayPlace then none
  else (s.saves.filter fun v => v.ctx == n && v.part).findSome? fun v => v.teams.findSome? fun t =>
    ((if t.cores.all s.coreOn && t.cores.zipIdx.all (fun c => ((usedOn s.teams c.1).add (t.needOn c.2)).ok) then some t.cores
      else s.unitFor s.teams t.needOn t.cores.length).map fun u => (v, t, u))

def State.takeBack (s : State) (n : Nat) : Nat → State
  | 0 => s
  | fuel + 1 => match s.nextBack n with
    | none => s
    | some (v, t, u) => (u.foldl State.enterAll (s.placeSaved v t u)).takeBack n fuel

def State.goOnRestoring (s : State) (n : Nat) : State :=
  let c := s.ctxAt n
  let fuel := (s.saves.foldl (fun a v => a + v.teams.length) 0) + 1
  if c.busy && c.saved then s.restoreTeams n fuel
  else if !c.busy && !c.saved then s.takeBack n fuel
  else s

/-- A write of RESTORE. -/
def State.beginRestore (s : State) (n : Nat) : State :=
  let c := s.ctxAt n
  if !c.saved || c.busy then s
  else match s.window c.part c.saveBase with
    | none => s.updCtx n fun c => { c with rerr := true }
    | some pa =>
      if !s.insideWindow c.part c.saveBase c.saveBytes || c.saveBytes == 0 then s.updCtx n fun c => { c with rerr := true }
      else match s.saveError pa n c.saveBytes with
        | some ue => (s.noteUe ue).endContext n 0
        | none =>
          let s := s.saveReads pa n c.saveBytes
          if !s.headerOk pa n c.saveBytes then s.updCtx n fun c => { c with rerr := true }
          else
            (s.updCtx n fun c => { c with busy := true }).goOnRestoring n

/-! ### `ctxsv` and `ctxld`, R374 -/

/-- The teams of a context whose quarter 0 stands on a core. -/
def State.teamsAt (s : State) (n core : Nat) : List Team := s.teams.filter fun t => t.ctx == n && t.coreAt 0 == core

/-- The bytes of device physical memory from an address up to the end of a partition's window, where the address lies in it. -/
def State.roomAt (s : State) (part pa : Nat) : Nat :=
  let w := s.partWin.getD part 0
  if winBase w * 2 ^ 30 ≤ pa then (winBase w + winSize w) * 2 ^ 30 - pa else 0

/-- What a `ctxsv` answers: failure, with the end of the context where the write meets an uncorrectable error (R80), the bytes written,
or that a copy of a team still runs (R161). -/
inductive CoreSave where
  | fails (s : State)
  | saved (s : State) (bytes : Nat)
  | waits (s : State)

/-- A control core saves its teams of a context at a device physical address. -/
def State.saveCore (s : State) (core n pa : Nat) : CoreSave :=
  let c := s.ctxAt n
  let ts := s.teamsAt n core
  let ids := ts.map (·.id)
  let still := s.groups.all fun g => !(g.ctx == n && g.core == core || ids.contains g.team) || s.quiescent g
  if Config.contextSlots ≤ n ∨ pa % 4096 ≠ 0 ∨ s.roomAt c.part pa = 0 ∨ !still then .fails s
  else
    let s1 := s.finishCopies ids s.copies.length 0
    if !(s1.running ids).isEmpty then .waits s1
    else
      let (x, s1) := s1.choose (savesNeed ts - 63)
      let bytes := roundUp (64 + x) 4096
      if s.roomAt c.part pa < bytes then .fails s
      else match s.ueIn (.dev pa) bytes with
      | some ue => .fails ((s.noteUe ue).endContext n 0)
      | none =>
        let v := s1.gather n pa ids
        let s1 := (s1.release n v).writeSave pa bytes n v.teams.length v.tasks.length
        let v := { v with image := s1.rdBytes (.dev pa) bytes, part := c.saving }
        .saved { s1 with saves := s1.saves ++ [v], images := v :: s1.images } bytes

/-- The unit of a team with quarter 0 on a core, if it has the resources free. -/
def State.unitAt (s : State) (t : Team) (core : Nat) : Option (List Nat) :=
  let u := (List.range t.cores.length).map fun i => core + i
  if s.mayPlace && (s.unitsOf (dieOf core) t.cores.length).contains u && u.zipIdx.all fun c => ((usedOn s.teams c.1).add (t.needOn c.2)).ok
  then some u else none

/-- Teams that stand in saves placed with quarter 0 on a core, or none where one does not fit. -/
def State.loadTeams (s : State) (core : Nat) : List Nat → Option State
  | [] => some s
  | id :: ids => match s.saves.findSome? fun v => (v.teams.find? fun t => t.id == id).map fun t => (v, t) with
    | none => s.loadTeams core ids
    | some (v, t) => match s.unitAt t core with
      | none => none
      | some u => (u.foldl State.enterAll (s.placeSaved v t u)).loadTeams core ids

/-- What a save holds under names of its own, the first of which is `base`. -/
def Saved.renamed (v : Saved) (base : Nat) : Saved :=
  let name (id : Nat) : Nat := base + (v.teams.findIdx fun t => t.id == id)
  { v with
    teams := v.teams.map fun t => { t with id := name t.id }
    groups := v.groups.map fun g => { g with team := name g.team }
    copies := v.copies.map fun c => { c with team := name c.team }
    tasks := v.tasks.map fun w => (w.1, { w.2 with team := name w.2.team }) }

/-- The save whose bytes, but for its header's, stand at a device address (R433). -/
def State.imageAt (s : State) (n pa : Nat) : Option Saved :=
  s.images.find? fun v => v.ctx == n && s.rdBytes (.dev (pa + 64)) (v.image.length - 64) == v.image.drop 64

/-- What a `ctxld` answers: failure, with the end of the context where a read meets an uncorrectable error (R80), or success. -/
inductive CoreLoad where
  | fails (s : State)
  | loaded (s : State)

/-- A control core loads the save of a context that stands at a device physical address. Its teams are placed as the saves in hand
hold them; a save loaded before, of which none holds a team, is placed once more under other names.
DEDUCED: log 42. -/
def State.loadCore (s : State) (core n pa : Nat) : CoreLoad :=
  let room := s.roomAt (s.ctxAt n).part pa
  if Config.contextSlots ≤ n ∨ pa % 4096 ≠ 0 ∨ room = 0 then .fails s
  else match s.saveError pa n room with
    | some ue => .fails ((s.noteUe ue).endContext n 0)
    | none =>
      if !s.headerOk pa n room then .fails s
      else match s.imageAt n pa with
        | none => .fails s
        | some v =>
          let held := s.saves.any fun u => u.ctx == n && u.teams.any fun t => v.teams.any fun x => x.id == t.id
          let w := if held then v else v.renamed s.ids
          let s' : State := if held then s else { s with saves := s.saves ++ [w], ids := s.ids + v.teams.length }
          match (s'.saveReads pa n room).loadTeams core (w.teams.map (·.id)) with
          | none => .fails s
          | some s => .loaded s.dropEmpty

end Sys2Proof.Machine
end

