-- ==== Sys2Proof/Machine/Regs.lean ====
section
/-!
DEFINITION. The register views of the host ports and of the control cores (R10, R28, R201, R221, R228, R363, R421 to
R426, R438 to R443, R454): which register an offset names, and what each reads as.
-/
namespace Sys2Proof.Machine

/-- A register, or an 8-byte part of one that is wider (R438). -/
inductive Reg where
  | devId | devStage | devStatus | mgmtSem | quietClk | quietPwr | quietAct | quietStat | devMemsz
  | dieCores (d : Nat) | dieHalt (d : Nat) | dieStat (d : Nat) | dieTemp (d : Nat)
  | vfMap (v half : Nat)
  | mboxCtl | mboxData (k : Nat)
  | partWin (n : Nat) | invVa | invCtl
  | ptroot (n : Nat) | ctrl (n : Nat) | status (n : Nat) | fqbase (n : Nat) | fqsize (n : Nat) | replay (n : Nat)
  | rfmtab (n : Nat)
  | lqBase (n q : Nat) | lqCtl (n q : Nat) | lqStatus (n q : Nat)
  | sumpBase (n : Nat) | sumpCtl (n : Nat) | sumpHead (n : Nat) | sumpTail (n : Nat)
  | sluiceCtl (d : Nat) | sluiceHint (d h : Nat) | mfldWin (d : Nat)
  | trapctl (n : Nat) | trapcmd (n : Nat) | trapstat (n : Nat) | prectl (n : Nat) | savesz (n : Nat) | savebase (n : Nat)
  | traprec (n k : Nat) | watch (n w half : Nat)
  | chstat (ch : Nat) | chctl (ch : Nat) | ueaddr (ch : Nat) | baerr (ch : Nat)
  | dwinSel (gc : Nat) | dwinBase (gc : Nat) | dwinStat (gc : Nat) | dwin (gc : Nat) (f : Nat)
  | pageStatus (n : Nat) | fqHead (n : Nat) | fqTail (n : Nat) | lqTail (n q : Nat) | lqHead (n q : Nat) | apVbase (n : Nat)
  deriving DecidableEq, Repr

/-! ### Which register an offset names: the register and its own offset -/

def regHere (base off width : Nat) (r : Reg) : Option (Reg × Nat) :=
  if base ≤ off ∧ off < base + width then some (r, base) else none

/-- The first register of a list of (offset, width, register) that holds an offset. -/
def regIn (off : Nat) : List (Nat × Nat × Reg) → Option (Reg × Nat)
  | [] => none
  | (b, w, r) :: rest => match regHere b off w r with
    | some x => some x
    | none => regIn off rest

/-- R439, R441, R452. -/
def deviceRegs (off : Nat) : List (Nat × Nat × Reg) :=
  let d := (off - 0x40) / 0x20
  let v := (off - 0xC0) / 0x10
  if off < 0x40 then
    [(0, 4, .devId), (4, 4, .devStage), (8, 4, .devStatus), (0xC, 4, .mgmtSem), (0x10, 4, .quietClk), (0x14, 4, .quietPwr),
     (0x18, 4, .quietAct), (0x1C, 4, .quietStat), (0x20, 4, .devMemsz)]
  else if off < 0xC0 then
    let b := 0x40 + 0x20 * d
    [(b, 8, .dieCores d), (b + 8, 8, .dieHalt d), (b + 0x10, 4, .dieStat d), (b + 0x14, 4, .dieTemp d)]
  else if off < 0x1C0 then [(0xC0 + 0x10 * v, 8, .vfMap v 0), (0xC8 + 0x10 * v, 8, .vfMap v 1)]
  else if 0x1010 ≤ off ∧ off < 0x2000 then [(off / 8 * 8, 8, .mboxData ((off - 0x1010) / 8))]
  else [(0x1000, 4, .mboxCtl)]

/-- The blocks of the privileged view from 0x1F0000 on. -/
def blockRegs (off : Nat) : List (Nat × Nat × Reg) :=
  if off < 0x1F0010 then let n := (off - 0x1F0000) / 4; [(0x1F0000 + 4 * n, 4, .partWin n)]
  else if off < 0x200000 then [(0x1F0100, 8, .invVa), (0x1F0108, 4, .invCtl)]
  else if off < 0x201000 then
    let n := (off - 0x200000) / 0x40
    let b := 0x200000 + 0x40 * n
    [(b, 8, .ptroot n), (b + 8, 4, .ctrl n), (b + 0xC, 4, .status n), (b + 0x10, 8, .fqbase n), (b + 0x18, 4, .fqsize n),
     (b + 0x1C, 4, .replay n), (b + 0x20, 8, .rfmtab n)]
  else if 0x210000 ≤ off ∧ off < 0x214000 then
    let n := (off - 0x210000) / 0x100
    let q := (off - 0x210000) % 0x100 / 0x20
    let b := 0x210000 + 0x100 * n + 0x20 * q
    if q < 4 then [(b, 8, .lqBase n q), (b + 8, 4, .lqCtl n q), (b + 0xC, 4, .lqStatus n q)] else []
  else if 0x220000 ≤ off ∧ off < 0x220800 then
    let n := (off - 0x220000) / 0x20
    let b := 0x220000 + 0x20 * n
    [(b, 8, .sumpBase n), (b + 8, 4, .sumpCtl n), (b + 0x10, 4, .sumpHead n), (b + 0x14, 4, .sumpTail n)]
  else if 0x230000 ≤ off ∧ off < 0x230100 then
    let d := (off - 0x230000) / 0x40
    let b := 0x230000 + 0x40 * d
    (b, 4, .sluiceCtl d) :: (List.range 3).map fun h => (b + 4 + 4 * h, 4, .sluiceHint d h)
  else if 0x230200 ≤ off ∧ off < 0x230210 then let d := (off - 0x230200) / 4; [(0x230200 + 4 * d, 4, .mfldWin d)]
  else if 0x240000 ≤ off ∧ off < 0x242000 then
    let n := (off - 0x240000) / 0x80
    let b := 0x240000 + 0x80 * n
    [(b, 4, .trapctl n), (b + 4, 4, .trapcmd n), (b + 8, 4, .trapstat n), (b + 0xC, 4, .prectl n), (b + 0x14, 4, .savesz n),
     (b + 0x18, 4, .savebase n)]
      ++ (List.range 4).map (fun k => (b + 0x20 + 8 * k, 8, .traprec n k))
      ++ (List.range 8).map fun k => (b + 0x40 + 8 * k, 8, .watch n (k / 2) (k % 2))
  else if 0x300000 ≤ off ∧ off < 0x300600 then
    let c := (off - 0x300000) / 0x20
    let b := 0x300000 + 0x20 * c
    [(b, 4, .chstat c), (b + 4, 4, .chctl c), (b + 8, 8, .ueaddr c), (b + 0x10, 4, .baerr c)]
  else []

/-- The offsets of the debug window's registers, with their widths, R424. -/
def dwinField (o : Nat) : Option (Nat × Nat) :=
  if 0x800 ≤ o ∧ o < 0xC00 then some (o / 4 * 4, 4)
  else if 0xC00 ≤ o ∧ o < 0xC10 then some (o / 8 * 8, 8)
  else if 0xC10 ≤ o ∧ o < 0xC24 then some (o / 4 * 4, 4)
  else if 0xC40 ≤ o ∧ o < 0xD40 then some (o / 8 * 8, 8)
  else if 0x1000 ≤ o ∧ o < 0x1340 then some (o / 4 * 4, 4)
  else if 0x1800 ≤ o ∧ o < 0x1820 then some (o / 8 * 8, 8)
  else none

def debugRegs (off : Nat) : List (Nat × Nat × Reg) :=
  let gc := (off - 0x400000) / 0x2000
  let b := 0x400000 + 0x2000 * gc
  [(b, 4, .dwinSel gc), (b + 4, 4, .dwinBase gc), (b + 8, 4, .dwinStat gc)]
    ++ (match dwinField (off - b) with | some (o, w) => [(b + o, w, .dwin gc o)] | none => [])

/-- The privileged view. -/
def bar0Reg (off : Nat) : Option (Reg × Nat) :=
  if off < 0x1F0000 then regIn off (deviceRegs off)
  else if off < 0x400000 then regIn off (blockRegs off)
  else if off < 0x580000 then regIn off (debugRegs off)
  else none

/-- A context page, R442. -/
def pageReg (n base off : Nat) : Option (Reg × Nat) :=
  let o := off - base
  let q := (o - 0x100) / 8
  (regIn o [(0, 4, .pageStatus n), (8, 4, .fqHead n), (0xC, 4, .fqTail n), (0x200, 8, .apVbase n)]
    <|> if 0x100 ≤ o ∧ o < 0x120 then regIn o [(0x100 + 8 * q, 4, .lqTail n q), (0x104 + 8 * q, 4, .lqHead n q)] else none).map
      fun r => (r.1, base + r.2)

/-! ### Virtual functions, R441 -/

def State.vfEn (s : State) (v : Nat) : Bool := bit (s.vfmap.getD v 0).toNat 127
def State.vfPart (s : State) (v : Nat) : Nat := bits (s.vfmap.getD v 0).toNat 97 96
/-- The slots of a function's mask, ascending, while its map is in force. -/
def State.vfSlots (s : State) (v : Nat) : List Nat :=
  if s.vfEn v then (List.range Config.contextSlots).filter (bit (s.vfmap.getD v 0).toNat) else []
/-- A slot of the mask belongs to the function. -/
def State.belongs (s : State) (v n : Nat) : Bool := (s.vfSlots v).contains n && (s.ctxAt n).part == s.vfPart v

/-- The register that a writer or reader reaches at an offset of a BAR, R438. -/
def State.reach (s : State) (by_ : Agent) (bar : Bar) (off : Nat) : Option (Reg × Nat) :=
  match by_, bar with
  | .vf _ _, .bar0 => none
  | .firmware _, .bar2 => none
  | _, .bar0 => bar0Reg off
  | .port _, .bar2 => if off < 0x40000 then pageReg (off / 4096) (off / 4096 * 4096) off else none
  | .vf _ v, .bar2 => match (s.vfSlots v)[off / 4096]? with
    | some n => if s.belongs v n then pageReg n (off / 4096 * 4096) off else none
    | none => none

/-! ### Who may reach what, R438, R448, R449 -/

/-- Stage 2 has been entered. -/
def State.opened (s : State) : Bool := s.stage == .stage2 || (s.stage == .halted && s.memMib != 0)

/-- A host port of the form whose die takes part in Stage 2. -/
def State.portServes (s : State) (p : Port) : Bool :=
  match p with
  | .a => !(s.single && s.soloDie == 2)
  | .b => s.part.form != .bareDie && (!s.single || s.soloDie == 2)
/-- The form has the port, R3. -/
def State.hasPort (s : State) (p : Port) : Bool := p == .a || s.part.form != .bareDie

/-- A register of the device block or of a port's mailbox. -/
def Reg.ofDevice : Reg → Bool
  | .devId | .devStage | .devStatus | .mgmtSem | .quietClk | .quietPwr | .quietAct | .quietStat | .devMemsz
  | .dieCores _ | .dieHalt _ | .dieStat _ | .dieTemp _ | .vfMap _ _ | .mboxCtl | .mboxData _ => true
  | _ => false

/-- R448: registers of the partition, context, queue and sluice blocks. -/
def Reg.closedEarly : Reg → Bool
  | .mfldWin _ | .invVa | .invCtl => false
  | .chstat _ | .chctl _ | .ueaddr _ | .baerr _ | .dwinSel _ | .dwinBase _ | .dwinStat _ | .dwin _ _ => false
  | r => !r.ofDevice

/-- R438: what is private to a port is at no offset of a control core's view. -/
def Reg.portOnly : Reg → Bool
  | .mboxCtl | .mboxData _ | .invVa | .invCtl => true
  | _ => false

/-- Whether an access by an agent reaches a register at all. -/
def State.answers (s : State) (by_ : Agent) (r : Reg) : Bool :=
  s.powered && (!r.closedEarly || s.opened)
    && (match by_ with
        | .firmware _ => !r.portOnly
        | .port p => s.hasPort p && (s.portAt p).up && (r.ofDevice || !s.opened || s.portServes p)
        | .vf p _ => s.hasPort p && (s.portAt p).up && s.portServes p)

def agentPort : Agent → Option Port
  | .port p => some p
  | .vf p _ => some p
  | .firmware _ => none

/-- The writer holds `MGMT_SEM`, R440. -/
def State.holdsSem (s : State) (by_ : Agent) : Bool :=
  match by_, s.mgmt with
  | .port p, .port q => p == q
  | .firmware _, .firmware => true
  | _, _ => false

/-! ### Reading, R10, R438 -/

def b2n (b : Bool) : Nat := if b then 1 else 0

def Owner.code : Owner → Nat
  | .free => 0 | .port .a => 1 | .port .b => 2 | .firmware => 3
def Stage.code : Stage → Nat
  | .priming => 0 | .stage1 => 1 | .stage2 => 2 | .halted => 3

/-- The limits of R454 as they act. -/
def Quiet.capActs (q : Quiet) : Nat := Nat.max 16 (Nat.min 80 (bits q.cap.toNat 6 0))
def State.wattsActs (s : State) : Nat := Nat.max 100 (Nat.min s.part.form.wattLimit (bits s.quiet.pwrCap.toNat 10 0))

/-- CTX_STATUS, R31. -/
def Ctx.statusWord (c : Ctx) : Nat :=
  b2n c.faulted * 2 ^ 31 + b2n c.waitsForRoom * 2 ^ 30 + b2n c.rfmlost * 2 ^ 29 + b2n c.asidclash * 2 ^ 28
    + b2n c.aperr * 2 ^ 27 + b2n c.portbad * 2 ^ 26 + c.fsub % 64 * 2 ^ 16 + Nat.min c.pendingRecs 0xFFFF

/-- The 32 bytes of a trap record, R423. -/
def TrapRec.bytes (r : TrapRec) : List Byte :=
  leBytes r.pc.toNat 8 ++ leBytes (r.cause.code * 2 ^ 24 + r.detail % 2 ^ 12 * 2 ^ 12 + b2n r.stream) 4
    ++ leBytes (r.lane * 16 + r.group * 2 ^ 9 + r.core * 2 ^ 18 + r.die * 2 ^ 24) 4
    ++ leBytes r.aux 8 ++ leBytes (Nat.min r.more 0xFFFFFFFF) 4 ++ leBytes 0 4

/-- What CTX_TRAPREC shows: the trap that ended the context, or the oldest held. -/
def Ctx.shown (c : Ctx) : Option TrapRec :=
  match c.fatal with
  | some r => some r
  | none => c.held.head?.map (·.record)
def Ctx.trapstat (c : Ctx) : Nat :=
  b2n (c.fatal.isNone && !c.held.isEmpty) * 2 ^ 31 + b2n c.fatal.isSome * 2 ^ 30 + Nat.min (c.held.length - 1) 0xFFFF
def partOf (r : Option TrapRec) (k : Nat) : Nat :=
  match r with
  | some r => leNat ((r.bytes.drop (8 * k)).take 8)
  | none => 0
def Ctx.prectl (c : Ctx) : Nat := b2n c.busy * 2 ^ 29 + b2n c.saved * 2 ^ 28 + b2n c.perr * 2 ^ 27 + b2n c.rerr * 2 ^ 26

def LaneState.code : LaneState → Nat
  | .ready => 0 | .heldMeet => 1 | .heldWait => 2 | .stopped => 3 | .exited => 4 | .vacant => 5

/-- The channels whose blocks report all they hold, R81: those of a die in Stage 2, or every one before a fallback. -/
def State.channelWorks (s : State) (ch : Nat) : Bool :=
  decide (ch / 12 < s.part.form.dies) && (!s.single || ch / 12 == s.soloDie)

def Channel.stat (c : Channel) (works : Bool) : Nat :=
  b2n (works && c.ue) * 2 ^ 31 + b2n (works && c.bafault) * 2 ^ 30 + b2n c.hj * 2 ^ 29 + b2n c.trained * 2 ^ 28 + c.cecnt

/-- The core of a debug block, whose number is physical (R449); none where the part has no such core in operation. -/
def State.coreNamed (s : State) (gc : Nat) : Option Nat :=
  if s.single then (if gc / 48 = s.soloDie then some (gc % 48) else none)
  else if gc / 48 < s.part.form.dies then some gc else none

/-- The group mapped into a core's debug window. -/
def State.mapped (s : State) (gc : Nat) : Option Group :=
  match (s.coreAt gc).dwinSlot with
  | some k => s.group? gc k
  | none => none

/-- The top of a lane's frame, R190. -/
def Lane.top (t : Lane) : Nat := t.wb + t.f

/-- A register of the debug window, R424, R425.
DEDUCED: log 51. -/
def State.readDwin (s : State) (gc o : Nat) : Nat :=
  match s.mapped gc with
  | none => 0
  | some g =>
    let c := s.coreAt gc
    let t := g.lane c.dwinLane
    if o < 0xC00 then
      let k := c.dwinBase * 256 + (o - 0x800) / 4
      if k < t.top then (t.slots.get k).toNat else 0
    else if o = 0xC00 then t.pc.toNat
    else if o = 0xC08 then t.meet.toNat
    else if o = 0xC10 then t.wb
    else if o = 0xC14 then t.f
    else if o = 0xC18 then t.st.code
    else if o = 0xC1C then t.ret.length
    else if o = 0xC20 then t.seq
    else if o < 0xD40 then
      match t.ret[(o - 0xC40) / 16]? with
      | some e => if o % 16 = 0 then e.addr.toNat else e.adv + e.f * 2 ^ 32
      | none => 0
    else if o < 0x1300 then (g.sregs.get ((o - 0x1000) / 4)).toNat
    else if o = 0x1300 then g.tpart
    else if o = 0x1304 then g.fmode.toNat
    else if o = 0x1308 then g.fstat
    else if o = 0x130C then g.fseed.toNat
    else if o < 0x1340 then g.flags.getD ((o - 0x1310) / 4) 0
    else partOf g.trap ((o - 0x1800) / 8)

/-- The port whose private registers an agent reaches. -/
def State.own (s : State) (by_ : Agent) : PortState := match agentPort by_ with | some p => s.portAt p | none => {}

/-- What a register reads as. -/
def State.readReg (s : State) (by_ : Agent) (r : Reg) : Nat :=
  let die (d : Nat) (x : Die → Nat) : Nat := if d < s.part.form.dies then x (s.dieAt d) else 0
  match r with
  | .devId => s.part.form.code * 2 ^ 24 + Config.siliconRev % 256 * 2 ^ 16 + 1
  | .devStage => s.stage.code * 2 ^ 30 + s.err * 2 ^ 16
  | .devStatus => b2n s.single * 2 ^ 31 + b2n s.therm * 2 ^ 30 + b2n s.linklost * 2 ^ 29 + s.dies.toNat
  | .mgmtSem => s.mgmt.code * 2 ^ 30
  | .quietClk => s.quiet.cap.toNat
  | .quietPwr => s.quiet.pwrCap.toNat
  | .quietAct => bits s.quiet.act.toNat 31 31 * 2 ^ 31 + b2n s.quiet.eng * 2 ^ 30 + b2n s.quiet.floor * 2 ^ 29
                   + bits s.quiet.act.toNat 23 8 * 2 ^ 8
  | .quietStat => s.quiet.clk * 2 ^ 16 + s.quiet.pwr % 2 ^ 11
  | .devMemsz => s.memMib
  | .dieCores d => die d fun x => x.en.toNat
  | .dieHalt d => die d fun x => x.halt.toNat
  | .dieStat d => die d fun x => b2n x.memok * 2 ^ 31 + b2n x.bank * 2 ^ 30 + b2n (x.linkok || s.part.form == .bareDie) * 2 ^ 29
                    + ((List.range 48).filter (bit x.en.toNat)).length
  | .dieTemp d => die d fun x => x.peak * 2 ^ 8 + x.temp
  | .vfMap v half => bits (s.vfmap.getD v 0).toNat (64 * half + 63) (64 * half)
  | .mboxCtl => b2n (s.own by_).mboxBusy * 2 ^ 30 + (s.own by_).mboxLen.toNat
  | .mboxData k => (s.own by_).mbox.rd (8 * k) 8
  | .partWin n => (s.partWin.getD n 0).toNat
  | .invVa => (s.own by_).invva.toNat
  | .invCtl => b2n (s.own by_).busy * 2 ^ 30 + (s.own by_).invctl.toNat
  | .ptroot n => (s.ctxAt n).ptroot.toNat
  | .ctrl n => (s.ctxAt n).ctrl.toNat
  | .status n => (s.ctxAt n).statusWord
  | .fqbase n => (s.ctxAt n).fqbase.toNat
  | .fqsize n => (s.ctxAt n).fqsize.toNat
  | .replay _ => 0
  | .rfmtab n => (s.ctxAt n).rfmtab.toNat
  | .lqBase n q => ((s.ctxAt n).lq.getD q {}).base.toNat
  | .lqCtl n q => ((s.ctxAt n).lq.getD q {}).ctl.toNat
  | .lqStatus n q => let x := (s.ctxAt n).lq.getD q {}; b2n x.err * 2 ^ 31 + x.ecode * 2 ^ 16 + x.erridx
  | .sumpBase n => (s.ctxAt n).sumpBase.toNat
  | .sumpCtl n => (s.ctxAt n).sumpCtl.toNat
  | .sumpHead n => (s.ctxAt n).shead
  | .sumpTail n => (s.ctxAt n).stail
  | .sluiceCtl d => die d fun x => x.sluiceCtl.toNat
  | .sluiceHint d h => die d fun x => (x.sluiceHint.getD h 0).toNat
  | .mfldWin d => die d fun x => x.mfldWin.toNat
  | .trapctl n => (s.ctxAt n).trapctl.toNat
  | .trapcmd _ => 0
  | .trapstat n => (s.ctxAt n).trapstat
  | .prectl n => (s.ctxAt n).prectl
  | .savesz n => (s.ctxAt n).savesz.toNat
  | .savebase n => (s.ctxAt n).savebase.toNat
  | .traprec n k => partOf (s.ctxAt n).shown k
  | .watch n w half => bits ((s.ctxAt n).watch.getD w 0).toNat (64 * half + 63) (64 * half)
  | .chstat ch => if ch / 12 < s.part.form.dies then (s.chan.getD ch {}).stat (s.channelWorks ch) else 0
  | .chctl _ => 0
  | .ueaddr ch => if s.channelWorks ch then (s.chan.getD ch {}).ueaddr.toNat else 0
  | .baerr ch =>
    let c := s.chan.getD ch {}
    if s.channelWorks ch then c.unitcnt * 2 ^ 16 + c.illcnt * 2 ^ 8 + c.uecnt else 0
  | .dwinSel gc => match s.coreNamed gc with | some c => (s.coreAt c).dwinLane | none => 0
  | .dwinBase gc => match s.coreNamed gc with | some c => (s.coreAt c).dwinBase * 2 ^ 8 | none => 0
  | .dwinStat gc => match s.coreNamed gc with
    | some c => (match (s.coreAt c).dwinSlot with | some k => 2 ^ 31 + k | none => 0)
    | none => 0
  | .dwin gc o => match s.coreNamed gc with | some c => s.readDwin c o | none => 0
  | .pageStatus n => (s.ctxAt n).statusWord
  | .fqHead n => (s.ctxAt n).fqhead.toNat
  | .fqTail n => (s.ctxAt n).fqtail
  | .lqTail n q => ((s.ctxAt n).lq.getD q {}).tail.toNat
  | .lqHead n q => ((s.ctxAt n).lq.getD q {}).index
  | .apVbase n => (s.ctxAt n).apvbase.toNat

end Sys2Proof.Machine
end

