-- ==== Sys2Proof/Machine/Registers.lean ====
section
/-!
DEFINITION. Writes to registers (R10, R438): one operation for each register, gated by `MGMT_SEM` (R440) and by the stage
(R448, R449), and the rows of the table that are such writes.
-/
namespace Sys2Proof.Machine

/-! ### Bytes of a write, R438 -/

end Sys2Proof.Machine
namespace Sys2Proof

/-- The value of a register after a write: enabled bytes within the RW mask are taken. -/
def Wr.onto (w : Wr) (old mask : Nat) : Nat :=
  let en := (List.range 8).foldl (fun a k => a + if w.en.getLsbD k then 255 * 2 ^ (8 * k) else 0) 0
  let m := mask &&& en
  (w.data.toNat &&& m) + (old - (old &&& m))

/-- A bit written as 1 in an enabled byte: a W1C bit or an action. -/
def Wr.one (w : Wr) (i : Nat) : Bool := w.data.getLsbD i && w.en.getLsbD (i / 8)

def Wr.word (w : Wr) (old : Word) (mask : Nat) : Word := BitVec.ofNat 32 (w.onto old.toNat mask)
def Wr.dword (w : Wr) (old : DWord) (mask : Nat) : DWord := BitVec.ofNat 64 (w.onto old.toNat mask)

/-- A write at an offset as it stands at a register that begins at `base`: what lies outside the register is not enabled. -/
def Wr.at_ (w : Wr) (off base : Nat) : Wr :=
  if base ≤ off then { w with data := w.data <<< (8 * (off - base)), en := w.en <<< (off - base) }
  else { w with data := w.data >>> (8 * (base - off)), en := w.en >>> (base - off) }

end Sys2Proof
namespace Sys2Proof.Machine

def mask51 (lo : Nat) : Nat := 2 ^ 52 - 2 ^ lo

/-! ### Partitions and functions, R32, R441 -/

/-- L of R32. -/
def State.windowLimit (s : State) : Nat := s.memBytes / 2 ^ 30

def State.writePartWin (s : State) (n : Nat) (by_ : Agent) (w : Wr) : State :=
  let x := w.word (s.partWin.getD n 0) 0x01FF01FF
  let clear := (List.range 4).all fun k =>
    let y := s.partWin.getD k 0
    k == n || winSize y == 0 || winSize x == 0 || !meets (winBase x) (winSize x) (winBase y) (winSize y)
  if !s.holdsSem by_ || decide (s.windowLimit < winBase x + winSize x) || !clear
      || s.ctx.any (fun c => c.en && c.part == n) then s
  else { s with partWin := updAt s.partWin n fun _ => x }

def State.writeVfMap (s : State) (v half : Nat) (by_ : Agent) (w : Wr) : State :=
  let old := (s.vfmap.getD v 0).toNat
  let part := w.onto (bits old (64 * half + 63) (64 * half)) (if half = 0 then 2 ^ 64 - 1 else 0x8000000300000000)
  let x := setBits old (64 * half + 63) (64 * half) part
  let clash := bit x 127 && (List.range 16).any fun u => u != v && s.vfEn u && (x % 2 ^ 64 &&& (s.vfmap.getD u 0).toNat % 2 ^ 64) != 0
  if !s.holdsSem by_ || clash then s else { s with vfmap := updAt s.vfmap v fun _ => BitVec.ofNat 128 x }

/-! ### Contexts, R30, R45 -/

/-- One entry of the region table: none where it is not enabled or breaks a condition. -/
def regionOf (xs : List Byte) : Option Region :=
  let d (o : Nat) : Nat := leNat ((xs.drop o).take 8)
  if bit (d 0x18) 0 ∧ d 0 % 2 ^ 16 = 0 ∧ d 8 ≠ 0 ∧ d 8 % 2 ^ 16 = 0 ∧ d 0x10 % 8 = 0 then some ⟨d 0, d 8, d 0x10⟩ else none

/-- Entry `i` of the region table is read: the copy holds `r` for it. -/
def Ctx.keepRegion (i : Nat) (r : Option Region) (c : Ctx) : Ctx :=
  { c with regions := updAt c.regions i fun _ => r, unread := c.unread.filter fun j => j != i }

/-- R45: an entry read; one that faults, or lies in a BANKED page, is not enabled, and RFMLOST says so. A page behind a host
port whose translation is not cached is waited for (R27): the entry stays to be read. -/
def State.readRegion (s : State) (n i : Nat) : State :=
  let lost (s : State) : State := s.updCtx n fun c => { c.keepRegion i none with rfmlost := true }
  let va := (bits (s.ctxAt n).rfmtab.toNat 51 5 * 32 + 32 * i) % 2 ^ 64
  match s.readVa n engineMode va 32 with
  | .ok xs runs =>
    if runs.any fun r => pteBanked r.2.2.entry then lost s
    else ((s.tableReads n engineMode va 32).homeRuns false runs).updCtx n (Ctx.keepRegion i (regionOf xs))
  | .bad t => match t.ue with
    | some _ => (s.engineFault n t s.launchSource).1.updCtx n (Ctx.keepRegion i none)
    | none => lost s
  | .pri p => s.askPri n engineMode p

/-- The entries of a context's region table that are still to be read. -/
def State.readUnread (s : State) (n : Nat) : State := (s.ctxAt n).unread.foldl (fun s i => s.readRegion n i) s

/-- R45: the region table read into the device's copy. -/
def State.readRegions (s : State) (n : Nat) : State :=
  let k := Nat.min 16 ((s.ctxAt n).rfmtab.toNat % 32)
  (s.updCtx n fun c => { c with regions := List.replicate k none, unread := List.range k }).readUnread n

/-- R45: the table is read on each write. The reads of a disabled context fault (R38), so that none of its entries is enabled; those of
one that has ended are made.
DESIGN CHOICE: log 66. -/
def State.writeRfmtab (s : State) (n : Nat) (w : Wr) : State :=
  (s.updCtx n fun c => { c with rfmtab := w.dword c.rfmtab (2 ^ 52 - 1) }).readRegions n

/-- What enabling a context resets: R31, R42, R221, R421, R443; its sump starts empty whatever it held.
DEDUCED: log 50. -/
def Ctx.enabled (c : Ctx) : Ctx :=
  { c with faulted := false, fsub := 0, fqhead := 0, fqtail := 0, fqwrap := false, shead := 0, stail := 0,
           held := [], fatal := none, apvbase := c.apvbase &&& ~~~1#64 }

/-- DEDUCED: log 50. -/
def State.writeCtrl (s : State) (n : Nat) (w : Wr) : State :=
  let c := s.ctxAt n
  let x := w.word c.ctrl 0x80F0FFFF
  let new : Ctx := { c with ctrl := x }
  if !new.en then s.updCtx n fun c => { c with ctrl := x }
  else if c.en then s
  else
    let clash := s.ctx.any fun d => d.en && d.asid == new.asid && d.part == new.part
    let bad := !s.portServes (if new.port = 0 then .a else .b)
    if clash || bad then
      s.updCtx n fun c => { c with asidclash := c.asidclash || clash, portbad := c.portbad || bad }
    else ({ s with sumps := s.sumps.filter fun w => w.1 != n }.updCtx n fun c => { c.enabled with ctrl := x }).readRegions n

def State.writeStatus (s : State) (n : Nat) (w : Wr) : State :=
  s.updCtx n fun c => { c with rfmlost := c.rfmlost && !w.one 29, asidclash := c.asidclash && !w.one 28,
                               aperr := c.aperr && !w.one 27, portbad := c.portbad && !w.one 26 }

/-- A register that takes writes only while its context is disabled. -/
def State.whenOff (s : State) (n : Nat) (f : Ctx → Ctx) : State := if (s.ctxAt n).en then s else s.updCtx n f

/-! ### Replay, R44 -/

def freed (id : Nat) (w : Option Nat) : Option Nat := if w = some id then none else w

def Group.replay (id : Nat) (g : Group) : Group :=
  Group.dropTrap
    { g with lanes := g.lanes.map (Lane.replay id), pend := g.pend.map fun p => { p with waitOn := freed id p.waitOn } }
def Team.replay (id : Nat) (t : Team) : Team :=
  { t with stream := t.stream.map fun m => { m with waitOn := freed id m.waitOn } }
def Copy.replay (id : Nat) (c : Copy) : Copy := { c with waitOn := freed id c.waitOn }
def Saved.replay (id : Nat) (v : Saved) : Saved :=
  { v with teams := v.teams.map (Team.replay id), groups := v.groups.map (Group.replay id), copies := v.copies.map (Copy.replay id) }
def Render.replay (id : Nat) (r : Render) : Render :=
  { r with
    held := r.held.map fun h => { h with waitOn := freed id h.waitOn }
    flight := r.flight.map fun f => (f.1, f.2.1, f.2.2.1, freed id f.2.2.2)
    buckets := r.buckets.map fun b => { b with waitOn := freed id b.waitOn } }
def Launch.replay (id : Nat) (l : Launch) : Launch :=
  { l with waitOn := freed id l.waitOn, render := l.render.map (Render.replay id) }

/-- Every thread and engine that waits on a record goes on; what is saved does so when it is restored. -/
def State.replayOne (s : State) (n id : Nat) : State :=
  { s with
    groups := s.groups.map (Group.replay id)
    teams := s.teams.map (Team.replay id)
    copies := s.copies.map (Copy.replay id)
    windows := s.windows.map fun w => { w with waitOn := freed id w.waitOn }
    launches := s.launches.map (Launch.replay id)
    saves := s.saves.map (Saved.replay id)
    images := s.images.map (Saved.replay id)
    ctx := updAt s.ctx n fun c =>
      { c with recs := c.recs.filter fun r => r.id != id, sumpWait := freed id c.sumpWait,
               lq := c.lq.map fun q => { q with waitOn := freed id q.waitOn } } }

/-- The cores on which a thread or an engine waits on a record. -/
def State.waiters (s : State) (id : Nat) : List Nat :=
  ((s.groups.filter fun g => (g.lanes.any fun t => t.hold == .record id) || g.pend.any fun p => p.waitOn == some id).map (·.core)
    ++ (s.teams.filter fun t => match t.stream with | some m => m.waitOn == some id | none => false).map (·.coreAt 0)
    ++ (s.copies.filter fun c => c.waitOn == some id).map (·.core)
    ++ (s.windows.filter fun w => w.waitOn == some id).map (·.core)).eraseDups

/-- The records that a write of CTX_REPLAY acts on, in the order in which they were written. -/
def Ctx.acted (c : Ctx) (w : Wr) : List FaultRec :=
  let written := c.recs.filter fun r => r.seq.isSome
  if w.one 31 then written
  else if w.en.getLsbD 0 && w.en.getLsbD 1 then written.filter fun r => r.seq == some (w.data.toNat % 2 ^ 16)
  else []

def State.writeReplay (s : State) (n : Nat) (w : Wr) : State :=
  match (s.ctxAt n).acted w with
  | [] => s
  | r :: rs =>
    let s := (((r :: rs).map fun r => s.waiters r.id).flatten.eraseDups).foldl State.signal s
    if w.one 30 then ((r :: rs).foldl (fun s r => s.keepTrap n r) s).endContext n r.sub
    else (r :: rs).foldl (fun s r => s.replayOne n r.id) s

/-! ### Launch queues, R201, R211 -/

def State.writeLqBase (s : State) (n q : Nat) (w : Wr) : State :=
  s.updLQ n q fun x =>
    let b := w.dword x.base (mask51 12)
    if b = x.base then x else if x.en then x else { x.retake with base := b }

/-- LQ_CTL: its fields, then CANCEL. Clearing EN leaves a record that is not yet accepted in the queue with what the engine has
read of it, which stands when EN is set again; a new LOG2N makes another record the head record, whose taking begins anew.
DESIGN CHOICE: log 67. -/
def State.writeLqCtl (s : State) (n q : Nat) (w : Wr) : State :=
  let x := (s.ctxAt n).lq.getD q {}
  let y := w.word x.ctl 0xB000000F
  let stays := x.en && bit y.toNat 31
  if stays && bits x.ctl.toNat 3 0 != bits y.toNat 3 0 then s
  else
    let s := s.updLQ n q fun x =>
      { (if bits x.ctl.toNat 3 0 = bits y.toNat 3 0 then x else x.retake) with ctl := y }
    if w.one 30 then s.cancelQueue n q else s

/-! ### The trap block, R421, R422 -/

/-- A lane stopped at a `brk` goes on after it; what is left of its clause is one instruction less (R416), and with the last the
clause ends: a marked lane is held at the grid barrier (R343). A lane whose address the debug window has written goes on there
(R425). -/
def Lane.afterBreak (at_ next : DWord) (t : Lane) : Lane :=
  if t.pc ≠ at_ then t
  else match t.mid with
    | some m =>
      if 1 < m.left then { t with pc := next, mid := some { m with left := m.left - 1 } }
      else if t.mark then { t with pc := next, mid := none, st := .heldWait, hold := .grid, mark := false }
      else Lane.arrive { t with pc := next, mid := none }
    | none => Lane.arrive { t with pc := next }

def State.writeTrapcmd (s : State) (n : Nat) (w : Wr) : State :=
  let c := s.ctxAt n
  match c.held with
  | [] => s
  | h :: rest =>
    if c.fatal.isSome then s
    else if !w.one 31 && w.one 30 then
      let s := s.signal h.core
      let s := s.resumeTrap h.core h.slot (2 ^ 32 - 1)
        (if h.record.cause = .brk then Lane.afterBreak h.record.pc h.next else fun t => { t with noWatch := true })
      let s := s.updCore h.core fun k => if k.dwinSlot = some h.slot then { k with dwinSlot := none } else k
      ((s.updCtx n fun c => { c with held := rest }).showHeld n).showOthers h.core
    else if w.one 31 && !w.one 30 then (((s.signal h.core).keepFatal n h.record).endContext n 0).showOthers h.core
    else s

def State.writePrectl (s : State) (n : Nat) (w : Wr) : State :=
  let s := s.updCtx n fun c => { c with perr := c.perr && !w.one 27, rerr := c.rerr && !w.one 26 }
  let c := s.ctxAt n
  let s := if w.one 31 || w.one 30 then (s.coresOf n).foldl State.signal s else s
  if w.one 31 && !c.busy && !c.saved then s.beginSave n else if w.one 30 then s.beginRestore n else s

def State.writeWatch (s : State) (n k half : Nat) (w : Wr) : State :=
  let write (x : BitVec 128) : BitVec 128 :=
    BitVec.ofNat 128 (setBits x.toNat (64 * half + 63) (64 * half)
      (w.onto (bits x.toNat (64 * half + 63) (64 * half)) (if half = 0 then 0xE00000000000001F else 2 ^ 64 - 1)))
  s.updCtx n fun c => { c with watch := updAt c.watch k write }

/-! ### Invalidation, R36 -/

/-- DEDUCED: log 56. -/
def State.writeInvCtl (s : State) (p : Port) (w : Wr) : State :=
  let old := s.portAt p
  let x := w.word old.invctl 0x3FEFFFFF
  let s := s.updPort p fun q => { q with invctl := x }
  let scope := bits x.toNat 29 28
  if !w.one 31 || old.busy || scope == 3 then s
  else (s.invalidation x.toNat (bits old.invva.toNat 51 12 * 4096)).updPort p
    fun q => { q with busy := true }

/-! ### Channels, R81 -/

def State.writeChstat (s : State) (ch : Nat) (w : Wr) : State :=
  if !s.channelWorks ch then s
  else
    let clear (c : Channel) : Channel :=
      { c with ue := c.ue && !w.one 31, bafault := c.bafault && !w.one 30
               ueaddr := if w.one 31 then c.ueaddr &&& ~~~1#64 else c.ueaddr }
    { s with chan := updAt s.chan ch clear }

/-- CECLR and BACLR. -/
def Channel.clear (ce ba : Bool) (c : Channel) : Channel :=
  let c := if ce then { c with cecnt := 0 } else c
  if ba then { c with unitcnt := 0, illcnt := 0, uecnt := 0 } else c

def State.writeChctl (s : State) (ch : Nat) (w : Wr) : State :=
  if !s.channelWorks ch then s
  else { s with chan := updAt s.chan ch (Channel.clear (w.one 31) (w.one 30)) }

/-! ### The debug window, R424, R425 -/

/-- A lane's address written from the debug window: at another address it stands at a clause, and from there it goes on when what
holds it ends. Until it next issues, meetings judge it as before (R425).
DEDUCED: log 51. -/
def Lane.writePc (pc : DWord) (t : Lane) : Lane :=
  if t.pc = pc then t
  else
    { t with pc, mid := none, due := some t.judged }

/-- A lane's meeting address written from the debug window. -/
def Lane.writeMeet (meet : DWord) (t : Lane) : Lane := { t with meet, due := some t.judged }

def Lane.live (t : Lane) : Bool := !(t.st == .exited || t.st == .vacant)

/-- DEDUCED: log 51. -/
def State.writeDwin (s : State) (core o : Nat) (w : Wr) : State :=
  match s.mapped core with
  | none => s
  | some g =>
    let c := s.coreAt core
    let l := c.dwinLane
    let t := g.lane l
    let old := s.readDwin core o
    let lane (f : Lane → Lane) : State := if t.live then s.updGroup core g.slot fun g => g.updLane l f else s
    let group (f : Group → Group) : State := s.updGroup core g.slot f
    let x := w.onto old (2 ^ 32 - 1)
    if o < 0xC00 then
      let k := c.dwinBase * 256 + (o - 0x800) / 4
      if k < t.top then lane fun t => { t with slots := t.slots.set k (BitVec.ofNat 32 x), bad := t.bad.filter fun b => b ≠ k } else s
    else if o = 0xC00 then lane (Lane.writePc (w.dword t.pc (2 ^ 64 - 1)))
    else if o = 0xC08 then lane (Lane.writeMeet (w.dword t.meet (2 ^ 64 - 1)))
    else if 0x1000 ≤ o ∧ o < 0x1300 then group fun g =>
      { g with sregs := g.sregs.set ((o - 0x1000) / 4) (BitVec.ofNat 32 x), badUni := g.badUni.filter fun k => k ≠ (o - 0x1000) / 4 }
    else if o = 0x1300 then group fun g => { g with tpart := if 1 ≤ x ∧ x ≤ 5 then x else 5 }
    else if o = 0x1304 then group fun g => { g with fmode := writeFmode (BitVec.ofNat 32 x) }
    else if o = 0x1308 then group fun g => { g with fstat := x % 64 }
    else if o = 0x130C then group fun g => { g with fseed := BitVec.ofNat 32 x }
    else s

/-! ### Management, R440, R452 -/

def State.writeSem (s : State) (by_ : Agent) (w : Wr) : State :=
  if w.one 0 && s.holdsSem by_ then { s with mgmt := .free } else s

/-- Mailbox codes of R452.
DEDUCED: log 47. -/
def knownCode (x : Nat) : Bool := [0x01, 0x02, 0x03, 0x10, 0x11, 0x12].contains x

/-- A response in a port's mailbox: it replaces the message, and BUSY clears.
DEDUCED: log 48. -/
def State.respond (s : State) (p : Port) (xs : List Byte) : State :=
  s.updPort p fun q => { q with mbox := Store.setAll [] 0 (xs.take 4080), mboxLen := BitVec.ofNat 16 (Nat.min 4080 xs.length),
                                mboxBusy := false }

/-- MBOX_CTL: LEN, then GO. A message of no known code is answered with status 1.
DEDUCED: log 47. -/
def State.writeMbox (s : State) (p : Port) (w : Wr) : State :=
  let old := s.portAt p
  let s := s.updPort p fun q => { q with mboxLen := BitVec.ofNat 16 (w.onto q.mboxLen.toNat 0xFFFF) }
  if !w.one 31 || old.mboxBusy then s
  else if knownCode (old.mbox.rd 0 1) && (s.portAt p).mboxLen != 0 then
    s.updPort p fun q => { q with mboxBusy := true, mboxSem := s.holdsSem (.port p), sent := q.mbox, sentLen := q.mboxLen }
  else s.respond p (leBytes 1 4)

/-- The message bytes. -/
def State.writeMboxData (s : State) (p : Port) (k : Nat) (w : Wr) : State :=
  s.updPort p fun q => { q with mbox := q.mbox.wr (8 * k) 8 (w.onto (q.mbox.rd (8 * k) 8) (2 ^ 64 - 1)) }

/-! ### Every register -/

/-- The writer's port for the registers that are private to it. -/
def State.forPort (s : State) (by_ : Agent) (f : Port → State) : State :=
  match by_ with
  | .port p => f p
  | _ => s

def State.gated (s : State) (by_ : Agent) (s' : State) : State := if s.holdsSem by_ then s' else s

def State.forDie (s : State) (d : Nat) (f : Die → Die) : State := if d < s.part.form.dies then s.updDie d f else s

/-- A write to one register that the writer reaches. -/
def State.writeReg (s : State) (by_ : Agent) (w : Wr) : Reg → State
  | .devStatus => if w.one 29 then { s with linklost := false } else s
  | .mgmtSem => s.writeSem by_ w
  | .quietClk => s.gated by_ { s with quiet := { s.quiet with cap := w.word s.quiet.cap 0x7F } }
  | .quietPwr => s.gated by_ { s with quiet := { s.quiet with pwrCap := w.word s.quiet.pwrCap 0x7FF } }
  | .quietAct => s.gated by_ { s with quiet := { s.quiet with act := w.word s.quiet.act 0x80FFFF00 } }
  | .vfMap v half => s.writeVfMap v half by_ w
  | .mboxCtl => s.forPort by_ fun p => s.writeMbox p w
  | .mboxData k => s.forPort by_ fun p => s.writeMboxData p k w
  | .partWin n => s.writePartWin n by_ w
  | .invVa => s.forPort by_ fun p => s.updPort p fun q => { q with invva := w.dword q.invva (mask51 12) }
  | .invCtl => s.forPort by_ fun p => s.writeInvCtl p w
  | .ptroot n => s.updCtx n fun c => { c with ptroot := w.dword c.ptroot (mask51 16) }
  | .ctrl n => s.writeCtrl n w
  | .status n => s.writeStatus n w
  | .fqbase n => s.whenOff n fun c => { c with fqbase := w.dword c.fqbase (mask51 12 + 1) }
  | .fqsize n => s.whenOff n fun c => { c with fqsize := w.word c.fqsize 0x1F }
  | .replay n => s.writeReplay n w
  | .rfmtab n => s.writeRfmtab n w
  | .lqBase n q => s.writeLqBase n q w
  | .lqCtl n q => s.writeLqCtl n q w
  | .lqStatus n q => s.updLQ n q fun x => { x with err := x.err && !w.one 31 }
  | .sumpBase n => s.whenOff n fun c => { c with sumpBase := w.dword c.sumpBase (mask51 12) }
  | .sumpCtl n => s.whenOff n fun c => { c with sumpCtl := w.word c.sumpCtl 0x1F }
  | .sluiceCtl d => s.gated by_ (s.forDie d fun x => { x with sluiceCtl := w.word x.sluiceCtl 0xC0001F1F })
  | .sluiceHint d h =>
    s.gated by_ (s.forDie d fun x => { x with sluiceHint := updAt x.sluiceHint h fun y => w.word y 0x1F1F })
  | .mfldWin d => s.gated by_ (s.forDie d fun x => { x with mfldWin := w.word x.mfldWin 0x1FFF })
  | .trapctl n => s.updCtx n fun c => { c with trapctl := w.word c.trapctl 0x80000000 }
  | .trapcmd n => s.writeTrapcmd n w
  | .prectl n => s.writePrectl n w
  | .savesz n => s.updCtx n fun c => { c with savesz := w.word c.savesz 0xFFFFF }
  | .savebase n => s.updCtx n fun c => { c with savebase := w.word c.savebase 0xFFFFFFFF }
  | .watch n k half => s.writeWatch n k half w
  | .chstat ch => s.writeChstat ch w
  | .chctl ch => s.writeChctl ch w
  | .dwinSel gc => match s.coreNamed gc with
    | some c => s.updCore c fun k => { k with dwinLane := w.onto k.dwinLane 0x1F }
    | none => s
  | .dwinBase gc => match s.coreNamed gc with
    | some c => s.updCore c fun k => { k with dwinBase := w.onto (k.dwinBase * 2 ^ 8) 0xFFFF00 / 2 ^ 8 }
    | none => s
  | .dwin gc o => match s.coreNamed gc with
    | some c => s.writeDwin c o w
    | none => s
  | .fqHead n => s.updCtx n fun c => { c with fqhead := BitVec.ofNat 16 (w.onto c.fqhead.toNat 0xFFFF) }
  | .lqTail n q => s.updLQ n q fun x => { x with tail := BitVec.ofNat 16 (w.onto x.tail.toNat 0xFFFF) }
  | .apVbase n => s.updCtx n fun c => { c with apvbase := w.dword c.apvbase (mask51 16 + 1) }
  | .devId | .devStage | .quietStat | .devMemsz | .dieCores _ | .dieHalt _ | .dieStat _ | .dieTemp _ | .sumpHead _
  | .sumpTail _ | .trapstat _ | .traprec _ _ | .ueaddr _ | .baerr _ | .dwinStat _ | .pageStatus _ | .fqTail _
  | .lqHead _ _ => s

/-- A write that arrives at a register through the privileged view. -/
def State.writeView (s : State) (w : Wr) (r : Reg) : State :=
  match w.by_ with
  | .vf _ _ => s
  | by_ => if s.answers by_ r then s.writeReg by_ w r else s

/-! ### The rows of the table, R438 to R442 -/

/-- The registers that a request touches, in ascending order. -/
def State.covered (s : State) (by_ : Agent) (bar : Bar) (off : Nat) (named : Nat → Bool) (n : Nat) : List (Reg × Nat) :=
  ((List.range n).filterMap fun k => if named k then s.reach by_ bar (off + k) else none).eraseDups

/-- R438: a write of up to 8 bytes acts on each register of which it enables a byte, in ascending order, by an access of its
own. -/
def State.writeUnit (s : State) (bar : Bar) (off : Nat) (w : Wr) : State :=
  (s.covered w.by_ bar off w.en.getLsbD 8).foldl (fun s r =>
    if s.answers w.by_ r.1 then s.writeReg w.by_ (w.at_ off r.2) r.1 else s) s

def execRegisterWrite (bar : Bar) (off : Nat) (w : Wr) (s : State) : Out := done (s.writeUnit bar off w)

/-- `MGMT_SEM_ACQUIRE`: a read of the register through a physical function, or by `sysrd`. -/
def State.readSem (s : State) (by_ : Agent) : State :=
  match by_, s.mgmt with
  | .port p, .free => { s with mgmt := .port p }
  | .firmware _, .free => { s with mgmt := .firmware }
  | _, _ => s

def execMgmtSemAcquire (by_ : Agent) (s : State) : Out :=
  done (match by_ with
  | .vf _ _ => s
  | by_ =>
    if !s.answers by_ .mgmtSem then s
    else
      let s := s.readSem by_
      { s with reply := .data (leBytes (s.readReg by_ .mgmtSem) 4) })

/-- R438: a host's read of `n` bytes of one aligned unit of 8; a request of several units is a move for each. One that covers `MGMT_SEM`
acquires it; what no register holds reads as 0.
DESIGN CHOICE: log 9. -/
def State.hostRead (s : State) (by_ : Agent) (bar : Bar) (off n : Nat) : State :=
  match agentPort by_ with
  | none => s
  | some p =>
    if !s.powered || !s.hasPort p || !(s.portAt p).up || decide (8 < off % 8 + n) then s
    else
      let regs := (s.covered by_ bar off (fun _ => true) n).filter fun r => s.answers by_ r.1
      let s := if regs.any fun r => r.1 == .mgmtSem then s.readSem by_ else s
      let byte (k : Nat) : Byte :=
        match s.reach by_ bar (off + k) with
        | some (r, base) => if s.answers by_ r then BitVec.ofNat 8 (s.readReg by_ r / 2 ^ (8 * (off + k - base))) else 0
        | none => 0
      { s with reply := .data ((List.range n).map byte) }

def execMgmtSemRelease (w : Wr) (s : State) : Out := done (s.writeView w .mgmtSem)
def execCtxCtrlWrite (n : Nat) (w : Wr) (s : State) : Out := done (s.writeView w (.ctrl n))
def execCtxRfmtabWrite (n : Nat) (w : Wr) (s : State) : Out := done (s.writeView w (.rfmtab n))
def execPartWinWrite (p : Nat) (w : Wr) (s : State) : Out := done (s.writeView w (.partWin p))
def execVfMapWrite (v half : Nat) (w : Wr) (s : State) : Out :=
  done (if half < 2 then s.writeView w (.vfMap v half) else s)
def execTlbInvalidate (w : Wr) (s : State) : Out := done (s.writeView w .invCtl)

/-- BUSY clears when every access translated by a removed entry has been performed. -/
def execTlbInvalidateDone (p : Port) (s : State) : Out :=
  done ((s.performTranslated none).updPort p fun q => { q with busy := false })

def execCtxReplay (n : Nat) (w : Wr) (s : State) : Out := done (s.writeView w (.replay n))
def execCtxReplayFail (n : Nat) (w : Wr) (s : State) : Out := done (s.writeView w (.replay n))
def execCeclr (ch : Nat) (w : Wr) (s : State) : Out := done (s.writeView w (.chctl ch))
def execBaclr (ch : Nat) (w : Wr) (s : State) : Out := done (s.writeView w (.chctl ch))
def execLqCtlWrite (n q : Nat) (w : Wr) (s : State) : Out := done (s.writeView w (.lqCtl n q))
def execCancel (n q : Nat) (w : Wr) (s : State) : Out := done (s.writeView w (.lqCtl n q))

/-- LQ_TAIL stands in a context's page, which a virtual function reaches where the slot belongs to it. -/
def execLqTailWrite (n q : Nat) (w : Wr) (s : State) : Out :=
  done (match w.by_ with
  | .firmware _ => s
  | .port p => if s.answers (.port p) (.lqTail n q) then s.writeReg w.by_ w (.lqTail n q) else s
  | .vf p v => if s.belongs v n && s.answers (.vf p v) (.lqTail n q) then s.writeReg w.by_ w (.lqTail n q) else s)

def execTrapResume (n : Nat) (w : Wr) (s : State) : Out := done (s.writeView w (.trapcmd n))
def execTrapEnd (n : Nat) (w : Wr) (s : State) : Out := done (s.writeView w (.trapcmd n))
def execCtxSave (n : Nat) (w : Wr) (s : State) : Out := done (s.writeView w (.prectl n))
def execCtxRestore (n : Nat) (w : Wr) (s : State) : Out := done (s.writeView w (.prectl n))

end Sys2Proof.Machine
end

