-- ==== Sys2Proof/Machine/HostPort.lean ====
section
/-!
DEFINITION. Requests of the host ports: the device-memory aperture (R443, R444), AtomicOps (R24, R91), address
translation services (R27), resets of functions (R442), and a link that goes down (R440).
-/
namespace Sys2Proof.Machine

/-! ### The aperture, R438, R443, R444 -/

def portNo : Port → Nat
  | .a => 0 | .b => 1

/-- A window that a function reaches. -/
def State.apReach (s : State) (f : Func) (slot : Nat) : Bool :=
  match f with
  | .pf => decide (slot < Config.contextSlots)
  | .vf v => ((s.vfSlots v).take 16).contains slot && s.belongs v slot

/-- A request arrives at a port that exists. -/
def State.arrives (s : State) (p : Port) : Bool := s.powered && s.hasPort p && (s.portAt p).up

/-- The port's requests through BAR4 are served at all (R449). -/
def State.apServes (s : State) (p : Port) : Bool := s.opened && s.portServes p

/-- One page's leaf, with its place, or the refusal of the request. -/
def State.apPage (s : State) (n : Nat) (p : Port) (kind : Access) (va : Nat) : Option (Leaf × Nat) :=
  let m : Mode := { kind, bank := true, core := engineCore, port := some (portNo p) }
  match s.leafAt n m va with
  | .error _ => none
  | .ok l =>
    if pteLoc l.entry || pteNonres l.entry || (kind == .atomic && !pteR l.entry) then none
    else match s.translate n m va with
      | .ok (.dev a) _ => some (l, a)
      | _ => none

/-- The runs of a request, page by page, or its refusal. -/
def State.apSpan (s : State) (n : Nat) (p : Port) (kind : Access) : Nat → Nat → Nat → Option Runs
  | 0, _, _ => some []
  | fuel + 1, va, k =>
    if k = 0 then some []
    else
      let j := Nat.min k (4096 - va % 4096)
      match s.apPage n p kind va, s.apSpan n p kind fuel (va + j) (k - j) with
      | some (l, a), some rs => some ((some (.dev a), j, l) :: rs)
      | _, _ => none

/-- Translations of a request enter the port's cache, which holds 256, R443. DESIGN CHOICE: log 62. -/
def State.apFill (s : State) (n : Nat) (p : Port) (va : Nat) : Runs → State
  | [] => s
  | (_, k, l) :: rs =>
    let c := s.ctxAt n
    let e : TlbEntry := ⟨portNo p, c.part, c.asid, va / l.pageSize * l.pageSize, l⟩
    ({ s with aptc := if s.aptc.contains e then s.aptc
                      else capped (fun x => x.unit == portNo p) Config.apertureEntries (e :: s.aptc) }).apFill n p (va + k) rs

/-- A request's translations made, by reads of tables where the port's cache does not hold them, and kept there. -/
def State.apTranslated (s : State) (slot : Nat) (p : Port) (va n : Nat) (rs : Runs) : State :=
  (s.tableReads slot { core := engineCore, port := some (portNo p) } va n).apFill slot p va rs

/-- The virtual address of a request, where the window is open. -/
def State.apVa (s : State) (slot off : Nat) : Option Nat :=
  let c := s.ctxAt slot
  if bit c.apvbase.toNat 0 && c.en then some (bits c.apvbase.toNat 51 16 * 2 ^ 16 + off) else none

/-- The uncorrectable error in an entry of a table for which a request through an open window is refused, at the first of its pages that
is (R80). -/
def State.apLost (s : State) (p : Port) (kind : Access) (slot va n : Nat) : Option Nat :=
  let page (k : Nat) : Nat := if k = 0 then va else va / 4096 * 4096 + 4096 * k
  (((List.range (pagesOf n)).filter fun k => k == 0 || decide (page k < va + n)).findSome? fun k =>
    match s.leafAt slot { kind, bank := true, core := engineCore, port := some (portNo p) } (page k) with
    | .error f => some f.ue
    | .ok _ => if (s.apPage slot p kind (page k)).isNone then some none else none).join

/-- A request refused. One that meets an uncorrectable error in an entry of a table ends the context (R80).
DEDUCED: log 52. -/
def State.apRefuse (s : State) (p : Port) (kind : Access) (slot off n : Nat) : State :=
  match (s.apVa slot off).bind fun va => s.apLost p kind slot va n with
  | some pa => { (s.noteUeAt pa).endContext slot 0 with reply := .unsupported }
  | none => { (s.updCtx slot fun c => { c with aperr := true }) with reply := .unsupported }

/-- The runs of a request through a window that is served; none where it is refused. -/
def State.apRuns (s : State) (p : Port) (kind : Access) (slot off n : Nat) : Option (Nat × Runs) :=
  match s.apVa slot off with
  | none => none
  | some va => (s.apSpan slot p kind (pagesOf n) va n).map fun rs => (va, rs)

/-- `APERTURE_READ`. An uncorrectable error among its bytes ends the context (R80). -/
def execApertureRead (p : Port) (f : Func) (slot off n : Nat) (s : State) : Out :=
  done (if !s.arrives p || decide (2 ^ 32 < off + n) then s
    else if !s.apServes p then { s with reply := .unsupported }
    else if !s.apReach f slot then { s with reply := .data (List.replicate n 0) }
    else match s.apRuns p .read slot off n with
      | none => s.apRefuse p .read slot off n
      | some (va, rs) =>
        let s := s.apTranslated slot p va n rs
        match s.ueRuns rs with
        | some pa => { (s.noteUeAt pa).endContext slot 0 with reply := .unsupported }
        | none => { s.homeRuns false rs with reply := .data (s.rdRuns rs) })

/-- R98: the bytes that a host is about to write in the ranges of unretired launches of the context, with their values before
its first write. -/
def State.noteHost (s : State) (slot va : Nat) (rs : Runs) : State :=
  let pas := (rs.map fun r => match r.1 with | some (.dev a) => (List.range r.2.1).map (a + ·) | _ => []).flatten
  let n := pas.length
  { s with launches := s.launches.map fun l =>
      if l.ctx == slot && l.table.any fun r => meets va n r.base r.bytes || meets va n r.log r.logBytes
      then { l with hosted := l.hosted ++ (pas.filter fun a => !(l.hosted.any fun h => h.1 == a)).map fun a =>
              (a, s.rdByte (.dev a)) } else l }

/-- A host's bytes written at their home slices; those of a BANKED page go through to device memory (R25). -/
def State.hostPut (s : State) : Runs → List Byte → State
  | [], _ => s
  | r :: rs, xs =>
    ((if pteBanked r.2.2.entry then s.throughRuns [r] else s.homeRuns true [r]).wrRuns [r] (xs.take r.2.1)).hostPut rs (xs.drop r.2.1)

/-- `APERTURE_WRITE`. -/
def execApertureWrite (p : Port) (f : Func) (slot off : Nat) (bytes : List Byte) (s : State) : Out :=
  done (if !s.arrives p || decide (2 ^ 32 < off + bytes.length) then s
    else if !s.apServes p || !s.apReach f slot then { s with reply := .none }
    else match s.apRuns p .write slot off bytes.length with
      | none => { s.apRefuse p .write slot off bytes.length with reply := .none }
      | some (va, rs) =>
        let s := s.apTranslated slot p va bytes.length rs
        match s.ueRuns rs with
        | some pa => { (s.noteUeAt pa).endContext slot 0 with reply := .none }
        | none => { (s.noteHost slot va rs).hostPut rs bytes with reply := .none })

/-! ### AtomicOps, R91, R24 -/

/-- The bytes of an AtomicOp, its operation and operands. -/
def atomicParts : HostAtomic → Nat × AOp × Nat × Nat
  | .fetchAdd n x => (n, .add, x.toNat, 0)
  | .swap n x => (n, .exch, x.toNat, 0)
  | .cas n e x => (n, .cas, x.toNat, e.toNat)
  | .cas128 => (16, .cas, 0, 0)

def atomicTy (n : Nat) : ATy := if n = 4 then .n32 else .n64

/-- An AtomicOp at its place: at the home slice, or with an unspecified value where ATOM is HOME.
DEDUCED: log 52. -/
def State.hostAtomic (s : State) (slot va pa : Nat) (l : Leaf) (op : HostAtomic) : State :=
  let (n, o, b, c) := atomicParts op
  let t := atomicTy n
  let s := (s.noteHost slot va [(some (.dev pa), n, l)]).homeRuns true [(some (.dev pa), n, l)] .kall true
  let (old, s1) := s.atomicAt (.dev pa) o t (b % 2 ^ t.width) (c % 2 ^ t.width)
  if pteSysAtom l.entry then { s1 with reply := .data (leBytes old n) }
  else
    let (k, s2) := s.choose 4
    let new := s1.rdNat (.dev pa) n
    { (if k / 2 = 0 then { s1 with free := s2.free } else s2) with reply := .data (leBytes (if k % 2 = 0 then old else new) n) }

/-- `HOST_ATOMICOP`. The window and its pages are judged first (R444), then the operation (R91). -/
def execHostAtomicop (p : Port) (f : Func) (slot off : Nat) (op : HostAtomic) (s : State) : Out :=
  let (n, _, _, _) := atomicParts op
  done (if !s.arrives p || decide (2 ^ 32 < off + n) then s
    else if !s.apServes p then { s with reply := .unsupported }
    else if !s.apReach f slot then { s with reply := .data (List.replicate n 0) }
    else match s.apRuns p .atomic slot off n with
      | none => s.apRefuse p .atomic slot off n
      | some (va, rs) =>
        let s := s.apTranslated slot p va n rs
        match rs with
        | (some (.dev pa), _, l) :: _ =>
          if pteBanked l.entry || !(n == 4 || n == 8) || off % n != 0 then { s with reply := .unsupported }
          else match s.ueIn (.dev pa) n with
            | some ue => { (s.noteUeAt ue).endContext slot 0 with reply := .unsupported }
            | none => s.hostAtomic slot va pa l op
        | _ => s.apRefuse p .atomic slot off n)

/-! ### Address translation services, R27 -/

/-- `ATS_INVALIDATION`: it completes when every access that the entries translated has been performed. -/
def execAtsInvalidation (p : Port) (page count : Nat) (s : State) : Out :=
  let s := s.performTranslated (some (portNo p))
  done { s with atc := s.atc.filter fun e =>
    !((s.ctxAt e.ctx).port == portNo p && decide (page ≤ e.page) && decide (e.page < page + count)) }

def execPriGrant (slot page target : Nat) (s : State) : Out := done (s.answerPri slot page (some target))
def execPriRefuse (slot page : Nat) (s : State) : Out := done (s.answerPri slot page none)

/-! ### Links and function resets, R440, R442 -/

/-- `PORT_LINK_DOWN`: it frees a semaphore that the port owns. -/
def execPortLinkDown (p : Port) (s : State) : Out :=
  done (if !s.powered || !s.hasPort p then s
    else
      let s := s.updPort p fun q => { q with up := false }
      if s.mgmt = .port p then { s with mgmt := .free } else s)

/-- `VF_FLR`: every context of the function's mask ends as by clearing EN. -/
def execVfFlr (v : Nat) (s : State) : Out :=
  done (if !s.powered then s
    else (s.vfSlots v).foldl (fun s n =>
      s.updCtx n fun c => { c with ctrl := c.ctrl &&& 0x7FFFFFFF#32 }) s)

/-- `PF_FLR`: the port's link and mailbox. -/
def execPfFlr (p : Port) (s : State) : Out :=
  done (if !s.powered || !s.hasPort p then s
    else s.updPort p fun q => { q with up := true, mboxLen := 0, mboxBusy := false, mboxSem := false, mbox := [], sent := [], sentLen := 0 })

end Sys2Proof.Machine
end

