-- ==== Sys2Proof/Machine/Issue.lean ====
section
/-!
DEFINITION. The issue of clauses (R173 to R183, R218) with their checks (R180, R263, R264), the walks of pages (R33 to
R35), and the writing of fault records (R40, R42).
-/
namespace Sys2Proof.Machine

/-! ### The checks of a clause, R180, R263, R264 -/

/-- Detail 6 or 8 of an instruction at its place in a clause. -/
def misplaced (h : Header) (final : Bool) (i : Instr) : Option Nat :=
  let badFlag := match i.flag? with | some f => f != h.setA && f != h.setB | none => false
  if badFlag then some 6
  else if (i.isLast && !final) || (h.unif && i.namesVector) then some 8
  else none

/-- The lowest detail code of one instruction of a clause. -/
def instrDetail (h : Header) (final : Bool) (r : Raw) : Option Nat :=
  let later := ((rowOf r.ext r.op).bind fun w => w.build r).bind (misplaced h final)
  match r.decode .lane with
  | .ok i => misplaced h final i
  | .error e => if e.code ≤ 8 then some e.code else some (later.getD e.code)

/-- The detail of the first failing instruction among `n` instructions. -/
def clauseDetail (h : Header) : Nat → List Word → Option Nat
  | 0, _ => none
  | n + 1, ws => match Raw.parse ws with
    | none => some 1
    | some (r, rest) => match instrDetail h (n == 0) r with
      | some d => some d
      | none => clauseDetail h n rest

/-! ### What a class would issue -/

/-- R34: instructions that access the global space. A `siph` is not among them: the copy that it leaves to an engine is.
DESIGN CHOICE: log 89. -/
def Instr.global : Instr → Bool
  | .ld .. => true | .st .. => true | .ldt .. => true | .atom .. => true | .redOrd .. => true | .texf .. => true
  | .rtrace .. => true | .neval .. => true | .mvx .. => true | .mvxa .. => true | .mvxs .. => true | .tspawn .. => true
  | _ => false

/-- Instructions that access memory, or release what the thread has read, which an earlier texture read of the thread comes
before in program order (R115, R117). -/
def Instr.ordered (i : Instr) : Bool :=
  Instr.global i || match i with
  | .fence .. => true | .ldsp .. => true | .stsp .. => true | .binit .. => true | .barrive .. => true | .rpub .. => true
  | .rrel .. => true | .siph .. => true | .gemit .. => true | .accwr .. => true | .accsp .. => true | .garrive => true
  | .exit => true | .exitBase => true | _ => false

/-- A texture read of one of the threads has still to obtain its values: it waits on a record, or on a host (R27, R41). -/
def State.unread (s : State) (core slot : Nat) (lanes : List Nat) : Bool :=
  match s.group? core slot with
  | some g => g.pend.any fun p => (match p.work with | .tex .. => true | _ => false) && p.lanes.any lanes.contains
  | none => false

def accessesOrdered : Nat → List Word → Bool
  | 0, _ => false
  | n + 1, ws => match decodeFor .lane ws with
    | .ok (i, rest) => Instr.ordered i || accessesOrdered n rest
    | .error _ => false

def accessesGlobal : Nat → List Word → Bool
  | 0, _ => false
  | n + 1, ws => match decodeFor .lane ws with
    | .ok (i, rest) => Instr.global i || accessesGlobal n rest
    | .error _ => false

/-- A class's next clause: its header and words, a trap of the fetch or of the checks, a host page to wait for, or
nothing that may issue now. -/
inductive Candidate where
  | go (h : Header) (pc : Nat) (ws : List Word)
  | trap (src : Nat) (t : Trap)
  | late (lanes : List Nat) (t : Trap) (more : Nat)
  | page (p : Nat)
  | no

def illegalDetail (d : Nat) : Trap := { cause := .illegalInstr, detail := d }

/-- Whether the last of `n` instructions is `exit`. -/
def endsInExit : Nat → List Word → Bool
  | 0, _ => false
  | n + 1, ws => match decodeFor .lane ws with
    | .ok (.exit, _) => n == 0
    | .ok (.exitBase, _) => n == 0
    | .ok (_, rest) => endsInExit n rest
    | .error _ => false

/-- R365: the trap of an `neval` found at close that a clause stops the lane for: one on a flag that it waits on, or any at a safe
point or at its end; of several, the first found. -/
def Lane.lateTrap (t : Lane) (h : Header) (ws : List Word) : Option NevalTrap :=
  t.neval.find? fun x => bit h.wait x.flag || h.safe || endsInExit h.count ws

/-- R365: a lane of which an `neval` was found at close reaches a clause at which it stops. -/
def Lane.stopsAt (t : Lane) (h : Header) (ws : List Word) : Bool :=
  (t.lateTrap h ws).isSome

/-- The lanes of a class that stop so, with the trap of the first and the number of further traps of its cause. -/
def Group.lateTraps (g : Group) (l : Nat) (h : Header) (ws : List Word) : Option Candidate :=
  let ls := (g.classOf l).filter fun k => (g.lane k).stopsAt h ws
  match ls with
  | [] => none
  | k :: _ => ((g.lane k).lateTrap h ws).map fun x =>
    .late ls { cause := x.cause, detail := x.detail, aux := x.aux }
      ((ls.filter fun j => match (g.lane j).lateTrap h ws with | some y => y.cause == x.cause | none => false).length - 1)

/-- The candidate of the class that a lane heads.
DEDUCED: log 27. -/
def State.candidate (s : State) (g : Group) (l : Nat) : Candidate :=
  let t := g.lane l
  match s.headerAt g t with
  | .error (.inl e) => .trap 1 e
  | .error (.inr p) => .page p
  | .ok none => .trap 0 (illegalDetail 7)
  | .ok (some h) =>
    if !g.flagsAllow h || (h.safe && (s.ctxAt g.ctx).saving) then .no
    else
      let pc := t.pc.toNat + (if t.mid.isSome then 0 else 12)
      match s.fetchInstrs g.ctx g.core h.count pc with
      | .error (.inl e) => .trap 1 e
      | .error (.inr p) => .page p
      | .ok ws => match clauseDetail h h.count ws with
        | some d => .trap 0 (illegalDetail d)
        | none =>
          if s.missFull g.core && accessesGlobal h.count ws || s.unread g.core g.slot (g.classOf l) && accessesOrdered h.count ws
          then .no
          else (g.lateTraps l h ws).getD (.go h pc ws)

/-- The first class in rotation that may issue, R175; else a class that waits for a page. -/
def State.chooseClass (s : State) (g : Group) : List Nat → Option (Nat × Candidate)
  | [] => none
  | l :: ls => match s.candidate g l with
    | .no => s.chooseClass g ls
    | .page p => some ((s.chooseClass g ls).getD (l, .page p))
    | c => some (l, c)

/-! ### `CLAUSE_ISSUE`, R174, R218 -/

def Candidate.ready : Candidate → Bool
  | .go _ _ _ => true | .trap _ _ => true | .late _ _ _ => true | _ => false

/-- The groups of a pipeline that may issue, with the class each would issue. -/
def State.choices (s : State) (core pipe : Nat) : List (Group × Nat × Candidate) :=
  s.groups.filterMap fun g =>
    if g.core == core && g.slot / 4 == pipe && s.mayIssue g && !((s.ctxAt g.ctx).saving && s.quiescent g) then
      (s.chooseClass g g.classHeads).map fun c => (g, c.1, c.2)
    else none

/-- R218: the group of greatest age, the lowest slot on ties. -/
def oldest (cs : List (Group × Nat × Candidate)) : Option (Group × Nat × Candidate) :=
  argMax (fun c => c.1.age * Config.groupSlots + (Config.groupSlots - 1 - c.1.slot)) cs

/-- The bytes that the fetch of a class's clause takes: its header, unless the class stands inside it, and its words. -/
def State.fetchedClause (s : State) (g : Group) (l pc : Nat) (ws : List Word) : State :=
  let va := if (g.lane l).mid.isSome then pc else pc - 12
  s.fetched g.ctx g.core va (pc - va + 4 * ws.length)

/-- A clause issued: the ages and λ move, LIVE is applied, and the pipeline holds the clause. -/
def State.issueClause (s : State) (g : Group) (l : Nat) (h : Header) (pc : Nat) (ws : List Word) : State :=
  let cls := g.classOf l
  let pipe := g.slot / 4
  let older (x : Group) : Group := if x.core == g.core && x.slot / 4 == pipe then { x with age := x.age + 1 } else x
  let begin (t : Lane) : Lane := { (if h.safe then t.applyLive h.live else t) with mid := none, due := none }
  let s : State := { s with groups := s.groups.map older }
  let s := s.updGroup g.core g.slot fun x => { x.updLanes cls begin with age := 0, lam := l }
  { s with issues := s.issues ++ [{ core := g.core, pipe, slot := g.slot, lanes := cls, pc := BitVec.ofNat 64 pc,
                                    words := ws, left := h.count, wait := h.wait, setA := h.setA, setB := h.setB }] }

def execClauseIssue (core pipe : Nat) (s : State) : Out :=
  if s.stage ≠ .stage2 || !s.coreOn core || s.issues.any (fun i => i.core == core && i.pipe == pipe) then done s
  else
    let cs := s.choices core pipe
    done (match oldest (cs.filter fun c => c.2.2.ready) with
      | some (g, l, .go h pc ws) => (s.fetchedClause g l pc ws).issueClause g l h pc ws
      | some (g, l, .late ls t more) => s.takeTrap core g.slot ls (g.lane l).pc 0 t more
      | some (g, l, .trap src t) => s.takeTrap core g.slot (g.classOf l) (g.lane l).pc src t 0
      | _ => cs.foldl (fun s c => match c.2.2 with | .page p => s.askPri c.1.ctx { kind := .fetch, core } p | _ => s) s)

/-! ### `PAGE_WALK`, R33 to R35 -/

/-- The oldest queued request of a core gets a slot of its die's walker. -/
def allotFirst (core : Nat) : List Miss → List Miss
  | [] => []
  | m :: ms => if m.core == core && m.stage == .queued then { m with stage := .walking } :: ms else m :: allotFirst core ms

/-- R34: the free slots of a die's walker go round its cores, to the oldest queued request of each. -/
def State.allot (s : State) (die : Nat) : Nat → State
  | 0 => s
  | fuel + 1 =>
    let mine (g : MissStage) (m : Miss) : Bool := dieOf m.core == die && m.stage == g
    let order := (List.range 48).map fun k => 48 * die + ((s.dieAt die).turn + 1 + k) % 48
    if Config.walkSlots ≤ (s.misses.filter (mine .walking)).length then s
    else match order.find? fun c => s.misses.any fun m => m.core == c && m.stage == .queued with
      | none => s
      | some c => ({ s with misses := allotFirst c s.misses }.updDie die fun d => { d with turn := c % 48 }).allot die fuel

/-- R34: a walk ends: its request leaves, but for the threads that joined it, which go on. -/
def State.endWalk (s : State) (m : Miss) : State :=
  { s with misses := (s.misses.map fun x => if x = m then { x with stage := .walked } else x).filter fun x => !x.ended || !x.joined.isEmpty }

/-- A miss enters a core's queue; the walk of a queued page that has a slot of its die's walker ends it, and caches a translation that
is valid. Whatever it finds, the accesses that joined the request go on. -/
def execPageWalk (core n : Nat) (va : DWord) (s : State) : Out :=
  let page := va.toNat / 4096
  let die := dieOf core
  if s.stage ≠ .stage2 || !(s.ctxAt n).en || decide (2 ^ 52 ≤ va.toNat) || decide (192 ≤ core) then done s
  else if !s.misses.any fun m => m.wants core n page then done (s.miss core n page [])
  else
    let s := s.allot die Config.walkSlots
    done (match s.misses.find? fun m => m.wants core n page && m.stage == .walking with
      | none => s
      | some m =>
        let s' := (s.tableReads n { core } va.toNat 1).endWalk m
        match s.walkCtx n die va.toNat with
        | .ok (l, es) => if s.cacheable n va.toNat l then s'.fillWalk core n va.toNat l es else s'
        | .error _ => s')

/-! ### `FAULT_RECORD_WRITE`, R39, R40, R42 -/

/-- The first record that waits for room is written at the tail. One that cannot be written is a fatal fault with its
own sub-cause; an uncorrectable error that the write meets ends the context (R80). -/
def execFaultRecordWrite (n : Nat) (s : State) : Out :=
  let c := s.ctxAt n
  done (match c.recs.find? (fun r => r.seq.isNone), c.fqN with
    | some r, some logN =>
      if c.fqFull then s
      else match s.fqPlace n logN with
        | none => (s.keepTrap n r).endContext n r.sub
        | some p => match s.ueIn p 32 with
          | some pa => ((s.noteUeAt pa).keepTrap n r).endContext n 0
          | none => s.putRecord p (faultBytes r.va c.seq c.fqwrap false r.sub r.kind r.src r.joined r.level) fun s =>
            s.updCtx n fun c => { c.advanceTail logN with
            recs := c.recs.map fun x => if x.id = r.id then { x with seq := some c.seq } else x }
    | _, _ => s)

end Sys2Proof.Machine
end

