-- ==== Sys2Proof/Machine/Manage.lean ====
section
/-!
DEFINITION. The staged start (R448, R449, R453), quiet mode and temperature (R454 to R456), the die links (R447), and
management messages (R451 to R453).
-/
namespace Sys2Proof.Machine

/-! ### Power and stages, R448, R449 -/

/-- `POWER_GOOD`: priming starts. -/
def execPowerGood (s : State) : Out := done (if s.powered then s else { s with powered := true })

/-- `POWER_REMOVED`: what is left is the part with its firmware slots, of which a committed one becomes active (R453),
and the memory of the hosts.
DEDUCED: log 53. -/
def execPowerRemoved (s : State) : Out :=
  done { State.reset with
    part := s.part
    die := s.die.map fun d => { en := d.en }
    quiet := { pwrCap := BitVec.ofNat 32 s.part.form.wattLimit }
    fw := { active := s.fw.next.getD s.fw.active, images := s.fw.images }
    code := s.code, sysMem := s.sysMem, us := s.us, ids := s.ids, free := s.free, agenda := s.agenda }

/-- R449: why a firmware image fails. -/
def imageError (x : List Byte) : Option Nat :=
  if !Config.imageSigned x then some 1 else if Config.imageRollback x < Config.fusedRollback then some 2 else none

/-- R453: the slot that starts, or the failure of the active one where both fail. -/
def Firmware.start (f : Firmware) : Except Nat Nat :=
  match imageError (f.images.getD f.active []) with
  | none => .ok f.active
  | some e => match imageError (f.images.getD (1 - f.active) []) with
    | none => .ok (1 - f.active)
    | some _ => .error e

/-- What a die reported: its channels and links, R2, R70. The devices of a module are all HJ-32B (R1); of a channel that is not in the
report, training never began (R81). -/
def State.takeDie (s : State) (d : Nat) (r : DieReport) : State :=
  let chs := (List.range 12).map fun k =>
    match r.channels[k]? with
    | some c => { c with hj := c.hj || s.part.form == Config.Form.module }
    | none => ⟨false, false, 0⟩
  let s := chs.zipIdx.foldl (fun s c => { s with chan := updAt s.chan (12 * d + c.2) fun x =>
    { x with trained := c.1.trained, hj := c.1.hj, cecnt := Nat.min 0xFFFFFF c.1.corrected } }) s
  s.updDie d fun x => { x with memok := chs.all (·.trained), bank := chs.all (·.hj),
                               linkok := r.linkOk || (s.part.form == .bareDie) }

def Die.whole (d : Die) : Bool := d.memok && d.linkok

/-- R449: how Stage 2 can run: on every die, on one die of a package, or not at all. -/
inductive StartPlan where
  | all
  | single (die : Nat)
  | none
  deriving DecidableEq, Repr

def State.plan (s : State) : StartPlan :=
  let n := s.part.form.dies
  if ((List.range n).all fun d => (s.dieAt d).whole) then .all
  else if s.part.form = .bareDie then .none
  else if (s.dieAt 0).memok then .single 0
  else if (s.dieAt 2).memok then .single 2
  else .none

/-- The UCIe modules of every pair of dies of a package, R445. -/
def State.pairs (s : State) : List (Nat × Nat × List Bool) :=
  if s.part.form = .bareDie then []
  else [(0, 1), (0, 2), (0, 3), (1, 2), (1, 3), (2, 3)].map fun p => (p.1, p.2, List.replicate 4 true)

/-- `STAGE_1`: firmware verified, memory trained, links up; or the failure of R449. -/
def execStage1 (r : StartReport) (s : State) : Out :=
  done (if !s.powered || s.stage ≠ .priming || s.err ≠ 0 then s
    else match s.fw.start with
      | .error e => { s with err := e }
      | .ok slot =>
        let s := { s with fw := { s.fw with active := slot } }
        let s := (List.range s.part.form.dies).foldl (fun s d => s.takeDie d (r.dies.getD d ⟨false, []⟩)) s
        match s.plan with
        | .all => { s with stage := .stage1, ucie := s.pairs }
        | .single _ => { s with stage := .stage1, err := 4 }
        | .none => { s with stage := .halted, err := 3 })

/-- `STAGE_2_ENTRY`. Where a link has been lost since Stage 1, a single die runs, with ERR 4 (R449).
DEDUCED: log 53. -/
def execStage2Entry (s : State) : Out :=
  done (if s.stage ≠ .stage1 then s
    else
      let s : State := match s.plan with
        | .single d => { s with single := true, dies := BitVec.ofNat 4 (2 ^ d), err := if s.err = 0 then 4 else s.err, ucie := [] }
        | _ => { s with single := false, dies := if s.part.form = .bareDie then 1 else 15 }
      let quiet : Quiet := { s.quiet with g := 80, low := 0, clk := if s.therm then 16 else 80 }
      { s with stage := .stage2, memMib := s.memBytes / 2 ^ 20, quiet })

/-! ### Quiet mode, R455 -/

def Quiet.en (q : Quiet) : Bool := bit q.act.toNat 31
def Quiet.hyst (q : Quiet) : Nat := bits q.act.toNat 23 16
def Quiet.hold (q : Quiet) : Nat := Nat.max 1 (bits q.act.toNat 15 8)

/-- g and low after an interval of mean power P. -/
def State.governed (s : State) (p : Nat) : Nat × Nat :=
  let q := s.quiet
  if !q.en then (80, 0)
  else
    let cap := q.capActs
    let g := Nat.min q.g cap
    if s.wattsActs < p then (Nat.max 16 (g - 1), 0)
    else if p + q.hyst < s.wattsActs then
      (if 10 * q.hold ≤ q.low + 1 then Nat.min cap (g + 1) else g, q.low + 1)
    else (g, 0)

def State.govern (s : State) (p : Nat) : State :=
  let q := s.quiet
  let (g, low) := s.governed p
  { s with quiet := { q with g, low, eng := q.en && decide (g < q.capActs), floor := q.en && g == 16 && decide (s.wattsActs < p),
                             clk := if s.therm then 16 else g, pwr := p } }

def execGovernorInterval (watts : Nat) (s : State) : Out := done (if s.stage ≠ .stage2 then s else s.govern watts)

/-- `QUIET_STEP_UP`: the interval whose end steps the clock up. -/
def execQuietStepUp (watts : Nat) (s : State) : Out :=
  done (if s.stage ≠ .stage2 || !s.quiet.en || decide (s.wattsActs ≤ watts + s.quiet.hyst)
      || decide (s.quiet.low + 1 < 10 * s.quiet.hold) then s else s.govern watts)

/-! ### Temperature, R456 -/

/-- The clock that runs when the thermal guard does not hold it: its floor before Stage 2 (R456). -/
def State.freeClk (s : State) : Nat := if s.opened then s.quiet.g else 16

def State.endAll (s : State) : State :=
  ((List.range Config.contextSlots).filter fun n => (s.ctxAt n).en).foldl (fun s n => s.endContext n 0) s

/-- Ten milliseconds of intervals. -/
def coolIntervals : Nat := 100

def State.thermRelease (s : State) : State :=
  if s.therm && decide (coolIntervals ≤ s.quiet.cool) then
    { s with therm := false, quiet := { s.quiet with cool := 0, clk := s.freeClk } }
  else s

/-- `THERM_RELEASE`. -/
def execThermRelease (s : State) : Out := done s.thermRelease

/-- A die's registers after an interval. -/
def Die.heat (d : Die) (t : Nat) : Die := { d with temp := Nat.min 255 t, peak := Nat.max d.peak (Nat.min 255 t) }

/-- `THERMAL_INTERVAL`: the sensors of every powered die, whatever the stage. -/
def execThermalInterval (sensors : List (List Nat)) (s : State) : Out :=
  done (if !s.powered then s
    else
      let s := s.thermRelease
      let dies := List.range s.part.form.dies
      let temp (d : Nat) : Nat := (sensors.getD d []).foldl Nat.max 0
      let s := dies.foldl (fun s d => s.updDie d fun x => x.heat (temp d)) s
      if dies.any fun d => decide (105 ≤ temp d) then
        let s : State := { s with therm := true, quiet := { s.quiet with cool := 0, clk := 16 } }
        if dies.any fun d => decide (120 ≤ temp d) then { s.endAll with stage := .halted, err := 5, trip := true } else s
      else if s.therm then
        { s with quiet := { s.quiet with cool := if dies.all (fun d => decide (temp d ≤ 95)) then s.quiet.cool + 1 else 0 } }
      else s)

/-! ### Die links, R447 -/

/-- `UCIE_MODULE_FAIL`: a module retrained at reduced width carries on; a dropped one does not, and with the last of a pair its
link is down (LINKOK of R439). -/
def execUcieModuleFail (dieA dieB moduleNo : Nat) (retrained : Bool) (s : State) : Out :=
  done (if retrained then s
    else
      let hit (e : Nat × Nat × List Bool) : Bool := e.1 == dieA && e.2.1 == dieB && e.2.2.getD moduleNo false
      if !s.ucie.any hit then s
      else
        let s := { s with ucie := s.ucie.map fun e => if hit e then (e.1, e.2.1, updAt e.2.2 moduleNo fun _ => false) else e }
        let lost := s.ucie.any fun e => e.1 == dieA && e.2.1 == dieB && e.2.2.all (!·)
        let s := if lost then [dieA, dieB].foldl (fun s d => s.updDie d fun x => { x with linkok := false }) s else s
        if lost && s.stage = .stage2 then { s.endAll with linklost := true } else s)

/-! ### Management messages, R452, R453 -/

/-- A message is being served: one in a mailbox as GO has sent it. -/
def State.serves (s : State) (v : Via) (code : Nat) : Bool :=
  s.powered && (match v with
    | .mailbox p => s.hasPort p && (s.portAt p).mboxBusy && (s.portAt p).sent.rd 0 1 == code
    | .vendorMessage p => s.hasPort p && (s.portAt p).up
    | .smbus => true)

/-- What a message of a mailbox holds after its code is what the event gives; other transports bring it with them.
DESIGN CHOICE: log 77. -/
def State.carries (s : State) (v : Via) (xs : List Byte) : Bool :=
  match v with
  | .mailbox p => (s.portAt p).sent.getAll 1 xs.length == xs
  | _ => true

/-- The bytes of a `FW_DATA` in a mailbox reach as far as LEN says.
DESIGN CHOICE: log 77. -/
def State.reaches (s : State) (v : Via) (n : Nat) : Bool :=
  match v with
  | .mailbox p => n == (s.portAt p).sentLen.toNat - 5
  | _ => true

/-- A message of no known code by a transport other than a mailbox is answered with status 1. -/
def State.unknownMessage (s : State) (v : Via) (code : Nat) : State :=
  match v with
  | .mailbox _ => s
  | v => if s.serves v code && !knownCode code then { s with reply := .message (leBytes 1 4) } else s

/-- The response, by the way the message came: a status word, then bytes.
DEDUCED: log 48. -/
def State.answer (s : State) (v : Via) (status : Nat) (xs : List Byte) : State :=
  let m := leBytes status 4 ++ xs
  match v with
  | .mailbox p => { s.respond p m with reply := .message m }
  | _ => { s with reply := .message m }

/-- `MBOX_GO`. -/
def execMboxGo (p : Port) (w : Wr) (s : State) : Out :=
  done (match w.by_ with
  | .port q => if q = p then s.writeView w .mboxCtl else s
  | _ => s)

def bytesOf (f : Nat → Byte) (n : Nat) : List Byte := (List.range n).map f

/-- `GET_ID`. -/
def execGetId (v : Via) (s : State) : Out :=
  done (if !s.serves v 0x01 then s
    else s.answer v 0 (leBytes s.part.form.code 1 ++ leBytes Config.siliconRev 1 ++ bytesOf Config.serialNumber 16
      ++ bytesOf Config.ed25519Public 32 ++ bytesOf Config.mlDsaPublic 1952))

/-- The four digests of GET_MEAS. -/
def State.digests (s : State) : List Byte :=
  let sha (x : List Byte) : List Byte := bytesOf (Config.sha384 x) 48
  sha (s.fw.images.getD s.fw.active []) ++ sha Config.controlFirmware
    ++ sha (Config.trainingResult ((s.chan.map fun c => [c.trained, c.hj]).flatten))
    ++ sha (Config.fuseState (s.die.map fun d => d.en.toNat))

/-- The bytes `BRIHEL-SXV4-MEAS`. -/
def measName : List Byte :=
  [0x42, 0x52, 0x49, 0x48, 0x45, 0x4C, 0x2D, 0x53, 0x58, 0x56, 0x34, 0x2D, 0x4D, 0x45, 0x41, 0x53]

/-- `GET_MEAS`. -/
def execGetMeas (v : Via) (nonce : List Byte) (s : State) : Out :=
  done (if !s.serves v 0x02 || nonce.length != 32 || !s.carries v nonce then s
    else
      let m := measName ++ nonce ++ s.digests
      s.answer v 0 (s.digests ++ bytesOf (Config.ed25519Sign m) 64 ++ bytesOf (Config.mlDsaSign m) 3309))

/-- `GET_CERT`. -/
def execGetCert (v : Via) (alg off : Nat) (s : State) : Out :=
  done (if !s.serves v 0x03 || !s.carries v (leBytes alg 1 ++ leBytes off 4) then s
    else s.answer v 0 (bytesOf (fun k => Config.certificate alg (off + k)) (Nat.min 3072 (Config.certificateLength alg - off))))

/-- R453, R440: firmware commands are served through a mailbox whose port held `MGMT_SEM` when GO arrived.
DEDUCED: log 49. -/
def State.mayUpdate (s : State) : Via → Bool
  | .mailbox p => (s.portAt p).mboxSem
  | _ => false

/-- `FW_BEGIN`. -/
def execFwBegin (v : Via) (len : Nat) (s : State) : Out :=
  done (if !s.serves v 0x10 || !s.carries v (leBytes len 4) then s
    else if !s.mayUpdate v then s.answer v 2 []
    else { s with fw := { s.fw with taking := some (len, []) } }.answer v 0 [])

/-- A command with no transfer begun: the spec states no status for it.
DEDUCED: log 49. -/
def State.noTransfer (s : State) (v : Via) : State :=
  let (k, s) := s.choose 5
  s.answer v k []

/-- `FW_DATA`. -/
def execFwData (v : Via) (off : Nat) (bytes : List Byte) (s : State) : Out :=
  done (if !s.serves v 0x11 || !s.carries v (leBytes off 4 ++ bytes) || !s.reaches v bytes.length then s
    else if !s.mayUpdate v then s.answer v 2 []
    else match s.fw.taking with
      | none => s.noTransfer v
      | some (len, x) =>
        { s with fw := { s.fw with taking := some (len, x.setAll off (bytes.take (len - off))) } }.answer v 0 [])

/-- `FW_COMMIT`. -/
def execFwCommit (v : Via) (s : State) : Out :=
  done (if !s.serves v 0x12 then s
    else if !s.mayUpdate v then s.answer v 2 []
    else match s.fw.taking with
      | none => s.noTransfer v
      | some (len, x) =>
        let image := x.getAll 0 len
        let slot := 1 - s.fw.active
        match imageError image with
        | some 1 => { s with fw := { s.fw with taking := none } }.answer v 3 []
        | some _ => { s with fw := { s.fw with taking := none } }.answer v 4 []
        | none =>
          { s with fw := { s.fw with taking := none, images := updAt s.fw.images slot fun _ => image, next := some slot } }.answer v 0 [])

end Sys2Proof.Machine
end

