-- ==== Sys2Proof/Machine/System.lean ====
section
/-!
DEFINITION. The system instructions of a control core (R372 to R374, R436), and the halt of a control core (R450).
-/
namespace Sys2Proof.Machine

def Src.word (s : State) (x : Src) : Nat := (s.reg 0 x 0).toNat

/-- A system instruction that writes one register: its value, with the state after its effect. -/
def sysResult (d : Nat) (f : State → State × Nat) (s : State) : Out :=
  done (perClass (fun s => let (s, v) := f s; .ok (s.setUni d (BitVec.ofNat 32 v)) none) s)

def sysFail : Nat := 2 ^ 32 - 1

/-- `sysrd`. A read of `MGMT_SEM` acquires it (R440). -/
def State.sysRead (s : State) (a : Nat) : State × Nat :=
  let by_ : Agent := .firmware s.cur.core
  if a % 4 ≠ 0 then (s, 0)
  else match bar0Reg a with
    | none => (s, 0)
    | some (r, base) =>
      if !s.answers by_ r then (s, 0)
      else
        let s := if r = .mgmtSem then s.readSem by_ else s
        (s, s.readReg by_ r / 2 ^ (8 * (a - base)) % 2 ^ 32)

def execSysrd (d : Nat) (a : Src) (s : State) : Out := sysResult d (fun s => s.sysRead (Src.word s a)) s

def execSyswr (a b : Src) (s : State) : Out :=
  done (perClass (fun s => .ok (s.writeUnit .bar0 (Src.word s a) ⟨.firmware s.cur.core, (s.reg 0 b 0).setWidth 64, 0x0F⟩) none) s)

def execTlbinv (d : Nat) (a b : Src) (s : State) : Out :=
  sysResult d (fun s =>
    let x := Src.word s b
    if bits x 31 30 ≠ 0 ∨ bits x 29 28 = 3 then (s, sysFail)
    else ((s.performTranslated none).invalidation x (bits (s.pair 0 a).toNat 51 12 * 4096), 0)) s

/-- R425: a slot mapped into its core's debug window is unmapped. -/
def State.unmap (s : State) (core slot : Nat) : State :=
  s.updCore core fun c => if c.dwinSlot = some slot then { c with dwinSlot := none } else c

def execGresume (d : Nat) (a b : Src) (s : State) : Out :=
  sysResult d (fun s =>
    let core := s.cur.core
    let slot := Src.word s a
    let mask := Src.word s b
    match s.group? core slot with
    | none => (s, sysFail)
    | some g =>
      let n := (g.lanes.zipIdx.filter fun e => bit mask e.2 && e.1.trapped).length
      ((s.unmap core slot).resumeTrap core slot mask id, n)) s

/-- Lanes of a group that end leave the clause that its pipeline performs. -/
def State.leaveIssue (s : State) (core slot : Nat) (ls : List Nat) : State :=
  let keep (i : Issue) : Issue :=
    if i.core = core ∧ i.slot = slot then { i with lanes := i.lanes.filter (fun l => !ls.contains l) } else i
  { s with issues := (s.issues.map keep).filter (fun i => !i.lanes.isEmpty) }

def execGkill (d : Nat) (a b : Src) (s : State) : Out :=
  sysResult d (fun s =>
    let core := s.cur.core
    let slot := Src.word s a
    let mask := Src.word s b
    match s.group? core slot with
    | none => (s, sysFail)
    | some g =>
      let ls := (g.lanes.zipIdx.filter fun e => bit mask e.2 && !e.1.gone).map (·.2)
      let s := ls.foldl (fun s l => s.exitLane core slot l) (s.unmap core slot)
      (s.leaveIssue core slot ls, ls.length)) s

/-- `ctxsv`. It is performed once the copies of its teams that no fault pauses have run to their ends (R161). -/
def execCtxsv (d : Nat) (a b : Src) (s : State) : Out :=
  match s.saveCore s.cur.core (Src.word s b) (s.pair 0 a).toNat with
  | .waits s => done (s.withFate .wait)
  | .saved t n => sysResult d (fun _ => (t, n)) s
  | .fails t => sysResult d (fun _ => (t, sysFail)) s

def execCtxld (d : Nat) (a b : Src) (s : State) : Out :=
  sysResult d (fun s =>
    match s.loadCore s.cur.core (Src.word s b) (s.pair 0 a).toNat with
    | .loaded s => (s, 0)
    | .fails s => (s, sysFail)) s

/-- `dwmap`. A slot that holds no group cannot be mapped, as one that holds a Ready lane cannot. -/
def execDwmap (d : Nat) (a : Src) (s : State) : Out :=
  sysResult d (fun s =>
    let core := s.cur.core
    let slot := Src.word s a
    if slot = 2 ^ 32 - 1 then (s.updCore core fun c => { c with dwinSlot := none }, 0)
    else match s.group? core slot with
      | none => (s, sysFail)
      | some g =>
        if g.lanes.any fun t => t.st == .ready then (s, sysFail)
        else (s.updCore core fun c => { c with dwinSlot := some slot }, 0)) s

/-- `idle`, R436: it completes at once while an event is pending; otherwise nothing is performed. -/
def execIdle (s : State) : Out :=
  done (if (s.coreAt s.cur.core).ctlPending then
      (s.updCore s.cur.core fun c => { c with ctlPending := false }).advance
    else s.withFate .wait)

/-! ### `CONTROL_CORE_HALT`, R450 -/

/-- The contexts with a group, a stream or a wellhead record on a core. -/
def State.contextsOn (s : State) (core : Nat) : List Nat :=
  ((s.groups.filter fun g => g.core == core).map (·.ctx)
    ++ (s.teams.filter fun t => t.stream.isSome && t.coreAt 0 == core).map (·.ctx)
    ++ (s.wells.filter fun w => w.1 == core).filterMap fun w => (s.team? w.2.team).map (·.ctx)).eraseDups

/-- A control core whose fetch meets no instruction for it: words that are none, or an address at which none can start (R246).
DESIGN CHOICE: log 70. -/
def State.strays (s : State) (core : Nat) : Bool :=
  s.ctlRuns core && (decide ((s.coreAt core).ctlPc.toNat % 4 ≠ 0) || match decodeFor .system (s.ctlWords core) with | .ok _ => false | .error _ => true)

def execControlCoreHalt (core : Nat) (s : State) : Out :=
  done (if !s.strays core then s
    else
      let ns := s.contextsOn core
      let s := s.updDie (s.physDie (dieOf core)) fun d => { d with halt := d.halt ||| BitVec.ofNat 48 (2 ^ coreOf core) }
      ns.foldl (fun s n => s.endContext n 0) s)

end Sys2Proof.Machine
end

