-- ==== Sys2Proof/Machine/Dispatch.lean ====
section
/-!
DEFINITION. The dispatch: one arm for each constructor, each a direct call of the meaning of its own.
-/
namespace Sys2Proof.Machine

def exec (i : Instr) (s : State) : Host.Outcome State Fault Refusal :=
  match i with
  | .powerGood => Sys2Proof.Machine.execPowerGood s
  | .stage1 r => Sys2Proof.Machine.execStage1 r s
  | .stage2Entry => Sys2Proof.Machine.execStage2Entry s
  | .governorInterval watts => Sys2Proof.Machine.execGovernorInterval watts s
  | .quietStepUp watts => Sys2Proof.Machine.execQuietStepUp watts s
  | .thermalInterval sensors => Sys2Proof.Machine.execThermalInterval sensors s
  | .thermRelease => Sys2Proof.Machine.execThermRelease s
  | .ucieModuleFail dieA dieB moduleNo retrained => Sys2Proof.Machine.execUcieModuleFail dieA dieB moduleNo retrained s
  | .portLinkDown p => Sys2Proof.Machine.execPortLinkDown p s
  | .vfFlr v => Sys2Proof.Machine.execVfFlr v s
  | .pfFlr p => Sys2Proof.Machine.execPfFlr p s
  | .apertureRead p f slot off n => Sys2Proof.Machine.execApertureRead p f slot off n s
  | .apertureWrite p f slot off bytes => Sys2Proof.Machine.execApertureWrite p f slot off bytes s
  | .hostAtomicop p f slot off op => Sys2Proof.Machine.execHostAtomicop p f slot off op s
  | .atsInvalidation p page count => Sys2Proof.Machine.execAtsInvalidation p page count s
  | .priGrant slot page target => Sys2Proof.Machine.execPriGrant slot page target s
  | .priRefuse slot page => Sys2Proof.Machine.execPriRefuse slot page s
  | .registerWrite bar off w => Sys2Proof.Machine.execRegisterWrite bar off w s
  | .mgmtSemAcquire by_ => Sys2Proof.Machine.execMgmtSemAcquire by_ s
  | .mgmtSemRelease w => Sys2Proof.Machine.execMgmtSemRelease w s
  | .ctxCtrlWrite n w => Sys2Proof.Machine.execCtxCtrlWrite n w s
  | .ctxRfmtabWrite n w => Sys2Proof.Machine.execCtxRfmtabWrite n w s
  | .partWinWrite p w => Sys2Proof.Machine.execPartWinWrite p w s
  | .vfMapWrite v half w => Sys2Proof.Machine.execVfMapWrite v half w s
  | .tlbInvalidate w => Sys2Proof.Machine.execTlbInvalidate w s
  | .tlbInvalidateDone p => Sys2Proof.Machine.execTlbInvalidateDone p s
  | .ctxReplay n w => Sys2Proof.Machine.execCtxReplay n w s
  | .ctxReplayFail n w => Sys2Proof.Machine.execCtxReplayFail n w s
  | .ceclr ch w => Sys2Proof.Machine.execCeclr ch w s
  | .baclr ch w => Sys2Proof.Machine.execBaclr ch w s
  | .lqCtlWrite n q w => Sys2Proof.Machine.execLqCtlWrite n q w s
  | .cancel n q w => Sys2Proof.Machine.execCancel n q w s
  | .lqTailWrite n q w => Sys2Proof.Machine.execLqTailWrite n q w s
  | .trapResume n w => Sys2Proof.Machine.execTrapResume n w s
  | .trapEnd n w => Sys2Proof.Machine.execTrapEnd n w s
  | .ctxSave n w => Sys2Proof.Machine.execCtxSave n w s
  | .saveComplete n => Sys2Proof.Machine.execSaveComplete n s
  | .ctxRestore n w => Sys2Proof.Machine.execCtxRestore n w s
  | .restoredRecordEnter core => Sys2Proof.Machine.execRestoredRecordEnter core s
  | .mboxGo p w => Sys2Proof.Machine.execMboxGo p w s
  | .getId v => Sys2Proof.Machine.execGetId v s
  | .getMeas v nonce => Sys2Proof.Machine.execGetMeas v nonce s
  | .getCert v alg off => Sys2Proof.Machine.execGetCert v alg off s
  | .fwBegin v len => Sys2Proof.Machine.execFwBegin v len s
  | .fwData v off bytes => Sys2Proof.Machine.execFwData v off bytes s
  | .fwCommit v => Sys2Proof.Machine.execFwCommit v s
  | .launchPrereqRead n q => Sys2Proof.Machine.execLaunchPrereqRead n q s
  | .prereqReread n q => Sys2Proof.Machine.execPrereqReread n q s
  | .launchRecordRead n q => Sys2Proof.Machine.execLaunchRecordRead n q s
  | .launchAccept n q => Sys2Proof.Machine.execLaunchAccept n q s
  | .teamPlace => Sys2Proof.Machine.execTeamPlace s
  | .clusterPlace => Sys2Proof.Machine.execClusterPlace s
  | .streamFetchComplete team => Sys2Proof.Machine.execStreamFetchComplete team s
  | .groupLeaveSlot core slot => Sys2Proof.Machine.execGroupLeaveSlot core slot s
  | .teamEnd team => Sys2Proof.Machine.execTeamEnd team s
  | .orderedReductionCommit launch => Sys2Proof.Machine.execOrderedReductionCommit launch s
  | .launchRetire launch => Sys2Proof.Machine.execLaunchRetire launch s
  | .clauseIssue core pipe => Sys2Proof.Machine.execClauseIssue core pipe s
  | .longLatencyComplete core slot idx => Sys2Proof.Machine.execLongLatencyComplete core slot idx s
  | .faultRecordWrite n => Sys2Proof.Machine.execFaultRecordWrite n s
  | .pageWalk core n va => Sys2Proof.Machine.execPageWalk core n va s
  | .homeSliceRequest r => Sys2Proof.Machine.execHomeSliceRequest r s
  | .ueOnWriteback pa => Sys2Proof.Machine.execUeOnWriteback pa s
  | .siphonLand team idx count => Sys2Proof.Machine.execSiphonLand team idx count s
  | .wellheadTimeout core => Sys2Proof.Machine.execWellheadTimeout core s
  | .sumpDrain n => Sys2Proof.Machine.execSumpDrain n s
  | .manifoldWindowTimeout core idx => Sys2Proof.Machine.execManifoldWindowTimeout core idx s
  | .manifoldPass core => Sys2Proof.Machine.execManifoldPass core s
  | .baLoad die channel bank slot off data => Sys2Proof.Machine.execBaLoad die channel bank slot off data s
  | .baStream r => Sys2Proof.Machine.execBaStream r s
  | .baDrain die channel bank words => Sys2Proof.Machine.execBaDrain die channel bank words s
  | .dicePatch launch die => Sys2Proof.Machine.execDicePatch launch die s
  | .gridCopyReceive launch idx => Sys2Proof.Machine.execGridCopyReceive launch idx s
  | .bucketResolve launch bucket => Sys2Proof.Machine.execBucketResolve launch bucket s
  | .bucketCommit launch bucket => Sys2Proof.Machine.execBucketCommit launch bucket s
  | .bucketSteal launch thief => Sys2Proof.Machine.execBucketSteal launch thief s
  | .cisternUe launch bucket => Sys2Proof.Machine.execCisternUe launch bucket s
  | .controlCoreHalt core => Sys2Proof.Machine.execControlCoreHalt core s
  | .nopBase => Sys2Proof.Machine.execNopBase s
  | .movBase d a => Sys2Proof.Machine.execMovBase d a s
  | .addBase d a b => Sys2Proof.Machine.execAddBase d a b s
  | .subBase d a b => Sys2Proof.Machine.execSubBase d a b s
  | .mulBase d a b => Sys2Proof.Machine.execMulBase d a b s
  | .andBase d a b => Sys2Proof.Machine.execAndBase d a b s
  | .orBase d a b => Sys2Proof.Machine.execOrBase d a b s
  | .xorBase d a b => Sys2Proof.Machine.execXorBase d a b s
  | .shlBase d a b => Sys2Proof.Machine.execShlBase d a b s
  | .shrBase d a b => Sys2Proof.Machine.execShrBase d a b s
  | .sraBase d a b => Sys2Proof.Machine.execSraBase d a b s
  | .minBase sg d a b => Sys2Proof.Machine.execMinBase sg d a b s
  | .maxBase sg d a b => Sys2Proof.Machine.execMaxBase sg d a b s
  | .icmpBase c d a b => Sys2Proof.Machine.execIcmpBase c d a b s
  | .faddBase t d a b => Sys2Proof.Machine.execFaddBase t d a b s
  | .fsubBase t d a b => Sys2Proof.Machine.execFsubBase t d a b s
  | .fmulBase t d a b => Sys2Proof.Machine.execFmulBase t d a b s
  | .fminBase t d a b => Sys2Proof.Machine.execFminBase t d a b s
  | .fmaxBase t d a b => Sys2Proof.Machine.execFmaxBase t d a b s
  | .fcmpBase c d a b => Sys2Proof.Machine.execFcmpBase c d a b s
  | .brxBase a => Sys2Proof.Machine.execBrxBase a s
  | .retBase => Sys2Proof.Machine.execRetBase s
  | .exitBase => Sys2Proof.Machine.execExitBase s
  | .brkBase => Sys2Proof.Machine.execBrkBase s
  | .braBase disp => Sys2Proof.Machine.execBraBase disp s
  | .bnzBase a disp => Sys2Proof.Machine.execBnzBase a disp s
  | .bzBase a disp => Sys2Proof.Machine.execBzBase a disp s
  | .meetBase disp => Sys2Proof.Machine.execMeetBase disp s
  | .nop => Sys2Proof.Machine.execNop s
  | .bra disp => Sys2Proof.Machine.execBra disp s
  | .bnz a disp => Sys2Proof.Machine.execBnz a disp s
  | .bz a disp => Sys2Proof.Machine.execBz a disp s
  | .brx a => Sys2Proof.Machine.execBrx a s
  | .meet disp => Sys2Proof.Machine.execMeet disp s
  | .call adv disp => Sys2Proof.Machine.execCall adv disp s
  | .calli a adv => Sys2Proof.Machine.execCalli a adv s
  | .frame n8 => Sys2Proof.Machine.execFrame n8 s
  | .ret => Sys2Proof.Machine.execRet s
  | .exit => Sys2Proof.Machine.execExit s
  | .refill d disp => Sys2Proof.Machine.execRefill d disp s
  | .brk code => Sys2Proof.Machine.execBrk code s
  | .wrs r a => Sys2Proof.Machine.execWrs r a s
  | .part a => Sys2Proof.Machine.execPart a s
  | .add t d a b => Sys2Proof.Machine.execAdd t d a b s
  | .sub t d a b => Sys2Proof.Machine.execSub t d a b s
  | .mul t d a b => Sys2Proof.Machine.execMul t d a b s
  | .mulhi t d a b => Sys2Proof.Machine.execMulhi t d a b s
  | .mulw t d a b => Sys2Proof.Machine.execMulw t d a b s
  | .mad t d a b c => Sys2Proof.Machine.execMad t d a b c s
  | .adds t d a b => Sys2Proof.Machine.execAdds t d a b s
  | .subs t d a b => Sys2Proof.Machine.execSubs t d a b s
  | .abs t d a => Sys2Proof.Machine.execAbs t d a s
  | .min t d a b => Sys2Proof.Machine.execMin t d a b s
  | .max t d a b => Sys2Proof.Machine.execMax t d a b s
  | .and t d a b => Sys2Proof.Machine.execAnd t d a b s
  | .or t d a b => Sys2Proof.Machine.execOr t d a b s
  | .xor t d a b => Sys2Proof.Machine.execXor t d a b s
  | .not t d a => Sys2Proof.Machine.execNot t d a s
  | .shl t d a b => Sys2Proof.Machine.execShl t d a b s
  | .shr t d a b => Sys2Proof.Machine.execShr t d a b s
  | .sra t d a b => Sys2Proof.Machine.execSra t d a b s
  | .rotl t d a b => Sys2Proof.Machine.execRotl t d a b s
  | .popc t d a => Sys2Proof.Machine.execPopc t d a s
  | .clz t d a => Sys2Proof.Machine.execClz t d a s
  | .ctz t d a => Sys2Proof.Machine.execCtz t d a s
  | .brev t d a => Sys2Proof.Machine.execBrev t d a s
  | .bfe t d a pos widthM1 => Sys2Proof.Machine.execBfe t d a pos widthM1 s
  | .bfi t d a b pos widthM1 => Sys2Proof.Machine.execBfi t d a b pos widthM1 s
  | .icmp t c d a b => Sys2Proof.Machine.execIcmp t c d a b s
  | .sel t d a b c => Sys2Proof.Machine.execSel t d a b c s
  | .lea t d a b sh => Sys2Proof.Machine.execLea t d a b sh s
  | .mov t d a => Sys2Proof.Machine.execMov t d a s
  | .div t d a b f => Sys2Proof.Machine.execDiv t d a b f s
  | .rds d r => Sys2Proof.Machine.execRds d r s
  | .fadd t r d a b => Sys2Proof.Machine.execFadd t r d a b s
  | .fsub t r d a b => Sys2Proof.Machine.execFsub t r d a b s
  | .fmul t r d a b => Sys2Proof.Machine.execFmul t r d a b s
  | .ffma t r d a b c => Sys2Proof.Machine.execFfma t r d a b c s
  | .fmin t d a b => Sys2Proof.Machine.execFmin t d a b s
  | .fmax t d a b => Sys2Proof.Machine.execFmax t d a b s
  | .fabs t d a => Sys2Proof.Machine.execFabs t d a s
  | .fneg t d a => Sys2Proof.Machine.execFneg t d a s
  | .fcmp t c d a b => Sys2Proof.Machine.execFcmp t c d a b s
  | .frnd t r d a => Sys2Proof.Machine.execFrnd t r d a s
  | .fclass t d a => Sys2Proof.Machine.execFclass t d a s
  | .lerp t r d a b c => Sys2Proof.Machine.execLerp t r d a b c s
  | .fdot2 t d a b c => Sys2Proof.Machine.execFdot2 t d a b c s
  | .cvt to_ from_ r d a => Sys2Proof.Machine.execCvt to_ from_ r d a s
  | .cvtfi to_ from_ r d a => Sys2Proof.Machine.execCvtfi to_ from_ r d a s
  | .cvtif to_ from_ r d a => Sys2Proof.Machine.execCvtif to_ from_ r d a s
  | .rcp t d a => Sys2Proof.Machine.execRcp t d a s
  | .rsqrt t d a => Sys2Proof.Machine.execRsqrt t d a s
  | .sqrt t d a => Sys2Proof.Machine.execSqrt t d a s
  | .exp2 t d a => Sys2Proof.Machine.execExp2 t d a s
  | .log2 t d a => Sys2Proof.Machine.execLog2 t d a s
  | .sincospi t d a => Sys2Proof.Machine.execSincospi t d a s
  | .tanh t d a => Sys2Proof.Machine.execTanh t d a s
  | .vote k d a => Sys2Proof.Machine.execVote k d a s
  | .matchLanes t d a => Sys2Proof.Machine.execMatchLanes t d a s
  | .shfl t m d a b => Sys2Proof.Machine.execShfl t m d a b s
  | .tred t op d a => Sys2Proof.Machine.execTred t op d a s
  | .tscan t op excl d a => Sys2Proof.Machine.execTscan t op excl d a s
  | .hrand d a b => Sys2Proof.Machine.execHrand d a b s
  | .texf t k level d a b f => Sys2Proof.Machine.execTexf t k level d a b f s
  | .ld t o h d a off f => Sys2Proof.Machine.execLd t o h d a off f s
  | .st t o h a off b => Sys2Proof.Machine.execSt t o h a off b s
  | .ldt t h d a off f => Sys2Proof.Machine.execLdt t h d a off f s
  | .ldsp t o d a off f => Sys2Proof.Machine.execLdsp t o d a off f s
  | .stsp t o a off b => Sys2Proof.Machine.execStsp t o a off b s
  | .atom op t o sc h d a off b c f => Sys2Proof.Machine.execAtom op t o sc h d a off b c f s
  | .redOrd op t h a off b => Sys2Proof.Machine.execRedOrd op t h a off b s
  | .fence o sc => Sys2Proof.Machine.execFence o sc s
  | .binit a b => Sys2Proof.Machine.execBinit a b s
  | .barrive d a => Sys2Proof.Machine.execBarrive d a s
  | .waitph a b => Sys2Proof.Machine.execWaitph a b s
  | .rres d a => Sys2Proof.Machine.execRres d a s
  | .rpub a b => Sys2Proof.Machine.execRpub a b s
  | .racq d a => Sys2Proof.Machine.execRacq d a s
  | .rrel a b => Sys2Proof.Machine.execRrel a b s
  | .siph a => Sys2Proof.Machine.execSiph a s
  | .tspawn d a b c => Sys2Proof.Machine.execTspawn d a b c s
  | .garrive => Sys2Proof.Machine.execGarrive s
  | .rtrace any cullB cullF d a b f => Sys2Proof.Machine.execRtrace any cullB cullF d a b f s
  | .gemit cull a b => Sys2Proof.Machine.execGemit cull a b s
  | .accrd t r d tile row f => Sys2Proof.Machine.execAccrd t r d tile row f s
  | .accsp t r a tile row => Sys2Proof.Machine.execAccsp t r a tile row s
  | .accwr t a tile row => Sys2Proof.Machine.execAccwr t a tile row s
  | .neval t nin nout d a b f => Sys2Proof.Machine.execNeval t nin nout d a b f s
  | .mvx t h nrc nvM1 d a b c f => Sys2Proof.Machine.execMvx t h nrc nvM1 d a b c f s
  | .mvxa t h nrc nvM1 d a b c f => Sys2Proof.Machine.execMvxa t h nrc nvM1 d a b c f s
  | .mvxs t h nrc nvM1 d a b c f => Sys2Proof.Machine.execMvxs t h nrc nvM1 d a b c f s
  | .mnop => Sys2Proof.Machine.execMnop s
  | .mset d x => Sys2Proof.Machine.execMset d x s
  | .maddi d a i0 => Sys2Proof.Machine.execMaddi d a i0 s
  | .mloop l a => Sys2Proof.Machine.execMloop l a s
  | .mnext l => Sys2Proof.Machine.execMnext l s
  | .mwait n a => Sys2Proof.Machine.execMwait n a s
  | .marr n => Sys2Proof.Machine.execMarr n s
  | .macq d a => Sys2Proof.Machine.execMacq d a s
  | .mrel a b => Sys2Proof.Machine.execMrel a b s
  | .mzero tile => Sys2Proof.Machine.execMzero tile s
  | .mmul t scl kv tile a b => Sys2Proof.Machine.execMmul t scl kv tile a b s
  | .mmulb t scl kv tile a b => Sys2Proof.Machine.execMmulb t scl kv tile a b s
  | .mstop => Sys2Proof.Machine.execMstop s
  | .sysrd d a => Sys2Proof.Machine.execSysrd d a s
  | .syswr a b => Sys2Proof.Machine.execSyswr a b s
  | .tlbinv d a b => Sys2Proof.Machine.execTlbinv d a b s
  | .gresume d a b => Sys2Proof.Machine.execGresume d a b s
  | .gkill d a b => Sys2Proof.Machine.execGkill d a b s
  | .ctxsv d a b => Sys2Proof.Machine.execCtxsv d a b s
  | .ctxld d a b => Sys2Proof.Machine.execCtxld d a b s
  | .dwmap d a => Sys2Proof.Machine.execDwmap d a s
  | .idle => Sys2Proof.Machine.execIdle s
  | .powerRemoved => Sys2Proof.Machine.execPowerRemoved s

end Sys2Proof.Machine
end

