-- ==== Sys2Proof/Machine/Cycle.lean ====
section
/-!
DEFINITION. What a step does around `exec`: the agent that moves takes its next instruction, performs it, and its clause
goes on or ends (R174, R415, R416); after every step the meetings of R185, the grid barriers of R225
and the ends of streams of R200 are judged. The moves that are no rows of
the opcode table stand here too: time, the early landing of results (R182), the caches of code and translation, and
uncorrectable errors (R79).
-/
namespace Sys2Proof.Machine

/-! ### Meetings, R185 and R186 -/

/-- The threads held at address `m` that are released when no thread with that meeting address is elsewhere. -/
def Group.releases (g : Group) (m : DWord) : Bool :=
  g.lanes.all fun t => t.gone || t.judged.2 != m || (t.st == .heldMeet && t.judged.1 == m)

def Group.release (g : Group) : Group :=
  if g.lanes.all fun t => t.st != .heldMeet then g
  else { g with lanes := g.lanes.map fun t =>
    if t.st = .heldMeet ∧ g.releases t.judged.1 then { t with st := .ready } else t }

/-- A thread held on a phase of a barrier object that has completed. -/
def Lane.passes (done : Nat → Nat → Bool) (t : Lane) : Bool :=
  match t.hold with
  | .phase off p _ => t.st == .heldWait && done off p.toNat
  | _ => false

/-- Such a thread goes on, into the grid barrier if it is marked (R147, R338, R343); its fall-through is an arrival (R185). -/
def Lane.passPhase (done : Nat → Nat → Bool) (t : Lane) : Lane :=
  match t.hold with
  | .phase off p next =>
    if t.st = .heldWait ∧ done off p.toNat then
      (if t.mark then Lane.goTo next { t with hold := .grid, mark := false, mid := none }
       else Lane.arrive (Lane.goTo next { t with st := .ready, hold := .none, mid := none }))
    else t
  | _ => t

def Group.holds (g : Group) : Bool :=
  g.lanes.any fun t => t.st == .heldWait && (match t.hold with | .phase _ _ _ => true | _ => false)

/-- DEDUCED: log 59. -/
def State.passPhases (s : State) (g : Group) : Group :=
  if !g.holds then g
  else match s.team? g.team with
    | none => g
    | some t => { g with lanes := g.lanes.map (Lane.passPhase fun off p => (t.bar off).passed p) }

/-- The groups of which a thread goes on past a `waitph`, which is then performed: it acquires (R123, R60). -/
def State.passing (s : State) (g : Group) : Bool :=
  match s.team? g.team with
  | none => false
  | some t => g.lanes.any (Lane.passes fun off p => (t.bar off).passed p)

/-- The lowest thread of a group that is held on a barrier object whose bytes hold an uncorrectable error. -/
def State.spoiled (s : State) (g : Group) : Option Nat :=
  match s.team? g.team with
  | none => none
  | some t => (List.range 32).find? fun l => match (g.lane l).hold with
    | .phase off _ _ => (g.lane l).st == .heldWait && t.spadError off 16
    | _ => false

/-- R79: such a thread, which reads the object, takes the trap at its `waitph`. -/
def State.trapSpoiled (s : State) : State :=
  (s.groups.filter fun g => (s.spoiled g).isSome).foldl (fun s g => match s.spoiled g with
    | some l => s.takeTrap g.core g.slot [l] (g.lane l).pc 0 memError 0
    | none => s) s

/-- The thread of a store held back has left its lane or is stopped, or its context is being saved (R432). -/
def State.storeLeft (s : State) (b : HeldByte) : Bool :=
  (s.ctxAt b.ctx).saving || match s.group? b.core b.slot with
    | none => true
    | some g => (g.lane b.lane).gone || (g.lane b.lane).st == .stopped

/-- Such stores are performed, with what goes before them.
DESIGN CHOICE: log 4. -/
def State.performLeft (s : State) : State :=
  if s.stores.isEmpty then s
  else
    let left := s.stores.filter s.storeLeft
    s.perform? fun b => left.any fun c => s.before c.core c.slot [c.lane] b

/-- Judged after every step.
DEDUCED: log 59. DESIGN CHOICE: log 4. -/
def State.settle (s : State) : State :=
  let s := s.trapSpoiled.performLeft
  let s := (s.groups.filter s.passing).foldl (fun s g => s.acquire g.core) s
  let s := { s with groups := s.groups.map s.passPhases, cur := Cur.reset }
  let s := s.launches.foldl (fun s l => s.openGrid l.id) s
  State.endStreams { s with groups := s.groups.map Group.release }

def andSettle : Out → Out
  | .next s => .next s.settle
  | .fault f => .fault f
  | .refused r => .refused r

/-! ### A lane pipeline's next instruction -/

/-- A thread at the end of its clause: it enters the grid barrier if it is marked (R343), else it arrives where its
meeting address says (R185). A thread that its `waitph` holds stands at that instruction until the phase completes
(R148), and keeps its mark. -/
def Lane.endClause (here : Mid) (t : Lane) : Lane :=
  if t.st = .ready then
    (if t.mark then { t with st := .heldWait, hold := .grid, mark := false } else t.arrive)
  else if t.st = .heldWait then { t with mid := some here }
  else { t with mark := false }

def Issue.here (i : Issue) : Mid := ⟨i.left, i.wait, i.setA, i.setB⟩

/-- The clause of a pipeline goes on with its next instruction, or ends. -/
def State.clauseGoesOn (s : State) (i : Issue) (rest : List Word) : State :=
  if i.left ≤ 1 then
    { (s.updGroup i.core i.slot fun g => g.updLanes i.lanes (Lane.endClause i.here)) with
      issues := s.issues.filter fun j => !(j.core == i.core && j.pipe == i.pipe) }
  else
    { s with issues := s.issues.map fun j =>
        if j.core == i.core && j.pipe == i.pipe then
          { j with words := rest, left := i.left - 1, pc := s.cur.next } else j }

/-- R415, R416: the clause ends at a trap. Threads stopped before the instruction keep what is left of the clause from
it on, threads that performed it what follows it. -/
def State.clauseSplits (s : State) (i : Issue) : State :=
  let s := s.updGroup i.core i.slot fun g => g.updLanes i.lanes fun t =>
    if t.st = .stopped then { t with mid := some i.here }
    else if i.left ≤ 1 then t.endClause i.here
    else if t.st = .ready then { t with mid := some { i.here with left := i.left - 1 } }
    else t
  { s with
    issues := s.issues.filter fun j => !(j.core == i.core && j.pipe == i.pipe)
    misses := leaveWalks (fun m x => m.ended && m.core == i.core && x.1 == i.slot && i.lanes.contains x.2) s.misses }

/-- Instructions before which the stores that their threads hold back need not be performed: plain loads and stores, which see them; the
fences by which no earlier store precedes another group's load (R118, R119); and those that touch no memory, window, tile or engine
and end no thread. -/
def Instr.passesStores : Instr → Bool
  | .ld _ o .. => !o.strong
  | .st _ o .. => !o.strong
  | .ldsp _ o .. => !o.strong
  | .stsp _ o .. => !o.strong
  | .fence o sc => o != .sc || sc == .grp
  | .ldt .. => false | .atom .. => false | .redOrd .. => false | .texf .. => false | .rtrace .. => false | .gemit .. => false
  | .neval .. => false | .mvx .. => false | .mvxa .. => false | .mvxs .. => false | .siph .. => false | .tspawn .. => false
  | .binit .. => false | .barrive .. => false | .waitph .. => false | .rres .. => false | .rpub .. => false | .racq .. => false
  | .rrel .. => false | .accrd .. => false | .accsp .. => false | .accwr .. => false | .garrive => false | .refill .. => false
  | .exit => false | .exitBase => false
  | _ => true

/-- The stores held back that must be performed before a class performs an instruction. -/
def State.storesFirst (s : State) (i : Issue) (ins : Instr) : Bool :=
  !Instr.passesStores ins && s.stores.any (s.before i.core i.slot i.lanes)

/-- The next instruction of the clause on a lane pipeline. One that comes after a texture read in program order waits while that
read has still to obtain its values (R115, R117). Where stores held back must precede it, the move performs them, and the next one the
instruction. -/
def State.stepLane (s : State) (core pipe : Nat) : Out :=
  if s.stage = .halted then .next s
  else match s.issues.find? fun i => i.core == core && i.pipe == pipe with
  | none => .next s
  | some i =>
    let cur : Cur := { who := .lanes, core, slot := i.slot, lanes := i.lanes, pc := i.pc, next := i.pc,
                       setA := i.setA, setB := i.setB, delay := i.delay || s.stores.any fun b => b.of i.core i.slot }
    match decodeFor .lane i.words with
    | .error e => .next (({ s with cur }.split i.lanes { cause := .illegalInstr, detail := e.code }).clauseSplits i)
    | .ok (ins, rest) =>
      if Instr.ordered ins && s.unread i.core i.slot i.lanes then .next s
      else if s.storesFirst i ins then .next (s.perform? (s.before i.core i.slot i.lanes))
      else
      let next := i.pc + BitVec.ofNat 64 (4 * (i.words.length - rest.length))
      match exec ins { s with cur := { cur with next } } with
      | .next s =>
        .next (if (s.group? i.core i.slot).isNone then s
          else match s.cur.fate with
            | .wait => s
            | .go => s.clauseGoesOn i rest
            | .split => s.clauseSplits i)
      | o => o

/-! ### A matrix stream's and a control core's next instruction -/

/-- R197, R348: the next instruction of a running stream. `cur.slot` names the team and `cur.next` the word after the
instruction. Its instructions start at multiples of 4 (R246).
DESIGN CHOICE: log 70. -/
def State.stepStream (s : State) (team : Nat) : Out :=
  if s.stage = .halted then .next s
  else match s.team? team with
  | none => .next s
  | some t => match t.stream with
    | none => .next s
    | some m =>
      if (m.st != .running && m.st != .held) || (s.ctxAt t.ctx).saving then .next s
      else if m.entry.toNat % 4 ≠ 0 then .next (s.streamTrap t.id { cause := .illegalInstr, detail := 7 })
      else match decodeFor .stream (m.words.drop m.pos) with
        | .error e => .next (s.streamTrap t.id { cause := .illegalInstr, detail := e.code })
        | .ok (ins, rest) =>
          exec ins { s with cur := { who := .stream, core := t.coreAt 0, slot := team, lanes := [],
                                     pc := BitVec.ofNat 64 m.idx,
                                     next := BitVec.ofNat 64 (m.words.length - rest.length) } }

/-- R372: the next instruction of a control core, from its own code; one that is no instruction for it halts it
(R450), and so does a program counter at which none can start (R246).
DESIGN CHOICE: log 70. -/
def State.stepControl (s : State) (core : Nat) : Out :=
  if !s.ctlRuns core then .next s
  else if (s.coreAt core).ctlPc.toNat % 4 ≠ 0 then exec (.controlCoreHalt core) s
  else
    let words := s.ctlWords core
    match decodeFor .system words with
    | .error _ => exec (.controlCoreHalt core) s
    | .ok (ins, rest) =>
      let pc := (s.coreAt core).ctlPc
      exec ins { s with cur := { who := .control, core, slot := 0, lanes := [], pc,
                                 next := pc + BitVec.ofNat 64 (4 * (words.length - rest.length)) } }

/-! ### Moves that are no rows of the table -/

/-- A register result of an outstanding issue lands before its completion (R182), or its status bits are read early (R241): the issue
ORs them in when it completes as well. -/
def State.land (s : State) (core slot idx n : Nat) : State :=
  s.updGroup core slot fun g =>
    match g.pend[idx]? with
    | none => g
    | some p =>
      match p.writes[n]? with
      | some (l, k, x) =>
        { (g.updLane l fun t => { t with slots := t.slots.set k x, bad := t.bad.filter fun b => b ≠ k }) with
          pend := updAt g.pend idx fun p => { p with writes := p.writes.eraseIdx n } }
      | none => { g with fstat := g.fstat ||| p.fstat }

/-- A line of code enters a core's instruction cache, of which a set holds 4 (R49), through L2, or leaves it (R58). A line with an
uncorrectable error does not enter.
DESIGN CHOICE: log 62. -/
def State.codeLine (s : State) (core ctx va : Nat) : State :=
  match s.translate ctx { kind := .fetch, core } va with
  | .ok p leaf =>
    let key := p.line
    if s.lines.any fun l => l.core == core && (l.loc, l.addr) == key then
      { s with lines := s.lines.filter fun l => !(l.core == core && (l.loc, l.addr) == key) }
    else
      let base : Place := match p with | .dev a => .dev (a / 128 * 128) | .sys q a => .sys q (a / 128 * 128)
      let set (a : Nat) : Nat := a / 128 % (Config.codeLines / Config.codeWays)
      let t := (s.tableReads ctx { kind := .fetch, core } va 1).homeRuns false [(some base, 128, leaf)]
      if (s.ueIn base 128).isSome then s
      else { t with lines := capped (fun l => l.core == core && set l.addr == set key.2) Config.codeWays
                               (⟨core, key.1, key.2, s.rdBytes base 128⟩ :: t.lines) }
  | _ => s

/-- A cached translation leaves its cache (R33). -/
def State.evict (s : State) (unit vbase : Nat) : State :=
  { s with
    tlb := s.tlb.filter fun e => !(e.unit == unit && e.vbase == vbase)
    aptc := s.aptc.filter fun e => !(e.unit == unit && e.vbase == vbase)
    walk := s.walk.filter fun e => !(e.die == unit && e.vbase == vbase) }

/-- A single-bit error in a block of device memory (R71): two in one block are an uncorrectable error. -/
def State.singleBit (s : State) (pa : Nat) : State :=
  let b := pa / 64 * 64
  if s.memBytes ≤ pa then s
  else if s.ce.contains b then { s with ce := s.ce.filter (fun x => x != b), ue := b :: s.ue }
  else { s with ce := b :: s.ce }

/-- An uncorrectable error in a sector that L2 holds of system memory (R79). -/
def State.hostMemoryError (s : State) (port a : Nat) : State :=
  let k := sysKey port a
  if s.l2.any fun e => e.key == (1, k / 128) then { s with sysUe := (k / 32 * 32) :: s.sysUe } else s

/-- A sector of L1 is not consulted any more (R60). -/
def State.dropSector (s : State) (core memory sector : Nat) : State :=
  { s with l1 := s.l1.filter fun e => !(e.core == core && e.key == (memory, sector)) }

/-- A parity error of a bank's arithmetic unit (R76, R79). -/
def State.unitError (s : State) (channel device bank : Nat) : State :=
  if s.hasUnit channel bank && decide (device < 2) then s.setUnit { s.unit channel device bank with parity := true } else s

/-- The words of 8 bytes of which a group holds stores back (R109). -/
def State.heldWords (s : State) (core slot : Nat) : List (Nat × Nat) :=
  ((s.stores.filter fun b => b.of core slot).map HeldByte.word).eraseDups

/-- What a group holds back of one word is performed (R109, R119). -/
def State.performWord (s : State) (core slot k : Nat) : State :=
  match (s.heldWords core slot)[k]? with
  | none => s
  | some w => s.perform? fun b => b.of core slot && b.word == w

/-- The plain stores of a clause are held back from now on (R119, R331). -/
def State.holdBack (s : State) (core pipe : Nat) : State :=
  { s with issues := s.issues.map fun i => if i.core == core && i.pipe == pipe then { i with delay := true } else i }

/-- A move that is no instruction.
DESIGN CHOICE: log 9. DESIGN CHOICE: log 11. -/
def State.otherAct (s : State) : Act → State
  | .land core slot idx n => s.land core slot idx n
  | .tick core n => s.updCore core fun c => { c with clk := c.clk + BitVec.ofNat 64 n }
  | .elapse n => { s with us := s.us + n }
  | .evictTlb unit vbase => s.evict unit vbase
  | .codeLine core ctx va => s.codeLine core ctx va
  | .regions n => s.readUnread n
  | .ats die ctx page target => s.answerAts die ctx page target
  | .singleBit pa => s.singleBit pa
  | .hostMemoryError port a => s.hostMemoryError port a
  | .evictLine memory line => s.evictLine (memory, line)
  | .dropSector core memory sector => s.dropSector core memory sector
  | .unitError channel device bank => s.unitError channel device bank
  | .uniformError core slot i => s.updGroup core slot fun g => if i < 192 then { g with badUni := i :: g.badUni } else g
  | .memoryError pa => if pa < s.memBytes then { s with ue := (pa / 64 * 64) :: s.ue } else s
  | .registerError core slot l i =>
    s.updGroup core slot fun g => g.updLane l fun t => if i < t.wb + t.f then { t with bad := i :: t.bad } else t
  | .windowError team off =>
    s.updTeam team fun t => if t.inWindow off 1 then { t with badSpad := off :: t.badSpad } else t
  | .tileError team cell =>
    s.updTeam team fun t => if cell / 4096 < t.tiles then { t with badAcc := cell :: t.badAcc } else t
  | .placeSaved n => s.goOnRestoring n
  | .progress launch => s.tellProgress launch
  | .message v code => s.unknownMessage v code
  | .hostRead by_ bar off n => s.hostRead by_ bar off n
  | .delayStores core pipe => s.holdBack core pipe
  | .performStores core slot k => s.performWord core slot k
  | _ => s

/-- One move.
DESIGN CHOICE: log 6. -/
def runAct (a : Act) (s : State) : Out :=
  andSettle (match a with
    | .event i => if i.isEvent then exec i s else .next s
    | .lane core pipe => s.stepLane core pipe
    | .stream team => s.stepStream team
    | .control core => s.stepControl core
    | a => .next (s.otherAct a))

/-! ### Moves of the device's own accord -/

/-- The moves of a launch's dicers, buckets and commits. -/
def State.renderActs (s : State) : List Act :=
  (s.launches.map fun l => match l.render with
    | none => []
    | some r =>
      (r.buckets.map fun b => Act.event (.bucketCommit l.id b.id))
        ++ ((List.range r.flight.length).map fun k => Act.event (.gridCopyReceive l.id k))
        ++ (r.buckets.map fun b => Act.event (.bucketResolve l.id b.id))
        ++ ((List.range 4).map fun d => Act.event (.dicePatch l.id d))).flatten

/-- The moves that the device makes when none is appointed, in the order in which they are tried.
DESIGN CHOICE: log 5. DESIGN CHOICE: log 9. -/
def State.ownActs (s : State) : List Act :=
  let ctxs := (List.range Config.contextSlots).filter fun n => (s.ctxAt n).en
  let saved := (List.range Config.contextSlots).filter fun n => (s.ctxAt n).busy || s.saves.any fun v => v.ctx == n
  let qs := (ctxs.map fun n => ((List.range 4).filter fun q => ((s.ctxAt n).lq.getD q {}).en).map fun q => (n, q)).flatten
  (s.issues.map fun i => .lane i.core i.pipe)
    ++ (s.teams.map fun t => .event (.streamFetchComplete t.id))
    ++ (s.groups.map fun g => .event (.groupLeaveSlot g.core g.slot))
    ++ (s.groups.map fun g => .event (.clauseIssue g.core (g.slot / 4)))
    ++ (s.teams.map fun t => .stream t.id)
    ++ ((s.groups.map fun g => (List.range g.pend.length).map fun k =>
          Act.event (.longLatencyComplete g.core g.slot k)).flatten)
    ++ ((s.teams.map fun t => (List.range ((s.copies.filter fun c => c.team == t.id).length)).map fun k =>
          Act.event (.siphonLand t.id k 1)).flatten)
    ++ (s.windows.map fun w => .event (.manifoldPass w.core))
    ++ s.renderActs
    ++ (s.teams.map fun t => .event (.teamEnd t.id))
    ++ (s.launches.map fun l => .event (.orderedReductionCommit l.id))
    ++ (s.launches.map fun l => .event (.launchRetire l.id))
    ++ (ctxs.map fun n => .event (.faultRecordWrite n))
    ++ (s.launches.map fun l => .progress l.id)
    ++ (saved.map fun n => .event (.saveComplete n))
    ++ (saved.map fun n => .placeSaved n)
    ++ ((ctxs.filter fun n => (s.ctxAt n).unread ≠ []).map fun n => .regions n)
    ++ ((s.saves.map fun v => v.tasks.map (·.1)).flatten.eraseDups.map fun c => .event (.restoredRecordEnter c))
    ++ ((s.misses.filter fun m => !m.ended).map fun m => .event (.pageWalk m.core m.ctx (BitVec.ofNat 64 (m.page * 4096))))
    ++ (qs.map fun e => .event (.launchPrereqRead e.1 e.2))
    ++ (qs.map fun e => .event (.prereqReread e.1 e.2))
    ++ (qs.map fun e => .event (.launchRecordRead e.1 e.2))
    ++ (qs.map fun e => .event (.launchAccept e.1 e.2))
    ++ [.event .teamPlace, .event .clusterPlace]
    ++ (ctxs.map fun n => .event (.sumpDrain n))
    ++ [.event .thermRelease, .event (.tlbInvalidateDone .a), .event (.tlbInvalidateDone .b)]
    ++ ((s.wells.map (·.1)).eraseDups.map fun c => .event (.wellheadTimeout c))
    ++ (s.windows.zipIdx.map fun w => .event (.manifoldWindowTimeout w.1.core w.2))
    ++ (((s.wells.filter fun w => (s.team? w.2.team).isSome).map (·.1)).eraseDups.map fun c => .tick c Config.wellheadCycles)
    ++ (((s.windows.filter fun w => !w.closed).map (·.core)).eraseDups.map fun c => .tick c (s.windowCycles c))
    ++ ((s.stores.take 1).map fun b => .performStores b.core b.slot 0)

def actsFirst (s : State) : List Act → Out
  | [] => .next s
  | a :: rest =>
    match runAct a s with
    | .next s' => if s' = s then actsFirst s rest else .next s'
    | o => o

/-- A step: the next appointed move, or the first of the device's own moves that changes anything.
DESIGN CHOICE: log 5. -/
def cycle (s : State) : Out :=
  match s.agenda with
  | a :: rest => runAct a { s with agenda := rest }
  | [] => actsFirst s s.ownActs

end Sys2Proof.Machine
end

