-- ==== Sys2Proof/Machine/Load.lean ====
section
/-!
DEFINITION. A device brought to the point where one instruction is the next to be performed: Stage 2 reached, context 0
enabled, one team of one group placed on core 0 by a launch, and the words in the hands of the agent that performs
instructions of their kind (a lane pipeline, the team's matrix stream, or core 0's control core).
-/
namespace Sys2Proof.Machine

/-- A role with the largest frame. -/
def loadedRole : Role := { entry := 0x10000, cont := 0x10000, g := 1, b := 1024, task := false, k := 0, d := 0 }

def loadedGroup : Group :=
  { core := 0, slot := 0, ctx := 0, team := 0, role := 0, index := 0, lanes := [Lane.start 0x1000C 1024] }

def loadedTeam (words : List Word) : Team :=
  { id := 0, ctx := 0, launch := 0, no := 0, cores := [0], logical := 0, spsize := 65536, tiles := 64, barbase := 0,
    roles := [loadedRole], slots := [(0, 0, 0)], det := false
    stream := some { entry := 0x20000, len := 1, words, st := .running } }

def loadedIssue (words : List Word) : Issue :=
  { core := 0, pipe := 0, slot := 0, lanes := [0], pc := 0x1000C, words, left := 1, wait := 0, setA := 0, setB := 1 }

/-- The agent that performs the instruction at the head of a word sequence; a lane where none does. -/
def agentOf (words : List Word) : Act :=
  match decodeFor .lane words with
  | .ok _ => .lane 0 0
  | .error _ => match decodeFor .stream words with
    | .ok _ => .stream 0
    | .error _ => match decodeFor .system words with
      | .ok _ => .control 0
      | .error _ => .lane 0 0

/-- The bytes of words, each little-endian, the first lowest (R246). -/
def wordBytes (ws : List Word) : List Byte := (ws.map fun w => leBytes w.toNat 4).flatten

/-- The device with the words placed where the next step takes its instruction.
DESIGN CHOICE: log 7. -/
def State.loaded (s : State) (words : List Word) : State :=
  { s with
    powered := true, stage := .stage2
    ctx := updAt s.ctx 0 fun c => { c with ctrl := 0x80000000#32 }
    launches := [{ id := 0, ctx := 0, queue := 0, record := [], table := [], accepted := 0, placed := 1 }]
    teams := [loadedTeam words]
    groups := [loadedGroup]
    issues := [loadedIssue words]
    code := Store.setAll [] 0 (wordBytes words)
    agenda := [agentOf words]
    ids := 1 }

end Sys2Proof.Machine
end

