-- ==== Sys2Proof/Machine/Step.lean ====
section
/-!
DEFINITION. One step of the device, and how an instruction is placed where the next step runs it.
-/
namespace Sys2Proof.Machine

def step (s : State) : Host.Outcome State Fault Refusal := cycle s

/-- The state with an instruction's words where the next step takes them.
DESIGN CHOICE: log 7. -/
def State.withFetchWord (s : State) (nbits w : Nat) : State := s.loaded (tableWords nbits w)

end Sys2Proof.Machine
end

