-- ==== Sys2Proof/Safety.lean ====
section
/-!
DEFINITION. The terms in which statements speak of the machine: when a class stands ready to perform an instruction, what
"every thread of the class" and "once for the class" do to the state, and what "nothing else changed" says.
-/
namespace Sys2Proof.Machine

/-- A thread that R190, R79 and R194 let perform the instruction. -/
def State.sound (s : State) (l : Nat) (i : Instr) : Prop := (s.lane l).inFrame i.vecRegs = true ∧ s.meetsError l i = false

/-- A class of lanes stands before the instruction (R173, R174), and every thread of it may perform it. -/
def State.classReady (s : State) (i : Instr) : Prop :=
  s.cur.who = .lanes ∧ s.cur.lanes ≠ [] ∧ s.cur.lanes.Nodup ∧
    ∃ g, s.grp = some g ∧ ∀ l ∈ s.cur.lanes, l < g.lanes.length ∧ s.sound l i

/-- Registers from `d` on written in one thread. -/
def Lane.setVs (t : Lane) (d : Nat) : List Word → Lane
  | [] => t
  | x :: xs => (t.setV d x).setVs (d + 1) xs

/-- A thread gone on to an address. -/
def Lane.passed (pc : DWord) (t : Lane) : Lane := { t with pc, noWatch := false }

/-- The class has performed, each thread changed as `f` says, and nothing else is changed. -/
def State.eachLane (s : State) (f : Nat → Lane → Lane) : State :=
  (s.updGrp fun g => { g with lanes := g.lanes.mapIdx fun l t => if l ∈ s.cur.lanes then f l t else t }).withFate .go

/-- The class, or the control core, has performed once: `f` is the effect, and all of it goes on to the next instruction. -/
def State.once (s : State) (f : State → State) : State := (f s).advance

/-- Each thread of a class performs in ascending lane order (R174): `f` answers the state after a thread's effect, with the
address it goes to where that is not the next instruction. None where a thread may not perform. -/
def State.inOrder (i : Instr) (f : State → Nat → Option (State × Option DWord)) : List Nat → State → Option State
  | [], s => some (s.withFate .go)
  | l :: ls, s =>
    if (s.lane l).inFrame i.vecRegs && !s.meetsError l i then
      match f s l with
      | some (s', to_) => State.inOrder i f ls (s'.setPc l (to_.getD s.cur.next))
      | none => none
    else none

/-- The issue of a long-latency instruction by the threads of a class in ascending order (R174, R181): `f` answers the state
after a thread's issue, the registers still to be written with their values, and status bits. What is gathered is the state, the
writes as (lane, stack slot, value), and the bits. -/
def State.issueOrder (i : Instr) (f : State → Nat → Option (State × List (Nat × Word) × Nat)) :
    List Nat → State → Option (State × List (Nat × Nat × Word) × Nat)
  | [], s => some (s, [], 0)
  | l :: ls, s =>
    if (s.lane l).inFrame i.vecRegs && !s.meetsError l i then
      match f s l with
      | none => none
      | some (s', rs, k) =>
        match State.issueOrder i f ls (s'.setPc l s.cur.next) with
        | none => none
        | some (t, ws, fl) => some (t, (rs.map fun r => (l, (s.lane l).wb + r.1, r.2)) ++ ws, k ||| fl)
    else none

/-- The issue stands outstanding on its flag (R181), and the class has performed. -/
def State.issued (t : State) (s : State) (f : Nat) (work : Work) (ws : List (Nat × Nat × Word)) (fl : Nat) : State :=
  (t.addPend { flag := f, pc := s.cur.pc, lanes := s.cur.lanes, work, writes := ws, fstat := fl }).withFate .go

/-- What the threads of a class touch, each in the state in which it performs: `places` names it, `f` is the effect of one
thread. -/
def State.touched {α : Type} (places : State → Nat → List α) (f : State → Nat → Option State) : List Nat → State → List α
  | [], _ => []
  | l :: ls, s => places s l ++ (match f s l with | some s' => State.touched places f ls s' | none => [])

/-- An instruction that a lane performs in a clause (R258 to R260, R284, R314). -/
def isLaneInstr (i : Instr) : Bool :=
  match i.raw with
  | some r => (rowOf r.ext r.op).any fun w => w.kind == .lane
  | none => false

/-- Everything but the groups and the instruction at hand is as it was. -/
def State.onlyGroups (s t : State) : Prop := { t with groups := s.groups, cur := s.cur } = s

/-- A group but for its lanes is as it was. -/
def Group.onlyLanes (g h : Group) : Prop := { h with lanes := g.lanes } = g

/-- A thread but for its program counter, the mark of R422 and the slots of registers `d` to `d + n − 1` is as it was. -/
def Lane.onlyRegs (d n : Nat) (t u : Lane) : Prop :=
  { u with slots := t.slots, bad := t.bad, pc := t.pc, noWatch := t.noWatch } = t
    ∧ ∀ k, (k < t.wb + d ∨ t.wb + d + n ≤ k) → u.slots.get k = t.slots.get k

end Sys2Proof.Machine
end

