-- ==== Sys2Proof/Certificates/Slice0/Obligations.lean ====
section
/-!
DEFINITION. The statements for the provers. Each names the rules of the spec that it formalises; where a value or a
behaviour is the model's own choice, its docstring says so. `Rules.*` gives, for groups of instructions of one shape, what the
rules say of each.
-/
namespace Sys2Proof
open Machine

namespace Rules

/-! ### What the rules give each instruction that computes a result for a thread -/

/-- R279 at 32 bits, on the registers themselves. -/
def sra32 (a : Word) (n : Nat) : Word := a.sshiftRight n
def cond32 (c : ICond) (a b : Word) : Bool :=
  match c with
  | .eq => a == b | .ne => a != b | .lt => a.ult b | .le => a.ule b | .gt => b.ult a | .ge => b.ule a

/-- R278 to R282: the destination of an integer or address instruction, and the registers it receives in a thread. -/
def integer : Instr → Option (Dst × (State → Nat → List Word))
  | .movBase d a => some (.v d, fun s l => [s.reg l a 0])
  | .addBase d a b => some (.v d, fun s l => [s.reg l a 0 + s.reg l b 0])
  | .subBase d a b => some (.v d, fun s l => [s.reg l a 0 - s.reg l b 0])
  | .mulBase d a b => some (.v d, fun s l => [s.reg l a 0 * s.reg l b 0])
  | .andBase d a b => some (.v d, fun s l => [s.reg l a 0 &&& s.reg l b 0])
  | .orBase d a b => some (.v d, fun s l => [s.reg l a 0 ||| s.reg l b 0])
  | .xorBase d a b => some (.v d, fun s l => [s.reg l a 0 ^^^ s.reg l b 0])
  | .shlBase d a b => some (.v d, fun s l => [s.reg l a 0 <<< (s.reg l b 0).toNat])
  | .shrBase d a b => some (.v d, fun s l => [s.reg l a 0 >>> (s.reg l b 0).toNat])
  | .sraBase d a b => some (.v d, fun s l => [sra32 (s.reg l a 0) (s.reg l b 0).toNat])
  | .minBase sg d a b => some (.v d, fun s l =>
      [if (if sg then (s.reg l b 0).slt (s.reg l a 0) else (s.reg l b 0).ult (s.reg l a 0)) then s.reg l b 0 else s.reg l a 0])
  | .maxBase sg d a b => some (.v d, fun s l =>
      [if (if sg then (s.reg l a 0).slt (s.reg l b 0) else (s.reg l a 0).ult (s.reg l b 0)) then s.reg l b 0 else s.reg l a 0])
  | .icmpBase c d a b => some (.v d, fun s l => [if cond32 c (s.reg l a 0) (s.reg l b 0) then 1 else 0])
  | .add t d a b => some (d, fun s l => t.out (s.int t l a + s.int t l b))
  | .sub t d a b => some (d, fun s l => t.out (s.int t l a - s.int t l b))
  | .mul t d a b => some (d, fun s l => t.out (s.int t l a * s.int t l b))
  | .mulhi t d a b => some (d, fun s l => t.out ((s.int t l a * s.int t l b).fdiv ((2 ^ t.width : Nat) : Int)))
  | .mulw t d a b => some (d, fun s l => twoWords (BitVec.ofInt 64 (s.int t l a * s.int t l b)))
  | .mad t d a b c => some (d, fun s l => t.out (s.int t l a * s.int t l b + s.int t l c))
  | .adds t d a b => some (d, fun s l => t.out (max t.least (min t.most (s.int t l a + s.int t l b))))
  | .subs t d a b => some (d, fun s l => t.out (max t.least (min t.most (s.int t l a - s.int t l b))))
  | .abs t d a => some (d, fun s l => t.out (s.int t l a).natAbs)
  | .min t d a b => some (d, fun s l => t.out (if s.int t l a ≤ s.int t l b then s.int t l a else s.int t l b))
  | .max t d a b => some (d, fun s l => t.out (if s.int t l a ≤ s.int t l b then s.int t l b else s.int t l a))
  | .and t d a b => some (d, fun s l => t.out ((s.ibits t l a &&& s.ibits t l b : Nat)))
  | .or t d a b => some (d, fun s l => t.out ((s.ibits t l a ||| s.ibits t l b : Nat)))
  | .xor t d a b => some (d, fun s l => t.out ((s.ibits t l a ^^^ s.ibits t l b : Nat)))
  | .not t d a => some (d, fun s l => t.out (-1 - s.ibits t l a))
  | .shl t d a b => some (d, fun s l => t.out
      (if t.width ≤ (s.reg l b 0).toNat then 0 else (s.ibits t l a : Int) * 2 ^ (s.reg l b 0).toNat))
  | .shr t d a b => some (d, fun s l => t.out
      (if t.width ≤ (s.reg l b 0).toNat then 0 else ((s.ibits t l a / 2 ^ (s.reg l b 0).toNat : Nat) : Int)))
  | .sra t d a b => some (d, fun s l => t.out (shiftArith t.width (s.ibits t l a) (s.reg l b 0).toNat))
  | .rotl t d a b => some (d, fun s l => t.out (rotateUp t.width (s.ibits t l a) (s.reg l b 0).toNat))
  | .popc t d a => some (d, fun s l => [BitVec.ofNat 32 (popcount t.width (s.ibits t l a))])
  | .clz t d a => some (d, fun s l => [BitVec.ofNat 32 (zerosAbove t.width (s.ibits t l a))])
  | .ctz t d a => some (d, fun s l => [BitVec.ofNat 32 (zerosBelow t.width (s.ibits t l a))])
  | .brev t d a => some (d, fun s l => t.out (reverseBits t.width (s.ibits t l a)))
  | .bfe t d a p n => some (d, fun s l => bfeOf t a p n s l)
  | .bfi t d a b p n => some (d, fun s l => t.out (setBits (s.ibits t l b) (p + n) p (s.ibits t l a)))
  | .icmp t c d a b => some (d, fun s l => [if c.holds (s.int t l a) (s.int t l b) then 1 else 0])
  | .sel t d a b c => some (d, fun s l => t.out (if s.reg l c 0 ≠ 0 then s.int t l a else s.int t l b))
  | .lea t d a b sh => some (d, fun s l => twoWords (s.pair l a + BitVec.ofInt 64 (s.int t l b * 2 ^ sh)))
  | .mov t d a => some (d, fun s l => t.out (s.int t l a))
  | _ => none

/-- R295 to R302, R309, R310: the destination register of a floating-point instruction, with the registers and the status
bits that it gives a thread. -/
def float : Instr → Option (Nat × (State → Nat → List Word × Nat))
  | .faddBase t d a b => on t.toFTy .dyn d [a, b] (faddE t.toFTy)
  | .fsubBase t d a b => on t.toFTy .dyn d [a, b] (fsubE t.toFTy)
  | .fmulBase t d a b => on t.toFTy .dyn d [a, b] (fmulE t.toFTy)
  | .fminBase t d a b => on t.toFTy .dyn d [a, b] (fminmaxE false t.toFTy)
  | .fmaxBase t d a b => on t.toFTy .dyn d [a, b] (fminmaxE true t.toFTy)
  | .fadd t r d a b => on t r d [a, b] (faddE t)
  | .fsub t r d a b => on t r d [a, b] (fsubE t)
  | .fmul t r d a b => on t r d [a, b] (fmulE t)
  | .ffma t r d a b c => on t r d [a, b, c] (ffmaE t)
  | .fmin t d a b => on t .dyn d [a, b] (fminmaxE false t)
  | .fmax t d a b => on t .dyn d [a, b] (fminmaxE true t)
  | .fabs t d a => on t .dyn d [a] (fabsE t)
  | .fneg t d a => on t .dyn d [a] (fnegE t)
  | .frnd t r d a => on t r d [a] (frndE t)
  | .lerp t r d a b c => on t r d [a, b, c] (lerpE t)
  | .rcp t d a => on t .dyn d [a] fun e j xs => e.special .rcp t j (xs.headD 0)
  | .rsqrt t d a => on t .dyn d [a] fun e j xs => e.special .rsqrt t j (xs.headD 0)
  | .sqrt t d a => on t .dyn d [a] fun e j xs => e.special .sqrt t j (xs.headD 0)
  | .exp2 t d a => on t .dyn d [a] fun e j xs => e.special .exp2 t j (xs.headD 0)
  | .log2 t d a => on t .dyn d [a] fun e j xs => e.special .log2 t j (xs.headD 0)
  | .tanh t d a => on t .dyn d [a] fun e j xs => e.special .tanh t j (xs.headD 0)
  | .sincospi t d a => some (d, fun s l =>
      let x := elementwise t [a] (fun j xs => (s.fenv l .dyn).special .sin t j (xs.headD 0)) s l
      let y := elementwise t [a] (fun j xs => (s.fenv l .dyn).special .cos t j (xs.headD 0)) s l
      (t.pack x.1 ++ t.pack y.1, x.2 ||| y.2))
  | .fcmpBase c d a b => cmp .f32 c d a b
  | .fcmp t c d a b => cmp t c d a b
  | .cvt t u r d a => some (d, fun s l =>
      let rs := (List.range (cvtCount t u)).map fun j =>
        (s.fenv l r).convert t u (if t = .f64 then 0 else j % t.perReg) (s.cvtElem u l a j)
      (packCvt t (rs.map (·.val)), rs.foldl (fun x y => x ||| y.fl) 0))
  | .cvtfi t u r d a => some (d, fun s l =>
      let x := (s.fenv l r).toInt t u (s.element u l 0 a)
      (t.out x.1, x.2))
  | .cvtif t u r d a => some (d, fun s l =>
      let x := (s.fenv l r).ofInt t (s.int u l a)
      (t.pack [x.val], x.fl))
  | _ => none
where
  on (t : FTy) (r : Rnd) (d : Nat) (srcs : List Src) (f : FEnv → Nat → List Nat → FRes) :
      Option (Nat × (State → Nat → List Word × Nat)) :=
    some (d, fun s l => let x := elementwise t srcs (f (s.fenv l r)) s l; (t.pack x.1, x.2))
  cmp (t : FTy) (c : FCond) (d : Nat) (a b : Src) : Option (Nat × (State → Nat → List Word × Nat)) :=
    some (d, fun s l =>
      let x := elementwise t [a, b] (fcmpE c t (s.fenv l .dyn)) s l
      ([BitVec.ofNat 32 (x.1.zipIdx.foldl (fun n e => n + e.1 * 2 ^ (16 * e.2)) 0)], x.2))

/-- R303, R304, R318: instructions that give a thread one register and raise no status bit. -/
def plain : Instr → Option (Nat × (State → Nat → List Word))
  | .fclass t d a => some (d, fun s l => [BitVec.ofNat 32
      ((List.range t.elems).foldl (fun n j => n + 2 ^ classBit t (s.element t l j a) * 2 ^ (16 * j)) 0)])
  | .fdot2 t d a b c => some (d, fun s l =>
      let el (x : Src) (j : Nat) : FVal :=
        t.fmt.decode (if t = .f32 then (s.reg l x j).toNat else bits (s.reg l x 0).toNat (16 * j + 15) (16 * j))
      [BitVec.ofNat 32 (chunkSumAll (s.reg l c 0).toNat [prodOf (el a 0) (el b 0), prodOf (el a 1) (el b 1)])])
  | .hrand d a b => some (d, fun s l => [hrandOf (s.reg l a 0) (s.reg l a 1) (s.reg l b 0)])
  | _ => none

/-- R274, R275: the value of a special register for a thread of a group of a team whose launch has a record. -/
def special (s : State) (g : Group) (t : Team) (rc : List Word) (l : Nat) : SpecialReg → List Word
  | .lane => [BitVec.ofNat 32 l]
  | .tid => [BitVec.ofNat 32 (32 * g.index + l)]
  | .group => [BitVec.ofNat 32 g.index]
  | .role => [BitVec.ofNat 32 g.role]
  | .team => [BitVec.ofNat 32 t.no]
  | .core => [BitVec.ofNat 32 (if t.det then t.logical + (t.cores.idxOf? g.core).getD 0
                                else g.core)]
  | .nteam => [BitVec.ofNat 32 (LRec.gx rc * LRec.gy rc * LRec.gz rc)]
  | .tx => [BitVec.ofNat 32 (t.no % LRec.gx rc)]
  | .ty => [BitVec.ofNat 32 (t.no / LRec.gx rc % LRec.gy rc)]
  | .tz => [BitVec.ofNat 32 (t.no / LRec.gx rc / LRec.gy rc)]
  | .nx => [BitVec.ofNat 32 (LRec.gx rc)]
  | .ny => [BitVec.ofNat 32 (LRec.gy rc)]
  | .nz => [BitVec.ofNat 32 (LRec.gz rc)]
  | .tpart => [BitVec.ofNat 32 g.tpart]
  | .fmode => [g.fmode]
  | .fstat => [BitVec.ofNat 32 g.fstat]
  | .fseed => [g.fseed]
  | .meet => twoWords (g.lane l).meet
  | .frame => [BitVec.ofNat 32 (g.lane l).f]
  | .clk => twoWords (s.coreAt g.core).clk

/-- R285, R286: where a thread goes that performs an instruction which changes nothing but its program counter. -/
def goTo : Instr → Option (State → Nat → DWord)
  | .nopBase => some fun s _ => s.cur.next
  | .nop => some fun s _ => s.cur.next
  | .braBase x => some fun s _ => s.cur.pc + x
  | .bra x => some fun s _ => s.cur.pc + x
  | .bnzBase a x => some fun s l => if s.reg l a 0 = 0 then s.cur.next else s.cur.pc + x
  | .bnz a x => some fun s l => if s.reg l a 0 = 0 then s.cur.next else s.cur.pc + x
  | .bzBase a x => some fun s l => if s.reg l a 0 = 0 then s.cur.pc + x else s.cur.next
  | .bz a x => some fun s l => if s.reg l a 0 = 0 then s.cur.pc + x else s.cur.next
  | .brxBase a => some fun s l => s.pair l a
  | .brx a => some fun s l => s.pair l a
  | _ => none

/-- R276, R287 to R290, R343: what a thread becomes that performs an instruction on its own meeting address, frame or return
stack; none where it is trapped. -/
def onThread (s : State) (l : Nat) : Instr → Option (Lane → Lane)
  | .meetBase x => some fun t => { t with meet := s.cur.pc + x }.passed s.cur.next
  | .meet x => some fun t => { t with meet := s.cur.pc + x }.passed s.cur.next
  | .wrs .meet a => some fun t => { t with meet := s.pair l a }.passed s.cur.next
  | .call n x => called (8 * n) (s.cur.pc + x)
  | .calli a n => called (8 * n) (s.pair l a)
  | .frame n =>
      if s.role.b + s.role.k < (s.lane l).wb + 8 * n
          ∨ 8 * n < (s.lane l).f ∧ (s.lane l).fillError s.role.b ((s.lane l).wb + 8 * n - s.role.b) ((s.lane l).wb + (s.lane l).f) then none
      else some fun t =>
        { t with f := 8 * n, slots := t.slots.filter fun c => decide (c.1 < t.wb + t.f) || decide (t.wb + 8 * n ≤ c.1),
                 bad := t.bad.filter fun k => !(decide (t.wb + t.f ≤ k) && decide (k < t.wb + 8 * n)) }.passed s.cur.next
  | .ret => returned
  | .retBase => returned
  | .garrive => if s.role.cont = 0 then none else some fun t => { t with mark := true }.passed s.cur.next
  | _ => none
where
  called (n : Nat) (to_ : DWord) : Option (Lane → Lane) :=
    if (s.lane l).f < n ∨ 16 + s.role.d ≤ (s.lane l).ret.length then none
    else some fun t => { t with ret := ⟨s.cur.next, n, t.f⟩ :: t.ret, wb := t.wb + n, f := t.f - n }.passed to_
  returned : Option (Lane → Lane) :=
    match (s.lane l).ret with
    | [] => none
    | e :: rest =>
      if (s.lane l).fillError s.role.b ((s.lane l).wb - e.adv + e.f - s.role.b) ((s.lane l).wb + (s.lane l).f) then none
      else some fun t => { t with ret := rest, wb := t.wb - e.adv, f := e.f }.passed e.addr

/-- R312 to R316: a collective of a class: its destination register, with the registers and the status bits that it gives a
thread from the threads of its tile. -/
def collective : Instr → Option (Nat × (State → Nat → List Word × Nat))
  | .vote k d a => some (d, fun s l =>
      let on (p : Nat) : Bool := s.reg p a 0 != 0
      let tile := s.tileOf s.cur.lanes l
      ([match k with
        | .all => if tile.all on then 1 else 0
        | .any => if tile.any on then 1 else 0
        | .eq => if tile.all on ∨ tile.all (fun p => !on p) then 1 else 0
        | .ballot => BitVec.ofNat 32 ((tile.filter on).foldl (fun x p => x + 2 ^ p) 0)], 0))
  | .matchLanes t d a => some (d, fun s l =>
      ([BitVec.ofNat 32 (((s.tileOf s.cur.lanes l).filter fun p => s.collArg t p a == s.collArg t l a).foldl
          (fun x p => x + 2 ^ p) 0)], 0))
  | .shfl t m d a b => some (d, fun s l =>
      let n := s.tileSize
      let k := (s.reg l b 0).toNat
      let from_ : Nat := match m with
        | .idx => l / n * n + k % n
        | .up => if k < n ∧ l / n * n + k ≤ l then l - k else l
        | .down => if k < n ∧ l + k < l / n * n + n then l + k else l
        | .xor => l ^^^ (k % n)
      (s.regs (if from_ ∈ s.tileOf s.cur.lanes l then from_ else l) a t.regs, 0))
  | .tred t op d a => some (d, fun s l =>
      let n := s.tileSize
      let r := redTree (redStep op t s.redEnv) (Nat.log2 n) ((List.range n).map fun k =>
        if l / n * n + k ∈ s.cur.lanes then some (s.redArg t (l / n * n + k) a) else none)
      (wordsOf t.regs (r.1.getD 0), r.2))
  | .tscan t op excl d a => some (d, fun s l =>
      let r := scanGo (redStep op t s.redEnv) (fun p => s.redArg t p a) excl (redIdentity op t) (s.tileOf s.cur.lanes l) none
      (wordsOf t.regs (((r.1.find? fun e => e.1 == l).map (·.2)).getD 0), r.2))
  | _ => none

/-- R283, R329, R330, R334, R335, R357: a long-latency instruction whose results are known when it issues: its flag, and what
the issue of one thread does, with the registers still to be written and the status bits to be raised. -/
def long : Instr → Option (Nat × (State → Nat → Option (State × List (Nat × Word) × Nat)))
  | .div t d a b f => some (f, fun s l =>
      let q := divide t (s.int t l a) (s.int t l b)
      some (s, resultsAt d (t.out q.1 ++ t.out q.2), 0))
  | .ld t o h d a off f => some (f, fun s l => loaded t false o.strong o.acquires h (if o.strong then t.bytes else 1) d a off s l)
  | .ldt t h d a off f => some (f, fun s l => loaded t true false none h 1 d a off s l)
  | .ldsp t o d a off f => some (f, fun s l =>
      match s.teamFor l with
      | some tm =>
        if (tm.check .read (s.spOff l a off) t.bytes (if o.strong then t.bytes else 1)).isSome then none
        else some (s.acquireAt s.cur.core o.acquires, resultsAt d (t.load (leNat (s.forward l
          ((List.range t.bytes).map fun k => some (2, s.spOff l a off + k)) (tm.spad.getAll (s.spOff l a off) t.bytes)))), 0)
      | none => none)
  | .atom op t o sc _ d a off b c f => some (f, fun s l =>
      match s.check l .atomic false (s.ea l a off) t.bytes t.bytes with
      | .ok ((some p, k, x) :: rest) =>
        let old := s.rdNat p t.bytes
        let u := (s.homeRuns true ((some p, k, x) :: rest) .kall true).wrNat p t.bytes
          (aop op t old (srcNat s l b t.regs) (srcNat s l c t.regs))
        some (u.afterAtomic l p t.bytes (s.ea l a off) (if o.acquires then some sc else none), resultsAt d (wordsOf t.regs old), 0)
      | _ => none)
  | .accrd t r d tile row f => some (f, fun s l =>
      match s.myTeam with
      | some tm =>
        let keys := [4096 * tile + 64 * row + 2 * l, 4096 * tile + 64 * row + (2 * l + 1)]
        if (tm.accCheck tile true keys).isSome then none
        else
          let x := tm.accRead t (s.fenv l r) keys
          some (s, resultsAt d (if t = .f32 then x.1.map (BitVec.ofNat 32)
                                else [BitVec.ofNat 32 (x.1.getD 0 0 % 2 ^ 16 + x.1.getD 1 0 % 2 ^ 16 * 2 ^ 16)]), x.2)
      | none => none)
  | _ => none
where
  loaded (t : MTy) (tiled strong : Bool) (acq : Option Scope) (h : Hint) (align d : Nat) (a : Src) (off : BitVec 12)
      (s : State) (l : Nat) : Option (State × List (Nat × Word) × Nat) :=
    match s.check l .read tiled (s.ea l a off) t.bytes align (if strong then none else some h) with
    | .ok runs => some (s.afterLoad l strong acq h (s.ea l a off) t.bytes runs,
        resultsAt d (t.load (leNat (s.forward l (cellsOf runs) (s.seenRuns s.cur.core strong h runs)))), 0)
    | _ => none

/-- R344, R345, R367, R371: a request left to a unit of the core: its flag, the source of its address, what that must be a
multiple of, and the work with the operands read at issue. -/
def request : Instr → Option (Nat × Src × Nat × (State → Work))
  | .rtrace any cullB cullF d a b f => some (f, a, 128, fun s => .ray any cullB cullF (ops s a b 8 d))
  | .mvx t h nrc nv d a b c f => some (f, a, 32, fun s => call .plain t h nrc nv d a b c s)
  | .mvxa t h nrc nv d a b c f => some (f, a, 32, fun s => call .acc t h nrc nv d a b c s)
  | .mvxs t h nrc nv d a b c f => some (f, a, 32, fun s => call .scaled t h nrc nv d a b c s)
  | _ => none
where
  ops (s : State) (a b : Src) (n d : Nat) : List LaneOp :=
    s.cur.lanes.map fun l => ⟨l, s.pair l a, s.regs l b n, (s.lane l).wb + d⟩
  call (k : MvxKind) (t : FTy) (h : PathHint) (nrc nv d : Nat) (a b c : Src) (s : State) : Work :=
    .mvx k t h (2 ^ nrc) (nv + 1) (s.pair s.lead a) (s.pair s.lead b)
      (s.cur.lanes.map fun l => ⟨l, (s.reg l c 0).setWidth 64,
        if k = .acc then s.regs l (.v d) (2 ^ nrc * (nv + 1)) else List.replicate (2 ^ nrc * (nv + 1)) 0, (s.lane l).wb + d⟩)

/-- R220, R331, R333, R336 to R341, R346, R358, R359: an instruction that each thread of a class performs in order on memory, the team's
window or tiles, or an engine: the state after one thread's effect, and where the thread goes if not to the next
instruction. -/
def inTurn : Instr → Option (State → Nat → Option (State × Option DWord))
  | .fence o sc => some fun s l =>
      let u : State := if o = .sc then { s with stores := s.stores.map fun b =>
        if b.core = s.cur.core ∧ b.slot = s.cur.slot ∧ b.lane = l then { b with shared := true } else b } else s
      some (u.acquireAt s.cur.core (if o = .rel then none else some sc), none)
  | .st t o h a off b => some fun s l =>
      match s.check l .write false (s.ea l a off) t.bytes (if o.strong then t.bytes else 1) with
      | .ok runs =>
        let xs := s.storeData t l b
        let u := if s.cur.delay && !o.strong then s.holdRuns l h runs xs
          else s.storeRuns s.cur.core t.wordBytes (s.ea l a off % t.bytes == 0) h runs xs
        some (u.walkServed s.cur.core s.myCtx l (s.ea l a off) t.bytes, none)
      | _ => none
  | .stsp t o a off b => some fun s l =>
      match s.teamFor l with
      | some tm =>
        if (tm.check .write (s.spOff l a off) t.bytes (if o.strong then t.bytes else 1)).isSome then none
        else
          let xs := s.storeData t l b
          some (if s.cur.delay && !o.strong then s.holdSpad l tm.id (s.spOff l a off) xs
            else s.storeSpad tm.id (s.spOff l a off) t.wordBytes (s.spOff l a off % t.bytes == 0) xs, none)
      | none => none
  | .redOrd op t _ a off b => some fun s l =>
      match s.contribute l op t (s.ea l a off) (s.arg l b t.regs) with
      | .ok s' _ => some (s', none)
      | _ => none
  | .binit a b => some fun s l => onWindow s (fun t => t.barInit (s.reg l a 0).toNat (s.reg l b 0).toNat) fun s _ => (s, none)
  | .barrive d a => some fun s l =>
      onWindow s (fun t => t.barArrive (s.reg l a 0).toNat false) fun s v => (s.setV l d (BitVec.ofNat 32 v), none)
  | .waitph a b => some fun s l =>
      onWindow s (fun t => t.barWait (s.reg l a 0).toNat (s.reg l b 0).toNat false) fun s' v =>
        if v = 1 then (s'.acquire s'.cur.core, none)
        else (s'.updLane l fun x => { x with st := .heldWait, hold := .phase (s.reg l a 0).toNat (s.reg l b 0) s.cur.next },
              some s.cur.pc)
  | .rres d a => some fun s l =>
      onWindow s (fun t => t.ringReserve (s.reg l a 0).toNat) fun s v => ((s.acquire s.cur.core).setV l d (BitVec.ofNat 32 v), none)
  | .rpub a b => some fun s l =>
      onWindow s (fun t => t.ringFinish (s.reg l a 0).toNat (s.reg l b 0).toNat true false) fun s _ => (s, none)
  | .racq d a => some fun s l =>
      onWindow s (fun t => t.ringAcquire (s.reg l a 0).toNat false) fun s v => ((s.acquire s.cur.core).setV l d (BitVec.ofNat 32 v), none)
  | .rrel a b => some fun s l =>
      onWindow s (fun t => t.ringFinish (s.reg l a 0).toNat (s.reg l b 0).toNat false false) fun s _ => (s, none)
  | .siph a => some fun s l =>
      if a.isVec ∨ s.cur.lanes.head? = some l then
        match s.accept l (s.reg l a 0).toNat with
        | .ok s' _ => some (s', none)
        | _ => none
      else some (s, none)
  | .gemit cull a b => some fun s l =>
      match (s.lane l).grid, s.gridOf (s.lane l).grid with
      | some (launch, k), some g =>
        if g.vertices ≤ (s.reg l a 0).toNat then none
        else some (s.updRender launch fun r => r.updGrid k fun g =>
          { g with verts := g.verts.set (s.reg l a 0).toNat (some ⟨s.regs l b 14, cull⟩) }, none)
      | _, _ => none
  | .tspawn d a b c => some fun s l =>
      match s.grp, s.myTeam with
      | some g, some tm =>
        let role := (s.reg l c 0).toNat
        let k : Task := { team := tm.id, quarter := (tm.cores.idxOf? g.core).getD 0, role, entry := s.pair l a,
                          args := s.regs l b 16 }
        let x := s.ctxAt s.myCtx
        let va := x.sumpVa x.shead
        if (tm.roles[role]?.map (·.task)).getD false = false then some (s.setV l d 2, none)
        else if s.wellRoom g.core tm.id && x.sumpEmpty then some ((s.enterWell g.core k).setV l d 0, none)
        else if x.sumpFull then some (s.setV l d 1, none)
        else match s.translate s.myCtx { kind := .write, core := g.core } va with
        | .ok p lf =>
          if (s.reserved s.myCtx s.myLaunch .write va 128).isSome ∨ (s.ueIn p 128).isSome then none
          else
            let t := ((s.tableReads s.myCtx { kind := .write, core := g.core } va 128).writeSump p lf).updCtx s.myCtx fun c => { c with shead := (c.shead + 1) % 2 ^ c.sumpN }
            some (State.setV { t with sumps := s.sumps ++ [(s.myCtx, x.shead, k)] } l d 0, none)
        | _ => none
      | _, _ => none
  | .accsp t r a tile row => some fun s l =>
      match s.myTeam with
      | some tm =>
        let keys := [4096 * tile + 64 * row + 2 * l, 4096 * tile + 64 * row + (2 * l + 1)]
        let z := if t = .f32 then 4 else 2
        let base := (s.reg l a 0).toNat
        if (tm.accCheck tile true keys).isSome ∨ !tm.inWindow (base + 2 * l * z) (2 * z) ∨ base % (2 * z) ≠ 0
            ∨ tm.partError (base + 2 * l * z) (2 * z) then none
        else
          let x := tm.accRead t (s.fenv l r) keys
          some ((s.storeSpad tm.id (base + 2 * l * z) z true ((x.1.map fun y => leBytes y z).flatten)).orFstat x.2, none)
      | none => none
  | .accwr t a tile row => some fun s l =>
      match s.myTeam with
      | some tm =>
        let k := 4096 * tile + 64 * row + 2 * l
        if (tm.accCheck tile false [k, k + 1]).isSome then none
        else
          let e := (s.fenv l .dyn).exactly
          let x := (s.reg l a 0).toNat
          let y : FRes × FRes := if t = .f32 then (⟨x, 0⟩, ⟨(s.reg l a 1).toNat, 0⟩)
            else (e.convert .f32 t 0 (x % 2 ^ 16), e.convert .f32 t 1 (x / 2 ^ 16))
          some ((s.updTeam tm.id fun tm =>
            { tm with acc := (tm.acc.set k (BitVec.ofNat 32 y.1.val)).set (k + 1) (BitVec.ofNat 32 y.2.val),
                      badAcc := tm.badAcc.filter fun j => j ≠ k ∧ j ≠ k + 1 }).orFstat (y.1.fl ||| y.2.fl), none)
      | none => none
  | _ => none
where
  onWindow (s : State) (f : Team → BarRes) (k : State → Nat → State × Option DWord) : Option (State × Option DWord) :=
    match s.myTeam with
    | some t => match f t with
      | .ok t' v => some (k (s.updTeam t'.id fun _ => t') v)
      | _ => none
    | none => none

/-- The trap that a thread takes in place of an instruction that it heads, for the checks that rest on its own registers, stack
and role: R13, R88, R288 to R290, R293, R319, R327, R343, R344, R360, R371. -/
def trap (s : State) (l : Nat) : Instr → Option Trap
  | .brk c => some { cause := .brk, detail := c }
  | .brkBase => some { cause := .brk }
  | .call n _ => called (8 * n)
  | .calli _ n => called (8 * n)
  | .frame n =>
      if s.role.b + s.role.k < (s.lane l).wb + 8 * n then some { cause := .stackOverflow }
      else if 8 * n < (s.lane l).f ∧ (s.lane l).fillError s.role.b ((s.lane l).wb + 8 * n - s.role.b) ((s.lane l).wb + (s.lane l).f) then
        some { cause := .memUncorrectable }
      else none
  | .ret => returned
  | .retBase => returned
  | .garrive => if s.role.cont = 0 then some { cause := .barrierMisuse, detail := 6 } else none
  | .ld t o _ _ a off _ => address .read (s.ea l a off) (if o.strong then t.bytes else 1)
  | .st t o _ a off _ => address .write (s.ea l a off) (if o.strong then t.bytes else 1)
  | .ldt _ _ _ a off _ => address .read (s.ea l a off) 1
  | .atom _ t _ _ _ _ a off _ _ _ => address .atomic (s.ea l a off) t.bytes
  | .texf _ _ _ _ a _ _ => aligned (s.pair l a).toNat 32
  | .rtrace _ _ _ _ a _ _ => aligned (s.pair l a).toNat 128
  | .mvx _ _ _ _ _ a _ _ _ => aligned (s.pair l a).toNat 32
  | .mvxa _ _ _ _ _ a _ _ _ => aligned (s.pair l a).toNat 32
  | .mvxs _ _ _ _ _ a _ _ _ => aligned (s.pair l a).toNat 32
  | .neval _ _ _ _ a _ _ =>
      if 2 ^ 52 ≤ (s.pair l a).toNat ∨ (s.pair l a).toNat % 256 ≠ 0 then
        some { cause := .nevalHandle, detail := 1, aux := s.cur.pc.toNat } else none
  | _ => none
where
  called (n : Nat) : Option Trap :=
    if (s.lane l).f < n then some { cause := .regOutOfFrame }
    else if 16 + s.role.d ≤ (s.lane l).ret.length then some { cause := .stackOverflow } else none
  /-- R290, R194: a return fills the slots that become resident. -/
  returned : Option Trap :=
    match (s.lane l).ret with
    | [] => some { cause := .returnUnderflow }
    | e :: _ =>
      if (s.lane l).fillError s.role.b ((s.lane l).wb - e.adv + e.f - s.role.b) ((s.lane l).wb + (s.lane l).f) then
        some { cause := .memUncorrectable } else none
  /-- R13, R327, R38: a pointer that is not canonical, then alignment, then a context that is disabled, whose accesses have
  sub-cause 5. -/
  address (kind : Access) (va align : Nat) : Option Trap :=
    let off : Trap := { cause := .accessViolation, detail := 5, aux := va, kind }
    if 2 ^ 52 ≤ va then some (if (s.ctxAt s.myCtx).en then { off with detail := 1 } else off)
    else (aligned va align).or (if (s.ctxAt s.myCtx).en then none else some off)
  aligned (va align : Nat) : Option Trap := if va % align ≠ 0 then some { cause := .misaligned, aux := va } else none

/-- R350 to R355: the team after a stream instruction that goes on to the next one. -/
def stream (t : Team) (m : Stream) : Instr → Option Team
  | .mnop => some t
  | .mset d x => some (setM d (loOf x))
  | .maddi d a i => some (setM d (m.m.get a + i.signExtend 32))
  | .mwait n a => match t.barWait (t.barbase + 16 * n) (m.m.get a).toNat true with
    | .ok t' 1 => some t'
    | _ => none
  | .marr n => match t.barArrive (t.barbase + 16 * n) true with
    | .ok t' _ => some t'
    | _ => none
  | .macq d a => match t.ringAcquire (m.m.get a).toNat true with
    | .ok t' v => some (t'.setM d v)
    | _ => none
  | .mrel a b => match t.ringFinish (m.m.get a).toNat (m.m.get b).toNat false true with
    | .ok t' _ => some t'
    | _ => none
  | .mzero tile =>
      if t.tiles ≤ tile then none
      else some { t with acc := t.acc.filter fun c => c.1 / 4096 ≠ tile, badAcc := t.badAcc.filter fun k => k / 4096 ≠ tile }
  | .mmul ty scl kv tile a b => product ty scl kv tile (m.m.get a).toNat (m.m.get b).toNat 1
  | .mmulb ty scl kv tile a b => product ty scl kv tile (m.m.get a).toNat (m.m.get b).toNat 4
  | _ => none
where
  setM (d : Nat) (x : Word) : Team := { t with stream := t.stream.map fun m => { m with m := m.m.set d x } }
  /-- R354, R355: row i of band k of the tile, whose products take row j of operand B's k-th part into column j. -/
  product (ty : FTy) (scl : Bool) (kv tile a b bands : Nat) : Option Team :=
    let sz := 64 * ty.rowBytes + (if scl then 128 else 0)
    let step := roundUp sz 128
    if t.tiles ≤ tile ∨ !t.inWindow a sz ∨ !t.inWindow b ((bands - 1) * step + sz) ∨ a % 128 ≠ 0 ∨ b % 128 ≠ 0
        ∨ t.spadError a sz ∨ t.spadError b ((bands - 1) * step + sz) ∨ t.tileError tile then none
    else
      some { t with acc := (List.range bands).foldl (fun acc k => (List.range (64 / bands)).foldl (fun acc r =>
        (List.range 64).foldl (fun acc j =>
          let i := k * (64 / bands) + r
          let key := 4096 * tile + 64 * i + j
          acc.set key (BitVec.ofNat 32 (chunkSumAll (acc.get key).toNat
            ((t.operandRow ty scl kv a i).zipWith prodOf (t.operandRow ty scl kv (b + k * step) j))))) acc) acc) t.acc }

end Rules

/-! ### Results -/

/-- R177, R260, R278: a uniform twin of a class of lanes writes its uniform registers once, from the operands of the group,
and every thread of the class goes on to the next instruction. -/
def Rules.TwinResults : Prop :=
  ∀ (i : Instr) (d : Nat) (f : State → Nat → List Word) (s : State) (g : Group), Rules.integer i = some (.s d, f) →
    i.wf = true → s.cur.who = .lanes → s.grp = some g → s.uniError i = false →
    exec i s = .next ((s.updGrp fun g =>
      { g with sregs := Store.setAll g.sregs d (f s s.lead),
               badUni := g.badUni.filter fun k => decide (k < d) || decide (d + (f s s.lead).length ≤ k),
               lanes := g.lanes.mapIdx fun l t => if l ∈ s.cur.lanes then t.passed s.cur.next else t }).withFate .go)

/-- R260, R372: on a control core a twin reads and writes the control core's own uniform registers. -/
def Rules.ControlCoreTwins : Prop :=
  ∀ (i : Instr) (d : Nat) (f : State → Nat → List Word) (s : State), Rules.integer i = some (.s d, f) →
    i.wf = true → s.cur.who = .control →
    exec i s = .next ((s.updCore s.cur.core fun c =>
      { c with ctlRegs := Store.setAll c.ctlRegs d (f s s.lead), ctlPc := s.cur.next }).withFate .go)

/-- R303, R304, R318: `fclass`, `fdot2` and `hrand` give every thread its result and change nothing else, `%fstat` included. -/
def Rules.PlainResults : Prop :=
  ∀ (i : Instr) (d : Nat) (f : State → Nat → List Word) (s : State), Rules.plain i = some (d, f) → i.wf = true →
    s.classReady i → exec i s = .next (s.eachLane fun l t => (t.setVs d (f s l)).passed s.cur.next)

/-- R275, R274: `rds` gives every thread of its class the value of a special register, its twin gives it once to uniform
registers, and on a control core `%clk` is the core's own counter. What `%core` reads where a die runs alone is the model's choice
(assumption log 32), as is that a control core's `%clk` is the counter of its core (log 54). -/
def Rules.SpecialReads : Prop :=
  (∀ (d : Nat) (r : SpecialReg) (s : State) (g : Group) (t : Team) (x : Launch), s.classReady (.rds (.v d) r) →
    s.grp = some g → s.team? g.team = some t → s.launch? t.launch = some x →
    exec (.rds (.v d) r) s =
      .next (s.eachLane fun l u => (u.setVs d (Rules.special s g t x.record l r)).passed s.cur.next))
  ∧ (∀ (d : Nat) (r : SpecialReg) (s : State) (g : Group) (t : Team) (x : Launch), (Instr.rds (.s d) r).wf = true →
    s.cur.who = .lanes → s.grp = some g → s.team? g.team = some t → s.launch? t.launch = some x →
    exec (.rds (.s d) r) s = .next ((s.updGrp fun g =>
      { g with sregs := Store.setAll g.sregs d (Rules.special s g t x.record s.lead r),
               badUni := g.badUni.filter fun k => decide (k < d) || decide (d + (Rules.special s g t x.record s.lead r).length ≤ k),
               lanes := g.lanes.mapIdx fun l u => if l ∈ s.cur.lanes then u.passed s.cur.next else u }).withFate .go))
  ∧ ∀ (d : Nat) (s : State), s.cur.who = .control →
    exec (.rds (.s d) .clk) s = .next ((s.updCore s.cur.core fun c =>
      { c with ctlRegs := (c.ctlRegs.set d (loOf c.clk)).set (d + 1) (hiOf c.clk), ctlPc := s.cur.next }).withFate .go)

/-- R276, R237, R241, R317: the group registers that `wrs` and `part` write, once for the class: RM of 0 or 7 sets 1 and the
reserved bits of `%fmode` stay 0, `%fstat` takes bits [5:0], `%fseed` all 32, and `%tpart` takes 1 to 5 and else 5. -/
def Rules.GroupRegisterWrites : Prop :=
  ∀ (i : Instr) (a : Src) (s : State) (g : Group) (f : Word → Group → Group), s.cur.who = .lanes → s.grp = some g →
    s.uniError i = false →
    ((i = .wrs .fmode a ∧ f = fun x g => { g with fmode := (x &&& 0xFE000#32) |||
        (if x &&& 7 = 0 ∨ x &&& 7 = 7 then 1 else x &&& 7) })
      ∨ (i = .wrs .fstat a ∧ f = fun x g => { g with fstat := x.toNat % 64 })
      ∨ (i = .wrs .fseed a ∧ f = fun x g => { g with fseed := x })
      ∨ (i = .part a ∧ f = fun x g => { g with tpart := if 1 ≤ x.toNat ∧ x.toNat ≤ 5 then x.toNat else 5 })) →
    exec i s = .next ((s.updGrp fun g => { f (s.reg s.lead a 0) g with
      lanes := g.lanes.mapIdx fun l t => if l ∈ s.cur.lanes then t.passed s.cur.next else t }).withFate .go)

/-! ### Control -/

/-- R285, R286: a branch or `nop` takes every thread of the class where the rule says, and changes nothing else. -/
def Rules.Branches : Prop :=
  ∀ (i : Instr) (go : State → Nat → DWord) (s : State), Rules.goTo i = some go → s.classReady i →
    exec i s = .next (s.eachLane fun l t => t.passed (go s l))

/-- R372: the branches that a control core performs change its program counter alone. -/
def Rules.ControlCoreBranches : Prop :=
  ∀ (i : Instr) (go : State → Nat → DWord) (s : State), Rules.goTo i = some go → i.onControl = true → s.cur.who = .control →
    exec i s = .next ((s.updCore s.cur.core fun c => { c with ctlPc := go s 0 }).withFate .go)

/-- R287 to R290, R276, R343: meeting addresses, calls, frames, returns and the mark of `garrive`, for a class of which no
thread is trapped; nothing else is changed. -/
def Rules.ThreadEffects : Prop :=
  ∀ (i : Instr) (s : State) (f : Nat → Lane → Lane), s.classReady i →
    (∀ l ∈ s.cur.lanes, Rules.onThread s l i = some (f l)) → exec i s = .next (s.eachLane f)

/-- R291: `exit` ends every thread of the class: it becomes Exited, or Vacant in a group formed from tasks, its return stack
and its backing area are discarded, and a task of a grid has left its lane (R386). -/
def Rules.ThreadEnds : Prop :=
  ∀ (i : Instr) (s : State) (g : Group) (tm : Team) (r : Role), i = .exit ∨ i = .exitBase → s.classReady i →
    s.grp = some g → s.team? g.team = some tm → tm.roles[g.role]? = some r →
    exec i s = .next { (s.eachLane fun _ t => { t with
        st := if g.tasks then .vacant else .exited, hold := .none, ret := [], mark := false, mid := none, grid := none,
        slots := t.slots.filter fun c => decide (t.wb + t.f - r.b ≤ c.1),
        bad := t.bad.filter fun k => decide (t.wb + t.f - r.b ≤ k) }.passed s.cur.next) with
      launches := (s.cur.lanes.foldl (fun s l => s.gridTaskLeft (g.lane l).grid) s).launches }

/-- R223, R292: `refill` fills the lowest Vacant lanes of a task group with the oldest records of its entry, and gives every
thread of its class their number. -/
def Rules.Refill : Prop :=
  ∀ (d : Nat) (x : DWord) (s : State) (g : Group), s.classReady (.refill d x) → s.grp = some g →
    (∀ l ∈ s.cur.lanes, (g.lane l).st ≠ .vacant) →
    let n := if g.tasks then Nat.min (g.lanes.filter fun t => t.st == .vacant).length (s.matching g (s.cur.pc + x)).length else 0
    exec (.refill d x) s = .next ((s.fillLanes g (s.cur.pc + x) n).eachLane fun _ t =>
      (t.setV d (BitVec.ofNat 32 n)).passed s.cur.next)

/-- R191, R222, R223: a record that enters a lane starts at its entry with the registers of its arguments, a frame of its
role's declared registers and nothing on its return stack. -/
def Rules.TaskEntry : Prop :=
  ∀ (s : State) (g : Group) (entry : DWord) (n k l : Nat) (t : Task), s.grp = some g → n ≤ (s.matching g entry).length →
    ((List.range 32).filter fun l => (g.lane l).st == .vacant)[k]? = some l → k < n → l < g.lanes.length →
    (s.matching g entry)[k]? = some t → t.args.length = 16 →
    let u := (s.fillLanes g entry n).lane l
    u.st = .ready ∧ u.pc = entry ∧ u.f = s.role.b ∧ u.wb = 0 ∧ u.ret = [] ∧ (∀ j, j < 16 → some (u.v j) = t.args[j]?)
      ∧ ∀ j, 16 ≤ j → u.v j = 0

/-- R13, R88, R288 to R290, R293, R319, R327, R343, R360: the thread that heads a class takes the trap that the rules give it,
with the rest of the class, and none of the instruction's effect. -/
def Rules.LeadTraps : Prop :=
  ∀ (i : Instr) (s : State) (g : Group) (l : Nat) (ls : List Nat) (t : Trap), s.cur.who = .lanes → s.cur.lanes = l :: ls →
    s.grp = some g → s.sound l i → (∀ f, i.flag? = some f → s.flagFull f = false) → Rules.trap s l i = some t →
    exec i s = .next (s.split (l :: ls) t)

/-- R190, R79, R194: every instruction of a lane first checks the registers that it names in the thread: one outside the frame
takes cause 2; one that it reads and that holds an uncorrectable error, a uniform one included, and a block of 8 spilled slots
that must be filled for a register it names, takes cause 15. -/
def Rules.RegisterChecks : Prop :=
  ∀ (i : Instr) (s : State) (g : Group) (l : Nat) (ls : List Nat), isLaneInstr i = true → i.wf = true → s.cur.who = .lanes →
    s.cur.lanes = l :: ls → s.grp = some g → (∀ f, i.flag? = some f → s.flagFull f = false) →
    ((s.lane l).inFrame i.vecRegs = false → exec i s = .next (s.split (l :: ls) { cause := .regOutOfFrame }))
    ∧ ((s.lane l).inFrame i.vecRegs = true →
        (let t := s.lane l
         let low := t.wb + t.f - s.role.b
         (∃ k ∈ t.bad, ∃ r ∈ i.readRegs, t.wb + r.1 ≤ k ∧ k < t.wb + r.1 + r.2)
          ∨ (∃ k ∈ g.badUni, ∃ r ∈ i.readUnis, r.1 ≤ k ∧ k < r.1 + r.2)
          ∨ ∃ k ∈ t.bad, ∃ r ∈ i.vecRegs, k < low ∧ t.wb + r.1 < k / 8 * 8 + 8 ∧ k / 8 * 8 < t.wb + r.1 + r.2
              ∧ k / 8 * 8 < low) →
        exec i s = .next (s.split (l :: ls) { cause := .memUncorrectable }))

/-! ### Collectives -/

/-- R188, R189, R312 to R316: a collective gives every thread of its class the result of its tile and ORs the status bits of
all tiles into `%fstat`; nothing else is changed. -/
def Rules.CollectiveResults : Prop :=
  ∀ (i : Instr) (d : Nat) (f : State → Nat → List Word × Nat) (s : State), Rules.collective i = some (d, f) →
    s.classReady i → exec i s = .next
      ((s.eachLane fun l t => (t.setVs d (f s l).1).passed s.cur.next).orFstat
        (s.cur.lanes.foldl (fun a l => a ||| (f s l).2) 0))

/-! ### Memory, synchronisation and engines -/

/-- R181, R283, R329, R330, R334, R335, R357: a division, load, atomic or accumulator read whose threads all pass their checks
counts one on its flag, and its results stand to be written; an atomic writes its new value at once. That what is read is read at
the issue is the model's choice (assumption log 12; R181, R182 and R329 leave the time open), and so is the order among the lines
of a class's atomics (log 15). -/
def Rules.LongResults : Prop :=
  ∀ (i : Instr) (f : Nat) (k : State → Nat → Option (State × List (Nat × Word) × Nat)) (s t : State)
    (ws : List (Nat × Nat × Word)) (fl : Nat), Rules.long i = some (f, k) → s.cur.who = .lanes → s.cur.lanes ≠ [] →
    s.flagFull f = false → State.issueOrder i k s.cur.lanes s = some (t, ws, fl) →
    exec i s = .next (t.issued s f .none ws fl)

/-- R181: with the flag's counter at 63 a long-latency instruction waits, and nothing of it is performed. -/
def Rules.FlagFull : Prop :=
  ∀ (i : Instr) (f : Nat) (s : State) (g : Group), i.flag? = some f → s.grp = some g → 63 ≤ g.flags.getD f 0 →
    exec i s = .next (s.withFate .wait)

/-- R181, R319, R344, R367: a ray query or a matrix-vector call whose addresses are aligned counts one on its flag, and stands
with the operands that its threads held at issue; a lookup does so too, and its texels are read at once, which is the model's
choice (assumption log 13; R322 leaves the time open between the issue and the flag). -/
def Rules.UnitRequests : Prop :=
  (∀ (i : Instr) (f : Nat) (a : Src) (align : Nat) (work : State → Work) (s : State),
    Rules.request i = some (f, a, align, work) → s.classReady i → s.flagFull f = false →
    (∀ l ∈ s.cur.lanes, (s.pair l a).toNat % align = 0) →
    exec i s = .next ((s.eachLane fun _ t => t.passed s.cur.next).addPend
      { flag := f, pc := s.cur.pc, lanes := s.cur.lanes, work := work s, writes := [], fstat := 0 }))
  ∧ ∀ (t : FTy) (k : Filt) (level d : Nat) (a b : Src) (f : Nat) (s : State) (h : Group),
    let i : Instr := .texf t k level d a b f
    let ops := Rules.request.ops s a b 3 d
    let u := (s.eachLane fun _ t => t.passed s.cur.next).addPend
      { flag := f, pc := s.cur.pc, lanes := s.cur.lanes, work := .tex t k level ops, writes := [], fstat := 0 }
    let stands (v : State) (change : Pend → Pend) : State :=
      v.updGroup h.core h.slot fun g => { g with pend := updAt g.pend (h.pend.length - 1) change }
    s.classReady i → s.flagFull f = false → (∀ l ∈ s.cur.lanes, (s.pair l a).toNat % 32 = 0) → u.grp = some h →
    (∀ v ws, u.texAll h s.cur.pc t k level ops = .ok (v, ws) →
      exec i s = .next (stands v fun p => { p with work := .none, writes := ws, waitOn := none }))
    ∧ ∀ v w, u.texAll h s.cur.pc t k level ops = .error (v, w) →
      exec i s = .next (stands v fun p => { p with waitOn := w })

/-- R360, R363: the requests of an `neval` enter the windows of their core's manifold in lane order, and the issue waits for its
rows. -/
def Rules.Evaluations : Prop :=
  ∀ (t : FTy) (nin nout d : Nat) (a b : Src) (f : Nat) (s t' : State) (g : Group) (ws : List (Nat × Nat × Word)) (fl : Nat),
    let i : Instr := .neval t nin nout d a b f
    i.wf = true → s.cur.who = .lanes → s.cur.lanes ≠ [] → s.grp = some g → s.flagFull f = false →
    State.issueOrder i (fun u l =>
      let h := u.pair l a
      if h.toNat < 2 ^ 52 ∧ h.toNat % 256 = 0 then
        let row : Machine.Row :=
          { slot := g.slot, lane := l, no := s.ids, t, ins := u.regs l b nin, nout, dst := (u.lane l).wb + d, flag := f,
            pc := s.cur.pc }
        some (State.request { u with ids := Nat.max u.ids (s.ids + 1) }
          { core := g.core, ctx := g.ctx, handle := h, row := row }, [], 0)
      else none) s.cur.lanes s = some (t', ws, fl) →
    exec i s = .next (t'.issued s f (.neval s.ids) [] 0)

/-! ### Matrix streams -/

/-- R348, R350 to R355: a stream instruction that is neither held nor trapped leaves its team as the rule says, and the stream
goes on to the next instruction or ends beyond its last. -/
def Rules.StreamResults : Prop :=
  ∀ (i : Instr) (s : State) (t t' : Team) (m : Stream), s.team? s.cur.slot = some t → t.stream = some m →
    Rules.stream t m i = some t' →
    exec i s = .next (s.updTeam t.id fun _ => { t' with stream := t'.stream.map fun m =>
      { m with idx := m.idx + 1, pos := s.cur.next.toNat, st := if m.len ≤ m.idx + 1 then .ended else .running } })


/-- R351, R200: `mloop` opens a loop, or passes it where its count is 0; `mnext` begins the loop again, or leaves it; `mstop`
ends the stream. The stream ends where it passes beyond its last instruction. -/
def Rules.StreamLoops : Prop :=
  ∀ (s : State) (t : Team) (m : Stream), s.team? s.cur.slot = some t → t.stream = some m →
    let becomes (i : Instr) (m' : Stream) : Prop :=
      exec i s = .next (s.updTeam t.id fun _ => { t with stream := some m' })
    let goes (m : Stream) (idx pos : Nat) : Stream := { m with idx, pos, st := if m.len ≤ idx then .ended else .running }
    (∀ k a idx pos, m.loops.length < 3 → (∀ e ∈ m.loops, e.1 ≠ k) →
      findNext k (m.len - m.idx) (m.words.drop s.cur.next.toNat) (m.idx + 1) s.cur.next.toNat = some (idx, pos) →
      let n : Nat := match a with | .inl r => (m.m.get r).toNat | .inr x => x.toNat % 2 ^ 32
      becomes (.mloop k a) (if n = 0 then goes m idx pos
        else goes { m with l := m.l.set k n, loops := (k, m.idx + 1, s.cur.next.toNat) :: m.loops } (m.idx + 1) s.cur.next.toNat))
    ∧ (∀ k idx pos rest, m.loops = (k, idx, pos) :: rest →
      let v := (m.l.getD k 0 + 2 ^ 32 - 1) % 2 ^ 32
      becomes (.mnext k) (if v ≠ 0 then goes { m with l := m.l.set k v } idx pos
        else goes { m with l := m.l.set k v, loops := rest } (m.idx + 1) s.cur.next.toNat))
    ∧ ((∀ u ∈ s.teams, u.id = t.id → u = t) → becomes .mstop { m with st := .ended })

/-- R150, R352: a stream waits before an `mwait` whose phase is not complete, and before an operation on an object or a ring
that has not been initialised: nothing of the instruction is performed. -/
def Rules.StreamHolds : Prop :=
  ∀ (i : Instr) (s : State) (t : Team) (m : Stream), s.team? s.cur.slot = some t → t.stream = some m →
    ((∃ n a, i = .mwait n a ∧ (t.barWait (t.barbase + 16 * n) (m.m.get a).toNat true = .hold
        ∨ t.barWait (t.barbase + 16 * n) (m.m.get a).toNat true = .ok t 0))
      ∨ (∃ n, i = .marr n ∧ t.barArrive (t.barbase + 16 * n) true = .hold)
      ∨ (∃ d a, i = .macq d a ∧ t.ringAcquire (m.m.get a).toNat true = .hold)
      ∨ ∃ a b, i = .mrel a b ∧ t.ringFinish (m.m.get a).toNat (m.m.get b).toNat false true = .hold) →
    exec i s = .next (s.updTeam t.id fun u => { u with stream := u.stream.map fun m => { m with st := .held } })

/-- The context has ended (R39): it is marked, none of its work is left, and memory is as it was. -/
def Rules.ended (s u : State) (n fsub : Nat) (r : TrapRec) : Prop :=
  (u.ctxAt n).faulted = true ∧ (u.ctxAt n).fsub = fsub ∧ (u.ctxAt n).fatal = some r ∧ (u.ctxAt n).held = []
    ∧ (u.ctxAt n).recs = [] ∧ (∀ g ∈ u.groups, g.ctx ≠ n) ∧ (∀ t ∈ u.teams, t.ctx ≠ n) ∧ (∀ l ∈ u.launches, l.ctx ≠ n)
    ∧ (∀ c ∈ u.copies, c.ctx ≠ n) ∧ (∀ w ∈ u.windows, w.ctx ≠ n) ∧ u.groups = s.groups.filter (fun g => g.ctx != n)
    ∧ (∀ k, k ≠ n → u.ctxAt k = s.ctxAt k)

/-- R349, R353, R355: the operands of a multiplication, Y in as many operands of `size` bytes as there are bands. A tile at or
above TILES, and then an operand byte outside the window, take sub-cause 0x0D; then an offset that is no multiple of 128
takes `MISALIGNED`. -/
def Rules.operandsFail (t : Team) (ty : FTy) (scl : Bool) (tile a b bands : Nat) (c : Cause) (d : Nat) : Prop :=
  let size := 64 * ty.rowBytes + if scl then 128 else 0
  let all := (bands - 1) * ((size + 127) / 128 * 128) + size
  let placed : Prop := t.inWindow a size = true ∧ t.inWindow b all = true
  ((t.tiles ≤ tile ∨ ¬ placed) ∧ c = .accessViolation ∧ d = 0x0D)
    ∨ (tile < t.tiles ∧ placed ∧ (a % 128 ≠ 0 ∨ b % 128 ≠ 0) ∧ c = .misaligned ∧ d = 0)

/-- R349: the trap of an operation on a barrier object or a ring (`Obligations.WindowObjects`), but for an uncorrectable error. -/
def Rules.objectFails (r : BarRes) (c : Cause) (d : Nat) : Prop :=
  ∃ e, r = .trap e ∧ e.cause ≠ .memUncorrectable ∧ c = e.cause ∧ d = e.detail

/-- R349: the check that a stream instruction fails, with its trap. -/
def Rules.streamFails (t : Team) (m : Stream) (pos : Nat) (i : Instr) (c : Cause) (d : Nat) : Prop :=
  (∃ k a, i = .mloop k a ∧ (3 ≤ m.loops.length ∨ (∃ e ∈ m.loops, e.1 = k) ∨
        findNext k (m.len - m.idx) (m.words.drop pos) (m.idx + 1) pos = none)
      ∧ c = .illegalInstr ∧ d = 5)
    ∨ (∃ k, i = .mnext k ∧ (∀ e, m.loops.head? = some e → e.1 ≠ k) ∧ c = .illegalInstr ∧ d = 5)
    ∨ (∃ tile, i = .mzero tile ∧ t.tiles ≤ tile ∧ c = .accessViolation ∧ d = 0x0D)
    ∨ (∃ ty scl kv tile a b, i = .mmul ty scl kv tile a b
        ∧ Rules.operandsFail t ty scl tile (m.m.get a).toNat (m.m.get b).toNat 1 c d)
    ∨ (∃ ty scl kv tile a b, i = .mmulb ty scl kv tile a b
        ∧ Rules.operandsFail t ty scl tile (m.m.get a).toNat (m.m.get b).toNat 4 c d)
    ∨ (∃ n a, i = .mwait n a ∧ Rules.objectFails (t.barWait (t.barbase + 16 * n) (m.m.get a).toNat true) c d)
    ∨ (∃ n, i = .marr n ∧ Rules.objectFails (t.barArrive (t.barbase + 16 * n) true) c d)
    ∨ (∃ r a, i = .macq r a ∧ Rules.objectFails (t.ringAcquire (m.m.get a).toNat true) c d)
    ∨ ∃ a b, i = .mrel a b ∧ Rules.objectFails (t.ringFinish (m.m.get a).toNat (m.m.get b).toNat false true) c d

/-- R349, R351, R419, R420, R423: a stream instruction that fails a check of its loop, its tile, the places and the alignment of
its operands, its barrier object or its ring traps, nothing of it performed; the trap ends the context, and its record names the
instruction. With no fault queue, a violation of the window writes no record in it. -/
def Rules.StreamTraps : Prop :=
  ∀ (i : Instr) (s : State) (t : Team) (m : Stream) (c : Cause) (d : Nat), s.team? s.cur.slot = some t → t.stream = some m →
    t.ctx < s.ctx.length → (s.ctxAt t.ctx).faulted = false → (s.ctxAt t.ctx).fatal = none → (s.ctxAt t.ctx).fqN = none →
    Rules.streamFails t m s.cur.next.toNat i c d →
    let core := t.cores.getD 0 0
    ∃ u, exec i s = .next u ∧ Rules.ended s u t.ctx (if c = .accessViolation then d else 0)
      { cause := c, detail := d, stream := true, die := s.physDie (core / 48), core := core % 48, group := 0, lane := 0,
        aux := m.idx }

/-! ### Traps and faults -/

/-- The record of a trap of a class of lanes, R423. Its MORE stays 0 where the class has several threads, only the first of which
has performed what traps: the model's reading of R293 and R423 (assumption log 60). -/
def Rules.record (s : State) (l : Nat) (t : Trap) : TrapRec :=
  { pc := s.cur.pc, cause := t.cause, detail := t.detail, die := s.physDie (s.cur.core / 48), core := s.cur.core % 48,
    group := s.cur.slot, lane := l, aux := t.recordAux }

/-- R415, R422: with DBG = 1 a breakpoint or a watchpoint stops the threads from the trapping one on at the instruction, and
its record is queued for the host; the first is shown, and its group mapped into the debug window of its core. -/
def Rules.heldFor (s u : State) (g : Group) (ls : List Nat) (t : Trap) : Prop :=
  let r := Rules.record s (ls.headD 0) t
  u.groups = s.groups.map (fun h => if h.core = s.cur.core ∧ h.slot = s.cur.slot then
      { h with trap := some r,
               lanes := h.lanes.mapIdx fun l x => if l ∈ ls then { x with st := .stopped, hold := .trap, pc := s.cur.pc } else x }
      else h)
    ∧ (u.ctxAt g.ctx).held = (s.ctxAt g.ctx).held ++ [⟨s.cur.core, s.cur.slot, s.cur.next, r⟩]
    ∧ (u.coreAt s.cur.core).ctlPending = true
    ∧ ((s.ctxAt g.ctx).held = [] → (u.coreAt s.cur.core).dwinSlot = some s.cur.slot)
    ∧ u.cur.fate = .split
    ∧ { u with groups := s.groups, ctx := s.ctx, cores := s.cores, cur := s.cur } = s

/-- R293, R415, R419, R420, R422: `brk` takes its trap with the whole of its class: it is held for the host where the context
says so, and otherwise ends the context. That one record is made, of the first thread, with MORE = 0, is the model's reading
(assumption log 60). -/
def Rules.Breakpoints : Prop :=
  ∀ (i : Instr) (code : Nat) (s : State) (g : Group), (i = .brk code ∨ i = .brkBase ∧ code = 0) → s.cur.who = .lanes →
    s.cur.lanes ≠ [] → s.cur.lanes.Nodup → s.grp = some g → g.ctx < s.ctx.length →
    ((s.ctxAt g.ctx).dbg = true →
      ∃ u, exec i s = .next u ∧ Rules.heldFor s u g s.cur.lanes { cause := .brk, detail := code })
    ∧ ((s.ctxAt g.ctx).dbg = false → (s.ctxAt g.ctx).faulted = false → (s.ctxAt g.ctx).fatal = none →
      ∃ u, exec i s = .next u
        ∧ Rules.ended s u g.ctx 0 (Rules.record s (s.cur.lanes.headD 0) { cause := .brk, detail := code }))

/-- R39, R415, R419, R420: a trap that is neither held nor a fault ends the context of its class. -/
def Rules.TrapsEndContext : Prop :=
  ∀ (s : State) (g : Group) (ls : List Nat) (t : Trap), s.grp = some g → g.ctx < s.ctx.length →
    (s.ctxAt g.ctx).faulted = false → (s.ctxAt g.ctx).fatal = none → t.ue = none →
    t.cause ≠ .pageFault → t.cause ≠ .accessViolation → (t.cause = .brk ∨ t.cause = .watch → (s.ctxAt g.ctx).dbg = false) →
    Rules.ended s (s.split ls t) g.ctx 0 (Rules.record s (ls.headD 0) t) ∧ (s.split ls t).mem = s.mem

/-- R39, R40, R42, R415, R420: a fatal fault of a lane, and a replayable one with no valid queue that joins no record, end the
context at once: FSUB is the sub-cause and the trap's record stands in `CTX_TRAPREC`. A fatal one writes its record, with
FATAL = 1, at the tail of a queue that has room, in device memory where LOC is 0; where there is no queue or no room, or the write meets an
uncorrectable error (R80; that this one is reported is assumption log 78), nothing is written. -/
def Rules.FatalFaults : Prop :=
  ∀ (s : State) (g : Group) (ls : List Nat) (t : Trap), s.grp = some g → g.ctx < s.ctx.length → s.cur.core < 192 →
    (s.ctxAt g.ctx).faulted = false → (s.ctxAt g.ctx).fatal = none → t.ue = none →
    (t.cause = .pageFault ∨ t.cause = .accessViolation) →
    let c := s.ctxAt g.ctx
    let u := s.split ls t
    let k := c.fqsize.toNat % 32
    let full : Prop := (c.fqtail + 1) % 2 ^ k = c.fqhead.toNat % 2 ^ k
    (t.demand = false ∨ (k < 6 ∨ 16 < k) ∧ (∀ r ∈ c.recs, r.joins t.aux t.detail t.kind = false) →
      Rules.ended s u g.ctx t.detail (Rules.record s (ls.headD 0) t) ∧ u.cur.fate = .split)
    ∧ (t.demand = false → (k < 6 ∨ 16 < k) ∨ full → u.mem = s.mem ∧ u.sysMem = s.sysMem ∧ (u.ctxAt g.ctx).fqtail = c.fqtail)
    ∧ ∀ p, t.demand = false → 6 ≤ k → k ≤ 16 → ¬ full → c.fqbase.toNat % 2 = 0 →
        s.window c.part (c.fqbase.toNat / 2 ^ 12 % 2 ^ 40 * 2 ^ 12 + 32 * (c.fqtail % 2 ^ k)) = some p →
        (∀ e, s.ueIn (.dev p) 32 = some e →
          u.mem = s.mem ∧ u.sysMem = s.sysMem ∧ (u.ctxAt g.ctx).fqtail = c.fqtail ∧ u.chan = (s.noteUe e).chan)
        ∧ (s.ueIn (.dev p) 32 = none → u.mem = (s.wrBytes (.dev p)
            (leBytes t.aux 8
              ++ leBytes (t.kind.code + t.source * 2 ^ 4 + t.detail * 2 ^ 8 + 2 ^ 14 + (if c.fqwrap then 2 ^ 15 else 0)
                + c.seq % 2 ^ 16 * 2 ^ 16) 4
              ++ leBytes (ls.headD 0 * 2 ^ 4 + s.cur.slot * 2 ^ 9 + s.cur.core % 48 * 2 ^ 18
                + s.physDie (s.cur.core / 48) * 2 ^ 24) 4
              ++ leBytes s.cur.pc.toNat 8 ++ leBytes t.level 4 ++ leBytes 0 4)).mem
          ∧ u.sysMem = s.sysMem ∧ (u.ctxAt g.ctx).fqtail = (c.fqtail + 1) % 2 ^ k
          ∧ (u.ctxAt g.ctx).seq = (c.seq + 1) % 2 ^ 16)

/-- The access that a load, a store or an atomic makes: its kind, whether it reads tiles, its address, its bytes and what its
address must be a multiple of. -/
def Rules.access (s : State) (l : Nat) : Instr → Option (Access × Bool × Nat × Nat × Nat)
  | .ld t o _ _ a off _ => some (.read, false, s.ea l a off, t.bytes, if o.strong then t.bytes else 1)
  | .ldt t _ _ a off _ => some (.read, true, s.ea l a off, t.bytes, 1)
  | .st t o _ a off _ => some (.write, false, s.ea l a off, t.bytes, if o.strong then t.bytes else 1)
  | .atom _ t _ _ _ _ a off _ _ _ => some (.atomic, false, s.ea l a off, t.bytes, t.bytes)
  | _ => none

/-- R426: a watchpoint is enabled for a kind of access and its range has a byte of it. -/
def Rules.watches (c : Ctx) (w : Nat) (kind : Access) (va n : Nat) : Prop :=
  let x := c.watch.getD w 0
  let len := 2 ^ Nat.min (x.toNat % 32) 30
  let base := (x.toNat >>> 64) / len * len
  x[63] = true ∧ (if kind = .write ∨ kind = .atomic then x[61] = true else x[62] = true) ∧ va < base + len ∧ base < va + n

/-- R415, R422, R426: with DBG = 1, an access of the thread that heads a class, which the checks of R327 let pass and the lowest
enabled watchpoint that it touches watches, takes `WATCH` with that number, and is not performed: the trap is held for the host.
A thread that has been resumed from it performs. That a range starts at its ADDR rounded down to its length, and that LOG2LEN
above 30 counts as 30, is the model's reading (assumption log 57). -/
def Rules.Watchpoints : Prop :=
  ∀ (i : Instr) (s : State) (g : Group) (l : Nat) (ls : List Nat) (kind : Access) (tiled : Bool) (va n align w : Nat) (runs : Runs),
    s.cur.who = .lanes → s.cur.lanes = l :: ls → s.cur.lanes.Nodup → s.grp = some g → g.ctx < s.ctx.length → s.sound l i →
    (∀ f, i.flag? = some f → s.flagFull f = false) → Rules.access s l i = some (kind, tiled, va, n, align) →
    va < 2 ^ 52 → va % align = 0 → (s.ctxAt g.ctx).en = true → s.missing g.ctx s.cur.core l (pagesOf n) va n = none →
    s.span g.ctx { kind, tiled, core := s.cur.core } (pagesOf n) va n = .ok runs → s.reserved g.ctx s.myLaunch kind va n = none →
    (s.ctxAt g.ctx).dbg = true → (s.lane l).noWatch = false → w < 4 → Rules.watches (s.ctxAt g.ctx) w kind va n →
    (∀ v, v < w → ¬ Rules.watches (s.ctxAt g.ctx) v kind va n) →
    ∃ u, exec i s = .next u ∧ Rules.heldFor s u g (l :: ls) { cause := .watch, detail := w, aux := va }

/-- R39, R43, R415: a replayable fault of a lane that joins no record makes one, and the threads from the faulting one on are
held, Stopped at the instruction, until it is replayed; nothing is written yet, and the debug window shows the trap (R424). -/
def Rules.ReplayableFaults : Prop :=
  ∀ (s : State) (g : Group) (ls : List Nat) (t : Trap), s.grp = some g → g.ctx < s.ctx.length → ls.Nodup →
    t.cause = .pageFault → t.demand = true → t.ue = none → (s.ctxAt g.ctx).fqN ≠ none →
    (∀ r ∈ (s.ctxAt g.ctx).recs, r.joins t.aux t.detail t.kind = false) →
    let u := s.split ls t
    (u.ctxAt g.ctx).recs = (s.ctxAt g.ctx).recs ++
        [{ id := s.ids, va := t.aux, sub := t.detail, kind := t.kind, level := t.level
           src := { code := t.source, die := s.physDie (s.cur.core / 48), core := s.cur.core % 48, group := s.cur.slot,
                    lane := ls.headD 0, pc := s.cur.pc }
           trap := some (Rules.record s (ls.headD 0) t) }]
      ∧ u.groups = s.groups.map (fun h => if h.core = s.cur.core ∧ h.slot = s.cur.slot then
          { h with trap := some (Rules.record s (ls.headD 0) t), lanes := h.lanes.mapIdx fun l x =>
              if l ∈ ls then { x with st := .stopped, hold := .record s.ids, pc := s.cur.pc } else x }
          else h)
      ∧ u.mem = s.mem ∧ u.sysMem = s.sysMem

/-- R40, R42: the first record that waits for room is written at the tail of its queue, in device memory where LOC is 0, and
the tail passes it; a full queue takes nothing. A record of a lane's fault that cannot be written, its address lying outside the
partition window, is a fatal fault with its own sub-cause (R39, R420). An uncorrectable error that the write meets ends the
context (R80); that it is reported in its channel, and that the write leaves no line in L2, are the model's choices (assumption
log 78). -/
def Rules.FaultRecords : Prop :=
  ∀ (n k p : Nat) (s : State) (r : FaultRec) (pre post : List FaultRec), n < s.ctx.length →
    let c := s.ctxAt n
    let x := r.src
    c.recs = pre ++ r :: post → (∀ q ∈ pre, q.seq ≠ none) → (∀ q ∈ pre ++ post, q.id ≠ r.id) → r.seq = none →
    c.fqsize.toNat % 32 = k → 6 ≤ k → k ≤ 16 →
    ((c.fqtail + 1) % 2 ^ k = c.fqhead.toNat % 2 ^ k → exec (.faultRecordWrite n) s = .next s)
    ∧ ((c.fqtail + 1) % 2 ^ k ≠ c.fqhead.toNat % 2 ^ k → c.fqbase.toNat % 2 = 0 →
      s.window c.part (c.fqbase.toNat / 2 ^ 12 % 2 ^ 40 * 2 ^ 12 + 32 * (c.fqtail % 2 ^ k)) = some p → s.ueIn (.dev p) 32 = none →
      ∃ t, exec (.faultRecordWrite n) s = .next t
        ∧ t.mem = (s.wrBytes (.dev p)
            (leBytes r.va 8
              ++ leBytes (r.kind.code + x.code * 2 ^ 4 + r.sub * 2 ^ 8 + (if c.fqwrap then 2 ^ 15 else 0) + c.seq % 2 ^ 16 * 2 ^ 16) 4
              ++ leBytes (x.lane * 2 ^ 4 + x.group * 2 ^ 9 + x.core * 2 ^ 18 + x.die * 2 ^ 24) 4 ++ leBytes x.pc.toNat 8
              ++ leBytes (r.level + Nat.min r.joined 0xFFFF * 2 ^ 16) 4 ++ leBytes 0 4)).mem
        ∧ (t.ctxAt n).recs = pre ++ { r with seq := some c.seq } :: post
        ∧ (t.ctxAt n).fqtail = (c.fqtail + 1) % 2 ^ k ∧ (t.ctxAt n).seq = (c.seq + 1) % 2 ^ 16
        ∧ (t.ctxAt n).fqwrap = (if (c.fqtail + 1) % 2 ^ k = 0 then !c.fqwrap else c.fqwrap)
        ∧ { t with mem := s.mem, ctx := s.ctx, l2 := s.l2, past := s.past, ce := s.ce, chan := s.chan } = s)
    ∧ (∀ y e, (c.fqtail + 1) % 2 ^ k ≠ c.fqhead.toNat % 2 ^ k → c.fqbase.toNat % 2 = 0 →
      s.window c.part (c.fqbase.toNat / 2 ^ 12 % 2 ^ 40 * 2 ^ 12 + 32 * (c.fqtail % 2 ^ k)) = some p →
      s.ueIn (.dev p) 32 = some e → r.trap = some y → c.faulted = false → c.fatal = none →
      ∃ t, exec (.faultRecordWrite n) s = .next t ∧ Rules.ended s t n 0 y ∧ t.mem = s.mem ∧ t.chan = (s.noteUe e).chan)
    ∧ ∀ y, (c.fqtail + 1) % 2 ^ k ≠ c.fqhead.toNat % 2 ^ k → c.fqbase.toNat % 2 = 0 →
      s.window c.part (c.fqbase.toNat / 2 ^ 12 % 2 ^ 40 * 2 ^ 12 + 32 * (c.fqtail % 2 ^ k)) = none → r.trap = some y →
      c.faulted = false → c.fatal = none →
      ∃ t, exec (.faultRecordWrite n) s = .next t ∧ Rules.ended s t n r.sub y ∧ t.mem = s.mem

/-! ### Launches, teams and groups -/

/-- R201, R203: the record at a queue's HEAD, its address and its queue's size, while the engine may take it. -/
def Rules.headRecord (s : State) (n q k va : Nat) (x : LQ) : Prop :=
  let c := s.ctxAt n
  n < s.ctx.length ∧ c.en = true ∧ c.faulted = false ∧ c.busy = false ∧ c.saved = false ∧ c.lq[q]? = some x ∧ x.en = true
    ∧ x.waitOn = none ∧ x.ctl.toNat % 16 = k ∧ 4 ≤ k ∧ k ≤ 12 ∧ x.head % 2 ^ k ≠ x.tail.toNat % 2 ^ k
    ∧ va = x.base.toNat / 2 ^ 12 % 2 ^ 40 * 2 ^ 12 + 256 * (x.head % 2 ^ k)

/-- A plain read by the launch engine that finds bytes; what it leaves is what the home slices hold of the lines that it and its
translation read. -/
def Rules.reads (s : State) (n va len : Nat) (u : State) (xs : List Byte) : Prop :=
  s.engineRead n { core := engineCore } va len { code := 9, die := s.physDie 0 } = .ok (u, xs)

/-- A queue set to `x`. -/
def Rules.queue (s : State) (n q : Nat) (x : LQ) : State := s.updCtx n fun c => { c with lq := c.lq.set q x }

/-- R206: HEAD passes a rejected record, whose code and index stand in LQ_STATUS. -/
def Rules.rejected (x : LQ) (k code : Nat) : LQ :=
  { x with head := (x.head + 1) % 2 ^ k, taking := .none, err := true, ecode := code, erridx := x.head % 2 ^ k }

/-- R207: the prerequisites of a record read in turn: one that is satisfied already stays so, and another is satisfied if PADDR
holds at least PVAL. -/
def Rules.judged (n : Nat) : State → List (Nat × Nat × Bool) → State → List (Nat × Nat × Bool) → Prop
  | s, [], u, es => u = s ∧ es = []
  | s, (a, v, ok) :: rest, u, es =>
    if ok = true ∨ a % 8 ≠ 0 then ∃ more, es = (a, v, true) :: more ∧ Rules.judged n s rest u more
    else ∃ t xs more, Rules.reads s n a 8 t xs ∧ es = (a, v, decide (v ≤ leNat xs)) :: more ∧ Rules.judged n t rest u more

/-- R203, R206, R207: the prerequisite read and its repetition. NPRE above 4 rejects the record; otherwise an entry is satisfied
from the first read that finds at least PVAL at PADDR. That an entry whose PADDR is not a multiple of 8 counts as satisfied, so
that the record is judged by R206, is the model's choice (assumption log 24). -/
def Rules.Prerequisites : Prop :=
  ∀ (s u : State) (n q k va : Nat) (x : LQ) (es : List (Nat × Nat × Bool)), Rules.headRecord s n q k va x →
    (∀ w0 xs s1 s2, x.taking = .none → Rules.reads s n va 4 s1 w0 →
      let npre := leNat w0 / 2 ^ 24 % 8
      (4 < npre → exec (.launchPrereqRead n q) s = .next (Rules.queue s1 n q (Rules.rejected x k 1)))
      ∧ (npre ≤ 4 → Rules.reads s1 n (va + 0x50) (16 * npre) s2 xs →
        Rules.judged n s2 ((List.range npre).map fun i =>
          (leNat ((xs.drop (16 * i)).take 8), leNat ((xs.drop (16 * i + 8)).take 8), false)) u es →
        exec (.launchPrereqRead n q) s = .next (Rules.queue u n q { x with taking := .prereq npre es, waitOn := none })))
    ∧ ∀ npre es0, x.taking = .prereq npre es0 → Rules.judged n s es0 u es →
      exec (.prereqReread n q) s = .next (Rules.queue u n q { x with taking := .prereq npre es, waitOn := none })

/-- R203, R206: the record read, which begins anew where a read of it waited on a fault (assumption log 82): with every
prerequisite satisfied, the record, its reduction table and its render descriptor are
read, and it is rejected with the lowest code whose condition it meets, or stands read. `table` is none for a table that breaks
a rule of R95, and `desc` holds none for a descriptor that could not be read. -/
def Rules.RecordRead : Prop :=
  ∀ (s s1 s2 u : State) (n q k va npre : Nat) (x : LQ) (es : List (Nat × Nat × Bool)) (xs : List Byte)
    (table : Option (List RedRange)) (desc : Option (Option (List Word))), Rules.headRecord s n q k va x →
    x.taking = .prereq npre es → (∀ e ∈ es, e.2.2 = true) → Rules.reads s n va 256 s1 xs →
    let r : LRec := patchRecord (wordsAt xs 64) npre es
    s1.readTable n r = .ok (s2, table) → s2.readDesc n r = .ok (u, desc) →
    let becomes (y : LQ) : Prop := exec (.launchRecordRead n q) s = .next (Rules.queue u n q y)
    let broken : List (Bool × Nat) := [(r.bad1, 1), (r.bad2, 2), (table.isNone, 3), (u.bad4 r, 4), (r.bad5, 5),
      ((match desc with | none => false | some none => true | some (some d) => !RDesc.valid d r.roles), 6)]
    (∀ pre code post, broken = pre ++ (true, code) :: post → (∀ e ∈ pre, e.1 = false) → becomes (Rules.rejected x k code))
    ∧ ((∀ e ∈ broken, e.1 = false) → ∃ ranges, table = some ranges ∧ becomes { x with taking := .read r ranges desc.join })

/-- R95, R203: a record that has been read is accepted once no range or log of its table overlaps one of another unretired
launch of its context, and waits until then; its launch has no team yet. -/
def Rules.LaunchAcceptance : Prop :=
  ∀ (s : State) (n q k va : Nat) (x : LQ) (r : List Word) (table : List RedRange) (desc : Option (List Word)),
    Rules.headRecord s n q k va x → x.taking = .read r table desc →
    let blocks (x : RedRange) : List (Nat × Nat) := [(x.base, x.bytes), (x.log, x.logBytes)]
    let overlap : Prop := ∃ l ∈ s.launches, l.ctx = n ∧ ∃ a ∈ l.table, ∃ b ∈ table, ∃ u ∈ blocks a, ∃ v ∈ blocks b,
      u.1 < v.1 + v.2 ∧ v.1 < u.1 + u.2
    (overlap → exec (.launchAccept n q) s = .next s)
    ∧ (¬ overlap → exec (.launchAccept n q) s = .next { (Rules.queue s n q { x with taking := .placing s.ids }) with
        ids := s.ids + 1
        launches := s.launches ++ [{ id := s.ids, ctx := n, queue := q, record := r, table, accepted := s.us,
                                     render := desc.map fun d => Render.start d s.dieCount }] })

/-- R208: the launch that the engine serves: of those with teams left to place, in a context that is live, the first accepted
among those of the highest effective priority. That the PRIO of its queue counts as LQ_CTL now holds it is the model's reading
(assumption log 25). -/
def Rules.serves (s : State) (l : Launch) : Prop :=
  let prio (l : Launch) : Nat := Nat.min 3 (((s.ctxAt l.ctx).lq.getD l.queue {}).prio + (s.us - l.accepted) / 2000)
  let live (l : Launch) : Prop := l.allPlaced = false ∧ (s.ctxAt l.ctx).live = true
  s.stage = .stage2 ∧ (∀ p ∈ s.ucie, ∃ b ∈ p.2.2, b = true) ∧ live l
    ∧ ∃ pre post, s.launches = pre ++ l :: post ∧ (∀ m ∈ pre, live m → prio m < prio l) ∧ ∀ m ∈ post, live m → prio m ≤ prio l

/-- R191, R197, R209, R213: the next team of the launch that is served is placed on the unit that R213 chooses, as soon as one
fits: its groups are resident with every thread Ready at its role's entry with the role's frame, all else of them as at
placement, and its stream's fetch begins; its cores' L1 keeps nothing that its threads could read (R60, R131). While none fits,
nothing is placed. -/
def Rules.TeamPlacement : Prop :=
  ∀ (s : State) (l : Launch), Rules.serves s l → (∀ m ∈ s.launches, m.id = l.id → m = l) →
    let r : LRec := l.record
    r.det = false → r.hasCont = false →
    let unit := s.unitFor s.teams r.need r.ext
    (unit = none → exec .teamPlace s = .next s)
    ∧ ∀ u, unit = some u → ∃ t tm, exec .teamPlace s = .next t ∧ t.teams = s.teams ++ [tm]
      ∧ tm.id = s.ids ∧ tm.launch = l.id ∧ tm.ctx = l.ctx ∧ tm.no = l.placed ∧ tm.cores = u ∧ tm.roles = r.roles
      ∧ tm.spsize = 4096 * r.spsize ∧ tm.tiles = r.tiles ∧ tm.barbase = r.barbase ∧ tm.spad = [] ∧ tm.acc = []
      ∧ tm.stream = (if r.mentry = 0 then none else some { entry := BitVec.ofNat 64 r.mentry, len := r.mlen })
      ∧ (∃ gs, t.groups = s.groups ++ gs ∧ ∀ g ∈ gs, g.team = s.ids ∧ g.ctx = l.ctx ∧ g.sregs = [] ∧ g.tpart = 5 ∧ g.fmode = 1
          ∧ g.fstat = 0 ∧ g.fseed = 0 ∧ (∀ f ∈ g.flags, f = 0) ∧ g.lanes.length = 32 ∧ ∃ d, r.roles[g.role]? = some d
            ∧ d.task = false ∧ ∀ x ∈ g.lanes, x = { st := .ready, pc := d.entry, f := d.b })
      ∧ (∀ e ∈ t.l1, e.core ∉ u)
      ∧ (∃ m ∈ t.launches, m.id = l.id ∧ m.placed = l.placed + 1) ∧ t.mem = s.mem

/-- R214, R216: the next cluster of a deterministic launch that is served is placed whole, its teams in order of position with
the logical cores of R216, or not at all. -/
def Rules.ClusterPlacement : Prop :=
  ∀ (s : State) (l : Launch), Rules.serves s l → (∀ m ∈ s.launches, m.id = l.id → m = l) →
    let r : LRec := l.record
    r.det = true → r.hasCont = false →
    let ts := r.clusterTeams (r.ranked.getD l.placed (0, 0))
    let plan := (List.range (r.cx * r.cy)).map fun p =>
      (ts.getD p 0, (l.placed * r.clusterCores + p * r.ext) % 256, some l.placed)
    (s.placeAll l plan = none → exec .clusterPlace s = .next s)
    ∧ (s.placeAll l plan ≠ none → ∃ t tms, exec .clusterPlace s = .next t ∧ t.teams = s.teams ++ tms
      ∧ tms.map (fun t => (t.no, t.logical, t.launch, t.det)) = plan.map (fun e => (e.1, e.2.1, l.id, true))
      ∧ (∀ u ∈ tms, u.cores.length = r.ext) ∧ (∃ m ∈ t.launches, m.id = l.id ∧ m.placed = l.placed + 1) ∧ t.mem = s.mem)

/-- R58, R197: the words of a stream that has been fetched, through L2 and not through its core's instruction cache, stand in its
sequencer, and it begins at its first instruction. -/
def Rules.StreamBegins : Prop :=
  ∀ (s : State) (team : Nat) (t : Team) (m : Stream) (ws : List Word), s.team? team = some t → t.stream = some m →
    m.st = .fetching → m.waitOn = none → (s.ctxAt t.ctx).saving = false →
    let core := t.cores.getD 0 0
    let bare := { s with lines := s.lines.filter fun l => l.core != core }
    bare.fetchInstrs t.ctx core m.len m.entry.toNat = .ok ws →
    exec (.streamFetchComplete team) s =
      .next (State.updTeam { bare.fetched t.ctx core m.entry.toNat (4 * ws.length) with lines := s.lines } team fun u =>
        { u with stream := u.stream.map fun m' => { m' with words := ws, st := if m'.len = 0 then .ended else .running } })

/-- R172: a group whose lanes are all Exited or Vacant and whose flags are all 0 leaves its slot; where no key of its core has
32 records, nothing else happens but that the team keeps how many contributions each of its threads has made (R96), and that a
window that showed the group may show that of another held record. -/
def Rules.GroupLeaves : Prop :=
  ∀ (s : State) (core slot : Nat) (g : Group), s.group? core slot = some g → (∀ t ∈ g.lanes, t.st = .exited ∨ t.st = .vacant) →
    (∀ f ∈ g.flags, f = 0) → (∀ i ∈ s.issues, i.core = core → i.slot ≠ slot) → (∀ w ∈ s.wells, w.1 = core → s.keyCount core w.2 < 32) →
    (∀ c ∈ s.ctx, ∀ h, c.held.head? = some h → h.core = core → h.slot ≠ slot) →
    ∃ t, exec (.groupLeaveSlot core slot) s = .next t
      ∧ t.groups = s.groups.filter (fun g => !(g.core == core && g.slot == slot)) ∧ (t.coreAt core).dwinSlot ≠ some slot
      ∧ t.teams = s.teams.map (fun u => if u.id = g.team then
          { u with seqs := (g.lanes.zipIdx.filterMap fun e => if e.1.seq = 0 then none else some (32 * g.index + e.2, e.1.seq))
                             ++ u.seqs.filter fun e => e.1 / 32 != g.index } else u)
      ∧ { t with groups := s.groups, cores := s.cores, teams := s.teams } = s

/-- R51, R172, R217, R224: a team of which nothing is left ends, and its window, tiles and slots are free. A launch that is not
deterministic, has no PROG or waits writes nothing; where a cluster of a deterministic launch has ended and the count of those
from the first rank on has advanced, PROG receives it. -/
def Rules.TeamEnds : Prop :=
  ∀ (s : State) (id : Nat) (tm : Team) (l : Launch), s.team? id = some tm → s.launch? tm.launch = some l →
    (∀ g ∈ s.groups, g.team ≠ id) → (∀ w ∈ s.wells, w.2.team ≠ id) → (∀ w ∈ s.sumps, w.2.2.team ≠ id) →
    (∀ v ∈ s.saves, ∀ w ∈ v.tasks, w.2.team ≠ id) → (∀ c ∈ s.copies, c.team ≠ id) → l.render = none →
    (s.ctxAt tm.ctx).saving = false →
    let counted (ended : List Nat) (retired : Nat) : State :=
      { s with teams := s.teams.filter fun u => u.id != id
               launches := s.launches.map fun m => if m.id == l.id then { m with ended, retired } else m }
    (tm.det = false → l.told = l.retired → exec (.teamEnd id) s = .next (counted l.ended l.retired))
    ∧ (∀ ended retired, tm.det = true → s.progress tm l = (ended, retired) →
        (l.waitOn ≠ none ∨ l.told = retired ∨ LRec.prog l.record = 0 → exec (.teamEnd id) s = .next (counted ended retired))
        ∧ ∀ u, l.waitOn = none → l.told ≠ retired → LRec.prog l.record ≠ 0 →
          (counted ended retired).engineWrite l.ctx l.id { core := engineCore } (LRec.prog l.record) (leBytes retired 8)
            { code := 9, die := s.physDie 0 } = .ok u →
          exec (.teamEnd id) s = .next { u with
            launches := u.launches.map fun m => if m.id == l.id then { m with told := retired } else m })

/-- R210: a launch whose teams have all ended, whose contributions are committed and whose progress word is written retires, with
its completion write where COMPL is not 0. -/
def Rules.Retirement : Prop :=
  ∀ (s : State) (id : Nat) (l : Launch), s.launch? id = some l → l.allPlaced = true → (∀ t ∈ s.teams, t.launch ≠ id) →
    (∀ v ∈ s.saves, ∀ t ∈ v.teams, t.launch ≠ id) → (l.committed = true ∨ l.table = []) → l.render = none → l.waitOn = none →
    (s.ctxAt l.ctx).saved = false → (l.told = l.retired ∨ LRec.prog l.record = 0) →
    (LRec.compl l.record = 0 →
      exec (.launchRetire id) s = .next { s with launches := s.launches.filter fun x => x.id != id })
    ∧ ∀ s', LRec.compl l.record ≠ 0 →
      s.engineWrite l.ctx id { core := engineCore } (LRec.compl l.record % 2 ^ 64) (leBytes (LRec.complv l.record) 8)
        { code := 9, die := s.physDie 0 } = .ok s' →
      exec (.launchRetire id) s = .next { s' with launches := s'.launches.filter fun x => x.id != id }

/-! ### Clauses, and what completes -/

/-- R174, R175, R181, R183, R218: with one group on a pipeline, the class that may issue issues the clause that its threads stand
at: its instructions stand in the pipeline, and each register block that a safe point's LIVE does not name is cleared; what the debug window wrote to
the class's threads has taken effect (R425), and the lines of the clause have been read (R58). -/
def Rules.ClauseIssues : Prop :=
  ∀ (s : State) (core pipe l pc : Nat) (g : Group) (h : Header) (ws : List Word) (rest : List Nat),
    s.stage = .stage2 → s.coreOn core = true → (∀ i ∈ s.issues, i.core = core → i.pipe ≠ pipe) →
    s.groups.filter (fun g => g.core == core && g.slot / 4 == pipe) = [g] → s.mayIssue g = true →
    (s.ctxAt g.ctx).saving = false → g.classHeads = l :: rest → s.candidate g l = .go h pc ws →
    ∃ t, exec (.clauseIssue core pipe) s = .next t
      ∧ t.issues = s.issues ++ [{ core, pipe, slot := g.slot, lanes := g.classOf l, pc := BitVec.ofNat 64 pc, words := ws,
                                  left := h.count, wait := h.wait, setA := h.setA, setB := h.setB }]
      ∧ (∀ u, t.group? core g.slot = some u → u.lam = l ∧ u.age = 0 ∧ u.flags = g.flags ∧ u.sregs = g.sregs
          ∧ u.lanes = g.lanes.mapIdx (fun k x => if k ∈ g.classOf l then
              { (if h.safe then x.applyLive h.live else x) with mid := none, due := none } else x))
      ∧ { t with issues := s.issues, groups := s.groups } = s.fetchedClause g l pc ws

/-- R181, R241: the issue at `idx` of a group is complete: its registers hold `ws`, its flag has fallen, it is outstanding no
more, and nothing else has changed. -/
def Rules.completed (s : State) (core slot idx : Nat) (g : Group) (p : Pend) (ws : List (Nat × Nat × Word)) (t : State) : Prop :=
  ∃ h, t.group? core slot = some h
    ∧ h.flags = g.flags.set p.flag (g.flags.getD p.flag 0 - 1) ∧ h.fstat = g.fstat ||| p.fstat
    ∧ h.pend = g.pend.eraseIdx idx
    ∧ h.lanes = g.lanes.mapIdx (fun l x => (ws.filter fun w => w.1 == l && p.lanes.contains l).foldl
        (fun x w => { x with slots := x.slots.set w.2.1 w.2.2, bad := x.bad.filter fun k => k ≠ w.2.1 }) x)
    ∧ { h with flags := g.flags, fstat := g.fstat, pend := g.pend, lanes := g.lanes } = g
    ∧ { t with groups := s.groups } = s

/-- R181, R182, R241: a long-latency issue that waits for no unit completes: each register of its lanes still to be written
receives its value, its status bits are raised, and its flag counts down by one. -/
def Rules.LongWrites : Prop :=
  ∀ (s : State) (core slot idx : Nat) (g : Group) (p : Pend), s.group? core slot = some g → g.pend[idx]? = some p →
    p.waitOn = none → (p.work = .none ∨ ∃ no, p.work = .neval no ∧ s.rowsLeft no = false) →
    ∃ t, exec (.longLatencyComplete core slot idx) s = .next t ∧ Rules.completed s core slot idx g p p.writes t

/-- R33, R34, R35: a miss of an enabled context enters its core's queue while there is room, and waits while there is none; the
walk of a page that has a slot of its die's walker takes it from the queue, and what it finds enters the core's TLB, in which a
set holds 8, and its die's walk cache. A walk that faults, or that finds a leaf that is not resident or whose frame lies outside
the partition window, caches nothing. The threads that joined the request go on in every case. Which set a translation stands in,
and which entries a full set or walk cache gives up, the oldest, is the model's choice (assumption log 62); that a walk's reads
leave no line in L2 is too (assumption log 78). -/
def Rules.Walks : Prop :=
  ∀ (s : State) (core n : Nat) (va : DWord), s.stage = .stage2 → (s.ctxAt n).en = true → va.toNat < 2 ^ 52 → core < 192 →
    let page := va.toNat / 4096
    let c := s.ctxAt n
    let root := c.ptroot.toNat / 2 ^ 16 % 2 ^ 36 * 2 ^ 16
    let wants (m : Miss) : Prop := m.core = core ∧ m.ctx = n ∧ m.page = page ∧ m.stage ≠ .walked
    let queued := (s.misses.filter fun m => m.core == core && m.stage != .walked).length
    let runs (u v : State) : Prop := exec (.pageWalk core n va) u = .next v
    ((∀ m ∈ s.misses, ¬ wants m) → runs s (if queued < 64 then { s with misses := s.misses ++ [⟨core, n, page, .queued, []⟩] } else s))
    ∧ ((∃ m ∈ s.misses, wants m) →
      let t := s.allot (core / 48) 64
      ((∀ m ∈ t.misses, wants m → m.stage = .queued) → runs s t)
      ∧ ∀ pre m post, t.misses = pre ++ m :: post → (∀ x ∈ pre, wants x → x.stage = .queued) → wants m → m.stage = .walking →
        let read := t.tableReads n { core } va.toNat 1
        let left := (t.misses.map fun x => if x = m then { x with stage := .walked } else x).filter fun x =>
          x.stage != .walked || !x.joined.isEmpty
        let kept (l : Leaf) : Prop :=
          l.entry[10] = false ∧ (l.entry[11] = true ∨ s.window c.part (l.target va.toNat) ≠ none)
        let set (e : TlbEntry) : Nat := e.vbase / e.leaf.pageSize % 256
        (∀ l es, s.walkCtx n (core / 48) va.toNat = .ok (l, es) → kept l →
          let e : TlbEntry := ⟨core, c.part, c.asid, va.toNat / l.pageSize * l.pageSize, l⟩
          runs s { read with
            misses := left
            tlb := capped (fun x => x.unit == core && set x == set e) 8 (e :: s.tlb)
            walk := capped (fun e => e.die == core / 48) 512
              (es.map (fun e => ⟨core / 48, root, c.part, c.asid, e.1, va.toNat / 2 ^ (12 + 9 * e.1), e.2⟩) ++ s.walk) })
        ∧ (∀ l es, s.walkCtx n (core / 48) va.toNat = .ok (l, es) → ¬ kept l → runs s { read with misses := left })
        ∧ ∀ f, s.walkCtx n (core / 48) va.toNat = .error f → runs s { read with misses := left })

/-- R34: the 64 slots of a die's walker go to requests of its cores, the oldest of a core first, as long as one waits and a slot is
free; no request is lost, and none of another die moves. -/
def Rules.WalkSlots : Prop :=
  ∀ (s : State) (die : Nat),
    let t := s.allot die 64
    let mine (g : MissStage) (u : State) : Nat := (u.misses.filter fun m => m.core / 48 == die && m.stage == g).length
    t.misses.map (fun (m : Miss) => { m with stage := .queued }) = s.misses.map (fun (m : Miss) => { m with stage := .queued })
    ∧ (mine .walking s ≤ 64 → mine .walking t ≤ 64)
    ∧ (64 ≤ mine .walking t ∨ mine .queued t = 0)
    ∧ (∀ (k : Nat) (m : Miss), s.misses[k]? = some m → t.misses[k]? = some m
        ∨ m.core / 48 = die ∧ m.stage = .queued ∧ t.misses[k]? = some { m with stage := .walking })
    ∧ ∀ (i j : Nat) (a b : Miss), i < j → t.misses[i]? = some a → t.misses[j]? = some b → s.misses[j]? = some { b with stage := .queued } →
        a.core = b.core → a.stage = .queued → b.stage ≠ .walking

/-! ### Tasks, manifolds, siphons -/

/-- R60, R96, R191, R222: the oldest record of a core's wellhead whose key has 32 records, or that has stood for 256 cycles, forms a
group with the oldest records of its key: each fills a lane, Ready at the entry with its role's frame and its arguments in
`v0` to `v15`, and the lanes above are Vacant. The count of contributions goes on from what a thread of the same `%tid` has made
(R96), and what the core's threads read from then on is not taken from its L1 (R60). -/
def Rules.TaskGroups : Prop :=
  ∀ (s : State) (core c slot idx : Nat) (w : Nat × Task) (pre post : List (Nat × Task)) (tm : Team) (r : Role),
    s.wells = pre ++ w :: post → w.1 = core → s.team? w.2.team = some tm → tm.roles[w.2.role]? = some r →
    let now := (s.coreAt core).clk.toNat
    let mine (v : Nat × Task) : Bool := v.1 == core && v.2.team == w.2.team && v.2.quarter == w.2.quarter && v.2.role == w.2.role
      && v.2.entry == w.2.entry
    (∀ v ∈ pre, v.1 = core → now < v.2.since + 256 ∧ s.keyCount core v.2 < 32) →
    (w.2.since + 256 ≤ now ∨ 32 ≤ (s.wells.filter mine).length) → (s.ctxAt tm.ctx).saving = false →
    s.freeIndex tm w.2.role w.2.quarter = some (c, slot, idx) →
    let ks := ((s.wells.filter mine).map (·.2)).take 32
    exec (.wellheadTimeout core) s = .next { s with
      wells := s.wells.filter (fun v => !mine v) ++ (s.wells.filter mine).drop 32
      groups := s.groups ++ [{ core := c, slot, ctx := tm.ctx, team := tm.id, role := w.2.role, index := idx, tasks := true
                               lanes := ks.zipIdx.map (fun e => { st := .ready, pc := w.2.entry, f := r.b, grid := e.1.grid
                                                                  slots := Store.setAll [] 0 e.1.args, seq := tm.seqOf idx e.2 })
                                 ++ (List.range (32 - ks.length)).map fun j => { seq := tm.seqOf idx (ks.length + j) } }]
      l1 := s.l1.filter fun e => e.core != c }

/-- R221: the record at STAIL moves into the wellhead of its quarter's core, when that has room, and STAIL advances. -/
def Rules.SumpDrains : Prop :=
  ∀ (s : State) (n : Nat) (w : Nat × Nat × Task) (tm : Team) (u : State) (xs : List Byte), n < s.ctx.length →
    let c := s.ctxAt n
    let core := tm.cores.getD w.2.2.quarter 0
    c.live = true → c.shead ≠ c.stail → 5 ≤ c.sumpN → c.sumpWait = none →
    s.sumps.find? (fun w => w.1 == n && w.2.1 == c.stail) = some w → s.team? w.2.2.team = some tm →
    s.wellRoom core tm.id = true → (∀ v ∈ s.wells, v.1 = core → s.keyCount core v.2 < 31) →
    s.engineRead n { core := engineCore } (c.sumpBase.toNat / 2 ^ 12 % 2 ^ 40 * 2 ^ 12 + 128 * c.stail) 128
      { code := 7, die := s.physDie (core / 48) } = .ok (u, xs) →
    exec (.sumpDrain n) s = .next { u with
      sumps := s.sumps.filter fun x => !(x.1 == n && x.2.1 == c.stail)
      wells := s.wells ++ [(core, { w.2.2 with since := (s.coreAt core).clk.toNat })]
      ctx := updAt s.ctx n fun c => { c with stail := (c.stail + 1) % 2 ^ c.sumpN } }

/-! ### Home slices and bank arithmetic -/

/-- R61, R62, R64, R80, R86: a request performed at the home slice of its line, one of device memory or of the memory behind a host
port: a read answers the bytes, a write stores them, and an atomic answers the value it found and stores its new value; the line
is then held in L2 (the model's choice: assumption log 85). A request that meets an uncorrectable error performs nothing, and its
context ends. Where one die runs, it is the home of the lines of both ports. -/
def Rules.HomeSlices : Prop :=
  ∀ (s : State) (die slice pa ctx : Nat) (port : Option Nat), s.stage = .stage2 → ctx < s.ctx.length →
    let p : Place := match port with | none => .dev pa | some q => .sys q pa
    (port = none → pa < s.memBytes ∧ (homeOf s.dieCount pa).1 = die ∧ (homeOf s.dieCount pa).2.1 = slice) →
    (∀ q, port = some q → pa < 2 ^ 64 ∧ q < 2 ∧ die = (if s.dieCount = 1 then 0 else 2 * q)
      ∧ slice = (pa / 2 ^ 7 ^^^ pa / 2 ^ 13 ^^^ pa / 2 ^ 19) % 48) →
    let asks (op : SliceOp) : Host.Outcome State Fault Refusal := exec (.homeSliceRequest { die, slice, pa, op, port, ctx }) s
    (∀ n, pa % 128 + n ≤ 128 → s.ueIn p n = none →
      asks (.read n) = .next { s.homeRange p n false true false with reply := .data (s.rdBytes p n) })
    ∧ (∀ xs, pa % 128 + xs.length ≤ 128 → s.ueIn p xs.length = none →
      asks (.write xs) = .next { (s.homeRange p xs.length true true false).wrBytes p xs with reply := .none })
    ∧ (∀ t op b c, pa % t.bytes = 0 → op.takes t = true → s.ueIn p t.bytes = none →
      let old := s.rdNat p t.bytes
      asks (.atomic t op b c) = .next { (s.homeRange p t.bytes true true false true).wrNat p t.bytes
          (aop op t old (b.toNat % 2 ^ t.width) (c.toNat % 2 ^ t.width)) with reply := .data (leBytes old t.bytes) })
    ∧ ∀ n e, pa % 128 + n ≤ 128 → s.ueIn p n = some e →
      ∃ t, asks (.read n) = .next t ∧ (t.ctxAt ctx).faulted = true ∧ t.reply = .none ∧ t.mem = s.mem

/-- R32: an address beyond the device's memory does not exist: a step that names one stops. -/
def Rules.NoSuchMemory : Prop :=
  ∀ (s : State) (pa : Nat), s.stage = .stage2 → s.memBytes ≤ pa →
    (∀ r : SliceRequest, r.pa = pa → r.port = none → exec (.homeSliceRequest r) s = .fault .noSuchMemory)
    ∧ exec (.ueOnWriteback pa) s = .fault .noSuchMemory

/-- R80: an uncorrectable error that is found outside any access ends every enabled context whose window holds its address, and
no other, and stands in its channel's registers. -/
def Rules.ErrorOnWriteback : Prop :=
  ∀ (s : State) (pa : Nat), s.stage = .stage2 → pa < s.memBytes → s.ctx.length = 64 →
    let holds (c : Ctx) : Prop := c.en = true ∧ winBase (s.partWin.getD c.part 0) * 2 ^ 30 ≤ pa
      ∧ pa < (winBase (s.partWin.getD c.part 0) + winSize (s.partWin.getD c.part 0)) * 2 ^ 30
    ∃ t, exec (.ueOnWriteback pa) s = .next t ∧ t.mem = s.mem
      ∧ (∀ n, n < 64 → holds (s.ctxAt n) → (t.ctxAt n).faulted = true ∧ ((s.ctxAt n).faulted = false → (t.ctxAt n).fsub = 0)
          ∧ ∀ g ∈ t.groups, g.ctx ≠ n)
      ∧ (∀ n, n < 64 → ¬ holds (s.ctxAt n) → t.ctxAt n = s.ctxAt n)
      ∧ t.chan = updAt s.chan (12 * s.soloDie + (homeOf s.dieCount pa).2.2.1) fun c =>
          { c with ue := true, ueaddr := BitVec.ofNat 64 (pa / 64 * 64 + 1) }

/-! ### Control cores -/

/-- A system instruction of a control core completed: its register written, and the next instruction to come. -/
def Rules.controlDone (t : State) (d : Nat) (x : Word) : State :=
  (t.updCore t.cur.core fun c => { c with ctlRegs := c.ctlRegs.set d x, ctlPc := t.cur.next }).withFate .go

/-- R36, R443: an invalidation by the fields of `TLB_INVCTL`: the matching translations leave every TLB and aperture cache, the
walk-cache entries of the context and the address translation cache entries of its slot with them, and no other; with FLUSH and
without a range every line leaves L2, written back; without FLUSH none does. That a range removes every address translation cache
entry of the slot is the model's choice (assumption log 75), and that FLUSH without a range takes every line is too (log 74), as is that the entries go at once, whatever the invalidation's
completion does later (log 56). -/
def Rules.invalidated (s t : State) (x lo : Nat) : Prop :=
  let slot := x / 2 ^ 22 % 64
  let c := s.ctxAt slot
  let hi := lo + 2 ^ 12 * (if x % 2 ^ 20 = 0 then 2 ^ 20 else x % 2 ^ 20)
  let scope := x / 2 ^ 28 % 4
  let goes (e : TlbEntry) : Prop := scope = 0 ∨ e.part = c.part ∧ e.asid = c.asid ∧
    (scope = 1 ∨ e.vbase < hi ∧ lo < e.vbase + e.leaf.pageSize)
  { t with tlb := s.tlb, aptc := s.aptc, walk := s.walk, atc := s.atc, l2 := s.l2, ce := s.ce, past := s.past, sysUe := s.sysUe } = s
    ∧ (∀ e, e ∈ t.tlb ↔ e ∈ s.tlb ∧ ¬ goes e) ∧ (∀ e, e ∈ t.aptc ↔ e ∈ s.aptc ∧ ¬ goes e)
    ∧ (∀ e, e ∈ t.walk ↔ e ∈ s.walk ∧ scope ≠ 0 ∧ ¬(e.part = c.part ∧ e.asid = c.asid))
    ∧ (∀ e, e ∈ t.atc ↔ e ∈ s.atc ∧ scope ≠ 0 ∧ e.ctx ≠ slot)
    ∧ (x / 2 ^ 21 % 2 = 0 → t.l2 = s.l2 ∧ t.ce = s.ce ∧ t.past = s.past ∧ t.sysUe = s.sysUe)
    ∧ (x / 2 ^ 21 % 2 = 1 → scope ≠ 2 → t.l2 = [] ∧ t.past = [])

/-- R36, R373, R438, R440: `sysrd` reads a word of the privileged view, 0 where there is none, and acquires MGMT_SEM; `syswr`
writes a register as a host port does; `tlbinv` invalidates, after the stores to memory that are held back, or fails on a field that is reserved. That `tlbinv` has removed
the entries when it completes is the model's choice (assumption log 56). -/
def Rules.SystemRegisters : Prop :=
  ∀ (s : State) (d : Nat) (a b : Src), s.cur.who = .control →
    let off := (s.reg 0 a 0).toNat
    let me : Agent := .firmware s.cur.core
    (off % 4 ≠ 0 ∨ bar0Reg off = none → exec (.sysrd d a) s = .next (Rules.controlDone s d 0))
    ∧ (∀ r base, off % 4 = 0 → bar0Reg off = some (r, base) → s.answers me r = true →
      (r ≠ .mgmtSem → exec (.sysrd d a) s =
          .next (Rules.controlDone s d (BitVec.ofNat 32 (s.readReg me r / 2 ^ (8 * (off - base))))))
      ∧ (r = .mgmtSem → s.mgmt = .free →
          exec (.sysrd d a) s = .next (Rules.controlDone { s with mgmt := .firmware } d 0xC0000000))
      ∧ ((∀ k, k < 4 → bar0Reg (off + k) = some (r, base)) → exec (.syswr a b) s =
          .next (s.writeReg me ⟨me, (s.reg 0 b 0).setWidth 64 <<< (8 * (off - base)), 0xF#8 <<< (off - base)⟩ r).advance))
    ∧ (let x := (s.reg 0 b 0).toNat
       (x / 2 ^ 30 ≠ 0 ∨ x / 2 ^ 28 % 4 = 3 → exec (.tlbinv d a b) s = .next (Rules.controlDone s d 0xFFFFFFFF))
       ∧ (x / 2 ^ 30 = 0 → x / 2 ^ 28 % 4 ≠ 3 → ∃ t, exec (.tlbinv d a b) s = .next (Rules.controlDone t d 0)
          ∧ Rules.invalidated (s.perform? fun b => b.team.isNone) t x ((s.pair 0 a).toNat / 2 ^ 12 % 2 ^ 40 * 2 ^ 12)))

/-- R291, R373, R374, R425: `gresume` makes Ready the lanes that a trap stopped and its mask names, `gkill` ends the lanes that
have not ended, and `dwmap` maps a group with no Ready lane; each fails with all ones where no group stands. That `dwmap` fails
for a slot with no group, which R374 says of a Ready lane alone, and that `gresume` and `gkill` leave the queue of held traps as it
is, are the model's choices (assumption log 54). -/
def Rules.GroupControl : Prop :=
  ∀ (s : State) (d slot mask : Nat) (a b : Src), s.cur.who = .control → (s.reg 0 a 0).toNat = slot → (s.reg 0 b 0).toNat = mask →
    let core := s.cur.core
    (s.group? core slot = none →
      exec (.gresume d a b) s = .next (Rules.controlDone s d 0xFFFFFFFF)
      ∧ exec (.gkill d a b) s = .next (Rules.controlDone s d 0xFFFFFFFF)
      ∧ (slot ≠ 2 ^ 32 - 1 → exec (.dwmap d a) s = .next (Rules.controlDone s d 0xFFFFFFFF)))
    ∧ (slot = 2 ^ 32 - 1 → exec (.dwmap d a) s =
        .next (Rules.controlDone (s.updCore core fun c => { c with dwinSlot := none }) d 0))
    ∧ ∀ g, s.group? core slot = some g → g.lanes.length = 32 →
      let resumed (l : Nat) (t : Lane) : Bool := mask.testBit l && t.st == .stopped && t.hold == .trap
      let killed (l : Nat) (t : Lane) : Bool := mask.testBit l && t.st != .exited && t.st != .vacant
      let count (p : Nat → Lane → Bool) : Word := BitVec.ofNat 32 ((List.range 32).filter fun l => p l (g.lane l)).length
      (∃ t h, exec (.gresume d a b) s = .next (Rules.controlDone t d (count resumed)) ∧ t.group? core slot = some h
        ∧ h.lanes = g.lanes.mapIdx (fun l x => if resumed l x then { x with st := .ready, hold := .none } else x)
        ∧ (t.coreAt core).dwinSlot ≠ some slot ∧ { t with groups := s.groups, cores := s.cores } = s)
      ∧ (∃ t h, exec (.gkill d a b) s = .next (Rules.controlDone t d (count killed)) ∧ t.group? core slot = some h
        ∧ (∀ l, l < 32 → killed l (g.lane l) = true → (h.lane l).st = (if g.tasks then .vacant else .exited)
            ∧ (h.lane l).ret = [])
        ∧ (∀ l, l < 32 → killed l (g.lane l) = false → h.lane l = g.lane l)
        ∧ (t.coreAt core).dwinSlot ≠ some slot ∧ t.mem = s.mem ∧ t.teams = s.teams)
      ∧ (slot ≠ 2 ^ 32 - 1 → (∃ x ∈ g.lanes, x.st = .ready) → exec (.dwmap d a) s = .next (Rules.controlDone s d 0xFFFFFFFF))
      ∧ (slot ≠ 2 ^ 32 - 1 → (∀ x ∈ g.lanes, x.st ≠ .ready) → exec (.dwmap d a) s =
          .next (Rules.controlDone (s.updCore core fun c => { c with dwinSlot := some slot }) d 0))

/-- R80, R373, R374, R431, R433: `ctxsv` saves the teams whose quarter 0 stands on the core, whatever number of bytes within the bound of
R432 they take, at a device physical address inside the partition's window, and releases their resources; `ctxld` places a team
whose save stands at the address with its quarter 0 on the core. Both fail where their address is no multiple of 4 KiB, `ctxld`
where the header does not pass, and a context ends whose save's write meets an uncorrectable error. That a save is known again by
its bytes is assumption log 41, and that a team of which no save is left to place is placed once more, as another team, is log 42. -/
def Rules.CoreSaves : Prop :=
  ∀ (s : State) (d n : Nat) (a b : Src), s.cur.who = .control → (s.reg 0 b 0).toNat = n →
    let core := s.cur.core
    let x := (s.pair 0 a).toNat
    let w := s.partWin.getD (s.ctxAt n).part 0
    let ts := s.teams.filter fun t => t.ctx == n && t.cores.getD 0 0 == core
    let room := s.roomAt (s.ctxAt n).part x
    (x % 4096 ≠ 0 → exec (.ctxsv d a b) s = .next (Rules.controlDone s d 0xFFFFFFFF)
      ∧ exec (.ctxld d a b) s = .next (Rules.controlDone s d 0xFFFFFFFF))
    ∧ (n < 64 → x % 4096 = 0 → winBase w * 2 ^ 30 ≤ x → x + savesNeed ts + 4096 ≤ (winBase w + winSize w) * 2 ^ 30 → s.ctx.length = 64 →
      (∀ g ∈ s.groups, (g.ctx = n ∧ g.core = core) ∨ (∃ t ∈ ts, t.id = g.team) → s.quiescent g = true) →
      (∀ k ∈ s.copies, ∀ t ∈ ts, k.team ≠ t.id) →
      (s.ueIn (.dev x) (savesNeed ts + 4096) = none →
        ∃ t bytes v, exec (.ctxsv d a b) s = .next (Rules.controlDone t d (BitVec.ofNat 32 bytes)) ∧ bytes % 4096 = 0 ∧ 64 ≤ bytes
        ∧ bytes < savesNeed ts + 4096
        ∧ t.saves = s.saves ++ [v] ∧ t.images = v :: s.images ∧ v.ctx = n
        ∧ v.teams = s.teams.filter (fun u => ts.any fun t => t.id == u.id)
        ∧ v.groups = (s.groups.filter fun g => ts.any fun t => t.id == g.team).map (fun g =>
            { g with lanes := g.lanes.map (s.atRestLane g) })
        ∧ v.image = t.rdBytes (.dev x) bytes
        ∧ t.teams = s.teams.filter (fun u => !ts.any fun t => t.id == u.id)
        ∧ t.groups = s.groups.filter (fun g => !ts.any fun t => t.id == g.team))
      ∧ (s.ueIn (.dev x) 4096 ≠ none →
        ∃ t, exec (.ctxsv d a b) s = .next (Rules.controlDone t d 0xFFFFFFFF) ∧ (t.ctxAt n).faulted = true
          ∧ (∀ g ∈ t.groups, g.ctx ≠ n) ∧ t.mem = s.mem))
    ∧ (n < 64 → s.saveError x n room = none → s.headerOk x n room = false →
      exec (.ctxld d a b) s = .next (Rules.controlDone s d 0xFFFFFFFF))
    ∧ ∀ v tm, n < 64 → x % 4096 = 0 → 0 < room → s.saveError x n room = none → s.headerOk x n room = true →
      s.images.find? (fun v => v.ctx == n && s.rdBytes (.dev (x + 64)) (v.image.length - 64) == v.image.drop 64) = some v →
      v.teams = [tm] → v.groups = [] → v.tasks = [] → v.held = [] → (∀ y ∈ s.saves, y.tasks = []) →
      let loads (y : Team) : Prop := ∀ u, s.unitAt y core = some u →
        ∃ t, exec (.ctxld d a b) s = .next (Rules.controlDone t d 0)
          ∧ t.teams = s.teams ++ [{ y with cores := u, slots := bindTeam s.teams y.roles u }]
      (∀ y z, y.ctx = n → s.saves.findSome? (fun v => (v.teams.find? fun t => t.id == tm.id).map fun t => (v, t)) = some (y, z) → loads z)
      ∧ ((∀ y ∈ s.saves, ∀ z ∈ y.teams, z.id < s.ids ∧ z.id ≠ tm.id) → loads { tm with id := s.ids })

/-- R436: `idle` completes at once while an event is pending, and clears it; otherwise nothing is performed. -/
def Rules.Idles : Prop :=
  ∀ (s : State), s.cur.who = .control →
    ((s.coreAt s.cur.core).ctlPending = true → exec .idle s = .next
      ((s.updCore s.cur.core fun c => { c with ctlPending := false, ctlPc := s.cur.next }).withFate .go))
    ∧ ((s.coreAt s.cur.core).ctlPending = false → exec .idle s = .next (s.withFate .wait))

/-- R372, R450: a control core that meets no instruction for it halts, and every context with a group, a stream or a wellhead
record on it ends. That an address at which no instruction can start (R246) is such a case is the model's choice (assumption log
70). -/
def Rules.ControlCoreHalts : Prop :=
  ∀ (s : State) (core : Nat), s.ctlRuns core = true →
    ((∃ e, decodeFor .system (s.ctlWords core) = .error e) ∨ (s.coreAt core).ctlPc.toNat % 4 ≠ 0) →
    s.physDie (core / 48) < s.die.length →
    let present (n : Nat) : Prop := (∃ g ∈ s.groups, g.core = core ∧ g.ctx = n)
      ∨ (∃ m ∈ s.teams, m.stream ≠ none ∧ m.cores.getD 0 0 = core ∧ m.ctx = n)
      ∨ ∃ w ∈ s.wells, w.1 = core ∧ ∃ m, s.team? w.2.team = some m ∧ m.ctx = n
    ∃ t, exec (.controlCoreHalt core) s = .next t
      ∧ (t.dieAt (s.physDie (core / 48))).halt
          = (s.dieAt (s.physDie (core / 48))).halt ||| BitVec.ofNat 48 (2 ^ (core % 48))
      ∧ (∀ g ∈ t.groups, g.core ≠ core) ∧ (∀ m ∈ t.teams, m.stream ≠ none → m.cores.getD 0 0 ≠ core) ∧ t.mem = s.mem
      ∧ (∀ n, present n → n < s.ctx.length → (t.ctxAt n).faulted = true
          ∧ ((s.ctxAt n).faulted = false → (t.ctxAt n).fsub = 0)
          ∧ (∀ g ∈ t.groups, g.ctx ≠ n) ∧ (∀ m ∈ t.teams, m.ctx ≠ n) ∧ ∀ l ∈ t.launches, l.ctx ≠ n)
      ∧ ∀ n, ¬ present n → t.ctxAt n = s.ctxAt n


/-! ### Start, power, clock and temperature -/

/-- The channels of a die that trained, as Stage 1 reports them. -/
def Rules.trained (r : DieReport) : Bool :=
  decide (12 ≤ r.channels.length) && (r.channels.take 12).all fun c => c.trained

/-- R1, R448, R449: power-good begins priming; Stage 1 succeeds, falls back to one die, or fails, as the firmware, the channels and
the links decide, and a die has bank arithmetic if each of its channels was trained on two HJ-32B devices (R2), which those of a module are (R1); Stage 2 then runs on every die of the form or on one, and
the registers say so; where a link was lost between the two, one die runs, with ERR 4 and no link. That the other slot becomes the
active one where its image alone verifies is the model's choice (assumption log 49), and CLK at the entry into Stage 2 is too (log
53). -/
def Rules.StagedStart : Prop :=
  (∀ s : State, s.powered = false → exec .powerGood s = .next { s with powered := true })
  ∧ (∀ (s : State) (r : StartReport), s.powered = true → s.stage = .priming → s.err = 0 →
    r.dies.length = s.part.form.dies → s.die.length = 4 →
    let fails (k : Nat) : Option Nat := imageError (s.fw.images.getD k [])
    let ok (d : Nat) : Bool := match r.dies[d]? with
      | some x => Rules.trained x && (x.linkOk || s.part.form == .bareDie)
      | none => false
    let mem (d : Nat) : Bool := match r.dies[d]? with | some x => Rules.trained x | none => false
    (∀ e, fails s.fw.active = some e → fails (1 - s.fw.active) ≠ none → exec (.stage1 r) s = .next { s with err := e })
    ∧ ((fails s.fw.active = none ∨ fails (1 - s.fw.active) = none) → ∃ t, exec (.stage1 r) s = .next t
      ∧ t.fw.active = (if fails s.fw.active = none then s.fw.active else 1 - s.fw.active)
      ∧ ((∀ d, d < s.part.form.dies → ok d = true) → t.stage = .stage1 ∧ t.err = 0)
      ∧ ((∃ d, d < s.part.form.dies ∧ ok d = false) → s.part.form ≠ .bareDie → (mem 0 = true ∨ mem 2 = true) →
          t.stage = .stage1 ∧ t.err = 4)
      ∧ ((∃ d, d < s.part.form.dies ∧ ok d = false) → (s.part.form = .bareDie ∨ mem 0 = false ∧ mem 2 = false) →
          t.stage = .halted ∧ t.err = 3)
      ∧ ∀ d, d < s.part.form.dies → (t.dieAt d).memok = mem d ∧ ((t.dieAt d).bank = true ↔ ∃ x, r.dies[d]? = some x
        ∧ ∀ k, k < 12 → ∃ c, x.channels[k]? = some c ∧ (c.hj = true ∨ s.part.form = .module))))
  ∧ ∀ s : State, s.stage = .stage1 →
    let n := s.part.form.dies
    let whole : Prop := ∀ d, d < n → (s.dieAt d).memok = true ∧ (s.dieAt d).linkok = true
    let entered (t : State) (dies : Nat) (single : Bool) (ds : BitVec 4) (err : Nat) : Prop :=
      t.stage = .stage2 ∧ t.dies = ds ∧ t.single = single ∧ t.memMib = 12 * dies * s.part.devices.granules * 2048 / 2 ^ 20
        ∧ t.quiet.g = 80 ∧ t.quiet.low = 0 ∧ t.quiet.clk = (if s.therm then 16 else 80) ∧ t.err = err ∧ t.ctx = s.ctx
        ∧ t.ucie = (if single then [] else s.ucie)
    let alone : Nat := if s.err = 0 then 4 else s.err
    ∃ t, exec .stage2Entry s = .next t
      ∧ (whole → entered t n false (if s.part.form = .bareDie then 1 else 15) s.err)
      ∧ (¬ whole → s.part.form ≠ .bareDie → (s.dieAt 0).memok = true → entered t 1 true 1 alone)
      ∧ (¬ whole → s.part.form ≠ .bareDie → (s.dieAt 0).memok = false → (s.dieAt 2).memok = true → entered t 1 true 4 alone)

/-- R448, R453: with its power removed, the device stands as at reset, but for what is made of the part: its form, its fuses and
its firmware slots, of which one marked by a commit is active. Which of them the removal keeps (assumption logs 49 and 53), and
that memory then reads 0 (log 1), are the model's choices. -/
def Rules.PowerRemoved : Prop :=
  ∀ s : State, ∃ t, exec .powerRemoved s = .next t ∧ t.powered = false ∧ t.stage = .priming ∧ t.err = 0 ∧ t.mem = []
    ∧ t.ctx = State.reset.ctx ∧ t.groups = [] ∧ t.teams = [] ∧ t.launches = [] ∧ t.mgmt = .free ∧ t.vfmap = State.reset.vfmap
    ∧ t.partWin = State.reset.partWin ∧ t.chan = State.reset.chan ∧ t.ports = State.reset.ports
    ∧ t.die = s.die.map (fun d => { en := d.en }) ∧ t.part = s.part ∧ t.fw.images = s.fw.images
    ∧ t.fw.active = s.fw.next.getD s.fw.active

/-- R454, R455: g, low and what the quiet registers show after an interval of mean power P. -/
def Rules.governor (s : State) (p : Nat) : State :=
  let q := s.quiet
  let cap := Nat.max 16 (Nat.min 80 (q.cap.toNat % 2 ^ 7))
  let watts := Nat.max 100 (Nat.min s.part.form.wattLimit (q.pwrCap.toNat % 2 ^ 11))
  let en := q.act.getLsbD 31
  let hyst := q.act.toNat / 2 ^ 16 % 2 ^ 8
  let hold := Nat.max 1 (q.act.toNat / 2 ^ 8 % 2 ^ 8)
  let capped := Nat.min q.g cap
  let low := if en && decide (p ≤ watts) && decide (p + hyst < watts) then q.low + 1 else 0
  let g := if !en then 80
    else if watts < p then Nat.max 16 (capped - 1)
    else if 0 < low ∧ 10 * hold ≤ low then Nat.min cap (capped + 1)
    else capped
  { s with quiet := { q with g, low, eng := en && decide (g < cap), floor := en && decide (g = 16 ∧ watts < p),
                             clk := if s.therm then 16 else g, pwr := p } }

/-- R454, R455: the governor at the end of an interval; `QUIET_STEP_UP` is the interval whose end steps the clock up. It runs
from the entry into Stage 2, at which g = 80 and low = 0. -/
def Rules.Governor : Prop :=
  ∀ (s : State) (p : Nat), s.stage = .stage2 →
    exec (.governorInterval p) s = .next (Rules.governor s p)
    ∧ (let q := s.quiet
       q.act.getLsbD 31 = true → 10 * Nat.max 1 (q.act.toNat / 2 ^ 8 % 2 ^ 8) ≤ q.low + 1 →
       p + q.act.toNat / 2 ^ 16 % 2 ^ 8 < Nat.max 100 (Nat.min s.part.form.wattLimit (q.pwrCap.toNat % 2 ^ 11)) →
       exec (.quietStepUp p) s = .next (Rules.governor s p))
    ∧ ∀ t : State, (t.stage ≠ .stage2 → exec (.governorInterval p) t = .next t ∧ exec (.quietStepUp p) t = .next t)
      ∧ (t.stage = .stage1 → ∃ u, exec .stage2Entry t = .next u ∧ u.stage = .stage2 ∧ u.quiet.g = 80 ∧ u.quiet.low = 0)

/-- R456: the temperature registers after an interval of a device with power, the thermal guard at 105 °C, the stop at 120 °C, and the guard's release
after 100 intervals at or below 95 °C, whereupon the clock is that of g, or its floor before Stage 2. -/
def Rules.Thermal : Prop :=
  (∀ (s : State) (sensors : List (List Nat)), s.powered = true → s.die.length = 4 → s.ctx.length = 64 →
    (s.therm = true → s.quiet.cool < 100) →
    let n := s.part.form.dies
    let hot (d : Nat) : Nat := (sensors.getD d []).foldl Nat.max 0
    ∃ t, exec (.thermalInterval sensors) s = .next t
      ∧ (∀ d, d < n → (t.dieAt d).temp = Nat.min 255 (hot d) ∧ (t.dieAt d).peak = Nat.max (s.dieAt d).peak (Nat.min 255 (hot d)))
      ∧ ((∃ d, d < n ∧ 120 ≤ hot d) → t.stage = .halted ∧ t.err = 5 ∧ t.trip = true ∧ t.therm = true ∧ t.quiet.clk = 16
          ∧ ∀ k, k < 64 → (s.ctxAt k).en = true → (t.ctxAt k).faulted = true)
      ∧ ((∀ d, d < n → hot d < 120) → (∃ d, d < n ∧ 105 ≤ hot d) → t.therm = true ∧ t.quiet.clk = 16 ∧ t.quiet.cool = 0
          ∧ t.stage = s.stage ∧ t.ctx = s.ctx)
      ∧ ((∀ d, d < n → hot d < 105) → t.therm = s.therm ∧ t.quiet.clk = s.quiet.clk ∧ t.stage = s.stage
          ∧ (s.therm = true → t.quiet.cool = if ∀ d, d < n → hot d ≤ 95 then s.quiet.cool + 1 else 0)))
  ∧ ∀ s : State, s.therm = true → 100 ≤ s.quiet.cool → exec .thermRelease s = .next { s with
      therm := false, quiet := { s.quiet with cool := 0, clk := if s.stage = .stage2 ∨ s.stage = .halted ∧ s.memMib ≠ 0 then s.quiet.g else 16 } }

/-- R439, R447: a module that is retrained carries on; one that is dropped does not. With the last of a pair both its dies have a
link down (LINKOK), and in Stage 2 every enabled context ends and no team is placed again. -/
def Rules.DieLinks : Prop :=
  ∀ (s : State) (a b k : Nat) (ms : List Bool) (pre post : List (Nat × Nat × List Bool)), s.ucie = pre ++ (a, b, ms) :: post →
    (∀ e ∈ pre ++ post, (e.1, e.2.1) ≠ (a, b)) → k < 4 → ms.length = 4 → ms[k]? = some true → s.ctx.length = 64 →
    s.die.length = 4 → a < 4 → b < 4 →
    exec (.ucieModuleFail a b k true) s = .next s
    ∧ ∃ t, exec (.ucieModuleFail a b k false) s = .next t ∧ t.ucie = pre ++ (a, b, ms.set k false) :: post
      ∧ ((∃ j, j ≠ k ∧ ms[j]? = some true) → t.ctx = s.ctx ∧ t.linklost = s.linklost ∧ t.die = s.die)
      ∧ ((∀ j, j ≠ k → ms[j]? ≠ some true) → (t.dieAt a).linkok = false ∧ (t.dieAt b).linkok = false
          ∧ ∀ d, d ≠ a → d ≠ b → t.dieAt d = s.dieAt d)
      ∧ ((∀ j, j ≠ k → ms[j]? ≠ some true) → s.stage = .stage2 → t.linklost = true ∧ t.mayPlace = false
          ∧ ∀ n, n < 64 → (s.ctxAt n).en = true → (t.ctxAt n).faulted = true
            ∧ ((s.ctxAt n).faulted = false → (t.ctxAt n).fsub = 0))

/-! ### Host ports -/

/-- R440, R442: a link that goes down frees a semaphore that its port owns; the reset of a physical function resets its port's
link and mailbox alone; the reset of a virtual function clears EN in the contexts of its mask, while its map is in force. That
the reset of a physical function brings the link up is the model's choice (assumption log 52); that of a virtual function acts
only while its map is in force, and changes EN alone, by assumption log 50. -/
def Rules.PortEvents : Prop :=
  ∀ (s : State) (p : Port), s.powered = true → s.ports.length = 2 → (p = .a ∨ s.part.form ≠ .bareDie) →
    (∃ t, exec (.portLinkDown p) s = .next t ∧ (t.portAt p).up = false ∧ t.mgmt = (if s.mgmt = .port p then .free else s.mgmt)
      ∧ { t with ports := s.ports, mgmt := s.mgmt } = s)
    ∧ (∃ t, exec (.pfFlr p) s = .next t ∧ (t.portAt p).up = true ∧ (t.portAt p).mboxLen = 0 ∧ (t.portAt p).mboxBusy = false
      ∧ (t.portAt p).mbox = [] ∧ { t with ports := s.ports } = s)
    ∧ ∀ v, s.ctx.length = 64 → ∃ t, exec (.vfFlr v) s = .next t
      ∧ (∀ n, n ∈ s.vfSlots v → t.ctxAt n = { s.ctxAt n with ctrl := (s.ctxAt n).ctrl &&& 0x7FFFFFFF#32 })
      ∧ (∀ n, n ∉ s.vfSlots v → t.ctxAt n = s.ctxAt n) ∧ { t with ctx := s.ctx } = s

/-- R27: an invalidation performs the stores that stand behind its port, and removes the host pages of its range from the contexts of the port. A translation that a die asks of the
host enters that die's cache of 1,024 entries when the host has it, and otherwise becomes a page request; the answer to a page
request that stands enters the page's translation, or its refusal, in the cache of every die that waits for it. That a full
cache gives up its oldest entry is the model's choice (assumption log 62). -/
def Rules.AddressServices : Prop :=
  let fill (atc : List AtsEntry) (e : AtsEntry) : List AtsEntry :=
    capped (fun x => x.die == e.die) 1024 (e :: atc.filter fun x => !(x.die == e.die && x.ctx == e.ctx && x.page == e.page))
  (∀ (s : State) (p : Port) (page count : Nat),
    let u := s.perform? fun b => b.team.isNone && b.port == some (if p = .a then 0 else 1)
    ∃ t, exec (.atsInvalidation p page count) s = .next t
    ∧ { t with atc := u.atc } = u ∧ (s.stores = [] → u = s)
    ∧ (∀ b ∈ t.stores, b.team = none → b.port ≠ some (if p = .a then 0 else 1))
    ∧ ∀ e, e ∈ t.atc ↔ e ∈ u.atc ∧ ¬((u.ctxAt e.ctx).port = (if p = .a then 0 else 1) ∧ page ≤ e.page ∧ e.page < page + count))
  ∧ (∀ (s : State) (die slot page : Nat), (die, slot, page) ∈ s.ats → (slot, page) ∉ s.pri →
    (∀ target, s.answerAts die slot page (some target) =
      { s with ats := s.ats.filter fun r => r != (die, slot, page), atc := fill s.atc ⟨die, slot, page, some target⟩ })
    ∧ s.answerAts die slot page none = { s with pri := s.pri ++ [(slot, page)] })
  ∧ ∀ (s : State) (slot page target : Nat), (slot, page) ∈ s.pri →
    let mine (r : Nat × Nat × Nat) : Bool := r.2 == (slot, page)
    let answered (x : Option Nat) : State := { s with
      pri := s.pri.filter fun p => p != (slot, page)
      ats := s.ats.filter fun r => !mine r
      atc := (s.ats.filter mine).foldl (fun l r => fill l ⟨r.1, slot, page, x⟩) s.atc }
    exec (.priGrant slot page target) s = .next (answered (some target))
    ∧ exec (.priRefuse slot page) s = .next (answered none)

/-- R438, R443, R444: the request is one that the port serves through the window of a slot that the function reaches. -/
def Rules.served (s : State) (p : Port) (f : Func) (slot : Nat) : Prop :=
  s.arrives p = true ∧ s.apServes p = true ∧ s.apReach f slot = true

/-- The virtual address that an offset of an open window names, R443. -/
def Rules.windowVa (s : State) (slot off va : Nat) : Prop :=
  (s.ctxAt slot).apvbase.getLsbD 0 = true ∧ (s.ctxAt slot).en = true
    ∧ va = (s.ctxAt slot).apvbase.toNat / 2 ^ 16 % 2 ^ 36 * 2 ^ 16 + off

/-- R443, R444: a host's request through a window, for bytes of one page: it is performed where the page permits it, and
otherwise refused, with APERR and, for a read, Unsupported Request. An uncorrectable error in a table that maps it ends the context
(R80). -/
def Rules.ApertureRequests : Prop :=
  ∀ (s : State) (p : Port) (f : Func) (slot off va : Nat), Rules.served s p f slot → slot < s.ctx.length →
    (∀ n, n ≠ 0 → off + n ≤ 2 ^ 32 →
      ((s.ctxAt slot).apvbase.getLsbD 0 = false ∨ (s.ctxAt slot).en = false) →
      exec (.apertureRead p f slot off n) s =
        .next { (s.updCtx slot fun c => { c with aperr := true }) with reply := .unsupported })
    ∧ (Rules.windowVa s slot off va →
      (∀ n l a, n ≠ 0 → off + n ≤ 2 ^ 32 → va % 4096 + n ≤ 4096 → s.apPage slot p .read va = some (l, a) → s.ueIn (.dev a) n = none →
        ∃ t, exec (.apertureRead p f slot off n) s = .next t ∧ t.reply = .data (s.rdBytes (.dev a) n)
          ∧ { t with reply := s.reply, aptc := s.aptc, l2 := s.l2, ce := s.ce, chan := s.chan, past := s.past, sysUe := s.sysUe } = s)
      ∧ (∀ bytes l a, bytes ≠ [] → off + bytes.length ≤ 2 ^ 32 → va % 4096 + bytes.length ≤ 4096 →
        s.apPage slot p .write va = some (l, a) → s.ueIn (.dev a) bytes.length = none →
        ∃ t, exec (.apertureWrite p f slot off bytes) s = .next t ∧ t.mem = (s.wrBytes (.dev a) bytes).mem ∧ t.reply = .none
          ∧ { t with mem := s.mem, reply := s.reply, aptc := s.aptc, launches := s.launches, l2 := s.l2, ce := s.ce,
                     chan := s.chan, past := s.past, sysUe := s.sysUe } = s)
      ∧ ∀ bytes, bytes ≠ [] → off + bytes.length ≤ 2 ^ 32 → va % 4096 + bytes.length ≤ 4096 → s.apPage slot p .write va = none →
        let leaf := s.leafAt slot { kind := .write, bank := true, core := engineCore, port := some (if p = .a then 0 else 1) } va
        ((∀ e, leaf = .error e → e.ue = none) →
          exec (.apertureWrite p f slot off bytes) s = .next { (s.updCtx slot fun c => { c with aperr := true }) with reply := .none })
        ∧ ∀ e pa, leaf = .error e → e.ue = some pa → ∃ t, exec (.apertureWrite p f slot off bytes) s = .next t
          ∧ (t.ctxAt slot).faulted = true ∧ t.mem = s.mem ∧ t.reply = .none)

/-- R24, R91, R444: a host's AtomicOp on a page of device memory whose ATOM is SYS is performed at its home slice and answers the
value found; every 128-bit CAS that reaches a window completes with Unsupported Request (R437), and every AtomicOp through a
closed one is refused with APERR. -/
def Rules.HostAtomics : Prop :=
  (∀ (s : State) (p : Port) (f : Func) (slot off va : Nat) (l : Leaf) (a : Nat), Rules.served s p f slot → slot < s.ctx.length →
    Rules.windowVa s slot off va → s.apPage slot p .atomic va = some (l, a) → pteBanked l.entry = false →
    pteSysAtom l.entry = true →
    (∀ (n : Nat) (op : HostAtomic) (new : Nat → Nat), n = 4 ∨ n = 8 → off % n = 0 → off + n ≤ 2 ^ 32 → s.ueIn (.dev a) n = none →
      (∃ x, op = .fetchAdd n x ∧ new = fun old => (old + x.toNat % 2 ^ (8 * n)) % 2 ^ (8 * n))
        ∨ (∃ x, op = .swap n x ∧ new = fun _ => x.toNat % 2 ^ (8 * n))
        ∨ (∃ e x, op = .cas n e x ∧ new = fun old => if old = e.toNat % 2 ^ (8 * n) then x.toNat % 2 ^ (8 * n) else old) →
      ∃ t, exec (.hostAtomicop p f slot off op) s = .next t ∧ t.reply = .data (leBytes (s.rdNat (.dev a) n) n)
        ∧ t.mem = (s.wrNat (.dev a) n (new (s.rdNat (.dev a) n))).mem))
    ∧ ∀ (s : State) (p : Port) (f : Func) (slot off : Nat), s.arrives p = true → off + 16 ≤ 2 ^ 32 → slot < s.ctx.length →
      (s.apServes p = false → exec (.hostAtomicop p f slot off .cas128) s = .next { s with reply := .unsupported })
      ∧ (Rules.served s p f slot → ((s.ctxAt slot).apvbase.getLsbD 0 = false ∨ (s.ctxAt slot).en = false) →
        ∀ op n, op = .cas128 ∧ n = 16 ∨ (∃ x, op = .fetchAdd n x ∨ op = .swap n x) ∨ (∃ e x, op = .cas n e x) → off + n ≤ 2 ^ 32 →
        exec (.hostAtomicop p f slot off op) s =
          .next { (s.updCtx slot fun c => { c with aperr := true }) with reply := .unsupported })
      ∧ (Rules.served s p f slot → ∃ t, exec (.hostAtomicop p f slot off .cas128) s = .next t ∧ t.reply = .unsupported ∧ t.mem = s.mem)

/-! ### Registers -/

/-- R438: `x` is what a register at offset `base` holds after a write at offset `off`: a bit of the mask in an enabled byte takes
the bit written, and every other bit is kept. -/
def Rules.merges (w : Wr) (off base mask old x : Nat) : Prop :=
  x < 2 ^ 64 ∧ ∀ k, k < 64 → x.testBit k =
    if mask.testBit k && decide (8 * off ≤ 8 * base + k) && w.en.getLsbD ((8 * base + k) / 8 - off)
    then w.data.getLsbD (8 * base + k - 8 * off) else old.testBit k

/-- R438: a write at offset `off` writes bit `k` of the register at offset `base` as 1. -/
def Rules.puts (w : Wr) (off base k : Nat) : Prop :=
  8 * off ≤ 8 * base + k ∧ w.data.getLsbD (8 * base + k - 8 * off) = true ∧ w.en.getLsbD ((8 * base + k) / 8 - off) = true

/-- R438: a W1C bit or an action of a register is written as 1. -/
def Rules.sets (w : Wr) (k : Nat) : Prop := w.data.getLsbD k = true ∧ w.en.getLsbD (k / 8) = true

/-- Another record becomes the head record of a queue, and nothing of it has been read; a record that is being placed stays
(assumption log 67). -/
def Rules.anew (y : LQ) : LQ :=
  match y.taking with
  | .placing l => { y with taking := .placing l }
  | _ => { y with taking := .none, waitOn := none }

/-- R28, R32, R36, R42, R201, R202, R221, R228, R363, R421, R426, R440, R443, R452, R454: a register that holds what is written
to it: the bits that can be written, whether it takes writes now, what it holds, and the state when it holds `x`. -/
def Rules.holder (s : State) (by_ : Agent) : Reg → Option (Nat × Bool × Nat × (Nat → State))
  | .ptroot n => some (2 ^ 52 - 2 ^ 16, true, (s.ctxAt n).ptroot.toNat, fun x => s.updCtx n fun c => { c with ptroot := BitVec.ofNat 64 x })
  | .fqbase n => some (2 ^ 52 - 2 ^ 12 + 1, !(s.ctxAt n).en, (s.ctxAt n).fqbase.toNat,
      fun x => s.updCtx n fun c => { c with fqbase := BitVec.ofNat 64 x })
  | .fqsize n => some (0x1F, !(s.ctxAt n).en, (s.ctxAt n).fqsize.toNat, fun x => s.updCtx n fun c => { c with fqsize := BitVec.ofNat 32 x })
  | .sumpBase n => some (2 ^ 52 - 2 ^ 12, !(s.ctxAt n).en, (s.ctxAt n).sumpBase.toNat,
      fun x => s.updCtx n fun c => { c with sumpBase := BitVec.ofNat 64 x })
  | .sumpCtl n => some (0x1F, !(s.ctxAt n).en, (s.ctxAt n).sumpCtl.toNat,
      fun x => s.updCtx n fun c => { c with sumpCtl := BitVec.ofNat 32 x })
  | .trapctl n => some (0x80000000, true, (s.ctxAt n).trapctl.toNat,
      fun x => s.updCtx n fun c => { c with trapctl := BitVec.ofNat 32 x })
  | .savesz n => some (0xFFFFF, true, (s.ctxAt n).savesz.toNat, fun x => s.updCtx n fun c => { c with savesz := BitVec.ofNat 32 x })
  | .savebase n => some (0xFFFFFFFF, true, (s.ctxAt n).savebase.toNat,
      fun x => s.updCtx n fun c => { c with savebase := BitVec.ofNat 32 x })
  | .fqHead n => some (0xFFFF, true, (s.ctxAt n).fqhead.toNat, fun x => s.updCtx n fun c => { c with fqhead := BitVec.ofNat 16 x })
  | .apVbase n => some (2 ^ 52 - 2 ^ 16 + 1, true, (s.ctxAt n).apvbase.toNat,
      fun x => s.updCtx n fun c => { c with apvbase := BitVec.ofNat 64 x })
  | .lqBase n q => some (2 ^ 52 - 2 ^ 12, !((s.ctxAt n).lq.getD q {}).en, ((s.ctxAt n).lq.getD q {}).base.toNat,
      fun x => s.updLQ n q fun y => if BitVec.ofNat 64 x = y.base then y else { Rules.anew y with base := BitVec.ofNat 64 x })
  | .lqTail n q => some (0xFFFF, true, ((s.ctxAt n).lq.getD q {}).tail.toNat,
      fun x => s.updLQ n q fun y => { y with tail := BitVec.ofNat 16 x })
  | .quietClk => some (0x7F, s.holdsSem by_, s.quiet.cap.toNat, fun x => { s with quiet := { s.quiet with cap := BitVec.ofNat 32 x } })
  | .quietPwr => some (0x7FF, s.holdsSem by_, s.quiet.pwrCap.toNat,
      fun x => { s with quiet := { s.quiet with pwrCap := BitVec.ofNat 32 x } })
  | .quietAct => some (0x80FFFF00, s.holdsSem by_, s.quiet.act.toNat,
      fun x => { s with quiet := { s.quiet with act := BitVec.ofNat 32 x } })
  | .sluiceCtl d => some (0xC0001F1F, s.holdsSem by_ && decide (d < s.part.form.dies), (s.dieAt d).sluiceCtl.toNat,
      fun x => s.updDie d fun y => { y with sluiceCtl := BitVec.ofNat 32 x })
  | .sluiceHint d h => some (0x1F1F, s.holdsSem by_ && decide (d < s.part.form.dies), ((s.dieAt d).sluiceHint.getD h 0).toNat,
      fun x => s.updDie d fun y => { y with sluiceHint := y.sluiceHint.set h (BitVec.ofNat 32 x) })
  | .mfldWin d => some (0x1FFF, s.holdsSem by_ && decide (d < s.part.form.dies), (s.dieAt d).mfldWin.toNat,
      fun x => s.updDie d fun y => { y with mfldWin := BitVec.ofNat 32 x })
  | .watch n k half => if n < s.ctx.length ∧ k < 4 ∧ half < 2 then
      let old := ((s.ctxAt n).watch.getD k 0).toNat
      some (if half = 0 then 0xE00000000000001F else 2 ^ 64 - 1, true, if half = 0 then old % 2 ^ 64 else old / 2 ^ 64,
        fun x =>
          let new := if half = 0 then old / 2 ^ 64 * 2 ^ 64 + x else x * 2 ^ 64 + old % 2 ^ 64
          s.updCtx n fun c => { c with watch := c.watch.set k (BitVec.ofNat 128 new) })
    else none
  | .dwinSel gc => if s.single = false ∧ gc < 48 * s.part.form.dies ∧ (s.coreAt gc).dwinLane < 32 then
      some (0x1F, true, (s.coreAt gc).dwinLane, fun x => s.updCore gc fun k => { k with dwinLane := x }) else none
  | .dwinBase gc => if s.single = false ∧ gc < 48 * s.part.form.dies ∧ (s.coreAt gc).dwinBase < 2 ^ 16 then
      some (0xFFFF00, true, 2 ^ 8 * (s.coreAt gc).dwinBase, fun x => s.updCore gc fun k => { k with dwinBase := x / 2 ^ 8 }) else none
  | .invVa => (agentPort by_).map fun p => (2 ^ 52 - 2 ^ 12, true, (s.portAt p).invva.toNat,
      fun x => s.updPort p fun q => { q with invva := BitVec.ofNat 64 x })
  | _ => none

/-- R10, R438, R439, R442: a write reaches the register at its offset in the writer's view. A register that holds what is written
takes the enabled bytes, unless its rule closes it; a W1C bit is cleared by a 1; a write to an offset that is not assigned, or to
a register that cannot be written, is ignored. -/
def Rules.RegisterWrites : Prop :=
  ∀ (s : State) (bar : Bar) (off : Nat) (w : Wr),
    ((∀ k, k < 8 → w.en.getLsbD k = true → s.reach w.by_ bar (off + k) = none) → exec (.registerWrite bar off w) s = .next s)
    ∧ ∀ r base, s.answers w.by_ r = true → (∃ k, k < 8 ∧ w.en.getLsbD k = true ∧ s.reach w.by_ bar (off + k) = some (r, base)) →
      (∀ k, k < 8 → w.en.getLsbD k = true → s.reach w.by_ bar (off + k) = none ∨ s.reach w.by_ bar (off + k) = some (r, base)) →
      (∀ mask takes old become x, Rules.holder s w.by_ r = some (mask, takes, old, become) → Rules.merges w off base mask old x →
        exec (.registerWrite bar off w) s = .next (if takes then become x else s))
      ∧ (r = .devStatus → Rules.puts w off base 29 → exec (.registerWrite bar off w) s = .next { s with linklost := false })
      ∧ (∀ n (k29 k28 k27 k26 : Bool), r = .status n → (k29 = true ↔ Rules.puts w off base 29) →
          (k28 = true ↔ Rules.puts w off base 28) → (k27 = true ↔ Rules.puts w off base 27) →
          (k26 = true ↔ Rules.puts w off base 26) →
          exec (.registerWrite bar off w) s = .next (s.updCtx n fun c =>
            { c with rfmlost := c.rfmlost && !k29, asidclash := c.asidclash && !k28, aperr := c.aperr && !k27
                     portbad := c.portbad && !k26 }))
      ∧ (∀ n q, r = .lqStatus n q → Rules.puts w off base 31 →
          exec (.registerWrite bar off w) s = .next (s.updLQ n q fun x => { x with err := false }))
      ∧ (∀ n (k27 k26 : Bool), r = .prectl n → ¬ Rules.puts w off base 31 → ¬ Rules.puts w off base 30 →
          (k27 = true ↔ Rules.puts w off base 27) → (k26 = true ↔ Rules.puts w off base 26) →
          exec (.registerWrite bar off w) s = .next (s.updCtx n fun c => { c with perr := c.perr && !k27, rerr := c.rerr && !k26 }))
      ∧ (∀ ch (k31 k30 : Bool), r = .chstat ch → ch / 12 < s.part.form.dies → (s.single = true → ch / 12 = s.soloDie) →
          (k31 = true ↔ Rules.puts w off base 31) → (k30 = true ↔ Rules.puts w off base 30) →
          exec (.registerWrite bar off w) s = .next { s with chan := updAt s.chan ch fun c =>
            { c with ue := c.ue && !k31, bafault := c.bafault && !k30, ueaddr := if k31 then c.ueaddr &&& ~~~1#64 else c.ueaddr } })
      ∧ (r ∈ [.devId, .devStage, .quietStat, .devMemsz] ∨ (∃ d, r ∈ [.dieCores d, .dieHalt d, .dieStat d, .dieTemp d])
          ∨ (∃ n, r ∈ [.sumpHead n, .sumpTail n, .trapstat n, .pageStatus n, .fqTail n]) ∨ (∃ n k, r ∈ [.traprec n k, .lqHead n k])
          ∨ (∃ n, r ∈ [.ueaddr n, .baerr n, .dwinStat n]) →
        exec (.registerWrite bar off w) s = .next s)

/-- R438: a write of 8 bytes that covers two registers of 4 bytes, by a port, is a write of the first and then one of the second. -/
def Rules.WideWrites : Prop :=
  ∀ (s t u : State) (bar : Bar) (off : Nat) (w : Wr) (p : Port), w.by_ = .port p →
    (∀ j k, j < 4 → 4 ≤ k → k < 8 → s.reach w.by_ bar (off + j) = none ∨ s.reach w.by_ bar (off + j) ≠ s.reach w.by_ bar (off + k)) →
    exec (.registerWrite bar off { w with en := w.en &&& 0x0F#8 }) s = .next t →
    exec (.registerWrite bar off { w with en := w.en &&& 0xF0#8 }) t = .next u →
    exec (.registerWrite bar off w) s = .next u

/-- R424: what a register of 4 bytes of a debug window shows of the group mapped and of its lane. -/
def Rules.shows (k : CoreState) (g : Group) (t : Lane) (o v : Nat) : Prop :=
  (∃ j, j < 256 ∧ o = 0x800 + 4 * j ∧
      v = if 256 * k.dwinBase + j < t.wb + t.f then (t.slots.get (256 * k.dwinBase + j)).toNat else 0)
    ∨ o = 0xC10 ∧ v = t.wb ∨ o = 0xC14 ∧ v = t.f
    ∨ o = 0xC18 ∧ v = (match t.st with | .ready => 0 | .heldMeet => 1 | .heldWait => 2 | .stopped => 3 | .exited => 4 | .vacant => 5)
    ∨ o = 0xC1C ∧ v = t.ret.length ∨ o = 0xC20 ∧ v = t.seq
    ∨ (∃ j, j < 192 ∧ o = 0x1000 + 4 * j ∧ v = (g.sregs.get j).toNat)
    ∨ o = 0x1300 ∧ v = g.tpart ∨ o = 0x1304 ∧ v = g.fmode.toNat ∨ o = 0x1308 ∧ v = g.fstat ∨ o = 0x130C ∧ v = g.fseed.toNat
    ∨ ∃ j, j < 12 ∧ o = 0x1310 + 4 * j ∧ v = g.flags.getD j 0

/-- R424, R425: a debug window whose core has a group mapped shows it to a host that reads it, and 0 where none is mapped. The bits at
which a return entry shows its advance and its frame are the model's choice (assumption log 51). -/
def Rules.DebugReads : Prop :=
  ∀ (s : State) (p : Port) (gc o : Nat), s.single = false → gc < 48 * s.part.form.dies → s.answers (.port p) (.dwin gc o) = true →
    let k := s.coreAt gc
    let read (n v : Nat) : Prop :=
      s.hostRead (.port p) .bar0 (0x400000 + 0x2000 * gc + o) n = { s with reply := .data (leBytes v n) }
    (k.dwinSlot = none → (0x800 ≤ o ∧ o < 0xC00 ∨ 0x1000 ≤ o ∧ o < 0x1340) → o % 4 = 0 → read 4 0)
    ∧ ∀ g, k.dwinSlot = some g.slot → s.group? gc g.slot = some g → let t := g.lane k.dwinLane
      (∀ v, Rules.shows k g t o v → read 4 v)
      ∧ (o = 0xC00 → read 8 t.pc.toNat) ∧ (o = 0xC08 → read 8 t.meet.toNat)
      ∧ (∀ j e, j < 16 → t.ret[j]? = some e → (o = 0xC40 + 16 * j → read 8 e.addr.toNat)
          ∧ (o = 0xC48 + 16 * j → read 8 (e.adv + e.f * 2 ^ 32)))
      ∧ (∀ j r, j < 4 → g.trap = some r → o = 0x1800 + 8 * j → read 8 (leNat ((r.bytes.drop (8 * j)).take 8)))

/-- R188, R237, R241, R424, R425: a host's write through a debug window changes the register of the mapped group or of its lane;
one to a window with no group mapped, to a lane that is Exited or Vacant or to a slot at or above its top is ignored. That a
written address is that of a clause is the model's reading (assumption log 51), and that until the lane next issues, when the
write takes effect, meetings judge it by the addresses it had before: a lane held at a barrier object then goes on at the address
written. -/
def Rules.DebugWrites : Prop :=
  ∀ (s : State) (p : Port) (gc o x : Nat) (w : Wr) (g : Group), s.single = false → gc < 48 * s.part.form.dies →
    s.answers (.port p) (.dwin gc o) = true → w.by_ = .port p → w.en ≠ 0#8 →
    (∀ k, 4 ≤ k → k < 8 → w.en.getLsbD k = true → 0xC00 ≤ o ∧ o < 0xC10) →
    let at_ := 0x400000 + 0x2000 * gc + o
    let out := exec (.registerWrite .bar0 at_ w) s
    let k := s.coreAt gc
    let t := g.lane k.dwinLane
    let live : Prop := t.st ≠ .exited ∧ t.st ≠ .vacant
    let lane (f : Lane → Lane) : State := s.updGroup gc g.slot fun g => { g with lanes := updAt g.lanes k.dwinLane f }
    let slot := 256 * k.dwinBase + (o - 0x800) / 4
    let inSlots : Prop := 0x800 ≤ o ∧ o < 0xC00 ∧ o % 4 = 0
    (k.dwinSlot = none → inSlots ∨ o = 0xC00 ∨ o = 0xC08 ∨ 0x1000 ≤ o ∧ o < 0x1310 ∧ o % 4 = 0 → out = .next s)
    ∧ (k.dwinSlot = some g.slot → s.group? gc g.slot = some g → (∀ h ∈ s.groups, h.core = gc → h.slot = g.slot → h = g) →
      (inSlots ∨ o = 0xC00 ∨ o = 0xC08 → ¬ live → out = .next s)
      ∧ (inSlots → t.wb + t.f ≤ slot → out = .next s)
      ∧ (inSlots → live → slot < t.wb + t.f → Rules.merges w at_ at_ (2 ^ 32 - 1) (t.slots.get slot).toNat x →
          out = .next (lane fun t => { t with slots := t.slots.set slot (BitVec.ofNat 32 x), bad := t.bad.filter fun b => b ≠ slot }))
      ∧ (o = 0xC00 → live → Rules.merges w at_ at_ (2 ^ 64 - 1) t.pc.toNat x → out = .next (lane fun u =>
          if u.pc = BitVec.ofNat 64 x then u else { u with
            pc := BitVec.ofNat 64 x, mid := none, due := some (u.due.getD (u.pc, u.meet)) }))
      ∧ (o = 0xC08 → live → Rules.merges w at_ at_ (2 ^ 64 - 1) t.meet.toNat x →
          out = .next (lane fun u => { u with meet := BitVec.ofNat 64 x, due := some (u.due.getD (u.pc, u.meet)) }))
      ∧ (∀ j, j < 192 → o = 0x1000 + 4 * j → Rules.merges w at_ at_ (2 ^ 32 - 1) (g.sregs.get j).toNat x →
          out = .next (s.updGroup gc g.slot fun g =>
            { g with sregs := g.sregs.set j (BitVec.ofNat 32 x), badUni := g.badUni.filter fun k => k ≠ j }))
      ∧ (o = 0x1300 → g.tpart < 2 ^ 32 → Rules.merges w at_ at_ (2 ^ 32 - 1) g.tpart x →
          out = .next (s.updGroup gc g.slot fun g => { g with tpart := if 1 ≤ x ∧ x ≤ 5 then x else 5 }))
      ∧ (o = 0x1304 → Rules.merges w at_ at_ (2 ^ 32 - 1) g.fmode.toNat x →
          let rm := x % 8
          let new := x / 2 ^ 13 % 2 ^ 7 * 2 ^ 13 + if rm = 0 ∨ rm = 7 then 1 else rm
          out = .next (s.updGroup gc g.slot fun g => { g with fmode := BitVec.ofNat 32 new }))
      ∧ (o = 0x1308 → Rules.merges w at_ at_ (2 ^ 32 - 1) g.fstat x →
          out = .next (s.updGroup gc g.slot fun g => { g with fstat := x % 64 }))
      ∧ (o = 0x130C → Rules.merges w at_ at_ (2 ^ 32 - 1) g.fseed.toNat x →
          out = .next (s.updGroup gc g.slot fun g => { g with fseed := BitVec.ofNat 32 x })))

/-- R440: a read by a physical function takes the semaphore when it is free, and answers what stands after it; REL from the owner
frees it, and from any other does nothing. -/
def Rules.Semaphore : Prop :=
  ∀ (s : State) (p : Port), s.answers (.port p) .mgmtSem = true →
    let code : Owner → Nat | .free => 0 | .port .a => 1 | .port .b => 2 | .firmware => 3
    let owner : Owner := if s.mgmt = .free then .port p else s.mgmt
    exec (.mgmtSemAcquire (.port p)) s = .next { s with mgmt := owner, reply := .data (leBytes (code owner * 2 ^ 30) 4) }
    ∧ ∀ w : Wr, w.by_ = .port p →
      (Rules.sets w 0 → s.mgmt = .port p → exec (.mgmtSemRelease w) s = .next { s with mgmt := .free })
      ∧ (¬ Rules.sets w 0 ∨ s.mgmt ≠ .port p → exec (.mgmtSemRelease w) s = .next s)

/-- R30, R31, R42, R45, R221, R421, R443: a write of `CTX_CTRL`: EN written as 0 is accepted with every field; in an enabled slot
EN = 1 changes nothing; EN set to 1 is refused for its ASID and PART, for its PORT, or for both, and otherwise resets what R31 and
the rules name and reads the region table, here one with no entries. That SEQ goes on across enables, and that clearing EN changes
nothing else, is the model's reading (assumption log 50). -/
def Rules.ContextControl : Prop :=
  ∀ (s : State) (n x : Nat) (w : Wr) (p : Port), w.by_ = .port p → s.answers (.port p) (.ctrl n) = true → n < s.ctx.length →
    Rules.merges w 0 0 0x80F0FFFF (s.ctxAt n).ctrl.toNat x →
    let c := s.ctxAt n
    let becomes (f : Ctx → Ctx) : Prop := exec (.ctxCtrlWrite n w) s = .next (s.updCtx n f)
    let clash : Prop := ∃ d ∈ s.ctx, d.en = true ∧ d.asid = x % 2 ^ 16 ∧ d.part = x / 2 ^ 22 % 4
    let badPort : Prop := s.portServes (if x.testBit 20 then .b else .a) = false
    (x.testBit 31 = false → becomes fun c => { c with ctrl := BitVec.ofNat 32 x })
    ∧ (x.testBit 31 = true → c.en = true → exec (.ctxCtrlWrite n w) s = .next s)
    ∧ (x.testBit 31 = true → c.en = false →
        (clash → ¬ badPort → becomes fun c => { c with asidclash := true })
        ∧ (¬ clash → badPort → becomes fun c => { c with portbad := true })
        ∧ (clash → badPort → becomes fun c => { c with asidclash := true, portbad := true })
        ∧ (¬ clash → ¬ badPort → c.rfmtab.toNat % 32 = 0 → exec (.ctxCtrlWrite n w) s =
            .next ({ s with sumps := s.sumps.filter fun k => k.1 != n }.updCtx n fun c =>
              { c with ctrl := BitVec.ofNat 32 x, faulted := false, fsub := 0, fqhead := 0, fqtail := 0, fqwrap := false, shead := 0,
                       stail := 0, held := [], fatal := none, apvbase := c.apvbase &&& 0xFFFFFFFFFFFFFFFE, regions := []
                       unread := [] })))

/-- R27, R38, R45: a write of `CTX_RFMTAB` reads the table again; in a disabled context every read of an entry faults. An
entry is in force where its FLAGS say so and it meets the conditions; one that faults, or lies in a BANKED page, is not, and RFMLOST
says so; one in a page of the host that is not yet translated stays to be read. That an enabled context reads its table also
after it has ended is the model's choice (assumption log 66). The case stated is that of a table of one entry. -/
def Rules.RegionTables : Prop :=
  ∀ (s : State) (n x : Nat) (w : Wr) (p : Port), w.by_ = .port p →
    s.answers (.port p) (.rfmtab n) = true → n < s.ctx.length → Rules.merges w 0 0 (2 ^ 52 - 1) (s.ctxAt n).rfmtab.toNat x →
    let c : Ctx := { s.ctxAt n with rfmtab := BitVec.ofNat 64 x }
    let t : State := s.updCtx n fun c => { c with rfmtab := BitVec.ofNat 64 x }
    let u : State := t.updCtx n fun c => { c with regions := [none], unread := [0] }
    let got := u.readVa n { core := engineCore } (x / 2 ^ 5 % 2 ^ 47 * 2 ^ 5) 32
    let entry (xs : List Byte) : Option Region :=
      let d (o : Nat) : Nat := leNat ((xs.drop o).take 8)
      if d 0x18 % 2 = 1 ∧ d 0 % 2 ^ 16 = 0 ∧ d 8 ≠ 0 ∧ d 8 % 2 ^ 16 = 0 ∧ d 0x10 % 8 = 0 then some ⟨d 0, d 8, d 0x10⟩ else none
    (c.en = false → x % 32 = 1 → exec (.ctxRfmtabWrite n w) s =
        .next (t.updCtx n fun c => { c with regions := [none], unread := [], rfmlost := true }))
    ∧ (x % 32 = 0 → exec (.ctxRfmtabWrite n w) s = .next (t.updCtx n fun c => { c with regions := [], unread := [] }))
    ∧ (x % 32 = 1 →
      (∀ xs runs, got = .ok xs runs → (∀ r ∈ runs, pteBanked r.2.2.entry = false) → ∃ v, exec (.ctxRfmtabWrite n w) s = .next v
        ∧ v.ctxAt n = { c with regions := [entry xs], unread := [] } ∧ v.mem = s.mem)
      ∧ (∀ xs runs, got = .ok xs runs → (∃ r ∈ runs, pteBanked r.2.2.entry = true) → exec (.ctxRfmtabWrite n w) s =
          .next (t.updCtx n fun c => { c with regions := [none], unread := [], rfmlost := true }))
      ∧ (∀ e, got = .bad e → e.ue = none → exec (.ctxRfmtabWrite n w) s =
          .next (t.updCtx n fun c => { c with regions := [none], unread := [], rfmlost := true }))
      ∧ (∀ pg, got = .pri pg → ∃ v, exec (.ctxRfmtabWrite n w) s = .next v ∧ v.ctxAt n = { c with regions := [none], unread := [0] }
          ∧ v.mem = s.mem))

/-- R32, R440, R441: a partition window takes a write by the semaphore's owner unless it would pass the window limit, overlap
another window, or change a partition that an enabled context names; a function's map unless it would be in force with a slot
of another map in force. -/
def Rules.Partitions : Prop :=
  ∀ (s : State) (w : Wr) (p : Port), w.by_ = .port p →
    (∀ k x, k < 4 → s.partWin.length = 4 → s.answers (.port p) (.partWin k) = true →
      Rules.merges w 0 0 0x01FF01FF (s.partWin.getD k 0).toNat x →
      let base (y : Nat) : Nat := y % 2 ^ 9
      let size (y : Nat) : Nat := y / 2 ^ 16 % 2 ^ 9
      let refused : Prop := s.mgmt ≠ .port p ∨ s.memBytes / 2 ^ 30 < base x + size x ∨ (∃ c ∈ s.ctx, c.en = true ∧ c.part = k)
        ∨ ∃ j, j < 4 ∧ j ≠ k ∧ let y := (s.partWin.getD j 0).toNat
            size y ≠ 0 ∧ size x ≠ 0 ∧ base x < base y + size y ∧ base y < base x + size x
      (refused → exec (.partWinWrite k w) s = .next s)
      ∧ (¬ refused → exec (.partWinWrite k w) s = .next { s with partWin := s.partWin.set k (BitVec.ofNat 32 x) }))
    ∧ ∀ v half x, v < 16 → half < 2 → s.vfmap.length = 16 → s.answers (.port p) (.vfMap v half) = true →
      let old := (s.vfmap.getD v 0).toNat
      Rules.merges w 0 0 (if half = 0 then 2 ^ 64 - 1 else 0x8000000300000000) (if half = 0 then old % 2 ^ 64 else old / 2 ^ 64) x →
      let new := if half = 0 then old / 2 ^ 64 * 2 ^ 64 + x else x * 2 ^ 64 + old % 2 ^ 64
      let refused : Prop := s.mgmt ≠ .port p ∨ (new.testBit 127 = true ∧ ∃ u k, u < 16 ∧ u ≠ v ∧ k < 64
        ∧ (s.vfmap.getD u 0).getLsbD 127 = true ∧ (s.vfmap.getD u 0).getLsbD k = true ∧ new.testBit k = true)
      (refused → exec (.vfMapWrite v half w) s = .next s)
      ∧ (¬ refused → exec (.vfMapWrite v half w) s = .next { s with vfmap := s.vfmap.set v (BitVec.ofNat 128 new) })

/-- R36, R443: START of `TLB_INVCTL`, written while no invalidation of the port is in progress, removes what its SCOPE names from
every TLB, aperture translation cache and walk cache, and BUSY stands until it is done; without START, while BUSY, or with SCOPE =
3, nothing is removed. Before BUSY clears the stores to memory that are held back are performed. That the entries go at the write, and
BUSY later, is the model's choice (assumption log 56). -/
def Rules.Invalidations : Prop :=
  ∀ (s : State) (p : Port) (w : Wr) (x : Nat), w.by_ = .port p → s.answers (.port p) .invCtl = true → s.ports.length = 2 →
    Rules.merges w 0 0 0x3FEFFFFF (s.portAt p).invctl.toNat x →
    let held (s : State) : State := s.updPort p fun q => { q with invctl := BitVec.ofNat 32 x }
    let scope := x / 2 ^ 28 % 4
    (¬ Rules.sets w 31 ∨ (s.portAt p).busy = true ∨ scope = 3 → exec (.tlbInvalidate w) s = .next (held s))
    ∧ (Rules.sets w 31 → (s.portAt p).busy = false → scope ≠ 3 →
      ∃ t, Rules.invalidated (held s) t x ((s.portAt p).invva.toNat / 2 ^ 12 % 2 ^ 40 * 2 ^ 12)
        ∧ exec (.tlbInvalidate w) s = .next (t.updPort p fun q => { q with busy := true }))
    ∧ (let u := s.perform? fun b => b.team.isNone
       exec (.tlbInvalidateDone p) s = .next (u.updPort p fun q => { q with busy := false })
       ∧ (s.stores = [] → u = s) ∧ ∀ b ∈ u.stores, b.team ≠ none)

/-- R81: CECLR clears the count of corrected errors of a channel in operation, and BACLR its three counts of bank arithmetic. -/
def Rules.ChannelCounts : Prop :=
  ∀ (s : State) (ch : Nat) (w : Wr) (p : Port) (i : Instr), w.by_ = .port p → s.answers (.port p) (.chctl ch) = true →
    i = .ceclr ch w ∨ i = .baclr ch w → ch / 12 < s.part.form.dies → (s.single = true → ch / 12 = s.soloDie) →
    (Rules.sets w 31 → ¬ Rules.sets w 30 → exec i s = .next { s with chan := updAt s.chan ch fun c => { c with cecnt := 0 } })
    ∧ (¬ Rules.sets w 31 → Rules.sets w 30 → exec i s = .next { s with chan := updAt s.chan ch fun c =>
        { c with unitcnt := 0, illcnt := 0, uecnt := 0 } })
    ∧ (¬ Rules.sets w 31 → ¬ Rules.sets w 30 → exec i s = .next s)

/-- R202, R211: a write of `LQ_TAIL` or `LQ_CTL`: N does not change while EN stays at 1; clearing EN leaves the record that is
not yet accepted in the queue; CANCEL discards what the queue holds, its launches and their teams. That a new N makes the engine
take the head record anew is the model's choice (assumption log 67). -/
def Rules.QueueControl : Prop :=
  ∀ (s : State) (n q x : Nat) (w : Wr) (p : Port), w.by_ = .port p → n < s.ctx.length → q < (s.ctxAt n).lq.length →
    let y := (s.ctxAt n).lq.getD q {}
    (s.answers (.port p) (.lqTail n q) = true → Rules.merges w 0 0 0xFFFF y.tail.toNat x →
      exec (.lqTailWrite n q w) s = .next (s.updLQ n q fun y => { y with tail := BitVec.ofNat 16 x }))
    ∧ (s.answers (.port p) (.lqCtl n q) = true → Rules.merges w 0 0 0xB000000F y.ctl.toNat x →
      (y.en = true → x.testBit 31 = true → x % 16 ≠ y.ctl.toNat % 16 →
        exec (.lqCtlWrite n q w) s = .next s ∧ exec (.cancel n q w) s = .next s)
      ∧ (¬ Rules.sets w 30 → x % 16 = y.ctl.toNat % 16 →
        exec (.lqCtlWrite n q w) s = .next (s.updLQ n q fun y => { y with ctl := BitVec.ofNat 32 x }))
      ∧ (¬ Rules.sets w 30 → x % 16 ≠ y.ctl.toNat % 16 → y.en = false ∨ x.testBit 31 = false →
        exec (.lqCtlWrite n q w) s = .next (s.updLQ n q fun y => { Rules.anew y with ctl := BitVec.ofNat 32 x }))
      ∧ (Rules.sets w 30 → (y.en = true → x.testBit 31 = true → x % 16 = y.ctl.toNat % 16) → 4 ≤ x % 16 → x % 16 ≤ 12 →
        (s.teams.map (·.id)).Nodup →
        let mine (l : Nat) : Prop := ∃ m ∈ s.launches, m.id = l ∧ m.ctx = n ∧ m.queue = q ∧ ¬(m.committed = true ∧ m.contrib ≠ [])
        ∃ t, exec (.cancel n q w) s = .next t ∧ (∀ m ∈ t.launches, ¬ mine m.id) ∧ (∀ m ∈ s.launches, ¬ mine m.id → m ∈ t.launches)
          ∧ (∀ m ∈ t.teams, ¬ mine m.launch) ∧ (∀ m ∈ s.teams, ¬ mine m.launch → m ∈ t.teams)
          ∧ (t.ctxAt n).lq.getD q {} = { y with ctl := BitVec.ofNat 32 x, head := y.tail.toNat % 2 ^ (x % 16), taking := .none, waitOn := none }
          ∧ t.mem = s.mem))

/-- A lane that a held trap stopped, resumed (R422, R416): after a `brk` at the next instruction, with what is left of its clause,
or, its clause ended, held at a grid barrier where it is marked (R343), or Held where that is its meeting address (R184); after a
watchpoint at the watched instruction, whose performance is not watched. A lane whose address the debug window has written goes on
there (R425). -/
def Rules.resumed (h : HeldTrap) (x : Lane) : Lane :=
  let go : Lane := { x with st := .ready, hold := .none }
  if x.st = .stopped ∧ x.hold = .trap then
    if h.record.cause = .brk then
      if x.pc ≠ h.record.pc then go
      else
        let met : LaneState := if h.next = x.meet ∧ x.meet ≠ 0xFFFFFFFFFFFFFFFF then .heldMeet else .ready
        match x.mid with
        | none => { go with pc := h.next, st := met }
        | some m =>
          if 1 < m.left then { go with pc := h.next, mid := some { m with left := m.left - 1 } }
          else if x.mark then { go with pc := h.next, mid := none, st := .heldWait, hold := .grid, mark := false }
          else { go with pc := h.next, mid := none, st := met }
    else { go with noWatch := true }
  else x

/-- R422, R420: the commands for the oldest held trap: it is resumed and the next one shown, or the context ends with its record;
other values, and a command when none is held, do nothing. -/
def Rules.HeldTraps : Prop :=
  ∀ (s : State) (n : Nat) (w : Wr) (p : Port) (i : Instr), w.by_ = .port p → s.answers (.port p) (.trapcmd n) = true →
    n < s.ctx.length → i = .trapResume n w ∨ i = .trapEnd n w →
    let c := s.ctxAt n
    (c.held = [] ∨ (Rules.sets w 31 ↔ Rules.sets w 30) → exec i s = .next s)
    ∧ ∀ h rest, c.held = h :: rest → c.fatal = none →
      (¬ Rules.sets w 31 → Rules.sets w 30 → (∀ g ∈ s.groups, g.lanes.length ≤ 32) → ∃ t, exec i s = .next t
        ∧ t.groups = s.groups.map (fun g => if g.core = h.core ∧ g.slot = h.slot then
            { g with lanes := g.lanes.map (Rules.resumed h)
                     trap := if ∃ x ∈ g.lanes, (Rules.resumed h x).st = .stopped then g.trap else none } else g)
        ∧ t.ctxAt n = { c with held := rest } ∧ { t with groups := s.groups, ctx := s.ctx, cores := s.cores } = s
        ∧ ∀ h' rest', rest = h' :: rest' → (t.coreAt h'.core).dwinSlot = some h'.slot)
      ∧ (Rules.sets w 31 → ¬ Rules.sets w 30 → c.faulted = false → ∃ t, exec i s = .next t ∧ Rules.ended s t n 0 h.record)

/-! ### Pre-emption -/

/-- R427, R432, R436: a write of SAVE that finds BUSY and SAVED at 0 begins a save, and a save area that does not lie wholly inside
the partition window abandons it; while BUSY or SAVED stands, the write does nothing, and neither does one of RESTORE that finds
SAVED at 0 or BUSY at 1. Each such write is an event of the cores with work of the context. -/
def Rules.SaveBegins : Prop :=
  ∀ (s : State) (n : Nat) (w : Wr) (p : Port), w.by_ = .port p → s.answers (.port p) (.prectl n) = true → n < s.ctx.length →
    ¬ Rules.sets w 27 → ¬ Rules.sets w 26 →
    let c := s.ctxAt n
    let inside : Prop := c.savebase.toNat * 2 ^ 12 + c.savesz.toNat % 2 ^ 20 * 2 ^ 12 ≤ winSize (s.partWin.getD c.part 0) * 2 ^ 30
    let told (t : State) : Prop := ∀ g ∈ s.groups, g.ctx = n → (t.coreAt g.core).ctlPending = true
    (Rules.sets w 31 → ¬ Rules.sets w 30 → c.busy = true ∨ c.saved = true →
      ∃ t, exec (.ctxSave n w) s = .next t ∧ { t with cores := s.cores } = s ∧ told t)
    ∧ (¬ Rules.sets w 31 → Rules.sets w 30 → c.busy = true ∨ c.saved = false →
      ∃ t, exec (.ctxRestore n w) s = .next t ∧ { t with cores := s.cores } = s ∧ told t)
    ∧ (Rules.sets w 31 → c.busy = false → c.saved = false → c.faulted = false →
      (¬ inside → ∃ t, exec (.ctxSave n w) s = .next t ∧ t.ctxAt n = { c with perr := true } ∧ { t with ctx := s.ctx, cores := s.cores } = s
        ∧ told t)
      ∧ (inside → (∀ v ∈ s.windows, v.closed = true) → (∀ l ∈ s.launches, l.render = none) → ∃ t, exec (.ctxSave n w) s = .next t
        ∧ t.ctxAt n = { c with busy := true } ∧ { t with ctx := s.ctx, cores := s.cores } = s ∧ told t))

/-- R427 to R433: a save of a context of which nothing runs any more, and which its save area can hold, takes every team of it with
its groups, paused copies, wellhead records and held traps, frees what they held, and leaves a header in memory; while
something runs, or an ordered reduction is still to commit, nothing is saved. A save whose write meets an uncorrectable error
ends the context (R80). That the model saves a context as one part at the save area's base is its own choice (assumption log 41).
-/
def Rules.SaveCompletes : Prop :=
  ∀ (s : State) (n pa : Nat), n < 64 → n < s.ctx.length → (∀ l ∈ s.launches, l.render = none) →
    let c := s.ctxAt n
    let ts := s.teams.filter fun t => t.ctx == n
    let mine (id : Nat) : Bool := ts.any fun t => t.id == id
    let all := s.teams.filter fun u => mine u.id
    let still : Prop := (∀ g ∈ s.groups, g.ctx = n → s.quiescent g = true) ∧ (∀ k ∈ s.copies, k.ctx = n → k.waitOn ≠ none)
      ∧ ∀ l ∈ s.launches, l.ctx = n → ¬(l.allPlaced = true ∧ s.teamsLeft l.id = false ∧ l.committed = false ∧ l.table ≠ [])
    (c.busy = true → c.saved = false → ¬ still → exec (.saveComplete n) s = .next s)
    ∧ (c.busy = false ∨ c.saved = true → exec (.saveComplete n) s = .next s)
    ∧ (c.busy = true → c.saved = false → still → (∀ v ∈ s.saves, v.ctx ≠ n) → s.window c.part (c.savebase.toNat * 2 ^ 12) = some pa →
      let size := c.savesz.toNat % 2 ^ 20 * 2 ^ 12
      savesNeed all ≤ size → Memory.wf s.mem = true →
      (s.ueIn (.dev pa) 4096 ≠ none → ∃ t, exec (.saveComplete n) s = .next t ∧ (t.ctxAt n).faulted = true
        ∧ (∀ g ∈ t.groups, g.ctx ≠ n) ∧ t.mem = s.mem)
      ∧ (s.ueIn (.dev pa) size = none → ∃ t v, exec (.saveComplete n) s = .next t ∧ t.saves = s.saves ++ [v] ∧ t.images = v :: s.images ∧ v.ctx = n ∧ v.at_ = pa ∧ v.teams = all
        ∧ v.groups = (s.groups.filter fun g => mine g.team).map (fun g => { g with lanes := g.lanes.map (s.atRestLane g) }) ∧ v.copies = s.copies.filter (fun k => mine k.team)
        ∧ v.tasks = s.wells.filter (fun k => mine k.2.team) ∧ v.image = t.rdBytes (.dev pa) v.image.length
        ∧ t.groups = s.groups.filter (fun g => !mine g.team) ∧ t.teams = s.teams.filter (fun u => !mine u.id)
        ∧ t.copies = s.copies.filter (fun k => !mine k.team) ∧ t.wells = s.wells.filter (fun k => !mine k.2.team)
        ∧ (t.ctxAt n).busy = false ∧ (t.ctxAt n).saved = true ∧ (t.ctxAt n).en = c.en
        ∧ leNat (t.rdBytes (.dev pa) 4) = 0x5C040A11 ∧ leNat (t.rdBytes (.dev (pa + 8)) 4) = n + all.length % 2 ^ 16 * 2 ^ 16
        ∧ leNat (t.rdBytes (.dev (pa + 12)) 4) = v.tasks.length % 2 ^ 32))

/-- R434: a restore whose save area fails the checks of R433 is refused, and places nothing; one that passes them places each team
as soon as a unit fits (R213), and with the last SAVED and BUSY clear. An uncorrectable error in the header, or in the bytes of a
save whose header fits, ends the context (R80). That what is restored is the state that the save took, and not its bytes in memory,
is assumption log 41; when and in what order teams and records enter is log 42. The case stated is that of one team with nothing
but its window, tiles and stream. -/
def Rules.Restores : Prop :=
  ∀ (s : State) (n pa : Nat) (w : Wr) (p : Port), w.by_ = .port p → s.answers (.port p) (.prectl n) = true → n < s.ctx.length →
    ¬ Rules.sets w 27 → ¬ Rules.sets w 26 → ¬ Rules.sets w 31 → Rules.sets w 30 →
    let c := s.ctxAt n
    let size := c.savesz.toNat % 2 ^ 20 * 2 ^ 12
    c.busy = false → c.saved = true → s.window c.part (c.savebase.toNat * 2 ^ 12) = some pa → size ≠ 0 →
    c.savebase.toNat * 2 ^ 12 + size ≤ winSize (s.partWin.getD c.part 0) * 2 ^ 30 →
    (∀ e, s.saveError pa n size = some e → ∃ t, exec (.ctxRestore n w) s = .next t ∧ (t.ctxAt n).faulted = true
      ∧ (∀ g ∈ t.groups, g.ctx ≠ n) ∧ (∀ v ∈ t.saves, v.ctx ≠ n) ∧ t.mem = s.mem)
    ∧ (s.saveError pa n size = none → s.headerOk pa n size = false → ∃ t, exec (.ctxRestore n w) s = .next t
      ∧ t.ctxAt n = { c with rerr := true } ∧ { t with ctx := s.ctx, cores := s.cores, chan := s.chan } = s)
    ∧ ∀ v tm, s.saveError pa n size = none → s.headerOk pa n size = true → s.saves = [v] → v.ctx = n → v.teams = [tm] → tm.ctx = n → tm.cores ≠ [] → v.groups = [] → v.copies = [] →
      v.tasks = [] → v.held = [] → s.mayPlace = true →
      let unit := s.unitFor s.teams tm.needOn tm.cores.length
      (unit = none → ∃ t, exec (.ctxRestore n w) s = .next t ∧ t.teams = s.teams ∧ t.saves = s.saves ∧ (t.ctxAt n).busy = true
        ∧ (t.ctxAt n).saved = true)
      ∧ ∀ u, unit = some u → ∃ t, exec (.ctxRestore n w) s = .next t
        ∧ t.teams = s.teams ++ [{ tm with cores := u, slots := bindTeam s.teams tm.roles u }] ∧ t.groups = s.groups ∧ t.saves = []
        ∧ (t.ctxAt n).busy = false ∧ (t.ctxAt n).saved = false ∧ t.mem = s.mem

/-- R434: a restored wellhead record that waits enters its core's wellhead as soon as there is room; in what order several do is the
model's choice (assumption log 42). -/
def Rules.RestoredRecords : Prop :=
  ∀ (s : State) (core : Nat) (v : Saved) (k : Task) (tm : Team), s.saves = [v] → v.teams = [] → v.tasks = [(core, k)] →
    s.team? k.team = some tm →
    (4096 ≤ s.wellCount core → exec (.restoredRecordEnter core) s = .next s)
    ∧ (s.wellCount core < 4096 → s.keyCount core k < 31 → (∀ w ∈ s.wells, w.1 = core → s.keyCount core w.2 < 31) →
      exec (.restoredRecordEnter core) s = .next { s with
        wells := s.wells ++ [(core, { k with since := (s.coreAt core).clk.toNat })], saves := [] })

/-! ### Management messages -/

/-- A message that is served: it came by a mailbox whose GO sent it, by a port whose link is up, or by SMBus. -/
def Rules.asked (s : State) (v : Via) (code : Nat) : Prop :=
  s.powered = true ∧ match v with
    | .mailbox p => (p = .a ∨ s.part.form ≠ .bareDie) ∧ (s.portAt p).mboxBusy = true ∧ (s.portAt p).sent.rd 0 1 = code
    | .vendorMessage p => (p = .a ∨ s.part.form ≠ .bareDie) ∧ (s.portAt p).up = true
    | .smbus => True

/-- A response: a status word, then bytes; in a mailbox it replaces the message, as far as the mailbox holds it, and BUSY
clears. -/
def Rules.answered (s : State) (v : Via) (status : Nat) (xs : List Byte) : State :=
  let m := leBytes status 4 ++ xs
  let s := match v with
    | .mailbox p => s.updPort p fun q => { q with mbox := Store.setAll [] 0 (m.take 4080), mboxLen := BitVec.ofNat 16 (Nat.min 4080 m.length),
                                                  mboxBusy := false }
    | _ => s
  { s with reply := .message m }

/-- What a message of a mailbox holds after its code byte is what the event gives; another transport brings it (the places of the
fields are assumption log 77). -/
def Rules.carried (s : State) (v : Via) (xs : List Byte) : Prop := ∀ p, v = .mailbox p → (s.portAt p).sent.getAll 1 xs.length = xs

/-- R451, R452: GO sends the message that stands in the mailbox then, of a known code; GET_ID, GET_MEAS and GET_CERT answer with status 0 and what they ask for, the
measurements under both of the device's signatures (GO also notes whether the port then holds the semaphore, R440); a message of another code is answered with status 1. That a message of another code, or of no bytes, is answered at once with
status 1, and how a response stands in the mailbox, are the model's reading (assumption logs 47 and 48). -/
def Rules.Messages : Prop :=
  (∀ (s : State) (p : Port) (w : Wr) (x : Nat), w.by_ = .port p → s.answers (.port p) .mboxCtl = true → s.ports.length = 2 →
    Rules.merges w 0 0 0xFFFF (s.portAt p).mboxLen.toNat x →
    let sent : State := s.updPort p fun q => { q with mboxLen := BitVec.ofNat 16 x }
    let known : Prop := (s.portAt p).mbox.rd 0 1 ∈ [1, 2, 3, 0x10, 0x11, 0x12] ∧ x ≠ 0
    (¬ Rules.sets w 31 ∨ (s.portAt p).mboxBusy = true → exec (.mboxGo p w) s = .next sent)
    ∧ (Rules.sets w 31 → (s.portAt p).mboxBusy = false → known →
        exec (.mboxGo p w) s = .next (s.updPort p fun q =>
          { q with mboxLen := BitVec.ofNat 16 x, mboxBusy := true, mboxSem := s.mgmt == .port p, sent := q.mbox, sentLen := BitVec.ofNat 16 x }))
    ∧ (Rules.sets w 31 → (s.portAt p).mboxBusy = false → ¬ known →
        exec (.mboxGo p w) s = .next { Rules.answered s (.mailbox p) 1 [] with reply := s.reply }))
  ∧ ∀ (s : State) (v : Via),
    let bytes (f : Nat → Byte) (n : Nat) : List Byte := (List.range n).map f
    let sha (x : List Byte) : List Byte := bytes (Config.sha384 x) 48
    let digests := sha (s.fw.images.getD s.fw.active []) ++ sha Config.controlFirmware
      ++ sha (Config.trainingResult ((s.chan.map fun c => [c.trained, c.hj]).flatten)) ++ sha (Config.fuseState (s.die.map fun d => d.en.toNat))
    (Rules.asked s v 1 → exec (.getId v) s = .next (Rules.answered s v 0 (leBytes s.part.form.code 1 ++ leBytes Config.siliconRev 1
      ++ bytes Config.serialNumber 16 ++ bytes Config.ed25519Public 32 ++ bytes Config.mlDsaPublic 1952)))
    ∧ (∀ nonce, Rules.asked s v 2 → nonce.length = 32 → Rules.carried s v nonce →
      let m := "BRIHEL-SXV4-MEAS".toList.map (fun c => BitVec.ofNat 8 c.toNat) ++ nonce ++ digests
      exec (.getMeas v nonce) s = .next (Rules.answered s v 0
        (digests ++ bytes (Config.ed25519Sign m) 64 ++ bytes (Config.mlDsaSign m) 3309)))
    ∧ (∀ code, code ∉ [1, 2, 3, 0x10, 0x11, 0x12] → (∀ p, v ≠ .mailbox p) → Rules.asked s v code →
        s.unknownMessage v code = Rules.answered s v 1 [])
    ∧ ∀ alg off, Rules.asked s v 3 → Rules.carried s v (leBytes alg 1 ++ leBytes off 4) → exec (.getCert v alg off) s = .next (Rules.answered s v 0
        (bytes (fun k => Config.certificate alg (off + k)) (Nat.min 3072 (Config.certificateLength alg - off))))

/-- R440, R449, R453: a new image is taken through a mailbox whose port held the semaphore when its GO arrived, and is refused with
status 2 by any other way; its commit verifies it, and marks the other slot for the next reset, or leaves the slots as they are.
That an update by vendor message is refused so is the model's choice (assumption log 49). -/
def Rules.FirmwareUpdates : Prop :=
  ∀ (s : State) (v : Via),
    let may : Prop := ∃ p, v = .mailbox p ∧ (s.portAt p).mboxSem = true
    let filled (off : Nat) (xs : List Byte) : Prop := Rules.carried s v (leBytes off 4 ++ xs)
      ∧ ∀ p, v = .mailbox p → xs.length = (s.portAt p).sentLen.toNat - 5
    (Rules.asked s v 0x10 →
      (¬ may → ∀ n, Rules.carried s v (leBytes n 4) → exec (.fwBegin v n) s = .next (Rules.answered s v 2 []))
      ∧ (may → ∀ n, Rules.carried s v (leBytes n 4) → exec (.fwBegin v n) s = .next (Rules.answered { s with fw := { s.fw with taking := some (n, []) } } v 0 [])))
    ∧ (Rules.asked s v 0x11 →
      (¬ may → ∀ off xs, filled off xs → exec (.fwData v off xs) s = .next (Rules.answered s v 2 []))
      ∧ (may → ∀ off xs n x, filled off xs → s.fw.taking = some (n, x) → off + xs.length ≤ n → exec (.fwData v off xs) s =
          .next (Rules.answered { s with fw := { s.fw with taking := some (n, x.setAll off xs) } } v 0 [])))
    ∧ (Rules.asked s v 0x12 →
      (¬ may → exec (.fwCommit v) s = .next (Rules.answered s v 2 []))
      ∧ (may → ∀ n x, s.fw.taking = some (n, x) →
        let image := x.getAll 0 n
        let kept : State := { s with fw := { s.fw with taking := none } }
        (Config.imageSigned image = false → exec (.fwCommit v) s = .next (Rules.answered kept v 3 []))
        ∧ (Config.imageSigned image = true → Config.imageRollback image < Config.fusedRollback →
            exec (.fwCommit v) s = .next (Rules.answered kept v 4 []))
        ∧ (Config.imageSigned image = true → Config.fusedRollback ≤ Config.imageRollback image → s.fw.active < 2 → s.fw.images.length = 2 →
            exec (.fwCommit v) s = .next (Rules.answered { s with fw := { s.fw with
              taking := none, images := s.fw.images.set (1 - s.fw.active) image, next := some (1 - s.fw.active) } } v 0 []))))

/-! ### Rendering -/

/-- What a launch renders set to `r`. -/
def Rules.rendering (s : State) (id : Nat) (r : Render) : State :=
  { s with launches := s.launches.map fun l => if l.id = id then { l with render := some r } else l }

/-- A launch that renders `r`, the only one of its name, in a context that works. -/
def Rules.renders (s : State) (id : Nat) (l : Launch) (r : Render) : Prop :=
  s.launch? id = some l ∧ l.render = some r ∧ (∀ m ∈ s.launches, m.id = id → m = l)
    ∧ (s.ctxAt l.ctx).en = true ∧ (s.ctxAt l.ctx).faulted = false ∧ (s.ctxAt l.ctx).busy = false ∧ (s.ctxAt l.ctx).saved = false

/-- R379 to R382, R384, R392: a free dicer takes the next patch of its die. An invalid one counts and yields no grid; a valid one
yields its grids with the copies that they owe, and the records of a grid's vertices enter the wellhead of the quarter that is
chosen, in ascending order. The cases stated are those of a patch with no grid, and of one grid for a launch with one core. -/
def Rules.Dicing : Prop :=
  ∀ (s : State) (id die n : Nat) (ns : List Nat) (l : Launch) (r : Render) (pre post : List (Nat × List Nat)) (xs : List Byte)
      (u : State) (tm : Team) (core : Nat), Rules.renders s id l r → r.abort = false → (∀ m ∈ s.launches, ∀ q, m.render = some q → q.held = []) →
    r.again = [] → r.todo = pre ++ (die, n :: ns) :: post →
    (∀ e ∈ pre ++ post, e.1 ≠ die) → (∀ g ∈ r.grids, g.patch ≠ n) → s.teams.filter (fun t => t.launch == id) = [tm] → tm.cores = [core] →
    dieOf core = die → (∀ t ∈ s.teams, t.id = tm.id → t = tm) →
    (Rules.rendering s id { r with todo := pre ++ (die, ns) :: post, held := [{ die, patch := n }] }).engineRead l.ctx { core := engineCore }
      ((RDesc.patches r.desc + 256 * n) % 2 ^ 64) 256 { code := 10, die := s.physDie die } = .ok (u, xs) →
    let p : PatchRec := wordsAt xs 64
    let ds := p.dice r.desc
    let left : Render := { r with todo := pre ++ (die, ns) :: post }
    let counted (grids micros : Nat) (r : Render) : Render :=
      { r with stats := updAt (updAt (updAt r.stats 0 (· + 1)) 1 (· + grids)) 2 (· + micros) }
    (p.valid = false → exec (.dicePatch id die) s =
      .next (Rules.rendering u id { counted 0 0 left with invalid := r.invalid + 1 }))
    ∧ (p.valid = true → ds = [] → exec (.dicePatch id die) s = .next (Rules.rendering u id (counted 0 0 left)))
    ∧ ∀ d, p.valid = true → ds = [d] → (s.ctxAt l.ctx).sumpEmpty = true → s.restoreWaits core tm.id = false → s.wells = [] →
      (d.nu + 1) * (d.nv + 1) < 32 →
      let g : Grid := { patch := n, g := 0, nu := d.nu, nv := d.nv, window := d.window r.desc (exact32 p.pad), oqe := p.oqe, oq := p.oq
                        verts := List.replicate ((d.nu + 1) * (d.nv + 1)) none, open_ := (d.nu + 1) * (d.nv + 1) }
      exec (.dicePatch id die) s = .next { Rules.rendering u id (counted 1 (d.nu * d.nv) { left with
          grids := r.grids ++ [g]
          flight := r.flight ++ ((bucketsOf r.desc s.dieCount).filter fun b => b.meets r.desc g).map fun b => (n, 0, b.no, none) }) with
        wells := (List.range ((d.nu + 1) * (d.nv + 1))).map fun k =>
          (core, { team := tm.id, quarter := 0, role := RDesc.srole r.desc, entry := p.entry, args := d.args r.desc p n 0 k
                   grid := some (id, n, 0), since := (s.coreAt core).clk.toNat }) }

/-- R384, R387, R389: a copy that arrives enters the cistern of its bucket where it fits; where its bucket has no cistern it goes
to the spill pool, and a pool without room aborts the launch; a bucket that does not want it leaves it. -/
def Rules.GridCopies : Prop :=
  ∀ (s : State) (id idx no n k : Nat) (l : Launch) (r : Render) (g : Grid) (b : Bucket) (pre post : List Bucket), Rules.renders s id l r →
    r.flight[idx]? = some (n, k, no, none) → r.grid? (n, k) = some g → r.buckets = pre ++ b :: post → b.no = no →
    (∀ c ∈ pre ++ post, c.no ≠ no) → r.stats.length = 9 →
    let size := 64 * ((g.nu + 1) * (g.nv + 1) + 1)
    let wanted : Prop := b.st ≠ .committed ∧ (n, k) ∉ b.copies ∧ (∀ u ∈ b.spilled, (u.1, u.2.1) ≠ (n, k)) ∧ b.meets r.desc g = true
    let gone : Render := { r with flight := r.flight.eraseIdx idx }
    (¬ wanted → exec (.gridCopyReceive id idx) s = .next (Rules.rendering s id gone))
    ∧ (wanted → b.cistern = true → b.fill r + size ≤ 2 ^ 21 → exec (.gridCopyReceive id idx) s =
        .next (Rules.rendering s id { gone with buckets := pre ++ { b with copies := b.copies ++ [(n, k)] } :: post }))
    ∧ (wanted → b.cistern = false → b.spilled ≠ [] → RDesc.spillSize r.desc < size →
        ∃ t r', exec (.gridCopyReceive id idx) s = .next t ∧ t = Rules.rendering s id r' ∧ r'.abort = true ∧ r'.flight = []
          ∧ r'.todo = r.todo ∧ r'.buckets.filter (fun b => b.st == .committed) = r.buckets.filter (fun b => b.st == .committed)
          ∧ ∀ b ∈ r'.buckets, b.st ≠ .resolved)

/-- R386, R388, R390, R401: a ready bucket resolves on its turn, once every patch is diced, every grid is complete and no copy for
it is on its way: each pixel it owns receives its colour, and its depth and normal; before, nothing is resolved. -/
def Rules.Resolves : Prop :=
  ∀ (s : State) (id bucket : Nat) (l : Launch) (r : Render) (b : Bucket) (pre post : List Bucket), Rules.renders s id l r →
    r.buckets = pre ++ b :: post → b.id = bucket → (∀ c ∈ pre ++ post, c.id ≠ bucket) → b.spilled = [] → b.waitOn = none → b.stolen = none →
    let shaded : Prop := (∀ e ∈ r.todo, e.2 = []) ∧ r.held = [] ∧ (∀ g ∈ r.grids, g.open_ = 0) ∧ r.abort = false
      ∧ ∀ f ∈ r.flight, f.2.2.1 ≠ b.no
    (¬ shaded ∨ b.st ≠ .waiting → exec (.bucketResolve id bucket) s = .next s)
    ∧ (shaded → b.st = .waiting → (∀ c ∈ pre, c.die = b.die → c.st ≠ .waiting) → s.unitsBusy b.die < 8 →
      let gs := r.gridsOf b
      let at_ (x y k : Nat) : SampleState := sampleState r.desc gs x y k
      ∃ c, exec (.bucketResolve id bucket) s = .next (Rules.rendering s id { r with buckets := pre ++ c :: post })
        ∧ c.st = .resolved ∧ c.copies = b.copies
        ∧ (∀ x y, x < RDesc.width r.desc → y < RDesc.height r.desc → b.x ≤ x → x < b.x + b.size → b.y ≤ y → y < b.y + b.size →
            (x, y, pixelColour r.desc at_ x y ++ pixelDepth r.desc at_ x y) ∈ c.pixels)
        ∧ (∀ e ∈ c.pixels, e.1 < RDesc.width r.desc ∧ e.2.1 < RDesc.height r.desc ∧ b.x ≤ e.1 ∧ e.1 < b.x + b.size ∧ b.y ≤ e.2.1
            ∧ e.2.1 < b.y + b.size))

/-- R389, R401, R411 to R413: the commit of a resolved bucket writes its planes and counts it once; an aborted launch commits no
bucket. The case stated is that of a colour plane of FP32 alone and one pixel. -/
def Rules.Commits : Prop :=
  ∀ (s v : State) (id bucket : Nat) (l : Launch) (r : Render) (b : Bucket) (pre post : List Bucket), Rules.renders s id l r →
    r.buckets = pre ++ b :: post → b.id = bucket → (∀ c ∈ pre ++ post, c.id ≠ bucket) → b.waitOn = none → b.st = .resolved →
    let d : RDesc := r.desc
    (r.abort = true → exec (.bucketCommit id bucket) s = .next s)
    ∧ ∀ x y c0 c1 c2 c3 rest runs, r.abort = false → b.pixels = [(x, y, c0 :: c1 :: c2 :: c3 :: rest)] → d.half = false → d.depth = 0 →
      d.normal = 0 →
      s.engineCheck l.ctx l.id { code := 10, die := s.physDie (b.stolen.getD b.die) } { kind := .write, core := engineCore }
        ((d.outbase + y * d.opitch + x * 16) % 2 ^ 64) 16 = .ok (v, runs) →
      exec (.bucketCommit id bucket) s = .next (Rules.rendering
        ((v.homeRuns true runs).wrRuns runs (leBytes c0 4 ++ leBytes c1 4 ++ leBytes c2 4 ++ leBytes c3 4)) id { r with
          stats := updAt (updAt (updAt r.stats 4 (· + b.tested)) 5 (· + b.passed)) 8 (· + if b.stolen = none then 0 else 1)
          oq := r.oq.zipWith (· + ·) b.oq
          buckets := pre ++ { b with st := .committed, pixels := [], cistern := false, copies := [], spilled := [] } :: post })

/-- R390: a die with no ready bucket and no busy sample unit steals the last ready bucket of the die that holds the most, the
lowest such die; one that is busy steals none. That its copies stay in the owner's cistern until the commit, and that ready buckets
are counted launch by launch, is the model's reading (assumption log 46). -/
def Rules.Steals : Prop :=
  ∀ (s : State) (id thief : Nat) (l : Launch) (r : Render), Rules.renders s id l r → thief < s.dieCount →
    let on (d : Nat) : List Bucket := r.buckets.filter fun b => b.stolen.getD b.die == d && r.ready b
    let mayTake (d : Nat) : List Bucket := (on d).filter fun b => b.stolen == none
    (0 < s.unitsBusy thief ∨ on thief ≠ [] → exec (.bucketSteal id thief) s = .next s)
    ∧ ∀ d pre post b, s.unitsBusy thief = 0 → on thief = [] → d < s.dieCount → (∀ e, e < d → (mayTake e).length < (mayTake d).length) →
      (∀ e, e < s.dieCount → (mayTake e).length ≤ (mayTake d).length) → r.buckets = pre ++ b :: post → b ∈ mayTake d →
      (∀ c ∈ post, c ∉ mayTake d) → (∀ c ∈ pre ++ post, c.id ≠ b.id) →
      exec (.bucketSteal id thief) s = .next (Rules.rendering s id { r with buckets := pre ++ { b with stolen := some thief } :: post })

/-- R69, R79, R410: the first uncorrectable error in a bucket's cistern kills it: its cistern is free, it resolves again, and the
patches of the copies that no other bucket holds are to be diced again; that the other copies travel to it once more is the model's
reading (assumption log 45). The second error ends the context. -/
def Rules.CisternErrors : Prop :=
  ∀ (s : State) (id bucket : Nat) (l : Launch) (r : Render) (b : Bucket) (pre post : List Bucket), Rules.renders s id l r →
    r.buckets = pre ++ b :: post → b.id = bucket → (∀ c ∈ pre ++ post, c.id ≠ bucket) → b.cistern = true → b.copies ≠ [] →
    (1 ≤ b.ues → l.ctx < s.ctx.length → ∃ t, exec (.cisternUe id bucket) s = .next t ∧ (t.ctxAt l.ctx).faulted = true
      ∧ (t.ctxAt l.ctx).fsub = 0 ∧ ∀ g ∈ t.groups, g.ctx ≠ l.ctx)
    ∧ (b.ues = 0 → b.st ≠ .committed → (∀ e ∈ r.todo, e.2 = []) → r.held = [] →
      let lost (t : Nat × Nat) : Prop := t ∈ b.copies ∧ ∀ c ∈ pre ++ post, t ∉ c.copies ∧ ∀ u ∈ c.spilled, (u.1, u.2.1) ≠ t
      ∃ r' c, exec (.cisternUe id bucket) s = .next (Rules.rendering s id r') ∧ r'.buckets = pre ++ c :: post
        ∧ c.st = .waiting ∧ c.pixels = [] ∧ c.ues = 1 ∧ c.copies = [] ∧ c.spilled = b.spilled ∧ c.cistern = false
        ∧ (∀ f, f ∈ r'.flight ↔ f ∈ r.flight ∨ ∃ t ∈ b.copies, ¬ lost t ∧ f = (t.1, t.2, b.no, none))
        ∧ (∀ e ∈ r'.todo, ∀ n ∈ e.2, ∃ k, lost (n, k))
        ∧ (∀ n k, lost (n, k) → ∀ e ∈ r'.todo, n / 64 % s.dieCount = e.1 → n ∈ e.2))

/-! ### Frames -/

/-- The bytes of memory that a place and a number of bytes name. -/
def Rules.cells (p : Place) (n : Nat) : List (Nat × Nat) := (List.range n).map fun j => (p.add j).cell

/-- Where in memory one thread's performance stores: a store its operand's bytes, an atomic its element, a contribution the
32 bytes of its log record, a spawned task that enters the sump the 128 bytes of its record there, a tiled load the map bytes of its
residency feedback (R331, R335, R97, R220, R46); nothing else that a thread
performs stores there. -/
def Rules.storedAt (i : Instr) (s : State) (l : Nat) : List (Nat × Nat) :=
  match i with
  | .st t o _ a off _ =>
    match s.check l .write false (s.ea l a off) t.bytes (if o.strong then t.bytes else 1) with
    | .ok runs => (runs.map fun r => match r.1 with | some p => Rules.cells p r.2.1 | none => []).flatten
    | _ => []
  | .atom _ t _ _ _ _ a off _ _ _ =>
    match s.check l .atomic false (s.ea l a off) t.bytes t.bytes with
    | .ok ((some p, _, _) :: _) => Rules.cells p t.bytes
    | _ => []
  | .redOrd _ _ _ a off _ =>
    let va := s.ea l a off
    match s.launch? s.myLaunch with
    | some la =>
      match la.table.find? fun r => decide (r.base ≤ va) && decide (va < r.base + r.bytes) with
      | some r =>
        match s.logPage (r.log + 32 * (lslice va * (r.logBytes / 32 / 512) + (la.contrib.filter fun c => lslice c.va == lslice va).length)) with
        | .ok (p, _) => Rules.cells (.dev p) 32
        | .error _ => []
      | none => []
    | none => []
  | .tspawn _ _ _ c =>
    let x := s.ctxAt s.myCtx
    match s.myTeam, s.grp with
    | some tm, some g =>
      if (tm.roles[(s.reg l c 0).toNat]?.map (·.task)).getD false && !(s.wellRoom g.core tm.id && x.sumpEmpty) && !x.sumpFull then
        match s.translate s.myCtx { kind := .write, core := g.core } (x.sumpVa x.shead) with
        | .ok p _ => Rules.cells p 128
        | _ => []
      else []
    | _, _ => []
  | .ldt t h _ a off _ =>
    match s.check l .read true (s.ea l a off) t.bytes 1 (some h) with
    | .ok runs => match s.marks s.myCtx s.myLaunch s.cur.core (s.ea l a off) runs with
      | .ok ms => ms.filterMap fun m => m.map fun e => e.1.cell
      | _ => []
    | _ => []
  | _ => []

/-! ### The machine as a whole -/

/-- R29 to R32, R36, R42, R81, R201, R202, R221, R228, R363, R421, R424, R426, R439 to R443, R452, R454: the value at which a
register stands at reset; none where the part or its fuses give it. -/
def Rules.resetValue : Reg → Option Nat
  | .devId | .dieCores _ | .dieStat _ => none
  | .quietClk => some 80
  | .quietPwr => some 1600
  | .quietAct => some 0x00321400
  | .quietStat => some (16 * 2 ^ 16)
  | .sluiceCtl d => if d < 4 then some 0x80C else none
  | .sluiceHint d h => if d < 4 then [0, 0x804, 0x1010][h]? else none
  | .mfldWin d => if d < 4 then some 256 else none
  | _ => some 0

/-- The model's memories in canonical form: addresses strictly rising, and no entry that reads as an unlisted address does. -/
def Rules.memories (s : State) : Prop := Memory.wf s.mem = true ∧ Store.wf s.sysMem = true

/-! ### Barrier objects and rings -/

/-- A team whose window has changed in the bytes `a` to `a + n − 1` alone. -/
def Rules.only (t u : Team) (a n : Nat) : Prop :=
  { u with spad := t.spad, badSpad := t.badSpad } = t ∧ ∀ k, k < a ∨ a + n ≤ k → u.rd k 1 = t.rd k 1

/-- An ACCESS_VIOLATION of the window, sub-cause 0x0D. -/
def Rules.outside (r : BarRes) : Prop := ∃ e, r = .trap e ∧ e.cause = .accessViolation ∧ e.detail = 0x0D

/-- A misuse with its detail. -/
def Rules.misuse (c : Cause) (d : Nat) (r : BarRes) : Prop := ∃ e, r = .trap e ∧ e.cause = c ∧ e.detail = d

/-- R143 to R150: what `binit`, an arrival, a wait and a landing make of the 16 bytes of a barrier object (PHASE at 0, TCNT at 4,
TEXP at 6, BPEND at 8), and what they refuse, in the order of R149; `hold` tells the matrix stream, which an object that is not
initialised holds. An object in a code word with an uncorrectable error is no case of these rules. -/
def Rules.Barriers : Prop :=
  ∀ (t : Team) (off n p : Nat) (hold : Bool),
    let phase := t.rd off 4
    let tcnt := t.rd (off + 4) 2
    let texp := t.rd (off + 6) 2
    let bpend := t.rd (off + 8) 4
    let is (u : Team) (a b c d : Nat) : Prop := u.rd off 4 = a ∧ u.rd (off + 4) 2 = b ∧ u.rd (off + 6) 2 = c ∧ u.rd (off + 8) 4 = d
    (t.inWindow off 16 = false →
      Rules.outside (t.barInit off n) ∧ Rules.outside (t.barArrive off hold) ∧ Rules.outside (t.barWait off p hold))
    ∧ (t.inWindow off 16 = true → off % 16 ≠ 0 → Rules.misuse .barrierMisuse 1 (t.barInit off n)
      ∧ Rules.misuse .barrierMisuse 1 (t.barArrive off hold) ∧ Rules.misuse .barrierMisuse 1 (t.barWait off p hold))
    ∧ (t.inWindow off 16 = true → off % 16 = 0 → t.spadError off 16 = false →
      (n = 0 ∨ 65535 < n → Rules.misuse .barrierMisuse 7 (t.barInit off n))
      ∧ (1 ≤ n → n ≤ 65535 → tcnt ≠ 0 ∨ bpend ≠ 0 → Rules.misuse .barrierMisuse 3 (t.barInit off n))
      ∧ (1 ≤ n → n ≤ 65535 → tcnt = 0 → bpend = 0 → ∃ u, t.barInit off n = .ok u 0 ∧ is u phase 0 n 0 ∧ u.rd (off + 12) 4 = 0
          ∧ Rules.only t u off 16)
      ∧ (texp = 0 → (hold = false → Rules.misuse .barrierMisuse 2 (t.barArrive off hold)
          ∧ Rules.misuse .barrierMisuse 2 (t.barWait off p hold)) ∧ (hold = true → t.barArrive off hold = .hold ∧ t.barWait off p hold = .hold))
      ∧ (texp ≠ 0 → tcnt = texp → Rules.misuse .barrierMisuse 9 (t.barArrive off hold))
      ∧ (texp ≠ 0 → tcnt < texp → ∃ u, t.barArrive off hold = .ok u phase ∧ Rules.only t u off 12
          ∧ is u (if tcnt + 1 = texp ∧ bpend = 0 then (phase + 1) % 2 ^ 32 else phase)
              (if tcnt + 1 = texp ∧ bpend = 0 then 0 else tcnt + 1) texp bpend)
      ∧ (texp ≠ 0 → p < 2 ^ 32 → ∃ v, t.barWait off p hold = .ok t v ∧ v ≤ 1
          ∧ (v = 1 ↔ (((phase : Int) - p - 1) % 2 ^ 32) < 2 ^ 31)))
    ∧ (t.spadError off 16 = false → n ≤ bpend →
        Rules.only t (t.land off n) off 12
        ∧ is (t.land off n) (if tcnt = texp ∧ n = bpend then (phase + 1) % 2 ^ 32 else phase)
            (if tcnt = texp ∧ n = bpend then 0 else tcnt) texp (bpend - n))

/-- d(x, y) of R163 in a ring of `n` slots. -/
def Rules.dist (n x y : Nat) : Nat := (x + 2 * n - y) % (2 * n)

/-- R162: the slot is among the `k` slots from a head on. -/
def Rules.slotIn (n head k slot : Nat) : Prop := ∃ j, j < k ∧ slot = (head + j) % n

/-- R165, detail 2: a ring header that is well formed: N, the head of each stage, and the DONE bits. -/
def Rules.ringForm (t : Team) (off : Nat) : Prop :=
  let n := t.rd (off + 5) 1 + 1
  let resv := t.rd (off + 8) 2
  let pub := t.rd (off + 10) 2
  let acq := t.rd (off + 12) 2
  let rel := t.rd (off + 14) 2
  t.rd (off + 3) 1 = 0 ∧ t.rd (off + 6) 2 = 0 ∧ t.rd (off + 24) 8 = 0 ∧ n ≠ 1 ∧ 4 ≤ t.rd (off + 4) 1 ∧ t.rd (off + 4) 1 ≤ 16
    ∧ t.rd off 3 % 16 = 0 ∧ resv < 2 * n ∧ pub < 2 * n ∧ acq < 2 * n ∧ rel < 2 * n
    ∧ Rules.dist n acq rel + Rules.dist n pub acq + Rules.dist n resv pub ≤ n
    ∧ ∀ k, k < 256 → (t.rd (off + 32) 32).testBit k = true →
      Rules.slotIn n rel (Rules.dist n acq rel) k ∨ Rules.slotIn n pub (Rules.dist n resv pub) k

/-- R145, R146, R149: PHASE and TCNT after `k` arrivals one after another; none where one finds TCNT = TEXP with bytes pending. -/
def Rules.arrivals (texp bpend : Nat) : Nat → Nat → Nat → Option (Nat × Nat)
  | 0, phase, tcnt => some (phase, tcnt)
  | k + 1, phase, tcnt =>
    if tcnt = texp ∧ 0 < bpend then none
    else if tcnt + 1 = texp ∧ bpend = 0 then Rules.arrivals texp bpend k ((phase + 1) % 2 ^ 32) 0
    else Rules.arrivals texp bpend k phase (tcnt + 1)

/-- R150, R162 to R165: what a ring operation refuses, in the order of R165, and what it makes of the header: `rres` and `racq` take
the next slot and advance their counter, or answer 0xFFFFFFFF; `rpub` and `rrel` mark a slot in DONE and pass their head over the
slots marked, with as many arrivals on the object named. The object is one that does not meet the header, and neither stands in a
code word with an uncorrectable error. -/
def Rules.Rings : Prop :=
  ∀ (t : Team) (off : Nat) (hold : Bool),
    let n := t.rd (off + 5) 1 + 1
    let resv := t.rd (off + 8) 2
    let pub := t.rd (off + 10) 2
    let acq := t.rd (off + 12) 2
    let rel := t.rd (off + 14) 2
    let marks := t.rd (off + 32) 32
    let each (q : BarRes → Prop) : Prop := q (t.ringReserve off) ∧ q (t.ringAcquire off hold) ∧ ∀ slot b, q (t.ringFinish off slot b hold)
    (t.inWindow off 64 = false → each Rules.outside)
    ∧ (t.inWindow off 64 = true → off % 64 ≠ 0 → each (Rules.misuse .ringMisuse 1))
    ∧ (t.inWindow off 64 = true → off % 64 = 0 → t.spadError off 64 = false →
      (hold = true → t.rd off 64 = 0 → t.ringAcquire off hold = .hold ∧ ∀ slot b, t.ringFinish off slot b hold = .hold)
      ∧ (hold = false ∨ t.rd off 64 ≠ 0 →
        (¬ Rules.ringForm t off → each (Rules.misuse .ringMisuse 2))
        ∧ (Rules.ringForm t off → t.inWindow (t.rd off 3) (n * 2 ^ t.rd (off + 4) 1) = false → each Rules.outside)
        ∧ (Rules.ringForm t off → t.inWindow (t.rd off 3) (n * 2 ^ t.rd (off + 4) 1) = true →
          (Rules.dist n resv rel = n → t.ringReserve off = .ok t 0xFFFFFFFF)
          ∧ (Rules.dist n resv rel ≠ n → ∃ u, t.ringReserve off = .ok u (resv % n) ∧ u.rd (off + 8) 2 = (resv + 1) % (2 * n)
              ∧ Rules.only t u (off + 8) 2)
          ∧ (acq = pub → t.ringAcquire off hold = .ok t 0xFFFFFFFF)
          ∧ (acq ≠ pub → ∃ u, t.ringAcquire off hold = .ok u (acq % n) ∧ u.rd (off + 12) 2 = (acq + 1) % (2 * n)
              ∧ Rules.only t u (off + 12) 2)
          ∧ ∀ (slot : Nat) (isPub : Bool),
            let bar := t.rd (off + if isPub then 16 else 20) 4
            let at_ := off + if isPub then 10 else 14
            let head := if isPub then pub else rel
            let room := if isPub then Rules.dist n resv pub else Rules.dist n acq rel
            let silent : Prop := bar = 0xFFFFFFFF
            let takes : Prop := slot < n ∧ Rules.slotIn n head room slot ∧ marks.testBit slot = false
            let marked (k : Nat) : Prop := marks.testBit k = true ∨ k = slot
            let out := t.ringFinish off slot isPub hold
            (¬ silent → t.inWindow bar 16 = false → Rules.outside out)
            ∧ (¬ silent → t.inWindow bar 16 = true → bar % 16 ≠ 0 → Rules.misuse .ringMisuse 3 out)
            ∧ (silent ∨ (t.inWindow bar 16 = true ∧ bar % 16 = 0 ∧ t.spadError bar 16 = false ∧ (bar + 16 ≤ off ∨ off + 64 ≤ bar)) →
              (¬ silent → t.rd (bar + 6) 2 = 0 → Rules.misuse .ringMisuse 3 out)
              ∧ (silent ∨ t.rd (bar + 6) 2 ≠ 0 →
                (¬ takes → Rules.misuse .ringMisuse (if isPub then 4 else 5) out)
                ∧ ∀ k, takes → k ≤ room → (∀ j, j < k → marked ((head + j) % n)) → (k = room ∨ ¬ marked ((head + k) % n)) →
                  (∀ u, out = .ok u 0 → u.rd at_ 2 = (head + k) % (2 * n)
                    ∧ (∀ i, i < 256 → ((u.rd (off + 32) 32).testBit i = true ↔ marked i ∧ ¬ Rules.slotIn n head k i))
                    ∧ { u with spad := t.spad, badSpad := t.badSpad } = t
                    ∧ ∀ i, (i < at_ ∨ at_ + 2 ≤ i) → (i < off + 32 ∨ off + 64 ≤ i) → (silent ∨ k = 0 ∨ i < bar ∨ bar + 16 ≤ i) →
                      u.rd i 1 = t.rd i 1)
                  ∧ (silent ∨ k = 0 → ∃ u, out = .ok u 0)
                  ∧ (¬ silent → 0 < k →
                    match Rules.arrivals (t.rd (bar + 6) 2) (t.rd (bar + 8) 4) k (t.rd bar 4) (t.rd (bar + 4) 2) with
                    | none => Rules.misuse .ringMisuse 3 out
                    | some (ph, tc) => t.rd (bar + 4) 2 ≤ t.rd (bar + 6) 2 → ∃ u, out = .ok u 0 ∧ u.rd bar 4 = ph ∧ u.rd (bar + 4) 2 = tc
                        ∧ u.rd (bar + 6) 2 = t.rd (bar + 6) 2 ∧ u.rd (bar + 8) 4 = t.rd (bar + 8) 4))))))

/-! ### Grid barriers -/

/-- R213, R216, R226: a launch with a continuation has every team of its grid placed at once, or none. -/
def Rules.GridPlacement : Prop :=
  ∀ (s : State) (l : Launch), Rules.serves s l → (∀ m ∈ s.launches, m.id = l.id → m = l) → l.placed = 0 →
    let r : LRec := l.record
    r.hasCont = true →
    let i : Instr := if r.det then .clusterPlace else .teamPlace
    let cluster (k : Nat) : List (Nat × Nat × Option Nat) :=
      let ts := r.clusterTeams (r.ranked.getD k (0, 0))
      (List.range (r.cx * r.cy)).map fun p => (ts.getD p 0, (k * r.clusterCores + p * r.ext) % 256, some k)
    let plan := if r.det then ((List.range r.clusters).map cluster).flatten else (List.range r.teams).map fun t => (t, 0, none)
    (s.placeAll l plan = none → exec i s = .next s)
    ∧ (s.placeAll l plan ≠ none → ∃ t tms, exec i s = .next t ∧ t.teams = s.teams ++ tms
      ∧ tms.map (fun t => (t.no, t.logical, t.launch)) = plan.map (fun e => (e.1, e.2.1, l.id))
      ∧ (∀ u ∈ tms, u.cores.length = r.ext ∧ u.ctx = l.ctx ∧ u.roles = r.roles) ∧ t.mem = s.mem
      ∧ ∃ m ∈ t.launches, m.id = l.id ∧ m.allPlaced = true)

/-- R225, R184: while a team of the grid has a thread that neither waits at the grid barrier nor is Exited or Vacant, or a flag that
is not 0, or is not placed, or is saved, every thread waits; when all have arrived, each waiting thread becomes Ready at its role's
CONT, or Held where that is its meeting address, and nothing else of it, of its group and of its team is changed. A thread whose
address the debug window has written goes on there instead (R425, as assumption log 51 reads it). -/
def Rules.GridBarrier : Prop :=
  ∀ (s : State) (l : Launch), s.launch? l.id = some l →
    let mine (t : Team) : Prop := t ∈ s.teams ∧ t.launch = l.id
    let waits (x : Lane) : Prop := x.st = .heldWait ∧ x.hold = .grid
    let arrived : Prop := l.allPlaced = true ∧ (∀ v ∈ s.saves, ∀ t ∈ v.teams, t.launch ≠ l.id)
      ∧ ∀ t, mine t → ∀ g ∈ s.groups, g.team = t.id → (∀ f ∈ g.flags, f = 0) ∧ ∀ x ∈ g.lanes, x.st = .exited ∨ x.st = .vacant ∨ waits x
    (¬ arrived → s.openGrid l.id = s)
    ∧ (arrived → (s.teams.map (·.id)).Nodup →
      { s.openGrid l.id with groups := s.groups, l1 := s.l1 } = s
      ∧ ∃ f : Group → Group, (s.openGrid l.id).groups = s.groups.map f
        ∧ ∀ g ∈ s.groups, (∀ t, mine t → t.id ≠ g.team) → f g = g
        ∧ ∀ t, mine t → t.id = g.team →
          let cont := (t.roles.getD g.role ⟨0, 0, 0, 0, false, 0, 0⟩).cont
          f g = { g with lanes := g.lanes.map fun x =>
            if x.st = .heldWait ∧ x.hold = .grid then
              let stays := (x.due.map (·.1)).getD x.pc = x.pc
              let to_ := if stays then cont else x.pc
              { x with st := if to_ = x.meet ∧ to_ ≠ 0xFFFFFFFFFFFFFFFF then .heldMeet else .ready, hold := .none, pc := to_
                       due := if stays then x.due.map (fun d => (cont, d.2)) else x.due }
            else x })

/-! ### Numbers -/

/-- R229: the magnitude that an encoding without its sign stands for; past the largest finite value the exponent goes on (R235). -/
def Rules.magnitude (f : Fmt) (n : Nat) : ℚ :=
  if n < 2 ^ f.mb then (n : ℚ) * (2 : ℚ) ^ (f.emin - (f.mb : Int))
  else ((2 ^ f.mb + n % 2 ^ f.mb : Nat) : ℚ) * (2 : ℚ) ^ (((n / 2 ^ f.mb : Nat) : Int) - f.bias - f.mb)

/-- A finite encoding, and the number that it stands for. -/
def Rules.isFinite (f : Fmt) (x : Nat) : Prop := x % 2 ^ (f.eb + f.mb) ≤ f.maxBits
def Rules.number (f : Fmt) (x : Nat) : ℚ :=
  (if x.testBit (f.eb + f.mb) then -1 else 1) * Rules.magnitude f (x % 2 ^ (f.eb + f.mb))

/-- R235, R302: of two neighbours a and a + 1, with the exact value `lo` above the lesser and `hi` below the greater magnitude, the
mode picks the greater. -/
def Rules.goesUp (mode r : Nat) (neg : Bool) (a : Nat) (lo hi : ℚ) : Prop :=
  match mode with
  | 1 => hi < lo ∨ (hi = lo ∧ a % 2 = 1)
  | 2 => False
  | 3 => neg = false
  | 4 => neg = true
  | 5 => hi ≤ lo
  | _ => (r : ℚ) * (lo + hi) < lo * 2 ^ 32

/-- R235, R236: the encoding `v` is `round()` of the number with magnitude `x` > 0 and sign `neg`, in mode `mode`, where `r` is the
random word of mode 6. -/
def Rules.rounds (f : Fmt) (mode r : Nat) (neg : Bool) (x : ℚ) (v : Nat) : Prop :=
  let sign := if neg then 2 ^ (f.eb + f.mb) else 0
  let large := if mode = 2 ∨ (mode = 3 ∧ neg = true) ∨ (mode = 4 ∧ neg = false) then f.maxBits
    else match f.sp with | .ieee => f.infBits | .nanOnly => f.nanBits | .none => f.maxBits
  let pick (n : Nat) : Nat := sign + if f.maxBits < n then large else n
  (∀ n, n ≤ f.maxBits → Rules.magnitude f n = x → v = sign + n)
  ∧ ∀ a, Rules.magnitude f a < x → x < Rules.magnitude f (a + 1) →
    let lo := x - Rules.magnitude f a
    let hi := Rules.magnitude f (a + 1) - x
    let up : Prop := Rules.goesUp mode r neg a lo hi
    (up → v = pick (a + 1)) ∧ (¬ up → v = pick a)

/-- R235, R236, R244, R295 to R297: sums, products, fused products, conversions and reciprocals of finite operands that nothing
flushes are the exact result rounded once, in the mode in use. That a NaN of a format without infinity keeps the sign of its
overflow is the model's choice (assumption log 30). -/
def Rules.Rounding : Prop :=
  (∀ (t : FTy) (mode r p q : Nat) (neg : Bool), 1 ≤ mode → mode ≤ 6 → 0 < p → 0 < q →
    Rules.rounds t.fmt mode r neg ((p : ℚ) / q) (t.fmt.roundFrac mode r false neg p q).val)
  ∧ ∀ (e : FEnv) (t u : FTy) (j x y z : Nat), 1 ≤ e.rm → e.rm ≤ 6 → e.fz t = false → e.fz u = false →
    let r := if e.rm = 6 then srHash e.seed (e.idx + j) else 0
    let is (w : ℚ) (v : Nat) : Prop := w ≠ 0 → Rules.rounds t.fmt e.rm r (decide (w < 0)) |w| v
    let num := Rules.number t.fmt
    (t.isArith = true → Rules.isFinite t.fmt x → Rules.isFinite t.fmt y → Rules.isFinite t.fmt z →
      is (num x + num y) (faddE t e j [x, y]).val ∧ is (num x - num y) (fsubE t e j [x, y]).val
      ∧ is (num x * num y) (fmulE t e j [x, y]).val ∧ is (num x * num y + num z) (ffmaE t e j [x, y, z]).val)
    ∧ (Rules.isFinite u.fmt x → e.sat = false → t.fmt.sp = .ieee ∨ e.nanc = false →
        is (Rules.number u.fmt x) (e.convert t u j x).val)
    ∧ (t = .f32 → Rules.isFinite t.fmt x → num x ≠ 0 →
        Rules.rounds t.fmt 1 0 (decide (num x < 0)) |1 / num x| (e.special .rcp t j x).val)

/-- R239, R240: the NaN that an operation or a conversion gives, and the invalid operations, which raise IV (bit 0). -/
def Rules.NanResults : Prop :=
  ∀ (e : FEnv) (t u : FTy) (j x y : Nat),
    let top (f : Fmt) : Nat := 2 ^ (f.eb + f.mb)
    let isNan (t : FTy) (x : Nat) : Prop := t.fmt.infBits < x % top t.fmt
    let isInf (t : FTy) (x : Nat) : Prop := x % top t.fmt = t.fmt.infBits
    let sign (f : Fmt) (x : Nat) : Nat := x / top f % 2
    let quiet (x : Nat) : Nat := x ||| 2 ^ (t.fmt.mb - 1)
    let raises (r : FRes) : Prop := r.fl.testBit 0 = true
    (t.isArith = true → x < 2 * top t.fmt → y < 2 * top t.fmt →
      (∀ r, r = faddE t e j [x, y] ∨ r = fmulE t e j [x, y] → isNan t x ∨ isNan t y →
        (e.nanc = true → r.val = t.fmt.nanBits)
        ∧ (e.nanc = false → isNan t x → r.val = quiet x) ∧ (e.nanc = false → ¬ isNan t x → r.val = quiet y))
      ∧ (isInf t x → isInf t y → sign t.fmt x ≠ sign t.fmt y → (faddE t e j [x, y]).val = t.fmt.nanBits ∧ raises (faddE t e j [x, y]))
      ∧ (isInf t x → y % top t.fmt = 0 → (fmulE t e j [x, y]).val = t.fmt.nanBits ∧ raises (fmulE t e j [x, y])))
    ∧ (u.fmt.sp = .ieee → isNan u x →
      let man := x % 2 ^ u.fmt.mb
      let cut := if t.fmt.mb ≤ u.fmt.mb then man / 2 ^ (u.fmt.mb - t.fmt.mb) else man * 2 ^ (t.fmt.mb - u.fmt.mb)
      let r := e.convert t u j x
      (t.fmt.sp = .none → r.val = 0 ∧ raises r)
      ∧ (t.fmt.sp ≠ .none → e.nanc = true → r.val = t.fmt.nanBits)
      ∧ (t.fmt.sp = .nanOnly → e.nanc = false → r.val = sign u.fmt x * top t.fmt + t.fmt.nanBits)
      ∧ (t.fmt.sp = .ieee → e.nanc = false →
          r.val = sign u.fmt x * top t.fmt + t.fmt.infBits + (cut ||| 2 ^ (t.fmt.mb - 1))))
    ∧ (u = .e4m3 → t.fmt.sp = .ieee → e.nanc = false → x % 0x80 = 0x7F →
        (e.convert t u j x).val = sign u.fmt x * top t.fmt + t.fmt.nanBits)

/-- R244: the special values of the special functions, with DZ (2) and IV (1). -/
def Rules.SpecialValues : Prop :=
  ∀ (e : FEnv) (t : FTy) (j x : Nat), t = .f32 ∨ t = .f16 → e.fz t = false →
    let at_ (f : SpFun) (x v fl : Nat) : Prop := e.special f t j x = ⟨v, fl⟩
    let inf := t.fmt.infBits
    let neg := 2 ^ (t.fmt.eb + t.fmt.mb)
    let one := t.fmt.bias * 2 ^ t.fmt.mb
    at_ .rcp 0 inf 2 ∧ at_ .rcp neg (neg + inf) 2 ∧ at_ .rcp inf 0 0 ∧ at_ .rcp (neg + inf) neg 0
      ∧ at_ .rsqrt 0 inf 2 ∧ at_ .rsqrt neg (neg + inf) 2 ∧ at_ .rsqrt inf 0 0 ∧ at_ .sqrt neg neg 0 ∧ at_ .sqrt 0 0 0
      ∧ at_ .exp2 (neg + inf) 0 0 ∧ at_ .exp2 inf inf 0 ∧ at_ .log2 0 (neg + inf) 2 ∧ at_ .log2 neg (neg + inf) 2 ∧ at_ .log2 one 0 0
      ∧ at_ .tanh 0 0 0 ∧ at_ .tanh neg neg 0 ∧ at_ .tanh inf one 0 ∧ at_ .tanh (neg + inf) (neg + one) 0
      ∧ at_ .sin 0 0 0 ∧ at_ .sin neg neg 0 ∧ at_ .cos 0 one 0
      ∧ at_ .sin inf t.fmt.nanBits 1 ∧ at_ .cos inf t.fmt.nanBits 1 ∧ at_ .sin (neg + inf) t.fmt.nanBits 1 ∧ at_ .cos (neg + inf) t.fmt.nanBits 1
      ∧ (neg < x → x ≤ neg + inf → at_ .rsqrt x t.fmt.nanBits 1 ∧ at_ .sqrt x t.fmt.nanBits 1 ∧ at_ .log2 x t.fmt.nanBits 1)

/-- The number that a finite element or product stands for. -/
def Rules.worth : FVal → ℚ
  | .fin s m e => (if s then -1 else 1) * (m : ℚ) * (2 : ℚ) ^ e
  | _ => 0

/-- R243: `chunk_sum`: the products are taken in chunks of 64, ascending; the exact sum of a chunk is rounded once, to nearest, and
added to what stands before it, rounded once more. -/
def Rules.ChunkSums : Prop :=
  ∀ (c : Nat) (ps : List FVal),
    let f := FTy.f32.fmt
    let nearest (w : ℚ) (v : Nat) : Prop := w ≠ 0 → Rules.rounds f 1 0 (decide (w < 0)) |w| v
    let sum := (ps.map Rules.worth).sum
    let minus (p : FVal) : Prop := ∃ e, p = .fin true 0 e
    (ps = [] → chunkSumAll c ps = c)
    ∧ (64 < ps.length → chunkSumAll c ps = chunkSumAll (chunkSumAll c (ps.take 64)) (ps.drop 64))
    ∧ (ps ≠ [] → ps.length ≤ 64 → c < 2 ^ 32 →
      ((∃ s m, .nan s m ∈ ps) ∨ (.inf true ∈ ps ∧ .inf false ∈ ps) → chunkSumAll c ps = 0x7FC00000)
      ∧ ((∀ s m, .nan s m ∉ ps) → ∀ s, .inf s ∈ ps → .inf (!s) ∉ ps →
          let inf := (if s then 0x80000000 else 0) + 0x7F800000
          (Rules.isFinite f c ∨ c = inf → chunkSumAll c ps = inf)
          ∧ (¬ Rules.isFinite f c → c ≠ inf → chunkSumAll c ps = 0x7FC00000))
      ∧ ((∀ p ∈ ps, ∃ s m e, p = .fin s m e) →
        ∃ v, chunkSumAll c ps = add32 c v ∧ v < 2 ^ 32 ∧ nearest sum v
          ∧ (sum = 0 → (∀ p ∈ ps, minus p) → v = 0x80000000) ∧ (sum = 0 → (∃ p ∈ ps, ¬ minus p) → v = 0)
          ∧ (Rules.isFinite f c → Rules.isFinite f v →
              nearest (Rules.number f c + Rules.number f v) (add32 c v)
              ∧ (Rules.number f c + Rules.number f v = 0 →
                  add32 c v = if c = 0x80000000 ∧ v = 0x80000000 then 0x80000000 else 0))
          ∧ (Rules.isFinite f c → ¬ Rules.isFinite f v → add32 c v = v) ∧ (0x7F800000 < c % 2 ^ 31 → add32 c v = 0x7FC00000)))
/-! ### Elements -/

/-- R302, R307: `n` is the number with magnitude `x` and sign `neg` rounded to an integer. -/
def Rules.wholeOf (mode r : Nat) (neg : Bool) (x : ℚ) (n : Nat) : Prop :=
  x = n ∨ ∃ a : Nat, (a : ℚ) < x ∧ x < a + 1 ∧
    ((Rules.goesUp mode r neg a (x - a) (a + 1 - x) ∧ n = a + 1) ∨ (¬ Rules.goesUp mode r neg a (x - a) (a + 1 - x) ∧ n = a))

/-- An infinity with its sign, and the order of encodings that are no NaNs. -/
def Rules.isInfinity (f : Fmt) (neg : Bool) (x : Nat) : Prop := x % 2 ^ (f.eb + f.mb) = f.infBits ∧ x.testBit (f.eb + f.mb) = neg
def Rules.less (f : Fmt) (x y : Nat) : Prop :=
  (Rules.isInfinity f true x ∧ ¬ Rules.isInfinity f true y) ∨ (Rules.isInfinity f false y ∧ ¬ Rules.isInfinity f false x)
    ∨ (Rules.isFinite f x ∧ Rules.isFinite f y ∧ Rules.number f x < Rules.number f y)

/-- R296, R298, R299, R301, R302, R307, R308: the elements of `lerp`, `fmin`, `fmax`, `fcmp`, `frnd` and of the conversions from and to
integers, of operands that nothing flushes. IV is bit 0 of the flags, NX bit 4. -/
def Rules.Elements : Prop :=
  ∀ (e : FEnv) (t : FTy) (c : FCond) (to_ : ITy) (j x y z : Nat) (v : Int), t.isArith = true → 1 ≤ e.rm → e.rm ≤ 6 → e.fz t = false →
    x < 2 ^ t.fmt.width → y < 2 ^ t.fmt.width → z < 2 ^ t.fmt.width →
    let f := t.fmt
    let sign := f.eb + f.mb
    let num := Rules.number f
    let finite := Rules.isFinite f
    let isNan (x : Nat) : Prop := f.infBits < x % 2 ^ sign
    let quiet (x : Nat) : Nat := x ||| 2 ^ (f.mb - 1)
    let signals (x : Nat) : Prop := isNan x ∧ x.testBit (f.mb - 1) = false
    let r (j : Nat) : Nat := if e.rm = 6 then srHash e.seed (e.idx + j) else 0
    let is (w : ℚ) (u : Nat) : Prop := w ≠ 0 → Rules.rounds f e.rm (r 0) (decide (w < 0)) (abs w) u
    let less := Rules.less f
    let zeros : Prop := x = 2 ^ sign ∧ y = 0
    -- `lerp`
    (finite x → finite y → finite z → j = 0 → is (num x + num z * (num y - num x)) (lerpE t e j [x, y, z]).val)
    ∧ (isNan x ∨ isNan y ∨ isNan z → (e.nanc = true → (lerpE t e j [x, y, z]).val = f.nanBits)
        ∧ (e.nanc = false → isNan x → (lerpE t e j [x, y, z]).val = quiet x)
        ∧ (e.nanc = false → ¬ isNan x → isNan y → (lerpE t e j [x, y, z]).val = quiet y)
        ∧ (e.nanc = false → ¬ isNan x → ¬ isNan y → (lerpE t e j [x, y, z]).val = quiet z))
    ∧ (∀ s, Rules.isInfinity f s x → Rules.isInfinity f s y → ¬ isNan z → lerpE t e j [x, y, z] = ⟨f.nanBits, 1⟩)
    -- `fmin` and `fmax`
    ∧ (¬ isNan x → ¬ isNan y →
        (less x y ∨ zeros → fminmaxE false t e j [x, y] = ⟨x, 0⟩ ∧ fminmaxE true t e j [x, y] = ⟨y, 0⟩
          ∧ fminmaxE false t e j [y, x] = ⟨x, 0⟩ ∧ fminmaxE true t e j [y, x] = ⟨y, 0⟩)
        ∧ (x = y → fminmaxE false t e j [x, y] = ⟨x, 0⟩ ∧ fminmaxE true t e j [x, y] = ⟨x, 0⟩))
    ∧ (isNan x → ∀ max, (¬ isNan y → (fminmaxE max t e j [x, y]).val = y ∧ (fminmaxE max t e j [y, x]).val = y)
        ∧ (isNan y → (fminmaxE max t e j [x, y]).val = if e.nanc then f.nanBits else quiet x)
        ∧ ((fminmaxE max t e j [x, y]).fl = 1 ↔ signals x ∨ signals y))
    -- `fcmp`
    ∧ (¬ isNan x → ¬ isNan y →
        let holds : Prop := match c with
          | .eq => ¬ less x y ∧ ¬ less y x | .ne => less x y ∨ less y x | .lt => less x y | .le => ¬ less y x
          | .gt => less y x | .ge => ¬ less x y | .un => False | .ord => True
        (holds → fcmpE c t e j [x, y] = ⟨1, 0⟩) ∧ (¬ holds → fcmpE c t e j [x, y] = ⟨0, 0⟩))
    ∧ (isNan x ∨ isNan y → (fcmpE c t e j [x, y]).val = (if c = .ne ∨ c = .un then 1 else 0)
        ∧ ((fcmpE c t e j [x, y]).fl = 1 ↔ c = .lt ∨ c = .le ∨ c = .gt ∨ c = .ge ∨ signals x ∨ signals y))
    -- `frnd`
    ∧ (finite x → ∃ u n : Nat, frndE t e j [x] = ⟨u, 0⟩ ∧ finite u ∧ u.testBit sign = x.testBit sign ∧ abs (num u) = (n : ℚ)
        ∧ Rules.wholeOf e.rm (r j) (x.testBit sign) (abs (num x)) n)
    ∧ ((∃ s, Rules.isInfinity f s x) → frndE t e j [x] = ⟨x, 0⟩)
    ∧ (isNan x → (frndE t e j [x]).val = if e.nanc then f.nanBits else quiet x)
    -- the conversions
    ∧ (finite x → ∃ n : Nat, Rules.wholeOf e.rm (r 0) (x.testBit sign) (abs (num x)) n ∧
        let w : Int := if x.testBit sign then -(n : Int) else n
        e.toInt to_ t x = if w < to_.least then (to_.least, 1) else if to_.most < w then (to_.most, 1)
          else (w, if num x = w then 0 else 16))
    ∧ (∀ s, Rules.isInfinity f s x → e.toInt to_ t x = (if s then to_.least else to_.most, 1))
    ∧ (isNan x → e.toInt to_ t x = (0, 1))
    ∧ (v = 0 → e.ofInt t v = ⟨0, 0⟩) ∧ (e.sat = false → is v (e.ofInt t v).val)

/-! ### The answers of units -/

/-- R181, R183, R345, R371: the completion of a ray query and of a matrix-vector call takes what the unit answers, or waits on what
its reads met; a completed one orders the core's later loads after it (R128). -/
def Rules.UnitCompletions : Prop :=
  ∀ (s v : State) (core slot idx : Nat) (g : Group) (p : Pend) (ws : List (Nat × Nat × Word)) (w : Option Nat) (any cullB cullF : Bool)
      (kind : MvxKind) (t : FTy) (h : PathHint) (nr nv : Nat) (desc vaddr : DWord) (ops : List LaneOp),
    s.group? core slot = some g → g.pend[idx]? = some p → p.waitOn = none → (∀ o ∈ ops, o.lane ∈ p.lanes) →
    let i : Instr := .longLatencyComplete core slot idx
    let waits : Prop := exec i s = .next (v.updGroup core slot fun g => { g with pend := updAt g.pend idx fun p => { p with waitOn := w } })
    (p.work = .ray any cullB cullF ops →
      (s.rayAll g p.pc any cullB cullF ops = .ok (v, ws) → v.group? core slot = some g →
        ∃ t, exec i s = .next t ∧ Rules.completed (v.acquire g.core) core slot idx g p ws t)
      ∧ (s.rayAll g p.pc any cullB cullF ops = .error (v, w) → waits))
    ∧ (p.work = .mvx kind t h nr nv desc vaddr ops →
      (s.mvxAll g p.pc kind t h nr nv desc.toNat vaddr.toNat ops = .ok (v, ws) → v.group? core slot = some g →
        ∃ u, exec i s = .next u ∧ Rules.completed ((v.acquire g.core).callOver (g.core, g.slot, p.pc.toNat)) core slot idx g p ws u)
      ∧ (s.mvxAll g p.pc kind t h nr nv desc.toNat vaddr.toNat ops = .error (v, w) → waits))

/-! #### Textures -/

/-- An integer of R321 as an exact FP32 value. -/
def Rules.single (n : Nat) : Nat := if n = 0 then 0 else (FTy.f32.fmt.roundFrac 1 0 false false n 1).val

/-- `tex()` of R321, on the texels read, by address. -/
def Rules.texel (d : TexDesc) (texels : Nat → Nat) (l : Nat) (i j : Int) (c : Nat) : Nat :=
  let w : Nat := max 1 ((d.wm1 + 1) / 2 ^ l)
  let h : Nat := max 1 ((d.hm1 + 1) / 2 ^ l)
  let inside (mode n : Nat) (i : Int) : Nat := (if mode = 0 then i % n else min (max i 0) ((n : Int) - 1)).toNat
  if d.addrU = 2 ∧ (i < 0 ∨ (w : Int) ≤ i) then 0
  else if d.addrV = 2 ∧ (j < 0 ∨ (h : Int) ≤ j) then 0
  else if d.channels ≤ c then (if c = 3 then 0x3F800000 else 0)
  else
    let bytes := if d.half then 2 else 4
    let x := texels ((d.base + l * d.lstride + inside d.addrV h j * d.pitch + inside d.addrU w i * (d.channels * bytes)) % 2 ^ 64)
    let y := x / 2 ^ (8 * bytes * c) % 2 ^ (8 * bytes)
    if d.half then (FEnv.convert { fmode := 1, rm := 1, seed := 0, idx := 0 } .f32 .f16 0 y).val else y

/-- The reference of R321 for one channel, in the instructions that it names. -/
def Rules.filtered (d : TexDesc) (texels : Nat → Nat) (k : Filt) (level u v lambda c : Nat) : Nat :=
  let e : FEnv := { fmode := 1, rm := 1, seed := 0, idx := 0 }
  let mul (a b : Nat) : Nat := (fmulE .f32 e 0 [a, b]).val
  let sub (a b : Nat) : Nat := (fsubE .f32 e 0 [a, b]).val
  let floor (a : Nat) : Nat := (frndE .f32 { e with rm := 4 } 0 [a]).val
  let whole (a : Nat) : Int := (FEnv.toInt { e with rm := 2 } .i32 .f32 a).1
  let wrap (i : Int) : Int := (BitVec.ofInt 32 i).toInt
  let cs2 (wl wh tl th : Nat) : Nat := chunkSumAll 0 [prodOf (f32 wl) (f32 tl), prodOf (f32 wh) (f32 th)]
  let one := 0x3F800000
  let width (l : Nat) : Nat := Rules.single (max 1 ((d.wm1 + 1) / 2 ^ l))
  let height (l : Nat) : Nat := Rules.single (max 1 ((d.hm1 + 1) / 2 ^ l))
  let bil (l : Nat) : Nat :=
    let xs := sub (mul u (width l)) 0x3F000000
    let ys := sub (mul v (height l)) 0x3F000000
    let i := whole (floor xs)
    let j := whole (floor ys)
    let wx := sub xs (floor xs)
    let wy := sub ys (floor ys)
    let row (j : Int) : Nat := cs2 (sub one wx) wx (Rules.texel d texels l i j c) (Rules.texel d texels l (wrap (i + 1)) j c)
    cs2 (sub one wy) wy (row j) (row (wrap (j + 1)))
  match k with
  | .pt =>
    let l := min level d.lm1
    Rules.texel d texels l (whole (floor (mul u (width l)))) (whole (floor (mul v (height l)))) c
  | .lin => bil (min level d.lm1)
  | .tri =>
    let lc := (fminmaxE false .f32 e 0 [(fminmaxE true .f32 e 0 [lambda, 0]).val, Rules.single d.lm1]).val
    let lo := (whole (floor lc)).toNat
    let fl := sub lc (floor lc)
    cs2 (sub one fl) fl (bil lo) (bil (min (lo + 1) d.lm1))

/-- R319 to R322: a lookup reads its descriptor, then its texels, each where `tex()` reads it, and delivers the reference's channels in its
type; an invalid descriptor gives NaNs and reads nothing. A lane's registers are written from its D on. The order of the texel
reads is the model's. -/
def Rules.TextureResults : Prop :=
  (∀ (s u v : State) (g : Group) (pc : DWord) (t : FTy) (k : Filt) (level : Nat) (op : LaneOp) (runs : Runs) (m : TexelMap),
    t = .f32 ∨ t = .f16 →
    let src := s.laneSource 6 g.core g.slot op.lane pc
    s.engineCheck g.ctx (s.launchOf g) src { kind := .read, core := g.core } op.addr.toNat 32 true = .ok (u, runs) →
    let bytes := u.seenRuns g.core false .kall runs
    let d : TexDesc := (List.range 8).map fun k => BitVec.ofNat 32 (leNat ((bytes.drop (4 * k)).take 4))
    let x (n : Nat) : Nat := (op.args.getD n 0).toNat
    let clean : Prop := d.w 0xC / 2 ^ 12 = 0 ∧ d.addrU ≠ 3 ∧ d.addrV ≠ 3 ∧ d.w 0xC / 64 % 4 ≠ 3 ∧ d.w 0xC / 16 % 4 < 2 ∧ d.w 0x14 = 0
      ∧ d.base % d.texel = 0 ∧ d.pitch % d.texel = 0 ∧ d.lstride % d.texel = 0
    let out (q : Nat → Nat) : List Word :=
      let half (c : Nat) : Nat := (FEnv.convert { fmode := 1, rm := 1, seed := 0, idx := 0 } .f16 .f32 0 (q c)).val
      if t = .f32 then (List.range 4).map fun c => BitVec.ofNat 32 (q c)
      else [BitVec.ofNat 32 (half 0 + 2 ^ 16 * half 1), BitVec.ofNat 32 (half 2 + 2 ^ 16 * half 3)]
    let after := u.loadedRuns g.core false .kall runs
    (¬ clean → s.texOne g pc t k level op = .ok (after, if t = .f32 then List.replicate 4 0x7FC00000 else List.replicate 2 0x7E007E00))
    ∧ (clean → after.readTexels g src d (d.texels k level (x 0) (x 1) (x 2)) [] = .ok (v, m) →
      s.texOne g pc t k level op = .ok (v, out fun c => Rules.filtered d (fun a => Assoc.get m a 0) k level (x 0) (x 1) (x 2) c)))
  ∧ (∀ (s u v : State) (g : Group) (src : Source) (d : TexDesc) (l a : Nat) (i j : Int) (rest : List (Nat × Int × Int)) (m : TexelMap)
      (runs : Runs), d.place l i j = some a →
    s.engineCheck g.ctx (s.launchOf g) src { kind := .read, tiled := true, core := g.core } a d.texel true = .ok (u, runs) →
    ((u.loadedRuns g.core false .kall runs).feedback g.ctx (u.launchOf g) g.core a runs) = v →
    s.readTexels g src d ((l, i, j) :: rest) m = v.readTexels g src d rest (Assoc.set m a (leNat (u.seenRuns g.core false .kall runs))))
  ∧ ∀ (s u v : State) (g : Group) (pc : DWord) (t : FTy) (k : Filt) (level : Nat) (op : LaneOp) (ops : List LaneOp) (ws : List Word)
      (rest : List (Nat × Nat × Word)), s.texOne g pc t k level op = .ok (u, ws) → u.texAll g pc t k level ops = .ok (v, rest) →
    s.texAll g pc t k level (op :: ops) = .ok (v, (ws.mapIdx fun n w => (op.lane, op.dst + n, w)) ++ rest)

/-! #### Ray queries -/

/-- Exact values with infinities in their order (R404); what has no value is not comparable. -/
def Rules.extLe : Ext → Ext → Prop
  | .none, _ => False
  | _, .none => False
  | .q a b, .q c d => (a : ℚ) / b ≤ c / d
  | .inf s, y => s = true ∨ y = .inf false
  | _, .inf s => s = false
def Rules.exact (x : ℚ) : Ext := .q x.num x.den
/-- A bound of a ray: an infinity or a fraction. -/
def Rules.isBound (x : Ext) : Prop := x ≠ .none ∧ ∀ n d, x = .q n d → 0 < d

/-- A coordinate of a point, and the values of finite words. -/
def Rules.coord (p : P3) : Nat → Nat
  | 0 => p.1
  | 1 => p.2.1
  | _ => p.2.2
def Rules.single? (x : Nat) : Prop := Rules.isFinite FTy.f32.fmt x
def Rules.worth32 (x : Nat) : ℚ := Rules.number FTy.f32.fmt x

/-- R404: the test of a box with finite coordinates against a ray with finite origin and direction. -/
def Rules.BoxTests : Prop :=
  ∀ (r : Ray) (tc : Ext) (c : Child), Rules.isBound r.tmin → Rules.isBound tc →
    (∀ a < 3, Rules.single? (Rules.coord r.o a) ∧ Rules.single? (Rules.coord r.d a) ∧ Rules.single? (Rules.coord c.lo a)
      ∧ Rules.single? (Rules.coord c.hi a)) →
    let o (a : Nat) : ℚ := Rules.worth32 (Rules.coord r.o a)
    let d (a : Nat) : ℚ := Rules.worth32 (Rules.coord r.d a)
    let lo (a : Nat) : ℚ := Rules.worth32 (Rules.coord c.lo a)
    let hi (a : Nat) : ℚ := Rules.worth32 (Rules.coord c.hi a)
    let near (a : Nat) : ℚ := min ((lo a - o a) / d a) ((hi a - o a) / d a)
    let far (a : Nat) : ℚ := max ((lo a - o a) / d a) ((hi a - o a) / d a)
    let moves (a : Nat) : Prop := a < 3 ∧ d a ≠ 0
    let entered : Prop := (∀ a < 3, d a = 0 → lo a ≤ o a ∧ o a ≤ hi a) ∧ Rules.extLe r.tmin tc
      ∧ (∀ a, moves a → Rules.extLe r.tmin (Rules.exact (far a)) ∧ Rules.extLe (Rules.exact (near a)) tc)
      ∧ ∀ a b, moves a → moves b → near a ≤ far b
    (¬ entered → r.enters tc c = none)
    ∧ (entered → ∃ e, r.enters tc c = some e ∧ Rules.isBound e
        ∧ ∀ y : Ext, Rules.isBound y → (Rules.extLe e y ↔ Rules.extLe r.tmin y ∧ ∀ a, moves a → Rules.extLe (Rules.exact (near a)) y))

/-- R405: the test of a triangle item, with the words of the record that a hit reports. -/
def Rules.TriangleTests : Prop :=
  ∀ (r : Ray) (cullB cullF : Bool) (tc : Ext) (xs : List Byte), Rules.isBound r.tmin → Rules.isBound tc → xs.length = 48 →
    let word (k : Nat) : Nat := leNat ((xs.drop k).take 4)
    let sub (a b : Nat) : Nat := (fsubE .f32 { fmode := 1, rm := 1, seed := 0, idx := 0 } 0 [a, b]).val
    let e1w (a : Nat) : Nat := sub (word (12 + 4 * a)) (word (4 * a))
    let e2w (a : Nat) : Nat := sub (word (24 + 4 * a)) (word (4 * a))
    let sw (a : Nat) : Nat := sub (Rules.coord r.o a) (word (4 * a))
    let finite : Prop := ∀ a < 3, Rules.single? (e1w a) ∧ Rules.single? (e2w a) ∧ Rules.single? (sw a) ∧ Rules.single? (Rules.coord r.d a)
    let e1 (a : Nat) : ℚ := Rules.worth32 (e1w a)
    let e2 (a : Nat) : ℚ := Rules.worth32 (e2w a)
    let s (a : Nat) : ℚ := Rules.worth32 (sw a)
    let d (a : Nat) : ℚ := Rules.worth32 (Rules.coord r.d a)
    let cross (x y : Nat → ℚ) (a : Nat) : ℚ := x ((a + 1) % 3) * y ((a + 2) % 3) - x ((a + 2) % 3) * y ((a + 1) % 3)
    let dot (x y : Nat → ℚ) : ℚ := x 0 * y 0 + x 1 * y 1 + x 2 * y 2
    let p := cross d e2
    let q := cross s e1
    let det := dot e1 p
    let b1 := dot s p / det
    let b2 := dot d q / det
    let t := dot e2 q / det
    let hit : Prop := finite ∧ det ≠ 0 ∧ 0 ≤ b1 ∧ 0 ≤ b2 ∧ b1 + b2 ≤ 1 ∧ Rules.extLe r.tmin (Rules.exact t)
      ∧ ¬ Rules.extLe tc (Rules.exact t) ∧ (det < 0 → cullB = false) ∧ (0 < det → cullF = false)
    let nearest (w : ℚ) (v : Nat) : Prop := (w = 0 → v = 0) ∧ (w ≠ 0 → Rules.rounds FTy.f32.fmt 1 0 (decide (w < 0)) |w| v)
    (¬ hit → (r.hits cullB cullF tc xs).isNone = true)
    ∧ (hit → ∃ h, r.hits cullB cullF tc xs = some h ∧ Rules.extLe h.t (Rules.exact t) ∧ Rules.extLe (Rules.exact t) h.t
        ∧ nearest t h.t32 ∧ nearest b1 h.b1 ∧ nearest b2 h.b2 ∧ (h.back = true ↔ det < 0) ∧ h.tri = word 0x24)

/-- R402: the children of a node: none where it breaks the table, else those of its slots that hold one, in ascending order, with their
boxes rounded outward. -/
def Rules.NodeChildren : Prop :=
  ∀ xs : List Byte, xs.length = 128 →
    let at_ (k n : Nat) : Nat := leNat ((xs.drop k).take n)
    let origin (a : Nat) : Nat := at_ (4 * a) 4
    let scale (a : Nat) : Nat := at_ (0xC + a) 1
    let head (c : Nat) : Nat := at_ (0x20 + c) 1
    let q (c k : Nat) : Nat := at_ (0x28 + 6 * c + k) 1
    let idx (c : Nat) : Nat := at_ (0x58 + 2 * c) 2
    let clean : Prop := (∀ a < 3, Rules.single? (origin a) ∧ scale a ≠ 0xFF) ∧ at_ 0xF 1 = 0 ∧ at_ 0x10 8 % 128 = 0
      ∧ at_ 0x18 8 % 16 = 0 ∧ (∀ c < 8, head c / 8 % 8 = 0) ∧ at_ 0x68 24 = 0
    let filled (c : Nat) : Prop := c < 8 ∧ head c / 64 ≠ 0 ∧ ∀ a < 3, q c a ≤ q c (a + 3)
    let kid (c : Nat) : Kid := match head c / 64 with
      | 1 => .node ((at_ 0x10 8 + 128 * idx c) % 2 ^ 64)
      | 2 => .triangles ((at_ 0x18 8 + 48 * idx c) % 2 ^ 64) (head c % 8 + 1)
      | _ => .instance_ ((at_ 0x18 8 + 64 * idx c) % 2 ^ 64)
    let bound (c a k : Nat) : ℚ := Rules.worth32 (origin a) + q c k * (2 : ℚ) ^ ((scale a : Int) - 127)
    let rounded (mode : Nat) (w : ℚ) (v : Nat) : Prop := w ≠ 0 → Rules.rounds FTy.f32.fmt mode 0 (decide (w < 0)) |w| v
    (¬ clean → (childrenOf xs).length = 0)
    ∧ (clean → ((childrenOf xs).map fun x => x.slot).Pairwise (· < ·) ∧ (∀ c, (∃ x ∈ childrenOf xs, x.slot = c) ↔ filled c)
      ∧ ∀ x ∈ childrenOf xs, x.kid = kid x.slot
        ∧ ∀ a < 3, rounded 4 (bound x.slot a a) (Rules.coord x.lo a) ∧ rounded 3 (bound x.slot a (a + 3)) (Rules.coord x.hi a))

/-- R403, R406: one step of a traversal that has discarded nothing: the newest item is popped; past the bound, or beyond level 64,
it is dropped; a node's entered children are pushed, nearest first to be popped; an instance pushes its root with the ray taken
into it; a leaf's triangles are tested in order. With no item left the traversal is over. -/
def Rules.TraversalSteps : Prop :=
  ∀ (k : Query) (tr : Trav) (x : RayItem) (rest : List RayItem), tr.lost = false →
    let e : FEnv := { fmode := 1, rm := 1, seed := 0, idx := 0 }
    let add (a b : Nat) : Nat := (faddE .f32 e 0 [a, b]).val
    let mul (a b : Nat) : Nat := (fmulE .f32 e 0 [a, b]).val
    let keeps (u v : Trav) : Prop := v.best = u.best ∧ v.tc = u.tc ∧ v.lost = false
    (tr.stack = [] → ∃ v, k.round tr = .ok (v, true) ∧ keeps tr v ∧ v.s = tr.s)
    ∧ (tr.stack = x :: rest → rest.length ≤ 7 → Rules.isBound tr.tc → Rules.isBound x.entry → Rules.isBound x.ray.tmin →
      let past : Prop := ¬ Rules.extLe x.entry tr.tc ∨ (64 < x.level ∧ ∃ a, x.kid = .node a)
      (past → ∃ v, k.round tr = .ok (v, false) ∧ keeps tr v ∧ v.s = tr.s ∧ v.stack = rest)
      ∧ (¬ past →
        (∀ a s xs, x.kid = .node a → k.read tr.s a 128 = .ok (s, xs) →
          let kids := (childrenOf xs).filterMap fun c => (x.ray.enters tr.tc c).map fun n =>
            { x with kid := c.kid, level := x.level + 1, slot := c.slot, entry := n }
          rest.length + kids.length ≤ 8 → ∃ v es, k.round tr = .ok (v, false) ∧ keeps tr v ∧ v.s = s ∧ v.stack = es ++ rest
            ∧ es.Perm kids ∧ es.Pairwise fun y z =>
                Rules.extLe y.entry z.entry ∧ (Rules.extLe z.entry y.entry → y.slot ≤ z.slot))
        ∧ (∀ a, x.kid = .instance_ a → x.bottom = true →
            ∃ v, k.round tr = .ok (v, false) ∧ keeps tr v ∧ v.s = tr.s ∧ v.stack = rest)
        ∧ (∀ a s xs, x.kid = .instance_ a → x.bottom = false → k.read tr.s a 64 = .ok (s, xs) →
          let m (i j : Nat) : Nat := leNat ((xs.drop (16 * i + 4 * j)).take 4)
          let root := leNat ((xs.drop 0x30).take 8)
          let turned (p : P3) (i : Nat) : Nat := add (add (mul (m i 0) p.1) (mul (m i 1) p.2.1)) (mul (m i 2) p.2.2)
          let o (i : Nat) : Nat := add (turned x.ray.o i) (m i 3)
          let ray : Ray := ⟨(o 0, o 1, o 2), (turned x.ray.d 0, turned x.ray.d 1, turned x.ray.d 2), x.ray.tmin⟩
          ∃ v, k.round tr = .ok (v, false) ∧ keeps tr v ∧ v.s = s
            ∧ v.stack = if root % 128 ≠ 0 then rest
                else { x with kid := .node root, ray, bottom := true, inst := leNat ((xs.drop 0x38).take 4),
                              user := leNat ((xs.drop 0x3C).take 4) } :: rest)
        ∧ ∀ a n, x.kid = .triangles a n → ∃ v, v.stack = rest ∧ keeps tr v ∧ v.s = tr.s ∧ k.round tr = k.triangles x n a v))
    ∧ (∀ a, k.triangles x 0 a tr = .ok (tr, false))
    ∧ ∀ n a s xs, k.read tr.s a 48 = .ok (s, xs) →
      (x.ray.hits k.cullB k.cullF tr.tc xs = none → k.triangles x (n + 1) a tr = k.triangles x n ((a + 48) % 2 ^ 64) { tr with s })
      ∧ ∀ h, x.ray.hits k.cullB k.cullF tr.tc xs = some h →
        let u : Trav := { tr with s, best := some { h with inst := x.inst, user := x.user }, tc := h.t }
        k.triangles x (n + 1) a tr = if k.any then .ok (u, true) else k.triangles x n ((a + 48) % 2 ^ 64) u

/-- R344, R345, R406: a query's record: a miss without a read where a word of the ray is a NaN or tmin lies above tmax, else what the
traversal from the root finds; and the queries of an issue, lane after lane. -/
def Rules.RayRecords : Prop :=
  (∀ (read : State → Nat → Nat → Except (State × Option Nat) (State × List Byte)) (any cullB cullF : Bool) (s : State)
      (args : List Word) (root : Nat), args.length = 8 →
    let x (n : Nat) : Nat := (args.getD n 0).toNat
    let nan (n : Nat) : Prop := 0x7F800000 < x n % 2 ^ 31
    let bound (n : Nat) : Ext := Ext.of32 (x n)
    let hasNone : Prop := (∃ n < 8, nan n) ∨ ¬ Rules.extLe (bound 3) (bound 7)
    let miss : List Word := [0x7F800000#32, 0xFFFFFFFF#32, 0xFFFFFFFF#32, 0#32, 0#32, 0#32, 0#32, 0#32]
    let top : RayItem := { kid := .node root, ray := ⟨(x 0, x 1, x 2), (x 4, x 5, x 6), bound 3⟩, level := 0, entry := bound 3 }
    let k : Query := { read, any, cullB, cullF, root := top }
    let start : Trav := { s, tc := bound 7, stack := [top] }
    (hasNone → Query.trace read any cullB cullF s args root = .ok (s, miss))
    ∧ (¬ hasNone →
      (∀ e, k.go (2 ^ 210) start = .error e → Query.trace read any cullB cullF s args root = .error e)
      ∧ ∀ tr, k.go (2 ^ 210) start = .ok tr →
        (tr.best.isNone = true → Query.trace read any cullB cullF s args root = .ok (tr.s, miss))
        ∧ ∀ h, tr.best = some h → Query.trace read any cullB cullF s args root =
          .ok (tr.s, [h.t32, h.tri, h.inst, h.b1, h.b2, if h.back then 3 else 1, h.user, 0].map (BitVec.ofNat 32))))
  ∧ (∀ (k : Query) (n : Nat) (tr u : Trav), (k.round tr = .ok (u, true) → k.go (n + 1) tr = .ok u)
      ∧ (k.round tr = .ok (u, false) → k.go (n + 1) tr = k.go n u)
      ∧ ∀ e, k.round tr = .error e → k.go (n + 1) tr = .error e)
  ∧ (∀ (g : Group) (pc : DWord) (lane : Nat) (s u : State) (a n : Nat) (runs : Runs),
      s.engineCheck g.ctx (s.launchOf g) (s.laneSource 5 g.core g.slot lane pc) { kind := .read, core := g.core } a n = .ok (u, runs) →
      State.rayRead g pc lane s a n = .ok (u.homeRuns false runs, u.rdRuns runs))
  ∧ ∀ (s u v : State) (g : Group) (pc : DWord) (any cullB cullF : Bool) (op : LaneOp) (ops : List LaneOp) (ws : List Word)
      (rest : List (Nat × Nat × Word)), Query.trace (State.rayRead g pc op.lane) any cullB cullF s op.args op.addr.toNat = .ok (u, ws) →
    u.rayAll g pc any cullB cullF ops = .ok (v, rest) →
    s.rayAll g pc any cullB cullF (op :: ops) = .ok (v, (ws.mapIdx fun n w => (op.lane, op.dst + n, w)) ++ rest)

/-! #### Matrix-vector calls -/

/-- The reads of a call, one after another, with what they find. -/
def Rules.finds (k : Caller) (mem : Nat → Byte) : List (Nat × Nat) → State → State → Prop
  | [], s, u => u = s
  | (a, n) :: rest, s, u => ∃ v, k.read s a n = .ok (v, (List.range n).map fun i => mem (a + i)) ∧ Rules.finds k mem rest v u

/-- R72, R368, R369: a matrix as its descriptor gives it. -/
structure Rules.Matrix where
  base : Nat
  rows : Nat
  fmt : Nat
  kc : Nat
  stride : Nat
  scales : Nat

def Rules.Matrix.of (xs : List Byte) : Rules.Matrix :=
  let w (o n : Nat) : Nat := leNat ((xs.drop o).take n)
  { base := w 0 8, rows := w 8 4, fmt := w 0xC 4 / 2 ^ 29, kc := w 0xC 4 % 2 ^ 16, stride := w 0x10 4, scales := w 0x18 8 }
/-- Chunks of a half-row, and bytes of a chunk. -/
def Rules.Matrix.cph (m : Rules.Matrix) : Nat := match m.fmt with | 0 => 8 | 1 => 16 | 2 => 16 | _ => 30
def Rules.Matrix.chunk (m : Rules.Matrix) : Nat := match m.fmt with | 0 => 128 | 1 => 64 | 2 => 64 | _ => 32
/-- The block of chunk `j` of a row. -/
def Rules.Matrix.at_ (m : Rules.Matrix) (q j : Nat) : Nat := (m.base + (q * ((m.kc + m.cph - 1) / m.cph) + j / m.cph) * 1024) % 2 ^ 64
/-- Element `i` of a row, with its block scale. -/
def Rules.Matrix.element (m : Rules.Matrix) (mem : Nat → Byte) (q i : Nat) : FVal :=
  let blk := m.at_ q (i / 64)
  let p := i / 64 % m.cph
  let e := i % 64
  match m.fmt with
  | 0 => FTy.bf16.fmt.decode ((mem (blk + 128 * p + 2 * e)).toNat + 256 * (mem (blk + 128 * p + 2 * e + 1)).toNat)
  | 1 => FTy.e4m3.fmt.decode (mem (blk + 64 * p + e)).toNat
  | 2 => FTy.e5m2.fmt.decode (mem (blk + 64 * p + e)).toNat
  | _ => scaled (FTy.e2m1.fmt.decode ((mem (blk + 32 * p + e / 2)).toNat / 16 ^ (e % 2) % 16)) (mem (blk + 960 + 2 * p + e / 32)).toNat

/-- R367 to R370: a call reads its descriptor; where that is invalid every register receives the canonical NaN; else, on the core path,
each register of each lane receives its row's `chunk_sum` with its vector, times the row's scale for `mvxs`, and a row beyond
the matrix leaves the start value. The order of the reads is the model's; a read that fails is what the call answers. -/
def Rules.CallResults : Prop :=
  (∀ (s u : State) (g : Group) (pc : DWord) (kind : MvxKind) (t : FTy) (h : PathHint) (nr nv desc vaddr : Nat) (ops : List LaneOp)
      (xs : List Byte) (op : LaneOp) (rest : List LaneOp), ops = op :: rest → t = .bf16 ∨ t = .e4m3 → xs.length = 32 → 1 ≤ nv →
    let k : Caller := ⟨g, s.laneSource 8 g.core g.slot op.lane pc⟩
    k.read s desc 32 = .ok (u, xs) →
    let m := Rules.Matrix.of xs
    let z := if t = .bf16 then 2 else 1
    let clean : Prop := m.base < 2 ^ 52 ∧ m.base % 1024 = 0 ∧ 1 ≤ m.rows ∧ m.fmt < 4 ∧ leNat ((xs.drop 0xC).take 4) / 2 ^ 16 % 2 ^ 13 = 0
      ∧ 1 ≤ m.kc ∧ m.stride % 128 = 0 ∧ leNat ((xs.drop 0x14).take 4) = 0 ∧ (kind = .scaled → m.scales % 4 = 0) ∧ vaddr % 128 = 0
    let cells : List (LaneOp × Nat) := ops.flatMap fun o => (List.range nr).map fun i => (o, i)
    let row (c : LaneOp × Nat) : Nat := c.1.addr.toNat + c.2
    (¬ clean → s.mvxAll g pc kind t h nr nv desc vaddr ops =
      .ok (u, cells.flatMap fun c => (List.range nv).map fun v => (c.1.lane, c.1.dst + c.2 * nv + v, 0x7FC00000#32)))
    ∧ (clean → u.sluice g h nv (MvxDesc.ofBytes xs) = false → ∀ mem : Nat → Byte,
      let start : State := { (if (u.dieAt (u.physDie (dieOf g.core))).bank then u.blockReads g (MvxDesc.ofBytes xs).blocks else u) with
        free := u.free + 1 }
      let vectors : List (Nat × Nat) := if ∀ c ∈ cells, m.rows ≤ row c then []
        else (List.range nv).flatMap fun v => (List.range m.kc).map fun j => ((vaddr + v * m.stride + j * 64 * z) % 2 ^ 64, 64 * z)
      let rows : List (Nat × Nat) := cells.flatMap fun c => if m.rows ≤ row c then []
        else ((List.range m.kc).flatMap fun j =>
            (m.at_ (row c) j + m.chunk * (j % m.cph), m.chunk)
              :: if m.fmt = 3 then [(m.at_ (row c) j + 960 + 2 * (j % m.cph), 2)] else [])
          ++ if kind = .scaled then [((m.scales + 4 * row c) % 2 ^ 64, 4)] else []
      let vector (v i : Nat) : FVal :=
        let a := (vaddr + v * m.stride + i * z) % 2 ^ 64
        t.fmt.decode (if t = .bf16 then (mem a).toNat + 256 * (mem (a + 1)).toNat else (mem a).toNat)
      let value (c : LaneOp × Nat) (v : Nat) : Nat :=
        let from_ := (c.1.args.getD (c.2 * nv + v) 0).toNat
        let y := chunkSumAll from_ ((List.range (64 * m.kc)).map fun i => prodOf (m.element mem (row c) i) (vector v i))
        if m.rows ≤ row c then from_
        else if kind = .scaled then
          scaleRow y (leNat ((List.range 4).map fun b => mem ((m.scales + 4 * row c) % 2 ^ 64 + b)))
        else y
      (∀ w, Rules.finds k mem (vectors ++ rows) start w → s.mvxAll g pc kind t h nr nv desc vaddr ops =
        .ok (w, cells.flatMap fun c => (List.range nv).map fun v => (c.1.lane, c.1.dst + c.2 * nv + v, BitVec.ofNat 32 (value c v))))
      ∧ ∀ pre a n post w e, vectors ++ rows = pre ++ (a, n) :: post → Rules.finds k mem pre start w → k.read w a n = .error e →
        s.mvxAll g pc kind t h nr nv desc vaddr ops = .error e))
  ∧ ∀ y c : Nat, y < 2 ^ 32 → c < 2 ^ 32 →
    let f := FTy.f32.fmt
    let w := Rules.number f y * Rules.number f c
    let neg : Bool := y.testBit 31 != c.testBit 31
    let nan (x : Nat) : Prop := 0x7F800000 < x % 2 ^ 31
    let inf (x : Nat) : Prop := x % 2 ^ 31 = 0x7F800000
    (nan y ∨ nan c ∨ (inf y ∧ c % 2 ^ 31 = 0) ∨ (y % 2 ^ 31 = 0 ∧ inf c) → scaleRow y c = 0x7FC00000)
    ∧ ((inf y ∧ ¬ nan c ∧ c % 2 ^ 31 ≠ 0) ∨ (inf c ∧ ¬ nan y ∧ y % 2 ^ 31 ≠ 0) → scaleRow y c = (if neg then 2 ^ 31 else 0) + 0x7F800000)
    ∧ (Rules.isFinite f y → Rules.isFinite f c → (w = 0 → scaleRow y c = if neg then 2 ^ 31 else 0)
        ∧ (w ≠ 0 → Rules.rounds f 1 0 neg |w| (scaleRow y c)))

/-! #### Stores held back -/

/-- R60, R109, R119: what a group holds back of one word is performed: each of its bytes takes what was stored to it last, no other
byte changes, and the rest stays held back. That a store may be held back, and for how long, is the model's choice (assumption
log 4). -/
def Rules.StoresPerformed : Prop :=
  ∀ (s : State) (core slot k : Nat) (w : Nat × Nat), (s.heldWords core slot)[k]? = some w → s.ue = [] → s.sysUe = [] →
    let due := s.stores.filter fun b => b.core == core && b.slot == slot && b.word == w
    let u := s.otherAct (.performStores core slot k)
    u.stores = s.stores.filter (fun b => !(b.core == core && b.slot == slot && b.word == w))
    ∧ ((∀ b ∈ due, b.team = none) →
      (∀ q : Place, u.rdByte q = match (due.filter fun b => b.cell == q.cell).getLast? with | some b => b.byte | none => s.rdByte q)
      ∧ u.groups = s.groups ∧ u.teams = s.teams ∧ u.ctx = s.ctx)
    ∧ ∀ n m m', (∀ b ∈ due, b.team = some n) → s.team? n = some m → (∀ x ∈ s.teams, x.id = n → x = m) → u.team? n = some m' →
      (∀ a, m'.rd a 1 = match (due.filter fun b => b.addr == a).getLast? with | some b => b.byte.toNat | none => m.rd a 1)
      ∧ u.mem = s.mem ∧ u.groups = s.groups ∧ u.ctx = s.ctx

end Sys2Proof

/-! ### The statements -/

section
open Sys2Proof Sys2Proof.Machine

/-- R174, R190, R278, R279, R280, R281, R282: an integer or address instruction with a vector destination gives every thread
of its class the result of its row, and changes nothing else. -/
def Obligations.IntegerResults : Prop :=
  ∀ (i : Instr) (d : Nat) (f : State → Nat → List Word) (s : State), Rules.integer i = some (.v d, f) → i.wf = true →
    s.classReady i → exec i s = .next (s.eachLane fun l t => (t.setVs d (f s l)).passed s.cur.next)

/-- R295, R296, R241: a floating-point instruction gives every thread of its class the result of its row, and the status bits of
all of them are ORed into `%fstat`; nothing else is changed. -/
def Obligations.FloatResults : Prop :=
  ∀ (i : Instr) (d : Nat) (f : State → Nat → List Word × Nat) (s : State), Rules.float i = some (d, f) → i.wf = true →
    s.classReady i → exec i s = .next
      ((s.eachLane fun l t => (t.setVs d (f s l).1).passed s.cur.next).orFstat
        (s.cur.lanes.foldl (fun a l => a ||| (f s l).2) 0))

/-- R174, R220, R331, R333, R336 to R341, R346, R358, R359: stores, fences, contributions, spawned tasks, barrier and ring
operations, copies, emitted vertices and accumulator writes, performed by the threads of a class in ascending lane order. That a
store is performed whole at its issue, or stands until it is performed where its group holds plain stores back, is the model's
choice (assumption log 4; R331 leaves the time open); a contribution is recorded at its issue by log 16, and a barrier or ring
operation is one access by log 35. -/
def Obligations.EffectsInOrder : Prop :=
  ∀ (i : Instr) (k : State → Nat → Option (State × Option DWord)) (s t : State), Rules.inTurn i = some k →
    s.cur.who = .lanes → s.cur.lanes ≠ [] → State.inOrder i k s.cur.lanes s = some t → exec i s = .next t

/-- R220, R221, R341: `tspawn` by one thread: the status that it receives in D, where its record goes, and that the thread goes on
to the next instruction. The bytes of a record in the sump are private to the device: no others change. -/
def Obligations.Spawns : Prop :=
  ∀ (d : Nat) (a b c : Src) (s : State) (g : Group) (tm : Team) (l : Nat), s.classReady (.tspawn d a b c) →
    s.cur.lanes = [l] → s.grp = some g → s.team? g.team = some tm →
    let role := (s.reg l c 0).toNat
    let task := (tm.roles[role]?.map (·.task)).getD false
    let k : Task := { team := tm.id, quarter := (tm.cores.idxOf? g.core).getD 0, role, entry := s.pair l a,
                      args := s.regs l b 16 }
    let x := s.ctxAt g.ctx
    let va := x.sumpVa x.shead
    let answer (t : State) (v : Word) : State := ((t.setV l d v).setPc l s.cur.next).withFate .go
    (task = false → exec (.tspawn d a b c) s = .next (answer s 2))
    ∧ (task = true → s.wellRoom g.core tm.id = true → x.sumpEmpty = true →
        exec (.tspawn d a b c) s = .next (answer (s.enterWell g.core k) 0))
    ∧ (task = true → (s.wellRoom g.core tm.id = false ∨ x.sumpEmpty = false) → x.sumpFull = true →
        exec (.tspawn d a b c) s = .next (answer s 1))
    ∧ ∀ p lf, task = true → (s.wellRoom g.core tm.id = false ∨ x.sumpEmpty = false) → x.sumpFull = false →
        s.translate g.ctx { kind := .write, core := g.core } va = .ok p lf → s.reserved g.ctx tm.launch .write va 128 = none →
        s.ueIn p 128 = none →
        let u := (s.tableReads g.ctx { kind := .write, core := g.core } va 128).writeSump p lf
        let t := u.updCtx g.ctx fun c => { c with shead := (c.shead + 1) % 2 ^ c.sumpN }
        exec (.tspawn d a b c) s = .next (answer { t with sumps := s.sumps ++ [(g.ctx, x.shead, k)] } 0)
          ∧ ∀ q, (∀ j, j < 128 → q.cell ≠ (p.add j).cell) → u.rdByte q = s.rdByte q

/-- R93, R96, R98, R100, R101: at the commit of a launch of which every team has ended, the contributions to an element are applied
to it in the order of their keys, and only the elements that received one change; a host's write that the order left beside an
element leaves one of three values. The element is any whose bytes no contribution to another one shares. That a commit is one
step, and that it changes nothing where an uncorrectable error ends the context, is the model's choice (assumption log 79), as is
the order among elements (assumption log 15). -/
def Obligations.OrderedCommit : Prop :=
  ∀ (s : State) (id : Nat) (la : Launch) (r : RedRange) (k va pa : Nat) (cs : List Contribution), s.launch? id = some la →
    la.committed = false → la.allPlaced = true → (∀ t ∈ s.teams, t.launch ≠ id) →
    (∀ v ∈ s.saves, ∀ t ∈ v.teams, t.launch ≠ id) →
    (∀ c ∈ la.contrib, ∀ x, la.table[c.range]? = some x → s.ueIn (.dev c.pa) x.ty.bytes = none) →
    Memory.wf s.mem = true → cs.Perm la.contrib →
    cs.Pairwise (fun a b => a.key.1 < b.key.1 ∨ a.key.1 = b.key.1 ∧ (a.key.2.1 < b.key.2.1 ∨
      a.key.2.1 = b.key.2.1 ∧ a.key.2.2 < b.key.2.2)) →
    la.table[k]? = some r →
    let n := r.ty.bytes
    (∀ c ∈ la.contrib, c.va = va ∧ c.pa = pa ∧ c.range = k
      ∨ ∀ x, la.table[c.range]? = some x → c.pa + x.ty.bytes ≤ pa ∨ pa + n ≤ c.pa) →
    let now := s.rdNat (.dev pa) n
    let before := leNat ((List.range n).map fun j =>
      ((la.hosted.find? fun h => h.1 = pa + j).map (·.2)).getD (s.rdByte (.dev (pa + j))))
    let committed (v : Nat) : Nat := (cs.filter fun c => c.pa == pa && c.range == k).foldl
      (fun v c => aop r.op r.ty v (c.value.toNat % 2 ^ r.ty.width) 0 % 2 ^ r.ty.width) v
    let w := if r.ty = .f16 ∨ r.ty = .bf16 then 2 else n
    let part (e v : Nat) : Nat := v / 256 ^ (w * e) % 256 ^ w
    ∃ t, exec (.orderedReductionCommit id) s = .next t ∧ (∀ m ∈ t.launches, m.id = id → m.committed = true)
      ∧ (∀ e, e < n / w → let y := part e (t.rdNat (.dev pa) n)
          let hosted : Prop := ∃ h ∈ la.hosted, pa + w * e ≤ h.1 ∧ h.1 < pa + w * (e + 1)
          (¬ hosted → y = part e (committed now))
          ∧ (hosted → y = part e now ∨ y = part e (committed before) ∨ y = part e (committed now)))
      ∧ (∀ a, (∀ c ∈ la.contrib, ∀ x, la.table[c.range]? = some x → a < c.pa ∨ c.pa + x.ty.bytes ≤ a) →
          t.rdByte (.dev a) = s.rdByte (.dev a))
      ∧ { t with mem := s.mem, launches := s.launches, l2 := s.l2, ce := s.ce, chan := s.chan, past := s.past, free := s.free } = s

/-- R33, R34, R35: misses queue for the slots of their die's walker, and a walk that ends leaves what it found in the core's TLB and
the die's walk cache, and lets the threads that joined its request go on. Choices of the model: assumption logs 62 and 78. -/
def Obligations.PageWalks : Prop := Rules.Walks ∧ Rules.WalkSlots


/-- R60, R127, R363, R365, R366: a window that has been open for CYC of MFLD_WIN, within 64 to 4,096 cycles, closes, and its network is
read; a pass delivers the rows of the closed windows of its core: the outputs of each row stand to be written by its issue, and
a row that traps leaves its lane the trap that it will take. Which die's MFLD_WIN a die that runs alone obeys is the model's
reading (assumption log 33). -/
def Obligations.ManifoldWindows : Prop :=
  (∀ (s : State) (core idx : Nat) (w : Window) (u : State) (rows : List Machine.Row), s.windows[idx]? = some w → w.core = core → w.closed = false →
    w.loaded = false → w.waitOn = none → w.rows ≠ [] →
    w.since + Nat.min 4096 (Nat.max 64 ((s.dieAt (core / 48)).mfldWin.toNat % 2 ^ 13)) ≤ (s.coreAt core).clk.toNat →
    (∀ r ∈ s.requests, r.core ≠ core) → (∀ v ∈ s.windows, v.core = core → v.closed = false → v.rows.length < 256) →
    let shut : Window := { w with closed := true }
    { s with windows := s.windows.eraseIdx idx ++ [shut] }.loadRows shut = .ok (u, rows) →
    exec (.manifoldWindowTimeout core idx) s =
      .next { u with l1 := u.l1.filter (fun e => e.core != core),
                     windows := s.windows.eraseIdx idx ++ [{ shut with loaded := true, rows }] })
  ∧ ∀ (s : State) (core : Nat), (∀ w ∈ s.windows, w.core = core → w.closed = true → w.loaded = true) →
    let ws := s.windows.filter fun w => w.core == core && w.closed
    ws.length ≤ 16 →
    let deliver (r : Machine.Row) (g : Group) : Group := match r.trap with
      | none => { g with pend := g.pend.map fun p => if p.work = .neval r.no ∧ r.lane ∈ p.lanes then
          { p with writes := p.writes ++ (List.range r.outs.length).map fun k => (r.lane, r.dst + k, r.outs.getD k 0) } else p }
      | some (c, d) => if ∃ p ∈ g.pend, p.work = .neval r.no ∧ r.lane ∈ p.lanes then
          { g with lanes := g.lanes.mapIdx fun l x =>
              if l = r.lane then { x with neval := x.neval ++ [⟨c, d, r.pc.toNat, r.flag⟩] } else x } else g
    exec (.manifoldPass core) s = .next { s with
      windows := s.windows.filter fun w => !(w.core == core && w.closed)
      groups := ws.foldl (fun gs w => w.rows.foldl (fun gs r =>
        gs.map fun g => if g.core = core ∧ g.slot = r.slot then deliver r g else g) gs) s.groups }

/-- R144 to R146, R156 to R158: one element of a copy: it is read at GADDR and written in the team's window, or read there and
written at GADDR, with the format of its side and the conversion of the copy; a gathering copy reads IDX[i] before the first
element of a row. Its bytes are counted on the copy's barrier object, and with its last element the copy leaves its siphon. Its
descriptor's hint says where L2 keeps what it reads and writes; a bank-mode write goes past L2 where LOC is 0, and is an ordinary
one where LOC is 1. That the elements are moved one at a time in ascending order, and that their bytes count at once, is the
model's choice (assumption log 21). -/
def Obligations.SiphonElements : Prop :=
  ∀ (s v : State) (team idx pos : Nat) (c : Copy) (t : Team) (runs : Runs), copyAt team s.copies idx 0 = some pos →
    s.copies[pos]? = some c → s.team? c.team = some t → c.waitOn = none →
    let d : Desc := c.desc
    let g := fmtBytes (if d.dir = 0 then d.sfmt else d.dfmt)
    let z := fmtBytes (if d.dir = 0 then d.dfmt else d.sfmt)
    let j := c.done % d.e0
    let i := c.done / d.e0 % d.e1
    let k := c.done / (d.e0 * d.e1)
    let row := if d.gather then (if j = 0 then t.rd (d.idxoff + 4 * i) 4 else c.index.getD 0) else i
    let at_ := d.soff + i * d.ss1 + k * d.ss2 + j * z
    let va := (d.gaddr + row * d.gs1 + k * d.gs2 + j * g) % 2 ^ 64
    (d.gather = true → j = 0 → t.spadError (d.idxoff + 4 * i) 4 = false) → (d.gather = true → j ≠ 0 → c.index ≠ none) →
    t.spadError d.baroff 16 = false →
    let more : Copy := { c with done := c.done + 1, index := if d.gather then some row else none }
    let left (s : State) : State :=
      { s with copies := if c.done + 1 < d.e0 * d.e1 * d.e2 then s.copies.set pos more else s.copies.eraseIdx pos }
    let counted (t : Team) : Team :=
      let b := t.bar d.baroff
      let n := fmtBytes d.dfmt
      t.setBar d.baroff (BarObj.complete { b with bpend := (b.bpend + 2 ^ 32 - n % 2 ^ 32) % 2 ^ 32 })
    let check (m : Mode) : Prop := s.engineCheck c.ctx t.launch c.src m va g = .ok (v, runs)
    let hint : Hint := match d.ctl / 2 ^ 26 % 4 with | 0 => .kall | 1 => .kevict | 2 => .kl2 | _ => .knone
    let data := leBytes (c.convert c.done (t.rd at_ z)) g
    (d.dir = 0 → check { kind := .read, tiled := d.tiled, core := c.core } → t.partError at_ z = false →
      let u := (v.homeRuns false runs hint).feedback c.ctx t.launch c.core va runs
      exec (.siphonLand team idx 1) s = .next (left (u.updTeam t.id fun t =>
        counted (t.wr at_ z (c.convert c.done (leNat (s.rdRuns runs)))))))
    ∧ (d.dir = 1 → check { kind := .write, core := c.core } → t.spadError at_ z = false →
      exec (.siphonLand team idx 1) s = .next (left (((v.homeRuns true runs hint).putRuns c.core runs data).updTeam t.id counted)))
    ∧ (d.dir = 2 → check { kind := .write, bank := true, core := c.core } → t.spadError at_ z = false →
      exec (.siphonLand team idx 1) s = .next (left (((runs.foldl (fun u r => if r.2.2.entry[11] then u.homeRuns true [r] else u.throughRuns [r]) v).putRuns c.core
          runs data).updTeam t.id counted)))

/-- R72 to R76, R78, R81: the units of HJ-32B devices, of which both of a clamshell pair receive each command: a load writes 32
bytes of a slot in each, for one call and no other (the first with a block in the bank, by assumption log 84); a stream that an
outstanding call needs, of slots loaded for it and with room, queues in each the result
of every chunk and slot and then its status word; a drain takes words from the head of both queues, words of 0 where there are
none, and the status words among them count in the channel. The case stated of a stream is that in which the device
and L2 have held no other bytes since the last ordinary store to the page (R37, as assumption log 83 reads it). -/
def Obligations.BankUnits : Prop :=
  ∀ (s : State) (die channel bank : Nat), s.namesUnit die channel bank = true →
    let ch := 12 * die + channel
    let u (device : Nat) : BankUnit := s.unit ch device bank
    let both (t : State) (v : Nat → BankUnit) : State :=
      { t with units := v 1 :: v 0 :: s.units.filter fun w => !w.isAt ch 0 bank && !w.isAt ch 1 bank }
    (∀ slot off data, slot < 16 → off < 128 → data.length = 64 →
      exec (.baLoad die channel bank slot off data) s = .next (both s fun device => { u device with
        slots := Store.setAll (u device).slots (4096 * slot + 32 * off) ((data.drop (32 * device)).take 32)
        loaded := ((s.callsIn ch bank).head?.map fun c => (slot, c)).toList ++ (u device).loaded.filter fun e => e.1 != slot }))
    ∧ (∀ r : BankStream, r.die = die → r.channel = channel → r.bank = bank → r.row < 2 ^ 17 → r.vfmt < 2 → r.mfmt < 4 →
      1 ≤ r.count → r.count ≤ 32 → r.first + r.count ≤ (if r.mfmt = 0 then 8 else if r.mfmt = 3 then 30 else 16) →
      1 ≤ r.smask → r.smask < 2 ^ 16 →
      let slots := (List.range 16).filter fun k => r.smask.testBit k
      let pa (device : Nat) : Nat := halfRowAt s.dieCount (ch - s.chanNo 0) device bank r.row
      (∀ device, device < 2 → (u device).queue.length + r.count * slots.length + 1 ≤ 512
        ∧ (∀ k, k < 1024 → s.devByte (pa device + k) = s.rdByte (.dev (pa device + k)))
        ∧ ∀ e ∈ s.past, e.1 / 8 = pa device / 1024 → e.2.length = 128 → e.2 = s.rdBytes (.dev (128 * e.1)) 128) →
      (∃ call ∈ s.callsOn (pa 0), ∀ device, device < 2 → ∀ k ∈ slots, (k, call) ∈ (u device).loaded) →
      let n := if r.mfmt = 0 then 128 else if r.mfmt = 3 then 32 else 64
      let result (device j k : Nat) : Word :=
        let row := s.rdBytes (.dev (pa device)) 1024
        BitVec.ofNat 32 (chunkOf
          ((chunkElems r.mfmt ((row.drop (n * j)).take n) ((row.drop (960 + 2 * j)).take 2)).zipWith prodOf
            ((u device).vector r.vfmt k j)))
      let status (device : Nat) : Nat := 2 ^ 31 + (if (s.ueIn (.dev (pa device)) 1024).isSome then 2 ^ 30 else 0)
        + (if (u device).parity then 2 ^ 29 else 0)
        + Nat.min 255 (s.ce.filter fun b => decide (pa device ≤ b) && decide (b < pa device + 1024)).length
      exec (.baStream r) s = .next (both s fun device => { u device with
        parity := false
        queue := (u device).queue
          ++ ((List.range r.count).map fun j => slots.map fun k => (result device (r.first + j) k, false)).flatten
          ++ [(BitVec.ofNat 32 (status device), true)] }))
    ∧ ∀ words, 1 ≤ words → words ≤ 8 →
      let out (device : Nat) : List (Word × Bool) := (u device).queue.take words
      let status := ((out 0 ++ out 1).filter (·.2)).map fun x => x.1.toNat
      let full (device : Nat) : List Word := (out device).map (·.1) ++ List.replicate (words - (out device).length) 0#32
      ∃ t, exec (.baDrain die channel bank words) s = .next t
        ∧ t.reply = .data ((full 0 ++ full 1).map fun w => leBytes w.toNat 4).flatten
        ∧ t.units = (both s fun device => { u device with queue := (u device).queue.drop words }).units
        ∧ { t with units := s.units, chan := s.chan, reply := s.reply } = s
        ∧ (∀ k, k ≠ ch → t.chan[k]? = s.chan[k]?)
        ∧ (ch < s.chan.length → (t.chan.getD ch {}).cecnt
              = status.foldl (fun n x => Nat.min 0xFFFFFF (n + x % 256)) (s.chan.getD ch {}).cecnt
            ∧ (t.chan.getD ch {}).bafault = ((s.chan.getD ch {}).bafault || status.any fun x => x / 2 ^ 28 % 8 != 0))

/-- R39, R44: a write of `CTX_REPLAY` with FAIL = 0 releases the record that it names, or with ALL = 1 every record that has been
written, and the threads and engines that wait on one go on; with FAIL = 1 the context ends with the record's sub-cause, and that
of the first with ALL = 1. A SEQ that names no written record makes it ignored. That a failed record is not written a second time,
which of several gives the sub-cause, and that SEQ counts only where both its bytes are enabled, are the model's choices
(assumption log 39). -/
def Obligations.Replays : Prop :=
  ∀ (s : State) (n : Nat) (w : Wr) (p : Port) (i : Instr), w.by_ = .port p → s.answers (.port p) (.replay n) = true →
    n < s.ctx.length → i = .ctxReplay n w ∨ i = .ctxReplayFail n w →
    let c := s.ctxAt n
    let all : Bool := w.data.getLsbD 31 && w.en.getLsbD 3
    let acted := c.recs.filter fun r => r.seq.isSome
      && (all || w.en.getLsbD 0 && w.en.getLsbD 1 && r.seq == some (w.data.toNat % 2 ^ 16))
    (acted = [] → exec i s = .next s)
    ∧ ∀ r rest, acted = r :: rest →
      let named (k : Nat) : Bool := acted.any fun r => r.id == k
      let on (x : Option Nat) : Option Nat := if x.any named then none else x
      let waits (x : Lane) : Bool := match x.hold with | .record k => named k | _ => false
      let lane (x : Lane) : Lane := if x.st = .stopped ∧ waits x then { x with st := .ready, hold := .none } else x
      let group (g : Group) : Group := { g with
        lanes := g.lanes.map lane, pend := g.pend.map fun p => { p with waitOn := on p.waitOn }
        trap := if ∃ x ∈ g.lanes, (lane x).st = .stopped then g.trap else none }
      let team (t : Team) : Team := { t with stream := t.stream.map fun m => { m with waitOn := on m.waitOn } }
      let copy (c : Copy) : Copy := { c with waitOn := on c.waitOn }
      let saved (v : Saved) : Saved := { v with teams := v.teams.map team, groups := v.groups.map group, copies := v.copies.map copy }
      (¬ Rules.sets w 30 → ∃ t, exec i s = .next t
        ∧ t.groups = s.groups.map group ∧ t.teams = s.teams.map team ∧ t.copies = s.copies.map copy
        ∧ t.windows = s.windows.map (fun c => { c with waitOn := on c.waitOn })
        ∧ t.saves = s.saves.map saved ∧ t.images = s.images.map saved
        ∧ t.launches = s.launches.map (fun l => { l with waitOn := on l.waitOn, render := l.render.map fun r => { r with
            held := r.held.map fun h => { h with waitOn := on h.waitOn }
            flight := r.flight.map fun f => (f.1, f.2.1, f.2.2.1, on f.2.2.2)
            buckets := r.buckets.map fun b => { b with waitOn := on b.waitOn } } })
        ∧ t.ctxAt n = { c with recs := c.recs.filter fun r => !named r.id
                               sumpWait := on c.sumpWait, lq := c.lq.map fun q => { q with waitOn := on q.waitOn } }
        ∧ { t with groups := s.groups, teams := s.teams, copies := s.copies, windows := s.windows, saves := s.saves
                   images := s.images, launches := s.launches, ctx := s.ctx, cores := s.cores } = s
        ∧ ∀ g ∈ s.groups, (∃ x ∈ g.lanes, waits x = true) → (t.coreAt g.core).ctlPending = true)
      ∧ (Rules.sets w 30 → c.faulted = false → ∃ t, exec i s = .next t ∧ (t.ctxAt n).faulted = true ∧ (t.ctxAt n).fsub = r.sub
        ∧ (t.ctxAt n).recs = [] ∧ t.groups = s.groups.filter (fun g => g.ctx != n)
        ∧ (t.ctxAt n).fatal = (if c.fatal = none then acted.findSome? fun r => r.trap else c.fatal) ∧ t.mem = s.mem)

/-- R174: an instruction that gives the threads of its class a result writes the registers of that result and their program
counters, raises bits of `%fstat` where its rule says so, and leaves everything else as it was, every byte of memory too. -/
def Obligations.RegisterFrame : Prop :=
  ∀ (i : Instr) (d : Nat) (f : State → Nat → List Word × Nat) (s t : State) (g h : Group),
    (∃ k, Rules.integer i = some (.v d, k) ∧ f = fun s l => (k s l, 0))
      ∨ (∃ k, Rules.plain i = some (d, k) ∧ f = fun s l => (k s l, 0))
      ∨ Rules.float i = some (d, f) ∨ Rules.collective i = some (d, f) →
    i.wf = true → s.classReady i → s.grp = some g → exec i s = .next t → t.group? s.cur.core s.cur.slot = some h →
    s.onlyGroups t ∧ (∀ q, t.rdByte q = s.rdByte q)
      ∧ { h with lanes := g.lanes, fstat := g.fstat } = g ∧ h.fstat = s.cur.lanes.foldl (fun a l => a ||| (f s l).2) g.fstat
      ∧ (∀ k ∈ t.groups, k.core = s.cur.core ∧ k.slot = s.cur.slot ∨ k ∈ s.groups)
      ∧ (∀ l, l ∉ s.cur.lanes → h.lane l = g.lane l)
      ∧ ∀ l ∈ s.cur.lanes, Lane.onlyRegs d (f s l).1.length (g.lane l) (h.lane l)

/-- R174, R331, R335, R97, R46: every byte of memory that the threads of a class do not store to is as it was, whatever the class
performs; and a store, to memory or to the team's window, changes nothing but the bytes it names, the program counters and, for
memory, what the caches hold with the errors corrected on the way (R60, R71), what the thread's walks served, or, where its group
holds plain stores back, the stores that stand. Where in its log a contribution is recorded (assumption log 16), that a map byte is
judged as an atomic's (log 17), and that stores may stand (log 4), are the model's choices. -/
def Obligations.StoreFrame : Prop :=
  (∀ (i : Instr) (k : State → Nat → Option (State × Option DWord)) (s u : State), Rules.inTurn i = some k → s.cur.who = .lanes →
    s.cur.lanes ≠ [] → State.inOrder i k s.cur.lanes s = some u →
    let turn (s : State) (l : Nat) : Option State := (k s l).map fun r => r.1.setPc l (r.2.getD s.cur.next)
    exec i s = .next u
    ∧ (∀ q : Place, q.cell ∉ State.touched (Rules.storedAt i) turn s.cur.lanes s → u.rdByte q = s.rdByte q)
    ∧ (∀ t o h a off b, i = .st t o h a off b →
      { u with mem := s.mem, sysMem := s.sysMem, l1 := s.l1, l2 := s.l2, ce := s.ce, chan := s.chan, past := s.past, sysUe := s.sysUe
               misses := s.misses, stores := s.stores, groups := s.groups, cur := s.cur, free := s.free } = s
      ∧ (s.cur.delay = true → o.strong = false → u.mem = s.mem ∧ u.sysMem = s.sysMem ∧ u.l1 = s.l1 ∧ u.l2 = s.l2 ∧ u.past = s.past)
      ∧ (s.cur.delay = false ∨ o.strong = true → u.stores = s.stores)
      ∧ u.chan.map (fun c => { c with cecnt := 0 }) = s.chan.map fun c => { c with cecnt := 0 })
    ∧ (∀ t o a off b, i = .stsp t o a off b →
      { u with teams := s.teams, stores := s.stores, groups := s.groups, cur := s.cur, free := s.free } = s
      ∧ (s.cur.delay = true → o.strong = false → u.teams = s.teams)
      ∧ (s.cur.delay = false ∨ o.strong = true → u.stores = s.stores)
      ∧ (∀ tm, s.myTeam = some tm →
        let rest (x : Team) : Team := if x.id = tm.id then { x with spad := [], badSpad := [] } else x
        u.teams.map rest = s.teams.map rest)
      ∧ ∀ tm tm' n, s.myTeam = some tm → u.team? tm.id = some tm' →
        n ∉ State.touched (fun s l => (List.range t.bytes).map (s.spOff l a off + ·)) turn s.cur.lanes s →
        tm'.spad.get n = tm.spad.get n)
    ∧ ∀ g h, (∃ t o h a off b, i = .st t o h a off b) ∨ (∃ t o a off b, i = .stsp t o a off b) → s.grp = some g →
      u.group? s.cur.core s.cur.slot = some h → g.onlyLanes h ∧ ∀ l, Lane.onlyRegs 0 0 (g.lane l) (h.lane l))
  ∧ ∀ (i : Instr) (f : Nat) (k : State → Nat → Option (State × List (Nat × Word) × Nat)) (s t u : State)
      (ws : List (Nat × Nat × Word)) (fl : Nat), Rules.long i = some (f, k) →
    s.cur.who = .lanes → s.cur.lanes ≠ [] → s.flagFull f = false → State.issueOrder i k s.cur.lanes s = some (t, ws, fl) →
    exec i s = .next u →
    ∀ q : Place, q.cell ∉ State.touched (Rules.storedAt i) (fun s l => (k s l).map fun r => r.1.setPc l s.cur.next) s.cur.lanes s →
      u.rdByte q = s.rdByte q

/-- R29 to R32, R36, R42, R81, R201, R421, R439, R443, R448: after device reset the device primes, every register that the tables
give a reset value reads as it, no context is enabled, the semaphore is free, and no work is in progress. That every byte of memory
reads 0, that the device is a module of two ports with its limit of power, and that a register without a stated reset value, such
as the words of a mailbox message, reads 0 are the model's choices (assumption logs 1, 2 and 3). -/
def Obligations.ResetMachine : Prop :=
  let s := State.reset
  (∀ r p v, Rules.resetValue r = some v → s.readReg (.port p) r = v)
    ∧ s.powered = false ∧ s.stage = .priming ∧ s.mgmt = .free ∧ s.ctx.length = 64 ∧ s.partWin.length = 4 ∧ s.vfmap.length = 16
    ∧ s.ports.length = 2 ∧ s.chan.length = 48
    ∧ (∀ c ∈ s.ctx, c.en = false ∧ c.recs = [] ∧ c.held = [] ∧ c.fatal = none ∧ c.regions = [] ∧ c.lq.length = 4 ∧ c.watch.length = 4)
    ∧ (∀ q ∈ s.ports, q.busy = false ∧ q.mboxBusy = false)
    ∧ s.tlb = [] ∧ s.aptc = [] ∧ s.walk = [] ∧ s.atc = [] ∧ s.l1 = [] ∧ s.l2 = [] ∧ s.past = [] ∧ s.misses = [] ∧ s.stores = [] ∧ s.images = [] ∧ s.groups = [] ∧ s.teams = [] ∧ s.launches = []
    ∧ s.wells = [] ∧ s.sumps = [] ∧ s.copies = [] ∧ s.saves = [] ∧ ∀ q, s.rdByte q = 0

/-- R174, R348, R372: the agent that moves performs the instruction that its words decode to: `step` is `exec` of it, for the
class, the stream or the control core that performs it, at its address; the clause of a class then goes on with its next
instruction, or ends, and what R185, R200 and R225 say is judged. The premises are that the device has not halted (R456), that the
address is one at which an instruction can start (R246), and that no texture read of the threads has still to obtain its values
where the instruction is ordered after it (R115, R117). Where stores that its threads hold back must come before the instruction (R118,
R119; assumption log 4), the step performs those, and not yet the instruction. An appointed event is performed whole. -/
def Obligations.StepRunsDecoded : Prop :=
  ∀ (s : State) (rest : List Act),
    (∀ core pipe i ins more, s.agenda = .lane core pipe :: rest → s.issues.find? (fun i => i.core == core && i.pipe == pipe) = some i →
      decodeFor .lane i.words = .ok (ins, more) → s.stage ≠ .halted →
      (Instr.ordered ins = true → s.unread i.core i.slot i.lanes = false) →
      let next := i.pc + BitVec.ofNat 64 (4 * (i.words.length - more.length))
      let from_ : State := { s with agenda := rest }
      let group (b : HeldByte) : Prop := b.core = i.core ∧ b.slot = i.slot
      let first (b : HeldByte) : Bool := s.before i.core i.slot i.lanes b
      let at_ : State := { from_ with cur := { who := .lanes, core, slot := i.slot, lanes := i.lanes, pc := i.pc, next,
                                               setA := i.setA, setB := i.setB, delay := i.delay || decide (∃ b ∈ s.stores, group b) } }
      let mine (j : Issue) : Bool := j.core == i.core && j.pipe == i.pipe
      (∀ b, first b = true ↔ group b ∧ (b.lane ∈ i.lanes ∨ ∃ c ∈ s.stores, group c ∧ c.shared = true))
      ∧ (Instr.passesStores ins = false → (∃ b ∈ s.stores, first b = true) → step s = .next (State.settle (from_.perform? first)))
      ∧ ((Instr.passesStores ins = true ∨ ∀ b ∈ s.stores, first b = false) →
      (∀ f, exec ins at_ = .fault f → step s = .fault f)
      ∧ ∀ t, exec ins at_ = .next t → (t.group? i.core i.slot).isSome = true →
        (t.cur.fate = .wait → step s = .next t.settle)
        ∧ (t.cur.fate = .go → 1 < i.left → step s = .next (State.settle { t with
            issues := t.issues.map fun j => if mine j then { j with words := more, left := i.left - 1, pc := t.cur.next } else j }))
        ∧ (t.cur.fate = .go → i.left ≤ 1 → ∃ u, step s = .next (State.settle u) ∧ u.issues = t.issues.filter (fun j => !mine j)
            ∧ { u with issues := t.issues, groups := t.groups } = t)
        ∧ (t.cur.fate = .split → ∃ u, step s = .next (State.settle u) ∧ u.issues = t.issues.filter (fun j => !mine j)
            ∧ { u with issues := t.issues, groups := t.groups, misses := t.misses } = t)))
    ∧ (∀ team t m ins more, s.agenda = .stream team :: rest → s.team? team = some t → t.stream = some m → m.st = .running ∨ m.st = .held →
      s.stage ≠ .halted → m.entry.toNat % 4 = 0 → (s.ctxAt t.ctx).saving = false → decodeFor .stream (m.words.drop m.pos) = .ok (ins, more) →
      step s = andSettle (exec ins { s with agenda := rest, cur :=
        { who := .stream, core := t.cores.getD 0 0, slot := team, lanes := [], pc := BitVec.ofNat 64 m.idx,
          next := BitVec.ofNat 64 (m.words.length - more.length) } }))
    ∧ (∀ core ins more, s.agenda = .control core :: rest → s.ctlRuns core = true → (s.coreAt core).ctlPc.toNat % 4 = 0 →
      decodeFor .system (s.ctlWords core) = .ok (ins, more) →
      let pc := (s.coreAt core).ctlPc
      step s = andSettle (exec ins { s with agenda := rest, cur := { who := .control, core, slot := 0, lanes := [], pc
                                                                     next := pc + BitVec.ofNat 64 (4 * ((s.ctlWords core).length - more.length)) } }))
    ∧ ∀ i : Instr, i.isEvent = true → s.agenda = .event i :: rest → step s = andSettle (exec i { s with agenda := rest })

/-- R246 to R264: words that the spec writes out decode to the instructions that it names, and a word whose ORD is reserved is
refused with detail 5. -/
def Obligations.WordsDecode : Prop :=
  decode [0x01C30C08#32] = .ok (.addBase 3 (.v 3) (.v 7), [])
    ∧ decode [0x0100C501#32, 0x06000000#32, 0x02000102#32] = .ok (.ld .n32 (.acq .dev) .kall 12 (.v 4) 16#12 2, [])
    ∧ decode [0x00030086#32, 0xFFFFFFE4#32, 0xFFFFFFFF#32] = .ok (.bnzBase (.v 3) 0xFFFFFFFFFFFFFFE4#64, [])
    ∧ decode [0x0080A115#32, 0x0004B004#32, 0x26000000#32] = .ok (.mad .i32 (.v 10) (.v 2) (.s 4) (.v 300), [])
    ∧ decode [0x0240820D#32, 0x00202C0A#32, 0#32] = .ok (.ffma .f32 .rz 8 (.v 9) (.v 10) (.v 11), [])
    ∧ decode [0x0100A515#32, 0x0E00300B#32, 0x00010001#32] = .ok (.atom .cas .n32 .ar .dev .kall 10 (.v 4) 0#12 (.v 11) (.v 12) 1, [])
    ∧ decode [0x00805C29#32, 3#32, 0x02000000#32] = .ok (.mmul .bf16 false 0 5 2 3, [])
    ∧ decode [0x00801E01#32, 0#32, 0x10000000#32] = .ok (.sysrd 1 (.s 2), [])
    ∧ decode [0x0100C501#32, 0x04000000#32, 0x02000102#32] = .error (.detail 5)

/-- R246 to R264: decoding gives back every instruction of the encoding, with every operand at every value that the encoding
admits, from its encoded words, and leaves the words after them. -/
def Obligations.DecodeEncode : Prop :=
  ∀ (i : Instr) (rest : List Word), i.wf = true → i.isEvent = false → decode (encode i ++ rest) = .ok (i, rest)

/-- At reset the memories stand in their canonical form. -/
def Obligations.MemoryWfReset : Prop := Rules.memories State.reset

/-- Every step keeps the canonical form of the memories, whoever moves: threads, streams, control cores, engines, and hosts. -/
def Obligations.MemoryWfStep : Prop := ∀ s t : State, Rules.memories s → step s = .next t → Rules.memories t

/-- R26, R46 to R48: a tiled load of one thread in a page that is not resident sets the bit of its unit of 64 KiB in the map of the
region that holds it, by an OR of that byte alone; outside every region it sets none, and where the map cannot be written it sets
RFMLOST. That the map byte is translated as an atomic's, and that a page that takes no atomics so loses the bit, is the model's reading
of R22 and R46 (assumption log 17). -/
def Obligations.Residency : Prop :=
  ∀ (t : MTy) (h : Hint) (d : Nat) (a : Src) (off : BitVec 12) (f : Nat) (s : State) (g : Group) (l : Nat) (leaf : Leaf),
    let i : Instr := .ldt t h d a off f
    s.classReady i → s.grp = some g → s.cur.lanes = [l] → s.flagFull f = false → g.ctx < s.ctx.length →
    let va := s.ea l a off
    let c := s.ctxAt s.myCtx
    s.check l .read true va t.bytes 1 (some h) = .ok [(none, t.bytes, leaf)] →
    let holds (r : Region) : Prop := r.base ≤ va ∧ va < r.base + r.size
    ((∀ r, some r ∈ c.regions → ¬ holds r) → ∃ u, exec i s = .next u ∧ (∀ q, u.rdByte q = s.rdByte q) ∧ u.ctxAt s.myCtx = c)
    ∧ ∀ pre post r, c.regions = pre ++ some r :: post → (∀ x, some x ∈ pre → ¬ holds x) → holds r →
      let bitNo := (va - r.base) / 2 ^ 16
      let at_ := (r.map + bitNo / 8) % 2 ^ 64
      (∀ p e, s.translate s.myCtx { kind := .atomic, core := s.cur.core } at_ = .ok p e → ∃ u, exec i s = .next u
        ∧ u.rdByte p = s.rdByte p ||| BitVec.ofNat 8 (2 ^ (bitNo % 8)) ∧ (∀ q : Place, q.cell ≠ p.cell → u.rdByte q = s.rdByte q)
        ∧ u.ctxAt s.myCtx = c)
      ∧ ((∃ e, s.translate s.myCtx { kind := .atomic, core := s.cur.core } at_ = .bad e ∧ e.ue = none)
          ∨ (∃ e, s.translate s.myCtx { kind := .atomic, core := s.cur.core } at_ = .zeros e) →
        ∃ u, exec i s = .next u ∧ (∀ q, u.rdByte q = s.rdByte q) ∧ u.ctxAt s.myCtx = { c with rfmlost := true })

/-- R177, R260, R278, R372: a uniform twin writes its registers once: those of its group for a class of lanes, and the control
core's own on a control core. -/
def Obligations.Twins : Prop := Rules.TwinResults ∧ Rules.ControlCoreTwins

/-- R303, R304, R312 to R318: `fclass`, `fdot2`, `hrand` and the collectives give every thread of a class its result, and change
nothing else but `%fstat` where their rule raises it. -/
def Obligations.LaneResults : Prop := Rules.PlainResults ∧ Rules.CollectiveResults

/-- R274 to R276, R237, R241, R317: what `rds` reads of every special register, and what `wrs` and `part` write. What `%core`
reads where one die runs, and `%clk` on a control core, are the model's choices (assumption logs 32 and 54). -/
def Obligations.SpecialRegisters : Prop := Rules.SpecialReads ∧ Rules.GroupRegisterWrites

/-- R285, R286, R372: where branches and `nop` take the threads of a class, and a control core. -/
def Obligations.BranchTargets : Prop := Rules.Branches ∧ Rules.ControlCoreBranches

/-- R191, R222, R223, R292: `refill` fills the lowest Vacant lanes with the oldest records of its entry, and what a record that
enters a lane makes of it. -/
def Obligations.Refills : Prop := Rules.Refill ∧ Rules.TaskEntry

/-- R13, R79, R88, R190, R288 to R290, R293, R319, R327, R343, R344, R360: the checks that every lane instruction makes of its
registers, and those that its own rule makes; the class that fails one takes its trap and none of the effect. That cause 15 stands
before the checks that R294 lists, and that a `frame` to fewer registers meets an error in a block that it reloads, are the
model's choices (assumption logs 11 and 81). -/
def Obligations.LaneChecks : Prop := Rules.LeadTraps ∧ Rules.RegisterChecks

/-- R181, R283, R329, R330, R334, R335, R357: what a long-latency instruction issues, and that with its flag at 63 it waits. That
memory is read at the issue, and the order among the lines of a class's atomics, are the model's choices (assumption logs 12 and
15). -/
def Obligations.LongIssues : Prop := Rules.LongResults ∧ Rules.FlagFull

/-- R181, R319, R344, R360, R363, R367: lookups, ray queries, matrix-vector calls and `neval` issue to their units with the
operands read at issue. That a lookup reads its texels at its issue is the model's choice (assumption log 13). -/
def Obligations.UnitIssues : Prop := Rules.UnitRequests ∧ Rules.Evaluations

/-- R348, R350 to R355: what every instruction of a matrix stream does to its team, and to the stream. -/
def Obligations.StreamInstructions : Prop := Rules.StreamResults ∧ Rules.StreamLoops

/-- R150, R349, R351, R352, R419, R420, R423: when a stream waits before an instruction, and when it traps. -/
def Obligations.StreamStops : Prop := Rules.StreamHolds ∧ Rules.StreamTraps

/-- R293, R327, R415, R416, R419, R420, R422, R426: `brk`, a watchpoint and every other trap is held for the host or ends its
context; and what the host's command makes of a held trap. Which thread's trap the record shows, with MORE = 0, is the model's
reading (assumption log 60). -/
def Obligations.Traps : Prop := Rules.Breakpoints ∧ Rules.Watchpoints ∧ Rules.TrapsEndContext ∧ Rules.HeldTraps

/-- R38 to R40, R42, R43, R415, R420: a fatal fault ends its context, its record written while the queue has room; a replayable
fault makes a record and holds its threads; records are written to the fault queue in order. What a record's write does at an
uncorrectable error, beside ending the context, is the model's choice (assumption log 78). -/
def Obligations.Faults : Prop := Rules.FatalFaults ∧ Rules.ReplayableFaults ∧ Rules.FaultRecords

/-- R95, R203, R206, R207, R210: what the launch engine reads of a record at a queue's HEAD, and what it makes of it; a launch is
accepted, and retires. Choices of the model: assumption logs 24 and 82. -/
def Obligations.Launches : Prop := Rules.Prerequisites ∧ Rules.RecordRead ∧ Rules.LaunchAcceptance ∧ Rules.Retirement

/-- R320, R321, R322, R344, R368, R369, R370, R402 to R406: what the units answer: a lookup its filtered channels, a ray query its
record, a matrix-vector call its sums. The order of the reads is the model's, and so is that of the lanes. -/
def Obligations.UnitResults : Prop := Rules.TextureResults ∧ Rules.BoxTests ∧ Rules.TriangleTests ∧ Rules.NodeChildren ∧ Rules.TraversalSteps ∧ Rules.RayRecords ∧ Rules.CallResults

/-- R181, R183, R241, R345, R371: a completed long-latency issue writes its registers and counts its flag down; a ray query and a
matrix-vector call take what their unit answers. -/
def Obligations.LongCompletion : Prop := Rules.LongWrites ∧ Rules.UnitCompletions

/-- R191, R197, R208, R209, R213, R214, R216, R226: the engine places teams, clusters of deterministic launches, and every team at
once of a launch with continuations. That the PRIO of a queue counts as LQ_CTL now holds it is the model's reading (assumption log
25). -/
def Obligations.Placement : Prop := Rules.TeamPlacement ∧ Rules.ClusterPlacement ∧ Rules.GridPlacement

/-- R174, R175, R181, R183, R197, R218: a stream that has been fetched begins, and a class issues its clause. -/
def Obligations.WorkBegins : Prop := Rules.StreamBegins ∧ Rules.ClauseIssues

/-- R51, R172, R184, R217, R224, R225: a group that has ended leaves its slot, a team of which nothing is left ends, and a grid
barrier lets go of its threads when every team has arrived. -/
def Obligations.WorkEnds : Prop := Rules.GroupLeaves ∧ Rules.TeamEnds ∧ Rules.GridBarrier

/-- R191, R221, R222: task records form groups, and come from the sump. -/
def Obligations.TaskFlow : Prop := Rules.TaskGroups ∧ Rules.SumpDrains

/-- R32, R60, R61, R64, R86, R109, R119: requests at the home slice of an address, an address that does not exist, and stores held
back performed. That a bare request allocates an L2 line is the model's choice (assumption log 85), and that stores are held back
too (assumption log 4). -/
def Obligations.MemoryRequests : Prop := Rules.HomeSlices ∧ Rules.NoSuchMemory ∧ Rules.StoresPerformed

/-- R79, R80, R410: an uncorrectable error found on a writeback, and one in a cistern. Choice of the model: assumption log 45. -/
def Obligations.UncorrectableErrors : Prop := Rules.ErrorOnWriteback ∧ Rules.CisternErrors

/-- R372, R436, R450: `idle`, and the halt of a control core. Choice of the model: assumption log 70. -/
def Obligations.ControlCores : Prop := Rules.Idles ∧ Rules.ControlCoreHalts

/-- R2, R448, R449, R453: the staged start, and the removal of power. What removal keeps, CLK at the entry into Stage 2, the slot
that becomes active and what memory then reads are the model's choices (assumption logs 53, 49 and 1). -/
def Obligations.PowerStages : Prop := Rules.StagedStart ∧ Rules.PowerRemoved

/-- R454 to R456: the governor of quiet mode, and the thermal guard. The clock that a device halted after Stage 2 takes up again
is the model's choice (assumption log 53). -/
def Obligations.QuietAndThermal : Prop := Rules.Governor ∧ Rules.Thermal

/-- R27, R440, R442, R447: die links, port links, function resets and address translation services. That a physical function's
reset brings its link up, and that a virtual function's acts only while its map is in force and on EN alone, are the model's
choices (assumption logs 52 and 50). -/
def Obligations.LinkEvents : Prop := Rules.DieLinks ∧ Rules.PortEvents ∧ Rules.AddressServices

/-- R24, R91, R443, R444: a host's reads, writes and AtomicOps through an aperture window. -/
def Obligations.HostRequests : Prop := Rules.ApertureRequests ∧ Rules.HostAtomics

/-- R32, R440, R441: the management semaphore, and the windows and maps that it gates. -/
def Obligations.GatedRegisters : Prop := Rules.Semaphore ∧ Rules.Partitions

/-- R27, R30, R31, R42, R45, R201, R202, R211, R221, R421, R443: writes of `CTX_CTRL`, of `CTX_RFMTAB` and of a launch queue's
registers. Choices of the model: assumption logs 50, 66 and 67. -/
def Obligations.ContextBlock : Prop := Rules.ContextControl ∧ Rules.RegionTables ∧ Rules.QueueControl

/-- R10, R438, R439, R442: what a host's write makes of each register that holds it, and of each W1C bit, and a write that covers
two registers. -/
def Obligations.HostRegisters : Prop := Rules.RegisterWrites ∧ Rules.WideWrites

/-- R188, R190, R424, R425: what a debug window shows, and what a write through it changes. The bits of a return entry, and what a
lane's written address is, are the model's choices (assumption log 51). -/
def Obligations.DebugWindow : Prop := Rules.DebugReads ∧ Rules.DebugWrites

/-- R143 to R147, R149, R150, R162 to R165: barrier objects and rings in a team's window. -/
def Obligations.WindowObjects : Prop := Rules.Barriers ∧ Rules.Rings

/-- R235, R236, R239, R240, R298, R299, R301, R302, R307, R308: results are rounded once, the NaNs that operations and conversions
give, and the elements of `lerp`, minima and maxima, comparisons, rounding to integers and conversions from and to integers. -/
def Obligations.Numbers : Prop := Rules.Rounding ∧ Rules.NanResults ∧ Rules.Elements

/-- R243, R244: the sum of products in chunks, and the special values of the special functions. -/
def Obligations.SumsAndSpecials : Prop := Rules.ChunkSums ∧ Rules.SpecialValues

/-- R182 to R186, R190, R286 to R292, R343: meeting addresses, calls, frames, returns, grid barriers and exits change a thread as
their rules say. -/
def Obligations.Threads : Prop := Rules.ThreadEffects ∧ Rules.ThreadEnds

/-- R36, R373, R374, R422, R424, R436, R438, R440: a control core's reads and writes of registers, invalidations, and what it does
with groups. Choices of the model: assumption logs 54, 56, 74 and 75. -/
def Obligations.SystemInstructions : Prop := Rules.SystemRegisters ∧ Rules.GroupControl

/-- R36, R81, R443: invalidation by a host port, and the counters of a channel. Choices of the model: assumption logs 56, 74 and
75. -/
def Obligations.InvalidationsAndCounts : Prop := Rules.Invalidations ∧ Rules.ChannelCounts

/-- R161, R374, R427 to R433, R436: a context is pre-empted, and a control core saves and loads its teams. Choices of the model:
assumption logs 41 and 42. -/
def Obligations.Saves : Prop := Rules.SaveBegins ∧ Rules.SaveCompletes ∧ Rules.CoreSaves

/-- R434: a saved context is restored, and its wellhead records enter. That what is restored is the state that the save took, and
the order in which it enters, are the model's choices (assumption logs 41 and 42). -/
def Obligations.RestoredContexts : Prop := Rules.Restores ∧ Rules.RestoredRecords

/-- R449, R451 to R453: management messages and firmware updates. That an update by vendor message is refused with status 2 is the
model's choice (assumption log 49), and so are those of logs 47, 48 and 77. -/
def Obligations.Management : Prop := Rules.Messages ∧ Rules.FirmwareUpdates

/-- R379 to R382, R384, R387, R389, R392: patches are diced, and the copies of their grids reach the buckets. -/
def Obligations.Grids : Prop := Rules.Dicing ∧ Rules.GridCopies

/-- R386, R388 to R390, R401, R411 to R413: buckets are resolved, committed and stolen. Where the copies of a stolen bucket stay
is the model's reading (assumption log 46). -/
def Obligations.Buckets : Prop := Rules.Resolves ∧ Rules.Commits ∧ Rules.Steals

end
end

