-- ==== Sys2Proof/Laws/State.lean ====
section
/-!
SUPPORT. The fields that each update of the state leaves alone.
-/
namespace Sys2Proof.Machine

/-! ### `State.updCtx` -/
section
variable (s : State) (n : Nat) (f : Ctx → Ctx)
@[simp] theorem State.updCtx_part : (s.updCtx n f).part = s.part := rfl
@[simp] theorem State.updCtx_powered : (s.updCtx n f).powered = s.powered := rfl
@[simp] theorem State.updCtx_stage : (s.updCtx n f).stage = s.stage := rfl
@[simp] theorem State.updCtx_err : (s.updCtx n f).err = s.err := rfl
@[simp] theorem State.updCtx_single : (s.updCtx n f).single = s.single := rfl
@[simp] theorem State.updCtx_therm : (s.updCtx n f).therm = s.therm := rfl
@[simp] theorem State.updCtx_linklost : (s.updCtx n f).linklost = s.linklost := rfl
@[simp] theorem State.updCtx_trip : (s.updCtx n f).trip = s.trip := rfl
@[simp] theorem State.updCtx_dies : (s.updCtx n f).dies = s.dies := rfl
@[simp] theorem State.updCtx_memMib : (s.updCtx n f).memMib = s.memMib := rfl
@[simp] theorem State.updCtx_mgmt : (s.updCtx n f).mgmt = s.mgmt := rfl
@[simp] theorem State.updCtx_quiet : (s.updCtx n f).quiet = s.quiet := rfl
@[simp] theorem State.updCtx_die : (s.updCtx n f).die = s.die := rfl
@[simp] theorem State.updCtx_vfmap : (s.updCtx n f).vfmap = s.vfmap := rfl
@[simp] theorem State.updCtx_ports : (s.updCtx n f).ports = s.ports := rfl
@[simp] theorem State.updCtx_partWin : (s.updCtx n f).partWin = s.partWin := rfl
@[simp] theorem State.updCtx_chan : (s.updCtx n f).chan = s.chan := rfl
@[simp] theorem State.updCtx_ucie : (s.updCtx n f).ucie = s.ucie := rfl
@[simp] theorem State.updCtx_units : (s.updCtx n f).units = s.units := rfl
@[simp] theorem State.updCtx_fw : (s.updCtx n f).fw = s.fw := rfl
@[simp] theorem State.updCtx_code : (s.updCtx n f).code = s.code := rfl
@[simp] theorem State.updCtx_cores : (s.updCtx n f).cores = s.cores := rfl
@[simp] theorem State.updCtx_mem : (s.updCtx n f).mem = s.mem := rfl
@[simp] theorem State.updCtx_sysMem : (s.updCtx n f).sysMem = s.sysMem := rfl
@[simp] theorem State.updCtx_ue : (s.updCtx n f).ue = s.ue := rfl
@[simp] theorem State.updCtx_sysUe : (s.updCtx n f).sysUe = s.sysUe := rfl
@[simp] theorem State.updCtx_ce : (s.updCtx n f).ce = s.ce := rfl
@[simp] theorem State.updCtx_l1 : (s.updCtx n f).l1 = s.l1 := rfl
@[simp] theorem State.updCtx_l2 : (s.updCtx n f).l2 = s.l2 := rfl
@[simp] theorem State.updCtx_past : (s.updCtx n f).past = s.past := rfl
@[simp] theorem State.updCtx_tlb : (s.updCtx n f).tlb = s.tlb := rfl
@[simp] theorem State.updCtx_aptc : (s.updCtx n f).aptc = s.aptc := rfl
@[simp] theorem State.updCtx_walk : (s.updCtx n f).walk = s.walk := rfl
@[simp] theorem State.updCtx_atc : (s.updCtx n f).atc = s.atc := rfl
@[simp] theorem State.updCtx_ats : (s.updCtx n f).ats = s.ats := rfl
@[simp] theorem State.updCtx_pri : (s.updCtx n f).pri = s.pri := rfl
@[simp] theorem State.updCtx_misses : (s.updCtx n f).misses = s.misses := rfl
@[simp] theorem State.updCtx_lines : (s.updCtx n f).lines = s.lines := rfl
@[simp] theorem State.updCtx_launches : (s.updCtx n f).launches = s.launches := rfl
@[simp] theorem State.updCtx_teams : (s.updCtx n f).teams = s.teams := rfl
@[simp] theorem State.updCtx_groups : (s.updCtx n f).groups = s.groups := rfl
@[simp] theorem State.updCtx_wells : (s.updCtx n f).wells = s.wells := rfl
@[simp] theorem State.updCtx_sumps : (s.updCtx n f).sumps = s.sumps := rfl
@[simp] theorem State.updCtx_copies : (s.updCtx n f).copies = s.copies := rfl
@[simp] theorem State.updCtx_windows : (s.updCtx n f).windows = s.windows := rfl
@[simp] theorem State.updCtx_requests : (s.updCtx n f).requests = s.requests := rfl
@[simp] theorem State.updCtx_issues : (s.updCtx n f).issues = s.issues := rfl
@[simp] theorem State.updCtx_stores : (s.updCtx n f).stores = s.stores := rfl
@[simp] theorem State.updCtx_saves : (s.updCtx n f).saves = s.saves := rfl
@[simp] theorem State.updCtx_images : (s.updCtx n f).images = s.images := rfl
@[simp] theorem State.updCtx_cur : (s.updCtx n f).cur = s.cur := rfl
@[simp] theorem State.updCtx_us : (s.updCtx n f).us = s.us := rfl
@[simp] theorem State.updCtx_ids : (s.updCtx n f).ids = s.ids := rfl
@[simp] theorem State.updCtx_free : (s.updCtx n f).free = s.free := rfl
@[simp] theorem State.updCtx_reply : (s.updCtx n f).reply = s.reply := rfl
@[simp] theorem State.updCtx_agenda : (s.updCtx n f).agenda = s.agenda := rfl
end

/-! ### `State.updCore` -/
section
variable (s : State) (c : Nat) (f : CoreState → CoreState)
@[simp] theorem State.updCore_part : (s.updCore c f).part = s.part := rfl
@[simp] theorem State.updCore_powered : (s.updCore c f).powered = s.powered := rfl
@[simp] theorem State.updCore_stage : (s.updCore c f).stage = s.stage := rfl
@[simp] theorem State.updCore_err : (s.updCore c f).err = s.err := rfl
@[simp] theorem State.updCore_single : (s.updCore c f).single = s.single := rfl
@[simp] theorem State.updCore_therm : (s.updCore c f).therm = s.therm := rfl
@[simp] theorem State.updCore_linklost : (s.updCore c f).linklost = s.linklost := rfl
@[simp] theorem State.updCore_trip : (s.updCore c f).trip = s.trip := rfl
@[simp] theorem State.updCore_dies : (s.updCore c f).dies = s.dies := rfl
@[simp] theorem State.updCore_memMib : (s.updCore c f).memMib = s.memMib := rfl
@[simp] theorem State.updCore_mgmt : (s.updCore c f).mgmt = s.mgmt := rfl
@[simp] theorem State.updCore_quiet : (s.updCore c f).quiet = s.quiet := rfl
@[simp] theorem State.updCore_die : (s.updCore c f).die = s.die := rfl
@[simp] theorem State.updCore_vfmap : (s.updCore c f).vfmap = s.vfmap := rfl
@[simp] theorem State.updCore_ports : (s.updCore c f).ports = s.ports := rfl
@[simp] theorem State.updCore_partWin : (s.updCore c f).partWin = s.partWin := rfl
@[simp] theorem State.updCore_chan : (s.updCore c f).chan = s.chan := rfl
@[simp] theorem State.updCore_ucie : (s.updCore c f).ucie = s.ucie := rfl
@[simp] theorem State.updCore_units : (s.updCore c f).units = s.units := rfl
@[simp] theorem State.updCore_fw : (s.updCore c f).fw = s.fw := rfl
@[simp] theorem State.updCore_code : (s.updCore c f).code = s.code := rfl
@[simp] theorem State.updCore_ctx : (s.updCore c f).ctx = s.ctx := rfl
@[simp] theorem State.updCore_mem : (s.updCore c f).mem = s.mem := rfl
@[simp] theorem State.updCore_sysMem : (s.updCore c f).sysMem = s.sysMem := rfl
@[simp] theorem State.updCore_ue : (s.updCore c f).ue = s.ue := rfl
@[simp] theorem State.updCore_sysUe : (s.updCore c f).sysUe = s.sysUe := rfl
@[simp] theorem State.updCore_ce : (s.updCore c f).ce = s.ce := rfl
@[simp] theorem State.updCore_l1 : (s.updCore c f).l1 = s.l1 := rfl
@[simp] theorem State.updCore_l2 : (s.updCore c f).l2 = s.l2 := rfl
@[simp] theorem State.updCore_past : (s.updCore c f).past = s.past := rfl
@[simp] theorem State.updCore_tlb : (s.updCore c f).tlb = s.tlb := rfl
@[simp] theorem State.updCore_aptc : (s.updCore c f).aptc = s.aptc := rfl
@[simp] theorem State.updCore_walk : (s.updCore c f).walk = s.walk := rfl
@[simp] theorem State.updCore_atc : (s.updCore c f).atc = s.atc := rfl
@[simp] theorem State.updCore_ats : (s.updCore c f).ats = s.ats := rfl
@[simp] theorem State.updCore_pri : (s.updCore c f).pri = s.pri := rfl
@[simp] theorem State.updCore_misses : (s.updCore c f).misses = s.misses := rfl
@[simp] theorem State.updCore_lines : (s.updCore c f).lines = s.lines := rfl
@[simp] theorem State.updCore_launches : (s.updCore c f).launches = s.launches := rfl
@[simp] theorem State.updCore_teams : (s.updCore c f).teams = s.teams := rfl
@[simp] theorem State.updCore_groups : (s.updCore c f).groups = s.groups := rfl
@[simp] theorem State.updCore_wells : (s.updCore c f).wells = s.wells := rfl
@[simp] theorem State.updCore_sumps : (s.updCore c f).sumps = s.sumps := rfl
@[simp] theorem State.updCore_copies : (s.updCore c f).copies = s.copies := rfl
@[simp] theorem State.updCore_windows : (s.updCore c f).windows = s.windows := rfl
@[simp] theorem State.updCore_requests : (s.updCore c f).requests = s.requests := rfl
@[simp] theorem State.updCore_issues : (s.updCore c f).issues = s.issues := rfl
@[simp] theorem State.updCore_stores : (s.updCore c f).stores = s.stores := rfl
@[simp] theorem State.updCore_saves : (s.updCore c f).saves = s.saves := rfl
@[simp] theorem State.updCore_images : (s.updCore c f).images = s.images := rfl
@[simp] theorem State.updCore_cur : (s.updCore c f).cur = s.cur := rfl
@[simp] theorem State.updCore_us : (s.updCore c f).us = s.us := rfl
@[simp] theorem State.updCore_ids : (s.updCore c f).ids = s.ids := rfl
@[simp] theorem State.updCore_free : (s.updCore c f).free = s.free := rfl
@[simp] theorem State.updCore_reply : (s.updCore c f).reply = s.reply := rfl
@[simp] theorem State.updCore_agenda : (s.updCore c f).agenda = s.agenda := rfl
end

/-! ### `State.updPort` -/
section
variable (s : State) (p : Port) (f : PortState → PortState)
@[simp] theorem State.updPort_part : (s.updPort p f).part = s.part := rfl
@[simp] theorem State.updPort_powered : (s.updPort p f).powered = s.powered := rfl
@[simp] theorem State.updPort_stage : (s.updPort p f).stage = s.stage := rfl
@[simp] theorem State.updPort_err : (s.updPort p f).err = s.err := rfl
@[simp] theorem State.updPort_single : (s.updPort p f).single = s.single := rfl
@[simp] theorem State.updPort_therm : (s.updPort p f).therm = s.therm := rfl
@[simp] theorem State.updPort_linklost : (s.updPort p f).linklost = s.linklost := rfl
@[simp] theorem State.updPort_trip : (s.updPort p f).trip = s.trip := rfl
@[simp] theorem State.updPort_dies : (s.updPort p f).dies = s.dies := rfl
@[simp] theorem State.updPort_memMib : (s.updPort p f).memMib = s.memMib := rfl
@[simp] theorem State.updPort_mgmt : (s.updPort p f).mgmt = s.mgmt := rfl
@[simp] theorem State.updPort_quiet : (s.updPort p f).quiet = s.quiet := rfl
@[simp] theorem State.updPort_die : (s.updPort p f).die = s.die := rfl
@[simp] theorem State.updPort_vfmap : (s.updPort p f).vfmap = s.vfmap := rfl
@[simp] theorem State.updPort_partWin : (s.updPort p f).partWin = s.partWin := rfl
@[simp] theorem State.updPort_chan : (s.updPort p f).chan = s.chan := rfl
@[simp] theorem State.updPort_ucie : (s.updPort p f).ucie = s.ucie := rfl
@[simp] theorem State.updPort_units : (s.updPort p f).units = s.units := rfl
@[simp] theorem State.updPort_fw : (s.updPort p f).fw = s.fw := rfl
@[simp] theorem State.updPort_code : (s.updPort p f).code = s.code := rfl
@[simp] theorem State.updPort_ctx : (s.updPort p f).ctx = s.ctx := rfl
@[simp] theorem State.updPort_cores : (s.updPort p f).cores = s.cores := rfl
@[simp] theorem State.updPort_mem : (s.updPort p f).mem = s.mem := rfl
@[simp] theorem State.updPort_sysMem : (s.updPort p f).sysMem = s.sysMem := rfl
@[simp] theorem State.updPort_ue : (s.updPort p f).ue = s.ue := rfl
@[simp] theorem State.updPort_sysUe : (s.updPort p f).sysUe = s.sysUe := rfl
@[simp] theorem State.updPort_ce : (s.updPort p f).ce = s.ce := rfl
@[simp] theorem State.updPort_l1 : (s.updPort p f).l1 = s.l1 := rfl
@[simp] theorem State.updPort_l2 : (s.updPort p f).l2 = s.l2 := rfl
@[simp] theorem State.updPort_past : (s.updPort p f).past = s.past := rfl
@[simp] theorem State.updPort_tlb : (s.updPort p f).tlb = s.tlb := rfl
@[simp] theorem State.updPort_aptc : (s.updPort p f).aptc = s.aptc := rfl
@[simp] theorem State.updPort_walk : (s.updPort p f).walk = s.walk := rfl
@[simp] theorem State.updPort_atc : (s.updPort p f).atc = s.atc := rfl
@[simp] theorem State.updPort_ats : (s.updPort p f).ats = s.ats := rfl
@[simp] theorem State.updPort_pri : (s.updPort p f).pri = s.pri := rfl
@[simp] theorem State.updPort_misses : (s.updPort p f).misses = s.misses := rfl
@[simp] theorem State.updPort_lines : (s.updPort p f).lines = s.lines := rfl
@[simp] theorem State.updPort_launches : (s.updPort p f).launches = s.launches := rfl
@[simp] theorem State.updPort_teams : (s.updPort p f).teams = s.teams := rfl
@[simp] theorem State.updPort_groups : (s.updPort p f).groups = s.groups := rfl
@[simp] theorem State.updPort_wells : (s.updPort p f).wells = s.wells := rfl
@[simp] theorem State.updPort_sumps : (s.updPort p f).sumps = s.sumps := rfl
@[simp] theorem State.updPort_copies : (s.updPort p f).copies = s.copies := rfl
@[simp] theorem State.updPort_windows : (s.updPort p f).windows = s.windows := rfl
@[simp] theorem State.updPort_requests : (s.updPort p f).requests = s.requests := rfl
@[simp] theorem State.updPort_issues : (s.updPort p f).issues = s.issues := rfl
@[simp] theorem State.updPort_stores : (s.updPort p f).stores = s.stores := rfl
@[simp] theorem State.updPort_saves : (s.updPort p f).saves = s.saves := rfl
@[simp] theorem State.updPort_images : (s.updPort p f).images = s.images := rfl
@[simp] theorem State.updPort_cur : (s.updPort p f).cur = s.cur := rfl
@[simp] theorem State.updPort_us : (s.updPort p f).us = s.us := rfl
@[simp] theorem State.updPort_ids : (s.updPort p f).ids = s.ids := rfl
@[simp] theorem State.updPort_free : (s.updPort p f).free = s.free := rfl
@[simp] theorem State.updPort_reply : (s.updPort p f).reply = s.reply := rfl
@[simp] theorem State.updPort_agenda : (s.updPort p f).agenda = s.agenda := rfl
end

/-! ### `State.updDie` -/
section
variable (s : State) (d : Nat) (f : Die → Die)
@[simp] theorem State.updDie_part : (s.updDie d f).part = s.part := rfl
@[simp] theorem State.updDie_powered : (s.updDie d f).powered = s.powered := rfl
@[simp] theorem State.updDie_stage : (s.updDie d f).stage = s.stage := rfl
@[simp] theorem State.updDie_err : (s.updDie d f).err = s.err := rfl
@[simp] theorem State.updDie_single : (s.updDie d f).single = s.single := rfl
@[simp] theorem State.updDie_therm : (s.updDie d f).therm = s.therm := rfl
@[simp] theorem State.updDie_linklost : (s.updDie d f).linklost = s.linklost := rfl
@[simp] theorem State.updDie_trip : (s.updDie d f).trip = s.trip := rfl
@[simp] theorem State.updDie_dies : (s.updDie d f).dies = s.dies := rfl
@[simp] theorem State.updDie_memMib : (s.updDie d f).memMib = s.memMib := rfl
@[simp] theorem State.updDie_mgmt : (s.updDie d f).mgmt = s.mgmt := rfl
@[simp] theorem State.updDie_quiet : (s.updDie d f).quiet = s.quiet := rfl
@[simp] theorem State.updDie_vfmap : (s.updDie d f).vfmap = s.vfmap := rfl
@[simp] theorem State.updDie_ports : (s.updDie d f).ports = s.ports := rfl
@[simp] theorem State.updDie_partWin : (s.updDie d f).partWin = s.partWin := rfl
@[simp] theorem State.updDie_chan : (s.updDie d f).chan = s.chan := rfl
@[simp] theorem State.updDie_ucie : (s.updDie d f).ucie = s.ucie := rfl
@[simp] theorem State.updDie_units : (s.updDie d f).units = s.units := rfl
@[simp] theorem State.updDie_fw : (s.updDie d f).fw = s.fw := rfl
@[simp] theorem State.updDie_code : (s.updDie d f).code = s.code := rfl
@[simp] theorem State.updDie_ctx : (s.updDie d f).ctx = s.ctx := rfl
@[simp] theorem State.updDie_cores : (s.updDie d f).cores = s.cores := rfl
@[simp] theorem State.updDie_mem : (s.updDie d f).mem = s.mem := rfl
@[simp] theorem State.updDie_sysMem : (s.updDie d f).sysMem = s.sysMem := rfl
@[simp] theorem State.updDie_ue : (s.updDie d f).ue = s.ue := rfl
@[simp] theorem State.updDie_sysUe : (s.updDie d f).sysUe = s.sysUe := rfl
@[simp] theorem State.updDie_ce : (s.updDie d f).ce = s.ce := rfl
@[simp] theorem State.updDie_l1 : (s.updDie d f).l1 = s.l1 := rfl
@[simp] theorem State.updDie_l2 : (s.updDie d f).l2 = s.l2 := rfl
@[simp] theorem State.updDie_past : (s.updDie d f).past = s.past := rfl
@[simp] theorem State.updDie_tlb : (s.updDie d f).tlb = s.tlb := rfl
@[simp] theorem State.updDie_aptc : (s.updDie d f).aptc = s.aptc := rfl
@[simp] theorem State.updDie_walk : (s.updDie d f).walk = s.walk := rfl
@[simp] theorem State.updDie_atc : (s.updDie d f).atc = s.atc := rfl
@[simp] theorem State.updDie_ats : (s.updDie d f).ats = s.ats := rfl
@[simp] theorem State.updDie_pri : (s.updDie d f).pri = s.pri := rfl
@[simp] theorem State.updDie_misses : (s.updDie d f).misses = s.misses := rfl
@[simp] theorem State.updDie_lines : (s.updDie d f).lines = s.lines := rfl
@[simp] theorem State.updDie_launches : (s.updDie d f).launches = s.launches := rfl
@[simp] theorem State.updDie_teams : (s.updDie d f).teams = s.teams := rfl
@[simp] theorem State.updDie_groups : (s.updDie d f).groups = s.groups := rfl
@[simp] theorem State.updDie_wells : (s.updDie d f).wells = s.wells := rfl
@[simp] theorem State.updDie_sumps : (s.updDie d f).sumps = s.sumps := rfl
@[simp] theorem State.updDie_copies : (s.updDie d f).copies = s.copies := rfl
@[simp] theorem State.updDie_windows : (s.updDie d f).windows = s.windows := rfl
@[simp] theorem State.updDie_requests : (s.updDie d f).requests = s.requests := rfl
@[simp] theorem State.updDie_issues : (s.updDie d f).issues = s.issues := rfl
@[simp] theorem State.updDie_stores : (s.updDie d f).stores = s.stores := rfl
@[simp] theorem State.updDie_saves : (s.updDie d f).saves = s.saves := rfl
@[simp] theorem State.updDie_images : (s.updDie d f).images = s.images := rfl
@[simp] theorem State.updDie_cur : (s.updDie d f).cur = s.cur := rfl
@[simp] theorem State.updDie_us : (s.updDie d f).us = s.us := rfl
@[simp] theorem State.updDie_ids : (s.updDie d f).ids = s.ids := rfl
@[simp] theorem State.updDie_free : (s.updDie d f).free = s.free := rfl
@[simp] theorem State.updDie_reply : (s.updDie d f).reply = s.reply := rfl
@[simp] theorem State.updDie_agenda : (s.updDie d f).agenda = s.agenda := rfl
end

/-! ### `State.updGroup` -/
section
variable (s : State) (c k : Nat) (f : Group → Group)
@[simp] theorem State.updGroup_part : (s.updGroup c k f).part = s.part := rfl
@[simp] theorem State.updGroup_powered : (s.updGroup c k f).powered = s.powered := rfl
@[simp] theorem State.updGroup_stage : (s.updGroup c k f).stage = s.stage := rfl
@[simp] theorem State.updGroup_err : (s.updGroup c k f).err = s.err := rfl
@[simp] theorem State.updGroup_single : (s.updGroup c k f).single = s.single := rfl
@[simp] theorem State.updGroup_therm : (s.updGroup c k f).therm = s.therm := rfl
@[simp] theorem State.updGroup_linklost : (s.updGroup c k f).linklost = s.linklost := rfl
@[simp] theorem State.updGroup_trip : (s.updGroup c k f).trip = s.trip := rfl
@[simp] theorem State.updGroup_dies : (s.updGroup c k f).dies = s.dies := rfl
@[simp] theorem State.updGroup_memMib : (s.updGroup c k f).memMib = s.memMib := rfl
@[simp] theorem State.updGroup_mgmt : (s.updGroup c k f).mgmt = s.mgmt := rfl
@[simp] theorem State.updGroup_quiet : (s.updGroup c k f).quiet = s.quiet := rfl
@[simp] theorem State.updGroup_die : (s.updGroup c k f).die = s.die := rfl
@[simp] theorem State.updGroup_vfmap : (s.updGroup c k f).vfmap = s.vfmap := rfl
@[simp] theorem State.updGroup_ports : (s.updGroup c k f).ports = s.ports := rfl
@[simp] theorem State.updGroup_partWin : (s.updGroup c k f).partWin = s.partWin := rfl
@[simp] theorem State.updGroup_chan : (s.updGroup c k f).chan = s.chan := rfl
@[simp] theorem State.updGroup_ucie : (s.updGroup c k f).ucie = s.ucie := rfl
@[simp] theorem State.updGroup_units : (s.updGroup c k f).units = s.units := rfl
@[simp] theorem State.updGroup_fw : (s.updGroup c k f).fw = s.fw := rfl
@[simp] theorem State.updGroup_code : (s.updGroup c k f).code = s.code := rfl
@[simp] theorem State.updGroup_ctx : (s.updGroup c k f).ctx = s.ctx := rfl
@[simp] theorem State.updGroup_cores : (s.updGroup c k f).cores = s.cores := rfl
@[simp] theorem State.updGroup_mem : (s.updGroup c k f).mem = s.mem := rfl
@[simp] theorem State.updGroup_sysMem : (s.updGroup c k f).sysMem = s.sysMem := rfl
@[simp] theorem State.updGroup_ue : (s.updGroup c k f).ue = s.ue := rfl
@[simp] theorem State.updGroup_sysUe : (s.updGroup c k f).sysUe = s.sysUe := rfl
@[simp] theorem State.updGroup_ce : (s.updGroup c k f).ce = s.ce := rfl
@[simp] theorem State.updGroup_l1 : (s.updGroup c k f).l1 = s.l1 := rfl
@[simp] theorem State.updGroup_l2 : (s.updGroup c k f).l2 = s.l2 := rfl
@[simp] theorem State.updGroup_past : (s.updGroup c k f).past = s.past := rfl
@[simp] theorem State.updGroup_tlb : (s.updGroup c k f).tlb = s.tlb := rfl
@[simp] theorem State.updGroup_aptc : (s.updGroup c k f).aptc = s.aptc := rfl
@[simp] theorem State.updGroup_walk : (s.updGroup c k f).walk = s.walk := rfl
@[simp] theorem State.updGroup_atc : (s.updGroup c k f).atc = s.atc := rfl
@[simp] theorem State.updGroup_ats : (s.updGroup c k f).ats = s.ats := rfl
@[simp] theorem State.updGroup_pri : (s.updGroup c k f).pri = s.pri := rfl
@[simp] theorem State.updGroup_misses : (s.updGroup c k f).misses = s.misses := rfl
@[simp] theorem State.updGroup_lines : (s.updGroup c k f).lines = s.lines := rfl
@[simp] theorem State.updGroup_launches : (s.updGroup c k f).launches = s.launches := rfl
@[simp] theorem State.updGroup_teams : (s.updGroup c k f).teams = s.teams := rfl
@[simp] theorem State.updGroup_wells : (s.updGroup c k f).wells = s.wells := rfl
@[simp] theorem State.updGroup_sumps : (s.updGroup c k f).sumps = s.sumps := rfl
@[simp] theorem State.updGroup_copies : (s.updGroup c k f).copies = s.copies := rfl
@[simp] theorem State.updGroup_windows : (s.updGroup c k f).windows = s.windows := rfl
@[simp] theorem State.updGroup_requests : (s.updGroup c k f).requests = s.requests := rfl
@[simp] theorem State.updGroup_issues : (s.updGroup c k f).issues = s.issues := rfl
@[simp] theorem State.updGroup_stores : (s.updGroup c k f).stores = s.stores := rfl
@[simp] theorem State.updGroup_saves : (s.updGroup c k f).saves = s.saves := rfl
@[simp] theorem State.updGroup_images : (s.updGroup c k f).images = s.images := rfl
@[simp] theorem State.updGroup_cur : (s.updGroup c k f).cur = s.cur := rfl
@[simp] theorem State.updGroup_us : (s.updGroup c k f).us = s.us := rfl
@[simp] theorem State.updGroup_ids : (s.updGroup c k f).ids = s.ids := rfl
@[simp] theorem State.updGroup_free : (s.updGroup c k f).free = s.free := rfl
@[simp] theorem State.updGroup_reply : (s.updGroup c k f).reply = s.reply := rfl
@[simp] theorem State.updGroup_agenda : (s.updGroup c k f).agenda = s.agenda := rfl
end

/-! ### `State.updTeam` -/
section
variable (s : State) (i : Nat) (f : Team → Team)
@[simp] theorem State.updTeam_part : (s.updTeam i f).part = s.part := rfl
@[simp] theorem State.updTeam_powered : (s.updTeam i f).powered = s.powered := rfl
@[simp] theorem State.updTeam_stage : (s.updTeam i f).stage = s.stage := rfl
@[simp] theorem State.updTeam_err : (s.updTeam i f).err = s.err := rfl
@[simp] theorem State.updTeam_single : (s.updTeam i f).single = s.single := rfl
@[simp] theorem State.updTeam_therm : (s.updTeam i f).therm = s.therm := rfl
@[simp] theorem State.updTeam_linklost : (s.updTeam i f).linklost = s.linklost := rfl
@[simp] theorem State.updTeam_trip : (s.updTeam i f).trip = s.trip := rfl
@[simp] theorem State.updTeam_dies : (s.updTeam i f).dies = s.dies := rfl
@[simp] theorem State.updTeam_memMib : (s.updTeam i f).memMib = s.memMib := rfl
@[simp] theorem State.updTeam_mgmt : (s.updTeam i f).mgmt = s.mgmt := rfl
@[simp] theorem State.updTeam_quiet : (s.updTeam i f).quiet = s.quiet := rfl
@[simp] theorem State.updTeam_die : (s.updTeam i f).die = s.die := rfl
@[simp] theorem State.updTeam_vfmap : (s.updTeam i f).vfmap = s.vfmap := rfl
@[simp] theorem State.updTeam_ports : (s.updTeam i f).ports = s.ports := rfl
@[simp] theorem State.updTeam_partWin : (s.updTeam i f).partWin = s.partWin := rfl
@[simp] theorem State.updTeam_chan : (s.updTeam i f).chan = s.chan := rfl
@[simp] theorem State.updTeam_ucie : (s.updTeam i f).ucie = s.ucie := rfl
@[simp] theorem State.updTeam_units : (s.updTeam i f).units = s.units := rfl
@[simp] theorem State.updTeam_fw : (s.updTeam i f).fw = s.fw := rfl
@[simp] theorem State.updTeam_code : (s.updTeam i f).code = s.code := rfl
@[simp] theorem State.updTeam_ctx : (s.updTeam i f).ctx = s.ctx := rfl
@[simp] theorem State.updTeam_cores : (s.updTeam i f).cores = s.cores := rfl
@[simp] theorem State.updTeam_mem : (s.updTeam i f).mem = s.mem := rfl
@[simp] theorem State.updTeam_sysMem : (s.updTeam i f).sysMem = s.sysMem := rfl
@[simp] theorem State.updTeam_ue : (s.updTeam i f).ue = s.ue := rfl
@[simp] theorem State.updTeam_sysUe : (s.updTeam i f).sysUe = s.sysUe := rfl
@[simp] theorem State.updTeam_ce : (s.updTeam i f).ce = s.ce := rfl
@[simp] theorem State.updTeam_l1 : (s.updTeam i f).l1 = s.l1 := rfl
@[simp] theorem State.updTeam_l2 : (s.updTeam i f).l2 = s.l2 := rfl
@[simp] theorem State.updTeam_past : (s.updTeam i f).past = s.past := rfl
@[simp] theorem State.updTeam_tlb : (s.updTeam i f).tlb = s.tlb := rfl
@[simp] theorem State.updTeam_aptc : (s.updTeam i f).aptc = s.aptc := rfl
@[simp] theorem State.updTeam_walk : (s.updTeam i f).walk = s.walk := rfl
@[simp] theorem State.updTeam_atc : (s.updTeam i f).atc = s.atc := rfl
@[simp] theorem State.updTeam_ats : (s.updTeam i f).ats = s.ats := rfl
@[simp] theorem State.updTeam_pri : (s.updTeam i f).pri = s.pri := rfl
@[simp] theorem State.updTeam_misses : (s.updTeam i f).misses = s.misses := rfl
@[simp] theorem State.updTeam_lines : (s.updTeam i f).lines = s.lines := rfl
@[simp] theorem State.updTeam_launches : (s.updTeam i f).launches = s.launches := rfl
@[simp] theorem State.updTeam_groups : (s.updTeam i f).groups = s.groups := rfl
@[simp] theorem State.updTeam_wells : (s.updTeam i f).wells = s.wells := rfl
@[simp] theorem State.updTeam_sumps : (s.updTeam i f).sumps = s.sumps := rfl
@[simp] theorem State.updTeam_copies : (s.updTeam i f).copies = s.copies := rfl
@[simp] theorem State.updTeam_windows : (s.updTeam i f).windows = s.windows := rfl
@[simp] theorem State.updTeam_requests : (s.updTeam i f).requests = s.requests := rfl
@[simp] theorem State.updTeam_issues : (s.updTeam i f).issues = s.issues := rfl
@[simp] theorem State.updTeam_stores : (s.updTeam i f).stores = s.stores := rfl
@[simp] theorem State.updTeam_saves : (s.updTeam i f).saves = s.saves := rfl
@[simp] theorem State.updTeam_images : (s.updTeam i f).images = s.images := rfl
@[simp] theorem State.updTeam_cur : (s.updTeam i f).cur = s.cur := rfl
@[simp] theorem State.updTeam_us : (s.updTeam i f).us = s.us := rfl
@[simp] theorem State.updTeam_ids : (s.updTeam i f).ids = s.ids := rfl
@[simp] theorem State.updTeam_free : (s.updTeam i f).free = s.free := rfl
@[simp] theorem State.updTeam_reply : (s.updTeam i f).reply = s.reply := rfl
@[simp] theorem State.updTeam_agenda : (s.updTeam i f).agenda = s.agenda := rfl
end

/-! ### `State.updLaunch` -/
section
variable (s : State) (i : Nat) (f : Launch → Launch)
@[simp] theorem State.updLaunch_part : (s.updLaunch i f).part = s.part := rfl
@[simp] theorem State.updLaunch_powered : (s.updLaunch i f).powered = s.powered := rfl
@[simp] theorem State.updLaunch_stage : (s.updLaunch i f).stage = s.stage := rfl
@[simp] theorem State.updLaunch_err : (s.updLaunch i f).err = s.err := rfl
@[simp] theorem State.updLaunch_single : (s.updLaunch i f).single = s.single := rfl
@[simp] theorem State.updLaunch_therm : (s.updLaunch i f).therm = s.therm := rfl
@[simp] theorem State.updLaunch_linklost : (s.updLaunch i f).linklost = s.linklost := rfl
@[simp] theorem State.updLaunch_trip : (s.updLaunch i f).trip = s.trip := rfl
@[simp] theorem State.updLaunch_dies : (s.updLaunch i f).dies = s.dies := rfl
@[simp] theorem State.updLaunch_memMib : (s.updLaunch i f).memMib = s.memMib := rfl
@[simp] theorem State.updLaunch_mgmt : (s.updLaunch i f).mgmt = s.mgmt := rfl
@[simp] theorem State.updLaunch_quiet : (s.updLaunch i f).quiet = s.quiet := rfl
@[simp] theorem State.updLaunch_die : (s.updLaunch i f).die = s.die := rfl
@[simp] theorem State.updLaunch_vfmap : (s.updLaunch i f).vfmap = s.vfmap := rfl
@[simp] theorem State.updLaunch_ports : (s.updLaunch i f).ports = s.ports := rfl
@[simp] theorem State.updLaunch_partWin : (s.updLaunch i f).partWin = s.partWin := rfl
@[simp] theorem State.updLaunch_chan : (s.updLaunch i f).chan = s.chan := rfl
@[simp] theorem State.updLaunch_ucie : (s.updLaunch i f).ucie = s.ucie := rfl
@[simp] theorem State.updLaunch_units : (s.updLaunch i f).units = s.units := rfl
@[simp] theorem State.updLaunch_fw : (s.updLaunch i f).fw = s.fw := rfl
@[simp] theorem State.updLaunch_code : (s.updLaunch i f).code = s.code := rfl
@[simp] theorem State.updLaunch_ctx : (s.updLaunch i f).ctx = s.ctx := rfl
@[simp] theorem State.updLaunch_cores : (s.updLaunch i f).cores = s.cores := rfl
@[simp] theorem State.updLaunch_mem : (s.updLaunch i f).mem = s.mem := rfl
@[simp] theorem State.updLaunch_sysMem : (s.updLaunch i f).sysMem = s.sysMem := rfl
@[simp] theorem State.updLaunch_ue : (s.updLaunch i f).ue = s.ue := rfl
@[simp] theorem State.updLaunch_sysUe : (s.updLaunch i f).sysUe = s.sysUe := rfl
@[simp] theorem State.updLaunch_ce : (s.updLaunch i f).ce = s.ce := rfl
@[simp] theorem State.updLaunch_l1 : (s.updLaunch i f).l1 = s.l1 := rfl
@[simp] theorem State.updLaunch_l2 : (s.updLaunch i f).l2 = s.l2 := rfl
@[simp] theorem State.updLaunch_past : (s.updLaunch i f).past = s.past := rfl
@[simp] theorem State.updLaunch_tlb : (s.updLaunch i f).tlb = s.tlb := rfl
@[simp] theorem State.updLaunch_aptc : (s.updLaunch i f).aptc = s.aptc := rfl
@[simp] theorem State.updLaunch_walk : (s.updLaunch i f).walk = s.walk := rfl
@[simp] theorem State.updLaunch_atc : (s.updLaunch i f).atc = s.atc := rfl
@[simp] theorem State.updLaunch_ats : (s.updLaunch i f).ats = s.ats := rfl
@[simp] theorem State.updLaunch_pri : (s.updLaunch i f).pri = s.pri := rfl
@[simp] theorem State.updLaunch_misses : (s.updLaunch i f).misses = s.misses := rfl
@[simp] theorem State.updLaunch_lines : (s.updLaunch i f).lines = s.lines := rfl
@[simp] theorem State.updLaunch_teams : (s.updLaunch i f).teams = s.teams := rfl
@[simp] theorem State.updLaunch_groups : (s.updLaunch i f).groups = s.groups := rfl
@[simp] theorem State.updLaunch_wells : (s.updLaunch i f).wells = s.wells := rfl
@[simp] theorem State.updLaunch_sumps : (s.updLaunch i f).sumps = s.sumps := rfl
@[simp] theorem State.updLaunch_copies : (s.updLaunch i f).copies = s.copies := rfl
@[simp] theorem State.updLaunch_windows : (s.updLaunch i f).windows = s.windows := rfl
@[simp] theorem State.updLaunch_requests : (s.updLaunch i f).requests = s.requests := rfl
@[simp] theorem State.updLaunch_issues : (s.updLaunch i f).issues = s.issues := rfl
@[simp] theorem State.updLaunch_stores : (s.updLaunch i f).stores = s.stores := rfl
@[simp] theorem State.updLaunch_saves : (s.updLaunch i f).saves = s.saves := rfl
@[simp] theorem State.updLaunch_images : (s.updLaunch i f).images = s.images := rfl
@[simp] theorem State.updLaunch_cur : (s.updLaunch i f).cur = s.cur := rfl
@[simp] theorem State.updLaunch_us : (s.updLaunch i f).us = s.us := rfl
@[simp] theorem State.updLaunch_ids : (s.updLaunch i f).ids = s.ids := rfl
@[simp] theorem State.updLaunch_free : (s.updLaunch i f).free = s.free := rfl
@[simp] theorem State.updLaunch_reply : (s.updLaunch i f).reply = s.reply := rfl
@[simp] theorem State.updLaunch_agenda : (s.updLaunch i f).agenda = s.agenda := rfl
end

/-! ### `State.updGrp` -/
section
variable (s : State) (f : Group → Group)
@[simp] theorem State.updGrp_part : (s.updGrp f).part = s.part := rfl
@[simp] theorem State.updGrp_powered : (s.updGrp f).powered = s.powered := rfl
@[simp] theorem State.updGrp_stage : (s.updGrp f).stage = s.stage := rfl
@[simp] theorem State.updGrp_err : (s.updGrp f).err = s.err := rfl
@[simp] theorem State.updGrp_single : (s.updGrp f).single = s.single := rfl
@[simp] theorem State.updGrp_therm : (s.updGrp f).therm = s.therm := rfl
@[simp] theorem State.updGrp_linklost : (s.updGrp f).linklost = s.linklost := rfl
@[simp] theorem State.updGrp_trip : (s.updGrp f).trip = s.trip := rfl
@[simp] theorem State.updGrp_dies : (s.updGrp f).dies = s.dies := rfl
@[simp] theorem State.updGrp_memMib : (s.updGrp f).memMib = s.memMib := rfl
@[simp] theorem State.updGrp_mgmt : (s.updGrp f).mgmt = s.mgmt := rfl
@[simp] theorem State.updGrp_quiet : (s.updGrp f).quiet = s.quiet := rfl
@[simp] theorem State.updGrp_die : (s.updGrp f).die = s.die := rfl
@[simp] theorem State.updGrp_vfmap : (s.updGrp f).vfmap = s.vfmap := rfl
@[simp] theorem State.updGrp_ports : (s.updGrp f).ports = s.ports := rfl
@[simp] theorem State.updGrp_partWin : (s.updGrp f).partWin = s.partWin := rfl
@[simp] theorem State.updGrp_chan : (s.updGrp f).chan = s.chan := rfl
@[simp] theorem State.updGrp_ucie : (s.updGrp f).ucie = s.ucie := rfl
@[simp] theorem State.updGrp_units : (s.updGrp f).units = s.units := rfl
@[simp] theorem State.updGrp_fw : (s.updGrp f).fw = s.fw := rfl
@[simp] theorem State.updGrp_code : (s.updGrp f).code = s.code := rfl
@[simp] theorem State.updGrp_ctx : (s.updGrp f).ctx = s.ctx := rfl
@[simp] theorem State.updGrp_cores : (s.updGrp f).cores = s.cores := rfl
@[simp] theorem State.updGrp_mem : (s.updGrp f).mem = s.mem := rfl
@[simp] theorem State.updGrp_sysMem : (s.updGrp f).sysMem = s.sysMem := rfl
@[simp] theorem State.updGrp_ue : (s.updGrp f).ue = s.ue := rfl
@[simp] theorem State.updGrp_sysUe : (s.updGrp f).sysUe = s.sysUe := rfl
@[simp] theorem State.updGrp_ce : (s.updGrp f).ce = s.ce := rfl
@[simp] theorem State.updGrp_l1 : (s.updGrp f).l1 = s.l1 := rfl
@[simp] theorem State.updGrp_l2 : (s.updGrp f).l2 = s.l2 := rfl
@[simp] theorem State.updGrp_past : (s.updGrp f).past = s.past := rfl
@[simp] theorem State.updGrp_tlb : (s.updGrp f).tlb = s.tlb := rfl
@[simp] theorem State.updGrp_aptc : (s.updGrp f).aptc = s.aptc := rfl
@[simp] theorem State.updGrp_walk : (s.updGrp f).walk = s.walk := rfl
@[simp] theorem State.updGrp_atc : (s.updGrp f).atc = s.atc := rfl
@[simp] theorem State.updGrp_ats : (s.updGrp f).ats = s.ats := rfl
@[simp] theorem State.updGrp_pri : (s.updGrp f).pri = s.pri := rfl
@[simp] theorem State.updGrp_misses : (s.updGrp f).misses = s.misses := rfl
@[simp] theorem State.updGrp_lines : (s.updGrp f).lines = s.lines := rfl
@[simp] theorem State.updGrp_launches : (s.updGrp f).launches = s.launches := rfl
@[simp] theorem State.updGrp_teams : (s.updGrp f).teams = s.teams := rfl
@[simp] theorem State.updGrp_wells : (s.updGrp f).wells = s.wells := rfl
@[simp] theorem State.updGrp_sumps : (s.updGrp f).sumps = s.sumps := rfl
@[simp] theorem State.updGrp_copies : (s.updGrp f).copies = s.copies := rfl
@[simp] theorem State.updGrp_windows : (s.updGrp f).windows = s.windows := rfl
@[simp] theorem State.updGrp_requests : (s.updGrp f).requests = s.requests := rfl
@[simp] theorem State.updGrp_issues : (s.updGrp f).issues = s.issues := rfl
@[simp] theorem State.updGrp_stores : (s.updGrp f).stores = s.stores := rfl
@[simp] theorem State.updGrp_saves : (s.updGrp f).saves = s.saves := rfl
@[simp] theorem State.updGrp_images : (s.updGrp f).images = s.images := rfl
@[simp] theorem State.updGrp_cur : (s.updGrp f).cur = s.cur := rfl
@[simp] theorem State.updGrp_us : (s.updGrp f).us = s.us := rfl
@[simp] theorem State.updGrp_ids : (s.updGrp f).ids = s.ids := rfl
@[simp] theorem State.updGrp_free : (s.updGrp f).free = s.free := rfl
@[simp] theorem State.updGrp_reply : (s.updGrp f).reply = s.reply := rfl
@[simp] theorem State.updGrp_agenda : (s.updGrp f).agenda = s.agenda := rfl
end

/-! ### `State.updLane` -/
section
variable (s : State) (l : Nat) (f : Lane → Lane)
@[simp] theorem State.updLane_part : (s.updLane l f).part = s.part := rfl
@[simp] theorem State.updLane_powered : (s.updLane l f).powered = s.powered := rfl
@[simp] theorem State.updLane_stage : (s.updLane l f).stage = s.stage := rfl
@[simp] theorem State.updLane_err : (s.updLane l f).err = s.err := rfl
@[simp] theorem State.updLane_single : (s.updLane l f).single = s.single := rfl
@[simp] theorem State.updLane_therm : (s.updLane l f).therm = s.therm := rfl
@[simp] theorem State.updLane_linklost : (s.updLane l f).linklost = s.linklost := rfl
@[simp] theorem State.updLane_trip : (s.updLane l f).trip = s.trip := rfl
@[simp] theorem State.updLane_dies : (s.updLane l f).dies = s.dies := rfl
@[simp] theorem State.updLane_memMib : (s.updLane l f).memMib = s.memMib := rfl
@[simp] theorem State.updLane_mgmt : (s.updLane l f).mgmt = s.mgmt := rfl
@[simp] theorem State.updLane_quiet : (s.updLane l f).quiet = s.quiet := rfl
@[simp] theorem State.updLane_die : (s.updLane l f).die = s.die := rfl
@[simp] theorem State.updLane_vfmap : (s.updLane l f).vfmap = s.vfmap := rfl
@[simp] theorem State.updLane_ports : (s.updLane l f).ports = s.ports := rfl
@[simp] theorem State.updLane_partWin : (s.updLane l f).partWin = s.partWin := rfl
@[simp] theorem State.updLane_chan : (s.updLane l f).chan = s.chan := rfl
@[simp] theorem State.updLane_ucie : (s.updLane l f).ucie = s.ucie := rfl
@[simp] theorem State.updLane_units : (s.updLane l f).units = s.units := rfl
@[simp] theorem State.updLane_fw : (s.updLane l f).fw = s.fw := rfl
@[simp] theorem State.updLane_code : (s.updLane l f).code = s.code := rfl
@[simp] theorem State.updLane_ctx : (s.updLane l f).ctx = s.ctx := rfl
@[simp] theorem State.updLane_cores : (s.updLane l f).cores = s.cores := rfl
@[simp] theorem State.updLane_mem : (s.updLane l f).mem = s.mem := rfl
@[simp] theorem State.updLane_sysMem : (s.updLane l f).sysMem = s.sysMem := rfl
@[simp] theorem State.updLane_ue : (s.updLane l f).ue = s.ue := rfl
@[simp] theorem State.updLane_sysUe : (s.updLane l f).sysUe = s.sysUe := rfl
@[simp] theorem State.updLane_ce : (s.updLane l f).ce = s.ce := rfl
@[simp] theorem State.updLane_l1 : (s.updLane l f).l1 = s.l1 := rfl
@[simp] theorem State.updLane_l2 : (s.updLane l f).l2 = s.l2 := rfl
@[simp] theorem State.updLane_past : (s.updLane l f).past = s.past := rfl
@[simp] theorem State.updLane_tlb : (s.updLane l f).tlb = s.tlb := rfl
@[simp] theorem State.updLane_aptc : (s.updLane l f).aptc = s.aptc := rfl
@[simp] theorem State.updLane_walk : (s.updLane l f).walk = s.walk := rfl
@[simp] theorem State.updLane_atc : (s.updLane l f).atc = s.atc := rfl
@[simp] theorem State.updLane_ats : (s.updLane l f).ats = s.ats := rfl
@[simp] theorem State.updLane_pri : (s.updLane l f).pri = s.pri := rfl
@[simp] theorem State.updLane_misses : (s.updLane l f).misses = s.misses := rfl
@[simp] theorem State.updLane_lines : (s.updLane l f).lines = s.lines := rfl
@[simp] theorem State.updLane_launches : (s.updLane l f).launches = s.launches := rfl
@[simp] theorem State.updLane_teams : (s.updLane l f).teams = s.teams := rfl
@[simp] theorem State.updLane_wells : (s.updLane l f).wells = s.wells := rfl
@[simp] theorem State.updLane_sumps : (s.updLane l f).sumps = s.sumps := rfl
@[simp] theorem State.updLane_copies : (s.updLane l f).copies = s.copies := rfl
@[simp] theorem State.updLane_windows : (s.updLane l f).windows = s.windows := rfl
@[simp] theorem State.updLane_requests : (s.updLane l f).requests = s.requests := rfl
@[simp] theorem State.updLane_issues : (s.updLane l f).issues = s.issues := rfl
@[simp] theorem State.updLane_stores : (s.updLane l f).stores = s.stores := rfl
@[simp] theorem State.updLane_saves : (s.updLane l f).saves = s.saves := rfl
@[simp] theorem State.updLane_images : (s.updLane l f).images = s.images := rfl
@[simp] theorem State.updLane_cur : (s.updLane l f).cur = s.cur := rfl
@[simp] theorem State.updLane_us : (s.updLane l f).us = s.us := rfl
@[simp] theorem State.updLane_ids : (s.updLane l f).ids = s.ids := rfl
@[simp] theorem State.updLane_free : (s.updLane l f).free = s.free := rfl
@[simp] theorem State.updLane_reply : (s.updLane l f).reply = s.reply := rfl
@[simp] theorem State.updLane_agenda : (s.updLane l f).agenda = s.agenda := rfl
end

/-! ### `State.setPc` -/
section
variable (s : State) (l : Nat) (pc : DWord)
@[simp] theorem State.setPc_part : (s.setPc l pc).part = s.part := rfl
@[simp] theorem State.setPc_powered : (s.setPc l pc).powered = s.powered := rfl
@[simp] theorem State.setPc_stage : (s.setPc l pc).stage = s.stage := rfl
@[simp] theorem State.setPc_err : (s.setPc l pc).err = s.err := rfl
@[simp] theorem State.setPc_single : (s.setPc l pc).single = s.single := rfl
@[simp] theorem State.setPc_therm : (s.setPc l pc).therm = s.therm := rfl
@[simp] theorem State.setPc_linklost : (s.setPc l pc).linklost = s.linklost := rfl
@[simp] theorem State.setPc_trip : (s.setPc l pc).trip = s.trip := rfl
@[simp] theorem State.setPc_dies : (s.setPc l pc).dies = s.dies := rfl
@[simp] theorem State.setPc_memMib : (s.setPc l pc).memMib = s.memMib := rfl
@[simp] theorem State.setPc_mgmt : (s.setPc l pc).mgmt = s.mgmt := rfl
@[simp] theorem State.setPc_quiet : (s.setPc l pc).quiet = s.quiet := rfl
@[simp] theorem State.setPc_die : (s.setPc l pc).die = s.die := rfl
@[simp] theorem State.setPc_vfmap : (s.setPc l pc).vfmap = s.vfmap := rfl
@[simp] theorem State.setPc_ports : (s.setPc l pc).ports = s.ports := rfl
@[simp] theorem State.setPc_partWin : (s.setPc l pc).partWin = s.partWin := rfl
@[simp] theorem State.setPc_chan : (s.setPc l pc).chan = s.chan := rfl
@[simp] theorem State.setPc_ucie : (s.setPc l pc).ucie = s.ucie := rfl
@[simp] theorem State.setPc_units : (s.setPc l pc).units = s.units := rfl
@[simp] theorem State.setPc_fw : (s.setPc l pc).fw = s.fw := rfl
@[simp] theorem State.setPc_code : (s.setPc l pc).code = s.code := rfl
@[simp] theorem State.setPc_ctx : (s.setPc l pc).ctx = s.ctx := rfl
@[simp] theorem State.setPc_cores : (s.setPc l pc).cores = s.cores := rfl
@[simp] theorem State.setPc_mem : (s.setPc l pc).mem = s.mem := rfl
@[simp] theorem State.setPc_sysMem : (s.setPc l pc).sysMem = s.sysMem := rfl
@[simp] theorem State.setPc_ue : (s.setPc l pc).ue = s.ue := rfl
@[simp] theorem State.setPc_sysUe : (s.setPc l pc).sysUe = s.sysUe := rfl
@[simp] theorem State.setPc_ce : (s.setPc l pc).ce = s.ce := rfl
@[simp] theorem State.setPc_l1 : (s.setPc l pc).l1 = s.l1 := rfl
@[simp] theorem State.setPc_l2 : (s.setPc l pc).l2 = s.l2 := rfl
@[simp] theorem State.setPc_past : (s.setPc l pc).past = s.past := rfl
@[simp] theorem State.setPc_tlb : (s.setPc l pc).tlb = s.tlb := rfl
@[simp] theorem State.setPc_aptc : (s.setPc l pc).aptc = s.aptc := rfl
@[simp] theorem State.setPc_walk : (s.setPc l pc).walk = s.walk := rfl
@[simp] theorem State.setPc_atc : (s.setPc l pc).atc = s.atc := rfl
@[simp] theorem State.setPc_ats : (s.setPc l pc).ats = s.ats := rfl
@[simp] theorem State.setPc_pri : (s.setPc l pc).pri = s.pri := rfl
@[simp] theorem State.setPc_misses : (s.setPc l pc).misses = s.misses := rfl
@[simp] theorem State.setPc_lines : (s.setPc l pc).lines = s.lines := rfl
@[simp] theorem State.setPc_launches : (s.setPc l pc).launches = s.launches := rfl
@[simp] theorem State.setPc_teams : (s.setPc l pc).teams = s.teams := rfl
@[simp] theorem State.setPc_wells : (s.setPc l pc).wells = s.wells := rfl
@[simp] theorem State.setPc_sumps : (s.setPc l pc).sumps = s.sumps := rfl
@[simp] theorem State.setPc_copies : (s.setPc l pc).copies = s.copies := rfl
@[simp] theorem State.setPc_windows : (s.setPc l pc).windows = s.windows := rfl
@[simp] theorem State.setPc_requests : (s.setPc l pc).requests = s.requests := rfl
@[simp] theorem State.setPc_issues : (s.setPc l pc).issues = s.issues := rfl
@[simp] theorem State.setPc_stores : (s.setPc l pc).stores = s.stores := rfl
@[simp] theorem State.setPc_saves : (s.setPc l pc).saves = s.saves := rfl
@[simp] theorem State.setPc_images : (s.setPc l pc).images = s.images := rfl
@[simp] theorem State.setPc_cur : (s.setPc l pc).cur = s.cur := rfl
@[simp] theorem State.setPc_us : (s.setPc l pc).us = s.us := rfl
@[simp] theorem State.setPc_ids : (s.setPc l pc).ids = s.ids := rfl
@[simp] theorem State.setPc_free : (s.setPc l pc).free = s.free := rfl
@[simp] theorem State.setPc_reply : (s.setPc l pc).reply = s.reply := rfl
@[simp] theorem State.setPc_agenda : (s.setPc l pc).agenda = s.agenda := rfl
end

/-! ### `State.withFate` -/
section
variable (s : State) (f : Fate)
@[simp] theorem State.withFate_part : (s.withFate f).part = s.part := rfl
@[simp] theorem State.withFate_powered : (s.withFate f).powered = s.powered := rfl
@[simp] theorem State.withFate_stage : (s.withFate f).stage = s.stage := rfl
@[simp] theorem State.withFate_err : (s.withFate f).err = s.err := rfl
@[simp] theorem State.withFate_single : (s.withFate f).single = s.single := rfl
@[simp] theorem State.withFate_therm : (s.withFate f).therm = s.therm := rfl
@[simp] theorem State.withFate_linklost : (s.withFate f).linklost = s.linklost := rfl
@[simp] theorem State.withFate_trip : (s.withFate f).trip = s.trip := rfl
@[simp] theorem State.withFate_dies : (s.withFate f).dies = s.dies := rfl
@[simp] theorem State.withFate_memMib : (s.withFate f).memMib = s.memMib := rfl
@[simp] theorem State.withFate_mgmt : (s.withFate f).mgmt = s.mgmt := rfl
@[simp] theorem State.withFate_quiet : (s.withFate f).quiet = s.quiet := rfl
@[simp] theorem State.withFate_die : (s.withFate f).die = s.die := rfl
@[simp] theorem State.withFate_vfmap : (s.withFate f).vfmap = s.vfmap := rfl
@[simp] theorem State.withFate_ports : (s.withFate f).ports = s.ports := rfl
@[simp] theorem State.withFate_partWin : (s.withFate f).partWin = s.partWin := rfl
@[simp] theorem State.withFate_chan : (s.withFate f).chan = s.chan := rfl
@[simp] theorem State.withFate_ucie : (s.withFate f).ucie = s.ucie := rfl
@[simp] theorem State.withFate_units : (s.withFate f).units = s.units := rfl
@[simp] theorem State.withFate_fw : (s.withFate f).fw = s.fw := rfl
@[simp] theorem State.withFate_code : (s.withFate f).code = s.code := rfl
@[simp] theorem State.withFate_ctx : (s.withFate f).ctx = s.ctx := rfl
@[simp] theorem State.withFate_cores : (s.withFate f).cores = s.cores := rfl
@[simp] theorem State.withFate_mem : (s.withFate f).mem = s.mem := rfl
@[simp] theorem State.withFate_sysMem : (s.withFate f).sysMem = s.sysMem := rfl
@[simp] theorem State.withFate_ue : (s.withFate f).ue = s.ue := rfl
@[simp] theorem State.withFate_sysUe : (s.withFate f).sysUe = s.sysUe := rfl
@[simp] theorem State.withFate_ce : (s.withFate f).ce = s.ce := rfl
@[simp] theorem State.withFate_l1 : (s.withFate f).l1 = s.l1 := rfl
@[simp] theorem State.withFate_l2 : (s.withFate f).l2 = s.l2 := rfl
@[simp] theorem State.withFate_past : (s.withFate f).past = s.past := rfl
@[simp] theorem State.withFate_tlb : (s.withFate f).tlb = s.tlb := rfl
@[simp] theorem State.withFate_aptc : (s.withFate f).aptc = s.aptc := rfl
@[simp] theorem State.withFate_walk : (s.withFate f).walk = s.walk := rfl
@[simp] theorem State.withFate_atc : (s.withFate f).atc = s.atc := rfl
@[simp] theorem State.withFate_ats : (s.withFate f).ats = s.ats := rfl
@[simp] theorem State.withFate_pri : (s.withFate f).pri = s.pri := rfl
@[simp] theorem State.withFate_misses : (s.withFate f).misses = s.misses := rfl
@[simp] theorem State.withFate_lines : (s.withFate f).lines = s.lines := rfl
@[simp] theorem State.withFate_launches : (s.withFate f).launches = s.launches := rfl
@[simp] theorem State.withFate_teams : (s.withFate f).teams = s.teams := rfl
@[simp] theorem State.withFate_groups : (s.withFate f).groups = s.groups := rfl
@[simp] theorem State.withFate_wells : (s.withFate f).wells = s.wells := rfl
@[simp] theorem State.withFate_sumps : (s.withFate f).sumps = s.sumps := rfl
@[simp] theorem State.withFate_copies : (s.withFate f).copies = s.copies := rfl
@[simp] theorem State.withFate_windows : (s.withFate f).windows = s.windows := rfl
@[simp] theorem State.withFate_requests : (s.withFate f).requests = s.requests := rfl
@[simp] theorem State.withFate_issues : (s.withFate f).issues = s.issues := rfl
@[simp] theorem State.withFate_stores : (s.withFate f).stores = s.stores := rfl
@[simp] theorem State.withFate_saves : (s.withFate f).saves = s.saves := rfl
@[simp] theorem State.withFate_images : (s.withFate f).images = s.images := rfl
@[simp] theorem State.withFate_us : (s.withFate f).us = s.us := rfl
@[simp] theorem State.withFate_ids : (s.withFate f).ids = s.ids := rfl
@[simp] theorem State.withFate_free : (s.withFate f).free = s.free := rfl
@[simp] theorem State.withFate_reply : (s.withFate f).reply = s.reply := rfl
@[simp] theorem State.withFate_agenda : (s.withFate f).agenda = s.agenda := rfl
end

/-! ### `State.orFstat` -/
section
variable (s : State) (n : Nat)
@[simp] theorem State.orFstat_part : (s.orFstat n).part = s.part := rfl
@[simp] theorem State.orFstat_powered : (s.orFstat n).powered = s.powered := rfl
@[simp] theorem State.orFstat_stage : (s.orFstat n).stage = s.stage := rfl
@[simp] theorem State.orFstat_err : (s.orFstat n).err = s.err := rfl
@[simp] theorem State.orFstat_single : (s.orFstat n).single = s.single := rfl
@[simp] theorem State.orFstat_therm : (s.orFstat n).therm = s.therm := rfl
@[simp] theorem State.orFstat_linklost : (s.orFstat n).linklost = s.linklost := rfl
@[simp] theorem State.orFstat_trip : (s.orFstat n).trip = s.trip := rfl
@[simp] theorem State.orFstat_dies : (s.orFstat n).dies = s.dies := rfl
@[simp] theorem State.orFstat_memMib : (s.orFstat n).memMib = s.memMib := rfl
@[simp] theorem State.orFstat_mgmt : (s.orFstat n).mgmt = s.mgmt := rfl
@[simp] theorem State.orFstat_quiet : (s.orFstat n).quiet = s.quiet := rfl
@[simp] theorem State.orFstat_die : (s.orFstat n).die = s.die := rfl
@[simp] theorem State.orFstat_vfmap : (s.orFstat n).vfmap = s.vfmap := rfl
@[simp] theorem State.orFstat_ports : (s.orFstat n).ports = s.ports := rfl
@[simp] theorem State.orFstat_partWin : (s.orFstat n).partWin = s.partWin := rfl
@[simp] theorem State.orFstat_chan : (s.orFstat n).chan = s.chan := rfl
@[simp] theorem State.orFstat_ucie : (s.orFstat n).ucie = s.ucie := rfl
@[simp] theorem State.orFstat_units : (s.orFstat n).units = s.units := rfl
@[simp] theorem State.orFstat_fw : (s.orFstat n).fw = s.fw := rfl
@[simp] theorem State.orFstat_code : (s.orFstat n).code = s.code := rfl
@[simp] theorem State.orFstat_ctx : (s.orFstat n).ctx = s.ctx := rfl
@[simp] theorem State.orFstat_cores : (s.orFstat n).cores = s.cores := rfl
@[simp] theorem State.orFstat_mem : (s.orFstat n).mem = s.mem := rfl
@[simp] theorem State.orFstat_sysMem : (s.orFstat n).sysMem = s.sysMem := rfl
@[simp] theorem State.orFstat_ue : (s.orFstat n).ue = s.ue := rfl
@[simp] theorem State.orFstat_sysUe : (s.orFstat n).sysUe = s.sysUe := rfl
@[simp] theorem State.orFstat_ce : (s.orFstat n).ce = s.ce := rfl
@[simp] theorem State.orFstat_l1 : (s.orFstat n).l1 = s.l1 := rfl
@[simp] theorem State.orFstat_l2 : (s.orFstat n).l2 = s.l2 := rfl
@[simp] theorem State.orFstat_past : (s.orFstat n).past = s.past := rfl
@[simp] theorem State.orFstat_tlb : (s.orFstat n).tlb = s.tlb := rfl
@[simp] theorem State.orFstat_aptc : (s.orFstat n).aptc = s.aptc := rfl
@[simp] theorem State.orFstat_walk : (s.orFstat n).walk = s.walk := rfl
@[simp] theorem State.orFstat_atc : (s.orFstat n).atc = s.atc := rfl
@[simp] theorem State.orFstat_ats : (s.orFstat n).ats = s.ats := rfl
@[simp] theorem State.orFstat_pri : (s.orFstat n).pri = s.pri := rfl
@[simp] theorem State.orFstat_misses : (s.orFstat n).misses = s.misses := rfl
@[simp] theorem State.orFstat_lines : (s.orFstat n).lines = s.lines := rfl
@[simp] theorem State.orFstat_launches : (s.orFstat n).launches = s.launches := rfl
@[simp] theorem State.orFstat_teams : (s.orFstat n).teams = s.teams := rfl
@[simp] theorem State.orFstat_wells : (s.orFstat n).wells = s.wells := rfl
@[simp] theorem State.orFstat_sumps : (s.orFstat n).sumps = s.sumps := rfl
@[simp] theorem State.orFstat_copies : (s.orFstat n).copies = s.copies := rfl
@[simp] theorem State.orFstat_windows : (s.orFstat n).windows = s.windows := rfl
@[simp] theorem State.orFstat_requests : (s.orFstat n).requests = s.requests := rfl
@[simp] theorem State.orFstat_issues : (s.orFstat n).issues = s.issues := rfl
@[simp] theorem State.orFstat_stores : (s.orFstat n).stores = s.stores := rfl
@[simp] theorem State.orFstat_saves : (s.orFstat n).saves = s.saves := rfl
@[simp] theorem State.orFstat_images : (s.orFstat n).images = s.images := rfl
@[simp] theorem State.orFstat_cur : (s.orFstat n).cur = s.cur := rfl
@[simp] theorem State.orFstat_us : (s.orFstat n).us = s.us := rfl
@[simp] theorem State.orFstat_ids : (s.orFstat n).ids = s.ids := rfl
@[simp] theorem State.orFstat_free : (s.orFstat n).free = s.free := rfl
@[simp] theorem State.orFstat_reply : (s.orFstat n).reply = s.reply := rfl
@[simp] theorem State.orFstat_agenda : (s.orFstat n).agenda = s.agenda := rfl
end

/-! ### The fields of an instruction that keep through its fate -/

@[simp] theorem State.withFate_who (s : State) (f : Fate) : (s.withFate f).cur.who = s.cur.who := rfl
@[simp] theorem State.withFate_core (s : State) (f : Fate) : (s.withFate f).cur.core = s.cur.core := rfl
@[simp] theorem State.withFate_slot (s : State) (f : Fate) : (s.withFate f).cur.slot = s.cur.slot := rfl
@[simp] theorem State.withFate_lanes (s : State) (f : Fate) : (s.withFate f).cur.lanes = s.cur.lanes := rfl
@[simp] theorem State.withFate_pc (s : State) (f : Fate) : (s.withFate f).cur.pc = s.cur.pc := rfl
@[simp] theorem State.withFate_next (s : State) (f : Fate) : (s.withFate f).cur.next = s.cur.next := rfl
@[simp] theorem State.withFate_fate (s : State) (f : Fate) : (s.withFate f).cur.fate = f := rfl

end Sys2Proof.Machine
end

