-- ==== Sys2Proof/Laws/Update.lean ====
section
/-!
SUPPORT. What reads back after one core, context, die or element of a list is changed, and that two changes of the same one are one.
-/
namespace Sys2Proof.Machine

/-! ### A register set of a core, a context, a die, a port changed -/

theorem Assoc.get_set_same {κ α : Type} [DecidableEq κ] (l : List (κ × α)) (k : κ) (v d : α) :
    Assoc.get (Assoc.set l k v) k d = v := by simp [Assoc.get, Assoc.set]
theorem Assoc.get_set_other {κ α : Type} [DecidableEq κ] (l : List (κ × α)) {j k : κ} (v d : α) (h : j ≠ k) :
    Assoc.get (Assoc.set l k v) j d = Assoc.get l j d := by
  have h' : ¬k = j := fun e => h e.symm
  simp only [Assoc.get, Assoc.set, List.find?_cons, h', decide_false]
  congr 1
  induction l with
  | nil => rfl
  | cons a r ih =>
    simp only [List.filter_cons, List.find?_cons]
    by_cases ha : a.1 = j
    · have : a.1 ≠ k := fun e => h (ha ▸ e)
      simp [ha, h]
    · by_cases hk : a.1 = k
      · simpa [hk, h', ha] using ih
      · simpa [hk, ha] using ih
theorem Assoc.set_set {κ α : Type} [DecidableEq κ] (l : List (κ × α)) (k : κ) (v w : α) :
    Assoc.set (Assoc.set l k v) k w = Assoc.set l k w := by
  simp [Assoc.set, List.filter_filter]

theorem updAt_getD_same {α : Type} {l : List α} {i : Nat} (f : α → α) (d : α) (h : i < l.length) :
    (updAt l i f).getD i d = f (l.getD i d) := by simp [updAt, List.getD_eq_getElem?_getD, h]
theorem updAt_getD_other {α : Type} {l : List α} {i j : Nat} (f : α → α) (d : α) (h : j ≠ i) :
    (updAt l i f).getD j d = l.getD j d := by
  have : i ≠ j := fun e => h e.symm
  simp [updAt, List.getD_eq_getElem?_getD, this]
@[simp] theorem updAt_length {α : Type} (l : List α) (i : Nat) (f : α → α) : (updAt l i f).length = l.length := by simp [updAt]
theorem updAt_updAt {α : Type} (l : List α) (i : Nat) (f g : α → α) : updAt (updAt l i f) i g = updAt l i fun x => g (f x) := by
  simp only [updAt, List.modify_modify_eq]; rfl
theorem updAt_id {α : Type} (l : List α) (i : Nat) : updAt l i (fun x => x) = l := List.modify_id ..
theorem updAt_congr {α : Type} {l : List α} {i : Nat} {f g : α → α} (d : α) (h : i < l.length → f (l.getD i d) = g (l.getD i d)) :
    updAt l i f = updAt l i g := by
  apply List.ext_getElem?
  intro k
  simp only [updAt, List.getElem?_modify]
  cases hk : l[k]? with
  | none => rfl
  | some x =>
    by_cases e : i = k
    · subst e
      have hl := (List.getElem?_eq_some_iff.1 hk).1
      have := h hl
      simp only [List.getD_eq_getElem?_getD, hk, Option.getD_some] at this
      simp [this]
    · simp [e]
theorem updAt_const {α : Type} (l : List α) (i : Nat) (x : α) : updAt l i (fun _ => x) = l.set i x := by
  apply List.ext_getElem?
  intro k
  simp only [updAt, List.getElem?_modify, List.getElem?_set]
  by_cases e : i = k
  · subst e; by_cases h : i < l.length <;> simp [h]
  · cases l[k]? <;> simp [e]

theorem State.coreAt_updCore_same (s : State) (c : Nat) (f : CoreState → CoreState) : (s.updCore c f).coreAt c = f (s.coreAt c) :=
  Assoc.get_set_same ..
theorem State.coreAt_updCore_other {s : State} {c d : Nat} (f : CoreState → CoreState) (h : d ≠ c) :
    (s.updCore c f).coreAt d = s.coreAt d := Assoc.get_set_other _ _ _ h
theorem State.updCore_updCore (s : State) (c : Nat) (f g : CoreState → CoreState) :
    (s.updCore c f).updCore c g = s.updCore c fun x => g (f x) := by
  simp only [State.updCore, State.coreAt, Assoc.set_set, Assoc.get_set_same]
theorem State.ctxAt_updCtx_same {s : State} {n : Nat} (f : Ctx → Ctx) (h : n < s.ctx.length) : (s.updCtx n f).ctxAt n = f (s.ctxAt n) :=
  updAt_getD_same f {} h
theorem State.ctxAt_updCtx_other {s : State} {n m : Nat} (f : Ctx → Ctx) (h : m ≠ n) : (s.updCtx n f).ctxAt m = s.ctxAt m :=
  updAt_getD_other f {} h
theorem State.updCtx_updCtx (s : State) (n : Nat) (f g : Ctx → Ctx) : (s.updCtx n f).updCtx n g = s.updCtx n fun x => g (f x) := by
  simp only [State.updCtx, updAt_updAt]
theorem State.updCtx_congr {s : State} {n : Nat} {f g : Ctx → Ctx} (h : n < s.ctx.length → f (s.ctxAt n) = g (s.ctxAt n)) :
    s.updCtx n f = s.updCtx n g := by
  simp only [State.updCtx]
  rw [updAt_congr {} h]
theorem State.dieAt_updDie_same {s : State} {d : Nat} (f : Die → Die) (h : d < s.die.length) : (s.updDie d f).dieAt d = f (s.dieAt d) :=
  updAt_getD_same f _ h
theorem State.dieAt_updDie_other {s : State} {d e : Nat} (f : Die → Die) (h : e ≠ d) : (s.updDie d f).dieAt e = s.dieAt e :=
  updAt_getD_other f _ h

end Sys2Proof.Machine
end

