-- ==== Sys2Proof/Laws/End.lean ====
section
/-!
SUPPORT. The end of a context (R39): what it makes of the context, and what it leaves of everything else.
-/
namespace Sys2Proof.Machine

/-- Signals to control cores change nothing but the cores. -/
theorem State.signals_eq (ls : List Nat) (s : State) : ∃ cs, ls.foldl State.signal s = { s with cores := cs } := by
  induction ls generalizing s with
  | nil => exact ⟨s.cores, rfl⟩
  | cons l ls ih =>
    obtain ⟨cs, h⟩ := ih (s.signal l)
    exact ⟨cs, by rw [List.foldl_cons, h]; rfl⟩

/-- Shown records change nothing but the cores. -/
theorem State.showOthers_eq (ls : List Nat) (s : State) : ∃ cs, ls.foldl State.showOthers s = { s with cores := cs } := by
  induction ls generalizing s with
  | nil => exact ⟨s.cores, rfl⟩
  | cons l ls ih =>
    obtain ⟨c1, h1⟩ : ∃ cs, s.showOthers l = { s with cores := cs } := by
      unfold State.showOthers
      split
      · exact ⟨s.cores, rfl⟩
      · split
        · unfold State.showHeld; split
          · exact ⟨_, rfl⟩
          · exact ⟨s.cores, rfl⟩
        · exact ⟨s.cores, rfl⟩
    obtain ⟨cs, h⟩ := ih (s.showOthers l)
    exact ⟨cs, by rw [List.foldl_cons, h, h1]⟩

/-- A context that has ended (R39, R31). -/
def Ctx.ended (c : Ctx) (sub : Nat) : Ctx :=
  if c.faulted then c.drained else { c.drained with faulted := true, fsub := sub }

/-- All that the end of a context leaves: the records of other contexts, and every register but the context's own. -/
theorem State.endContext_eq (s : State) (n sub : Nat) : ∃ cs,
    s.endContext n sub = { s with
      groups := s.groups.filter fun g => g.ctx != n
      teams := s.teams.filter fun t => t.ctx != n
      launches := s.launches.filter fun l => l.ctx != n
      wells := s.wells.filter fun w => !(match s.team? w.2.team with | some t => t.ctx == n | none => false)
      sumps := s.sumps.filter fun w => w.1 != n
      copies := s.copies.filter fun c => c.ctx != n
      windows := s.windows.filter fun w => w.ctx != n
      requests := s.requests.filter fun r => r.ctx != n
      issues := s.issues.filter fun i => !((s.groups.filter fun g => g.ctx == n).map fun g => (g.core, g.slot)).contains (i.core, i.slot)
      saves := s.saves.filter fun v => v.ctx != n
      images := s.images.filter fun v => v.ctx != n
      pri := s.pri.filter fun p => p.1 != n
      atc := s.atc.filter fun e => !(e.ctx == n && e.target.isNone)
      ats := s.ats.filter fun e => e.2.1 != n
      misses := s.misses.filter fun m => m.ctx != n
      cores := cs
      ctx := updAt s.ctx n fun c => c.ended sub } := by
  obtain ⟨cs, h⟩ := State.signals_eq (s.coresOf n) s
  simp only [State.endContext, State.drain, h, State.updCtx]
  rw [(State.showOthers_eq (s.coresOf n) _).choose_spec]
  simp only [updAt_updAt]
  exact ⟨_, rfl⟩

theorem State.endContext_ctx (s : State) (n sub : Nat) : (s.endContext n sub).ctx = updAt s.ctx n fun c => c.ended sub := by
  obtain ⟨cs, h⟩ := s.endContext_eq n sub; rw [h]
theorem State.endContext_ctxAt_same {s : State} {n : Nat} (sub : Nat) (h : n < s.ctx.length) :
    (s.endContext n sub).ctxAt n = (s.ctxAt n).ended sub := by
  rw [State.ctxAt, State.endContext_ctx]; exact updAt_getD_same _ _ h
theorem State.endContext_ctxAt_other {s : State} {n k : Nat} (sub : Nat) (h : k ≠ n) : (s.endContext n sub).ctxAt k = s.ctxAt k := by
  rw [State.ctxAt, State.endContext_ctx]; exact updAt_getD_other _ _ h

@[simp] theorem Ctx.ended_en (c : Ctx) (sub : Nat) : (c.ended sub).en = c.en := by
  simp only [Ctx.ended]; split <;> rfl
@[simp] theorem Ctx.ended_faulted (c : Ctx) (sub : Nat) : (c.ended sub).faulted = true := by
  simp only [Ctx.ended]; split
  · assumption
  · rfl
theorem Ctx.ended_fsub {c : Ctx} (sub : Nat) (h : c.faulted = false) : (c.ended sub).fsub = sub := by simp [Ctx.ended, h]
theorem Ctx.ended_fsub_kept {c : Ctx} (sub : Nat) (h : c.faulted = true) : (c.ended sub).fsub = c.fsub := by simp [Ctx.ended, h, Ctx.drained]
@[simp] theorem Ctx.ended_ctrl (c : Ctx) (sub : Nat) : (c.ended sub).ctrl = c.ctrl := by simp only [Ctx.ended]; split <;> rfl
@[simp] theorem Ctx.ended_fatal (c : Ctx) (sub : Nat) : (c.ended sub).fatal = c.fatal := by simp only [Ctx.ended]; split <;> rfl
@[simp] theorem Ctx.ended_recs (c : Ctx) (sub : Nat) : (c.ended sub).recs = [] := by simp only [Ctx.ended]; split <;> rfl

/-- Contexts ended one after another: each of them has ended, and no other has changed. -/
theorem State.endAll_ctxAt (ns : List Nat) : ∀ (s : State), ns.Nodup → (∀ n ∈ ns, n < s.ctx.length) →
    (ns.foldl (fun s n => s.endContext n 0) s).ctx.length = s.ctx.length
    ∧ (∀ n ∈ ns, (ns.foldl (fun s n => s.endContext n 0) s).ctxAt n = (s.ctxAt n).ended 0)
    ∧ ∀ n, n ∉ ns → (ns.foldl (fun s n => s.endContext n 0) s).ctxAt n = s.ctxAt n := by
  induction ns with
  | nil => intro s _ _; simp
  | cons a r ih =>
    intro s hn hl
    rw [List.nodup_cons] at hn
    have hlen : (s.endContext a 0).ctx.length = s.ctx.length := by rw [State.endContext_ctx, updAt_length]
    obtain ⟨h1, h2, h3⟩ := ih (s.endContext a 0) hn.2 fun n h => by rw [hlen]; exact hl n (by simp [h])
    rw [List.foldl_cons]
    refine ⟨h1.trans hlen, ?_, ?_⟩
    · intro n h
      rcases List.mem_cons.1 h with rfl | h
      · rw [h3 _ hn.1]; exact State.endContext_ctxAt_same 0 (hl _ (by simp))
      · have : n ≠ a := fun e => hn.1 (e ▸ h)
        rw [h2 n h, State.endContext_ctxAt_other 0 this]
    · intro n h
      simp only [List.mem_cons, not_or] at h
      rw [h3 n h.2, State.endContext_ctxAt_other 0 h.1]

/-- What stays of the rest when contexts end: the memories and the device's own registers, and only groups that no ended context had. -/
theorem State.endAll_rest (ns : List Nat) : ∀ s : State, let t := ns.foldl (fun s n => s.endContext n 0) s
    t.mem = s.mem ∧ t.sysMem = s.sysMem ∧ t.chan = s.chan ∧ t.die = s.die ∧ t.quiet = s.quiet ∧ t.stage = s.stage ∧ t.ucie = s.ucie
    ∧ t.therm = s.therm ∧ t.linklost = s.linklost ∧ t.part = s.part ∧ t.partWin = s.partWin ∧ t.single = s.single ∧ t.dies = s.dies
    ∧ (∀ g, g ∈ t.groups ↔ g ∈ s.groups ∧ g.ctx ∉ ns) ∧ (∀ m, m ∈ t.teams ↔ m ∈ s.teams ∧ m.ctx ∉ ns) := by
  induction ns with
  | nil => intro s; simp
  | cons a r ih =>
    intro s
    obtain ⟨cs, h⟩ := s.endContext_eq a 0
    have ih := ih (s.endContext a 0)
    simp only [List.foldl_cons]
    refine ⟨ih.1.trans (by rw [h]), ih.2.1.trans (by rw [h]), ih.2.2.1.trans (by rw [h]), ih.2.2.2.1.trans (by rw [h]), ih.2.2.2.2.1.trans (by rw [h]),
      ih.2.2.2.2.2.1.trans (by rw [h]), ih.2.2.2.2.2.2.1.trans (by rw [h]), ih.2.2.2.2.2.2.2.1.trans (by rw [h]),
      ih.2.2.2.2.2.2.2.2.1.trans (by rw [h]), ih.2.2.2.2.2.2.2.2.2.1.trans (by rw [h]), ih.2.2.2.2.2.2.2.2.2.2.1.trans (by rw [h]),
      ih.2.2.2.2.2.2.2.2.2.2.2.1.trans (by rw [h]), ih.2.2.2.2.2.2.2.2.2.2.2.2.1.trans (by rw [h]), fun g => ?_, fun m => ?_⟩
    · rw [ih.2.2.2.2.2.2.2.2.2.2.2.2.2.1, h]
      simp only [List.mem_filter, bne_iff_ne, List.mem_cons, not_or, and_assoc]
    · rw [ih.2.2.2.2.2.2.2.2.2.2.2.2.2.2, h]
      simp only [List.mem_filter, bne_iff_ne, List.mem_cons, not_or, and_assoc]

end Sys2Proof.Machine
end

