-- ==== Sys2Proof/Laws/Groups.lean ====
section
/-!
SUPPORT. The laws of the class runners (R174, R177): what a class that performs an instruction leaves behind, said once for
every instruction whose threads change nothing but themselves, and once for those performed in order.
-/
namespace Sys2Proof.Machine

/-! ### Groups and lanes -/

theorem Group.isAt_updLane (g : Group) (l : Nat) (f : Lane → Lane) (c k : Nat) : (g.updLane l f).isAt c k = g.isAt c k := rfl

/-- A change of a group that keeps its place is read back. -/
theorem State.group?_updGroup {s : State} {c k : Nat} {g : Group} {f : Group → Group} (h : s.group? c k = some g)
    (hf : ∀ g, (f g).isAt c k = g.isAt c k) : (s.updGroup c k f).group? c k = some (f g) := by
  simp only [State.group?, State.updGroup] at *
  revert h
  induction s.groups with
  | nil => intro h; simp at h
  | cons a r ih =>
    intro h
    simp only [List.map_cons, List.find?_cons] at *
    by_cases ha : a.isAt c k
    · simp only [ha, Option.some.injEq] at h
      subst h
      simp [ha, hf]
    · simp only [ha] at h
      simp [ha, ih h]

theorem State.grp_updGrp {s : State} {g : Group} {f : Group → Group} (h : s.grp = some g)
    (hf : ∀ g, (f g).isAt s.cur.core s.cur.slot = g.isAt s.cur.core s.cur.slot) : (s.updGrp f).grp = some (f g) :=
  State.group?_updGroup h hf

/-- Two changes of the same groups are one. -/
theorem State.updGroup_updGroup (s : State) (c k : Nat) (f g : Group → Group) (hf : ∀ x, (f x).isAt c k = x.isAt c k) :
    (s.updGroup c k f).updGroup c k g = s.updGroup c k fun x => g (f x) := by
  simp only [State.updGroup, List.map_map]
  congr 1
  apply List.map_congr_left
  intro x _
  by_cases hx : x.isAt c k <;> simp [Function.comp, hx, hf]

theorem State.updGrp_updGrp (s : State) (f g : Group → Group)
    (hf : ∀ x, (f x).isAt s.cur.core s.cur.slot = x.isAt s.cur.core s.cur.slot) :
    (s.updGrp f).updGrp g = s.updGrp fun x => g (f x) := State.updGroup_updGroup s _ _ f g hf

theorem State.updGrp_congr {s : State} {f g : Group → Group} (h : ∀ x ∈ s.groups, f x = g x) : s.updGrp f = s.updGrp g := by
  simp only [State.updGrp, State.updGroup]
  congr 1
  exact List.map_congr_left fun x hx => by rw [h x hx]

theorem State.updGrp_id (s : State) : s.updGrp id = s := by
  simp [State.updGrp, State.updGroup]

theorem State.lane_of_grp {s : State} {g : Group} (h : s.grp = some g) (l : Nat) : s.lane l = g.lane l := by
  simp [State.lane, h]

/-! ### A class whose threads change only themselves -/

/-- The lanes of `done` have performed. -/
def Group.upto (F : Nat → Lane → Lane) (done : List Nat) (g : Group) : Group :=
  { g with lanes := g.lanes.mapIdx fun l t => if l ∈ done then F l t else t }

def State.upto (s : State) (F : Nat → Lane → Lane) (done : List Nat) : State := s.updGrp (Group.upto F done)

theorem Group.upto_nil (F : Nat → Lane → Lane) (g : Group) : g.upto F [] = g := by
  simp [Group.upto, List.mapIdx_eq_zipIdx_map]

theorem State.upto_nil (s : State) (F : Nat → Lane → Lane) : s.upto F [] = s := by
  simp only [State.upto]
  rw [State.updGrp_congr (g := id) fun x _ => Group.upto_nil F x, State.updGrp_id]

@[simp] theorem State.upto_cur (s : State) (F : Nat → Lane → Lane) (done : List Nat) : (s.upto F done).cur = s.cur := rfl

theorem Group.lane_upto {F : Nat → Lane → Lane} {done : List Nat} {g : Group} {l : Nat} (h : l ∉ done) :
    (g.upto F done).lane l = g.lane l := by
  simp only [Group.lane, Group.upto, List.getD_eq_getElem?_getD, List.getElem?_mapIdx]
  cases g.lanes[l]? <;> simp [h]

theorem Group.lane_upto_mem {F : Nat → Lane → Lane} {done : List Nat} {g : Group} {l : Nat} (h : l ∈ done)
    (hl : l < g.lanes.length) : (g.upto F done).lane l = F l (g.lane l) := by
  simp only [Group.lane, Group.upto, List.getD_eq_getElem?_getD, List.getElem?_mapIdx]
  simp [hl, h]

/-- One more thread performs. -/
theorem Group.upto_updLane (F : Nat → Lane → Lane) (done : List Nat) (g : Group) (l : Nat) (h : l ∉ done) :
    (g.upto F done).updLane l (F l) = g.upto F (done ++ [l]) := by
  simp only [Group.upto, Group.updLane, updAt]
  congr 1
  apply List.ext_getElem?
  intro k
  simp only [List.getElem?_modify, List.getElem?_mapIdx]
  cases hk : g.lanes[k]? with
  | none => simp
  | some t =>
    by_cases hkl : l = k
    · subst hkl; simp [h]
    · have : k ≠ l := fun h => hkl h.symm
      simp [hkl, this]

theorem State.upto_updLane (s : State) (F : Nat → Lane → Lane) (done : List Nat) (l : Nat) (h : l ∉ done) :
    (s.upto F done).updLane l (F l) = s.upto F (done ++ [l]) := by
  show (s.updGrp (Group.upto F done)).updGrp (fun g => g.updLane l (F l)) = _
  rw [State.updGrp_updGrp s (Group.upto F done) _ fun _ => rfl]
  exact State.updGrp_congr fun x _ => Group.upto_updLane F done x l h

theorem State.lane_upto {s : State} {F : Nat → Lane → Lane} {done : List Nat} {l : Nat} (h : l ∉ done) :
    (s.upto F done).lane l = s.lane l := by
  simp only [State.lane]
  cases hg : s.grp with
  | some g =>
    rw [show (s.upto F done).grp = some (g.upto F done) from State.grp_updGrp hg fun _ => rfl]
    exact Group.lane_upto h
  | none =>
    have : (s.upto F done).grp = none := by
      simp only [State.grp, State.group?, State.upto, State.updGrp, State.updGroup, List.find?_eq_none, List.mem_map] at *
      rintro x ⟨y, hy, rfl⟩
      have := hg y hy
      by_cases hc : y.isAt s.cur.core s.cur.slot
      · exact absurd hc this
      · simp [hc]
    rw [this]

theorem State.eachLane_eq (s : State) (F : Nat → Lane → Lane) : s.eachLane F = (s.upto F s.cur.lanes).withFate .go := rfl

/-- Whether a thread meets an uncorrectable error, after a change of the group that keeps that thread and the uniform registers. -/
theorem State.meetsError_updGrp {s : State} {g : Group} {f : Group → Group} {l : Nat} (i : Instr) (h : s.grp = some g)
    (hf : ∀ x, (f x).isAt s.cur.core s.cur.slot = x.isAt s.cur.core s.cur.slot) (h1 : (f g).lane l = g.lane l) (h2 : (f g).badUni = g.badUni) (h3 : (f g).role = g.role)
    (h4 : (f g).team = g.team) : (s.updGrp f).meetsError l i = s.meetsError l i := by
  have hg : (s.updGrp f).grp = some (f g) := State.grp_updGrp h hf
  have e1 : (s.updGrp f).cur = s.cur := rfl
  have e2 : ∀ k, (s.updGrp f).team? k = s.team? k := fun _ => rfl
  simp only [State.meetsError, State.uniError, State.role, State.myRole, State.myTeam, State.lane, hg, h, e1, e2, h1, h4]
  cases s.cur.who <;> cases s.team? g.team <;> simp [h2, h3]

theorem State.grp_upto {s : State} {F : Nat → Lane → Lane} {done : List Nat} {g : Group} (h : s.grp = some g) :
    (s.upto F done).grp = some (g.upto F done) := State.grp_updGrp h fun _ => rfl

theorem State.meetsError_upto {s : State} {F : Nat → Lane → Lane} {done : List Nat} {g : Group} {l : Nat} {i : Instr}
    (h : s.grp = some g) (hl : l ∉ done) : (s.upto F done).meetsError l i = s.meetsError l i :=
  State.meetsError_updGrp i h (fun _ => rfl) (Group.lane_upto hl) rfl rfl rfl

theorem State.meetsError_orFstat {s : State} {g : Group} {l n : Nat} {i : Instr} (h : s.grp = some g) :
    (s.orFstat n).meetsError l i = s.meetsError l i :=
  State.meetsError_updGrp i h (fun _ => rfl) rfl rfl rfl rfl

/-- The runner on the threads `ls`, those of `done` having performed. -/
theorem runLanes_upto (i : Instr) (body : Nat → State → Res) (F : Nat → Lane → Lane) (s s0 : State) (g : Group)
    (hg : s.grp = some g) :
    ∀ (ls done : List Nat), (done ++ ls).Nodup →
      (∀ l ∈ ls, s.sound l i) →
      (∀ l ∈ ls, ∀ done, l ∉ done → ∃ s' to_, body l (s.upto F done) = .ok s' to_ ∧
        s'.setPc l (to_.getD s.cur.next) = (s.upto F done).updLane l (F l)) →
      runLanes i body s0 ls (s.upto F done) = (s.upto F (done ++ ls)).withFate .go := by
  intro ls
  induction ls with
  | nil => intro done _ _ _; simp [runLanes]
  | cons l ls ih =>
    intro done hn hs hb
    have hl : l ∉ done := fun h => (List.disjoint_of_nodup_append hn) h (by simp)
    obtain ⟨hf, he⟩ := hs l (by simp)
    obtain ⟨s', to_, h1, h2⟩ := hb l (by simp) done hl
    simp only [runLanes, State.lane_upto hl, State.meetsError_upto hg hl, hf, he, h1, Bool.not_true, Bool.false_eq_true, if_false]
    rw [show (s.upto F done).cur.next = s.cur.next from rfl, h2, State.upto_updLane s F done l hl,
      ih (done ++ [l]) (by simpa using hn) (fun k hk => hs k (by simp [hk])) (fun k hk => hb k (by simp [hk]))]
    simp

/-- A class of threads each of which changes only itself, as `F` says. -/
theorem perLane_eachLane {i : Instr} {body : Nat → State → Res} {F : Nat → Lane → Lane} {s : State}
    (hr : s.classReady i)
    (hb : ∀ l ∈ s.cur.lanes, ∀ done, l ∉ done → ∃ s' to_, body l (s.upto F done) = .ok s' to_ ∧
      s'.setPc l (to_.getD s.cur.next) = (s.upto F done).updLane l (F l)) :
    perLane i body s = s.eachLane F := by
  obtain ⟨-, -, hn, g, hg, hs⟩ := hr
  have h := runLanes_upto i body F s s g hg s.cur.lanes [] (by simpa using hn)
    (fun l hl => (hs l hl).2) hb
  rw [State.upto_nil] at h
  rw [perLane, h, State.eachLane_eq]
  simp

/-! ### Registers of the threads that have not performed yet -/

theorem State.uni_upto {s : State} {F : Nat → Lane → Lane} {done : List Nat} {g : Group} (h : s.grp = some g) (n : Nat) :
    (s.upto F done).uni n = s.uni n := by
  simp only [State.uni, State.upto_cur, h, State.grp_upto h]
  cases s.cur.who <;> rfl

/-- A source reads the same whether or not other threads have performed. -/
theorem State.reg_upto {s : State} {F : Nat → Lane → Lane} {done : List Nat} {g : Group} (h : s.grp = some g) {l : Nat}
    (hl : l ∉ done) (x : Src) (k : Nat) : (s.upto F done).reg l x k = s.reg l x k := by
  cases x with
  | v n => simp [State.reg, State.lane_upto hl]
  | s n => simp [State.reg, State.uni_upto h]
  | lit w => rfl

theorem State.pair_upto {s : State} {F : Nat → Lane → Lane} {done : List Nat} {g : Group} (h : s.grp = some g) {l : Nat}
    (hl : l ∉ done) (x : Src) : (s.upto F done).pair l x = s.pair l x := by
  simp [State.pair, State.reg_upto h hl]

theorem State.arg_upto {s : State} {F : Nat → Lane → Lane} {done : List Nat} {g : Group} (h : s.grp = some g) {l : Nat}
    (hl : l ∉ done) (x : Src) (n : Nat) : (s.upto F done).arg l x n = s.arg l x n := by
  simp [State.arg, State.pair_upto h hl, State.reg_upto h hl]

theorem State.int_upto {s : State} {F : Nat → Lane → Lane} {done : List Nat} {g : Group} (h : s.grp = some g) {l : Nat}
    (hl : l ∉ done) (t : ITy) (x : Src) : (s.upto F done).int t l x = s.int t l x := by
  simp [State.int, State.arg_upto h hl]

theorem State.ibits_upto {s : State} {F : Nat → Lane → Lane} {done : List Nat} {g : Group} (h : s.grp = some g) {l : Nat}
    (hl : l ∉ done) (t : ITy) (x : Src) : (s.upto F done).ibits t l x = s.ibits t l x := by
  simp [State.ibits, State.arg_upto h hl]

theorem State.count_upto {s : State} {F : Nat → Lane → Lane} {done : List Nat} {g : Group} (h : s.grp = some g) {l : Nat}
    (hl : l ∉ done) (x : Src) : (s.upto F done).count l x = s.count l x := by
  simp [State.count, State.reg_upto h hl]

/-! ### Results written -/

theorem Group.updLane_updLane (g : Group) (l : Nat) (f h : Lane → Lane) :
    (g.updLane l f).updLane l h = g.updLane l fun t => h (f t) := by
  simp only [Group.updLane, updAt]
  congr 1
  rw [List.modify_modify_eq]
  rfl

theorem State.updLane_updLane (s : State) (l : Nat) (f h : Lane → Lane) :
    (s.updLane l f).updLane l h = s.updLane l fun t => h (f t) := by
  show (s.updGrp _).updGrp _ = s.updGrp _
  rw [State.updGrp_updGrp s (fun g => g.updLane l f) _ fun _ => rfl]
  exact State.updGrp_congr fun x _ => Group.updLane_updLane x l f h

theorem Group.updLane_id (g : Group) (l : Nat) : g.updLane l (fun t => t) = g := by
  simp only [Group.updLane, updAt]
  congr 1
  exact List.modify_id ..

theorem State.updLane_id (s : State) (l : Nat) : s.updLane l (fun t => t) = s := by
  have : s.updLane l (fun t => t) = s.updGrp id := State.updGrp_congr fun x _ => Group.updLane_id x l
  rw [this, State.updGrp_id]

/-- Registers written one after another are one change of the thread. -/
theorem State.setVs_eq (s : State) (l d : Nat) (xs : List Word) : s.setVs l d xs = s.updLane l fun t => t.setVs d xs := by
  induction xs generalizing s d with
  | nil => exact (State.updLane_id s l).symm
  | cons x xs ih =>
    simp only [State.setVs, State.setV, Lane.setVs]
    rw [ih, State.updLane_updLane]

theorem State.setVs_setPc (s : State) (l d : Nat) (xs : List Word) (pc : DWord) :
    (s.setVs l d xs).setPc l pc = s.updLane l fun t => (t.setVs d xs).passed pc := by
  rw [State.setVs_eq, State.setPc, State.updLane_updLane]; rfl

/-- A result computed for each thread of a class from registers that no other thread writes. -/
theorem compute_vector {i : Instr} {d : Nat} {f : State → Nat → List Word} {s : State} (hr : s.classReady i)
    (hf : ∀ l ∈ s.cur.lanes, ∀ F done, l ∉ done → f (s.upto F done) l = f s l) :
    compute i (.v d) f s = s.eachLane fun l t => (t.setVs d (f s l)).passed s.cur.next := by
  simp only [compute]
  refine perLane_eachLane hr fun l hl done hd => ⟨_, _, rfl, ?_⟩
  rw [hf l hl _ done hd]
  exact State.setVs_setPc _ _ _ _ _

/-! ### A class whose threads change only themselves and raise status bits, R241 -/

theorem State.orFstat_zero (s : State) : s.orFstat 0 = s := by
  have : s.orFstat 0 = s.updGrp id := State.updGrp_congr fun x _ => by simp
  rw [this, State.updGrp_id]

theorem State.orFstat_orFstat (s : State) (a b : Nat) : (s.orFstat a).orFstat b = s.orFstat (a ||| b) := by
  show (s.updGrp _).updGrp _ = s.updGrp _
  rw [State.updGrp_updGrp s (fun g => { g with fstat := g.fstat ||| a }) _ fun _ => rfl]
  exact State.updGrp_congr fun x _ => by simp [Nat.or_assoc]

theorem State.orFstat_updLane (s : State) (n l : Nat) (f : Lane → Lane) :
    (s.orFstat n).updLane l f = (s.updLane l f).orFstat n := by
  show (s.updGrp _).updGrp _ = (s.updGrp _).updGrp _
  rw [State.updGrp_updGrp s (fun g => { g with fstat := g.fstat ||| n }) _ fun _ => rfl,
    State.updGrp_updGrp s (fun g => g.updLane l f) _ fun _ => rfl]
  rfl

theorem State.lane_orFstat (s : State) (n l : Nat) : (s.orFstat n).lane l = s.lane l := by
  simp only [State.lane]
  cases hg : s.grp with
  | some g => rw [show (s.orFstat n).grp = some { g with fstat := g.fstat ||| n } from State.grp_updGrp hg fun _ => rfl]; rfl
  | none =>
    have : (s.orFstat n).grp = none := by
      simp only [State.grp, State.group?, State.orFstat, State.updGrp, State.updGroup, List.find?_eq_none, List.mem_map] at *
      rintro x ⟨y, hy, rfl⟩
      have := hg y hy
      by_cases hc : y.isAt s.cur.core s.cur.slot
      · exact absurd hc this
      · simp [hc]
    rw [this]

/-- The runner on the threads `ls`, those of `done` having performed and raised `fl`. -/
theorem runLanes_upto_fstat (i : Instr) (body : Nat → State → Res) (F : Nat → Lane → Lane) (K : Nat → Nat) (s s0 : State)
    (g : Group) (hg : s.grp = some g) :
    ∀ (ls done : List Nat) (fl : Nat), (done ++ ls).Nodup →
      (∀ l ∈ ls, s.sound l i) →
      (∀ l ∈ ls, ∀ done fl, l ∉ done → ∃ s' to_, body l ((s.upto F done).orFstat fl) = .ok s' to_ ∧
        s'.setPc l (to_.getD s.cur.next) = ((s.upto F done).updLane l (F l)).orFstat (fl ||| K l)) →
      runLanes i body s0 ls ((s.upto F done).orFstat fl)
        = ((s.upto F (done ++ ls)).orFstat (ls.foldl (fun a l => a ||| K l) fl)).withFate .go := by
  intro ls
  induction ls with
  | nil => intro done fl _ _ _; simp [runLanes]
  | cons l ls ih =>
    intro done fl hn hs hb
    have hl : l ∉ done := fun h => (List.disjoint_of_nodup_append hn) h (by simp)
    obtain ⟨hf, he⟩ := hs l (by simp)
    obtain ⟨s', to_, h1, h2⟩ := hb l (by simp) done fl hl
    simp only [runLanes, State.lane_orFstat, State.lane_upto hl, State.meetsError_orFstat (State.grp_upto hg), State.meetsError_upto hg hl, hf, he, h1, Bool.not_true, Bool.false_eq_true, if_false]
    rw [show ((s.upto F done).orFstat fl).cur.next = s.cur.next from rfl, h2, State.upto_updLane s F done l hl,
      ih (done ++ [l]) _ (by simpa using hn) (fun k hk => hs k (by simp [hk])) (fun k hk => hb k (by simp [hk]))]
    simp

/-- A class of threads each of which changes only itself, as `F` says, and raises the bits `K`. -/
theorem perLane_eachLane_fstat {i : Instr} {body : Nat → State → Res} {F : Nat → Lane → Lane} {K : Nat → Nat} {s : State}
    (hr : s.classReady i)
    (hb : ∀ l ∈ s.cur.lanes, ∀ done fl, l ∉ done → ∃ s' to_, body l ((s.upto F done).orFstat fl) = .ok s' to_ ∧
      s'.setPc l (to_.getD s.cur.next) = ((s.upto F done).updLane l (F l)).orFstat (fl ||| K l)) :
    perLane i body s = (s.eachLane F).orFstat (s.cur.lanes.foldl (fun a l => a ||| K l) 0) := by
  obtain ⟨-, -, hn, g, hg, hs⟩ := hr
  have h := runLanes_upto_fstat i body F K s s g hg s.cur.lanes [] 0 (by simpa using hn)
    (fun l hl => (hs l hl).2) hb
  rw [State.upto_nil, State.orFstat_zero] at h
  rw [perLane, h, State.eachLane_eq]
  simp only [List.nil_append]
  rfl

end Sys2Proof.Machine
end

