-- ==== Sys2Proof/Laws/Store.lean ====
section
/-!
SUPPORT. The laws of a sparse store: a read after a write, and that every operation keeps the canonical form.
-/
namespace Sys2Proof.Machine

variable {w : Nat}

/-! ### Reads after writes -/

@[simp] theorem Store.get_nil (a : Nat) : Store.get ([] : Store w) a = 0 := rfl

/-- A key below every key of a store reads as zero. -/
theorem Store.get_of_above : ∀ (m : Store w) (k a : Nat), Store.above k m = true → a ≤ k → m.get a = 0
  | [], _, _, _, _ => rfl
  | (j, v) :: r, k, a, h, ha => by
    simp only [Store.above, List.all_cons, Bool.and_eq_true, decide_eq_true_eq] at h
    have : a ≠ j := by omega
    simp only [Store.get, if_neg this]
    exact Store.get_of_above r k a (by simpa [Store.above] using h.2) ha

theorem Store.above_mono {m : Store w} {j k : Nat} (h : Store.above k m = true) (hj : j ≤ k) : Store.above j m = true := by
  simp only [Store.above, List.all_eq_true, decide_eq_true_eq] at *
  exact fun c hc => by have := h c hc; omega

/-- What was written is read back. -/
theorem Store.get_set_same : ∀ (m : Store w) (a : Nat) (v : BitVec w), m.wf = true → (m.set a v).get a = v
  | [], a, v, _ => by by_cases h : v = 0#w <;> simp [Store.set, Store.get, h]
  | (k, x) :: r, a, v, hm => by
    simp only [Store.wf, Bool.and_eq_true] at hm
    simp only [Store.set]
    split
    · by_cases hv : v = 0#w
      · have : a ≠ k := by omega
        simp only [hv, BitVec.ofNat_eq_ofNat, if_true, Store.get, if_neg this]
        exact Store.get_of_above r k a hm.1.2 (by omega)
      · simp [hv, Store.get]
    · split
      · next h1 h2 =>
        subst h2
        by_cases hv : v = 0#w
        · simp only [hv, BitVec.ofNat_eq_ofNat, if_true]; exact Store.get_of_above r a a hm.1.2 (Nat.le_refl _)
        · simp [hv, Store.get]
      · next h1 h2 => simp only [Store.get, if_neg h2]; exact Store.get_set_same r a v hm.2

/-- A write leaves every other key alone. -/
theorem Store.get_set_other : ∀ (m : Store w) (a b : Nat) (v : BitVec w), b ≠ a → (m.set a v).get b = m.get b
  | [], a, b, v, h => by by_cases hv : v = 0#w <;> simp [Store.set, Store.get, hv, h]
  | (k, x) :: r, a, b, v, h => by
    simp only [Store.set]
    split
    · by_cases hv : v = 0#w <;> simp [hv, Store.get, h]
    · split
      · next h1 h2 =>
        subst h2
        by_cases hv : v = 0#w <;> simp [hv, Store.get, h]
      · simp only [Store.get]; split
        · rfl
        · exact Store.get_set_other r a b v h

/-- One law for both: a store of a canonical form after a write. -/
theorem Store.get_set (m : Store w) (a b : Nat) (v : BitVec w) (hm : m.wf = true) :
    (m.set a v).get b = if b = a then v else m.get b := by
  split
  · next h => subst h; exact Store.get_set_same m b v hm
  · next h => exact Store.get_set_other m a b v h

/-! ### The canonical form -/

theorem Store.above_set {m : Store w} {k a : Nat} (v : BitVec w) (h : Store.above k m = true) (ha : k < a) :
    Store.above k (m.set a v) = true := by
  induction m with
  | nil => by_cases hv : v = 0#w <;> simp [Store.set, Store.above, hv, ha]
  | cons c r ih =>
    obtain ⟨j, x⟩ := c
    simp only [Store.above, List.all_cons, Bool.and_eq_true, decide_eq_true_eq] at h ih
    simp only [Store.set]
    split
    · by_cases hv : v = 0#w <;> simp [hv, Store.above, ha, h.1] <;> simpa using h.2
    · split
      · by_cases hv : v = 0#w <;> simp [hv, Store.above, ha] <;> simpa using h.2
      · have := ih (by simpa using h.2)
        simp only [Store.above, List.all_cons, Bool.and_eq_true, decide_eq_true_eq]
        exact ⟨h.1, this⟩

/-- A write keeps the canonical form. -/
theorem Store.wf_set {m : Store w} (a : Nat) (v : BitVec w) (h : m.wf = true) : (m.set a v).wf = true := by
  induction m with
  | nil => by_cases hv : v = 0#w <;> simp [Store.set, Store.wf, Store.above, hv]
  | cons c r ih =>
    obtain ⟨k, x⟩ := c
    have h' := h
    simp only [Store.wf, Bool.and_eq_true] at h'
    obtain ⟨⟨hx, hr⟩, hw⟩ := h'
    simp only [Store.set]
    split
    · next hlt =>
      by_cases hv : v = 0#w
      · simpa [hv] using h
      · simp only [BitVec.ofNat_eq_ofNat, hv, if_false, Store.wf, Bool.and_eq_true]
        refine ⟨⟨by simpa using hv, ?_⟩, by simpa [Store.wf] using h⟩
        simp only [Store.above, List.all_cons, Bool.and_eq_true, decide_eq_true_eq]
        exact ⟨hlt, Store.above_mono hr (by omega)⟩
    · split
      · next h1 h2 =>
        subst h2
        by_cases hv : v = 0#w
        · simpa [hv] using hw
        · simp only [BitVec.ofNat_eq_ofNat, hv, if_false, Store.wf, Bool.and_eq_true]
          exact ⟨⟨by simpa using hv, hr⟩, hw⟩
      · next h1 h2 =>
        simp only [Store.wf, Bool.and_eq_true]
        exact ⟨⟨hx, Store.above_set v hr (by omega)⟩, ih hw⟩

theorem Store.wf_setAll {m : Store w} (a : Nat) (vs : List (BitVec w)) (h : m.wf = true) : (m.setAll a vs).wf = true := by
  induction vs generalizing m a with
  | nil => exact h
  | cons v vs ih => exact ih (a + 1) (Store.wf_set a v h)

theorem Store.above_filter {m : Store w} {k : Nat} (p : Nat × BitVec w → Bool) (h : Store.above k m = true) :
    Store.above k (m.filter p) = true := by
  simp only [Store.above, List.all_eq_true, decide_eq_true_eq, List.mem_filter] at *
  exact fun c hc => h c hc.1

/-- Entries taken out of a store leave it canonical. -/
theorem Store.wf_filter {m : Store w} (p : Nat × BitVec w → Bool) (h : m.wf = true) : Store.wf (m.filter p) = true := by
  induction m with
  | nil => rfl
  | cons c r ih =>
    simp only [Store.wf, Bool.and_eq_true] at h
    by_cases hp : p c
    · simp only [List.filter_cons_of_pos hp, Store.wf, Bool.and_eq_true]
      exact ⟨⟨h.1.1, Store.above_filter p h.1.2⟩, ih h.2⟩
    · simp only [List.filter_cons_of_neg hp]; exact ih h.2

theorem Store.wf_zero {m : Store w} (lo hi : Nat) (h : m.wf = true) : (m.zero lo hi).wf = true := Store.wf_filter _ h

theorem Store.wf_wr {m : Store 8} (a n v : Nat) (h : m.wf = true) : (m.wr a n v).wf = true := Store.wf_setAll _ _ h

/-! ### Extensionality: equal contents are equal data -/

theorem Store.ext : ∀ {m n : Store w}, m.wf = true → n.wf = true → (∀ a, m.get a = n.get a) → m = n
  | [], [], _, _, _ => rfl
  | [], (k, v) :: r, _, hn, h => by
    simp only [Store.wf, Bool.and_eq_true, bne_iff_ne] at hn
    exact absurd (by simpa [Store.get] using (h k).symm) hn.1.1
  | (k, v) :: r, [], hm, _, h => by
    simp only [Store.wf, Bool.and_eq_true, bne_iff_ne] at hm
    exact absurd (by simpa [Store.get] using h k) hm.1.1
  | (k, v) :: r, (j, u) :: q, hm, hn, h => by
    simp only [Store.wf, Bool.and_eq_true, bne_iff_ne] at hm hn
    have hkj : k = j := by
      rcases Nat.lt_trichotomy k j with hlt | heq | hgt
      · have h1 := h k
        simp only [Store.get, if_true, if_neg (by omega : k ≠ j)] at h1
        rw [Store.get_of_above q j k hn.1.2 (by omega)] at h1
        exact absurd h1 hm.1.1
      · exact heq
      · have h1 := h j
        simp only [Store.get, if_true, if_neg (by omega : j ≠ k)] at h1
        rw [Store.get_of_above r k j hm.1.2 (by omega)] at h1
        exact absurd h1.symm hn.1.1
    subst hkj
    have hv : v = u := by simpa [Store.get] using h k
    subst hv
    rw [Store.ext hm.2 hn.2 fun a => by
      by_cases ha : a = k
      · rw [Store.get_of_above r k a hm.1.2 (by omega), Store.get_of_above q k a hn.1.2 (by omega)]
      · have := h a
        simpa [Store.get, ha] using this]

/-! ### Bytes -/

@[simp] theorem leBytes_length (v n : Nat) : (leBytes v n).length = n := by
  induction n generalizing v with
  | zero => rfl
  | succ n ih => simp [leBytes, ih]

/-- A number written as bytes is read back within its width. -/
theorem leNat_leBytes (v n : Nat) : leNat (leBytes v n) = v % 256 ^ n := by
  induction n generalizing v with
  | zero => simp [leBytes, leNat, Nat.mod_one]
  | succ n ih =>
    simp only [leBytes, leNat, ih, BitVec.toNat_ofNat]
    rw [show 256 ^ (n + 1) = 256 * 256 ^ n from Nat.pow_succ', Nat.mod_mul]

@[simp] theorem Store.getAll_length (m : Store w) (a n : Nat) : (m.getAll a n).length = n := by
  induction n generalizing a with
  | zero => rfl
  | succ n ih => simp [Store.getAll, ih]

/-- A key outside the keys written keeps its value. -/
theorem Store.get_setAll_other (m : Store w) (a b : Nat) (vs : List (BitVec w)) (h : b < a ∨ a + vs.length ≤ b) :
    (m.setAll a vs).get b = m.get b := by
  induction vs generalizing m a with
  | nil => rfl
  | cons v vs ih =>
    simp only [List.length_cons] at h
    rw [Store.setAll, ih _ _ (by omega), Store.get_set_other _ _ _ _ (by omega)]

theorem Store.getAll_setAll (m : Store w) (a : Nat) (vs : List (BitVec w)) (hm : m.wf = true) :
    (m.setAll a vs).getAll a vs.length = vs := by
  induction vs generalizing m a with
  | nil => rfl
  | cons v vs ih =>
    simp only [List.length_cons, Store.getAll, Store.setAll]
    rw [Store.get_setAll_other _ _ _ _ (by omega), Store.get_set_same _ _ _ hm, ih _ _ (Store.wf_set _ _ hm)]

/-- A number written is read back. -/
theorem Store.rd_wr (m : Store 8) (a n v : Nat) (hm : m.wf = true) : (m.wr a n v).rd a n = v % 256 ^ n := by
  have h := Store.getAll_setAll m a (leBytes v n) hm
  simp only [leBytes_length] at h
  simp only [Store.rd, Store.wr, h, leNat_leBytes]

end Sys2Proof.Machine
end

