-- ==== Sys2Proof/Laws/Memory.lean ====
section
/-!
SUPPORT. The laws of physical memory: what a write of bytes changes and what it leaves, what is read back, and that every
operation on the memories keeps their canonical form.
-/
namespace Sys2Proof.Machine

/-- Both memories stand in canonical form. -/
def State.memWf (s : State) : Prop := Memory.wf s.mem = true ∧ Store.wf s.sysMem = true

/-! ### One byte -/

theorem State.memWf_wrByte {s : State} (p : Place) (x : Byte) (h : s.memWf) : (s.wrByte p x).memWf := by
  cases p with
  | dev a => exact ⟨Store.wf_set a x h.1, h.2⟩
  | sys q a => exact ⟨h.1, Store.wf_set _ x h.2⟩

/-- A write of a byte changes the memories alone, and what L2 knows of the line (R61). -/
theorem State.frame_wrByte (s : State) (p : Place) (x : Byte) :
    { s.wrByte p x with mem := s.mem, sysMem := s.sysMem, l2 := s.l2 } = s := by cases p <;> rfl

theorem State.rdByte_wrByte_same {s : State} (p : Place) (x : Byte) (h : s.memWf) : (s.wrByte p x).rdByte p = x := by
  cases p with
  | dev a => exact Store.get_set_same s.mem a x h.1
  | sys q a => exact Store.get_set_same s.sysMem _ x h.2

theorem State.rdByte_wrByte_other (s : State) {p q : Place} (x : Byte) (h : q.cell ≠ p.cell) :
    (s.wrByte p x).rdByte q = s.rdByte q := by
  cases p with
  | dev a =>
    cases q with
    | dev b => exact Store.get_set_other s.mem a b x fun e => h (by rw [e])
    | sys r b => rfl
  | sys r a =>
    cases q with
    | dev b => rfl
    | sys r' b => exact Store.get_set_other s.sysMem _ _ x fun e => h (by simp only [Place.cell, e])

/-! ### Several bytes -/

theorem State.memWf_wrBytes {s : State} (p : Place) (xs : List Byte) (h : s.memWf) : (s.wrBytes p xs).memWf := by
  induction xs generalizing s p with
  | nil => exact h
  | cons x xs ih => exact ih _ (State.memWf_wrByte p x h)

theorem State.memWf_wrNat {s : State} (p : Place) (n v : Nat) (h : s.memWf) : (s.wrNat p n v).memWf :=
  State.memWf_wrBytes p _ h

theorem State.memWf_wrRuns {s : State} (runs : List (Option Place × Nat × Leaf)) (xs : List Byte) (h : s.memWf) :
    (s.wrRuns runs xs).memWf := by
  induction runs generalizing s xs with
  | nil => exact h
  | cons r rs ih =>
    obtain ⟨p, k, l⟩ := r
    cases p with
    | none => exact ih _ h
    | some p => exact ih _ (State.memWf_wrBytes p _ h)

/-- A write of bytes changes the memories alone, and what L2 knows of the lines. -/
theorem State.frame_wrBytes (s : State) (p : Place) (xs : List Byte) :
    { s.wrBytes p xs with mem := s.mem, sysMem := s.sysMem, l2 := s.l2 } = s := by
  induction xs generalizing s p with
  | nil => rfl
  | cons x xs ih =>
    exact (congrArg (fun t : State => { t with mem := s.mem, sysMem := s.sysMem, l2 := s.l2 })
      (ih (s.wrByte p x) (p.add 1))).trans (State.frame_wrByte s p x)

theorem State.frame_wrRuns (s : State) (runs : Runs) (xs : List Byte) :
    { s.wrRuns runs xs with mem := s.mem, sysMem := s.sysMem, l2 := s.l2 } = s := by
  induction runs generalizing s xs with
  | nil => rfl
  | cons r rs ih =>
    obtain ⟨p, k, l⟩ := r
    cases p with
    | none => exact ih s _
    | some p =>
      exact (congrArg (fun t : State => { t with mem := s.mem, sysMem := s.sysMem, l2 := s.l2 })
        (ih (s.wrBytes p (xs.take k)) (xs.drop k))).trans (State.frame_wrBytes s p (xs.take k))

/-- Every byte outside those written reads as before. -/
theorem State.rdByte_wrBytes_other (s : State) (p q : Place) (xs : List Byte)
    (h : ∀ j, j < xs.length → q.cell ≠ (p.add j).cell) : (s.wrBytes p xs).rdByte q = s.rdByte q := by
  induction xs generalizing s p with
  | nil => rfl
  | cons x xs ih =>
    have hadd : ∀ j, (p.add 1).add j = p.add (j + 1) := fun j => by cases p <;> simp [Place.add] <;> omega
    have h0 : p.add 0 = p := by cases p <;> rfl
    rw [State.wrBytes, ih _ _ fun j hj => by rw [hadd]; exact h (j + 1) (by simpa using hj),
      State.rdByte_wrByte_other s x (by simpa [h0] using h 0 (by simp))]

@[simp] theorem State.rdBytes_length (s : State) (p : Place) (n : Nat) : (s.rdBytes p n).length = n := by
  induction n generalizing p with
  | zero => rfl
  | succ n ih => simp [State.rdBytes, ih]

theorem Store.rdBytes_dev (s : State) (a n : Nat) : s.rdBytes (.dev a) n = Store.getAll s.mem a n := by
  induction n generalizing a with
  | zero => rfl
  | succ n ih => simp only [State.rdBytes, Store.getAll, Place.add, ih]; rfl

theorem Store.wrBytes_dev (s : State) (a : Nat) (xs : List Byte) :
    (s.wrBytes (.dev a) xs).mem = Store.setAll s.mem a xs := by
  induction xs generalizing s a with
  | nil => rfl
  | cons x xs ih => simp only [State.wrBytes, Store.setAll, Place.add, ih]; rfl

/-- What was written to device memory is read back. -/
theorem State.rdBytes_wrBytes {s : State} (a : Nat) (xs : List Byte) (h : Memory.wf s.mem = true) :
    (s.wrBytes (.dev a) xs).rdBytes (.dev a) xs.length = xs := by
  rw [Store.rdBytes_dev, Store.wrBytes_dev]
  exact Store.getAll_setAll s.mem a xs h

/-- A number written to device memory is read back within its width. -/
theorem State.rdNat_wrNat {s : State} (a n v : Nat) (h : Memory.wf s.mem = true) :
    (s.wrNat (.dev a) n v).rdNat (.dev a) n = v % 256 ^ n := by
  have e := State.rdBytes_wrBytes a (leBytes v n) h
  rw [leBytes_length] at e
  simp only [State.rdNat, State.wrNat, e, leNat_leBytes]

/-! ### Stores of lanes, R331 -/

theorem State.memWf_of_eq {s t : State} (hm : t.mem = s.mem) (hs : t.sysMem = s.sysMem) (h : s.memWf) : t.memWf := by
  unfold State.memWf; rw [hm, hs]; exact h

/-- What every put of a store keeps, the store keeps, where it does not speak of the issue's own records and of the free values:
the store makes some of its puts, in order, and no other change. -/
theorem State.storeOne_keeps {P : State → Prop} (hc : ∀ s cur free, P s → P { s with cur := cur, free := free })
    {s : State} (size : Nat) (c : Nat × Nat) {put : State → State} (hp : ∀ s, P s → P (put s)) (h : P s) :
    P (s.storeOne size c put) := by
  unfold State.storeOne
  split
  · dsimp only
    split
    · exact hc s s.cur _ h
    · exact hp _ (hc s _ (s.free + 1) h)
  · exact hp _ (hc s _ s.free h)

theorem State.storeWord_keeps {P : State → Prop} (hc : ∀ s cur free, P s → P { s with cur := cur, free := free })
    {s : State} (c : Nat × Nat) {puts : List (State → State)} (hp : ∀ p ∈ puts, ∀ s, P s → P (p s)) (h : P s) :
    P (s.storeWord c puts) := by
  have step : ∀ (l : List ((State → State) × Nat)) (s : State), (∀ e ∈ l, ∀ s, P s → P (e.1 s)) → P s →
      P (l.foldl (fun s e =>
        let at_ := (c.1, c.2 + e.2)
        if s.cur.wrote.contains at_ then
          let (k, s) := s.choose 2
          if k = 0 then s else e.1 { s with cur := { s.cur with wrote := s.cur.wrote.filter fun x => x != at_ } }
        else e.1 s) s) := by
    intro l
    induction l with
    | nil => intro s _ h; exact h
    | cons e l ih =>
      intro s he h
      refine ih _ (fun x hx => he x (.tail _ hx)) ?_
      dsimp only
      split
      · split
        · exact hc s s.cur _ h
        · exact he e (.head _) _ (hc s _ (s.free + 1) h)
      · exact he e (.head _) _ h
  have hz : ∀ e ∈ puts.zipIdx, ∀ s, P s → P (e.1 s) := fun e he => hp e.1 (List.fst_mem_of_mem_zipIdx he)
  unfold State.storeWord
  by_cases hw : s.cur.words.contains c = true
  · simp only [hw, if_true]
    split
    · exact hc s s.cur _ h
    · exact step _ _ hz (hc s s.cur (s.free + 1) h)
  · simp only [hw]
    exact step _ _ hz (hc s _ s.free h)

theorem State.storeCells_keeps {P : State → Prop} (hc : ∀ s cur free, P s → P { s with cur := cur, free := free })
    (size : Nat) (whole : Bool) (fuel : Nat) {s : State} (c : Nat × Nat) {puts : List (State → State)}
    (hp : ∀ p ∈ puts, ∀ s, P s → P (p s)) (h : P s) : P (s.storeCells size whole c fuel puts) := by
  induction fuel generalizing s c puts with
  | zero => exact h
  | succ n ih =>
    cases puts with
    | nil => exact h
    | cons p ps =>
      simp only [State.storeCells]
      split
      · exact ih _ (fun q hq => hp q (List.mem_of_mem_drop hq))
          (State.storeWord_keeps hc c (fun q hq => hp q (List.mem_of_mem_take hq)) h)
      · exact ih _ (fun q hq => hp q (.tail _ hq)) (State.storeOne_keeps hc size c (hp p (.head _)) h)

theorem State.foldl_keeps {α : Type} {P : State → Prop} (f : State → α → State) (hf : ∀ s a, P s → P (f s a)) (l : List α)
    {s : State} (h : P s) : P (l.foldl f s) := by
  induction l generalizing s with
  | nil => exact h
  | cons a l ih => exact ih (hf s a h)

/-- An access at the home slices changes what L2 holds, the old values beneath it and the records of errors: it keeps what does not
speak of them. -/
theorem State.keepLine_keeps {P : State → Prop} (hl : ∀ s l2 ce chan past sysUe, P s → P { s with l2 := l2, ce := ce, chan := chan, past := past, sysUe := sysUe })
    {s : State} (key : Nat × Nat) (first fix : Bool) (h : P s) : P (s.keepLine key first fix) := by
  have he : ∀ k, P (s.evictLine k) := fun k => by
    unfold State.evictLine
    dsimp only
    split
    · exact hl s _ _ s.chan _ s.sysUe h
    · exact hl s _ s.ce s.chan s.past _ h
  unfold State.keepLine
  dsimp only
  split
  · exact hl s _ s.ce s.chan s.past s.sysUe h
  · split
    · exact hl _ _ _ _ _ _ (he _)
    · exact hl s _ s.ce s.chan s.past s.sysUe h

theorem State.homeLine_keeps {P : State → Prop} (hl : ∀ s l2 ce chan past sysUe, P s → P { s with l2 := l2, ce := ce, chan := chan, past := past, sysUe := sysUe })
    {s : State} (key : Nat × Nat) (write keep first old : Bool) (h : P s) : P (s.homeLine key write keep first old) := by
  have hs : P (if (write && key.1 == 0) = true then s.writtenPage old key.2 else s) := by
    unfold State.writtenPage State.keepPast
    split
    · split
      · split
        · exact hl s s.l2 s.ce s.chan _ s.sysUe h
        · exact h
      · exact hl s s.l2 s.ce s.chan _ s.sysUe h
    · exact h
  unfold State.homeLine
  dsimp only
  generalize (if (write && key.1 == 0) = true then s.writtenPage old key.2 else s) = s at hs ⊢
  split
  · exact hl s _ _ s.chan s.past s.sysUe hs
  · have hn := State.foldl_keeps (P := P) State.countCe (fun s a hs => hl s s.l2 s.ce _ s.past s.sysUe hs)
      (s.ce.filter fun b => key.1 == 0 && b / 128 == key.2) hs
    generalize (s.ce.filter fun b => key.1 == 0 && b / 128 == key.2) = found at hn ⊢
    generalize found.foldl State.countCe s = t at hn ⊢
    have hw := hl t t.l2 (t.ce.filter fun b => !(key.1 == 0 && b / 128 == key.2)) t.chan t.past t.sysUe hn
    cases write <;> cases keep
    · exact hn
    · exact State.keepLine_keeps hl _ _ _ hn
    · exact hw
    · exact State.keepLine_keeps hl _ _ _ hw

theorem State.homeRange_keeps {P : State → Prop} (hl : ∀ s l2 ce chan past sysUe, P s → P { s with l2 := l2, ce := ce, chan := chan, past := past, sysUe := sysUe })
    {s : State} (p : Place) (n : Nat) (write keep first old : Bool) (h : P s) : P (s.homeRange p n write keep first old) :=
  State.foldl_keeps _ (fun _ _ hs => State.homeLine_keeps hl _ _ _ _ _ hs) _ h

/-- What marks lines of L1 keeps what does not speak of L1. -/
theorem State.firstLines_keeps {P : State → Prop} (h1 : ∀ s l1, P s → P { s with l1 := l1 }) {s : State} (core : Nat) (y : Policy)
    (p : Place) (n : Nat) (h : P s) : P (s.firstLines core y p n) := by
  unfold State.firstLines
  split
  · exact h1 s _ h
  · exact h

/-- What a store along a span keeps. -/
theorem State.storeRuns_keeps {P : State → Prop} (hc : ∀ s cur free, P s → P { s with cur := cur, free := free })
    (hl : ∀ s l2 ce chan past sysUe, P s → P { s with l2 := l2, ce := ce, chan := chan, past := past, sysUe := sysUe })
    (h1 : ∀ s l1, P s → P { s with l1 := l1 }) (core size : Nat) (whole : Bool) (k : Hint)
    (runs : Runs) (xs : List Byte) {s : State}
    (hp : ∀ r ∈ runs, ∀ p, r.1 = some p → ∀ j, j < r.2.1 → ∀ x s, P s → P (s.putByte core (p.add j) x)) (h : P s) :
    P (s.storeRuns core size whole k runs xs) := by
  induction runs generalizing s xs with
  | nil => exact h
  | cons r rs ih =>
    obtain ⟨p, n, l⟩ := r
    have hrs := fun r' hr => hp r' (List.Mem.tail (p, n, l) hr)
    cases p with
    | none => exact ih _ hrs h
    | some p =>
      refine ih _ hrs (State.storeCells_keeps hc _ _ _ _ ?_ (State.firstLines_keeps h1 _ _ _ _ (State.homeRange_keeps hl _ _ _ _ _ _ h)))
      intro q hq s hs
      obtain ⟨e, he, rfl⟩ := List.mem_map.mp hq
      refine hp _ (.head _) p rfl e.2 ?_ e.1 s hs
      have := List.snd_lt_of_mem_zipIdx he
      simp only [List.length_take] at this
      show e.2 < n; omega

theorem State.memWf_storeRuns {s : State} (core size : Nat) (whole : Bool) (k : Hint) (runs : Runs) (xs : List Byte)
    (h : s.memWf) : (s.storeRuns core size whole k runs xs).memWf :=
  State.storeRuns_keeps (P := State.memWf) (fun _ _ _ hs => hs) (fun _ _ _ _ _ _ hs => hs) (fun _ _ hs => hs) core size whole k runs xs
    (fun _ _ p _ j _ x _ hs => State.memWf_wrByte (p.add j) x hs) h

theorem State.memWf_storeSpad {s : State} (team off size : Nat) (whole : Bool) (xs : List Byte) (h : s.memWf) :
    (s.storeSpad team off size whole xs).memWf := by
  refine State.memWf_of_eq rfl rfl
    (State.storeCells_keeps (P := State.memWf) (fun _ _ _ hs => hs) size whole xs.length (2, off) ?_ h)
  intro q hq s hs
  obtain ⟨e, -, rfl⟩ := List.mem_map.mp hq
  exact State.memWf_of_eq rfl rfl hs

/-- Every byte outside those stored reads as before. -/
theorem State.rdByte_storeRuns_other (s : State) (core size : Nat) (whole : Bool) (k : Hint) (runs : Runs) (xs : List Byte)
    (q : Place) (h : ∀ r ∈ runs, ∀ p, r.1 = some p → ∀ j, j < r.2.1 → q.cell ≠ (p.add j).cell) :
    (s.storeRuns core size whole k runs xs).rdByte q = s.rdByte q := by
  refine State.storeRuns_keeps (P := fun t => t.rdByte q = s.rdByte q) ?_ ?_ ?_ core size whole k runs xs ?_ rfl
  · intro t cur free ht; cases q <;> exact ht
  · intro t l2 ce chan past sysUe ht; cases q <;> exact ht
  · intro t l1 ht; cases q <;> exact ht
  · intro r hr p hp j hj x t ht
    have : (t.putByte core (p.add j) x).rdByte q = (t.wrByte (p.add j) x).rdByte q := by cases q <;> rfl
    rw [this, State.rdByte_wrByte_other t x (h r hr p hp j hj)]
    exact ht

end Sys2Proof.Machine
end

