-- ==== Sys2Proof/Laws/Held.lean ====
section
/-!
SUPPORT. Stores held back (R119, R331): what holding back changes, and that nothing held back is nothing to perform and
nothing to read in place of memory; what is performed keeps the memories' canonical form.
-/
namespace Sys2Proof.Machine

/-- Holding back the bytes of a store to memory changes the list of stores alone. -/
theorem holdRuns_only (h : Hint) (l : Nat) : ∀ (runs : Runs) (s : State) (xs : List Byte),
    { s.holdRuns l h runs xs with stores := s.stores } = s
  | [], _, _ => rfl
  | (some p, k, f) :: rs, s, xs => by
    simp only [State.holdRuns]
    have ih := holdRuns_only h l rs
    generalize hu : ({ s with stores := _ } : State) = u
    have := ih u (xs.drop k)
    subst hu
    simpa using congrArg (fun t : State => { t with stores := s.stores }) this
  | (none, k, _) :: rs, s, xs => by simpa only [State.holdRuns] using holdRuns_only h l rs s (xs.drop k)

/-- Holding back the bytes of a store to a window changes the list of stores alone. -/
theorem holdSpad_only (s : State) (l team off : Nat) (xs : List Byte) : { s.holdSpad l team off xs with stores := s.stores } = s := rfl

/-- With nothing held back there is nothing to perform. -/
@[simp] theorem perform?_nil (s : State) (f : HeldByte → Bool) (h : s.stores = []) : s.perform? f = s := by
  cases s; simp_all [State.perform?]

/-- Where none of the bytes held back is due, nothing is performed. -/
theorem perform?_none (s : State) (f : HeldByte → Bool) (h : ∀ b ∈ s.stores, f b = false) : s.perform? f = s := by
  have e : s.stores.filter f = [] := by simpa using h
  have k : (s.stores.filter fun b => !f b) = s.stores := by simpa using h
  simp only [State.perform?, e, k, List.filter_nil, List.foldl_nil]

/-- A byte of a window is performed there, and nothing else changes. -/
theorem performByte_window (s : State) (b : HeldByte) (t : Nat) (h : b.team = some t) :
    s.performByte b = s.updTeam t fun t => t.wr b.addr 1 b.byte.toNat := by simp [State.performByte, h]

theorem State.memWf_noteUeAt {s : State} (pa : Nat) (h : s.memWf) : (s.noteUeAt pa).memWf := by
  unfold State.noteUeAt State.noteUe; split <;> exact h
theorem State.memWf_endContext {s : State} (n sub : Nat) (h : s.memWf) : (s.endContext n sub).memWf := by
  obtain ⟨cs, e⟩ := s.endContext_eq n sub
  rw [e]; exact h
theorem State.memWf_performByte {s : State} (b : HeldByte) (h : s.memWf) : (s.performByte b).memWf := by
  unfold State.performByte
  split
  · exact h
  · split
    · exact State.memWf_endContext _ _ (State.memWf_noteUeAt _ h)
    · have k := State.homeRange_keeps (P := State.memWf) (fun _ _ _ _ _ _ hs => hs) (s := s) b.place 1 true b.keep b.first false h
      exact State.memWf_of_eq rfl rfl (State.memWf_wrByte b.place b.byte k)
/-- Stores held back that are performed keep the canonical form of the memories. -/
theorem State.memWf_perform? {s : State} (f : HeldByte → Bool) (h : s.memWf) : (s.perform? f).memWf := by
  unfold State.perform?
  refine State.foldl_keeps _ (fun t b ht => ?_) _ (State.foldl_keeps _ (fun t b ht => State.memWf_performByte b ht) _ h)
  split <;> exact ht

/-- A lane of whose group nothing is held back reads what memory holds. -/
theorem forward_nil (s : State) (l : Nat) (cells : List (Option (Nat × Nat))) (xs : List Byte) (h : s.heldFor l = []) :
    s.forward l cells xs = xs := by simp [State.forward, h]

@[simp] theorem heldFor_nil (s : State) (l : Nat) (h : s.stores = []) : s.heldFor l = [] := by simp [State.heldFor, h]

/-- What a lane reads has as many bytes as its access. -/
theorem forward_length (s : State) (l : Nat) (cells : List (Option (Nat × Nat))) (xs : List Byte) (h : cells.length = xs.length) :
    (s.forward l cells xs).length = xs.length := by
  unfold State.forward
  generalize s.heldFor l = bs
  induction bs generalizing xs with
  | nil => rfl
  | cons b bs ih =>
    rw [List.foldl_cons, ih _ (by simp [h])]
    simp [h]

end Sys2Proof.Machine
end

