-- ==== Sys2Proof/Laws/PerInstr.lean ====
section
/-!
SUPPORT. One law for each instruction: the fields that the encoder gives a well-formed instruction fit the words of its form
(R248, R250), and the law of the words, which read every field back.
-/
namespace Sys2Proof

open Sys2Proof.Machine (bits)

set_option linter.unusedSimpArgs false

/-! ### The words of the two forms -/

/-- Every field holds a value of its width (R248, R250), and the fields that the form lacks are 0. -/
def Raw.fits (r : Raw) : Prop :=
  if r.ext then
    r.op < 1024 ∧ r.d < 1024 ∧ r.a < 1024 ∧ r.b < 1024 ∧ r.c < 1024 ∧ r.h < 16 ∧ r.ord < 4 ∧ r.sco < 8 ∧ r.rnd < 8
      ∧ r.r < 2 ∧ r.usel < 8 ∧ r.t < 16 ∧ r.s < 256 ∧ r.i < 4096 ∧ r.f < 16 ∧ r.modf = 0
  else
    r.op < 256 ∧ r.d < 64 ∧ r.a < 64 ∧ r.b < 64 ∧ r.modf < 8 ∧ r.usel < 2 ∧ r.c = 0 ∧ r.h = 0 ∧ r.ord = 0 ∧ r.sco = 0
      ∧ r.rnd = 0 ∧ r.r = 0 ∧ r.t = 0 ∧ r.s = 0 ∧ r.i = 0 ∧ r.f = 0

/-! ### Reading a word back -/

theorem pairOf_halves (x : DWord) : pairOf (loOf x) (hiOf x) = x := by
  simp only [pairOf, loOf, hiOf]
  ext i hi
  simp only [BitVec.getElem_append]
  split <;> simp <;> rw [BitVec.getLsbD_eq_getElem (by omega)] 
  congr 1; omega

/-- A field read between what stands above and below it. -/
theorem bits_mid {x hi lo : Nat} (p v q : Nat) (hv : v < 2 ^ (hi - lo + 1)) (hq : q < 2 ^ lo)
    (hx : x = (p * 2 ^ (hi - lo + 1) + v) * 2 ^ lo + q) : bits x hi lo = v := by
  subst hx
  rw [bits, Nat.add_comm, Nat.add_mul_div_right _ _ (Nat.two_pow_pos lo), Nat.div_eq_of_lt hq, Nat.zero_add, Nat.mul_comm p,
    Nat.mul_add_mod, Nat.mod_eq_of_lt hv]

theorem baseWord_bits {x usel modf b a d op len : Nat} (husel : usel < 2) (hmodf : modf < 8) (hb : b < 64) (ha : a < 64) (hd : d < 64) (hop : op < 256) (hlen : len < 4)
    (hx : x = usel * 2 ^ 31 + modf * 2 ^ 28 + b * 2 ^ 22 + a * 2 ^ 16 + d * 2 ^ 10 + op * 4 + len) :
    x < 2 ^ 32 ∧ bits x 31 31 = usel ∧
    bits x 30 28 = modf ∧
    bits x 27 22 = b ∧
    bits x 21 16 = a ∧
    bits x 15 10 = d ∧
    bits x 9 2 = op ∧
    bits x 1 0 = len := by
  subst hx
  refine ⟨by omega, ?_⟩
  exact ⟨bits_mid (0) usel (modf * 2 ^ 28 + b * 2 ^ 22 + a * 2 ^ 16 + d * 2 ^ 10 + op * 4 + len) (by omega) (by omega) (by omega),
    bits_mid (usel * 2 ^ 0) modf (b * 2 ^ 22 + a * 2 ^ 16 + d * 2 ^ 10 + op * 4 + len) (by omega) (by omega) (by omega),
    bits_mid (usel * 2 ^ 3 + modf * 2 ^ 0) b (a * 2 ^ 16 + d * 2 ^ 10 + op * 4 + len) (by omega) (by omega) (by omega),
    bits_mid (usel * 2 ^ 9 + modf * 2 ^ 6 + b * 2 ^ 0) a (d * 2 ^ 10 + op * 4 + len) (by omega) (by omega) (by omega),
    bits_mid (usel * 2 ^ 15 + modf * 2 ^ 12 + b * 2 ^ 6 + a * 2 ^ 0) d (op * 4 + len) (by omega) (by omega) (by omega),
    bits_mid (usel * 2 ^ 21 + modf * 2 ^ 18 + b * 2 ^ 12 + a * 2 ^ 6 + d * 2 ^ 0) op (len) (by omega) (by omega) (by omega),
    bits_mid (usel * 2 ^ 29 + modf * 2 ^ 26 + b * 2 ^ 20 + a * 2 ^ 14 + d * 2 ^ 8 + op * 2 ^ 0) len (0) (by omega) (by omega) (by omega)⟩

theorem extWord0_bits {x a d op len : Nat} (ha : a < 1024) (hd : d < 1024) (hop : op < 1024) (hlen : len < 4)
    (hx : x = a * 2 ^ 22 + d * 2 ^ 12 + op * 4 + len) :
    x < 2 ^ 32 ∧ bits x 31 22 = a ∧
    bits x 21 12 = d ∧
    bits x 11 2 = op ∧
    bits x 1 0 = len := by
  subst hx
  refine ⟨by omega, ?_⟩
  exact ⟨bits_mid (0) a (d * 2 ^ 12 + op * 4 + len) (by omega) (by omega) (by omega),
    bits_mid (a * 2 ^ 0) d (op * 4 + len) (by omega) (by omega) (by omega),
    bits_mid (a * 2 ^ 10 + d * 2 ^ 0) op (len) (by omega) (by omega) (by omega),
    bits_mid (a * 2 ^ 20 + d * 2 ^ 10 + op * 2 ^ 0) len (0) (by omega) (by omega) (by omega)⟩

theorem extWord1_bits {x h ord sco rnd c b : Nat} (hh : h < 16) (hord : ord < 4) (hsco : sco < 8) (hrnd : rnd < 8) (hc : c < 1024) (hb : b < 1024)
    (hx : x = h * 2 ^ 28 + ord * 2 ^ 26 + sco * 2 ^ 23 + rnd * 2 ^ 20 + c * 2 ^ 10 + b) :
    x < 2 ^ 32 ∧ bits x 31 28 = h ∧
    bits x 27 26 = ord ∧
    bits x 25 23 = sco ∧
    bits x 22 20 = rnd ∧
    bits x 19 10 = c ∧
    bits x 9 0 = b := by
  subst hx
  refine ⟨by omega, ?_⟩
  exact ⟨bits_mid (0) h (ord * 2 ^ 26 + sco * 2 ^ 23 + rnd * 2 ^ 20 + c * 2 ^ 10 + b) (by omega) (by omega) (by omega),
    bits_mid (h * 2 ^ 0) ord (sco * 2 ^ 23 + rnd * 2 ^ 20 + c * 2 ^ 10 + b) (by omega) (by omega) (by omega),
    bits_mid (h * 2 ^ 2 + ord * 2 ^ 0) sco (rnd * 2 ^ 20 + c * 2 ^ 10 + b) (by omega) (by omega) (by omega),
    bits_mid (h * 2 ^ 5 + ord * 2 ^ 3 + sco * 2 ^ 0) rnd (c * 2 ^ 10 + b) (by omega) (by omega) (by omega),
    bits_mid (h * 2 ^ 8 + ord * 2 ^ 6 + sco * 2 ^ 3 + rnd * 2 ^ 0) c (b) (by omega) (by omega) (by omega),
    bits_mid (h * 2 ^ 18 + ord * 2 ^ 16 + sco * 2 ^ 13 + rnd * 2 ^ 10 + c * 2 ^ 0) b (0) (by omega) (by omega) (by omega)⟩

theorem extWord2_bits {x r usel t s i f : Nat} (hr : r < 2) (husel : usel < 8) (ht : t < 16) (hs : s < 256) (hi : i < 4096) (hf : f < 16)
    (hx : x = r * 2 ^ 31 + usel * 2 ^ 28 + t * 2 ^ 24 + s * 2 ^ 16 + i * 2 ^ 4 + f) :
    x < 2 ^ 32 ∧ bits x 31 31 = r ∧
    bits x 30 28 = usel ∧
    bits x 27 24 = t ∧
    bits x 23 16 = s ∧
    bits x 15 4 = i ∧
    bits x 3 0 = f := by
  subst hx
  refine ⟨by omega, ?_⟩
  exact ⟨bits_mid (0) r (usel * 2 ^ 28 + t * 2 ^ 24 + s * 2 ^ 16 + i * 2 ^ 4 + f) (by omega) (by omega) (by omega),
    bits_mid (r * 2 ^ 0) usel (t * 2 ^ 24 + s * 2 ^ 16 + i * 2 ^ 4 + f) (by omega) (by omega) (by omega),
    bits_mid (r * 2 ^ 3 + usel * 2 ^ 0) t (s * 2 ^ 16 + i * 2 ^ 4 + f) (by omega) (by omega) (by omega),
    bits_mid (r * 2 ^ 7 + usel * 2 ^ 4 + t * 2 ^ 0) s (i * 2 ^ 4 + f) (by omega) (by omega) (by omega),
    bits_mid (r * 2 ^ 15 + usel * 2 ^ 12 + t * 2 ^ 8 + s * 2 ^ 0) i (f) (by omega) (by omega) (by omega),
    bits_mid (r * 2 ^ 27 + usel * 2 ^ 24 + t * 2 ^ 20 + s * 2 ^ 12 + i * 2 ^ 0) f (0) (by omega) (by omega) (by omega)⟩

theorem toNat_ofNat32 {n : Nat} (h : n < 2 ^ 32) : (BitVec.ofNat 32 n).toNat = n := by
  rw [BitVec.toNat_ofNat, Nat.mod_eq_of_lt h]

theorem Raw.ofBase_word {op a b d modf usel len : Nat} (lit : Option DWord) (h1 : op < 256) (h2 : d < 64) (h3 : a < 64) (h4 : b < 64)
    (h5 : modf < 8) (h6 : usel < 2) (h7 : len < 4) :
    bits (BitVec.ofNat 32 (usel * 2 ^ 31 + modf * 2 ^ 28 + b * 2 ^ 22 + a * 2 ^ 16 + d * 2 ^ 10 + op * 4 + len)).toNat 1 0 = len
    ∧ Raw.ofBase (BitVec.ofNat 32 (usel * 2 ^ 31 + modf * 2 ^ 28 + b * 2 ^ 22 + a * 2 ^ 16 + d * 2 ^ 10 + op * 4 + len)) lit
      = { ext := false, op, a, b, d, modf, usel, lit } := by
  obtain ⟨h0, e1, e2, e3, e4, e5, e6, e7⟩ := baseWord_bits h6 h5 h4 h3 h2 h1 h7 rfl
  simp only [Raw.ofBase, toNat_ofNat32 h0, e1, e2, e3, e4, e5, e6, e7, and_self]

theorem Raw.ofExt_word {op a b c d h ord sco rnd r usel t s i f len : Nat} (lit : Option DWord)
    (h1 : op < 1024) (h2 : d < 1024) (h3 : a < 1024) (h4 : b < 1024) (h5 : c < 1024) (h6 : h < 16) (h7 : ord < 4)
    (h8 : sco < 8) (h9 : rnd < 8) (h10 : r < 2) (h11 : usel < 8) (h12 : t < 16) (h13 : s < 256) (h14 : i < 4096) (h15 : f < 16)
    (h16 : len < 4) :
    bits (BitVec.ofNat 32 (a * 2 ^ 22 + d * 2 ^ 12 + op * 4 + len)).toNat 1 0 = len
    ∧ Raw.ofExt (BitVec.ofNat 32 (a * 2 ^ 22 + d * 2 ^ 12 + op * 4 + len))
        (BitVec.ofNat 32 (h * 2 ^ 28 + ord * 2 ^ 26 + sco * 2 ^ 23 + rnd * 2 ^ 20 + c * 2 ^ 10 + b))
        (BitVec.ofNat 32 (r * 2 ^ 31 + usel * 2 ^ 28 + t * 2 ^ 24 + s * 2 ^ 16 + i * 2 ^ 4 + f)) lit
      = { ext := true, op, a, b, c, d, h, ord, sco, rnd, r, usel, t, s, i, f, lit } := by
  obtain ⟨h0, e1, e2, e3, e4⟩ := extWord0_bits h3 h2 h1 h16 rfl
  obtain ⟨k0, f1, f2, f3, f4, f5, f6⟩ := extWord1_bits h6 h7 h8 h9 h5 h4 rfl
  obtain ⟨l0, g1, g2, g3, g4, g5, g6⟩ := extWord2_bits h10 h11 h12 h13 h14 h15 rfl
  simp only [Raw.ofExt, toNat_ofNat32 h0, toNat_ofNat32 k0, toNat_ofNat32 l0,
    e1, e2, e3, e4, f1, f2, f3, f4, f5, f6, g1, g2, g3, g4, g5, g6, and_self]

theorem Raw.parse_base {w : Word} (ws : List Word) (h : bits w.toNat 1 0 = 0) :
    Raw.parse (w :: ws) = some (Raw.ofBase w none, ws) := by
  simp only [Raw.parse, h]
theorem Raw.parse_baseLit {w : Word} (lo hi : Word) (ws : List Word) (h : bits w.toNat 1 0 = 2) :
    Raw.parse (w :: lo :: hi :: ws) = some (Raw.ofBase w (some (pairOf lo hi)), ws) := by
  simp only [Raw.parse, h]
theorem Raw.parse_ext {w : Word} (w1 w2 : Word) (ws : List Word) (h : bits w.toNat 1 0 = 1) :
    Raw.parse (w :: w1 :: w2 :: ws) = some (Raw.ofExt w w1 w2 none, ws) := by
  simp only [Raw.parse, h]
theorem Raw.parse_extLit {w : Word} (w1 w2 lo hi : Word) (ws : List Word) (h : bits w.toNat 1 0 = 3) :
    Raw.parse (w :: w1 :: w2 :: lo :: hi :: ws) = some (Raw.ofExt w w1 w2 (some (pairOf lo hi)), ws) := by
  simp only [Raw.parse, h]

/-- The fields of an instruction are read back from its words, whatever words follow. -/
theorem Raw.parse_words {r : Raw} (h : r.fits) (rest : List Word) : Raw.parse (r.words ++ rest) = some (r, rest) := by
  obtain ⟨ext, op, a, b, c, d, hh, ord, sco, rnd, rr, usel, t, s, i, f, modf, lit⟩ := r
  cases ext
  · simp only [Raw.fits, Bool.false_eq_true, if_false] at h
    obtain ⟨h1, h2, h3, h4, h5, h6, rfl, rfl, rfl, rfl, rfl, rfl, rfl, rfl, rfl, rfl⟩ := h
    cases lit with
    | none =>
      obtain ⟨hb, hr⟩ := Raw.ofBase_word (len := 0 + 0) none h1 h2 h3 h4 h5 h6 (by decide)
      exact (Raw.parse_base _ hb).trans (by rw [hr]; rfl)
    | some x =>
      obtain ⟨hb, hr⟩ := Raw.ofBase_word (len := 2 + 0) (some x) h1 h2 h3 h4 h5 h6 (by decide)
      exact (Raw.parse_baseLit _ _ _ hb).trans (by rw [pairOf_halves, hr]; rfl)
  · simp only [Raw.fits, if_true] at h
    obtain ⟨h1, h2, h3, h4, h5, h6, h7, h8, h9, h10, h11, h12, h13, h14, h15, rfl⟩ := h
    cases lit with
    | none =>
      obtain ⟨hb, hr⟩ := Raw.ofExt_word (len := 0 + 1) none h1 h2 h3 h4 h5 h6 h7 h8 h9 h10 h11 h12 h13 h14 h15 (by decide)
      exact (Raw.parse_ext _ _ _ hb).trans (by rw [hr]; rfl)
    | some x =>
      obtain ⟨hb, hr⟩ := Raw.ofExt_word (len := 2 + 1) (some x) h1 h2 h3 h4 h5 h6 h7 h8 h9 h10 h11 h12 h13 h14 h15 (by decide)
      exact (Raw.parse_extLit _ _ _ _ _ hb).trans (by rw [pairOf_halves, hr]; rfl)

/-! ### Bounds of the registers -/

theorem Opnd.field_lt {o : Opnd} (h : o.inRange = true) (hs : 1 ≤ o.size) (hl : 1 ≤ o.slim) : o.x.field < Nat.max o.vlim o.slim := by
  obtain ⟨x, n, dst, v, u⟩ := o
  cases x <;> simp [Opnd.inRange, Src.field] at * <;> omega

theorem ITy.regs_pos (t : ITy) : 1 ≤ t.regs := by cases t <;> decide
theorem FTy.regs_pos (t : FTy) : 1 ≤ t.regs := by cases t <;> decide
theorem MTy.regs_pos (t : MTy) : 1 ≤ t.regs := by cases t <;> decide
theorem CTy.regs_pos (t : CTy) : 1 ≤ t.regs := by cases t <;> decide
theorem ATy.regs_pos (t : ATy) : 1 ≤ t.regs := by cases t <;> decide
theorem SpecialReg.regs_pos (t : SpecialReg) : 1 ≤ t.regs := by cases t <;> decide
theorem cvtRegs_pos (t s u : FTy) : 1 ≤ cvtRegs t (cvtCount s u) := by cases t <;> cases s <;> cases u <;> decide

/-- Every operand occupies a register, and its field can name a uniform one. -/
theorem Instr.opnds_size (i : Instr) : ∀ o ∈ i.opnds, 1 ≤ o.size ∧ 1 ≤ o.slim := by
  cases i
  all_goals simp only [Instr.opnds, List.forall_mem_cons, List.not_mem_nil, false_implies, implies_true, and_true]
  all_goals try simp only [xs, xd, xdd, bs, bd, ITy.regs_pos, FTy.regs_pos, MTy.regs_pos, CTy.regs_pos, ATy.regs_pos,
    SpecialReg.regs_pos, cvtRegs_pos]
  all_goals first | decide | grind [ITy.regs_pos, FTy.regs_pos, MTy.regs_pos, CTy.regs_pos, ATy.regs_pos]


/-! ### Bounds of the codes -/

theorem ITy.code_lt (t : ITy) : t.code < 16 := by cases t <;> decide
theorem MTy.code_lt (t : MTy) : t.code < 16 := by cases t <;> decide
theorem FTy.code_lt (t : FTy) : t.code < 16 := by cases t <;> decide
theorem CTy.code_lt (t : CTy) : t.code < 16 := by cases t <;> decide
theorem ATy.code_lt (t : ATy) : t.code < 16 := by cases t <;> decide
theorem BTy.code_lt (t : BTy) : t.code < 8 := by cases t <;> decide
theorem Rnd.code_lt (t : Rnd) : t.code < 8 := by cases t <;> decide
theorem Scope.code_lt (t : Scope) : t.code < 8 := by cases t <;> decide
theorem LdOrd.sco_lt (o : LdOrd) : o.sco < 8 := by cases o <;> simp [LdOrd.sco, Scope.code_lt]
theorem LdOrd.ord_lt (o : LdOrd) : o.ord < 4 := by cases o <;> simp [LdOrd.ord]
theorem StOrd.sco_lt (o : StOrd) : o.sco < 8 := by cases o <;> simp [StOrd.sco, Scope.code_lt]
theorem StOrd.ord_lt (o : StOrd) : o.ord < 4 := by cases o <;> simp [StOrd.ord]
theorem AtOrd.code_lt (t : AtOrd) : t.code < 4 := by cases t <;> decide
theorem FenceOrd.code_lt (t : FenceOrd) : t.code < 4 := by cases t <;> decide
theorem Hint.code_lt (t : Hint) : t.code < 16 := by cases t <;> decide
theorem SpecialReg.code_lt (t : SpecialReg) : t.code < 4096 := by cases t <;> decide
theorem ICond.code_lt (t : ICond) : t.code < 8 := by cases t <;> decide
theorem FCond.code_lt (t : FCond) : t.code < 8 := by cases t <;> decide
theorem VoteKind.code_lt (t : VoteKind) : t.code < 4 := by cases t <;> decide
theorem ShflMode.code_lt (t : ShflMode) : t.code < 4 := by cases t <;> decide
theorem RedOp.code_lt (t : RedOp) : t.code < 16 := by cases t <;> decide
theorem AOp.code_lt (t : AOp) : t.code < 16 := by cases t <;> decide
theorem Filt.code_lt (t : Filt) : t.code < 4 := by cases t <;> decide
theorem PathHint.code_lt (t : PathHint) : t.code < 4 := by cases t <;> decide
theorem boolBit_lt (b : Bool) : boolBit b < 2 := by cases b <;> decide
theorem Dst.twinOp_lt (d : Dst) (k : Nat) (h : k < 32) : d.twinOp k < 1024 := by cases d <;> simp [Dst.twinOp] <;> omega
@[simp] theorem Dst.field_toSrc (d : Dst) : d.toSrc.field = d.field := by cases d <;> rfl
@[simp] theorem Src.field_v (n : Nat) : (Src.v n).field = n := rfl
@[simp] theorem Src.field_s (n : Nat) : (Src.s n).field = n := rfl
theorem Src.uselBit_le (x : Src) (k : Nat) : x.uselBit k ≤ 2 ^ k := by cases x <;> simp [Src.uselBit]
theorem Src.uselBit_zero {x : Src} (k : Nat) (h : x.isUni = false) : x.uselBit k = 0 := by cases x <;> simp_all [Src.uselBit, Src.isUni]

/-- What well-formedness says of an instruction's registers and fields. -/
theorem Instr.wf_parts {i : Instr} (h : i.wf = true) :
    (∀ o ∈ i.opnds, o.x.field < Nat.max o.vlim o.slim) ∧ i.kindRegsOk = true ∧ i.spanOk = true ∧ i.fieldsOk = true ∧ i.flagOk = true := by
  simp only [Instr.wf, Instr.regsOk, Bool.and_eq_true, List.all_eq_true] at h
  obtain ⟨⟨⟨⟨⟨⟨h1, -⟩, h2⟩, h3⟩, h4⟩, h5⟩, -⟩ := h
  exact ⟨fun o ho => Opnd.field_lt (h1 o ho) (i.opnds_size o ho).1 (i.opnds_size o ho).2, h2, h3, h4, h5⟩

namespace Laws.Fits

/-- The encoder's fields of a well-formed instruction fit its form. -/
def Statement (i : Instr) : Prop := i.wf = true → ∀ r, i.raw = some r → r.fits

/-- Fields of an extended form. -/
theorem ext {r : Raw} (he : r.ext = true)
    (h : r.op < 1024 ∧ r.d < 1024 ∧ r.a < 1024 ∧ r.b < 1024 ∧ r.c < 1024 ∧ r.h < 16 ∧ r.ord < 4 ∧ r.sco < 8 ∧ r.rnd < 8
      ∧ r.r < 2 ∧ r.usel < 8 ∧ r.t < 16 ∧ r.s < 256 ∧ r.i < 4096 ∧ r.f < 16 ∧ r.modf = 0) : r.fits := by
  unfold Raw.fits; rw [he]; exact h
theorem base {r : Raw} (he : r.ext = false)
    (h : r.op < 256 ∧ r.d < 64 ∧ r.a < 64 ∧ r.b < 64 ∧ r.modf < 8 ∧ r.usel < 2 ∧ r.c = 0 ∧ r.h = 0 ∧ r.ord = 0 ∧ r.sco = 0
      ∧ r.rnd = 0 ∧ r.r = 0 ∧ r.t = 0 ∧ r.s = 0 ∧ r.i = 0 ∧ r.f = 0) : r.fits := by
  unfold Raw.fits; rw [he]; exact h

theorem powerGood : Statement .powerGood := fun _ _ h => nomatch h
theorem stage1 (r : StartReport) : Statement (.stage1 r) := fun _ _ h => nomatch h
theorem stage2Entry : Statement .stage2Entry := fun _ _ h => nomatch h
theorem governorInterval (watts : Nat) : Statement (.governorInterval watts) := fun _ _ h => nomatch h
theorem quietStepUp (watts : Nat) : Statement (.quietStepUp watts) := fun _ _ h => nomatch h
theorem thermalInterval (sensors : List (List Nat)) : Statement (.thermalInterval sensors) := fun _ _ h => nomatch h
theorem thermRelease : Statement .thermRelease := fun _ _ h => nomatch h
theorem ucieModuleFail (dieA dieB moduleNo : Nat) (retrained : Bool) : Statement (.ucieModuleFail dieA dieB moduleNo retrained) := fun _ _ h => nomatch h
theorem portLinkDown (p : Port) : Statement (.portLinkDown p) := fun _ _ h => nomatch h
theorem vfFlr (v : Nat) : Statement (.vfFlr v) := fun _ _ h => nomatch h
theorem pfFlr (p : Port) : Statement (.pfFlr p) := fun _ _ h => nomatch h
theorem apertureRead (p : Port) (f : Func) (slot off n : Nat) : Statement (.apertureRead p f slot off n) := fun _ _ h => nomatch h
theorem apertureWrite (p : Port) (f : Func) (slot off : Nat) (bytes : List Byte) : Statement (.apertureWrite p f slot off bytes) := fun _ _ h => nomatch h
theorem hostAtomicop (p : Port) (f : Func) (slot off : Nat) (op : HostAtomic) : Statement (.hostAtomicop p f slot off op) := fun _ _ h => nomatch h
theorem atsInvalidation (p : Port) (page count : Nat) : Statement (.atsInvalidation p page count) := fun _ _ h => nomatch h
theorem priGrant (slot page target : Nat) : Statement (.priGrant slot page target) := fun _ _ h => nomatch h
theorem priRefuse (slot page : Nat) : Statement (.priRefuse slot page) := fun _ _ h => nomatch h
theorem registerWrite (bar : Bar) (off : Nat) (w : Wr) : Statement (.registerWrite bar off w) := fun _ _ h => nomatch h
theorem mgmtSemAcquire (by_ : Agent) : Statement (.mgmtSemAcquire by_) := fun _ _ h => nomatch h
theorem mgmtSemRelease (w : Wr) : Statement (.mgmtSemRelease w) := fun _ _ h => nomatch h
theorem ctxCtrlWrite (n : Nat) (w : Wr) : Statement (.ctxCtrlWrite n w) := fun _ _ h => nomatch h
theorem ctxRfmtabWrite (n : Nat) (w : Wr) : Statement (.ctxRfmtabWrite n w) := fun _ _ h => nomatch h
theorem partWinWrite (p : Nat) (w : Wr) : Statement (.partWinWrite p w) := fun _ _ h => nomatch h
theorem vfMapWrite (v half : Nat) (w : Wr) : Statement (.vfMapWrite v half w) := fun _ _ h => nomatch h
theorem tlbInvalidate (w : Wr) : Statement (.tlbInvalidate w) := fun _ _ h => nomatch h
theorem tlbInvalidateDone (p : Port) : Statement (.tlbInvalidateDone p) := fun _ _ h => nomatch h
theorem ctxReplay (n : Nat) (w : Wr) : Statement (.ctxReplay n w) := fun _ _ h => nomatch h
theorem ctxReplayFail (n : Nat) (w : Wr) : Statement (.ctxReplayFail n w) := fun _ _ h => nomatch h
theorem ceclr (ch : Nat) (w : Wr) : Statement (.ceclr ch w) := fun _ _ h => nomatch h
theorem baclr (ch : Nat) (w : Wr) : Statement (.baclr ch w) := fun _ _ h => nomatch h
theorem lqCtlWrite (n q : Nat) (w : Wr) : Statement (.lqCtlWrite n q w) := fun _ _ h => nomatch h
theorem cancel (n q : Nat) (w : Wr) : Statement (.cancel n q w) := fun _ _ h => nomatch h
theorem lqTailWrite (n q : Nat) (w : Wr) : Statement (.lqTailWrite n q w) := fun _ _ h => nomatch h
theorem trapResume (n : Nat) (w : Wr) : Statement (.trapResume n w) := fun _ _ h => nomatch h
theorem trapEnd (n : Nat) (w : Wr) : Statement (.trapEnd n w) := fun _ _ h => nomatch h
theorem ctxSave (n : Nat) (w : Wr) : Statement (.ctxSave n w) := fun _ _ h => nomatch h
theorem saveComplete (n : Nat) : Statement (.saveComplete n) := fun _ _ h => nomatch h
theorem ctxRestore (n : Nat) (w : Wr) : Statement (.ctxRestore n w) := fun _ _ h => nomatch h
theorem restoredRecordEnter (core : Nat) : Statement (.restoredRecordEnter core) := fun _ _ h => nomatch h
theorem mboxGo (p : Port) (w : Wr) : Statement (.mboxGo p w) := fun _ _ h => nomatch h
theorem getId (v : Via) : Statement (.getId v) := fun _ _ h => nomatch h
theorem getMeas (v : Via) (nonce : List Byte) : Statement (.getMeas v nonce) := fun _ _ h => nomatch h
theorem getCert (v : Via) (alg off : Nat) : Statement (.getCert v alg off) := fun _ _ h => nomatch h
theorem fwBegin (v : Via) (len : Nat) : Statement (.fwBegin v len) := fun _ _ h => nomatch h
theorem fwData (v : Via) (off : Nat) (bytes : List Byte) : Statement (.fwData v off bytes) := fun _ _ h => nomatch h
theorem fwCommit (v : Via) : Statement (.fwCommit v) := fun _ _ h => nomatch h
theorem launchPrereqRead (n q : Nat) : Statement (.launchPrereqRead n q) := fun _ _ h => nomatch h
theorem prereqReread (n q : Nat) : Statement (.prereqReread n q) := fun _ _ h => nomatch h
theorem launchRecordRead (n q : Nat) : Statement (.launchRecordRead n q) := fun _ _ h => nomatch h
theorem launchAccept (n q : Nat) : Statement (.launchAccept n q) := fun _ _ h => nomatch h
theorem teamPlace : Statement .teamPlace := fun _ _ h => nomatch h
theorem clusterPlace : Statement .clusterPlace := fun _ _ h => nomatch h
theorem streamFetchComplete (team : Nat) : Statement (.streamFetchComplete team) := fun _ _ h => nomatch h
theorem groupLeaveSlot (core slot : Nat) : Statement (.groupLeaveSlot core slot) := fun _ _ h => nomatch h
theorem teamEnd (team : Nat) : Statement (.teamEnd team) := fun _ _ h => nomatch h
theorem orderedReductionCommit (launch : Nat) : Statement (.orderedReductionCommit launch) := fun _ _ h => nomatch h
theorem launchRetire (launch : Nat) : Statement (.launchRetire launch) := fun _ _ h => nomatch h
theorem clauseIssue (core pipe : Nat) : Statement (.clauseIssue core pipe) := fun _ _ h => nomatch h
theorem longLatencyComplete (core slot idx : Nat) : Statement (.longLatencyComplete core slot idx) := fun _ _ h => nomatch h
theorem faultRecordWrite (n : Nat) : Statement (.faultRecordWrite n) := fun _ _ h => nomatch h
theorem pageWalk (core n : Nat) (va : DWord) : Statement (.pageWalk core n va) := fun _ _ h => nomatch h
theorem homeSliceRequest (r : SliceRequest) : Statement (.homeSliceRequest r) := fun _ _ h => nomatch h
theorem ueOnWriteback (pa : Nat) : Statement (.ueOnWriteback pa) := fun _ _ h => nomatch h
theorem siphonLand (team idx count : Nat) : Statement (.siphonLand team idx count) := fun _ _ h => nomatch h
theorem wellheadTimeout (core : Nat) : Statement (.wellheadTimeout core) := fun _ _ h => nomatch h
theorem sumpDrain (n : Nat) : Statement (.sumpDrain n) := fun _ _ h => nomatch h
theorem manifoldWindowTimeout (core idx : Nat) : Statement (.manifoldWindowTimeout core idx) := fun _ _ h => nomatch h
theorem manifoldPass (core : Nat) : Statement (.manifoldPass core) := fun _ _ h => nomatch h
theorem baLoad (die channel bank slot off : Nat) (data : List Byte) : Statement (.baLoad die channel bank slot off data) := fun _ _ h => nomatch h
theorem baStream (r : BankStream) : Statement (.baStream r) := fun _ _ h => nomatch h
theorem baDrain (die channel bank words : Nat) : Statement (.baDrain die channel bank words) := fun _ _ h => nomatch h
theorem dicePatch (launch die : Nat) : Statement (.dicePatch launch die) := fun _ _ h => nomatch h
theorem gridCopyReceive (launch idx : Nat) : Statement (.gridCopyReceive launch idx) := fun _ _ h => nomatch h
theorem bucketResolve (launch bucket : Nat) : Statement (.bucketResolve launch bucket) := fun _ _ h => nomatch h
theorem bucketCommit (launch bucket : Nat) : Statement (.bucketCommit launch bucket) := fun _ _ h => nomatch h
theorem bucketSteal (launch thief : Nat) : Statement (.bucketSteal launch thief) := fun _ _ h => nomatch h
theorem cisternUe (launch bucket : Nat) : Statement (.cisternUe launch bucket) := fun _ _ h => nomatch h
theorem controlCoreHalt (core : Nat) : Statement (.controlCoreHalt core) := fun _ _ h => nomatch h
theorem nopBase : Statement .nopBase := by
  intro _ r hr; cases hr
  exact base rfl (by decide)
theorem movBase (d : Nat) (a : Src) : Statement (.movBase d a) := by
  intro h r hr; cases hr
  obtain ⟨p, -, -, -, -⟩ := Instr.wf_parts h
  change ∀ o ∈ ([bd d, bs a 1] : List Opnd), _ at p
  simp only [List.forall_mem_cons, List.not_mem_nil, false_implies, implies_true, and_true, xs, xd, xdd, bs, bd,
    Bool.and_eq_true, decide_eq_true_eq, Bool.not_eq_true', Dst.field_toSrc, Src.field_v, Src.field_s, mmulOk, mvxOk] at p
  refine base rfl ?_
  simp only [raw1]
  grind [Dst.twinOp_lt, Src.uselBit_zero, Src.uselBit_le]
theorem addBase (d : Nat) (a b : Src) : Statement (.addBase d a b) := by
  intro h r hr; cases hr
  obtain ⟨p, -, -, pf, -⟩ := Instr.wf_parts h
  change ∀ o ∈ ([bd d, bs a 1, bs b 1] : List Opnd), _ at p
  change (noLit [a] && !b.isUni) = true at pf
  simp only [List.forall_mem_cons, List.not_mem_nil, false_implies, implies_true, and_true, xs, xd, xdd, bs, bd,
    Bool.and_eq_true, decide_eq_true_eq, Bool.not_eq_true', Dst.field_toSrc, Src.field_v, Src.field_s, mmulOk, mvxOk] at p pf
  refine base rfl ?_
  simp only [raw2]
  grind [Dst.twinOp_lt, Src.uselBit_zero, Src.uselBit_le]
theorem subBase (d : Nat) (a b : Src) : Statement (.subBase d a b) := by
  intro h r hr; cases hr
  obtain ⟨p, -, -, pf, -⟩ := Instr.wf_parts h
  change ∀ o ∈ ([bd d, bs a 1, bs b 1] : List Opnd), _ at p
  change (noLit [a] && !b.isUni) = true at pf
  simp only [List.forall_mem_cons, List.not_mem_nil, false_implies, implies_true, and_true, xs, xd, xdd, bs, bd,
    Bool.and_eq_true, decide_eq_true_eq, Bool.not_eq_true', Dst.field_toSrc, Src.field_v, Src.field_s, mmulOk, mvxOk] at p pf
  refine base rfl ?_
  simp only [raw2]
  grind [Dst.twinOp_lt, Src.uselBit_zero, Src.uselBit_le]
theorem mulBase (d : Nat) (a b : Src) : Statement (.mulBase d a b) := by
  intro h r hr; cases hr
  obtain ⟨p, -, -, pf, -⟩ := Instr.wf_parts h
  change ∀ o ∈ ([bd d, bs a 1, bs b 1] : List Opnd), _ at p
  change (noLit [a] && !b.isUni) = true at pf
  simp only [List.forall_mem_cons, List.not_mem_nil, false_implies, implies_true, and_true, xs, xd, xdd, bs, bd,
    Bool.and_eq_true, decide_eq_true_eq, Bool.not_eq_true', Dst.field_toSrc, Src.field_v, Src.field_s, mmulOk, mvxOk] at p pf
  refine base rfl ?_
  simp only [raw2]
  grind [Dst.twinOp_lt, Src.uselBit_zero, Src.uselBit_le]
theorem andBase (d : Nat) (a b : Src) : Statement (.andBase d a b) := by
  intro h r hr; cases hr
  obtain ⟨p, -, -, pf, -⟩ := Instr.wf_parts h
  change ∀ o ∈ ([bd d, bs a 1, bs b 1] : List Opnd), _ at p
  change (noLit [a] && !b.isUni) = true at pf
  simp only [List.forall_mem_cons, List.not_mem_nil, false_implies, implies_true, and_true, xs, xd, xdd, bs, bd,
    Bool.and_eq_true, decide_eq_true_eq, Bool.not_eq_true', Dst.field_toSrc, Src.field_v, Src.field_s, mmulOk, mvxOk] at p pf
  refine base rfl ?_
  simp only [raw2]
  grind [Dst.twinOp_lt, Src.uselBit_zero, Src.uselBit_le]
theorem orBase (d : Nat) (a b : Src) : Statement (.orBase d a b) := by
  intro h r hr; cases hr
  obtain ⟨p, -, -, pf, -⟩ := Instr.wf_parts h
  change ∀ o ∈ ([bd d, bs a 1, bs b 1] : List Opnd), _ at p
  change (noLit [a] && !b.isUni) = true at pf
  simp only [List.forall_mem_cons, List.not_mem_nil, false_implies, implies_true, and_true, xs, xd, xdd, bs, bd,
    Bool.and_eq_true, decide_eq_true_eq, Bool.not_eq_true', Dst.field_toSrc, Src.field_v, Src.field_s, mmulOk, mvxOk] at p pf
  refine base rfl ?_
  simp only [raw2]
  grind [Dst.twinOp_lt, Src.uselBit_zero, Src.uselBit_le]
theorem xorBase (d : Nat) (a b : Src) : Statement (.xorBase d a b) := by
  intro h r hr; cases hr
  obtain ⟨p, -, -, pf, -⟩ := Instr.wf_parts h
  change ∀ o ∈ ([bd d, bs a 1, bs b 1] : List Opnd), _ at p
  change (noLit [a] && !b.isUni) = true at pf
  simp only [List.forall_mem_cons, List.not_mem_nil, false_implies, implies_true, and_true, xs, xd, xdd, bs, bd,
    Bool.and_eq_true, decide_eq_true_eq, Bool.not_eq_true', Dst.field_toSrc, Src.field_v, Src.field_s, mmulOk, mvxOk] at p pf
  refine base rfl ?_
  simp only [raw2]
  grind [Dst.twinOp_lt, Src.uselBit_zero, Src.uselBit_le]
theorem shlBase (d : Nat) (a b : Src) : Statement (.shlBase d a b) := by
  intro h r hr; cases hr
  obtain ⟨p, -, -, pf, -⟩ := Instr.wf_parts h
  change ∀ o ∈ ([bd d, bs a 1, bs b 1] : List Opnd), _ at p
  change (noLit [a] && !b.isUni) = true at pf
  simp only [List.forall_mem_cons, List.not_mem_nil, false_implies, implies_true, and_true, xs, xd, xdd, bs, bd,
    Bool.and_eq_true, decide_eq_true_eq, Bool.not_eq_true', Dst.field_toSrc, Src.field_v, Src.field_s, mmulOk, mvxOk] at p pf
  refine base rfl ?_
  simp only [raw2]
  grind [Dst.twinOp_lt, Src.uselBit_zero, Src.uselBit_le]
theorem shrBase (d : Nat) (a b : Src) : Statement (.shrBase d a b) := by
  intro h r hr; cases hr
  obtain ⟨p, -, -, pf, -⟩ := Instr.wf_parts h
  change ∀ o ∈ ([bd d, bs a 1, bs b 1] : List Opnd), _ at p
  change (noLit [a] && !b.isUni) = true at pf
  simp only [List.forall_mem_cons, List.not_mem_nil, false_implies, implies_true, and_true, xs, xd, xdd, bs, bd,
    Bool.and_eq_true, decide_eq_true_eq, Bool.not_eq_true', Dst.field_toSrc, Src.field_v, Src.field_s, mmulOk, mvxOk] at p pf
  refine base rfl ?_
  simp only [raw2]
  grind [Dst.twinOp_lt, Src.uselBit_zero, Src.uselBit_le]
theorem sraBase (d : Nat) (a b : Src) : Statement (.sraBase d a b) := by
  intro h r hr; cases hr
  obtain ⟨p, -, -, pf, -⟩ := Instr.wf_parts h
  change ∀ o ∈ ([bd d, bs a 1, bs b 1] : List Opnd), _ at p
  change (noLit [a] && !b.isUni) = true at pf
  simp only [List.forall_mem_cons, List.not_mem_nil, false_implies, implies_true, and_true, xs, xd, xdd, bs, bd,
    Bool.and_eq_true, decide_eq_true_eq, Bool.not_eq_true', Dst.field_toSrc, Src.field_v, Src.field_s, mmulOk, mvxOk] at p pf
  refine base rfl ?_
  simp only [raw2]
  grind [Dst.twinOp_lt, Src.uselBit_zero, Src.uselBit_le]
theorem minBase (sg : Bool) (d : Nat) (a b : Src) : Statement (.minBase sg d a b) := by
  intro h r hr; cases hr
  obtain ⟨p, -, -, pf, -⟩ := Instr.wf_parts h
  change ∀ o ∈ ([bd d, bs a 1, bs b 1] : List Opnd), _ at p
  change (noLit [a] && !b.isUni) = true at pf
  simp only [List.forall_mem_cons, List.not_mem_nil, false_implies, implies_true, and_true, xs, xd, xdd, bs, bd,
    Bool.and_eq_true, decide_eq_true_eq, Bool.not_eq_true', Dst.field_toSrc, Src.field_v, Src.field_s, mmulOk, mvxOk] at p pf
  refine base rfl ?_
  simp only [raw2]
  grind [Dst.twinOp_lt, Src.uselBit_zero, boolBit_lt, Src.uselBit_le]
theorem maxBase (sg : Bool) (d : Nat) (a b : Src) : Statement (.maxBase sg d a b) := by
  intro h r hr; cases hr
  obtain ⟨p, -, -, pf, -⟩ := Instr.wf_parts h
  change ∀ o ∈ ([bd d, bs a 1, bs b 1] : List Opnd), _ at p
  change (noLit [a] && !b.isUni) = true at pf
  simp only [List.forall_mem_cons, List.not_mem_nil, false_implies, implies_true, and_true, xs, xd, xdd, bs, bd,
    Bool.and_eq_true, decide_eq_true_eq, Bool.not_eq_true', Dst.field_toSrc, Src.field_v, Src.field_s, mmulOk, mvxOk] at p pf
  refine base rfl ?_
  simp only [raw2]
  grind [Dst.twinOp_lt, Src.uselBit_zero, boolBit_lt, Src.uselBit_le]
theorem icmpBase (c : ICond) (d : Nat) (a b : Src) : Statement (.icmpBase c d a b) := by
  intro h r hr; cases hr
  obtain ⟨p, -, -, pf, -⟩ := Instr.wf_parts h
  change ∀ o ∈ ([bd d, bs a 1, bs b 1] : List Opnd), _ at p
  change (noLit [a] && !b.isUni) = true at pf
  simp only [List.forall_mem_cons, List.not_mem_nil, false_implies, implies_true, and_true, xs, xd, xdd, bs, bd,
    Bool.and_eq_true, decide_eq_true_eq, Bool.not_eq_true', Dst.field_toSrc, Src.field_v, Src.field_s, mmulOk, mvxOk] at p pf
  refine base rfl ?_
  simp only [raw2]
  grind [Dst.twinOp_lt, Src.uselBit_zero, ICond.code_lt, Src.uselBit_le]
theorem faddBase (t : BTy) (d : Nat) (a b : Src) : Statement (.faddBase t d a b) := by
  intro h r hr; cases hr
  obtain ⟨p, -, -, pf, -⟩ := Instr.wf_parts h
  change ∀ o ∈ ([bd d, bs a 1, bs b 1] : List Opnd), _ at p
  change (noLit [a] && !b.isUni) = true at pf
  simp only [List.forall_mem_cons, List.not_mem_nil, false_implies, implies_true, and_true, xs, xd, xdd, bs, bd,
    Bool.and_eq_true, decide_eq_true_eq, Bool.not_eq_true', Dst.field_toSrc, Src.field_v, Src.field_s, mmulOk, mvxOk] at p pf
  refine base rfl ?_
  simp only [raw2]
  grind [Dst.twinOp_lt, Src.uselBit_zero, BTy.code_lt, Src.uselBit_le]
theorem fsubBase (t : BTy) (d : Nat) (a b : Src) : Statement (.fsubBase t d a b) := by
  intro h r hr; cases hr
  obtain ⟨p, -, -, pf, -⟩ := Instr.wf_parts h
  change ∀ o ∈ ([bd d, bs a 1, bs b 1] : List Opnd), _ at p
  change (noLit [a] && !b.isUni) = true at pf
  simp only [List.forall_mem_cons, List.not_mem_nil, false_implies, implies_true, and_true, xs, xd, xdd, bs, bd,
    Bool.and_eq_true, decide_eq_true_eq, Bool.not_eq_true', Dst.field_toSrc, Src.field_v, Src.field_s, mmulOk, mvxOk] at p pf
  refine base rfl ?_
  simp only [raw2]
  grind [Dst.twinOp_lt, Src.uselBit_zero, BTy.code_lt, Src.uselBit_le]
theorem fmulBase (t : BTy) (d : Nat) (a b : Src) : Statement (.fmulBase t d a b) := by
  intro h r hr; cases hr
  obtain ⟨p, -, -, pf, -⟩ := Instr.wf_parts h
  change ∀ o ∈ ([bd d, bs a 1, bs b 1] : List Opnd), _ at p
  change (noLit [a] && !b.isUni) = true at pf
  simp only [List.forall_mem_cons, List.not_mem_nil, false_implies, implies_true, and_true, xs, xd, xdd, bs, bd,
    Bool.and_eq_true, decide_eq_true_eq, Bool.not_eq_true', Dst.field_toSrc, Src.field_v, Src.field_s, mmulOk, mvxOk] at p pf
  refine base rfl ?_
  simp only [raw2]
  grind [Dst.twinOp_lt, Src.uselBit_zero, BTy.code_lt, Src.uselBit_le]
theorem fminBase (t : BTy) (d : Nat) (a b : Src) : Statement (.fminBase t d a b) := by
  intro h r hr; cases hr
  obtain ⟨p, -, -, pf, -⟩ := Instr.wf_parts h
  change ∀ o ∈ ([bd d, bs a 1, bs b 1] : List Opnd), _ at p
  change (noLit [a] && !b.isUni) = true at pf
  simp only [List.forall_mem_cons, List.not_mem_nil, false_implies, implies_true, and_true, xs, xd, xdd, bs, bd,
    Bool.and_eq_true, decide_eq_true_eq, Bool.not_eq_true', Dst.field_toSrc, Src.field_v, Src.field_s, mmulOk, mvxOk] at p pf
  refine base rfl ?_
  simp only [raw2]
  grind [Dst.twinOp_lt, Src.uselBit_zero, BTy.code_lt, Src.uselBit_le]
theorem fmaxBase (t : BTy) (d : Nat) (a b : Src) : Statement (.fmaxBase t d a b) := by
  intro h r hr; cases hr
  obtain ⟨p, -, -, pf, -⟩ := Instr.wf_parts h
  change ∀ o ∈ ([bd d, bs a 1, bs b 1] : List Opnd), _ at p
  change (noLit [a] && !b.isUni) = true at pf
  simp only [List.forall_mem_cons, List.not_mem_nil, false_implies, implies_true, and_true, xs, xd, xdd, bs, bd,
    Bool.and_eq_true, decide_eq_true_eq, Bool.not_eq_true', Dst.field_toSrc, Src.field_v, Src.field_s, mmulOk, mvxOk] at p pf
  refine base rfl ?_
  simp only [raw2]
  grind [Dst.twinOp_lt, Src.uselBit_zero, BTy.code_lt, Src.uselBit_le]
theorem fcmpBase (c : FCond) (d : Nat) (a b : Src) : Statement (.fcmpBase c d a b) := by
  intro h r hr; cases hr
  obtain ⟨p, -, -, pf, -⟩ := Instr.wf_parts h
  change ∀ o ∈ ([bd d, bs a 1, bs b 1] : List Opnd), _ at p
  change (noLit [a] && !b.isUni && decide (c.code < 6)) = true at pf
  simp only [List.forall_mem_cons, List.not_mem_nil, false_implies, implies_true, and_true, xs, xd, xdd, bs, bd,
    Bool.and_eq_true, decide_eq_true_eq, Bool.not_eq_true', Dst.field_toSrc, Src.field_v, Src.field_s, mmulOk, mvxOk] at p pf
  refine base rfl ?_
  simp only [raw2]
  grind [Dst.twinOp_lt, Src.uselBit_zero, FCond.code_lt, Src.uselBit_le]
theorem brxBase (a : Src) : Statement (.brxBase a) := by
  intro h r hr; cases hr
  obtain ⟨p, -, -, pf, -⟩ := Instr.wf_parts h
  change ∀ o ∈ ([bs a 2] : List Opnd), _ at p
  change (noLit [a]) = true at pf
  simp only [List.forall_mem_cons, List.not_mem_nil, false_implies, implies_true, and_true, xs, xd, xdd, bs, bd,
    Bool.and_eq_true, decide_eq_true_eq, Bool.not_eq_true', Dst.field_toSrc, Src.field_v, Src.field_s, mmulOk, mvxOk] at p pf
  refine base rfl ?_
  simp only [raw1]
  grind [Dst.twinOp_lt, Src.uselBit_zero, Src.uselBit_le]
theorem retBase : Statement .retBase := by
  intro _ r hr; cases hr
  exact base rfl (by decide)
theorem exitBase : Statement .exitBase := by
  intro _ r hr; cases hr
  exact base rfl (by decide)
theorem brkBase : Statement .brkBase := by
  intro _ r hr; cases hr
  exact base rfl (by decide)
theorem braBase (disp : DWord) : Statement (.braBase disp) := by
  intro _ r hr; cases hr
  exact base rfl (by simp only [rawLabel]; grind)
theorem bnzBase (a : Src) (disp : DWord) : Statement (.bnzBase a disp) := by
  intro h r hr; cases hr
  obtain ⟨p, -, -, pf, -⟩ := Instr.wf_parts h
  change ∀ o ∈ ([bs a 1] : List Opnd), _ at p
  change (noLit [a]) = true at pf
  simp only [List.forall_mem_cons, List.not_mem_nil, false_implies, implies_true, and_true, xs, xd, xdd, bs, bd,
    Bool.and_eq_true, decide_eq_true_eq, Bool.not_eq_true', Dst.field_toSrc, Src.field_v, Src.field_s, mmulOk, mvxOk] at p pf
  refine base rfl ?_
  simp only [raw1]
  grind [Dst.twinOp_lt, Src.uselBit_zero, Src.uselBit_le]
theorem bzBase (a : Src) (disp : DWord) : Statement (.bzBase a disp) := by
  intro h r hr; cases hr
  obtain ⟨p, -, -, pf, -⟩ := Instr.wf_parts h
  change ∀ o ∈ ([bs a 1] : List Opnd), _ at p
  change (noLit [a]) = true at pf
  simp only [List.forall_mem_cons, List.not_mem_nil, false_implies, implies_true, and_true, xs, xd, xdd, bs, bd,
    Bool.and_eq_true, decide_eq_true_eq, Bool.not_eq_true', Dst.field_toSrc, Src.field_v, Src.field_s, mmulOk, mvxOk] at p pf
  refine base rfl ?_
  simp only [raw1]
  grind [Dst.twinOp_lt, Src.uselBit_zero, Src.uselBit_le]
theorem meetBase (disp : DWord) : Statement (.meetBase disp) := by
  intro _ r hr; cases hr
  exact base rfl (by simp only [rawLabel]; grind)
theorem nop : Statement .nop := by
  intro _ r hr; cases hr
  exact ext rfl (by decide)
theorem bra (disp : DWord) : Statement (.bra disp) := by
  intro _ r hr; cases hr
  exact ext rfl (by simp only [rawLabel]; grind)
theorem bnz (a : Src) (disp : DWord) : Statement (.bnz a disp) := by
  intro h r hr; cases hr
  obtain ⟨p, -, -, pf, -⟩ := Instr.wf_parts h
  change ∀ o ∈ ([xs a 1] : List Opnd), _ at p
  change (noLit [a]) = true at pf
  simp only [List.forall_mem_cons, List.not_mem_nil, false_implies, implies_true, and_true, xs, xd, xdd, bs, bd,
    Bool.and_eq_true, decide_eq_true_eq, Bool.not_eq_true', Dst.field_toSrc, Src.field_v, Src.field_s, mmulOk, mvxOk] at p pf
  refine ext rfl ?_
  simp only [raw1]
  grind [Dst.twinOp_lt, Src.uselBit_zero, Src.uselBit_le]
theorem bz (a : Src) (disp : DWord) : Statement (.bz a disp) := by
  intro h r hr; cases hr
  obtain ⟨p, -, -, pf, -⟩ := Instr.wf_parts h
  change ∀ o ∈ ([xs a 1] : List Opnd), _ at p
  change (noLit [a]) = true at pf
  simp only [List.forall_mem_cons, List.not_mem_nil, false_implies, implies_true, and_true, xs, xd, xdd, bs, bd,
    Bool.and_eq_true, decide_eq_true_eq, Bool.not_eq_true', Dst.field_toSrc, Src.field_v, Src.field_s, mmulOk, mvxOk] at p pf
  refine ext rfl ?_
  simp only [raw1]
  grind [Dst.twinOp_lt, Src.uselBit_zero, Src.uselBit_le]
theorem brx (a : Src) : Statement (.brx a) := by
  intro h r hr; cases hr
  obtain ⟨p, -, -, pf, -⟩ := Instr.wf_parts h
  change ∀ o ∈ ([xs a 2] : List Opnd), _ at p
  change (noLit [a]) = true at pf
  simp only [List.forall_mem_cons, List.not_mem_nil, false_implies, implies_true, and_true, xs, xd, xdd, bs, bd,
    Bool.and_eq_true, decide_eq_true_eq, Bool.not_eq_true', Dst.field_toSrc, Src.field_v, Src.field_s, mmulOk, mvxOk] at p pf
  refine ext rfl ?_
  simp only [raw1]
  grind [Dst.twinOp_lt, Src.uselBit_zero, Src.uselBit_le]
theorem meet (disp : DWord) : Statement (.meet disp) := by
  intro _ r hr; cases hr
  exact ext rfl (by simp only [rawLabel]; grind)
theorem call (adv : Nat) (disp : DWord) : Statement (.call adv disp) := by
  intro h r hr; cases hr
  obtain ⟨p, -, -, pf, -⟩ := Instr.wf_parts h
  change (decide (adv ≤ 128)) = true at pf
  simp only [List.forall_mem_cons, List.not_mem_nil, false_implies, implies_true, and_true, xs, xd, xdd, bs, bd,
    Bool.and_eq_true, decide_eq_true_eq, Bool.not_eq_true', Dst.field_toSrc, Src.field_v, Src.field_s, mmulOk, mvxOk] at pf
  exact ext rfl (by simp only [rawLabel]; grind)
theorem calli (a : Src) (adv : Nat) : Statement (.calli a adv) := by
  intro h r hr; cases hr
  obtain ⟨p, -, -, pf, -⟩ := Instr.wf_parts h
  change ∀ o ∈ ([xs a 2] : List Opnd), _ at p
  change (noLit [a] && decide (adv ≤ 128)) = true at pf
  simp only [List.forall_mem_cons, List.not_mem_nil, false_implies, implies_true, and_true, xs, xd, xdd, bs, bd,
    Bool.and_eq_true, decide_eq_true_eq, Bool.not_eq_true', Dst.field_toSrc, Src.field_v, Src.field_s, mmulOk, mvxOk] at p pf
  refine ext rfl ?_
  simp only [raw1]
  grind [Dst.twinOp_lt, Src.uselBit_zero, Src.uselBit_le]
theorem frame (n8 : Nat) : Statement (.frame n8) := by
  intro h r hr; cases hr
  obtain ⟨p, -, -, pf, -⟩ := Instr.wf_parts h
  change (decide (1 ≤ n8) && decide (n8 ≤ 128)) = true at pf
  simp only [List.forall_mem_cons, List.not_mem_nil, false_implies, implies_true, and_true, xs, xd, xdd, bs, bd,
    Bool.and_eq_true, decide_eq_true_eq, Bool.not_eq_true', Dst.field_toSrc, Src.field_v, Src.field_s, mmulOk, mvxOk] at pf
  exact ext rfl (by grind)
theorem ret : Statement .ret := by
  intro _ r hr; cases hr
  exact ext rfl (by decide)
theorem exit : Statement .exit := by
  intro _ r hr; cases hr
  exact ext rfl (by decide)
theorem refill (d : Nat) (disp : DWord) : Statement (.refill d disp) := by
  intro h r hr; cases hr
  obtain ⟨p, -, -, -, -⟩ := Instr.wf_parts h
  change ∀ o ∈ ([xd d 1] : List Opnd), _ at p
  simp only [List.forall_mem_cons, List.not_mem_nil, false_implies, implies_true, and_true, xs, xd, xdd, bs, bd,
    Bool.and_eq_true, decide_eq_true_eq, Bool.not_eq_true', Dst.field_toSrc, Src.field_v, Src.field_s, mmulOk, mvxOk] at p
  exact ext rfl (by simp only [rawLabel]; grind)
theorem brk (code : Nat) : Statement (.brk code) := by
  intro h r hr; cases hr
  obtain ⟨p, -, -, pf, -⟩ := Instr.wf_parts h
  change (decide (code < 4096)) = true at pf
  simp only [List.forall_mem_cons, List.not_mem_nil, false_implies, implies_true, and_true, xs, xd, xdd, bs, bd,
    Bool.and_eq_true, decide_eq_true_eq, Bool.not_eq_true', Dst.field_toSrc, Src.field_v, Src.field_s, mmulOk, mvxOk] at pf
  exact ext rfl (by grind)
theorem wrs (r : SpecialReg) (a : Src) : Statement (.wrs r a) := by
  intro h r hr; cases hr
  obtain ⟨p, -, -, pf, -⟩ := Instr.wf_parts h
  change ∀ o ∈ ([xs a r.regs] : List Opnd), _ at p
  change (r.writeOk && (decide (r = .meet) || !a.isVec)) = true at pf
  simp only [List.forall_mem_cons, List.not_mem_nil, false_implies, implies_true, and_true, xs, xd, xdd, bs, bd,
    Bool.and_eq_true, decide_eq_true_eq, Bool.not_eq_true', Dst.field_toSrc, Src.field_v, Src.field_s, mmulOk, mvxOk] at p pf
  refine ext rfl ?_
  simp only [raw1]
  grind [Dst.twinOp_lt, Src.uselBit_zero, SpecialReg.code_lt, Src.uselBit_le]
theorem part (a : Src) : Statement (.part a) := by
  intro h r hr; cases hr
  obtain ⟨p, -, -, pf, -⟩ := Instr.wf_parts h
  change ∀ o ∈ ([xs a 1] : List Opnd), _ at p
  change (!a.isVec) = true at pf
  simp only [List.forall_mem_cons, List.not_mem_nil, false_implies, implies_true, and_true, xs, xd, xdd, bs, bd,
    Bool.and_eq_true, decide_eq_true_eq, Bool.not_eq_true', Dst.field_toSrc, Src.field_v, Src.field_s, mmulOk, mvxOk] at p pf
  refine ext rfl ?_
  simp only [raw1]
  grind [Dst.twinOp_lt, Src.uselBit_zero, Src.uselBit_le]
theorem add (t : ITy) (d : Dst) (a b : Src) : Statement (.add t d a b) := by
  intro h r hr; cases hr
  obtain ⟨p, -, -, pf, -⟩ := Instr.wf_parts h
  change ∀ o ∈ ([xdd d t.regs, xs a t.regs, xs b t.regs] : List Opnd), _ at p
  change (noLit [a]) = true at pf
  simp only [List.forall_mem_cons, List.not_mem_nil, false_implies, implies_true, and_true, xs, xd, xdd, bs, bd,
    Bool.and_eq_true, decide_eq_true_eq, Bool.not_eq_true', Dst.field_toSrc, Src.field_v, Src.field_s, mmulOk, mvxOk] at p pf
  refine ext rfl ?_
  simp only [raw2]
  grind [Dst.twinOp_lt, Src.uselBit_zero, ITy.code_lt, Src.uselBit_le]
theorem sub (t : ITy) (d : Dst) (a b : Src) : Statement (.sub t d a b) := by
  intro h r hr; cases hr
  obtain ⟨p, -, -, pf, -⟩ := Instr.wf_parts h
  change ∀ o ∈ ([xdd d t.regs, xs a t.regs, xs b t.regs] : List Opnd), _ at p
  change (noLit [a]) = true at pf
  simp only [List.forall_mem_cons, List.not_mem_nil, false_implies, implies_true, and_true, xs, xd, xdd, bs, bd,
    Bool.and_eq_true, decide_eq_true_eq, Bool.not_eq_true', Dst.field_toSrc, Src.field_v, Src.field_s, mmulOk, mvxOk] at p pf
  refine ext rfl ?_
  simp only [raw2]
  grind [Dst.twinOp_lt, Src.uselBit_zero, ITy.code_lt, Src.uselBit_le]
theorem mul (t : ITy) (d : Dst) (a b : Src) : Statement (.mul t d a b) := by
  intro h r hr; cases hr
  obtain ⟨p, -, -, pf, -⟩ := Instr.wf_parts h
  change ∀ o ∈ ([xdd d t.regs, xs a t.regs, xs b t.regs] : List Opnd), _ at p
  change (noLit [a]) = true at pf
  simp only [List.forall_mem_cons, List.not_mem_nil, false_implies, implies_true, and_true, xs, xd, xdd, bs, bd,
    Bool.and_eq_true, decide_eq_true_eq, Bool.not_eq_true', Dst.field_toSrc, Src.field_v, Src.field_s, mmulOk, mvxOk] at p pf
  refine ext rfl ?_
  simp only [raw2]
  grind [Dst.twinOp_lt, Src.uselBit_zero, ITy.code_lt, Src.uselBit_le]
theorem mulhi (t : ITy) (d : Dst) (a b : Src) : Statement (.mulhi t d a b) := by
  intro h r hr; cases hr
  obtain ⟨p, -, -, pf, -⟩ := Instr.wf_parts h
  change ∀ o ∈ ([xdd d t.regs, xs a t.regs, xs b t.regs] : List Opnd), _ at p
  change (t.wide && noLit [a]) = true at pf
  simp only [List.forall_mem_cons, List.not_mem_nil, false_implies, implies_true, and_true, xs, xd, xdd, bs, bd,
    Bool.and_eq_true, decide_eq_true_eq, Bool.not_eq_true', Dst.field_toSrc, Src.field_v, Src.field_s, mmulOk, mvxOk] at p pf
  refine ext rfl ?_
  simp only [raw2]
  grind [Dst.twinOp_lt, Src.uselBit_zero, ITy.code_lt, Src.uselBit_le]
theorem mulw (t : ITy) (d : Dst) (a b : Src) : Statement (.mulw t d a b) := by
  intro h r hr; cases hr
  obtain ⟨p, -, -, pf, -⟩ := Instr.wf_parts h
  change ∀ o ∈ ([xdd d 2, xs a 1, xs b 1] : List Opnd), _ at p
  change ((t == .n32 || t == .i32) && noLit [a]) = true at pf
  simp only [List.forall_mem_cons, List.not_mem_nil, false_implies, implies_true, and_true, xs, xd, xdd, bs, bd,
    Bool.and_eq_true, decide_eq_true_eq, Bool.not_eq_true', Dst.field_toSrc, Src.field_v, Src.field_s, mmulOk, mvxOk] at p pf
  refine ext rfl ?_
  simp only [raw2]
  grind [Dst.twinOp_lt, Src.uselBit_zero, ITy.code_lt, Src.uselBit_le]
theorem mad (t : ITy) (d : Dst) (a b c : Src) : Statement (.mad t d a b c) := by
  intro h r hr; cases hr
  obtain ⟨p, -, -, pf, -⟩ := Instr.wf_parts h
  change ∀ o ∈ ([xdd d t.regs, xs a t.regs, xs b t.regs, xs c t.regs] : List Opnd), _ at p
  change (noLit [a, b]) = true at pf
  simp only [List.forall_mem_cons, List.not_mem_nil, false_implies, implies_true, and_true, xs, xd, xdd, bs, bd,
    Bool.and_eq_true, decide_eq_true_eq, Bool.not_eq_true', Dst.field_toSrc, Src.field_v, Src.field_s, mmulOk, mvxOk] at p pf
  refine ext rfl ?_
  simp only [raw3]
  grind [Dst.twinOp_lt, Src.uselBit_zero, ITy.code_lt, Src.uselBit_le]
theorem adds (t : ITy) (d : Dst) (a b : Src) : Statement (.adds t d a b) := by
  intro h r hr; cases hr
  obtain ⟨p, -, -, pf, -⟩ := Instr.wf_parts h
  change ∀ o ∈ ([xdd d t.regs, xs a t.regs, xs b t.regs] : List Opnd), _ at p
  change (noLit [a]) = true at pf
  simp only [List.forall_mem_cons, List.not_mem_nil, false_implies, implies_true, and_true, xs, xd, xdd, bs, bd,
    Bool.and_eq_true, decide_eq_true_eq, Bool.not_eq_true', Dst.field_toSrc, Src.field_v, Src.field_s, mmulOk, mvxOk] at p pf
  refine ext rfl ?_
  simp only [raw2]
  grind [Dst.twinOp_lt, Src.uselBit_zero, ITy.code_lt, Src.uselBit_le]
theorem subs (t : ITy) (d : Dst) (a b : Src) : Statement (.subs t d a b) := by
  intro h r hr; cases hr
  obtain ⟨p, -, -, pf, -⟩ := Instr.wf_parts h
  change ∀ o ∈ ([xdd d t.regs, xs a t.regs, xs b t.regs] : List Opnd), _ at p
  change (noLit [a]) = true at pf
  simp only [List.forall_mem_cons, List.not_mem_nil, false_implies, implies_true, and_true, xs, xd, xdd, bs, bd,
    Bool.and_eq_true, decide_eq_true_eq, Bool.not_eq_true', Dst.field_toSrc, Src.field_v, Src.field_s, mmulOk, mvxOk] at p pf
  refine ext rfl ?_
  simp only [raw2]
  grind [Dst.twinOp_lt, Src.uselBit_zero, ITy.code_lt, Src.uselBit_le]
theorem abs (t : ITy) (d : Dst) (a : Src) : Statement (.abs t d a) := by
  intro h r hr; cases hr
  obtain ⟨p, -, -, pf, -⟩ := Instr.wf_parts h
  change ∀ o ∈ ([xdd d t.regs, xs a t.regs] : List Opnd), _ at p
  change (t.signed) = true at pf
  simp only [List.forall_mem_cons, List.not_mem_nil, false_implies, implies_true, and_true, xs, xd, xdd, bs, bd,
    Bool.and_eq_true, decide_eq_true_eq, Bool.not_eq_true', Dst.field_toSrc, Src.field_v, Src.field_s, mmulOk, mvxOk] at p pf
  refine ext rfl ?_
  simp only [raw1]
  grind [Dst.twinOp_lt, Src.uselBit_zero, ITy.code_lt, Src.uselBit_le]
theorem min (t : ITy) (d : Dst) (a b : Src) : Statement (.min t d a b) := by
  intro h r hr; cases hr
  obtain ⟨p, -, -, pf, -⟩ := Instr.wf_parts h
  change ∀ o ∈ ([xdd d t.regs, xs a t.regs, xs b t.regs] : List Opnd), _ at p
  change (noLit [a]) = true at pf
  simp only [List.forall_mem_cons, List.not_mem_nil, false_implies, implies_true, and_true, xs, xd, xdd, bs, bd,
    Bool.and_eq_true, decide_eq_true_eq, Bool.not_eq_true', Dst.field_toSrc, Src.field_v, Src.field_s, mmulOk, mvxOk] at p pf
  refine ext rfl ?_
  simp only [raw2]
  grind [Dst.twinOp_lt, Src.uselBit_zero, ITy.code_lt, Src.uselBit_le]
theorem max (t : ITy) (d : Dst) (a b : Src) : Statement (.max t d a b) := by
  intro h r hr; cases hr
  obtain ⟨p, -, -, pf, -⟩ := Instr.wf_parts h
  change ∀ o ∈ ([xdd d t.regs, xs a t.regs, xs b t.regs] : List Opnd), _ at p
  change (noLit [a]) = true at pf
  simp only [List.forall_mem_cons, List.not_mem_nil, false_implies, implies_true, and_true, xs, xd, xdd, bs, bd,
    Bool.and_eq_true, decide_eq_true_eq, Bool.not_eq_true', Dst.field_toSrc, Src.field_v, Src.field_s, mmulOk, mvxOk] at p pf
  refine ext rfl ?_
  simp only [raw2]
  grind [Dst.twinOp_lt, Src.uselBit_zero, ITy.code_lt, Src.uselBit_le]
theorem and (t : ITy) (d : Dst) (a b : Src) : Statement (.and t d a b) := by
  intro h r hr; cases hr
  obtain ⟨p, -, -, pf, -⟩ := Instr.wf_parts h
  change ∀ o ∈ ([xdd d t.regs, xs a t.regs, xs b t.regs] : List Opnd), _ at p
  change (!t.signed && noLit [a]) = true at pf
  simp only [List.forall_mem_cons, List.not_mem_nil, false_implies, implies_true, and_true, xs, xd, xdd, bs, bd,
    Bool.and_eq_true, decide_eq_true_eq, Bool.not_eq_true', Dst.field_toSrc, Src.field_v, Src.field_s, mmulOk, mvxOk] at p pf
  refine ext rfl ?_
  simp only [raw2]
  grind [Dst.twinOp_lt, Src.uselBit_zero, ITy.code_lt, Src.uselBit_le]
theorem or (t : ITy) (d : Dst) (a b : Src) : Statement (.or t d a b) := by
  intro h r hr; cases hr
  obtain ⟨p, -, -, pf, -⟩ := Instr.wf_parts h
  change ∀ o ∈ ([xdd d t.regs, xs a t.regs, xs b t.regs] : List Opnd), _ at p
  change (!t.signed && noLit [a]) = true at pf
  simp only [List.forall_mem_cons, List.not_mem_nil, false_implies, implies_true, and_true, xs, xd, xdd, bs, bd,
    Bool.and_eq_true, decide_eq_true_eq, Bool.not_eq_true', Dst.field_toSrc, Src.field_v, Src.field_s, mmulOk, mvxOk] at p pf
  refine ext rfl ?_
  simp only [raw2]
  grind [Dst.twinOp_lt, Src.uselBit_zero, ITy.code_lt, Src.uselBit_le]
theorem xor (t : ITy) (d : Dst) (a b : Src) : Statement (.xor t d a b) := by
  intro h r hr; cases hr
  obtain ⟨p, -, -, pf, -⟩ := Instr.wf_parts h
  change ∀ o ∈ ([xdd d t.regs, xs a t.regs, xs b t.regs] : List Opnd), _ at p
  change (!t.signed && noLit [a]) = true at pf
  simp only [List.forall_mem_cons, List.not_mem_nil, false_implies, implies_true, and_true, xs, xd, xdd, bs, bd,
    Bool.and_eq_true, decide_eq_true_eq, Bool.not_eq_true', Dst.field_toSrc, Src.field_v, Src.field_s, mmulOk, mvxOk] at p pf
  refine ext rfl ?_
  simp only [raw2]
  grind [Dst.twinOp_lt, Src.uselBit_zero, ITy.code_lt, Src.uselBit_le]
theorem not (t : ITy) (d : Dst) (a : Src) : Statement (.not t d a) := by
  intro h r hr; cases hr
  obtain ⟨p, -, -, pf, -⟩ := Instr.wf_parts h
  change ∀ o ∈ ([xdd d t.regs, xs a t.regs] : List Opnd), _ at p
  change (!t.signed) = true at pf
  simp only [List.forall_mem_cons, List.not_mem_nil, false_implies, implies_true, and_true, xs, xd, xdd, bs, bd,
    Bool.and_eq_true, decide_eq_true_eq, Bool.not_eq_true', Dst.field_toSrc, Src.field_v, Src.field_s, mmulOk, mvxOk] at p pf
  refine ext rfl ?_
  simp only [raw1]
  grind [Dst.twinOp_lt, Src.uselBit_zero, ITy.code_lt, Src.uselBit_le]
theorem shl (t : ITy) (d : Dst) (a b : Src) : Statement (.shl t d a b) := by
  intro h r hr; cases hr
  obtain ⟨p, -, -, pf, -⟩ := Instr.wf_parts h
  change ∀ o ∈ ([xdd d t.regs, xs a t.regs, xs b 1] : List Opnd), _ at p
  change (noLit [a]) = true at pf
  simp only [List.forall_mem_cons, List.not_mem_nil, false_implies, implies_true, and_true, xs, xd, xdd, bs, bd,
    Bool.and_eq_true, decide_eq_true_eq, Bool.not_eq_true', Dst.field_toSrc, Src.field_v, Src.field_s, mmulOk, mvxOk] at p pf
  refine ext rfl ?_
  simp only [raw2]
  grind [Dst.twinOp_lt, Src.uselBit_zero, ITy.code_lt, Src.uselBit_le]
theorem shr (t : ITy) (d : Dst) (a b : Src) : Statement (.shr t d a b) := by
  intro h r hr; cases hr
  obtain ⟨p, -, -, pf, -⟩ := Instr.wf_parts h
  change ∀ o ∈ ([xdd d t.regs, xs a t.regs, xs b 1] : List Opnd), _ at p
  change (noLit [a]) = true at pf
  simp only [List.forall_mem_cons, List.not_mem_nil, false_implies, implies_true, and_true, xs, xd, xdd, bs, bd,
    Bool.and_eq_true, decide_eq_true_eq, Bool.not_eq_true', Dst.field_toSrc, Src.field_v, Src.field_s, mmulOk, mvxOk] at p pf
  refine ext rfl ?_
  simp only [raw2]
  grind [Dst.twinOp_lt, Src.uselBit_zero, ITy.code_lt, Src.uselBit_le]
theorem sra (t : ITy) (d : Dst) (a b : Src) : Statement (.sra t d a b) := by
  intro h r hr; cases hr
  obtain ⟨p, -, -, pf, -⟩ := Instr.wf_parts h
  change ∀ o ∈ ([xdd d t.regs, xs a t.regs, xs b 1] : List Opnd), _ at p
  change (noLit [a]) = true at pf
  simp only [List.forall_mem_cons, List.not_mem_nil, false_implies, implies_true, and_true, xs, xd, xdd, bs, bd,
    Bool.and_eq_true, decide_eq_true_eq, Bool.not_eq_true', Dst.field_toSrc, Src.field_v, Src.field_s, mmulOk, mvxOk] at p pf
  refine ext rfl ?_
  simp only [raw2]
  grind [Dst.twinOp_lt, Src.uselBit_zero, ITy.code_lt, Src.uselBit_le]
theorem rotl (t : ITy) (d : Dst) (a b : Src) : Statement (.rotl t d a b) := by
  intro h r hr; cases hr
  obtain ⟨p, -, -, pf, -⟩ := Instr.wf_parts h
  change ∀ o ∈ ([xdd d t.regs, xs a t.regs, xs b 1] : List Opnd), _ at p
  change (noLit [a]) = true at pf
  simp only [List.forall_mem_cons, List.not_mem_nil, false_implies, implies_true, and_true, xs, xd, xdd, bs, bd,
    Bool.and_eq_true, decide_eq_true_eq, Bool.not_eq_true', Dst.field_toSrc, Src.field_v, Src.field_s, mmulOk, mvxOk] at p pf
  refine ext rfl ?_
  simp only [raw2]
  grind [Dst.twinOp_lt, Src.uselBit_zero, ITy.code_lt, Src.uselBit_le]
theorem popc (t : ITy) (d : Dst) (a : Src) : Statement (.popc t d a) := by
  intro h r hr; cases hr
  obtain ⟨p, -, -, pf, -⟩ := Instr.wf_parts h
  change ∀ o ∈ ([xdd d 1, xs a t.regs] : List Opnd), _ at p
  change (!t.signed) = true at pf
  simp only [List.forall_mem_cons, List.not_mem_nil, false_implies, implies_true, and_true, xs, xd, xdd, bs, bd,
    Bool.and_eq_true, decide_eq_true_eq, Bool.not_eq_true', Dst.field_toSrc, Src.field_v, Src.field_s, mmulOk, mvxOk] at p pf
  refine ext rfl ?_
  simp only [raw1]
  grind [Dst.twinOp_lt, Src.uselBit_zero, ITy.code_lt, Src.uselBit_le]
theorem clz (t : ITy) (d : Dst) (a : Src) : Statement (.clz t d a) := by
  intro h r hr; cases hr
  obtain ⟨p, -, -, pf, -⟩ := Instr.wf_parts h
  change ∀ o ∈ ([xdd d 1, xs a t.regs] : List Opnd), _ at p
  change (!t.signed) = true at pf
  simp only [List.forall_mem_cons, List.not_mem_nil, false_implies, implies_true, and_true, xs, xd, xdd, bs, bd,
    Bool.and_eq_true, decide_eq_true_eq, Bool.not_eq_true', Dst.field_toSrc, Src.field_v, Src.field_s, mmulOk, mvxOk] at p pf
  refine ext rfl ?_
  simp only [raw1]
  grind [Dst.twinOp_lt, Src.uselBit_zero, ITy.code_lt, Src.uselBit_le]
theorem ctz (t : ITy) (d : Dst) (a : Src) : Statement (.ctz t d a) := by
  intro h r hr; cases hr
  obtain ⟨p, -, -, pf, -⟩ := Instr.wf_parts h
  change ∀ o ∈ ([xdd d 1, xs a t.regs] : List Opnd), _ at p
  change (!t.signed) = true at pf
  simp only [List.forall_mem_cons, List.not_mem_nil, false_implies, implies_true, and_true, xs, xd, xdd, bs, bd,
    Bool.and_eq_true, decide_eq_true_eq, Bool.not_eq_true', Dst.field_toSrc, Src.field_v, Src.field_s, mmulOk, mvxOk] at p pf
  refine ext rfl ?_
  simp only [raw1]
  grind [Dst.twinOp_lt, Src.uselBit_zero, ITy.code_lt, Src.uselBit_le]
theorem brev (t : ITy) (d : Dst) (a : Src) : Statement (.brev t d a) := by
  intro h r hr; cases hr
  obtain ⟨p, -, -, pf, -⟩ := Instr.wf_parts h
  change ∀ o ∈ ([xdd d t.regs, xs a t.regs] : List Opnd), _ at p
  change (!t.signed) = true at pf
  simp only [List.forall_mem_cons, List.not_mem_nil, false_implies, implies_true, and_true, xs, xd, xdd, bs, bd,
    Bool.and_eq_true, decide_eq_true_eq, Bool.not_eq_true', Dst.field_toSrc, Src.field_v, Src.field_s, mmulOk, mvxOk] at p pf
  refine ext rfl ?_
  simp only [raw1]
  grind [Dst.twinOp_lt, Src.uselBit_zero, ITy.code_lt, Src.uselBit_le]
theorem bfe (t : ITy) (d : Dst) (a : Src) (pos widthM1 : Nat) : Statement (.bfe t d a pos widthM1) := by
  intro h r hr; cases hr
  obtain ⟨p, -, -, pf, -⟩ := Instr.wf_parts h
  change ∀ o ∈ ([xdd d t.regs, xs a t.regs] : List Opnd), _ at p
  change (t.wide && decide (pos < 64) && decide (widthM1 < 64) && decide (pos + widthM1 + 1 ≤ t.width)) = true at pf
  simp only [List.forall_mem_cons, List.not_mem_nil, false_implies, implies_true, and_true, xs, xd, xdd, bs, bd,
    Bool.and_eq_true, decide_eq_true_eq, Bool.not_eq_true', Dst.field_toSrc, Src.field_v, Src.field_s, mmulOk, mvxOk] at p pf
  refine ext rfl ?_
  simp only [raw1]
  grind [Dst.twinOp_lt, Src.uselBit_zero, ITy.code_lt, Src.uselBit_le]
theorem bfi (t : ITy) (d : Dst) (a b : Src) (pos widthM1 : Nat) : Statement (.bfi t d a b pos widthM1) := by
  intro h r hr; cases hr
  obtain ⟨p, -, -, pf, -⟩ := Instr.wf_parts h
  change ∀ o ∈ ([xdd d t.regs, xs a t.regs, xs b t.regs] : List Opnd), _ at p
  change (t.wide && !t.signed && decide (pos < 64) && decide (widthM1 < 64) && decide (pos + widthM1 + 1 ≤ t.width) && noLit [a]) = true at pf
  simp only [List.forall_mem_cons, List.not_mem_nil, false_implies, implies_true, and_true, xs, xd, xdd, bs, bd,
    Bool.and_eq_true, decide_eq_true_eq, Bool.not_eq_true', Dst.field_toSrc, Src.field_v, Src.field_s, mmulOk, mvxOk] at p pf
  refine ext rfl ?_
  simp only [raw2]
  grind [Dst.twinOp_lt, Src.uselBit_zero, ITy.code_lt, Src.uselBit_le]
theorem icmp (t : ITy) (c : ICond) (d : Dst) (a b : Src) : Statement (.icmp t c d a b) := by
  intro h r hr; cases hr
  obtain ⟨p, -, -, pf, -⟩ := Instr.wf_parts h
  change ∀ o ∈ ([xdd d 1, xs a t.regs, xs b t.regs] : List Opnd), _ at p
  change (noLit [a]) = true at pf
  simp only [List.forall_mem_cons, List.not_mem_nil, false_implies, implies_true, and_true, xs, xd, xdd, bs, bd,
    Bool.and_eq_true, decide_eq_true_eq, Bool.not_eq_true', Dst.field_toSrc, Src.field_v, Src.field_s, mmulOk, mvxOk] at p pf
  refine ext rfl ?_
  simp only [raw2]
  grind [Dst.twinOp_lt, Src.uselBit_zero, ITy.code_lt, ICond.code_lt, Src.uselBit_le]
theorem sel (t : ITy) (d : Dst) (a b c : Src) : Statement (.sel t d a b c) := by
  intro h r hr; cases hr
  obtain ⟨p, -, -, pf, -⟩ := Instr.wf_parts h
  change ∀ o ∈ ([xdd d t.regs, xs a t.regs, xs b t.regs, xs c 1] : List Opnd), _ at p
  change (noLit [a, b]) = true at pf
  simp only [List.forall_mem_cons, List.not_mem_nil, false_implies, implies_true, and_true, xs, xd, xdd, bs, bd,
    Bool.and_eq_true, decide_eq_true_eq, Bool.not_eq_true', Dst.field_toSrc, Src.field_v, Src.field_s, mmulOk, mvxOk] at p pf
  refine ext rfl ?_
  simp only [raw3]
  grind [Dst.twinOp_lt, Src.uselBit_zero, ITy.code_lt, Src.uselBit_le]
theorem lea (t : ITy) (d : Dst) (a b : Src) (sh : Nat) : Statement (.lea t d a b sh) := by
  intro h r hr; cases hr
  obtain ⟨p, -, -, pf, -⟩ := Instr.wf_parts h
  change ∀ o ∈ ([xdd d 2, xs a 2, xs b t.regs] : List Opnd), _ at p
  change (t.wide && decide (sh ≤ 8) && noLit [a]) = true at pf
  simp only [List.forall_mem_cons, List.not_mem_nil, false_implies, implies_true, and_true, xs, xd, xdd, bs, bd,
    Bool.and_eq_true, decide_eq_true_eq, Bool.not_eq_true', Dst.field_toSrc, Src.field_v, Src.field_s, mmulOk, mvxOk] at p pf
  refine ext rfl ?_
  simp only [raw2]
  grind [Dst.twinOp_lt, Src.uselBit_zero, ITy.code_lt, Src.uselBit_le]
theorem mov (t : ITy) (d : Dst) (a : Src) : Statement (.mov t d a) := by
  intro h r hr; cases hr
  obtain ⟨p, -, -, -, -⟩ := Instr.wf_parts h
  change ∀ o ∈ ([xdd d t.regs, xs a t.regs] : List Opnd), _ at p
  simp only [List.forall_mem_cons, List.not_mem_nil, false_implies, implies_true, and_true, xs, xd, xdd, bs, bd,
    Bool.and_eq_true, decide_eq_true_eq, Bool.not_eq_true', Dst.field_toSrc, Src.field_v, Src.field_s, mmulOk, mvxOk] at p
  refine ext rfl ?_
  simp only [raw1]
  grind [Dst.twinOp_lt, Src.uselBit_zero, ITy.code_lt, Src.uselBit_le]
theorem div (t : ITy) (d : Nat) (a b : Src) (f : Nat) : Statement (.div t d a b f) := by
  intro h r hr; cases hr
  obtain ⟨p, -, -, pf, pl⟩ := Instr.wf_parts h
  change ∀ o ∈ ([xd d (2 * t.regs), xs a t.regs, xs b t.regs] : List Opnd), _ at p
  change (t.wide && noLit [a]) = true at pf
  change decide (f < 12) = true at pl
  simp only [List.forall_mem_cons, List.not_mem_nil, false_implies, implies_true, and_true, xs, xd, xdd, bs, bd,
    Bool.and_eq_true, decide_eq_true_eq, Bool.not_eq_true', Dst.field_toSrc, Src.field_v, Src.field_s, mmulOk, mvxOk] at p pf pl
  refine ext rfl ?_
  simp only [raw2]
  grind [Dst.twinOp_lt, Src.uselBit_zero, ITy.code_lt, Src.uselBit_le]
theorem rds (d : Dst) (r : SpecialReg) : Statement (.rds d r) := by
  intro h r hr; cases hr
  obtain ⟨p, -, -, pf, -⟩ := Instr.wf_parts h
  change ∀ o ∈ ([xdd d r.regs] : List Opnd), _ at p
  change (!d.isUni || r.twinOk) = true at pf
  simp only [List.forall_mem_cons, List.not_mem_nil, false_implies, implies_true, and_true, xs, xd, xdd, bs, bd,
    Bool.and_eq_true, decide_eq_true_eq, Bool.not_eq_true', Dst.field_toSrc, Src.field_v, Src.field_s, mmulOk, mvxOk] at p pf
  refine ext rfl ?_
  grind [Dst.twinOp_lt, Src.uselBit_zero, SpecialReg.code_lt]
theorem fadd (t : FTy) (r : Rnd) (d : Nat) (a b : Src) : Statement (.fadd t r d a b) := by
  intro h r hr; cases hr
  obtain ⟨p, -, -, pf, -⟩ := Instr.wf_parts h
  change ∀ o ∈ ([xd d t.regs, xs a t.regs, xs b t.regs] : List Opnd), _ at p
  change (t.isArith && noLit [a]) = true at pf
  simp only [List.forall_mem_cons, List.not_mem_nil, false_implies, implies_true, and_true, xs, xd, xdd, bs, bd,
    Bool.and_eq_true, decide_eq_true_eq, Bool.not_eq_true', Dst.field_toSrc, Src.field_v, Src.field_s, mmulOk, mvxOk] at p pf
  refine ext rfl ?_
  simp only [raw2]
  grind [Dst.twinOp_lt, Src.uselBit_zero, FTy.code_lt, Rnd.code_lt, Src.uselBit_le]
theorem fsub (t : FTy) (r : Rnd) (d : Nat) (a b : Src) : Statement (.fsub t r d a b) := by
  intro h r hr; cases hr
  obtain ⟨p, -, -, pf, -⟩ := Instr.wf_parts h
  change ∀ o ∈ ([xd d t.regs, xs a t.regs, xs b t.regs] : List Opnd), _ at p
  change (t.isArith && noLit [a]) = true at pf
  simp only [List.forall_mem_cons, List.not_mem_nil, false_implies, implies_true, and_true, xs, xd, xdd, bs, bd,
    Bool.and_eq_true, decide_eq_true_eq, Bool.not_eq_true', Dst.field_toSrc, Src.field_v, Src.field_s, mmulOk, mvxOk] at p pf
  refine ext rfl ?_
  simp only [raw2]
  grind [Dst.twinOp_lt, Src.uselBit_zero, FTy.code_lt, Rnd.code_lt, Src.uselBit_le]
theorem fmul (t : FTy) (r : Rnd) (d : Nat) (a b : Src) : Statement (.fmul t r d a b) := by
  intro h r hr; cases hr
  obtain ⟨p, -, -, pf, -⟩ := Instr.wf_parts h
  change ∀ o ∈ ([xd d t.regs, xs a t.regs, xs b t.regs] : List Opnd), _ at p
  change (t.isArith && noLit [a]) = true at pf
  simp only [List.forall_mem_cons, List.not_mem_nil, false_implies, implies_true, and_true, xs, xd, xdd, bs, bd,
    Bool.and_eq_true, decide_eq_true_eq, Bool.not_eq_true', Dst.field_toSrc, Src.field_v, Src.field_s, mmulOk, mvxOk] at p pf
  refine ext rfl ?_
  simp only [raw2]
  grind [Dst.twinOp_lt, Src.uselBit_zero, FTy.code_lt, Rnd.code_lt, Src.uselBit_le]
theorem ffma (t : FTy) (r : Rnd) (d : Nat) (a b c : Src) : Statement (.ffma t r d a b c) := by
  intro h r hr; cases hr
  obtain ⟨p, -, -, pf, -⟩ := Instr.wf_parts h
  change ∀ o ∈ ([xd d t.regs, xs a t.regs, xs b t.regs, xs c t.regs] : List Opnd), _ at p
  change (t.isArith && noLit [a, b]) = true at pf
  simp only [List.forall_mem_cons, List.not_mem_nil, false_implies, implies_true, and_true, xs, xd, xdd, bs, bd,
    Bool.and_eq_true, decide_eq_true_eq, Bool.not_eq_true', Dst.field_toSrc, Src.field_v, Src.field_s, mmulOk, mvxOk] at p pf
  refine ext rfl ?_
  simp only [raw3]
  grind [Dst.twinOp_lt, Src.uselBit_zero, FTy.code_lt, Rnd.code_lt, Src.uselBit_le]
theorem fmin (t : FTy) (d : Nat) (a b : Src) : Statement (.fmin t d a b) := by
  intro h r hr; cases hr
  obtain ⟨p, -, -, pf, -⟩ := Instr.wf_parts h
  change ∀ o ∈ ([xd d t.regs, xs a t.regs, xs b t.regs] : List Opnd), _ at p
  change (t.isArith && noLit [a]) = true at pf
  simp only [List.forall_mem_cons, List.not_mem_nil, false_implies, implies_true, and_true, xs, xd, xdd, bs, bd,
    Bool.and_eq_true, decide_eq_true_eq, Bool.not_eq_true', Dst.field_toSrc, Src.field_v, Src.field_s, mmulOk, mvxOk] at p pf
  refine ext rfl ?_
  simp only [raw2]
  grind [Dst.twinOp_lt, Src.uselBit_zero, FTy.code_lt, Src.uselBit_le]
theorem fmax (t : FTy) (d : Nat) (a b : Src) : Statement (.fmax t d a b) := by
  intro h r hr; cases hr
  obtain ⟨p, -, -, pf, -⟩ := Instr.wf_parts h
  change ∀ o ∈ ([xd d t.regs, xs a t.regs, xs b t.regs] : List Opnd), _ at p
  change (t.isArith && noLit [a]) = true at pf
  simp only [List.forall_mem_cons, List.not_mem_nil, false_implies, implies_true, and_true, xs, xd, xdd, bs, bd,
    Bool.and_eq_true, decide_eq_true_eq, Bool.not_eq_true', Dst.field_toSrc, Src.field_v, Src.field_s, mmulOk, mvxOk] at p pf
  refine ext rfl ?_
  simp only [raw2]
  grind [Dst.twinOp_lt, Src.uselBit_zero, FTy.code_lt, Src.uselBit_le]
theorem fabs (t : FTy) (d : Nat) (a : Src) : Statement (.fabs t d a) := by
  intro h r hr; cases hr
  obtain ⟨p, -, -, pf, -⟩ := Instr.wf_parts h
  change ∀ o ∈ ([xd d t.regs, xs a t.regs] : List Opnd), _ at p
  change (t.isArith) = true at pf
  simp only [List.forall_mem_cons, List.not_mem_nil, false_implies, implies_true, and_true, xs, xd, xdd, bs, bd,
    Bool.and_eq_true, decide_eq_true_eq, Bool.not_eq_true', Dst.field_toSrc, Src.field_v, Src.field_s, mmulOk, mvxOk] at p pf
  refine ext rfl ?_
  simp only [raw1]
  grind [Dst.twinOp_lt, Src.uselBit_zero, FTy.code_lt, Src.uselBit_le]
theorem fneg (t : FTy) (d : Nat) (a : Src) : Statement (.fneg t d a) := by
  intro h r hr; cases hr
  obtain ⟨p, -, -, pf, -⟩ := Instr.wf_parts h
  change ∀ o ∈ ([xd d t.regs, xs a t.regs] : List Opnd), _ at p
  change (t.isArith) = true at pf
  simp only [List.forall_mem_cons, List.not_mem_nil, false_implies, implies_true, and_true, xs, xd, xdd, bs, bd,
    Bool.and_eq_true, decide_eq_true_eq, Bool.not_eq_true', Dst.field_toSrc, Src.field_v, Src.field_s, mmulOk, mvxOk] at p pf
  refine ext rfl ?_
  simp only [raw1]
  grind [Dst.twinOp_lt, Src.uselBit_zero, FTy.code_lt, Src.uselBit_le]
theorem fcmp (t : FTy) (c : FCond) (d : Nat) (a b : Src) : Statement (.fcmp t c d a b) := by
  intro h r hr; cases hr
  obtain ⟨p, -, -, pf, -⟩ := Instr.wf_parts h
  change ∀ o ∈ ([xd d 1, xs a t.regs, xs b t.regs] : List Opnd), _ at p
  change (t.isArith && noLit [a]) = true at pf
  simp only [List.forall_mem_cons, List.not_mem_nil, false_implies, implies_true, and_true, xs, xd, xdd, bs, bd,
    Bool.and_eq_true, decide_eq_true_eq, Bool.not_eq_true', Dst.field_toSrc, Src.field_v, Src.field_s, mmulOk, mvxOk] at p pf
  refine ext rfl ?_
  simp only [raw2]
  grind [Dst.twinOp_lt, Src.uselBit_zero, FTy.code_lt, FCond.code_lt, Src.uselBit_le]
theorem frnd (t : FTy) (r : Rnd) (d : Nat) (a : Src) : Statement (.frnd t r d a) := by
  intro h r hr; cases hr
  obtain ⟨p, -, -, pf, -⟩ := Instr.wf_parts h
  change ∀ o ∈ ([xd d t.regs, xs a t.regs] : List Opnd), _ at p
  change (t.isArith) = true at pf
  simp only [List.forall_mem_cons, List.not_mem_nil, false_implies, implies_true, and_true, xs, xd, xdd, bs, bd,
    Bool.and_eq_true, decide_eq_true_eq, Bool.not_eq_true', Dst.field_toSrc, Src.field_v, Src.field_s, mmulOk, mvxOk] at p pf
  refine ext rfl ?_
  simp only [raw1]
  grind [Dst.twinOp_lt, Src.uselBit_zero, FTy.code_lt, Rnd.code_lt, Src.uselBit_le]
theorem fclass (t : FTy) (d : Nat) (a : Src) : Statement (.fclass t d a) := by
  intro h r hr; cases hr
  obtain ⟨p, -, -, pf, -⟩ := Instr.wf_parts h
  change ∀ o ∈ ([xd d 1, xs a t.regs] : List Opnd), _ at p
  change (t.isArith) = true at pf
  simp only [List.forall_mem_cons, List.not_mem_nil, false_implies, implies_true, and_true, xs, xd, xdd, bs, bd,
    Bool.and_eq_true, decide_eq_true_eq, Bool.not_eq_true', Dst.field_toSrc, Src.field_v, Src.field_s, mmulOk, mvxOk] at p pf
  refine ext rfl ?_
  simp only [raw1]
  grind [Dst.twinOp_lt, Src.uselBit_zero, FTy.code_lt, Src.uselBit_le]
theorem lerp (t : FTy) (r : Rnd) (d : Nat) (a b c : Src) : Statement (.lerp t r d a b c) := by
  intro h r hr; cases hr
  obtain ⟨p, -, -, pf, -⟩ := Instr.wf_parts h
  change ∀ o ∈ ([xd d t.regs, xs a t.regs, xs b t.regs, xs c t.regs] : List Opnd), _ at p
  change (t.isArith && t != .f64 && noLit [a, b]) = true at pf
  simp only [List.forall_mem_cons, List.not_mem_nil, false_implies, implies_true, and_true, xs, xd, xdd, bs, bd,
    Bool.and_eq_true, decide_eq_true_eq, Bool.not_eq_true', Dst.field_toSrc, Src.field_v, Src.field_s, mmulOk, mvxOk] at p pf
  refine ext rfl ?_
  simp only [raw3]
  grind [Dst.twinOp_lt, Src.uselBit_zero, FTy.code_lt, Rnd.code_lt, Src.uselBit_le]
theorem fdot2 (t : FTy) (d : Nat) (a b c : Src) : Statement (.fdot2 t d a b c) := by
  intro h r hr; cases hr
  obtain ⟨p, -, -, pf, -⟩ := Instr.wf_parts h
  change ∀ o ∈ ([xd d 1, xs a (if t = .f32 then 2 else t.regs), xs b (if t = .f32 then 2 else t.regs), xs c 1] : List Opnd), _ at p
  change (t.isArith && t != .f64 && noLit [a, b]) = true at pf
  simp only [List.forall_mem_cons, List.not_mem_nil, false_implies, implies_true, and_true, xs, xd, xdd, bs, bd,
    Bool.and_eq_true, decide_eq_true_eq, Bool.not_eq_true', Dst.field_toSrc, Src.field_v, Src.field_s, mmulOk, mvxOk] at p pf
  refine ext rfl ?_
  simp only [raw3]
  grind [Dst.twinOp_lt, Src.uselBit_zero, FTy.code_lt, Src.uselBit_le]
theorem cvt (to_ from_ : FTy) (r : Rnd) (d : Nat) (a : Src) : Statement (.cvt to_ from_ r d a) := by
  intro h r hr; cases hr
  obtain ⟨p, -, -, pf, -⟩ := Instr.wf_parts h
  change ∀ o ∈ ([xd d (cvtRegs to_ (cvtCount to_ from_)), xs a (cvtRegs from_ (cvtCount to_ from_))] : List Opnd), _ at p
  change (to_ != from_ && (!a.isLit || decide (cvtRegs from_ (cvtCount to_ from_) ≤ 2))) = true at pf
  simp only [List.forall_mem_cons, List.not_mem_nil, false_implies, implies_true, and_true, xs, xd, xdd, bs, bd,
    Bool.and_eq_true, decide_eq_true_eq, Bool.not_eq_true', Dst.field_toSrc, Src.field_v, Src.field_s, mmulOk, mvxOk] at p pf
  refine ext rfl ?_
  simp only [raw1]
  grind [Dst.twinOp_lt, Src.uselBit_zero, FTy.code_lt, Rnd.code_lt, Src.uselBit_le]
theorem cvtfi (to_ : ITy) (from_ : FTy) (r : Rnd) (d : Nat) (a : Src) : Statement (.cvtfi to_ from_ r d a) := by
  intro h r hr; cases hr
  obtain ⟨p, -, -, pf, -⟩ := Instr.wf_parts h
  change ∀ o ∈ ([xd d to_.regs, xs a from_.regs] : List Opnd), _ at p
  change (from_.isArith) = true at pf
  simp only [List.forall_mem_cons, List.not_mem_nil, false_implies, implies_true, and_true, xs, xd, xdd, bs, bd,
    Bool.and_eq_true, decide_eq_true_eq, Bool.not_eq_true', Dst.field_toSrc, Src.field_v, Src.field_s, mmulOk, mvxOk] at p pf
  refine ext rfl ?_
  simp only [raw1]
  grind [Dst.twinOp_lt, Src.uselBit_zero, ITy.code_lt, FTy.code_lt, Rnd.code_lt, Src.uselBit_le]
theorem cvtif (to_ : FTy) (from_ : ITy) (r : Rnd) (d : Nat) (a : Src) : Statement (.cvtif to_ from_ r d a) := by
  intro h r hr; cases hr
  obtain ⟨p, -, -, pf, -⟩ := Instr.wf_parts h
  change ∀ o ∈ ([xd d to_.regs, xs a from_.regs] : List Opnd), _ at p
  change (to_.isArith) = true at pf
  simp only [List.forall_mem_cons, List.not_mem_nil, false_implies, implies_true, and_true, xs, xd, xdd, bs, bd,
    Bool.and_eq_true, decide_eq_true_eq, Bool.not_eq_true', Dst.field_toSrc, Src.field_v, Src.field_s, mmulOk, mvxOk] at p pf
  refine ext rfl ?_
  simp only [raw1]
  grind [Dst.twinOp_lt, Src.uselBit_zero, FTy.code_lt, ITy.code_lt, Rnd.code_lt, Src.uselBit_le]
theorem rcp (t : FTy) (d : Nat) (a : Src) : Statement (.rcp t d a) := by
  intro h r hr; cases hr
  obtain ⟨p, -, -, pf, -⟩ := Instr.wf_parts h
  change ∀ o ∈ ([xd d t.regs, xs a t.regs] : List Opnd), _ at p
  change (t == .f32 || t == .f16) = true at pf
  simp only [List.forall_mem_cons, List.not_mem_nil, false_implies, implies_true, and_true, xs, xd, xdd, bs, bd,
    Bool.and_eq_true, decide_eq_true_eq, Bool.not_eq_true', Dst.field_toSrc, Src.field_v, Src.field_s, mmulOk, mvxOk] at p pf
  refine ext rfl ?_
  simp only [raw1]
  grind [Dst.twinOp_lt, Src.uselBit_zero, FTy.code_lt, Src.uselBit_le]
theorem rsqrt (t : FTy) (d : Nat) (a : Src) : Statement (.rsqrt t d a) := by
  intro h r hr; cases hr
  obtain ⟨p, -, -, pf, -⟩ := Instr.wf_parts h
  change ∀ o ∈ ([xd d t.regs, xs a t.regs] : List Opnd), _ at p
  change (t == .f32 || t == .f16) = true at pf
  simp only [List.forall_mem_cons, List.not_mem_nil, false_implies, implies_true, and_true, xs, xd, xdd, bs, bd,
    Bool.and_eq_true, decide_eq_true_eq, Bool.not_eq_true', Dst.field_toSrc, Src.field_v, Src.field_s, mmulOk, mvxOk] at p pf
  refine ext rfl ?_
  simp only [raw1]
  grind [Dst.twinOp_lt, Src.uselBit_zero, FTy.code_lt, Src.uselBit_le]
theorem sqrt (t : FTy) (d : Nat) (a : Src) : Statement (.sqrt t d a) := by
  intro h r hr; cases hr
  obtain ⟨p, -, -, pf, -⟩ := Instr.wf_parts h
  change ∀ o ∈ ([xd d t.regs, xs a t.regs] : List Opnd), _ at p
  change (t == .f32 || t == .f16) = true at pf
  simp only [List.forall_mem_cons, List.not_mem_nil, false_implies, implies_true, and_true, xs, xd, xdd, bs, bd,
    Bool.and_eq_true, decide_eq_true_eq, Bool.not_eq_true', Dst.field_toSrc, Src.field_v, Src.field_s, mmulOk, mvxOk] at p pf
  refine ext rfl ?_
  simp only [raw1]
  grind [Dst.twinOp_lt, Src.uselBit_zero, FTy.code_lt, Src.uselBit_le]
theorem exp2 (t : FTy) (d : Nat) (a : Src) : Statement (.exp2 t d a) := by
  intro h r hr; cases hr
  obtain ⟨p, -, -, pf, -⟩ := Instr.wf_parts h
  change ∀ o ∈ ([xd d t.regs, xs a t.regs] : List Opnd), _ at p
  change (t == .f32 || t == .f16) = true at pf
  simp only [List.forall_mem_cons, List.not_mem_nil, false_implies, implies_true, and_true, xs, xd, xdd, bs, bd,
    Bool.and_eq_true, decide_eq_true_eq, Bool.not_eq_true', Dst.field_toSrc, Src.field_v, Src.field_s, mmulOk, mvxOk] at p pf
  refine ext rfl ?_
  simp only [raw1]
  grind [Dst.twinOp_lt, Src.uselBit_zero, FTy.code_lt, Src.uselBit_le]
theorem log2 (t : FTy) (d : Nat) (a : Src) : Statement (.log2 t d a) := by
  intro h r hr; cases hr
  obtain ⟨p, -, -, pf, -⟩ := Instr.wf_parts h
  change ∀ o ∈ ([xd d t.regs, xs a t.regs] : List Opnd), _ at p
  change (t == .f32 || t == .f16) = true at pf
  simp only [List.forall_mem_cons, List.not_mem_nil, false_implies, implies_true, and_true, xs, xd, xdd, bs, bd,
    Bool.and_eq_true, decide_eq_true_eq, Bool.not_eq_true', Dst.field_toSrc, Src.field_v, Src.field_s, mmulOk, mvxOk] at p pf
  refine ext rfl ?_
  simp only [raw1]
  grind [Dst.twinOp_lt, Src.uselBit_zero, FTy.code_lt, Src.uselBit_le]
theorem sincospi (t : FTy) (d : Nat) (a : Src) : Statement (.sincospi t d a) := by
  intro h r hr; cases hr
  obtain ⟨p, -, -, pf, -⟩ := Instr.wf_parts h
  change ∀ o ∈ ([xd d 2, xs a t.regs] : List Opnd), _ at p
  change (t == .f32 || t == .f16) = true at pf
  simp only [List.forall_mem_cons, List.not_mem_nil, false_implies, implies_true, and_true, xs, xd, xdd, bs, bd,
    Bool.and_eq_true, decide_eq_true_eq, Bool.not_eq_true', Dst.field_toSrc, Src.field_v, Src.field_s, mmulOk, mvxOk] at p pf
  refine ext rfl ?_
  simp only [raw1]
  grind [Dst.twinOp_lt, Src.uselBit_zero, FTy.code_lt, Src.uselBit_le]
theorem tanh (t : FTy) (d : Nat) (a : Src) : Statement (.tanh t d a) := by
  intro h r hr; cases hr
  obtain ⟨p, -, -, pf, -⟩ := Instr.wf_parts h
  change ∀ o ∈ ([xd d t.regs, xs a t.regs] : List Opnd), _ at p
  change (t == .f32 || t == .f16) = true at pf
  simp only [List.forall_mem_cons, List.not_mem_nil, false_implies, implies_true, and_true, xs, xd, xdd, bs, bd,
    Bool.and_eq_true, decide_eq_true_eq, Bool.not_eq_true', Dst.field_toSrc, Src.field_v, Src.field_s, mmulOk, mvxOk] at p pf
  refine ext rfl ?_
  simp only [raw1]
  grind [Dst.twinOp_lt, Src.uselBit_zero, FTy.code_lt, Src.uselBit_le]
theorem vote (k : VoteKind) (d : Nat) (a : Src) : Statement (.vote k d a) := by
  intro h r hr; cases hr
  obtain ⟨p, -, -, pf, -⟩ := Instr.wf_parts h
  change ∀ o ∈ ([xd d 1, xs a 1] : List Opnd), _ at p
  change (noLit [a]) = true at pf
  simp only [List.forall_mem_cons, List.not_mem_nil, false_implies, implies_true, and_true, xs, xd, xdd, bs, bd,
    Bool.and_eq_true, decide_eq_true_eq, Bool.not_eq_true', Dst.field_toSrc, Src.field_v, Src.field_s, mmulOk, mvxOk] at p pf
  refine ext rfl ?_
  simp only [raw1]
  grind [Dst.twinOp_lt, Src.uselBit_zero, VoteKind.code_lt, Src.uselBit_le]
theorem matchLanes (t : CTy) (d : Nat) (a : Src) : Statement (.matchLanes t d a) := by
  intro h r hr; cases hr
  obtain ⟨p, -, -, pf, -⟩ := Instr.wf_parts h
  change ∀ o ∈ ([xd d 1, xs a t.regs] : List Opnd), _ at p
  change (noLit [a] && decide (t.code < 4)) = true at pf
  simp only [List.forall_mem_cons, List.not_mem_nil, false_implies, implies_true, and_true, xs, xd, xdd, bs, bd,
    Bool.and_eq_true, decide_eq_true_eq, Bool.not_eq_true', Dst.field_toSrc, Src.field_v, Src.field_s, mmulOk, mvxOk] at p pf
  refine ext rfl ?_
  simp only [raw1]
  grind [Dst.twinOp_lt, Src.uselBit_zero, CTy.code_lt, Src.uselBit_le]
theorem shfl (t : CTy) (m : ShflMode) (d : Nat) (a b : Src) : Statement (.shfl t m d a b) := by
  intro h r hr; cases hr
  obtain ⟨p, -, -, pf, -⟩ := Instr.wf_parts h
  change ∀ o ∈ ([xd d t.regs, xs a t.regs, xs b 1] : List Opnd), _ at p
  change (noLit [a] && (t == .n32 || t == .n64)) = true at pf
  simp only [List.forall_mem_cons, List.not_mem_nil, false_implies, implies_true, and_true, xs, xd, xdd, bs, bd,
    Bool.and_eq_true, decide_eq_true_eq, Bool.not_eq_true', Dst.field_toSrc, Src.field_v, Src.field_s, mmulOk, mvxOk] at p pf
  refine ext rfl ?_
  simp only [raw2]
  grind [Dst.twinOp_lt, Src.uselBit_zero, CTy.code_lt, ShflMode.code_lt, Src.uselBit_le]
theorem tred (t : CTy) (op : RedOp) (d : Nat) (a : Src) : Statement (.tred t op d a) := by
  intro h r hr; cases hr
  obtain ⟨p, -, -, pf, -⟩ := Instr.wf_parts h
  change ∀ o ∈ ([xd d t.regs, xs a t.regs] : List Opnd), _ at p
  change (noLit [a] && op.takes t) = true at pf
  simp only [List.forall_mem_cons, List.not_mem_nil, false_implies, implies_true, and_true, xs, xd, xdd, bs, bd,
    Bool.and_eq_true, decide_eq_true_eq, Bool.not_eq_true', Dst.field_toSrc, Src.field_v, Src.field_s, mmulOk, mvxOk] at p pf
  refine ext rfl ?_
  simp only [raw1]
  grind [Dst.twinOp_lt, Src.uselBit_zero, CTy.code_lt, RedOp.code_lt, Src.uselBit_le]
theorem tscan (t : CTy) (op : RedOp) (excl : Bool) (d : Nat) (a : Src) : Statement (.tscan t op excl d a) := by
  intro h r hr; cases hr
  obtain ⟨p, -, -, pf, -⟩ := Instr.wf_parts h
  change ∀ o ∈ ([xd d t.regs, xs a t.regs] : List Opnd), _ at p
  change (noLit [a] && op.takes t) = true at pf
  simp only [List.forall_mem_cons, List.not_mem_nil, false_implies, implies_true, and_true, xs, xd, xdd, bs, bd,
    Bool.and_eq_true, decide_eq_true_eq, Bool.not_eq_true', Dst.field_toSrc, Src.field_v, Src.field_s, mmulOk, mvxOk] at p pf
  refine ext rfl ?_
  simp only [raw1]
  grind [Dst.twinOp_lt, Src.uselBit_zero, CTy.code_lt, RedOp.code_lt, boolBit_lt, Src.uselBit_le]
theorem hrand (d : Nat) (a b : Src) : Statement (.hrand d a b) := by
  intro h r hr; cases hr
  obtain ⟨p, -, -, pf, -⟩ := Instr.wf_parts h
  change ∀ o ∈ ([xd d 1, xs a 2, xs b 1] : List Opnd), _ at p
  change (noLit [a]) = true at pf
  simp only [List.forall_mem_cons, List.not_mem_nil, false_implies, implies_true, and_true, xs, xd, xdd, bs, bd,
    Bool.and_eq_true, decide_eq_true_eq, Bool.not_eq_true', Dst.field_toSrc, Src.field_v, Src.field_s, mmulOk, mvxOk] at p pf
  refine ext rfl ?_
  simp only [raw2]
  grind [Dst.twinOp_lt, Src.uselBit_zero, Src.uselBit_le]
theorem texf (t : FTy) (k : Filt) (level : Nat) (d : Nat) (a b : Src) (f : Nat) : Statement (.texf t k level d a b f) := by
  intro h r hr; cases hr
  obtain ⟨p, -, -, pf, pl⟩ := Instr.wf_parts h
  change ∀ o ∈ ([xd d (if t = .f32 then 4 else 2), xs a 2, xs b (if k = .tri then 4 else 2)] : List Opnd), _ at p
  change (noLit [a, b] && (t == .f32 || t == .f16) && decide (level < 16) && (k != .tri || level == 0)) = true at pf
  change decide (f < 12) = true at pl
  simp only [List.forall_mem_cons, List.not_mem_nil, false_implies, implies_true, and_true, xs, xd, xdd, bs, bd,
    Bool.and_eq_true, decide_eq_true_eq, Bool.not_eq_true', Dst.field_toSrc, Src.field_v, Src.field_s, mmulOk, mvxOk] at p pf pl
  refine ext rfl ?_
  simp only [raw2]
  grind [Dst.twinOp_lt, Src.uselBit_zero, FTy.code_lt, Filt.code_lt, Src.uselBit_le]
theorem ld (t : MTy) (o : LdOrd) (h : Hint) (d : Nat) (a : Src) (off : BitVec 12) (f : Nat) : Statement (.ld t o h d a off f) := by
  intro h r hr; cases hr
  obtain ⟨p, -, -, pf, pl⟩ := Instr.wf_parts h
  change ∀ o ∈ ([xd d t.regs, xs a 2] : List Opnd), _ at p
  change (noLit [a] && (!o.strong || t.strongOk)) = true at pf
  change decide (f < 12) = true at pl
  simp only [List.forall_mem_cons, List.not_mem_nil, false_implies, implies_true, and_true, xs, xd, xdd, bs, bd,
    Bool.and_eq_true, decide_eq_true_eq, Bool.not_eq_true', Dst.field_toSrc, Src.field_v, Src.field_s, mmulOk, mvxOk] at p pf pl
  refine ext rfl ?_
  have := off.isLt
  simp only [raw1]
  grind [Dst.twinOp_lt, Src.uselBit_zero, MTy.code_lt, LdOrd.sco_lt, LdOrd.ord_lt, Hint.code_lt, Src.uselBit_le]
theorem st (t : MTy) (o : StOrd) (h : Hint) (a : Src) (off : BitVec 12) (b : Src) : Statement (.st t o h a off b) := by
  intro h r hr; cases hr
  obtain ⟨p, -, -, pf, -⟩ := Instr.wf_parts h
  change ∀ o ∈ ([xs a 2, xs b t.regs] : List Opnd), _ at p
  change (noLit [a] && (!o.strong || t.strongOk) && (!b.isLit || t != .n128)) = true at pf
  simp only [List.forall_mem_cons, List.not_mem_nil, false_implies, implies_true, and_true, xs, xd, xdd, bs, bd,
    Bool.and_eq_true, decide_eq_true_eq, Bool.not_eq_true', Dst.field_toSrc, Src.field_v, Src.field_s, mmulOk, mvxOk] at p pf
  refine ext rfl ?_
  have := off.isLt
  simp only [raw2]
  grind [Dst.twinOp_lt, Src.uselBit_zero, MTy.code_lt, StOrd.sco_lt, StOrd.ord_lt, Hint.code_lt, Src.uselBit_le]
theorem ldt (t : MTy) (h : Hint) (d : Nat) (a : Src) (off : BitVec 12) (f : Nat) : Statement (.ldt t h d a off f) := by
  intro h r hr; cases hr
  obtain ⟨p, -, -, pf, pl⟩ := Instr.wf_parts h
  change ∀ o ∈ ([xd d t.regs, xs a 2] : List Opnd), _ at p
  change (noLit [a]) = true at pf
  change decide (f < 12) = true at pl
  simp only [List.forall_mem_cons, List.not_mem_nil, false_implies, implies_true, and_true, xs, xd, xdd, bs, bd,
    Bool.and_eq_true, decide_eq_true_eq, Bool.not_eq_true', Dst.field_toSrc, Src.field_v, Src.field_s, mmulOk, mvxOk] at p pf pl
  refine ext rfl ?_
  have := off.isLt
  simp only [raw1]
  grind [Dst.twinOp_lt, Src.uselBit_zero, MTy.code_lt, Hint.code_lt, Src.uselBit_le]
theorem ldsp (t : MTy) (o : LdOrd) (d : Nat) (a : Src) (off : BitVec 12) (f : Nat) : Statement (.ldsp t o d a off f) := by
  intro h r hr; cases hr
  obtain ⟨p, -, -, pf, pl⟩ := Instr.wf_parts h
  change ∀ o ∈ ([xd d t.regs, xs a 1] : List Opnd), _ at p
  change (noLit [a] && (!o.strong || t.strongOk)) = true at pf
  change decide (f < 12) = true at pl
  simp only [List.forall_mem_cons, List.not_mem_nil, false_implies, implies_true, and_true, xs, xd, xdd, bs, bd,
    Bool.and_eq_true, decide_eq_true_eq, Bool.not_eq_true', Dst.field_toSrc, Src.field_v, Src.field_s, mmulOk, mvxOk] at p pf pl
  refine ext rfl ?_
  have := off.isLt
  simp only [raw1]
  grind [Dst.twinOp_lt, Src.uselBit_zero, MTy.code_lt, LdOrd.sco_lt, LdOrd.ord_lt, Src.uselBit_le]
theorem stsp (t : MTy) (o : StOrd) (a : Src) (off : BitVec 12) (b : Src) : Statement (.stsp t o a off b) := by
  intro h r hr; cases hr
  obtain ⟨p, -, -, pf, -⟩ := Instr.wf_parts h
  change ∀ o ∈ ([xs a 1, xs b t.regs] : List Opnd), _ at p
  change (noLit [a] && (!o.strong || t.strongOk) && (!b.isLit || t != .n128)) = true at pf
  simp only [List.forall_mem_cons, List.not_mem_nil, false_implies, implies_true, and_true, xs, xd, xdd, bs, bd,
    Bool.and_eq_true, decide_eq_true_eq, Bool.not_eq_true', Dst.field_toSrc, Src.field_v, Src.field_s, mmulOk, mvxOk] at p pf
  refine ext rfl ?_
  have := off.isLt
  simp only [raw2]
  grind [Dst.twinOp_lt, Src.uselBit_zero, MTy.code_lt, StOrd.sco_lt, StOrd.ord_lt, Src.uselBit_le]
theorem atom (op : AOp) (t : ATy) (o : AtOrd) (sc : Scope) (h : Hint) (d : Nat) (a : Src) (off : BitVec 12) (b c : Src) (f : Nat) : Statement (.atom op t o sc h d a off b c f) := by
  intro h r hr; cases hr
  obtain ⟨p, pk, ps, pf, pl⟩ := Instr.wf_parts h
  have := off.isLt
  change decide (f < 12) = true at pl
  by_cases hc : op = .cas
  · subst hc
    change ∀ o ∈ ([xd d t.regs, xs a 2, xs b t.regs, xs c t.regs] : List Opnd), _ at p
    simp only [List.forall_mem_cons, xs, xd, Src.field_v, decide_eq_true_eq] at p pl
    exact ext rfl (by simp only [raw3]; grind [Src.uselBit_le, ATy.code_lt, AtOrd.code_lt, Scope.code_lt, Hint.code_lt, AOp.code_lt])
  · simp only [Instr.opnds, if_neg hc, List.forall_mem_cons, xs, xd, Src.field_v, decide_eq_true_eq] at p pl
    simp only [if_neg hc, raw2]
    exact ext rfl (by grind [Src.uselBit_le, ATy.code_lt, AtOrd.code_lt, Scope.code_lt, Hint.code_lt, AOp.code_lt])
theorem redOrd (op : AOp) (t : ATy) (h : Hint) (a : Src) (off : BitVec 12) (b : Src) : Statement (.redOrd op t h a off b) := by
  intro h r hr; cases hr
  obtain ⟨p, -, -, pf, -⟩ := Instr.wf_parts h
  change ∀ o ∈ ([xs a 2, xs b t.regs] : List Opnd), _ at p
  change (op.reduces && op.takes t && noLit [a]) = true at pf
  simp only [List.forall_mem_cons, List.not_mem_nil, false_implies, implies_true, and_true, xs, xd, xdd, bs, bd,
    Bool.and_eq_true, decide_eq_true_eq, Bool.not_eq_true', Dst.field_toSrc, Src.field_v, Src.field_s, mmulOk, mvxOk] at p pf
  refine ext rfl ?_
  have := off.isLt
  simp only [raw2]
  grind [Dst.twinOp_lt, Src.uselBit_zero, AOp.code_lt, ATy.code_lt, Hint.code_lt, Src.uselBit_le]
theorem fence (o : FenceOrd) (sc : Scope) : Statement (.fence o sc) := by
  intro _ r hr; cases hr
  refine ext rfl ?_
  grind [Dst.twinOp_lt, Src.uselBit_zero, FenceOrd.code_lt, Scope.code_lt]
theorem binit (a b : Src) : Statement (.binit a b) := by
  intro h r hr; cases hr
  obtain ⟨p, -, -, pf, -⟩ := Instr.wf_parts h
  change ∀ o ∈ ([xs a 1, xs b 1] : List Opnd), _ at p
  change (noLit [a]) = true at pf
  simp only [List.forall_mem_cons, List.not_mem_nil, false_implies, implies_true, and_true, xs, xd, xdd, bs, bd,
    Bool.and_eq_true, decide_eq_true_eq, Bool.not_eq_true', Dst.field_toSrc, Src.field_v, Src.field_s, mmulOk, mvxOk] at p pf
  refine ext rfl ?_
  simp only [raw2]
  grind [Dst.twinOp_lt, Src.uselBit_zero, Src.uselBit_le]
theorem barrive (d : Nat) (a : Src) : Statement (.barrive d a) := by
  intro h r hr; cases hr
  obtain ⟨p, -, -, pf, -⟩ := Instr.wf_parts h
  change ∀ o ∈ ([xd d 1, xs a 1] : List Opnd), _ at p
  change (noLit [a]) = true at pf
  simp only [List.forall_mem_cons, List.not_mem_nil, false_implies, implies_true, and_true, xs, xd, xdd, bs, bd,
    Bool.and_eq_true, decide_eq_true_eq, Bool.not_eq_true', Dst.field_toSrc, Src.field_v, Src.field_s, mmulOk, mvxOk] at p pf
  refine ext rfl ?_
  simp only [raw1]
  grind [Dst.twinOp_lt, Src.uselBit_zero, Src.uselBit_le]
theorem waitph (a b : Src) : Statement (.waitph a b) := by
  intro h r hr; cases hr
  obtain ⟨p, -, -, pf, -⟩ := Instr.wf_parts h
  change ∀ o ∈ ([xs a 1, xs b 1] : List Opnd), _ at p
  change (noLit [a]) = true at pf
  simp only [List.forall_mem_cons, List.not_mem_nil, false_implies, implies_true, and_true, xs, xd, xdd, bs, bd,
    Bool.and_eq_true, decide_eq_true_eq, Bool.not_eq_true', Dst.field_toSrc, Src.field_v, Src.field_s, mmulOk, mvxOk] at p pf
  refine ext rfl ?_
  simp only [raw2]
  grind [Dst.twinOp_lt, Src.uselBit_zero, Src.uselBit_le]
theorem rres (d : Nat) (a : Src) : Statement (.rres d a) := by
  intro h r hr; cases hr
  obtain ⟨p, -, -, pf, -⟩ := Instr.wf_parts h
  change ∀ o ∈ ([xd d 1, xs a 1] : List Opnd), _ at p
  change (noLit [a]) = true at pf
  simp only [List.forall_mem_cons, List.not_mem_nil, false_implies, implies_true, and_true, xs, xd, xdd, bs, bd,
    Bool.and_eq_true, decide_eq_true_eq, Bool.not_eq_true', Dst.field_toSrc, Src.field_v, Src.field_s, mmulOk, mvxOk] at p pf
  refine ext rfl ?_
  simp only [raw1]
  grind [Dst.twinOp_lt, Src.uselBit_zero, Src.uselBit_le]
theorem rpub (a b : Src) : Statement (.rpub a b) := by
  intro h r hr; cases hr
  obtain ⟨p, -, -, pf, -⟩ := Instr.wf_parts h
  change ∀ o ∈ ([xs a 1, xs b 1] : List Opnd), _ at p
  change (noLit [a]) = true at pf
  simp only [List.forall_mem_cons, List.not_mem_nil, false_implies, implies_true, and_true, xs, xd, xdd, bs, bd,
    Bool.and_eq_true, decide_eq_true_eq, Bool.not_eq_true', Dst.field_toSrc, Src.field_v, Src.field_s, mmulOk, mvxOk] at p pf
  refine ext rfl ?_
  simp only [raw2]
  grind [Dst.twinOp_lt, Src.uselBit_zero, Src.uselBit_le]
theorem racq (d : Nat) (a : Src) : Statement (.racq d a) := by
  intro h r hr; cases hr
  obtain ⟨p, -, -, pf, -⟩ := Instr.wf_parts h
  change ∀ o ∈ ([xd d 1, xs a 1] : List Opnd), _ at p
  change (noLit [a]) = true at pf
  simp only [List.forall_mem_cons, List.not_mem_nil, false_implies, implies_true, and_true, xs, xd, xdd, bs, bd,
    Bool.and_eq_true, decide_eq_true_eq, Bool.not_eq_true', Dst.field_toSrc, Src.field_v, Src.field_s, mmulOk, mvxOk] at p pf
  refine ext rfl ?_
  simp only [raw1]
  grind [Dst.twinOp_lt, Src.uselBit_zero, Src.uselBit_le]
theorem rrel (a b : Src) : Statement (.rrel a b) := by
  intro h r hr; cases hr
  obtain ⟨p, -, -, pf, -⟩ := Instr.wf_parts h
  change ∀ o ∈ ([xs a 1, xs b 1] : List Opnd), _ at p
  change (noLit [a]) = true at pf
  simp only [List.forall_mem_cons, List.not_mem_nil, false_implies, implies_true, and_true, xs, xd, xdd, bs, bd,
    Bool.and_eq_true, decide_eq_true_eq, Bool.not_eq_true', Dst.field_toSrc, Src.field_v, Src.field_s, mmulOk, mvxOk] at p pf
  refine ext rfl ?_
  simp only [raw2]
  grind [Dst.twinOp_lt, Src.uselBit_zero, Src.uselBit_le]
theorem siph (a : Src) : Statement (.siph a) := by
  intro h r hr; cases hr
  obtain ⟨p, -, -, pf, -⟩ := Instr.wf_parts h
  change ∀ o ∈ ([xs a 1] : List Opnd), _ at p
  change (noLit [a]) = true at pf
  simp only [List.forall_mem_cons, List.not_mem_nil, false_implies, implies_true, and_true, xs, xd, xdd, bs, bd,
    Bool.and_eq_true, decide_eq_true_eq, Bool.not_eq_true', Dst.field_toSrc, Src.field_v, Src.field_s, mmulOk, mvxOk] at p pf
  refine ext rfl ?_
  simp only [raw1]
  grind [Dst.twinOp_lt, Src.uselBit_zero, Src.uselBit_le]
theorem tspawn (d : Nat) (a b c : Src) : Statement (.tspawn d a b c) := by
  intro h r hr; cases hr
  obtain ⟨p, -, -, pf, -⟩ := Instr.wf_parts h
  change ∀ o ∈ ([xd d 1, xs a 2, xs b 16, xs c 1] : List Opnd), _ at p
  change (noLit [a, b]) = true at pf
  simp only [List.forall_mem_cons, List.not_mem_nil, false_implies, implies_true, and_true, xs, xd, xdd, bs, bd,
    Bool.and_eq_true, decide_eq_true_eq, Bool.not_eq_true', Dst.field_toSrc, Src.field_v, Src.field_s, mmulOk, mvxOk] at p pf
  refine ext rfl ?_
  simp only [raw3]
  grind [Dst.twinOp_lt, Src.uselBit_zero, Src.uselBit_le]
theorem garrive : Statement .garrive := by
  intro _ r hr; cases hr
  exact ext rfl (by decide)
theorem rtrace (any cullB cullF : Bool) (d : Nat) (a b : Src) (f : Nat) : Statement (.rtrace any cullB cullF d a b f) := by
  intro h r hr; cases hr
  obtain ⟨p, -, -, pf, pl⟩ := Instr.wf_parts h
  change ∀ o ∈ ([xd d 8, xs a 2, xs b 8] : List Opnd), _ at p
  change (noLit [a, b]) = true at pf
  change decide (f < 12) = true at pl
  simp only [List.forall_mem_cons, List.not_mem_nil, false_implies, implies_true, and_true, xs, xd, xdd, bs, bd,
    Bool.and_eq_true, decide_eq_true_eq, Bool.not_eq_true', Dst.field_toSrc, Src.field_v, Src.field_s, mmulOk, mvxOk] at p pf pl
  refine ext rfl ?_
  simp only [raw2]
  grind [Dst.twinOp_lt, Src.uselBit_zero, boolBit_lt, Src.uselBit_le]
theorem gemit (cull : Bool) (a b : Src) : Statement (.gemit cull a b) := by
  intro h r hr; cases hr
  obtain ⟨p, -, -, pf, -⟩ := Instr.wf_parts h
  change ∀ o ∈ ([xs a 1, xs b 16] : List Opnd), _ at p
  change (noLit [a, b]) = true at pf
  simp only [List.forall_mem_cons, List.not_mem_nil, false_implies, implies_true, and_true, xs, xd, xdd, bs, bd,
    Bool.and_eq_true, decide_eq_true_eq, Bool.not_eq_true', Dst.field_toSrc, Src.field_v, Src.field_s, mmulOk, mvxOk] at p pf
  refine ext rfl ?_
  simp only [raw2]
  grind [Dst.twinOp_lt, Src.uselBit_zero, boolBit_lt, Src.uselBit_le]
theorem accrd (t : FTy) (r : Rnd) (d : Nat) (tile row : Nat) (f : Nat) : Statement (.accrd t r d tile row f) := by
  intro h r hr; cases hr
  obtain ⟨p, -, -, pf, pl⟩ := Instr.wf_parts h
  change ∀ o ∈ ([xd d (if t = .f32 then 2 else 1)] : List Opnd), _ at p
  change ((t == .f32 || t == .f16 || t == .bf16) && decide (tile < 64) && decide (row < 64)) = true at pf
  change decide (f < 12) = true at pl
  simp only [List.forall_mem_cons, List.not_mem_nil, false_implies, implies_true, and_true, xs, xd, xdd, bs, bd,
    Bool.and_eq_true, decide_eq_true_eq, Bool.not_eq_true', Dst.field_toSrc, Src.field_v, Src.field_s, mmulOk, mvxOk] at p pf pl
  refine ext rfl ?_
  grind [Dst.twinOp_lt, Src.uselBit_zero, FTy.code_lt, Rnd.code_lt]
theorem accsp (t : FTy) (r : Rnd) (a : Src) (tile row : Nat) : Statement (.accsp t r a tile row) := by
  intro h r hr; cases hr
  obtain ⟨p, -, -, pf, -⟩ := Instr.wf_parts h
  change ∀ o ∈ ([xs a 1] : List Opnd), _ at p
  change (noLit [a] && (t == .f32 || t == .f16 || t == .bf16) && decide (tile < 64) && decide (row < 64)) = true at pf
  simp only [List.forall_mem_cons, List.not_mem_nil, false_implies, implies_true, and_true, xs, xd, xdd, bs, bd,
    Bool.and_eq_true, decide_eq_true_eq, Bool.not_eq_true', Dst.field_toSrc, Src.field_v, Src.field_s, mmulOk, mvxOk] at p pf
  refine ext rfl ?_
  simp only [raw1]
  grind [Dst.twinOp_lt, Src.uselBit_zero, FTy.code_lt, Rnd.code_lt, Src.uselBit_le]
theorem accwr (t : FTy) (a : Src) (tile row : Nat) : Statement (.accwr t a tile row) := by
  intro h r hr; cases hr
  obtain ⟨p, -, -, pf, -⟩ := Instr.wf_parts h
  change ∀ o ∈ ([xs a (if t = .f32 then 2 else 1)] : List Opnd), _ at p
  change (noLit [a] && (t == .f32 || t == .f16 || t == .bf16) && decide (tile < 64) && decide (row < 64)) = true at pf
  simp only [List.forall_mem_cons, List.not_mem_nil, false_implies, implies_true, and_true, xs, xd, xdd, bs, bd,
    Bool.and_eq_true, decide_eq_true_eq, Bool.not_eq_true', Dst.field_toSrc, Src.field_v, Src.field_s, mmulOk, mvxOk] at p pf
  refine ext rfl ?_
  simp only [raw1]
  grind [Dst.twinOp_lt, Src.uselBit_zero, FTy.code_lt, Src.uselBit_le]
theorem neval (t : FTy) (nin nout : Nat) (d : Nat) (a b : Src) (f : Nat) : Statement (.neval t nin nout d a b f) := by
  intro h r hr; cases hr
  obtain ⟨p, -, -, pf, pl⟩ := Instr.wf_parts h
  change ∀ o ∈ ([xd d 8, xs a 2, xs b 8] : List Opnd), _ at p
  change (noLit [a, b] && (t == .f32 || t == .bf16) && nin % 8 == 0 && nout % 8 == 0 && decide (8 ≤ nin) && decide (nin ≤ 64) && decide (8 ≤ nout) && decide (nout ≤ 64)) = true at pf
  change decide (f < 12) = true at pl
  simp only [List.forall_mem_cons, List.not_mem_nil, false_implies, implies_true, and_true, xs, xd, xdd, bs, bd,
    Bool.and_eq_true, decide_eq_true_eq, Bool.not_eq_true', Dst.field_toSrc, Src.field_v, Src.field_s, mmulOk, mvxOk] at p pf pl
  refine ext rfl ?_
  simp only [raw2]
  grind [Dst.twinOp_lt, Src.uselBit_zero, FTy.code_lt, Src.uselBit_le]
theorem mvx (t : FTy) (h : PathHint) (nrc nvM1 : Nat) (d : Nat) (a b c : Src) (f : Nat) : Statement (.mvx t h nrc nvM1 d a b c f) := by
  intro h r hr; cases hr
  obtain ⟨p, -, -, pf, pl⟩ := Instr.wf_parts h
  change ∀ o ∈ ([xd d 8, xs a 2, xs b 2, xs c 1] : List Opnd), _ at p
  change (mvxOk t nrc nvM1 a b c) = true at pf
  change decide (f < 12) = true at pl
  simp only [List.forall_mem_cons, List.not_mem_nil, false_implies, implies_true, and_true, xs, xd, xdd, bs, bd,
    Bool.and_eq_true, decide_eq_true_eq, Bool.not_eq_true', Dst.field_toSrc, Src.field_v, Src.field_s, mmulOk, mvxOk] at p pf pl
  refine ext rfl ?_
  simp only [rawMvx, raw3]
  grind [Dst.twinOp_lt, Src.uselBit_zero, FTy.code_lt, PathHint.code_lt, Src.uselBit_le]
theorem mvxa (t : FTy) (h : PathHint) (nrc nvM1 : Nat) (d : Nat) (a b c : Src) (f : Nat) : Statement (.mvxa t h nrc nvM1 d a b c f) := by
  intro h r hr; cases hr
  obtain ⟨p, -, -, pf, pl⟩ := Instr.wf_parts h
  change ∀ o ∈ ([xd d 8, xs a 2, xs b 2, xs c 1] : List Opnd), _ at p
  change (mvxOk t nrc nvM1 a b c) = true at pf
  change decide (f < 12) = true at pl
  simp only [List.forall_mem_cons, List.not_mem_nil, false_implies, implies_true, and_true, xs, xd, xdd, bs, bd,
    Bool.and_eq_true, decide_eq_true_eq, Bool.not_eq_true', Dst.field_toSrc, Src.field_v, Src.field_s, mmulOk, mvxOk] at p pf pl
  refine ext rfl ?_
  simp only [rawMvx, raw3]
  grind [Dst.twinOp_lt, Src.uselBit_zero, FTy.code_lt, PathHint.code_lt, Src.uselBit_le]
theorem mvxs (t : FTy) (h : PathHint) (nrc nvM1 : Nat) (d : Nat) (a b c : Src) (f : Nat) : Statement (.mvxs t h nrc nvM1 d a b c f) := by
  intro h r hr; cases hr
  obtain ⟨p, -, -, pf, pl⟩ := Instr.wf_parts h
  change ∀ o ∈ ([xd d 8, xs a 2, xs b 2, xs c 1] : List Opnd), _ at p
  change (mvxOk t nrc nvM1 a b c) = true at pf
  change decide (f < 12) = true at pl
  simp only [List.forall_mem_cons, List.not_mem_nil, false_implies, implies_true, and_true, xs, xd, xdd, bs, bd,
    Bool.and_eq_true, decide_eq_true_eq, Bool.not_eq_true', Dst.field_toSrc, Src.field_v, Src.field_s, mmulOk, mvxOk] at p pf pl
  refine ext rfl ?_
  simp only [rawMvx, raw3]
  grind [Dst.twinOp_lt, Src.uselBit_zero, FTy.code_lt, PathHint.code_lt, Src.uselBit_le]
theorem mnop : Statement .mnop := by
  intro _ r hr; cases hr
  exact ext rfl (by decide)
theorem mset (d : Nat) (x : DWord) : Statement (.mset d x) := by
  intro h r hr; cases hr
  obtain ⟨p, pk, -, -, -⟩ := Instr.wf_parts h
  change (decide (d < 32)) = true at pk
  simp only [List.forall_mem_cons, List.not_mem_nil, false_implies, implies_true, and_true, xs, xd, xdd, bs, bd,
    Bool.and_eq_true, decide_eq_true_eq, Bool.not_eq_true', Dst.field_toSrc, Src.field_v, Src.field_s, mmulOk, mvxOk] at pk
  exact ext rfl (by grind)
theorem maddi (d a : Nat) (i : BitVec 12) : Statement (.maddi d a i) := by
  intro h r hr; cases hr
  obtain ⟨p, pk, -, -, -⟩ := Instr.wf_parts h
  change (decide (d < 32) && decide (a < 32)) = true at pk
  simp only [List.forall_mem_cons, List.not_mem_nil, false_implies, implies_true, and_true, xs, xd, xdd, bs, bd,
    Bool.and_eq_true, decide_eq_true_eq, Bool.not_eq_true', Dst.field_toSrc, Src.field_v, Src.field_s, mmulOk, mvxOk] at pk
  refine ext rfl ?_
  have := i.isLt
  grind [Dst.twinOp_lt, Src.uselBit_zero]
theorem mloop (l : Nat) (a : Nat ⊕ DWord) : Statement (.mloop l a) := by
  intro h r hr
  obtain ⟨p, pk, ps, pf, pl⟩ := Instr.wf_parts h
  cases a <;> cases hr <;> simp only [Instr.kindRegsOk, Bool.and_eq_true, decide_eq_true_eq] at pk <;>
    exact ext rfl (by grind)
theorem mnext (l : Nat) : Statement (.mnext l) := by
  intro h r hr; cases hr
  obtain ⟨p, pk, -, -, -⟩ := Instr.wf_parts h
  change (decide (l < 3)) = true at pk
  simp only [List.forall_mem_cons, List.not_mem_nil, false_implies, implies_true, and_true, xs, xd, xdd, bs, bd,
    Bool.and_eq_true, decide_eq_true_eq, Bool.not_eq_true', Dst.field_toSrc, Src.field_v, Src.field_s, mmulOk, mvxOk] at pk
  exact ext rfl (by grind)
theorem mwait (n a : Nat) : Statement (.mwait n a) := by
  intro h r hr; cases hr
  obtain ⟨p, pk, -, pf, -⟩ := Instr.wf_parts h
  change (decide (a < 32)) = true at pk
  change (decide (n < 256)) = true at pf
  simp only [List.forall_mem_cons, List.not_mem_nil, false_implies, implies_true, and_true, xs, xd, xdd, bs, bd,
    Bool.and_eq_true, decide_eq_true_eq, Bool.not_eq_true', Dst.field_toSrc, Src.field_v, Src.field_s, mmulOk, mvxOk] at pk pf
  exact ext rfl (by grind)
theorem marr (n : Nat) : Statement (.marr n) := by
  intro h r hr; cases hr
  obtain ⟨p, -, -, pf, -⟩ := Instr.wf_parts h
  change (decide (n < 256)) = true at pf
  simp only [List.forall_mem_cons, List.not_mem_nil, false_implies, implies_true, and_true, xs, xd, xdd, bs, bd,
    Bool.and_eq_true, decide_eq_true_eq, Bool.not_eq_true', Dst.field_toSrc, Src.field_v, Src.field_s, mmulOk, mvxOk] at pf
  exact ext rfl (by grind)
theorem macq (d a : Nat) : Statement (.macq d a) := by
  intro h r hr; cases hr
  obtain ⟨p, pk, -, -, -⟩ := Instr.wf_parts h
  change (decide (d < 32) && decide (a < 32)) = true at pk
  simp only [List.forall_mem_cons, List.not_mem_nil, false_implies, implies_true, and_true, xs, xd, xdd, bs, bd,
    Bool.and_eq_true, decide_eq_true_eq, Bool.not_eq_true', Dst.field_toSrc, Src.field_v, Src.field_s, mmulOk, mvxOk] at pk
  exact ext rfl (by grind)
theorem mrel (a b : Nat) : Statement (.mrel a b) := by
  intro h r hr; cases hr
  obtain ⟨p, pk, -, -, -⟩ := Instr.wf_parts h
  change (decide (a < 32) && decide (b < 32)) = true at pk
  simp only [List.forall_mem_cons, List.not_mem_nil, false_implies, implies_true, and_true, xs, xd, xdd, bs, bd,
    Bool.and_eq_true, decide_eq_true_eq, Bool.not_eq_true', Dst.field_toSrc, Src.field_v, Src.field_s, mmulOk, mvxOk] at pk
  exact ext rfl (by grind)
theorem mzero (tile : Nat) : Statement (.mzero tile) := by
  intro h r hr; cases hr
  obtain ⟨p, pk, -, -, -⟩ := Instr.wf_parts h
  change (decide (tile < 64)) = true at pk
  simp only [List.forall_mem_cons, List.not_mem_nil, false_implies, implies_true, and_true, xs, xd, xdd, bs, bd,
    Bool.and_eq_true, decide_eq_true_eq, Bool.not_eq_true', Dst.field_toSrc, Src.field_v, Src.field_s, mmulOk, mvxOk] at pk
  exact ext rfl (by grind)
theorem mmul (t : FTy) (scl : Bool) (kv : Nat) (tile a b : Nat) : Statement (.mmul t scl kv tile a b) := by
  intro h r hr; cases hr
  obtain ⟨p, pk, -, pf, -⟩ := Instr.wf_parts h
  change (decide (tile < 64) && decide (a < 32) && decide (b < 32)) = true at pk
  change (mmulOk t scl kv) = true at pf
  simp only [List.forall_mem_cons, List.not_mem_nil, false_implies, implies_true, and_true, xs, xd, xdd, bs, bd,
    Bool.and_eq_true, decide_eq_true_eq, Bool.not_eq_true', Dst.field_toSrc, Src.field_v, Src.field_s, mmulOk, mvxOk] at pk pf
  refine ext rfl ?_
  grind [Dst.twinOp_lt, Src.uselBit_zero, FTy.code_lt, boolBit_lt]
theorem mmulb (t : FTy) (scl : Bool) (kv : Nat) (tile a b : Nat) : Statement (.mmulb t scl kv tile a b) := by
  intro h r hr; cases hr
  obtain ⟨p, pk, -, pf, -⟩ := Instr.wf_parts h
  change (decide (tile < 64) && decide (a < 32) && decide (b < 32)) = true at pk
  change (mmulOk t scl kv) = true at pf
  simp only [List.forall_mem_cons, List.not_mem_nil, false_implies, implies_true, and_true, xs, xd, xdd, bs, bd,
    Bool.and_eq_true, decide_eq_true_eq, Bool.not_eq_true', Dst.field_toSrc, Src.field_v, Src.field_s, mmulOk, mvxOk] at pk pf
  refine ext rfl ?_
  grind [Dst.twinOp_lt, Src.uselBit_zero, FTy.code_lt, boolBit_lt]
theorem mstop : Statement .mstop := by
  intro _ r hr; cases hr
  exact ext rfl (by decide)
theorem sysrd (d : Nat) (a : Src) : Statement (.sysrd d a) := by
  intro h r hr; cases hr
  obtain ⟨p, pk, -, -, -⟩ := Instr.wf_parts h
  change ∀ o ∈ ([⟨.s d, 1, true, 0, 192⟩, ⟨a, 1, false, 0, 192⟩] : List Opnd), _ at p
  change (a.isUni) = true at pk
  simp only [List.forall_mem_cons, List.not_mem_nil, false_implies, implies_true, and_true, xs, xd, xdd, bs, bd,
    Bool.and_eq_true, decide_eq_true_eq, Bool.not_eq_true', Dst.field_toSrc, Src.field_v, Src.field_s, mmulOk, mvxOk] at p pk
  refine ext rfl ?_
  simp only [raw1]
  grind [Dst.twinOp_lt, Src.uselBit_zero, Src.uselBit_le]
theorem syswr (a b : Src) : Statement (.syswr a b) := by
  intro h r hr; cases hr
  obtain ⟨p, pk, -, -, -⟩ := Instr.wf_parts h
  change ∀ o ∈ ([⟨a, 1, false, 0, 192⟩, ⟨b, 1, false, 0, 192⟩] : List Opnd), _ at p
  change (a.isUni && b.isUni) = true at pk
  simp only [List.forall_mem_cons, List.not_mem_nil, false_implies, implies_true, and_true, xs, xd, xdd, bs, bd,
    Bool.and_eq_true, decide_eq_true_eq, Bool.not_eq_true', Dst.field_toSrc, Src.field_v, Src.field_s, mmulOk, mvxOk] at p pk
  refine ext rfl ?_
  simp only [raw2]
  grind [Dst.twinOp_lt, Src.uselBit_zero, Src.uselBit_le]
theorem tlbinv (d : Nat) (a b : Src) : Statement (.tlbinv d a b) := by
  intro h r hr; cases hr
  obtain ⟨p, pk, -, -, -⟩ := Instr.wf_parts h
  change ∀ o ∈ ([⟨.s d, 1, true, 0, 192⟩, ⟨a, 2, false, 0, 192⟩, ⟨b, 1, false, 0, 192⟩] : List Opnd), _ at p
  change (a.isUni && b.isUni) = true at pk
  simp only [List.forall_mem_cons, List.not_mem_nil, false_implies, implies_true, and_true, xs, xd, xdd, bs, bd,
    Bool.and_eq_true, decide_eq_true_eq, Bool.not_eq_true', Dst.field_toSrc, Src.field_v, Src.field_s, mmulOk, mvxOk] at p pk
  refine ext rfl ?_
  simp only [raw2]
  grind [Dst.twinOp_lt, Src.uselBit_zero, Src.uselBit_le]
theorem gresume (d : Nat) (a b : Src) : Statement (.gresume d a b) := by
  intro h r hr; cases hr
  obtain ⟨p, pk, -, -, -⟩ := Instr.wf_parts h
  change ∀ o ∈ ([⟨.s d, 1, true, 0, 192⟩, ⟨a, 1, false, 0, 192⟩, ⟨b, 1, false, 0, 192⟩] : List Opnd), _ at p
  change (a.isUni && b.isUni) = true at pk
  simp only [List.forall_mem_cons, List.not_mem_nil, false_implies, implies_true, and_true, xs, xd, xdd, bs, bd,
    Bool.and_eq_true, decide_eq_true_eq, Bool.not_eq_true', Dst.field_toSrc, Src.field_v, Src.field_s, mmulOk, mvxOk] at p pk
  refine ext rfl ?_
  simp only [raw2]
  grind [Dst.twinOp_lt, Src.uselBit_zero, Src.uselBit_le]
theorem gkill (d : Nat) (a b : Src) : Statement (.gkill d a b) := by
  intro h r hr; cases hr
  obtain ⟨p, pk, -, -, -⟩ := Instr.wf_parts h
  change ∀ o ∈ ([⟨.s d, 1, true, 0, 192⟩, ⟨a, 1, false, 0, 192⟩, ⟨b, 1, false, 0, 192⟩] : List Opnd), _ at p
  change (a.isUni && b.isUni) = true at pk
  simp only [List.forall_mem_cons, List.not_mem_nil, false_implies, implies_true, and_true, xs, xd, xdd, bs, bd,
    Bool.and_eq_true, decide_eq_true_eq, Bool.not_eq_true', Dst.field_toSrc, Src.field_v, Src.field_s, mmulOk, mvxOk] at p pk
  refine ext rfl ?_
  simp only [raw2]
  grind [Dst.twinOp_lt, Src.uselBit_zero, Src.uselBit_le]
theorem ctxsv (d : Nat) (a b : Src) : Statement (.ctxsv d a b) := by
  intro h r hr; cases hr
  obtain ⟨p, pk, -, -, -⟩ := Instr.wf_parts h
  change ∀ o ∈ ([⟨.s d, 1, true, 0, 192⟩, ⟨a, 2, false, 0, 192⟩, ⟨b, 1, false, 0, 192⟩] : List Opnd), _ at p
  change (a.isUni && b.isUni) = true at pk
  simp only [List.forall_mem_cons, List.not_mem_nil, false_implies, implies_true, and_true, xs, xd, xdd, bs, bd,
    Bool.and_eq_true, decide_eq_true_eq, Bool.not_eq_true', Dst.field_toSrc, Src.field_v, Src.field_s, mmulOk, mvxOk] at p pk
  refine ext rfl ?_
  simp only [raw2]
  grind [Dst.twinOp_lt, Src.uselBit_zero, Src.uselBit_le]
theorem ctxld (d : Nat) (a b : Src) : Statement (.ctxld d a b) := by
  intro h r hr; cases hr
  obtain ⟨p, pk, -, -, -⟩ := Instr.wf_parts h
  change ∀ o ∈ ([⟨.s d, 1, true, 0, 192⟩, ⟨a, 2, false, 0, 192⟩, ⟨b, 1, false, 0, 192⟩] : List Opnd), _ at p
  change (a.isUni && b.isUni) = true at pk
  simp only [List.forall_mem_cons, List.not_mem_nil, false_implies, implies_true, and_true, xs, xd, xdd, bs, bd,
    Bool.and_eq_true, decide_eq_true_eq, Bool.not_eq_true', Dst.field_toSrc, Src.field_v, Src.field_s, mmulOk, mvxOk] at p pk
  refine ext rfl ?_
  simp only [raw2]
  grind [Dst.twinOp_lt, Src.uselBit_zero, Src.uselBit_le]
theorem dwmap (d : Nat) (a : Src) : Statement (.dwmap d a) := by
  intro h r hr; cases hr
  obtain ⟨p, pk, -, -, -⟩ := Instr.wf_parts h
  change ∀ o ∈ ([⟨.s d, 1, true, 0, 192⟩, ⟨a, 1, false, 0, 192⟩] : List Opnd), _ at p
  change (a.isUni) = true at pk
  simp only [List.forall_mem_cons, List.not_mem_nil, false_implies, implies_true, and_true, xs, xd, xdd, bs, bd,
    Bool.and_eq_true, decide_eq_true_eq, Bool.not_eq_true', Dst.field_toSrc, Src.field_v, Src.field_s, mmulOk, mvxOk] at p pk
  refine ext rfl ?_
  simp only [raw1]
  grind [Dst.twinOp_lt, Src.uselBit_zero, Src.uselBit_le]
theorem idle : Statement .idle := by
  intro _ r hr; cases hr
  exact ext rfl (by decide)
theorem powerRemoved : Statement .powerRemoved := fun _ _ h => nomatch h

end Laws.Fits
end Sys2Proof
end

