-- ==== Sys2Proof/Laws/Regs.lean ====
section
/-!
SUPPORT. What a register holds after a write (R438), bit by bit.
-/
namespace Sys2Proof

/-- The bits of the enabled bytes. -/
theorem Wr.enabled_testBit : ∀ (e : BitVec 8) (k : Fin 64),
    ((List.range 8).foldl (fun a j => a + if e.getLsbD j then 255 * 2 ^ (8 * j) else 0) 0).testBit k = e.getLsbD (k / 8) := by
  decide +kernel

/-- Bits of `d` under a mask laid over the others of `o`. -/
theorem merge_toNat (d o m : BitVec 64) :
    (d.toNat &&& m.toNat) + (o.toNat - (o.toNat &&& m.toNat)) = ((d &&& m) ||| (o &&& ~~~m)).toNat := by
  have h0 : (o &&& m) &&& (o &&& ~~~m) = 0#64 := by ext i; simp; intro _ h1 _; simp [h1]
  have h1 : (o &&& m) + (o &&& ~~~m) = o := by
    rw [BitVec.add_eq_or_of_and_eq_zero _ _ h0]
    ext i h; simp only [BitVec.getElem_or, BitVec.getElem_and, BitVec.getElem_not]; cases o[i] <;> cases m[i] <;> rfl
  have h2 : o.toNat - (o.toNat &&& m.toNat) = (o &&& ~~~m).toNat := by
    have := congrArg BitVec.toNat h1
    rw [BitVec.toNat_add_of_and_eq_zero h0, BitVec.toNat_and] at this
    omega
  have h3 : (d &&& m) &&& (o &&& ~~~m) = 0#64 := by ext i; simp; intro _ h1 _; simp [h1]
  rw [h2, ← BitVec.toNat_and, ← BitVec.toNat_add_of_and_eq_zero h3, BitVec.add_eq_or_of_and_eq_zero _ _ h3]

theorem Wr.onto_eq (w : Wr) (old mask : Nat) (ho : old < 2 ^ 64) (hm : mask < 2 ^ 64) :
    w.onto old mask < 2 ^ 64 ∧ ∀ k, k < 64 → (w.onto old mask).testBit k =
      if mask.testBit k && w.en.getLsbD (k / 8) then w.data.getLsbD k else old.testBit k := by
  have hE := Wr.enabled_testBit w.en
  simp only [Wr.onto]
  generalize (List.range 8).foldl _ 0 = E at *
  have hlt : mask &&& E < 2 ^ 64 := Nat.lt_of_le_of_lt Nat.and_le_left hm
  have e1 : (BitVec.ofNat 64 old).toNat = old := by rw [BitVec.toNat_ofNat, Nat.mod_eq_of_lt ho]
  have e2 : (BitVec.ofNat 64 (mask &&& E)).toNat = mask &&& E := by rw [BitVec.toNat_ofNat, Nat.mod_eq_of_lt hlt]
  have := merge_toNat w.data (BitVec.ofNat 64 old) (BitVec.ofNat 64 (mask &&& E))
  rw [e1, e2] at this
  rw [this]
  refine ⟨BitVec.isLt _, fun k hk => ?_⟩
  have hk' := hE ⟨k, hk⟩
  simp only [BitVec.testBit_toNat, BitVec.getLsbD_or, BitVec.getLsbD_and, BitVec.getLsbD_not, BitVec.getLsbD_ofNat, hk, decide_true, Bool.true_and,
    Nat.testBit_and]
  simp only at hk'
  rw [hk']
  cases mask.testBit k <;> cases w.en.getLsbD (k / 8) <;> simp

/-- R438: a register that begins at `base`, after a write at `off`, is determined bit by bit. -/
theorem Wr.onto_of_bits (w : Wr) (off base mask old x : Nat) (ho : old < 2 ^ 64) (hm : mask < 2 ^ 64) (hx : x < 2 ^ 64)
    (h : ∀ k, k < 64 → x.testBit k =
      if mask.testBit k && decide (off ≤ base + k / 8) && w.en.getLsbD (base + k / 8 - off)
      then w.data.getLsbD (8 * (base + k / 8 - off) + k % 8) else old.testBit k) :
    (w.at_ off base).onto old mask = x := by
  obtain ⟨h1, h2⟩ := (w.at_ off base).onto_eq old mask ho hm
  refine Nat.eq_of_testBit_eq fun k => ?_
  by_cases hk : k < 64
  · rw [h2 k hk, h k hk]
    have hb : k / 8 < 8 := by omega
    by_cases hle : base ≤ off
    · simp only [Wr.at_, hle, if_true, BitVec.getLsbD_shiftLeft, hk, hb, decide_true, Bool.true_and]
      by_cases ho : off ≤ base + k / 8
      · have e1 : k / 8 - (off - base) = base + k / 8 - off := by omega
        have e2 : k - 8 * (off - base) = 8 * (base + k / 8 - off) + k % 8 := by omega
        have e3 : ¬ k / 8 < off - base := by omega
        have e4 : ¬ k < 8 * (off - base) := by omega
        simp [ho, e1, e2, e3, e4]
      · have e3 : k / 8 < off - base := by omega
        simp [ho, e3]
    · have ho : off ≤ base + k / 8 := by omega
      have e1 : base - off + k / 8 = base + k / 8 - off := by omega
      have e2 : 8 * (base - off) + k = 8 * (base + k / 8 - off) + k % 8 := by omega
      simp only [Wr.at_, hle, if_false, BitVec.getLsbD_ushiftRight, ho, decide_true, Bool.and_true, e1, e2]
  · rw [Nat.testBit_lt_two_pow (Nat.lt_of_lt_of_le h1 (Nat.pow_le_pow_right (by decide) (by omega))),
      Nat.testBit_lt_two_pow (Nat.lt_of_lt_of_le hx (Nat.pow_le_pow_right (by decide) (by omega)))]

theorem Wr.at_same (w : Wr) (off : Nat) : w.at_ off off = w := by simp [Wr.at_]

end Sys2Proof
end

