-- ==== Sys2Proof/Laws/Runs.lean ====
section
/-!
SUPPORT. The runners of a class (R174, R181) in the terms of `Safety`: threads in order, issues in order, and the threads that
a trap stops.
-/
namespace Sys2Proof.Machine

/-- A class all of whose threads complete in turn. -/
theorem perLane_inOrder {i : Instr} {body : Nat → State → Res} {k : State → Nat → Option (State × Option DWord)} {s t : State}
    (hb : ∀ u l r, k u l = some r → body l u = .ok r.1 r.2) (h : State.inOrder i k s.cur.lanes s = some t) :
    perLane i body s = t := by
  have key : ∀ (ls : List Nat) (u s0 : State), State.inOrder i k ls u = some t → runLanes i body s0 ls u = t := by
    intro ls
    induction ls with
    | nil => intro u s0 h; simpa [State.inOrder, runLanes] using h
    | cons l ls ih =>
      intro u s0 h
      simp only [State.inOrder] at h
      split at h
      · rename_i hc
        simp only [Bool.and_eq_true, Bool.not_eq_true'] at hc
        split at h
        · rename_i u' to_ hk
          simp only [runLanes, hc.1, hc.2, hb u l _ hk, Bool.not_true, Bool.false_eq_true, if_false]
          exact ih _ _ h
        · simp at h
      · simp at h
  exact key _ _ _ h

/-- An issue all of whose threads complete in turn: what has been gathered before stands before what is gathered now. -/
theorem runLong_issueOrder {i : Instr} {f : Nat} {work : Work} {body : Nat → State → LongRes}
    {k : State → Nat → Option (State × List (Nat × Word) × Nat)}
    (hb : ∀ u l r, k u l = some r → body l u = .ok r.1 r.2.1 r.2.2) (s0 : State) :
    ∀ (ls got : List Nat) (ws : List (Nat × Nat × Word)) (fl : Nat) (s t : State) (ws' : List (Nat × Nat × Word)) (fl' : Nat),
      State.issueOrder i k ls s = some (t, ws', fl') →
      runLong i f work body s0 ls got ws fl s = (t.issueFor f work (got ++ ls) (ws ++ ws') (fl ||| fl')).withFate .go := by
  intro ls
  induction ls with
  | nil =>
    intro got ws fl s t ws' fl' h
    simp only [State.issueOrder, Option.some.injEq, Prod.mk.injEq] at h
    obtain ⟨rfl, rfl, rfl⟩ := h
    simp [runLong]
  | cons l ls ih =>
    intro got ws fl s t ws' fl' h
    simp only [State.issueOrder] at h
    split at h
    · rename_i hc
      simp only [Bool.and_eq_true, Bool.not_eq_true'] at hc
      split at h
      · simp at h
      · rename_i s' rs k' hk
        split at h
        · simp at h
        · rename_i u ws2 fl2 hr
          simp only [Option.some.injEq, Prod.mk.injEq] at h
          obtain ⟨rfl, rfl, rfl⟩ := h
          simp only [runLong, hc.1, hc.2, hb s l _ hk, Bool.not_true, Bool.false_eq_true, if_false]
          rw [ih _ _ _ _ _ _ _ hr]
          simp [List.append_assoc, Nat.or_assoc]
    · simp at h

/-- The state in which an issue has been entered stands at the same instruction. -/
theorem State.issueOrder_cur {i : Instr} {k : State → Nat → Option (State × List (Nat × Word) × Nat)}
    (hk : ∀ u l r, k u l = some r → r.1.cur = u.cur) :
    ∀ (ls : List Nat) (s t : State) (ws : List (Nat × Nat × Word)) (fl : Nat),
      State.issueOrder i k ls s = some (t, ws, fl) → t.cur = s.cur := by
  intro ls
  induction ls with
  | nil =>
    intro s t ws fl h
    simp only [State.issueOrder, Option.some.injEq, Prod.mk.injEq] at h
    rw [h.1]
  | cons l ls ih =>
    intro s t ws fl h
    simp only [State.issueOrder] at h
    split at h
    · split at h
      · simp at h
      · rename_i s' rs k' hk'
        split at h
        · simp at h
        · rename_i u ws2 fl2 hr
          simp only [Option.some.injEq, Prod.mk.injEq] at h
          rw [← h.1, ih _ _ _ _ hr]
          exact hk _ _ _ hk'
    · simp at h

/-- A class whose head fails the check of its registers (R190, R79). -/
theorem perLane_unsound {i : Instr} {body : Nat → State → Res} {s : State} {l : Nat} {ls : List Nat} (hl : s.cur.lanes = l :: ls) :
    ((s.lane l).inFrame i.vecRegs = false → perLane i body s = s.split (l :: ls) { cause := .regOutOfFrame })
    ∧ ((s.lane l).inFrame i.vecRegs = true → s.meetsError l i = true →
        perLane i body s = s.split (l :: ls) { cause := .memUncorrectable }) := by
  constructor
  · intro h; simp [perLane, hl, runLanes, h]
  · intro h h'; simp [perLane, hl, runLanes, h, h']

theorem State.issueFor_nil (s : State) (f : Nat) (w : Work) (ws : List (Nat × Nat × Word)) (fl : Nat) :
    s.issueFor f w [] ws fl = s := rfl

theorem runLong_unsound {i : Instr} {f : Nat} {work : Work} {body : Nat → State → LongRes} {s s0 : State} {l : Nat}
    {ls : List Nat} {fl : Nat} {ws : List (Nat × Nat × Word)} :
    ((s.lane l).inFrame i.vecRegs = false →
      runLong i f work body s0 (l :: ls) [] ws fl s = s.split (l :: ls) { cause := .regOutOfFrame })
    ∧ ((s.lane l).inFrame i.vecRegs = true → s.meetsError l i = true →
        runLong i f work body s0 (l :: ls) [] ws fl s = s.split (l :: ls) { cause := .memUncorrectable }) := by
  constructor
  · intro h; simp [runLong, h, State.issueFor_nil]
  · intro h h'; simp [runLong, h, h', State.issueFor_nil]

/-- A class whose head takes a trap in place of the instruction. -/
theorem perLane_trap {i : Instr} {body : Nat → State → Res} {s : State} {l : Nat} {ls : List Nat} {t : Trap}
    (hl : s.cur.lanes = l :: ls) (hs : s.sound l i) (hb : body l s = .trap t) :
    perLane i body s = s.split (l :: ls) t := by
  simp [perLane, hl, runLanes, hs.1, hs.2, hb]

theorem runLong_trap {i : Instr} {f : Nat} {work : Work} {body : Nat → State → LongRes} {s s0 : State} {l : Nat}
    {ls : List Nat} {fl : Nat} {ws : List (Nat × Nat × Word)} {t : Trap} (hs : s.sound l i) (hb : body l s = .trap t) :
    runLong i f work body s0 (l :: ls) [] ws fl s = s.split (l :: ls) t := by
  simp [runLong, hs.1, hs.2, hb, State.issueFor_nil]

/-- The threads of a class sent on to one address, by a uniform instruction. -/
theorem Group.updLanes_eq (f : Lane → Lane) (hf : ∀ t, f (f t) = f t) : ∀ (ls : List Nat) (g : Group),
    g.updLanes ls f = { g with lanes := g.lanes.mapIdx fun l t => if l ∈ ls then f t else t } := by
  intro ls
  induction ls with
  | nil => intro g; simp [Group.updLanes, List.mapIdx_eq_zipIdx_map]
  | cons l ls ih =>
    intro g
    show Group.updLanes (g.updLane l f) ls f = _
    rw [ih]
    simp only [Group.updLane, updAt]
    congr 1
    apply List.ext_getElem?
    intro k
    simp only [List.getElem?_mapIdx, List.getElem?_modify]
    cases g.lanes[k]? with
    | none => simp
    | some t =>
      by_cases h : l = k
      · subst h; by_cases h2 : l ∈ ls <;> simp [h2, hf]
      · have h' : k ≠ l := fun e => h e.symm
        simp [h, h']

end Sys2Proof.Machine
end

