-- ==== Sys2Proof/Tests/Slice0.lean ====
section
/-!
SUPPORT. Tests of the model's own: words written out in the spec and what they decode to, terms that well-formedness
refuses, steps whose results the spec states, and, for each statement, states and operands that meet its hypotheses.
-/
section
set_option Elab.async false
namespace Sys2Proof.Tests

/-- What a word list decodes to. -/
def dec (ws : List Word) : Option Instr := match decode ws with | .ok (i, []) => some i | _ => none
/-- The detail code that a word list is refused with. -/
def det (ws : List Word) : Nat := match decode ws with | .error (.detail n) => n | _ => 0

/-! The words of file 09, A clause encoded, and of files 10 to 13. -/
theorem test_decode_add : dec [0x01C30C08#32] = some (.addBase 3 (.v 3) (.v 7)) := by decide
theorem test_decode_ld : dec [0x0100C501#32, 0x06000000#32, 0x02000102#32]
    = some (.ld .n32 (.acq .dev) .kall 12 (.v 4) 16#12 2) := by decide
theorem test_decode_ld_order : det [0x0100C501#32, 0x04000000#32, 0x02000102#32] = 5 := by decide
/-! The opcode of a header as an instruction of one word: R258 assigns it, so that it is a form which its row does not give. -/
theorem test_detail_header : (match decodeFor .lane [0x000003FC#32] with | .error (.detail n) => n | _ => 0) = 2 := by decide
theorem test_decode_bnz : dec [0x00030086#32, 0xFFFFFFE4#32, 0xFFFFFFFF#32]
    = some (.bnzBase (.v 3) 0xFFFFFFFFFFFFFFE4#64) := by decide
theorem test_header : (Header.ofWords 0x00010FFE#32 0xF2#32 0#32)
    = some ⟨false, false, 2, 3, 2, 15, 0#32⟩ := by decide
theorem test_decode_mad : dec [0x0080A115#32, 0x0004B004#32, 0x26000000#32]
    = some (.mad .i32 (.v 10) (.v 2) (.s 4) (.v 300)) := by decide
theorem test_decode_ffma : dec [0x0240820D#32, 0x00202C0A#32, 0#32]
    = some (.ffma .f32 .rz 8 (.v 9) (.v 10) (.v 11)) := by decide
theorem test_decode_tscan : dec [0x05414411#32, 0#32, 0x08160000#32]
    = some (.tscan .f32 .fadd true 20 (.v 21)) := by decide
theorem test_decode_st : dec [0x01000505#32, 0x0A000009#32, 0x02000080#32]
    = some (.st .n32 (.rel .dev) .kall (.v 4) 8#12 (.v 9)) := by decide
theorem test_decode_atom : dec [0x0100A515#32, 0x0E00300B#32, 0x00010001#32]
    = some (.atom .cas .n32 .ar .dev .kall 10 (.v 4) 0#12 (.v 11) (.v 12) 1) := by decide
theorem test_decode_mset : dec [0x00002C07#32, 0#32, 0#32, 0x8000#32, 0#32] = some (.mset 2 0x8000#64) := by decide
theorem test_decode_mmul : dec [0x00805C29#32, 3#32, 0x02000000#32] = some (.mmul .bf16 false 0 5 2 3) := by decide
theorem test_decode_maddi : dec [0x00401C09#32, 0#32, 0x10#32] = some (.maddi 1 1 1#12) := by decide
theorem test_decode_sysrd : dec [0x00801E01#32, 0#32, 0x10000000#32] = some (.sysrd 1 (.s 2)) := by decide

/-! Terms that well-formedness refuses, one for each of its checks. -/
theorem test_wf_register : Instr.wf (.add .n64 (.v 3) (.v 0) (.v 2)) = false := by decide
theorem test_wf_span : Instr.wf (.neval .f32 64 64 992 (.v 0) (.v 8) 0) = false := by decide
theorem test_wf_field : Instr.wf (.bfe .n32 (.v 0) (.v 1) 30 2) = false := by decide
theorem test_wf_flag : Instr.wf (.div .n32 0 (.v 1) (.v 2) 12) = false := by decide
theorem test_wf_literal : Instr.wf (.add .n32 (.v 0) (.v 1) (.lit 0x100000000#64)) = false := by decide
theorem test_wf_twin : Instr.wf (.add .n32 (.s 0) (.v 1) (.s 2)) = false := by decide
theorem test_wf_ok : Instr.wf (.add .n32 (.v 0) (.v 1) (.lit 5#64)) = true := by decide

/-! ### States that the statements' hypotheses are met in -/

open Machine

/-- A group of 32 Ready lanes with the largest frame. -/
def grp0 : Group := { loadedGroup with lanes := List.replicate 32 (Lane.start 0x10000 1024) }

/-- Stage 2, one context, launch, team and group; a class of two lanes stands before an instruction. -/
def s0 : State :=
  { State.reset.loaded [] with
    issues := [], agenda := [], groups := [grp0]
    cur := { who := .lanes, core := 0, slot := 0, lanes := [0, 1], pc := 0x1000C, next := 0x10010, setA := 0, setB := 1 } }

/-- The same with a control core about to perform. -/
def c0 : State := { s0 with cur := { s0.cur with who := .control, lanes := [] } }

/-- The same with the team's stream about to perform. -/
def m0 : State := { s0 with cur := { s0.cur with who := .stream, lanes := [], next := 3 } }

/-- An instruction whose registers lie in the frame finds its class ready. -/
theorem ready (i : Instr) (h : (Lane.start 0x10000 1024).inFrame i.vecRegs = true) : s0.classReady i :=
  ⟨rfl, by decide, by decide, grp0, rfl, fun l hl => by
    have hl : l = 0 ∨ l = 1 := by simpa [s0] using hl
    rcases hl with rfl | rfl <;>
      exact ⟨by decide, h, by
        simp [State.meetsError, State.uniError, State.lane, State.grp, State.group?, Group.isAt, Lane.meetsError, Lane.fillError, grp0,
          loadedGroup, Group.lane, Lane.start, s0, State.loaded]⟩⟩

/-! ### Witnesses: states and operands that meet the hypotheses of each statement -/

theorem witness_IntegerResults : ∃ f, Rules.integer (.add .i32 (.v 1023) (.v 0) (.lit 5)) = some (.v 1023, f)
    ∧ Instr.wf (.add .i32 (.v 1023) (.v 0) (.lit 5)) = true ∧ s0.classReady (.add .i32 (.v 1023) (.v 0) (.lit 5)) :=
  ⟨_, rfl, by decide, ready _ (by decide)⟩
theorem witness_FloatResults : ∃ f, Rules.float (.fadd .f64 .rz 2 (.v 0) (.v 4)) = some (2, f)
    ∧ Instr.wf (.fadd .f64 .rz 2 (.v 0) (.v 4)) = true ∧ s0.classReady (.fadd .f64 .rz 2 (.v 0) (.v 4)) :=
  ⟨_, rfl, by decide, ready _ (by decide)⟩
theorem witness_TwinResults : ∃ f, Rules.integer (.add .n32 (.s 191) (.s 0) (.lit 5)) = some (.s 191, f)
    ∧ Instr.wf (.add .n32 (.s 191) (.s 0) (.lit 5)) = true ∧ s0.cur.who = .lanes ∧ s0.grp = some grp0 :=
  ⟨_, rfl, by decide, rfl, rfl⟩
theorem witness_ControlCoreTwins : ∃ f, Rules.integer (.mov .n32 (.s 0) (.s 1)) = some (.s 0, f)
    ∧ Instr.wf (.mov .n32 (.s 0) (.s 1)) = true ∧ c0.cur.who = .control := ⟨_, rfl, by decide, rfl⟩
theorem witness_PlainResults : ∃ f, Rules.plain (.fclass .f16 2 (.v 0)) = some (2, f)
    ∧ Instr.wf (.fclass .f16 2 (.v 0)) = true ∧ s0.classReady (.fclass .f16 2 (.v 0)) := ⟨_, rfl, by decide, ready _ (by decide)⟩
theorem witness_CollectiveResults : ∃ f, Rules.collective (.vote .any 2 (.v 0)) = some (2, f) ∧ s0.classReady (.vote .any 2 (.v 0)) :=
  ⟨_, rfl, ready _ (by decide)⟩
theorem witness_SpecialReads : s0.classReady (.rds (.v 2) .meet) ∧ s0.grp = some grp0
    ∧ s0.team? grp0.team = some (loadedTeam []) ∧ (s0.launch? (loadedTeam []).launch).isSome = true
    ∧ (Instr.rds (.s 2) .core).wf = true ∧ c0.cur.who = .control := ⟨ready _ (by decide), rfl, rfl, rfl, by decide, rfl⟩
theorem witness_GroupRegisterWrites : s0.cur.who = .lanes ∧ s0.grp = some grp0 ∧ Instr.wf (.wrs .fmode (.s 0)) = true
    ∧ Instr.wf (.wrs .fstat (.s 0)) = true ∧ Instr.wf (.wrs .fseed (.s 0)) = true ∧ Instr.wf (.part (.s 0)) = true :=
  ⟨rfl, rfl, by decide, by decide, by decide, by decide⟩
theorem witness_Branches : ∃ go, Rules.goTo (.bnz (.v 0) 8) = some go ∧ s0.classReady (.bnz (.v 0) 8) :=
  ⟨_, rfl, ready _ (by decide)⟩
theorem witness_ControlCoreBranches : ∃ go, Rules.goTo (.bz (.s 0) 8) = some go ∧ (Instr.bz (.s 0) 8).onControl = true
    ∧ c0.cur.who = .control := ⟨_, rfl, by decide, rfl⟩

/-- A thread two calls deep. -/
def deep : Lane := { Lane.start 0x10000 1024 with ret := [⟨0x100, 8, 16⟩, ⟨0x200, 0, 24⟩] }
def s1 : State := { s0 with groups := [{ grp0 with lanes := List.replicate 32 deep }] }

theorem witness_ThreadEffects : s0.classReady (.call 128 0x40) ∧ (∀ l ∈ s0.cur.lanes, (Rules.onThread s0 l (.call 128 0x40)).isSome = true)
    ∧ s0.classReady (.frame 128) ∧ (∀ l ∈ s0.cur.lanes, (Rules.onThread s0 l (.frame 128)).isSome = true)
    ∧ (∀ l ∈ s1.cur.lanes, (Rules.onThread s1 l .ret).isSome = true)
    ∧ (∀ l ∈ s0.cur.lanes, (Rules.onThread s0 l .garrive).isSome = true) :=
  ⟨ready _ (by decide), by decide +kernel, ready _ (by decide), by decide +kernel, by decide +kernel, by decide +kernel⟩
theorem witness_ThreadEnds : s0.classReady .exit ∧ s0.grp = some grp0 ∧ s0.team? grp0.team = some (loadedTeam [])
    ∧ (loadedTeam []).roles[grp0.role]? = some loadedRole := ⟨ready _ (by decide), rfl, rfl, rfl⟩

/-! Tasks. -/

/-- A group formed from tasks: lanes 0 and 1 hold tasks, the others are Vacant. -/
def grpT : Group := { grp0 with tasks := true, lanes := List.replicate 2 (Lane.start 0x10000 1024) ++ List.replicate 30 {} }
/-- A record whose entry stands 8 bytes after the instruction. -/
def task0 : Task := { team := 0, quarter := 0, role := 0, entry := 0x10014, args := List.replicate 16 7 }
def s2 : State := { s0 with groups := [grpT], wells := [(0, task0)] }

theorem witness_Refill : (∃ g, s2.grp = some g ∧ g.tasks = true ∧ ∀ l ∈ s2.cur.lanes, (g.lane l).st ≠ .vacant)
    ∧ (s2.matching grpT (s2.cur.pc + 8)).length = 1 ∧ s0.classReady (.refill 2 8) ∧ s0.grp = some grp0
    ∧ (∀ l ∈ s0.cur.lanes, (grp0.lane l).st ≠ .vacant) :=
  ⟨⟨grpT, rfl, by decide +kernel⟩, by decide +kernel, ready _ (by decide), rfl, by decide +kernel⟩
theorem witness_Refill_ready : s2.classReady (.refill 2 8) :=
  ⟨rfl, by decide, by decide, grpT, rfl, fun l hl => by
    have hl : l = 0 ∨ l = 1 := by simpa [s2, s0] using hl
    rcases hl with rfl | rfl <;> exact ⟨by decide, by decide +kernel, by decide +kernel⟩⟩
theorem witness_TaskEntry : s2.grp = some grpT ∧ 1 ≤ (s2.matching grpT 0x10014).length
    ∧ ((List.range 32).filter fun l => (grpT.lane l).st == .vacant)[0]? = some 2 ∧ 2 < grpT.lanes.length
    ∧ (s2.matching grpT 0x10014)[0]? = some task0 ∧ task0.args.length = 16 := by decide +kernel

/-- The team of a launch with a task role. -/
def taskRole : Role := { loadedRole with task := true, g := 2, b := 16 }
def tmT : Team := { loadedTeam [] with roles := [loadedRole, taskRole], slots := [(0, 0, 0), (0, 4, 0), (0, 8, 1)], stream := none }
/-- The same, with one thread alone about to spawn, whose `v4` holds a role. -/
def spawner (role : Word) : State :=
  { s0 with teams := [tmT], cur := { s0.cur with lanes := [0] }
            groups := [{ grp0 with lanes := [{ Lane.start 0x10000 1024 with slots := Store.set [] 20 role }] }] }
theorem spawner_ready (r : Word) : (spawner r).classReady (.tspawn 2 (.v 0) (.v 4) (.v 20)) :=
  ⟨rfl, by simp [spawner], by simp [spawner], _, rfl, fun l hl => by
    have hl : l = 0 := by simpa [spawner] using hl
    subst hl
    exact ⟨by simp, (by decide : (Lane.start 0x10000 1024).inFrame (Instr.vecRegs (.tspawn 2 (.v 0) (.v 4) (.v 20))) = true),
      by simp [State.meetsError, State.uniError, State.lane, State.grp, State.group?, Group.isAt, Lane.meetsError, Lane.fillError, grp0,
          loadedGroup, Group.lane, Lane.start, spawner, s0, State.loaded]⟩⟩
/-- A sump of 32 records: `shead` and `stail` as given. -/
def sumped (s : State) (head tail : Nat) : State :=
  { s with ctx := updAt s.ctx 0 fun c => { c with sumpCtl := 5, shead := head, stail := tail } }

theorem witness_Spawns : (spawner 0).cur.lanes = [0] ∧ (∃ g, (spawner 0).grp = some g) ∧ (spawner 0).team? 0 = some tmT
    ∧ (tmT.roles[((spawner 0).reg 0 (.v 20) 0).toNat]?.map (·.task)).getD false = false
    ∧ (tmT.roles[((spawner 1).reg 0 (.v 20) 0).toNat]?.map (·.task)).getD false = true
    ∧ (spawner 1).wellRoom 0 0 = true ∧ ((spawner 1).ctxAt 0).sumpEmpty = true
    ∧ ((sumped (spawner 1) 0 1).ctxAt 0).sumpEmpty = false ∧ ((sumped (spawner 1) 0 1).ctxAt 0).sumpFull = true
    ∧ ((sumped (spawner 1) 30 0).ctxAt 0).sumpEmpty = false ∧ ((sumped (spawner 1) 30 0).ctxAt 0).sumpFull = false :=
  ⟨rfl, ⟨_, rfl⟩, by decide +kernel⟩

/-! Checks. -/

/-- A class of one thread, changed by `f`. -/
def alone (f : Lane → Lane) : State :=
  { s0 with cur := { s0.cur with lanes := [0] }, groups := [{ grp0 with lanes := [f (Lane.start 0x10000 1024)] }] }
def shallow : State := alone fun t => { t with f := 8 }

theorem witness_LeadTraps : s0.cur.who = .lanes ∧ s0.cur.lanes = 0 :: [1] ∧ s0.grp = some grp0
    ∧ Rules.trap s0 0 (.brk 4095) = some { cause := .brk, detail := 4095 }
    ∧ Rules.trap shallow 0 (.call 2 0) = some { cause := .regOutOfFrame }
    ∧ Rules.trap s0 0 (.frame 128) = none ∧ Rules.trap (alone fun t => { t with wb := 8 }) 0 (.frame 128) = some { cause := .stackOverflow } ∧ Rules.trap s0 0 .ret = some { cause := .returnUnderflow }
    ∧ (Rules.trap s0 0 (.ld .n32 .plain .kall 2 (.v 0) 1 0)).isSome = false
    ∧ (Rules.trap (alone fun t => { t with slots := Store.set [] 1 0x100000 }) 0 (.ld .n32 .plain .kall 2 (.v 0) 0 0)).isSome = true
    ∧ (Rules.trap (alone fun t => { t with slots := Store.set [] 0 31 }) 0 (.texf .f32 .lin 0 2 (.v 0) (.v 4) 0)).isSome = true := by
  decide +kernel
theorem witness_LeadTraps_sound : s0.sound 0 (.brk 4095) ∧ (∀ f, (Instr.brk 4095).flag? = some f → s0.flagFull f = false) :=
  ⟨⟨by decide, by decide⟩, fun f h => nomatch h⟩
theorem witness_RegisterChecks : isLaneInstr (.mov .n32 (.v 8) (.v 7)) = true ∧ Instr.wf (.mov .n32 (.v 8) (.v 7)) = true
    ∧ shallow.cur.lanes = 0 :: [] ∧ (shallow.lane 0).inFrame (Instr.vecRegs (.mov .n32 (.v 8) (.v 7))) = false
    ∧ (shallow.lane 0).inFrame (Instr.vecRegs (.mov .n32 (.v 6) (.v 7))) = true
    ∧ (alone fun t => { t with bad := [7] }).meetsError 0 (.mov .n32 (.v 6) (.v 7)) = true := by
  decide +kernel

/-! Memory: a window of 1 GiB that a table of two entries maps onto the addresses 0 to 2^30 − 1. -/

def mapped (s : State) : State :=
  { s with memMib := 380928, partWin := [0x00010000, 0, 0, 0], mem := [(0, 3), (2, 2), (0x20000, 0x39), (0x20001, 1)],
           tlb := [⟨0, 0, 0, 0, ⟨2, false, 0x139⟩⟩] }
/-- Two threads whose `v0`, `v1` hold an address, and `v4` what each stores. -/
def at_ (a : Nat) : State :=
  mapped { s0 with groups := [{ grp0 with lanes := (List.range 32).map fun l =>
    { Lane.start 0x10000 1024 with slots := Store.setAll [] 0 [BitVec.ofNat 32 (a + 4 * l), 0, 0, 0, BitVec.ofNat 32 (7 + l)] } }] }

theorem witness_EffectsInOrder :
    (∃ k, Rules.inTurn (.st .n32 .plain .kall (.v 0) 0 (.v 4)) = some k
      ∧ (State.inOrder (.st .n32 .plain .kall (.v 0) 0 (.v 4)) k [0, 1] (at_ 0x3FFFFFF8)).isSome = true)
    ∧ (∃ k, Rules.inTurn (.stsp .n32 .plain (.v 0) 0 (.v 4)) = some k
      ∧ (State.inOrder (.stsp .n32 .plain (.v 0) 0 (.v 4)) k [0, 1] (at_ 0xFFF8)).isSome = true)
    ∧ (∃ k, Rules.inTurn (.binit (.v 0) (.v 4)) = some k
      ∧ (State.inOrder (.binit (.v 0) (.v 4)) k [0] (at_ 0xFFF0)).isSome = true)
    ∧ (at_ 0).cur.who = .lanes :=
  by refine ⟨?_, ?_, ?_, rfl⟩ <;> exact ⟨_, rfl, by decide +kernel⟩

/-- A barrier object for two arrivals at the offset that `v0` of thread 0 names. -/
def bar0 : State := { at_ 0x100 with teams := [{ loadedTeam [] with spad := Store.set [] 0x106 2 }] }
theorem witness_EffectsInOrder_objects :
    (∃ k, Rules.inTurn (.barrive 2 (.v 0)) = some k ∧ (State.inOrder (.barrive 2 (.v 0)) k [0] bar0).isSome = true)
    ∧ (∃ k, Rules.inTurn (.waitph (.v 0) (.v 2)) = some k ∧ (State.inOrder (.waitph (.v 0) (.v 2)) k [0] bar0).isSome = true)
    ∧ (∃ k, Rules.inTurn (.accwr .f32 (.v 4) 63 63) = some k
      ∧ (State.inOrder (.accwr .f32 (.v 4) 63 63) k [0, 1] (at_ 0)).isSome = true)
    ∧ (∃ k, Rules.inTurn (.accsp .f32 .dyn (.v 0) 63 63) = some k
      ∧ (State.inOrder (.accsp .f32 .dyn (.v 0) 63 63) k [0] (at_ 0x200)).isSome = true) :=
  by refine ⟨?_, ?_, ?_, ?_⟩ <;> exact ⟨_, rfl, by decide +kernel⟩

/-- `tspawn` of a role that is no task role, into the wellhead, with no room, and into the sump. -/
theorem witness_EffectsInOrder_spawn : ∃ k, Rules.inTurn (.tspawn 2 (.v 0) (.v 4) (.v 20)) = some k
    ∧ (State.inOrder (.tspawn 2 (.v 0) (.v 4) (.v 20)) k [0] (spawner 0)).isSome = true
    ∧ (State.inOrder (.tspawn 2 (.v 0) (.v 4) (.v 20)) k [0] (spawner 1)).isSome = true
    ∧ (State.inOrder (.tspawn 2 (.v 0) (.v 4) (.v 20)) k [0] (sumped (spawner 1) 0 1)).isSome = true
    ∧ (State.inOrder (.tspawn 2 (.v 0) (.v 4) (.v 20)) k [0] (mapped (sumped (spawner 1) 30 0))).isSome = true :=
  ⟨_, rfl, by decide +kernel⟩
/-- The record of the sump that the spawn is to write lies in an ordinary page without an error. -/
theorem witness_Spawns_sump : (match (mapped (sumped (spawner 1) 30 0)).translate 0 { kind := .write, core := 0 }
      (((mapped (sumped (spawner 1) 30 0)).ctxAt 0).sumpVa 30) with
    | .ok p _ => ((mapped (sumped (spawner 1) 30 0)).ueIn p 128).isNone | _ => false) = true
    ∧ (mapped (sumped (spawner 1) 30 0)).reserved 0 0 .write (((mapped (sumped (spawner 1) 30 0)).ctxAt 0).sumpVa 30) 128 = none := by
  decide +kernel

/-- A map whose leaf of the addresses 0 to 2^30 − 1 is not resident, and a region of 1 MiB from 0 on whose map stands at 2^30. -/
def tiled (e : DWord) : State :=
  let s := at_ 0xF0000
  { s with tlb := [⟨0, 0, 0, 0, ⟨2, false, 0x539⟩⟩, ⟨0, 0, 0, 0x40000000, ⟨2, false, e⟩⟩], cur := { s.cur with lanes := [0] }
           ctx := updAt s.ctx 0 fun c => { c with regions := [none, some ⟨0, 0x100000, 0x40000000⟩] } }
def checkIs (s : State) (va : Nat) : Bool :=
  match s.check 0 .read true va 4 1 (some .kall) with | .ok [(none, 4, _)] => true | _ => false
theorem witness_Residency : (tiled 0x139).grp.isSome = true ∧ (tiled 0x139).flagFull 0 = false
    ∧ checkIs (tiled 0x139) 0xF0000 = true ∧ checkIs (tiled 0x339) 0xFFFFC = true
    ∧ (match (tiled 0x139).translate 0 { kind := .atomic, core := 0 } (0x40000000 + 15 / 8) with | .ok _ _ => true | _ => false) = true
    ∧ (match (tiled 0x339).translate 0 { kind := .atomic, core := 0 } (0x40000000 + 15 / 8) with | .bad _ => true | _ => false) = true := by
  decide +kernel

theorem witness_LongResults :
    (∃ k, Rules.long (.ld .n32 .plain .kall 8 (.v 0) 0 0) = some (0, k)
      ∧ (State.issueOrder (.ld .n32 .plain .kall 8 (.v 0) 0 0) k [0, 1] (at_ 0x3FFFFFF8)).isSome = true)
    ∧ (∃ k, Rules.long (.atom .add .n32 .rlx .dev .kall 8 (.v 0) 0 (.v 4) (.v 4) 0) = some (0, k)
      ∧ (State.issueOrder (.atom .add .n32 .rlx .dev .kall 8 (.v 0) 0 (.v 4) (.v 4) 0) k [0, 1] (at_ 0x100)).isSome = true)
    ∧ (∃ k, Rules.long (.div .n32 8 (.v 4) (.v 2) 1) = some (1, k)
      ∧ (State.issueOrder (.div .n32 8 (.v 4) (.v 2) 1) k [0, 1] (at_ 0x100)).isSome = true)
    ∧ (∃ k, Rules.long (.ldsp .n32 .plain 8 (.v 0) 0 0) = some (0, k)
      ∧ (State.issueOrder (.ldsp .n32 .plain 8 (.v 0) 0 0) k [0, 1] (at_ 0xFFF8)).isSome = true)
    ∧ (∃ k, Rules.long (.accrd .f32 .dyn 8 63 63 0) = some (0, k)
      ∧ (State.issueOrder (.accrd .f32 .dyn 8 63 63 0) k [0, 1] (at_ 0)).isSome = true)
    ∧ (at_ 0).cur.who = .lanes ∧ (at_ 0).cur.lanes ≠ [] ∧ (at_ 0).flagFull 0 = false :=
  by refine ⟨?_, ?_, ?_, ?_, ?_, by decide +kernel⟩ <;> exact ⟨_, rfl, by decide +kernel⟩
theorem witness_FlagFull : (Instr.div .n32 8 (.v 4) (.v 2) 1).flag? = some 1
    ∧ ∃ g, ({ s0 with groups := [{ grp0 with flags := [0, 63] }] } : State).grp = some g ∧ 63 ≤ g.flags.getD 1 0 :=
  ⟨rfl, _, rfl, by decide⟩
theorem witness_UnitRequests :
    (∃ w, Rules.request (.rtrace true false false 8 (.v 0) (.v 4) 0) = some (0, .v 0, 128, w))
    ∧ (∃ w, Rules.request (.mvx .f16 .auto 0 0 8 (.v 0) (.v 2) (.v 4) 0) = some (0, .v 0, 32, w))
    ∧ (∀ l ∈ s0.cur.lanes, (s0.pair l (.v 0)).toNat % 128 = 0)
    ∧ s0.flagFull 0 = false := ⟨⟨_, rfl⟩, ⟨_, rfl⟩, by decide +kernel, by decide +kernel⟩
theorem witness_UnitRequests_ready : s0.classReady (.texf .f32 .lin 0 8 (.v 0) (.v 4) 0) := ready _ (by decide)
theorem witness_Evaluations : (Instr.neval .f32 8 8 8 (.v 0) (.v 16) 0).wf = true ∧ s0.cur.lanes ≠ [] ∧ s0.grp = some grp0
    ∧ s0.flagFull 0 = false ∧ ∀ l ∈ s0.cur.lanes, (s0.pair l (.v 0)).toNat % 256 = 0 ∧ (s0.pair l (.v 0)).toNat < 2 ^ 52 :=
  ⟨by decide, by decide, rfl, by decide +kernel, by decide +kernel⟩

/-! Matrix streams. -/

/-- The team's stream changed by `f`, and its window holding a barrier object for one arrival at 0x10 and a ring at 0x40. -/
def streamAt (f : Stream → Stream) : State :=
  { m0 with teams := [{ loadedTeam [] with spad := Store.set [] 0x16 1
                                           stream := (loadedTeam []).stream.map f }] }
def theStream : Stream := { entry := 0x20000, len := 4, st := .running }
def s4 : State := streamAt fun _ => theStream
def team4 : Team := { loadedTeam [] with spad := Store.set [] 0x16 1, stream := some theStream }

theorem witness_StreamResults : s4.team? s4.cur.slot = some team4 ∧ team4.stream = some theStream
    ∧ (Rules.stream team4 theStream .mnop).isSome = true ∧ (Rules.stream team4 theStream (.mset 31 5)).isSome = true
    ∧ (Rules.stream team4 theStream (.maddi 0 0 0x800)).isSome = true ∧ (Rules.stream team4 theStream (.marr 1)).isSome = true
    ∧ (Rules.stream { team4 with spad := Store.set team4.spad 0x10 1 } theStream (.mwait 1 0)).isSome = true
    ∧ (Rules.stream team4 theStream (.mzero 63)).isSome = true
    ∧ (Rules.stream { team4 with tiles := 1 } theStream (.mzero 1)).isSome = false := by decide +kernel
theorem witness_StreamResults_product :
    (Rules.stream { team4 with spsize := 4194304 } { theStream with m := Store.set [] 1 0x4000 } (.mmulb .bf16 false 1 63 0 1)).isSome = true := by
  decide +kernel
/-- An open loop of counter 1 around one instruction, and the words of an `mnext 2` that closes an inner loop. -/
def nextWords (k : Nat) : List Word := encode (.mnext k)
def s5 : State := streamAt fun _ => { theStream with words := nextWords 0 ++ nextWords 2, loops := [(1, 1, 3), (0, 0, 0)], l := [1, 2, 0] }
theorem witness_StreamLoops : (∃ t m, s5.team? s5.cur.slot = some t ∧ t.stream = some m ∧ m.loops.length = 2
      ∧ (∀ e ∈ m.loops, e.1 ≠ 2) ∧ findNext 2 (m.len - m.idx) (m.words.drop s5.cur.next.toNat) (m.idx + 1) s5.cur.next.toNat = some (2, 6)
      ∧ m.loops = (1, 1, 3) :: [(0, 0, 0)])
    ∧ ∃ t, s5.team? s5.cur.slot = some t ∧ ∀ u ∈ s5.teams, u.id = t.id → u = t :=
  ⟨⟨_, _, rfl, rfl, by decide, by decide, by decide +kernel, rfl⟩, _, rfl, by simp [s5, streamAt]⟩
def isHold : BarRes → Bool | .hold => true | _ => false
def isOk (t : Team) (v : Nat) : BarRes → Bool | .ok u w => u == t && w == v | _ => false
theorem hold_of {r : BarRes} (h : isHold r = true) : r = .hold := by cases r <;> simp_all [isHold]
theorem ok_of {r : BarRes} {t : Team} {v : Nat} (h : isOk t v r = true) : r = .ok t v := by cases r <;> simp_all [isOk]
theorem witness_StreamHolds : team4.barWait (team4.barbase + 16 * 2) 0 true = .hold ∧ team4.barWait (team4.barbase + 16 * 1) 0 true = .ok team4 0
    ∧ team4.barArrive (team4.barbase + 16 * 255) true = .hold ∧ team4.ringAcquire 0x400 true = .hold
    ∧ team4.ringFinish 0x400 0 false true = .hold :=
  ⟨hold_of (by decide +kernel), ok_of (by decide +kernel), hold_of (by decide +kernel), hold_of (by decide +kernel),
   hold_of (by decide +kernel)⟩
theorem witness_StreamTraps : (0 : Nat) < s4.ctx.length ∧ (s4.ctxAt 0).faulted = false ∧ (s4.ctxAt 0).fatal = none ∧ (s4.ctxAt 0).fqN = none
    ∧ findNext 0 (theStream.len - theStream.idx) (theStream.words.drop s4.cur.next.toNat) (theStream.idx + 1) s4.cur.next.toNat = none
    ∧ team4.tiles ≤ 64 := by decide +kernel
theorem witness_StreamTraps_open : ∃ t m, s5.team? s5.cur.slot = some t ∧ t.stream = some m ∧ (∃ e ∈ m.loops, e.1 = 0)
    ∧ (∀ e, m.loops.head? = some e → e.1 ≠ 0) :=
  ⟨_, _, rfl, rfl, ⟨(0, 0, 0), by decide, rfl⟩, fun e h => by cases h; decide⟩

/-! Traps and faults. -/

/-- The context of `s0` changed by `f`. -/
def ctx0 (f : Ctx → Ctx) : State := { s0 with ctx := updAt s0.ctx 0 f }
def demandFault : Trap := { cause := .pageFault, detail := 2, aux := 0x5000, demand := true, level := 0 }
def record0 : FaultRec := { id := 9, va := 0x5000, sub := 2, kind := .read, src := { code := 0 }, level := 0 }

theorem witness_Breakpoints : s0.cur.who = .lanes ∧ s0.cur.lanes ≠ [] ∧ s0.cur.lanes.Nodup ∧ s0.grp = some grp0
    ∧ grp0.ctx < s0.ctx.length ∧ (s0.ctxAt 0).dbg = false ∧ (s0.ctxAt 0).faulted = false ∧ (s0.ctxAt 0).fatal = none
    ∧ ((ctx0 fun c => { c with trapctl := 0x80000000 }).ctxAt 0).dbg = true := by decide +kernel
theorem witness_TrapsEndContext : s0.grp = some grp0 ∧ grp0.ctx < s0.ctx.length ∧ (s0.ctxAt 0).faulted = false ∧ (s0.ctxAt 0).fatal = none
    ∧ ({ cause := .misaligned } : Trap).ue = none ∧ ({ cause := .misaligned } : Trap).cause ≠ .pageFault
    ∧ ({ cause := .misaligned } : Trap).cause ≠ .accessViolation ∧ (s0.ctxAt 0).dbg = false := by decide +kernel
theorem witness_ReplayableFaults : s0.grp = some grp0 ∧ [1].Nodup ∧ demandFault.cause = .pageFault ∧ demandFault.demand = true
    ∧ demandFault.ue = none ∧ ((ctx0 fun c => { c with fqsize := 16 }).ctxAt 0).fqN ≠ none
    ∧ ∀ r ∈ ((ctx0 fun c => { c with fqsize := 16 }).ctxAt 0).recs, r.joins 0x5000 2 .read = false := by decide +kernel
/-- One record that waits in a queue of 64 records whose tail stands at `tail`. -/
def faulty (tail : Nat) : State := mapped (ctx0 fun c => { c with fqsize := 6, fqtail := tail, recs := [{ record0 with id := 8, seq := some 0 }, record0] })
/-- An uncorrectable error in the bytes that the record is to fill, and a queue outside its partition's window. -/
theorem witness_FaultRecords_stops : ({ faulty 62 with ue := [1984] } : State).ueIn (.dev 1984) 32 = some 1984
    ∧ (faulty 62).ueIn (.dev 1984) 32 = none
    ∧ (faulty 62).window 0 0xFFFFFFFFFF000 = none ∧ s0.cur.core < 192 := by decide +kernel
theorem witness_FaultRecords : ((faulty 63).ctxAt 0).recs = [{ record0 with id := 8, seq := some 0 }] ++ record0 :: []
    ∧ (∀ q ∈ [{ record0 with id := 8, seq := some 0 }], q.seq ≠ none ∧ q.id ≠ record0.id) ∧ record0.seq = none
    ∧ ((faulty 63).ctxAt 0).fqsize.toNat % 32 = 6
    ∧ (((faulty 63).ctxAt 0).fqtail + 1) % 2 ^ 6 = ((faulty 63).ctxAt 0).fqhead.toNat % 2 ^ 6
    ∧ (((faulty 62).ctxAt 0).fqtail + 1) % 2 ^ 6 ≠ ((faulty 62).ctxAt 0).fqhead.toNat % 2 ^ 6
    ∧ ((faulty 62).ctxAt 0).fqbase.toNat % 2 = 0 ∧ (faulty 62).window 0 (32 * 62) = some 1984 := by decide +kernel

/-- A context that is debugged, with watchpoints of one byte: 0 on the reads and 1 on the writes of 0x107. -/
def watched : State :=
  let s := at_ 0x104
  { s with ctx := updAt s.ctx 0 fun c => { c with
      trapctl := 0x80000000, watch := [0x107_C000000000000000#128, 0x107_A000000000000000#128, 0x107_A000000000000000#128, 0] } }
theorem witness_Watchpoints_sound : watched.sound 0 (.st .n32 .plain .kall (.v 0) 0 (.v 4)) := ⟨by decide +kernel, by decide +kernel⟩
theorem witness_Watchpoints : watched.cur.lanes = 0 :: [1] ∧ watched.cur.lanes.Nodup
    ∧ Rules.access watched 0 (.st .n32 .plain .kall (.v 0) 0 (.v 4)) = some (.write, false, 0x104, 4, 1)
    ∧ (watched.ctxAt 0).en = true ∧ watched.missing 0 0 0 (pagesOf 4) 0x104 4 = none
    ∧ (match watched.span 0 { kind := .write, core := 0 } (pagesOf 4) 0x104 4 with | .ok _ => true | _ => false) = true
    ∧ watched.reserved 0 watched.myLaunch .write 0x104 4 = none ∧ (watched.ctxAt 0).dbg = true ∧ (watched.lane 0).noWatch = false
    ∧ ¬ Rules.watches (watched.ctxAt 0) 0 .write 0x104 4 ∧ Rules.watches (watched.ctxAt 0) 1 .write 0x104 4
    ∧ ¬ Rules.watches (watched.ctxAt 0) 1 .write 0x108 4 := by
  unfold Rules.watches; decide +kernel
theorem witness_FatalFaults : (faulty 62).grp = some grp0 ∧ ((faulty 62).ctxAt 0).faulted = false ∧ ((faulty 62).ctxAt 0).fatal = none
    ∧ ({ demandFault with demand := false } : Trap).ue = none
    ∧ (s0.ctxAt 0).fqsize.toNat % 32 < 6 ∧ (s0.ctxAt 0).recs = [] ∧ demandFault.demand = true
    ∧ ((faulty 63).ctxAt 0).fqsize.toNat % 32 = 6 ∧ (((faulty 63).ctxAt 0).fqtail + 1) % 2 ^ 6 = ((faulty 63).ctxAt 0).fqhead.toNat % 2 ^ 6
    ∧ (faulty 62).window ((faulty 62).ctxAt 0).part (((faulty 62).ctxAt 0).fqbase.toNat / 2 ^ 12 % 2 ^ 40 * 2 ^ 12 + 32 * (62 % 2 ^ 6)) = some 1984 := by
  decide +kernel

/-! Launches. -/

/-- A launch record of one role with one group, and one prerequisite at 0x3000; `f` changes its words. -/
def launchWords (f : List Word → List Word) : List Word :=
  f (((((List.replicate 64 0).set 0 0x01000000).set 2 1).set 3 1).set 4 1
    |>.set 20 0x3000 |>.set 22 5 |>.set 40 0x10000 |>.set 44 0x01020000)
/-- Queue 0 of context 0 with 16 records from 0x4000 on, the first of which is submitted, and what the engine holds of it. -/
def queue0 (t : Head) : LQ := { base := 0x4000, ctl := 0x80000004, tail := 1, taking := t }
def queued (t : Head) (f : List Word → List Word) : State :=
  let s := mapped (ctx0 fun c => { c with lq := [queue0 t, {}, {}, {}] })
  { s with mem := Store.setAll s.mem 0x4000 (wordBytes (launchWords f)), dies := 15 }

theorem witness_headRecord : Rules.headRecord (queued .none id) 0 0 4 0x4000 (queue0 .none) := by
  unfold Rules.headRecord; decide +kernel
theorem witness_headRecord_waiting : Rules.headRecord (queued (.prereq 1 [(0x3000, 5, false)]) id) 0 0 4 0x4000
    (queue0 (.prereq 1 [(0x3000, 5, false)])) := by unfold Rules.headRecord; decide +kernel
theorem witness_headRecord_ready : Rules.headRecord (queued (.prereq 1 [(0x3000, 5, true)]) id) 0 0 4 0x4000
    (queue0 (.prereq 1 [(0x3000, 5, true)])) := by unfold Rules.headRecord; decide +kernel
theorem witness_headRecord_read : Rules.headRecord (queued (.read (launchWords id) [] none) id) 0 0 4 0x4000
    (queue0 (.read (launchWords id) [] none)) := by unfold Rules.headRecord; decide +kernel
/-- What a plain read by the launch engine answers. -/
def readIs (s : State) (va len : Nat) (xs : List Byte) : Bool :=
  match s.engineRead 0 { core := engineCore } va len { code := 9, die := s.physDie 0 } with | .ok ys => ys.2 == xs | .error _ => false
theorem reads_of {s : State} {va len : Nat} {xs : List Byte} (h : readIs s va len xs = true) : ∃ u, Rules.reads s 0 va len u xs := by
  unfold readIs at h; unfold Rules.reads; split at h
  · next ys e => exact ⟨ys.1, by rw [e, ← eq_of_beq h]⟩
  · simp at h
theorem witness_Prerequisites : (queue0 .none).taking = .none ∧ (∃ u, Rules.reads (queued .none id) 0 0x4000 4 u [0, 0, 0, 1])
    ∧ (∃ u, Rules.reads (queued .none id) 0 (0x4000 + 0x50) (16 * 1) u [0, 0x30, 0, 0, 0, 0, 0, 0, 5, 0, 0, 0, 0, 0, 0, 0])
    ∧ (∃ u, Rules.reads (queued .none id) 0 0x3000 8 u [0, 0, 0, 0, 0, 0, 0, 0])
    ∧ (∃ u, Rules.reads (queued .none fun ws => ws.set 0 0x05000000) 0 0x4000 4 u [0, 0, 0, 5]) :=
  ⟨rfl, by refine ⟨?_, ?_, ?_, ?_⟩ <;> exact reads_of (by decide +kernel)⟩
def readHead : Head := .prereq 1 [(0x3000, 5, true)]
theorem witness_PrereqReread : (queue0 (.prereq 1 [(0x3000, 5, false)])).taking = .prereq 1 [(0x3000, 5, false)] := rfl
/-- The record as it is read, for each of the outcomes. -/
def recordOf (f : List Word → List Word) : LRec := patchRecord (wordsAt (wordBytes (launchWords f)) 64) 1 [(0x3000, 5, true)]
theorem witness_RecordRead_reads : ∃ u, Rules.reads (queued readHead id) 0 0x4000 256 u (wordBytes (launchWords id)) :=
  reads_of (by decide +kernel)
theorem witness_RecordRead : (recordOf id).redtab = 0 ∧ (recordOf id).rdesc = 0 ∧ (recordOf id).bad1 = false ∧ (recordOf id).bad2 = false
    ∧ (recordOf id).bad5 = false ∧ (recordOf fun ws => ws.set 0 0x01000001).bad1 = true
    ∧ (recordOf fun ws => (ws.set 8 0x6000).set 10 0).bad1 = false ∧ (recordOf fun ws => (ws.set 8 0x6000).set 10 0).bad2 = true
    ∧ (recordOf fun ws => ws.set 0 0x81000000).bad5 = true := by decide +kernel
theorem witness_RecordRead_fits : (queued readHead id).bad4 (recordOf id) = false := by decide +kernel
theorem witness_RecordRead_too_big : (queued readHead id).bad4 (recordOf fun ws => (ws.set 1 1024).set 45 0x00010000) = true := by decide +kernel

def range0 : RedRange := { base := 0x8000, bytes := 128, op := .add, ty := .n32, log := 0x10000, logBytes := 16384 }
def launch0 : Launch := { id := 3, ctx := 0, queue := 0, record := launchWords id, table := [], accepted := 0 }
theorem witness_LaunchAcceptance :
    let s := queued (.read (launchWords id) [range0] none) id
    (queue0 (.read (launchWords id) [range0] none)).taking = .read (launchWords id) [range0] none
    ∧ (∀ l ∈ s.launches, l.table = [])
    ∧ ∃ l ∈ ({ s with launches := [{ launch0 with table := [{ range0 with base := 0x807F }] }] } : State).launches, l.ctx = 0
      ∧ ∃ a ∈ l.table, a.base < range0.base + range0.bytes ∧ range0.base < a.base + a.bytes := by decide +kernel

/-- Stage 2 on four dies with every pair joined, and one launch with a team still to place. -/
def serving (f : Launch → Launch) : State :=
  { mapped s0 with dies := 15, teams := [], groups := [], launches := [f launch0]
                   ucie := [(0, 1, [false, false, false, true])] }
def launchDet : Launch := { launch0 with record := (launchWords id).set 0 0x81000000 |>.set 5 0x00010001 }
theorem serves_one (l : Launch) (hp : l.allPlaced = false) (hl : ((serving fun _ => l).ctxAt l.ctx).live = true) :
    Rules.serves (serving fun _ => l) l :=
  ⟨rfl, by simp [serving], ⟨hp, hl⟩, [], [], rfl, by simp, by simp⟩
theorem witness_TeamPlacement : Rules.serves (serving id) launch0 ∧ (∀ m ∈ (serving id).launches, m.id = launch0.id → m = launch0)
    ∧ LRec.det launch0.record = false ∧ LRec.hasCont launch0.record = false
    ∧ ((serving id).unitFor [] (LRec.need launch0.record) (LRec.ext launch0.record)) = some [0]
    ∧ ({ serving id with die := [] } : State).unitFor [] (LRec.need launch0.record) (LRec.ext launch0.record) = none :=
  ⟨serves_one launch0 (by decide) (by decide +kernel), by simp [serving], by decide, by decide, by decide +kernel, by decide +kernel⟩
theorem witness_ClusterPlacement : Rules.serves (serving fun _ => launchDet) launchDet ∧ LRec.det launchDet.record = true
    ∧ LRec.hasCont launchDet.record = false
    ∧ ((serving fun _ => launchDet).placeAll launchDet [(0, 0, some 0)]).isSome = true
    ∧ ({ serving (fun _ => launchDet) with die := [] } : State).placeAll launchDet [(0, 0, some 0)] = none :=
  ⟨serves_one launchDet (by decide +kernel) (by decide +kernel), by decide, by decide, by decide +kernel, by decide +kernel⟩

/-- A launch whose one role has a continuation. -/
def launchCont : Launch := { launch0 with record := (launchWords id).set 42 0x10100 }
theorem witness_GridPlacement : Rules.serves (serving fun _ => launchCont) launchCont ∧ launchCont.placed = 0
    ∧ LRec.hasCont launchCont.record = true ∧ LRec.det launchCont.record = false
    ∧ ((serving fun _ => launchCont).placeAll launchCont ((List.range (LRec.teams launchCont.record)).map fun t => (t, 0, none))).isSome = true
    ∧ ({ serving (fun _ => launchCont) with die := [] } : State).placeAll launchCont [(0, 0, none)] = none :=
  ⟨serves_one launchCont (by decide +kernel) (by decide +kernel), rfl, by decide +kernel, by decide, by decide +kernel, by decide +kernel⟩
/-- A team whose lane 0 waits at the grid barrier, and whose other lanes have exited or wait too. -/
def gridTeam : Team := { loadedTeam [] with stream := none, roles := [{ loadedRole with cont := 0x10100 }] }
def meeting (st : LaneState) : State :=
  { s0 with teams := [gridTeam]
            groups := [{ grp0 with lanes := { Lane.start 0x10000 1024 with st := .heldWait, hold := .grid }
                                     :: List.replicate 31 { Lane.start 0x10000 1024 with st } }]
            launches := [{ launchCont with id := 0, placed := 1 }] }
theorem witness_GridBarrier : (meeting .exited).launch? 0 = some { launchCont with id := 0, placed := 1 }
    ∧ ({ launchCont with id := 0, placed := 1 } : Launch).allPlaced = true ∧ (meeting .exited).saves = []
    ∧ (∀ g ∈ (meeting .exited).groups, (∀ f ∈ g.flags, f = 0)
        ∧ ∀ x ∈ g.lanes, x.st = .exited ∨ x.st = .vacant ∨ (x.st = .heldWait ∧ x.hold = .grid))
    ∧ ((meeting .exited).teams.map (·.id)).Nodup
    ∧ ∃ g ∈ (meeting .ready).groups, ∃ x ∈ g.lanes, x.st ≠ .exited ∧ x.st ≠ .vacant ∧ x.st ≠ .heldWait := by decide +kernel

/-- What an instruction fetch answers. -/
def fetched (s : State) (n va : Nat) (ws : List Word) : Bool :=
  match s.fetchInstrs 0 0 n va with | .ok xs => xs == ws | .error _ => false
theorem fetch_of {s : State} {n va : Nat} {ws : List Word} (h : fetched s n va ws = true) : s.fetchInstrs 0 0 n va = .ok ws := by
  unfold fetched at h; split at h <;> simp_all
/-- A stream of one instruction that is being fetched from 0x20400. -/
def fetching : Stream := { entry := 0x20400, len := 1 }
def s6 : State :=
  let s := mapped { s0 with teams := [{ loadedTeam [] with stream := some fetching }] }
  { s with mem := Store.setAll s.mem 0x20400 (wordBytes (encode .mstop)) }
theorem witness_StreamBegins : s6.team? 0 = some { loadedTeam [] with stream := some fetching } ∧ fetching.st = .fetching
    ∧ fetching.waitOn = none ∧ (s6.ctxAt 0).saving = false ∧ ({ s6 with lines := s6.lines.filter fun l => l.core != 0 } : State).fetchInstrs 0 0 1 0x20400 = .ok (encode .mstop) :=
  ⟨rfl, rfl, rfl, by decide, fetch_of (by decide +kernel)⟩

/-- A group of which every lane has exited. -/
def gone : Group := { grp0 with lanes := List.replicate 32 { Lane.start 0x10000 1024 with st := .exited } }
def s7 : State := { s0 with groups := [gone] }
theorem witness_GroupLeaves : s7.group? 0 0 = some gone ∧ (∀ t ∈ gone.lanes, t.st = .exited ∨ t.st = .vacant) ∧ (∀ f ∈ gone.flags, f = 0)
    ∧ (∀ i ∈ s7.issues, i.core = 0 → i.slot ≠ 0) ∧ (∀ w ∈ s7.wells, w.1 = 0 → s7.keyCount 0 w.2 < 32) ∧ ∀ c ∈ s7.ctx, c.held = [] := by decide +kernel

/-- A team of which nothing is left, of a launch with both its kinds of end. -/
def ending (rec_ : List Word) (prog : Bool) : State :=
  { mapped s0 with groups := [], teams := [{ loadedTeam [] with stream := none, det := prog }]
                   launches := [{ launch0 with id := 0, placed := 1, record := rec_ }] }
def detWords : List Word := (launchWords id).set 0 0x81000000 |>.set 5 0x00010001 |>.set 36 0x5000
theorem witness_TeamEnds : (ending (launchWords id) false).team? 0 = some { loadedTeam [] with stream := none }
    ∧ ((ending (launchWords id) false).launch? 0).isSome = true ∧ (∀ g ∈ (ending (launchWords id) false).groups, g.team ≠ 0)
    ∧ (∀ w ∈ (ending (launchWords id) false).wells, w.2.team ≠ 0) ∧ (∀ w ∈ (ending (launchWords id) false).sumps, w.2.2.team ≠ 0)
    ∧ (∀ v ∈ (ending (launchWords id) false).saves, ∀ w ∈ v.tasks, w.2.team ≠ 0) ∧ (∀ c ∈ (ending (launchWords id) false).copies, c.team ≠ 0)
    ∧ ((ending (launchWords id) false).ctxAt 0).saving = false ∧ (loadedTeam []).det = false
    ∧ (ending detWords true).progress { loadedTeam [] with stream := none, det := true } { launch0 with id := 0, placed := 1, record := detWords } = ([0], 1)
    ∧ LRec.prog detWords = 0x5000 := by decide +kernel
/-- Whether an engine's store is performed. -/
def writes (s : State) (who va : Nat) (xs : List Byte) : Bool :=
  match s.engineWrite 0 who { core := engineCore } va xs { code := 9, die := s.physDie 0 } with | .ok _ => true | .error _ => false
theorem write_of {s : State} {who va : Nat} {xs : List Byte} (h : writes s who va xs = true) :
    ∃ t, s.engineWrite 0 who { core := engineCore } va xs { code := 9, die := s.physDie 0 } = .ok t := by
  unfold writes at h; split at h <;> simp_all
theorem witness_TeamEnds_progress : ∃ t, (ending detWords true).engineWrite 0 0 { core := engineCore } 0x5000 (leBytes 1 8)
    { code := 9, die := (ending detWords true).physDie 0 } = .ok t :=
  write_of (by decide +kernel)
def retiring (rec_ : List Word) : State := { mapped s0 with groups := [], teams := [], launches := [{ launch0 with placed := 1, record := rec_ }] }
theorem witness_Retirement : ((retiring (launchWords id)).launch? 3).isSome = true
    ∧ ({ launch0 with placed := 1 } : Launch).allPlaced = true ∧ (∀ t ∈ (retiring (launchWords id)).teams, t.launch ≠ 3)
    ∧ (∀ v ∈ (retiring (launchWords id)).saves, ∀ t ∈ v.teams, t.launch ≠ 3) ∧ launch0.table = [] ∧ launch0.render = none
    ∧ ((retiring (launchWords id)).ctxAt 0).saved = false ∧ LRec.compl (launchWords id) = 0
    ∧ LRec.compl ((launchWords id).set 16 0x6000) = 0x6000 := by decide +kernel
theorem witness_Retirement_write : ∃ t, (retiring ((launchWords id).set 16 0x6000)).engineWrite 0 3 { core := engineCore } (0x6000 % 2 ^ 64) (leBytes 0 8)
    { code := 9, die := (retiring ((launchWords id).set 16 0x6000)).physDie 0 } = .ok t :=
  write_of (by decide +kernel)

/-- Two contributions to one element, recorded out of order, one to the element beside it, and a byte that the host wrote. -/
def contribution (seq : Nat) (v : DWord) : Contribution := { key := (0, 0, seq), va := 0x8000, pa := 0x8000, range := 0, keep := true, value := v }
def besideIt : Contribution := { contribution 2 9 with va := 0x8004, pa := 0x8004 }
def s8 : State :=
  let s := retiring (launchWords id)
  { s with launches := [{ launch0 with placed := 1, table := [range0], hosted := [(0x8001, 7)]
                                       contrib := [contribution 1 5, besideIt, contribution 0 3] }] }
theorem witness_OrderedCommit : (s8.launch? 3).isSome = true ∧ (∀ la ∈ s8.launches, la.committed = false ∧ la.allPlaced = true ∧ la.table[0]? = some range0
      ∧ la.contrib = [contribution 1 5, besideIt, contribution 0 3]
      ∧ ∀ c ∈ la.contrib, ∀ x, la.table[c.range]? = some x → s8.ueIn (.dev c.pa) x.ty.bytes = none)
    ∧ (∀ t ∈ s8.teams, t.launch ≠ 3) ∧ (∀ v ∈ s8.saves, ∀ t ∈ v.teams, t.launch ≠ 3) ∧ Memory.wf s8.mem = true
    ∧ [contribution 0 3, contribution 1 5, besideIt].Perm [contribution 1 5, besideIt, contribution 0 3]
    ∧ [contribution 0 3, contribution 1 5, besideIt].Pairwise (fun a b => a.key.1 < b.key.1 ∨ a.key.1 = b.key.1 ∧ (a.key.2.1 < b.key.2.1 ∨
      a.key.2.1 = b.key.2.1 ∧ a.key.2.2 < b.key.2.2))
    ∧ (∀ c ∈ [contribution 1 5, besideIt, contribution 0 3], c.va = 0x8000 ∧ c.pa = 0x8000 ∧ c.range = 0
      ∨ c.pa + 4 ≤ 0x8000 ∨ 0x8000 + 4 ≤ c.pa) := by
  refine ⟨by decide +kernel, fun la hl => ?_, by decide +kernel⟩
  obtain rfl : la = _ := by simpa [s8] using hl
  refine ⟨rfl, by decide +kernel, rfl, rfl, fun c hc x hx => ?_⟩
  simp only [List.mem_cons, List.not_mem_nil, or_false] at hc
  rcases hc with rfl | rfl | rfl <;> obtain rfl : range0 = x := by simpa [contribution, besideIt] using hx
  all_goals decide +kernel

/-! Clauses and completions. -/

def isGo : Candidate → Bool | .go _ _ _ => true | _ => false
/-- A clause of one `nop` at 0x10000. -/
def s9 : State :=
  let s := mapped s0
  { s with mem := Store.setAll s.mem 0x10000 (wordBytes [0x000007FE, 0xFF, 0, 0]) }
theorem witness_ClauseIssues : s9.stage = .stage2 ∧ s9.coreOn 0 = true ∧ s9.issues = []
    ∧ s9.groups.filter (fun g => g.core == 0 && g.slot / 4 == 0) = [grp0] ∧ s9.mayIssue grp0 = true ∧ (s9.ctxAt 0).saving = false
    ∧ grp0.classHeads = 0 :: [] ∧ isGo (s9.candidate grp0 0) = true := by decide +kernel
def pend0 : Pend := { flag := 0, pc := 0, lanes := [0, 1], work := .none, writes := [(0, 8, 5)], fstat := 4 }
theorem witness_LongCompletion : ({ s0 with groups := [{ grp0 with flags := [1], pend := [pend0] }] } : State).group? 0 0
      = some { grp0 with flags := [1], pend := [pend0] } ∧ pend0.waitOn = none ∧ pend0.work = .none ∧ s0.rowsLeft 7 = false :=
  ⟨rfl, rfl, rfl, by decide +kernel⟩
/-- An issue of one lane that waits for the ray unit, with a word of its ray a NaN, and what the unit answers of it. -/
def nanRay : LaneOp := { lane := 0, addr := 0x8000, args := List.replicate 8 0x7FC00000#32, dst := 8 }
def tracing : Group := { grp0 with flags := [1], pend := [{ pend0 with work := .ray true false false [nanRay], writes := [] }] }
def traced (s : State) (g : Group) (op : LaneOp) : Bool :=
  match s.rayAll g 0 true false false [op] with | .ok x => x.1.group? 0 0 == some g && x.2.length == 8 | .error _ => false
theorem traced_of {s : State} {g : Group} {op : LaneOp} (h : traced s g op = true) :
    ∃ v ws, s.rayAll g 0 true false false [op] = .ok (v, ws) ∧ v.group? 0 0 = some g := by
  unfold traced at h; split at h
  · next x e => exact ⟨x.1, x.2, e, by simp at h; exact h.1⟩
  · simp at h
theorem witness_UnitCompletions : ({ s0 with groups := [tracing] } : State).group? 0 0 = some tracing
    ∧ (∀ o ∈ [nanRay], o.lane ∈ pend0.lanes)
    ∧ ∃ v ws, ({ s0 with groups := [tracing] } : State).rayAll tracing 0 true false false [nanRay] = .ok (v, ws) ∧ v.group? 0 0 = some tracing :=
  ⟨rfl, by decide, traced_of (by decide +kernel)⟩
/-- The same without the NaN: the ray's root is read where nothing is mapped. -/
def fails {α : Type} : Except (State × Option Nat) α → Bool | .error _ => true | .ok _ => false
theorem fails_of {α : Type} {r : Except (State × Option Nat) α} (h : fails r = true) : ∃ e, r = .error e := by cases r <;> simp_all [fails]
theorem witness_UnitCompletions_waits : ∃ e, ({ s0 with groups := [tracing] } : State).rayAll tracing 0 true false false
    [{ nanRay with args := List.replicate 8 0#32 }] = .error e := fails_of (by decide +kernel)
/-! What units answer. -/

/-- The lookup worked in file 11 after R322: a texture of 4 × 4 FP32 texels at 0x4000, texel (i, j) holding 8 i. -/
def textured : State :=
  let texels := (List.replicate 4 (wordBytes [0, 0x41000000, 0x41800000, 0x41C00000])).flatten
  let desc := wordBytes [0x4000, 0, 0x00030003, 0x510, 16, 0, 0, 0]
  { mapped s0 with mem := Store.setAll (Store.setAll (mapped s0).mem 0x2000 desc) 0x4000 texels }
def lookup : LaneOp := { lane := 0, addr := 0x2000, args := [0x3E99999A, 0x3F200000, 0], dst := 8 }
def reaches (s : State) (src : Source) (m : Mode) (va n : Nat) (plain : Bool) : Bool :=
  match s.engineCheck 0 0 src m va n plain with | .ok x => x.2.all fun r => r.1.isSome | .error _ => false
theorem reaches_of {s : State} {src : Source} {m : Mode} {va n : Nat} {plain : Bool} (h : reaches s src m va n plain = true) :
    ∃ u runs, s.engineCheck 0 0 src m va n plain = .ok (u, runs) := by
  unfold reaches at h; split at h
  · next x e => exact ⟨x.1, x.2, e⟩
  · simp at h
theorem witness_TextureResults : (∃ u runs, textured.engineCheck 0 0 (textured.laneSource 6 0 0 0 0) { kind := .read, core := 0 } 0x2000 32 true
      = .ok (u, runs))
    ∧ (∃ u runs, textured.engineCheck 0 0 (textured.laneSource 6 0 0 0 0) { kind := .read, tiled := true, core := 0 } 0x4020 4 true = .ok (u, runs))
    ∧ textured.launchOf grp0 = 0 :=
  ⟨reaches_of (by decide +kernel), reaches_of (by decide +kernel), by decide +kernel⟩
def answers (r : Except (State × Option Nat) (State × List Word)) (ws : List Word) : Bool := match r with | .ok x => x.2 == ws | .error _ => false
/-- R321, the words written out after R322. -/
theorem test_texf : answers (textured.texOne grp0 0 .f32 .lin 0 lookup) [0x40B33334, 0, 0, 0x3F800000] = true
    ∧ answers (textured.texOne grp0 0 .f16 .lin 0 lookup) [0x0000459A, 0x3C000000] = true := by decide +kernel

/-- A ray from (1/4, 1/4, −1) along z, a box around it, and a triangle across it with TRI 7. -/
def ray0 : Ray := ⟨(0x3E800000, 0x3E800000, 0xBF800000), (0, 0, 0x3F800000), .q 0 1⟩
def box0 : Child := ⟨0, .node 0, (0, 0, 0), (0x3F800000, 0x3F800000, 0x3F800000)⟩
def triangle0 : List Byte := wordBytes [0, 0, 0, 0x3F800000, 0, 0, 0, 0x3F800000, 0, 7, 0, 0]
theorem isBound_q (n : Int) (d : Nat) (h : 0 < d) : Rules.isBound (.q n d) := ⟨by simp, fun _ _ e => by cases e; exact h⟩
theorem isBound_inf (s : Bool) : Rules.isBound (.inf s) := ⟨by simp, fun _ _ e => by cases e⟩
theorem witness_BoxTests : Rules.isBound ray0.tmin ∧ Rules.isBound (.inf false) ∧ (∀ a < 3, Rules.single? (Rules.coord ray0.o a)
      ∧ Rules.single? (Rules.coord ray0.d a) ∧ Rules.single? (Rules.coord box0.lo a) ∧ Rules.single? (Rules.coord box0.hi a))
    ∧ (ray0.enters (.inf false) box0).isSome = true ∧ (ray0.enters (.q 1 2) box0).isSome = false := by
  refine ⟨isBound_q _ _ (by decide), isBound_inf _, ?_, by decide +kernel, by decide +kernel⟩
  unfold Rules.single? Rules.isFinite; decide +kernel
theorem witness_TriangleTests : triangle0.length = 48 ∧ (ray0.hits false false (.inf false) triangle0).isSome = true
    ∧ (ray0.hits false false (.q 1 1) triangle0).isSome = false := by decide +kernel
/-- R405, by hand: the ray meets the triangle at t = 1, b1 = b2 = 1/4; det = −1, so that CULLB culls it. -/
theorem test_triangle : (ray0.hits false true (.inf false) triangle0).map (fun h => (h.t32, h.b1, h.b2, h.back, h.tri))
      = some (0x3F800000, 0x3E800000, 0x3E800000, true, 7) ∧ (ray0.hits true false (.inf false) triangle0).isSome = false := by decide +kernel
/-- A node at the origin with scale 1: slot 0 holds one triangle at 0x9000 in a unit box, slot 7 an instance at 0x9000 + 64. -/
def node0 : List Byte :=
  wordBytes [0, 0, 0, 0x007F7F7F, 0, 0, 0x9000, 0] ++ [0x80, 0, 0, 0, 0, 0, 0, 0xC0] ++ [0, 0, 0, 1, 1, 1] ++ List.replicate 36 0
    ++ [0, 0, 0, 1, 1, 1] ++ List.replicate 14 0 ++ [1, 0] ++ List.replicate 24 0
theorem witness_NodeChildren : node0.length = 128 ∧ (childrenOf node0).map (fun x => (x.slot, x.kid))
      = [(0, .triangles 0x9000 1), (7, .instance_ 0x9040)] ∧ (childrenOf (0x80 :: node0.drop 1)).length = 2
    ∧ (childrenOf (node0.take 127 ++ [1])).length = 0 := by decide +kernel
/-- A traversal that has popped nothing yet, and one of an instance. -/
def item0 (kid : Kid) : RayItem := { kid, ray := ray0, level := 0, entry := .q 0 1 }
def query0 : Query := { read := fun s _ n => .ok (s, (node0 ++ node0).take n), any := false, cullB := false, cullF := false, root := item0 (.node 0) }
def trav0 (kid : Kid) : Trav := { s := State.reset, tc := .inf false, stack := [item0 kid] }
theorem witness_TraversalSteps : Rules.isBound (item0 (.node 0)).entry ∧ (trav0 (.node 0)).lost = false
    ∧ query0.read State.reset 0 128 = .ok (State.reset, node0) ∧ query0.read State.reset 0x9040 64 = .ok (State.reset, node0.take 64)
    ∧ ((childrenOf node0).filterMap fun c => (ray0.enters (.inf false) c).map fun _ => c.slot) = [0, 7] :=
  ⟨isBound_q _ _ (by decide), rfl, by rfl, by rfl, by decide +kernel⟩
/-- A hierarchy that is a root of no children, read as zeros. -/
def empty0 : Query := { query0 with read := fun s _ n => .ok (s, List.replicate n 0) }
def goes (k : Query) (tr : Trav) : Bool := match k.go (2 ^ 210) tr with | .ok u => u.best.isNone | .error _ => false
theorem goes_of {k : Query} {tr : Trav} (h : goes k tr = true) : ∃ u, k.go (2 ^ 210) tr = .ok u ∧ u.best.isNone = true := by
  unfold goes at h; split at h
  · next u e => exact ⟨u, e, h⟩
  · simp at h
theorem witness_RayRecords : ∃ u, empty0.go (2 ^ 210) (trav0 (.node 0)) = .ok u ∧ u.best.isNone = true := goes_of (by decide +kernel)
theorem witness_RayRecords_rays : (List.replicate 8 0x7FC00000#32).length = 8 ∧ 0x7F800000 < 0x7FC00000 % 2 ^ 31
    ∧ Ext.of32 0 = .q 0 (2 ^ 149) ∧ Ext.of32 0x7F800000 = .inf false := by decide +kernel
/-- A traversal of `node0` whose triangle item holds the bytes of `triangle0` and whose instance names no root: the triangle is hit. -/
def scene (s : State) (a n : Nat) : Except (State × Option Nat) (State × List Byte) :=
  .ok (s, if a = 0 then node0 else if a = 0x9000 then triangle0 else (List.replicate 48 0 ++ [1]) ++ List.replicate (n - 49) 0)
theorem test_trace : answers (Query.trace scene false false false State.reset [0x3E800000, 0x3E800000, 0xBF800000, 0, 0, 0, 0x3F800000, 0x7F800000] 0)
    [0x3F800000, 7, 0xFFFFFFFF, 0x3E800000, 0x3E800000, 3, 0, 0] = true := by decide +kernel

/-- A call for one row of one chunk of a matrix at 0x8000 and one vector at 0x3000, all of zeros; its descriptor at 0x2000. -/
def calling : State := { mapped s0 with mem := Store.setAll (mapped s0).mem 0x2000 (wordBytes [0x8000, 0, 1, 1, 128, 0, 0, 0]) }
def caller0 : Caller := ⟨grp0, calling.laneSource 8 0 0 0 0⟩
def findsAll (k : Caller) (mem : Nat → Byte) : List (Nat × Nat) → State → Bool
  | [], _ => true
  | (a, n) :: rest, s => match k.read s a n with
    | .ok x => x.2 == (List.range n).map (fun i => mem (a + i)) && findsAll k mem rest x.1
    | .error _ => false
theorem finds_of {k : Caller} {mem : Nat → Byte} : ∀ {l : List (Nat × Nat)} {s : State}, findsAll k mem l s = true → ∃ u, Rules.finds k mem l s u
  | [], s, _ => ⟨s, rfl⟩
  | (a, n) :: rest, s, h => by
    unfold findsAll at h; split at h
    · next x e =>
      simp only [Bool.and_eq_true, beq_iff_eq] at h
      obtain ⟨u, hu⟩ := finds_of h.2
      exact ⟨u, x.1, by rw [e, ← h.1], hu⟩
    · simp at h
theorem witness_CallResults : (∃ u, Rules.finds caller0 (fun a => Store.get calling.mem a) [(0x2000, 32), (0x3000, 128), (0x8000, 128)] calling u)
    ∧ (∃ e, caller0.read calling 0x80000000000 128 = .error e)
    ∧ (Rules.Matrix.of (wordBytes [0x8000, 0, 1, 1, 128, 0, 0, 0])).base = 0x8000
    ∧ calling.sluice grp0 .auto 1 (MvxDesc.ofBytes (wordBytes [0x8000, 0, 1, 1, 128, 0, 0, 0])) = false :=
  ⟨finds_of (by decide +kernel), fails_of (by decide +kernel), by decide +kernel, by decide +kernel⟩
theorem witness_CallResults_scales : Rules.isFinite FTy.f32.fmt 0x40000000 ∧ Rules.number FTy.f32.fmt 0 = 0
    ∧ scaleRow 0x40000000 0xC0000000 = 0xC0800000 := by
  refine ⟨by unfold Rules.isFinite; decide +kernel, ?_, by decide +kernel⟩
  simp [Rules.number, Rules.magnitude]
def walks (s : State) (va : Nat) : Bool := match s.walkCtx 0 0 va with | .ok _ => true | .error _ => false
theorem walk_of {s : State} {va : Nat} (h : walks s va = true) : ∃ l es, s.walkCtx 0 0 va = .ok (l, es) := by
  unfold walks at h; split at h
  · next x e => exact ⟨x.1, x.2, e⟩
  · simp at h
theorem witness_PageWalks : (mapped s0).stage = .stage2 ∧ ((mapped s0).ctxAt 0).en = true ∧ (mapped s0).misses = []
    ∧ ∃ l es, (mapped s0).walkCtx 0 0 0x3FFFF000 = .ok (l, es) := ⟨rfl, by decide, rfl, walk_of (by decide +kernel)⟩
/-- Walks of core 191: its last one in a slot, and another that waits for one. -/
def lined : State := { mapped s0 with misses := [⟨191, 0, 5, .walking, [(0, 31)]⟩, ⟨191, 0, 0x3FFFF, .queued, []⟩] }
theorem witness_WalkSlots : (lined.allot 3 64).misses = [⟨191, 0, 5, .walking, [(0, 31)]⟩, ⟨191, 0, 0x3FFFF, .walking, []⟩]
    ∧ (lined.allot 2 64).misses = lined.misses ∧ (∀ l es, lined.walkCtx 0 3 0x3FFFF000 = .ok (l, es) → l.entry[10] = false)
    ∧ (lined.misses.filter fun m => m.core / 48 == 3 && m.stage == .walking).length ≤ 64 := by
  refine ⟨by decide +kernel, by decide +kernel, fun l es h => ?_, by decide +kernel⟩
  have e : (match lined.walkCtx 0 3 0x3FFFF000 with | .ok x => !x.1.entry[10] | .error _ => true) = true := by decide +kernel
  rw [h] at e; simpa using e

/-! Tasks, sumps, home slices. -/

def old0 : Task := { task0 with role := 1, since := 0 }
/-- One record that has stood for 256 cycles, and a free slot of its role. -/
def s10 : State := { s0 with groups := [], teams := [tmT], wells := [(0, old0)], cores := [(0, { clk := 256 })] }
theorem witness_TaskGroups : s10.wells = [] ++ (0, old0) :: [] ∧ s10.team? old0.team = some tmT ∧ tmT.roles[old0.role]? = some taskRole
    ∧ (s10.coreAt 0).clk.toNat = 256 ∧ (s10.ctxAt tmT.ctx).saving = false ∧ s10.freeIndex tmT 1 0 = some (0, 8, 1) := by decide +kernel
/-- 32 records of one key, none of which has stood for 256 cycles. -/
def s10full : State := { s10 with wells := List.replicate 32 (0, { old0 with since := 256 }) }
theorem witness_TaskGroups_full : 32 ≤ (s10full.wells.filter fun v => v.1 == 0 && v.2.role == 1).length
    ∧ ¬ ({ old0 with since := 256 } : Task).since + 256 ≤ (s10full.coreAt 0).clk.toNat := by decide +kernel
/-- One record in a sump of 32 at 0x8000. -/
def s11 : State :=
  mapped { s0 with teams := [tmT], sumps := [(0, 31, old0)]
                   ctx := updAt s0.ctx 0 fun c => { c with sumpBase := 0x8000, sumpCtl := 5, shead := 0, stail := 31 } }
theorem witness_SumpDrains : 0 < s11.ctx.length ∧ (s11.ctxAt 0).live = true ∧ (s11.ctxAt 0).shead ≠ (s11.ctxAt 0).stail
    ∧ 5 ≤ (s11.ctxAt 0).sumpN ∧ (s11.ctxAt 0).sumpWait = none
    ∧ s11.sumps.find? (fun w => w.1 == 0 && w.2.1 == 31) = some (0, 31, old0) ∧ s11.team? 0 = some tmT ∧ s11.wellRoom 0 0 = true := by decide +kernel
/-- Whether an engine reads bytes. -/
def readable (s : State) (m : Mode) (va len : Nat) (src : Source) : Bool :=
  match s.engineRead 0 m va len src with | .ok _ => true | .error _ => false
theorem readable_of {s : State} {m : Mode} {va len : Nat} {src : Source} (h : readable s m va len src = true) :
    ∃ xs, s.engineRead 0 m va len src = .ok xs := by unfold readable at h; split at h <;> simp_all
theorem witness_SumpDrains_read : ∃ xs, s11.engineRead 0 { core := engineCore } (0x8000 + 128 * 31) 128 { code := 7, die := s11.physDie 0 } = .ok xs :=
  readable_of (by decide +kernel)
theorem witness_HomeSlices : s0.stage = .stage2 ∧ 0xFFFFFF < s0.memBytes ∧ (0xFFFFF0 % 128 + 16 ≤ 128)
    ∧ ¬(0xFFFFF8 % 128 + 16 ≤ 128) ∧ AOp.takes .cas .n64 = true ∧ 0xFFFFF8 % ATy.bytes .n64 = 0 := by decide +kernel
/-- Three bytes of a word held back by two threads of a group, two of them of one address, and one of a window. -/
def held (l addr : Nat) (x : Byte) (team : Option Nat := none) : HeldByte :=
  { core := 0, slot := 0, lane := l, ctx := 0, team, port := none, addr, byte := x, keep := true, first := false }
def holdingBack : State := { mapped s0 with stores := [held 0 0x5000 1, held 1 0x5000 2, held 0 0x5007 3, held 0 0x40 4 (some 0)] }
theorem witness_StoresPerformed : (holdingBack.heldWords 0 0)[0]? = some (0, 0xA00) ∧ (holdingBack.heldWords 0 0)[1]? = some (2, 8)
    ∧ holdingBack.ue = [] ∧ holdingBack.sysUe = [] ∧ holdingBack.team? 0 = some (loadedTeam [])
    ∧ (∀ x ∈ holdingBack.teams, x.id = 0 → x = loadedTeam [])
    ∧ ((holdingBack.otherAct (.performStores 0 0 1)).team? 0).isSome = true := by decide +kernel
theorem witness_NoSuchMemory : s0.stage = .stage2 ∧ s0.memBytes ≤ s0.memBytes := by decide +kernel
theorem witness_ErrorOnWriteback : (mapped s0).stage = .stage2 ∧ 0x3FFFFFFF < (mapped s0).memBytes ∧ (mapped s0).ctx.length = 64
    ∧ ((mapped s0).ctxAt 0).en = true ∧ 0x3FFFFFFF < (winBase ((mapped s0).partWin.getD 0 0) + winSize ((mapped s0).partWin.getD 0 0)) * 2 ^ 30
    ∧ ((mapped s0).ctxAt 63).en = false := by decide +kernel

/-! Control cores. -/

def pending0 : State := { c0 with cores := [(0, { ctlPending := true })] }
theorem witness_Idles : pending0.cur.who = .control ∧ (pending0.coreAt 0).ctlPending = true ∧ (c0.coreAt 0).ctlPending = false := by decide +kernel
/-- What a control core cannot perform. -/
def rejects (s : State) (core : Nat) : Bool := match decodeFor .system (s.ctlWords core) with | .ok _ => false | .error _ => true
theorem rejects_of {s : State} {core : Nat} (h : rejects s core = true) : ∃ e, decodeFor .system (s.ctlWords core) = .error e := by
  unfold rejects at h; split at h <;> simp_all
/-- A control core before the word of a `texf`. -/
def halting : State := { s0 with code := Store.setAll [] 0 (wordBytes (encode (.texf .f32 .lin 0 8 (.v 0) (.v 4) 0))) }
theorem witness_ControlCoreHalts : halting.ctlRuns 0 = true ∧ (∃ e, decodeFor .system (halting.ctlWords 0) = .error e)
    ∧ halting.physDie (0 / 48) < halting.die.length ∧ (∃ g ∈ halting.groups, g.core = 0 ∧ g.ctx = 0) ∧ 0 < halting.ctx.length
    ∧ (halting.ctxAt 0).faulted = false :=
  ⟨by decide +kernel, rejects_of (by decide +kernel), by decide +kernel, ⟨grp0, List.mem_singleton.2 rfl, rfl, rfl⟩, by decide +kernel⟩
/-- A context of which only a wellhead record stands on the core. -/
theorem witness_ControlCoreHalts_record : ∃ w ∈ ({ halting with groups := [], wells := [(0, task0)] } : State).wells, w.1 = 0
    ∧ ({ halting with groups := [], wells := [(0, task0)] } : State).team? w.2.team = some (loadedTeam []) ∧ (loadedTeam []).ctx = 0
    ∧ (loadedTeam []).stream.isSome = true :=
  ⟨_, List.mem_singleton.2 rfl, rfl, rfl, rfl, rfl⟩

theorem witness_ControlCoreHalts_misaligned : ({ halting with cores := [(0, { ctlPc := 2 })] } : State).ctlRuns 0 = true
    ∧ (({ halting with cores := [(0, { ctlPc := 2 })] } : State).coreAt 0).ctlPc.toNat % 4 ≠ 0 := by decide +kernel

/-! Start, power, clock and temperature. -/

def primed : State := { State.reset with powered := true }
def goodDie : DieReport := { linkOk := true, channels := List.replicate 12 ⟨true, false, 0⟩ }
def badDie : DieReport := { linkOk := true, channels := List.replicate 12 ⟨false, false, 0⟩ }
theorem witness_StagedStart : State.reset.powered = false ∧ primed.powered = true ∧ primed.stage = .priming ∧ primed.err = 0
    ∧ [goodDie, goodDie, goodDie, goodDie].length = primed.part.form.dies ∧ primed.die.length = 4
    ∧ Rules.trained goodDie = true ∧ Rules.trained badDie = false ∧ primed.part.form ≠ .bareDie := by decide +kernel
def stage1 (memok : Nat → Bool) : State :=
  { primed with stage := .stage1, die := (List.range 4).map fun d => { en := BitVec.allOnes 48, memok := memok d, linkok := true } }
theorem witness_StagedStart_entry : (∀ d, d < (stage1 fun _ => true).part.form.dies → ((stage1 fun _ => true).dieAt d).memok = true
      ∧ ((stage1 fun _ => true).dieAt d).linkok = true)
    ∧ (stage1 (· == 0)).err = 0 ∧ ((stage1 (· == 0)).dieAt 0).memok = true ∧ ((stage1 (· == 0)).dieAt 1).memok = false
    ∧ ((stage1 (· == 2)).dieAt 0).memok = false ∧ ((stage1 (· == 2)).dieAt 2).memok = true := by decide +kernel
/-- Stage 2 with a clock that the governor holds down, one interval before it may rise. -/
def quieted : State := { s0 with quiet := { s0.quiet with act := 0x80321400, g := 40, low := 199 } }
theorem witness_Governor : quieted.stage = .stage2 ∧ quieted.quiet.act.getLsbD 31 = true
    ∧ 10 * Nat.max 1 (quieted.quiet.act.toNat / 2 ^ 8 % 2 ^ 8) ≤ quieted.quiet.low + 1
    ∧ 1549 + quieted.quiet.act.toNat / 2 ^ 16 % 2 ^ 8 < Nat.max 100 (Nat.min quieted.part.form.wattLimit (quieted.quiet.pwrCap.toNat % 2 ^ 11))
    ∧ ¬(1550 + quieted.quiet.act.toNat / 2 ^ 16 % 2 ^ 8 < Nat.max 100 (Nat.min quieted.part.form.wattLimit (quieted.quiet.pwrCap.toNat % 2 ^ 11)))
    ∧ (stage1 fun _ => true).stage = .stage1 ∧ State.reset.stage ≠ .stage2 := by decide +kernel
theorem witness_Thermal : s0.powered = true ∧ s0.stage ≠ .halted ∧ s0.die.length = 4 ∧ s0.ctx.length = 64 ∧ s0.part.form.dies = 4
    ∧ (∃ d, d < 4 ∧ 120 ≤ (([[30], [120, 1], [0], []] : List (List Nat)).getD d []).foldl Nat.max 0)
    ∧ (∀ d, d < 4 → (([[30], [119, 1], [104], []] : List (List Nat)).getD d []).foldl Nat.max 0 < 120)
    ∧ (∃ d, d < 4 ∧ 105 ≤ (([[30], [105, 1], [104], []] : List (List Nat)).getD d []).foldl Nat.max 0)
    ∧ (∀ d, d < 4 → (([[95], [104, 1], [0], []] : List (List Nat)).getD d []).foldl Nat.max 0 < 105)
    ∧ ({ s0 with therm := true, quiet := { s0.quiet with cool := 100 } } : State).quiet.cool = 100 ∧ ({ mapped s0 with therm := true, stage := .halted } : State).memMib ≠ 0 := by decide +kernel
/-- Dies 0 and 1 joined by the modules given. -/
def joined (ms : List Bool) : State := { s0 with ucie := [(0, 1, ms)] }
theorem witness_DieLinks : (joined [true, false, false, true]).ucie = [] ++ (0, 1, [true, false, false, true]) :: []
    ∧ [true, false, false, true][0]? = some true ∧ (∃ j, j ≠ 0 ∧ [true, false, false, true][j]? = some true)
    ∧ [false, false, false, true][3]? = some true ∧ (∀ j, j < 4 → j ≠ 3 → [false, false, false, true][j]? ≠ some true)
    ∧ s0.ctx.length = 64 ∧ s0.stage = .stage2 ∧ (s0.ctxAt 0).en = true ∧ (s0.ctxAt 0).faulted = false :=
  ⟨rfl, rfl, ⟨3, by decide, rfl⟩, rfl, by decide, by decide +kernel, rfl, by decide +kernel, by decide +kernel⟩

/-! Host ports. -/

/-- Function 0 of port B reaches slot 0 alone. -/
def withVf : State := { s0 with vfmap := State.reset.vfmap.set 0 0x80000000000000000000000000000001#128 }
theorem witness_PortEvents : withVf.powered = true ∧ withVf.ports.length = 2 ∧ withVf.part.form ≠ .bareDie ∧ withVf.ctx.length = 64
    ∧ 0 ∈ withVf.vfSlots 0 ∧ 63 ∉ withVf.vfSlots 0 := by decide +kernel
theorem witness_AddressServices : (0, 7) ∈ ({ s0 with pri := [(0, 7)] } : State).pri
    ∧ (⟨0, 0, 7, none⟩ : AtsEntry) ∈ ({ s0 with atc := [⟨0, 0, 7, none⟩] } : State).atc ∧ (s0.ctxAt 0).port = 0
    ∧ (∃ b ∈ ({ s0 with stores := [{ held 0 0x5000 1 with port := some 0 }] } : State).stores, b.team = none ∧ b.port = some 0)
    ∧ (3, 0, 7) ∈ ({ s0 with ats := [(3, 0, 7)] } : State).ats ∧ (0, 7) ∉ ({ s0 with ats := [(3, 0, 7)] } : State).pri := by decide +kernel
/-- Slot 0 with its window open at 0x20000, through the map of `mapped` whose leaf has the byte `b1`. -/
def windowed (b1 : Byte) : State :=
  { mapped (ctx0 fun c => { c with apvbase := 0x20001 }) with mem := [(0, 3), (2, 2), (0x20000, 0x39), (0x20001, b1)] }
theorem witness_ApertureRequests : Rules.served (windowed 1) .a .pf 0 ∧ 0 < (windowed 1).ctx.length
    ∧ Rules.windowVa (windowed 1) 0 0xFFC 0x20FFC ∧ ((windowed 1).apPage 0 .a .read 0x20FFC).isSome = true
    ∧ ((windowed 1).apPage 0 .a .write 0x20FFC).isSome = true ∧ 0x20FFC % 4096 + 4 ≤ 4096 ∧ (s0.ctxAt 0).apvbase.getLsbD 0 = false := by
  unfold Rules.served Rules.windowVa; decide +kernel
/-- A table entry that the walk reads holds an uncorrectable error. -/
def badTable : State := { windowed 1 with ue := [0x20000], tlb := [] }
theorem witness_ApertureRequests_error : badTable.apPage 0 .a .write 0x20FFC = none
    ∧ (match badTable.leafAt 0 { kind := .write, bank := true, core := engineCore, port := some 0 } 0x20FFC with
      | .error e => e.ue.isSome | .ok _ => false) = true := by decide +kernel
/-- A range that no entry maps. -/
theorem witness_ApertureRequests_refused : ({ windowed 1 with mem := [] } : State).apPage 0 .a .write 0x20000 = none := by decide +kernel
theorem witness_HostAtomics : (match (windowed 1).apPage 0 .a .atomic 0x20FF8 with
      | some (l, a) => !pteBanked l.entry && pteSysAtom l.entry && ((windowed 1).ueIn (.dev a) 8).isNone | none => false) = true
    ∧ 0xFF8 % 8 = 0 ∧ 0xFF0 + 16 ≤ 2 ^ 32 := by decide +kernel
theorem witness_HostAtomics_refused : Rules.served s0 .a .pf 0 ∧ (s0.ctxAt 0).apvbase.getLsbD 0 = false
    ∧ ({ s0 with single := true, dies := 1 } : State).arrives .b = true ∧ ({ s0 with single := true, dies := 1 } : State).apServes .b = false := by
  unfold Rules.served; decide +kernel

/-! Registers. -/

/-- A write of 32 bits by port A's physical function. -/
def wr32 (x : Nat) : Wr := ⟨.port .a, BitVec.ofNat 64 x, 0x0F⟩
theorem witness_merges : Rules.merges (wr32 0x80C12345) 0 0 0x80F0FFFF 0 0x80C02345
    ∧ Rules.merges ⟨.port .a, 0xAB00, 0x02⟩ 0 0 0xFFFF 0x1234 0xAB34
    ∧ Rules.merges ⟨.port .a, 0xFF, 0x01⟩ 7 0 (2 ^ 64 - 1) 0 0xFF00000000000000 := by unfold Rules.merges; decide +kernel
theorem witness_RegisterWrites : s0.reach (.port .a) .bar0 0x24 = none ∧ s0.reach (.vf .a 0) .bar2 0 = none
    ∧ s0.reach (.port .a) .bar0 4 = some (.devStage, 4) ∧ s0.reach (.port .a) .bar0 8 = some (.devStatus, 8)
    ∧ s0.reach (.port .a) .bar2 0x3F200 = some (.apVbase 63, 0x3F200) ∧ s0.reach (.port .a) .bar2 0x40000 = none
    ∧ s0.answers (.port .a) (.apVbase 63) = true ∧ (Rules.holder s0 (.port .a) (.apVbase 63)).isSome = true
    ∧ Rules.merges (wr32 0x20001) 0 0 (2 ^ 52 - 2 ^ 16 + 1) 0 0x20001 ∧ Rules.sets (wr32 0x20000000) 29 ∧ ¬ Rules.sets (wr32 0x20000000) 28 := by
  unfold Rules.merges Rules.sets; decide +kernel
/-- A write of 8 bytes over two registers of BAR0. -/
theorem witness_WideWrites :
    (∀ j k, j < 4 → 4 ≤ k → k < 8 → s0.reach (.port .a) .bar0 (4 + j) = none ∨ s0.reach (.port .a) .bar0 (4 + j) ≠ s0.reach (.port .a) .bar0 (4 + k))
    ∧ s0.reach (.port .a) .bar0 4 ≠ none ∧ s0.reach (.port .a) .bar0 8 ≠ none := by
  refine ⟨fun j k hj hk hk' => ?_, by decide +kernel, by decide +kernel⟩
  have hj : j = 0 ∨ j = 1 ∨ j = 2 ∨ j = 3 := by omega
  have hk : k = 4 ∨ k = 5 ∨ k = 6 ∨ k = 7 := by omega
  rcases hj with rfl | rfl | rfl | rfl <;> rcases hk with rfl | rfl | rfl | rfl <;> decide +kernel
def rec0 : TrapRec := { cause := .brk, detail := 1, die := 0, core := 0, group := 0, lane := 0, aux := 0 }
/-- Core 0's debug window shows lane 31 of its group, from slot 256 on. -/
def shown : State := { s0 with cores := [(0, { dwinSlot := some 0, dwinLane := 31, dwinBase := 1 })] }
theorem witness_DebugReads : shown.single = false ∧ shown.answers (.port .a) (.dwin 0 0xC14) = true ∧ shown.group? 0 0 = some grp0
    ∧ (shown.coreAt 0).dwinSlot = some grp0.slot ∧ Rules.shows (shown.coreAt 0) grp0 (grp0.lane 31) 0xC14 1024 ∧ (s0.coreAt 0).dwinSlot = none
    ∧ shown.answers (.port .a) (.dwin 0 0x1800) = true ∧ ({ grp0 with trap := some rec0 } : Group).trap = some rec0 :=
  ⟨by decide +kernel, by decide +kernel, rfl, rfl, .inr (.inr (.inl ⟨rfl, rfl⟩)), rfl, by decide +kernel, rfl⟩
theorem witness_DebugWrites : shown.answers (.port .a) (.dwin 0 0x800) = true ∧ (wr32 9).en ≠ 0#8 ∧ (wr32 9).by_ = .port .a
    ∧ (∀ h ∈ shown.groups, h.core = 0 → h.slot = grp0.slot → h = grp0) ∧ (grp0.lane 31).st ≠ .exited ∧ (grp0.lane 31).st ≠ .vacant
    ∧ 256 * 1 + (0x800 - 0x800) / 4 < (grp0.lane 31).wb + (grp0.lane 31).f ∧ (grp0.lane 31).wb + (grp0.lane 31).f ≤ 256 * 4
    ∧ Rules.merges (wr32 9) 0x400800 0x400800 (2 ^ 32 - 1) ((grp0.lane 31).slots.get 256).toNat 9 ∧ grp0.tpart < 2 ^ 32 := by
  unfold Rules.merges; decide +kernel
theorem witness_Semaphore : s0.answers (.port .a) .mgmtSem = true ∧ Rules.sets (wr32 1) 0 ∧ ¬ Rules.sets ⟨.port .a, 1, 0x02⟩ 0
    ∧ ({ s0 with mgmt := .port .a } : State).mgmt = .port .a ∧ s0.mgmt = .free := by unfold Rules.sets; decide +kernel
/-- Slot 63 disabled, while slot 0 holds ASID 0 of partition 0. -/
theorem witness_ContextControl : s0.answers (.port .a) (.ctrl 63) = true ∧ 63 < s0.ctx.length ∧ (s0.ctxAt 63).en = false ∧ (s0.ctxAt 0).en = true
    ∧ Rules.merges (wr32 0x80000000) 0 0 0x80F0FFFF 0 0x80000000 ∧ Rules.merges (wr32 0x80000001) 0 0 0x80F0FFFF 0 0x80000001
    ∧ (∃ d ∈ s0.ctx, d.en = true ∧ d.asid = 0x80000000 % 2 ^ 16 ∧ d.part = 0x80000000 / 2 ^ 22 % 4)
    ∧ ¬(∃ d ∈ s0.ctx, d.en = true ∧ d.asid = 0x80000001 % 2 ^ 16 ∧ d.part = 0x80000001 / 2 ^ 22 % 4)
    ∧ s0.portServes .b = true ∧ ({ s0 with single := true, dies := 1 } : State).portServes .b = false
    ∧ (s0.ctxAt 63).rfmtab.toNat % 32 = 0 := by unfold Rules.merges; decide +kernel
/-- Whether an engine reads bytes of ordinary pages at a virtual address. -/
def plainRead (s : State) (va len : Nat) : Bool :=
  match s.readVa 0 { core := engineCore } va len with | .ok _ rs => rs.all fun r => !pteBanked r.2.2.entry | _ => false
theorem plainRead_of {s : State} {va len : Nat} (h : plainRead s va len = true) :
    ∃ xs rs, s.readVa 0 { core := engineCore } va len = .ok xs rs ∧ ∀ r ∈ rs, pteBanked r.2.2.entry = false := by
  unfold plainRead at h; split at h
  · next e => exact ⟨_, _, e, by simpa using h⟩
  · simp at h
theorem witness_RegionTables : (mapped s0).answers (.port .a) (.rfmtab 0) = true ∧ 0 < (mapped s0).ctx.length
    ∧ Rules.merges (wr32 0x30001) 0 0 (2 ^ 52 - 1) 0 0x30001 ∧ ((mapped s0).ctxAt 0).en = true ∧ ((mapped s0).ctxAt 1).en = false := by
  unfold Rules.merges; decide +kernel
theorem witness_RegionTables_read : ∃ xs rs, ((mapped s0).updCtx 0 fun c => { c with rfmtab := BitVec.ofNat 64 0x30001 }).readVa 0 { core := engineCore }
    (0x30001 / 2 ^ 5 % 2 ^ 47 * 2 ^ 5 + 32 * 0) 32 = .ok xs rs ∧ ∀ r ∈ rs, pteBanked r.2.2.entry = false := plainRead_of (by decide +kernel)
/-- A disabled context. -/
theorem witness_RegionTables_disabled : (mapped s0).answers (.port .a) (.rfmtab 1) = true ∧ 1 < (mapped s0).ctx.length
    ∧ ((mapped s0).ctxAt 1).en = false ∧ 0x30001 % 32 = 1 := by decide +kernel
def owned : State := { s0 with mgmt := .port .a }
theorem witness_Partitions : owned.partWin.length = 4 ∧ owned.answers (.port .a) (.partWin 1) = true ∧ owned.vfmap.length = 16
    ∧ Rules.merges (wr32 0x00010001) 0 0 0x01FF01FF (owned.partWin.getD 1 0).toNat 0x00010001
    ∧ ¬(owned.mgmt ≠ .port .a ∨ owned.memBytes / 2 ^ 30 < 1 + 1 ∨ (∃ c ∈ owned.ctx, c.en = true ∧ c.part = 1)
      ∨ ∃ j, j < 4 ∧ j ≠ 1 ∧ (owned.partWin.getD j 0).toNat / 2 ^ 16 % 2 ^ 9 ≠ 0)
    ∧ (∃ c ∈ owned.ctx, c.en = true ∧ c.part = 0)
    ∧ owned.answers (.port .a) (.vfMap 15 1) = true ∧ (owned.vfmap.getD 15 0).toNat = 0
    ∧ Rules.merges ⟨.port .a, 0x8000000000000000, 0xF0⟩ 0 0 0x8000000300000000 0 0x8000000000000000 := by
  unfold Rules.merges; decide +kernel
theorem witness_Invalidations : s0.answers (.port .a) .invCtl = true ∧ s0.ports.length = 2 ∧ Rules.merges (wr32 0x90000000) 0 0 0x3FEFFFFF 0 0x10000000
    ∧ Rules.sets (wr32 0x90000000) 31 ∧ (s0.portAt .a).busy = false ∧ 0x10000000 / 2 ^ 28 % 4 ≠ 3 ∧ 0x30000000 / 2 ^ 28 % 4 = 3
    ∧ ¬ Rules.sets (wr32 0x10000000) 31 := by unfold Rules.merges Rules.sets; decide +kernel
theorem witness_ChannelCounts : s0.answers (.port .a) (.chctl 47) = true ∧ 47 / 12 < s0.part.form.dies ∧ s0.single = false
    ∧ Rules.sets (wr32 0x80000000) 31 ∧ ¬ Rules.sets (wr32 0x80000000) 30 ∧ Rules.sets (wr32 0x40000000) 30 := by
  unfold Rules.sets; decide +kernel

/-! Traps held, replays, queues. -/

def heldOne : State := ctx0 fun c => { c with held := [⟨0, 0, 0x10018, rec0⟩, ⟨0, 1, 0x10018, rec0⟩] }
theorem witness_HeldTraps : heldOne.answers (.port .a) (.trapcmd 0) = true ∧ 0 < heldOne.ctx.length
    ∧ (heldOne.ctxAt 0).held = ⟨0, 0, 0x10018, rec0⟩ :: [⟨0, 1, 0x10018, rec0⟩] ∧ (heldOne.ctxAt 0).fatal = none
    ∧ (∀ g ∈ heldOne.groups, g.lanes.length ≤ 32) ∧ Rules.sets (wr32 0x40000000) 30 ∧ ¬ Rules.sets (wr32 0x40000000) 31
    ∧ Rules.sets (wr32 0x80000000) 31 ∧ (heldOne.ctxAt 0).faulted = false ∧ (s0.ctxAt 0).held = [] := by unfold Rules.sets; decide +kernel
theorem witness_Replays : (faulty 0).answers (.port .a) (.replay 0) = true ∧ 0 < (faulty 0).ctx.length
    ∧ ((faulty 0).ctxAt 0).recs = [] ++ { record0 with id := 8, seq := some 0 } :: [record0]
    ∧ ({ record0 with id := 8, seq := some 0 } : FaultRec).seq = some ((wr32 0).data.toNat % 2 ^ 16)
    ∧ (∀ q ∈ [] ++ [record0], q.seq ≠ some 0 ∧ q.id ≠ 8) ∧ ¬ Rules.sets (wr32 0) 30 ∧ ¬ Rules.sets (wr32 0x40000000) 31
    ∧ Rules.sets (wr32 0x40000000) 30 ∧ ((faulty 0).ctxAt 0).faulted = false
    ∧ (∀ r ∈ ((faulty 0).ctxAt 0).recs, r.seq ≠ some ((wr32 65535).data.toNat % 2 ^ 16)) := by unfold Rules.sets; decide +kernel
/-- ALL names every record that is held, and the record that waits is none of them. -/
theorem witness_Replays_all : (((faulty 0).ctxAt 0).recs.filter fun r => r.seq.isSome && ((wr32 0x80000000).data.getLsbD 31 && (wr32 0x80000000).en.getLsbD 3))
      = [{ record0 with id := 8, seq := some 0 }]
    ∧ ((ctx0 fun c => { c with recs := [record0] }).ctxAt 0).recs.filter (fun r => r.seq.isSome) = [] := by decide +kernel
theorem witness_QueueControl : (queued .none id).answers (.port .a) (.lqCtl 0 0) = true ∧ 0 < ((queued .none id).ctxAt 0).lq.length
    ∧ (queue0 .none).en = true ∧ Rules.merges (wr32 0x80000005) 0 0 0xB000000F (queue0 .none).ctl.toNat 0x80000005
    ∧ 0x80000005 % 16 ≠ (queue0 .none).ctl.toNat % 16 ∧ Rules.merges (wr32 0x90000004) 0 0 0xB000000F (queue0 .none).ctl.toNat 0x90000004
    ∧ 0x90000004 % 16 = (queue0 .none).ctl.toNat % 16
    ∧ Rules.merges (wr32 0x40000004) 0 0 0xB000000F (queue0 .none).ctl.toNat 4 ∧ Rules.sets (wr32 0x40000004) 30
    ∧ ((queued .none id).teams.map (·.id)).Nodup ∧ (queue0 .none).taking = .none
    ∧ Rules.merges (wr32 1) 0 0 0xFFFF (queue0 .none).tail.toNat 1 := by
  unfold Rules.merges Rules.sets; decide +kernel
/-- A launch whose contributions are written is not cancelled. -/
theorem witness_QueueControl_written : ∃ m ∈ ({ queued .none id with launches := [{ launch0 with committed := true, contrib := [contribution 0 0x3F800000] }] } : State).launches,
    m.committed = true ∧ m.contrib ≠ [] := ⟨_, List.mem_singleton.2 rfl, rfl, by decide⟩

/-! Pre-emption. -/

/-- A context with a save area of 256 MiB at 0x8000 of its partition. -/
def saveable (f : Ctx → Ctx) : State := mapped (ctx0 fun c => f { c with savebase := 8, savesz := 0x10000 })
theorem witness_SaveBegins : (saveable id).answers (.port .a) (.prectl 0) = true ∧ ¬ Rules.sets (wr32 0x80000000) 27 ∧ ¬ Rules.sets (wr32 0x80000000) 26
    ∧ Rules.sets (wr32 0x80000000) 31 ∧ Rules.sets (wr32 0x40000000) 30 ∧ ¬ Rules.sets (wr32 0x40000000) 31
    ∧ ((saveable id).ctxAt 0).en = true ∧ ((saveable id).ctxAt 0).busy = false ∧ ((saveable id).ctxAt 0).saved = false
    ∧ 8 * 2 ^ 12 + 0x10000 % 2 ^ 20 * 2 ^ 12 ≤ winSize ((saveable id).partWin.getD 0 0) * 2 ^ 30
    ∧ ¬(0x3FFF8 * 2 ^ 12 + 0x10000 % 2 ^ 20 * 2 ^ 12 ≤ winSize ((saveable id).partWin.getD 0 0) * 2 ^ 30)
    ∧ (∀ v ∈ (saveable id).windows, v.closed = true) ∧ (∀ l ∈ (saveable id).launches, l.render = none) := by
  unfold Rules.sets; decide +kernel
def saving0 : State := { saveable (fun c => { c with busy := true }) with groups := [gone], cur := s0.cur }
/-- The save area without an error, and with one in its first page. -/
theorem witness_SaveCompletes_errors : saving0.ueIn (.dev 0x8000) (((saving0.ctxAt 0).savesz.toNat % 2 ^ 20) * 2 ^ 12) = none
    ∧ ({ saving0 with ue := [0x8040] } : State).ueIn (.dev 0x8000) 4096 = some 0x8040 := by decide +kernel
theorem witness_SaveCompletes : (saving0.ctxAt 0).busy = true ∧ (saving0.ctxAt 0).saved = false ∧ (∀ l ∈ saving0.launches, l.render = none)
    ∧ (∀ g ∈ saving0.groups, g.ctx = 0 → saving0.quiescent g = true) ∧ (∀ k ∈ saving0.copies, k.ctx = 0 → k.waitOn ≠ none)
    ∧ (∀ v ∈ saving0.saves, v.ctx ≠ 0) ∧ saving0.window (saving0.ctxAt 0).part ((saving0.ctxAt 0).savebase.toNat * 2 ^ 12) = some 0x8000
    ∧ savesNeed (saving0.teams.filter fun t => t.ctx == 0) ≤ (saving0.ctxAt 0).savesz.toNat % 2 ^ 20 * 2 ^ 12 ∧ Memory.wf saving0.mem = true
    ∧ ({ saving0 with groups := [{ grp0 with flags := [1] }] } : State).quiescent { grp0 with flags := [1] } = false := by decide +kernel
/-- A saved team of no roles, and its save's header at 0x8000. -/
def savedTeam : Team := { loadedTeam [] with roles := [], slots := [] }
def saved0 : State :=
  let s := saveable fun c => { c with saved := true, savesz := 1 }
  { s with teams := [], groups := [], saves := [{ ctx := 0, at_ := 0x8000, teams := [savedTeam], groups := [], copies := [], tasks := [], held := [] }]
           mem := Store.setAll s.mem 0x8000 (saveHeader 64 1 0 0 0) }
theorem witness_Restores : (saved0.ctxAt 0).busy = false ∧ (saved0.ctxAt 0).saved = true
    ∧ saved0.window (saved0.ctxAt 0).part ((saved0.ctxAt 0).savebase.toNat * 2 ^ 12) = some 0x8000
    ∧ saved0.saveError 0x8000 0 4096 = none ∧ ({ saved0 with ue := [0x803F] } : State).saveError 0x8000 0 4096 = some 0x803F
    ∧ saved0.headerOk 0x8000 0 4096 = true ∧ saved0.mayPlace = true
    ∧ ({ saved0 with mem := [] } : State).headerOk 0x8000 0 4096 = false ∧ ({ saved0 with mem := [] } : State).saveError 0x8000 0 4096 = none
    ∧ 8 * 2 ^ 12 + 4096 ≤ winSize (saved0.partWin.getD (saved0.ctxAt 0).part 0) * 2 ^ 30 := by decide +kernel
theorem witness_Restores_unit : saved0.unitFor saved0.teams savedTeam.needOn savedTeam.cores.length = some [0]
    ∧ ({ saved0 with die := [] } : State).unitFor [] savedTeam.needOn savedTeam.cores.length = none := by decide +kernel
def restoring : State := { s0 with teams := [tmT], saves := [{ ctx := 0, at_ := 0, teams := [], groups := [], copies := [], tasks := [(0, old0)], held := [] }] }
theorem witness_RestoredRecords : restoring.team? old0.team = some tmT ∧ restoring.wellCount 0 < 4096 ∧ restoring.keyCount 0 old0 < 31 := by decide +kernel

/-! Messages. -/

def mailed (code : Byte) (busy : Bool) : State :=
  { s0 with mgmt := .port .a, ports := [{ mbox := [(0, code)], mboxBusy := busy, mboxSem := true, sent := [(0, code)] }, {}] }
theorem witness_Messages : Rules.asked (mailed 1 true) (.mailbox .a) 1 ∧ Rules.asked (mailed 2 true) (.mailbox .a) 2
    ∧ Rules.asked (mailed 3 true) (.mailbox .a) 3 ∧ Rules.asked s0 .smbus 2 ∧ Rules.asked s0 (.vendorMessage .b) 1
    ∧ s0.answers (.port .a) .mboxCtl = true ∧ Rules.merges (wr32 0x80000004) 0 0 0xFFFF 0 4 ∧ Rules.sets (wr32 0x80000004) 31
    ∧ ((mailed 1 false).portAt .a).mbox.rd 0 1 ∈ [1, 2, 3, 0x10, 0x11, 0x12] ∧ ((mailed 4 false).portAt .a).mbox.rd 0 1 = 4 := by
  unfold Rules.asked Rules.merges Rules.sets; decide +kernel
theorem witness_Messages_carried : Rules.carried (mailed 2 true) (.mailbox .a) (List.replicate 32 0) ∧ Rules.carried s0 .smbus [1, 0, 0, 0, 0] := by
  refine ⟨fun p h => ?_, fun p h => by cases h⟩
  cases h; decide +kernel
theorem witness_FirmwareUpdates : Rules.asked (mailed 0x10 true) (.mailbox .a) 0x10 ∧ Rules.asked (mailed 0x11 true) (.mailbox .a) 0x11
    ∧ Rules.asked (mailed 0x12 true) (.mailbox .a) 0x12 ∧ ((mailed 0x10 true).portAt .a).mboxSem = true ∧ (s0.portAt .a).mboxSem = false ∧ Rules.asked s0 .smbus 0x12
    ∧ ((mailed 0x10 true).portAt .a).mbox.getAll 1 4 = leBytes 0 4
    ∧ s0.fw.active < 2 ∧ s0.fw.images.length = 2
    ∧ ({ mailed 0x11 true with fw := { s0.fw with taking := some (4, []) } } : State).fw.taking = some (4, []) := by
  unfold Rules.asked; decide +kernel

/-! System instructions. -/

def sys0 (regs : Store 32) : State := { c0 with cores := [(0, { ctlRegs := regs })] }
theorem witness_SystemRegisters : (sys0 []).cur.who = .control ∧ bar0Reg 0x24 = none ∧ bar0Reg 0xC = some (.mgmtSem, 0xC)
    ∧ (∀ k, k < 4 → bar0Reg (0x44 + k) = some (.dieCores 0, 0x40)) ∧ (sys0 []).answers (.firmware 0) (.dieCores 0) = true
    ∧ (sys0 []).mgmt = .free ∧ ((sys0 [(0, 0x44)]).reg 0 (.s 0) 0).toNat = 0x44
    ∧ ((sys0 [(1, 0x10000000)]).reg 0 (.s 1) 0).toNat / 2 ^ 30 = 0 ∧ ((sys0 [(1, 0x30000000)]).reg 0 (.s 1) 0).toNat / 2 ^ 28 % 4 = 3 := by
  decide +kernel
theorem witness_GroupControl : ((sys0 [(1, 3)]).reg 0 (.s 0) 0).toNat = 0 ∧ ((sys0 [(1, 3)]).reg 0 (.s 1) 0).toNat = 3
    ∧ (sys0 [(1, 3)]).group? 0 0 = some grp0 ∧ grp0.lanes.length = 32 ∧ (sys0 []).group? 0 15 = none ∧ (∃ x ∈ grp0.lanes, x.st = .ready)
    ∧ (∀ x ∈ gone.lanes, x.st ≠ .ready)
    ∧ ((sys0 [(0, 0xFFFFFFFF)]).reg 0 (.s 0) 0).toNat = 2 ^ 32 - 1 := by decide +kernel
def sysSave : State := { mapped (sys0 []) with groups := [gone] }
theorem witness_CoreSaves : sysSave.cur.who = .control ∧ (sysSave.reg 0 (.s 2) 0).toNat = 0 ∧ (sysSave.pair 0 (.s 0)).toNat % 4096 = 0
    ∧ ((mapped (sys0 [(0, 1)])).pair 0 (.s 0)).toNat % 4096 ≠ 0
    ∧ winBase (sysSave.partWin.getD 0 0) * 2 ^ 30 ≤ (sysSave.pair 0 (.s 0)).toNat
    ∧ (sysSave.pair 0 (.s 0)).toNat + savesNeed (sysSave.teams.filter fun t => t.ctx == 0 && t.cores.getD 0 0 == 0) + 4096
        ≤ (winBase (sysSave.partWin.getD 0 0) + winSize (sysSave.partWin.getD 0 0)) * 2 ^ 30
    ∧ sysSave.ctx.length = 64 ∧ (∀ g ∈ sysSave.groups, sysSave.quiescent g = true) ∧ sysSave.copies = []
    ∧ sysSave.ueIn (.dev 0) (savesNeed (sysSave.teams.filter fun t => t.ctx == 0 && t.cores.getD 0 0 == 0) + 4096) = none
    ∧ ({ sysSave with ue := [4095] } : State).ueIn (.dev 0) 4096 = some 4095 := by decide +kernel
/-- A control core about to load the save at 0x8000: of a team that still stands in a save, or of one that entered before. -/
def sysLoad (standing : Bool) : State :=
  { saved0 with cur := c0.cur, cores := [(0, { ctlRegs := [(0, 0x8000)] })], ids := 8, saves := if standing then saved0.saves else []
                images := saved0.saves.map fun v => { v with image := saveHeader 64 1 0 0 0 } }
theorem witness_CoreSaves_load : ((sysLoad true).pair 0 (.s 0)).toNat = 0x8000 ∧ 0 < (sysLoad true).roomAt 0 0x8000
    ∧ (sysLoad true).saveError 0x8000 0 ((sysLoad true).roomAt 0 0x8000) = none ∧ (sysLoad true).headerOk 0x8000 0 ((sysLoad true).roomAt 0 0x8000) = true
    ∧ ({ sysLoad true with mem := [] } : State).headerOk 0x8000 0 ((sysLoad true).roomAt 0 0x8000) = false
    ∧ (∀ b, (sysLoad b).images.find? (fun v => v.ctx == 0 && (sysLoad b).rdBytes (.dev (0x8000 + 64)) (v.image.length - 64) == v.image.drop 64)
        = (sysLoad b).images.head?)
    ∧ (∀ w ∈ (sysLoad true).images, w.teams = [savedTeam] ∧ w.groups = [] ∧ w.tasks = [] ∧ w.held = [])
    ∧ ((sysLoad true).saves.findSome? fun v => (v.teams.find? fun t => t.id == savedTeam.id).map fun t => t) = some savedTeam
    ∧ (sysLoad true).unitAt savedTeam 0 = some [0] ∧ (sysLoad false).unitAt { savedTeam with id := 8 } 0 = some [0] := by decide +kernel

/-! Manifold windows, siphons, bank arithmetic. -/

def row0 : Machine.Row := { slot := 0, lane := 0, no := 0, t := .f32, ins := List.replicate 16 0, nout := 16, dst := 8, flag := 0, pc := 0x10000 }
/-- A window of one row, open for 4,096 cycles, whose handle names zeros. -/
def win0 : Window := { core := 0, ctx := 0, handle := 0x8000, rows := [row0], since := 0 }
def windowAt (clk : Nat) : State := mapped { s0 with windows := [win0], cores := [(0, { clk := BitVec.ofNat 64 clk })] }
def loads (s : State) (w : Window) : Bool := match s.loadRows w with | .ok _ => true | .error _ => false
theorem loads_of {s : State} {w : Window} (h : loads s w = true) : ∃ rows, s.loadRows w = .ok rows := by
  unfold loads at h; split at h <;> simp_all
theorem witness_ManifoldWindows : (windowAt 256).windows[0]? = some win0 ∧ win0.rows ≠ [] ∧ win0.closed = false
    ∧ win0.since + Nat.min 4096 (Nat.max 64 (((windowAt 256).dieAt (0 / 48)).mfldWin.toNat % 2 ^ 13)) ≤ ((windowAt 256).coreAt 0).clk.toNat
    ∧ (∀ r ∈ (windowAt 256).requests, r.core ≠ 0) := by decide +kernel
theorem witness_ManifoldWindows_rows : ∃ rows, ({ windowAt 256 with windows := [{ win0 with closed := true }] } : State).loadRows { win0 with closed := true } = .ok rows :=
  loads_of (by decide +kernel)
/-- A copy of two FP32 elements from 0x5000 to 0x8000 of the window, with one behind. -/
def copy0 (dir : Nat) : Copy := { siphon := 0, core := 0, ctx := 0, team := 0, fmode := 1, fseed := 0, src := { code := 3 }
                                  desc := [0x5000, 0, 0x8000, 0x100, 2, 1, 1, BitVec.ofNat 32 (dir * 2 ^ 30 + 4 * 2 ^ 22 + 4 * 2 ^ 18), 0, 0, 0, 0, 0, 0, 0, 0] }
def copying (dir done : Nat) : State := mapped { s0 with copies := [{ copy0 dir with done }] }
def checks (s : State) (m : Mode) (va n : Nat) : Bool :=
  match s.engineCheck 0 0 { code := 3 } m va n with | .ok x => x.2.all fun r => r.1.isSome | .error _ => false
theorem checks_of {s : State} {m : Mode} {va n : Nat} (h : checks s m va n = true) :
    ∃ v runs, s.engineCheck 0 0 { code := 3 } m va n = .ok (v, runs) := by
  unfold checks at h; split at h
  · next x e => exact ⟨x.1, x.2, e⟩
  · simp at h
theorem witness_SiphonElements : copyAt 0 (copying 0 1).copies 0 0 = some 0 ∧ (copying 0 1).team? 0 = some (loadedTeam [])
    ∧ (copy0 0).desc.length = 16 ∧ Desc.dir (copy0 0).desc = 0 ∧ Desc.dir (copy0 1).desc = 1 ∧ Desc.sfmt (copy0 0).desc = Desc.dfmt (copy0 0).desc
    ∧ Desc.gather (copy0 0).desc = false ∧ Desc.tiled (copy0 0).desc = false ∧ fmtBytes (Desc.dfmt (copy0 0).desc) = 4
    ∧ (loadedTeam []).spadError 0x8004 4 = false ∧ (loadedTeam []).partError 0x8004 4 = false ∧ (loadedTeam []).spadError (Desc.baroff (copy0 0).desc) 16 = false := by decide +kernel
theorem witness_SiphonElements_read : ∃ v runs, (copying 0 1).engineCheck 0 0 { code := 3 } { kind := .read, core := 0 } 0x5004 4 = .ok (v, runs) :=
  checks_of (by decide +kernel)
theorem witness_SiphonElements_write : ∃ v runs, (copying 1 1).engineCheck 0 0 { code := 3 } { kind := .write, core := 0 } 0x5004 4 = .ok (v, runs) :=
  checks_of (by decide +kernel)
/-- A call outstanding, whose matrix of one row lies in a BANKED page at 2^30, and the two units of its bank loaded for it. -/
def hj : State :=
  let desc : List Word := [0x40000000, 0, 1, 0x40, 128, 0, 0, 0]
  let work : Work := .mvx .plain .bf16 .auto 1 1 0x2000 0x3000 [⟨0, 0, [], 8⟩]
  let s := mapped { s0 with
    chan := s0.chan.set 0 { hj := true }
    die := s0.die.set 0 { s0.dieAt 0 with bank := true }
    units := [{ channel := 0, device := 0, bank := 0, loaded := [(0, 0, 0, 0)] }, { channel := 0, device := 1, bank := 0, loaded := [(0, 0, 0, 0)] }]
    groups := [{ grp0 with flags := [1], pend := [{ pend0 with work }] }] }
  { s with tlb := ⟨0, 0, 0, 0x40000000, ⟨2, false, 0x339⟩⟩ :: s.tlb, mem := Store.setAll s.mem 0x2000 (wordBytes desc) }
theorem witness_BankUnits : hj.namesUnit 0 0 0 = true ∧ hj.namesUnit 3 11 31 = false
    ∧ (∀ device, device < 2 → (hj.unit 0 device 0).queue.length + 8 * 1 + 1 ≤ 512)
    ∧ halfRowAt hj.dieCount (0 - hj.chanNo 0) 1 0 0 = 1024
    ∧ (∀ device, device < 2 → ∀ k, k < 1024 → hj.devByte (1024 * device + k) = hj.rdByte (.dev (1024 * device + k))) ∧ hj.past = [] := by decide +kernel
theorem witness_BankUnits_called : ∃ call ∈ hj.callsOn 0, ∀ device, device < 2 → (0, call) ∈ (hj.unit 0 device 0).loaded :=
  ⟨(0, 0, pend0.pc.toNat), by decide +kernel⟩

/-! Objects in the window, numbers and sums. -/

/-- A window whose last 16 bytes are a barrier object for `texp` arrivals, of which one has come, with `bpend` bytes pending. -/
def lastBar (texp bpend : Nat) : Team :=
  { loadedTeam [] with spad := Store.setAll [] 0xFFF0 (leBytes 0 4 ++ leBytes 1 2 ++ leBytes texp 2 ++ leBytes bpend 4) }
theorem witness_Barriers : (lastBar 2 0).inWindow 0xFFF0 16 = true ∧ (lastBar 2 0).inWindow 0xFFF1 16 = false ∧ (lastBar 2 0).inWindow 0xFFE8 16 = true
    ∧ 0xFFE8 % 16 ≠ 0 ∧ (lastBar 2 0).spadError 0xFFF0 16 = false ∧ (lastBar 2 0).rd 0xFFF4 2 < (lastBar 2 0).rd 0xFFF6 2
    ∧ (lastBar 1 5).rd 0xFFF4 2 = (lastBar 1 5).rd 0xFFF6 2 ∧ (lastBar 0 0).rd 0xFFF6 2 = 0 ∧ 5 ≤ (lastBar 1 5).rd 0xFFF8 4
    ∧ (loadedTeam []).rd 0xFFF4 2 = 0 ∧ (loadedTeam []).rd 0xFFF8 4 = 0 := by decide +kernel
/-- A ring of two slots of 16 bytes, one of them reserved, with no barrier objects. -/
def ringTeam (resv : Nat) : Team :=
  let header : List Byte := leBytes 0x100 3 ++ [0, 4, 1, 0, 0] ++ leBytes resv 2 ++ leBytes 0 6 ++ leBytes 0xFFFFFFFFFFFFFFFF 8
  { loadedTeam [] with spad := Store.setAll [] 0x40 header }
theorem ringTeam_taken : (ringTeam 1).rd 96 32 = 0 := by decide +kernel
theorem witness_Rings_form : Rules.ringForm (ringTeam 1) 0x40 := by
  simp only [Rules.ringForm, Nat.reduceAdd, ringTeam_taken, Nat.zero_testBit, Bool.false_eq_true, false_implies, implies_true, and_true]
  decide +kernel
theorem witness_Rings : (ringTeam 1).inWindow 0x40 64 = true ∧ (ringTeam 1).inWindow 0x100 32 = true ∧ (ringTeam 1).spadError 0x40 64 = false
    ∧ Rules.dist 2 1 0 ≠ 2 ∧ Rules.dist 2 ((ringTeam 2).rd 0x48 2) 0 = 2 ∧ (ringTeam 1).rd 0x50 4 = 0xFFFFFFFF
    ∧ Rules.dist 2 ((ringTeam 1).rd 0x48 2) ((ringTeam 1).rd 0x4A 2) = 1 ∧ (ringTeam 4).rd 0x48 2 ≥ 2 * 2 := by decide +kernel
theorem witness_Rings_takes : Rules.slotIn 2 0 1 0 ∧ ¬ Rules.slotIn 2 0 1 1 :=
  ⟨⟨0, by decide, rfl⟩, fun ⟨j, hj, h⟩ => by omega⟩
def failsWith (c : Cause) (d : Nat) : BarRes → Bool | .trap e => e.cause == c && e.detail == d && e.cause != .memUncorrectable | _ => false
theorem objectFails_of {r : BarRes} {c : Cause} {d : Nat} (h : failsWith c d r = true) : Rules.objectFails r c d := by
  cases r with
  | trap e =>
    simp only [failsWith, Bool.and_eq_true, beq_iff_eq, bne_iff_ne, ne_eq] at h
    exact ⟨e, rfl, h.2, h.1.1.symm, h.1.2.symm⟩
  | ok t v => simp [failsWith] at h
  | hold => simp [failsWith] at h
/-- Each check of a stream instruction but those of loops: a tile, operands beside a multiple of 128 and beyond the window, objects. -/
theorem witness_StreamTraps_checks : Rules.operandsFail { team4 with tiles := 1 } .e2m1 true 0 0x40 0 4 .misaligned 0
    ∧ Rules.operandsFail { team4 with tiles := 1 } .bf16 false 0 0 0xFF80 1 .accessViolation 0x0D
    ∧ Rules.operandsFail { team4 with tiles := 1 } .bf16 false 1 0 0 1 .accessViolation 0x0D
    ∧ Rules.objectFails (team4.barWait 8 0 true) .barrierMisuse 1
    ∧ Rules.objectFails ((lastBar 1 5).barArrive 0xFFF0 true) .barrierMisuse 9
    ∧ Rules.objectFails (team4.ringAcquire 0x10000 true) .accessViolation 0x0D
    ∧ Rules.objectFails ((ringTeam 1).ringFinish 0x40 5 false true) .ringMisuse 5 :=
  ⟨.inr (by decide +kernel), .inl (by decide +kernel), .inl (by decide +kernel), objectFails_of (by decide +kernel),
   objectFails_of (by decide +kernel), objectFails_of (by decide +kernel), objectFails_of (by decide +kernel)⟩
/-- The settings of an issue at reset: rounding to nearest even. -/
def env0 : FEnv := s0.fenv 0 .dyn
theorem witness_Rounding : 1 ≤ env0.rm ∧ env0.rm ≤ 6 ∧ env0.fz .f32 = false ∧ env0.fz .e4m3 = false ∧ env0.sat = false ∧ env0.nanc = false
    ∧ Rules.isFinite FTy.f32.fmt 0x7F7FFFFF ∧ ¬ Rules.isFinite FTy.f32.fmt 0x7F800000 ∧ Rules.isFinite FTy.e4m3.fmt 0xFE := by
  unfold Rules.isFinite; decide +kernel
/-- Finite operands, a tie, the two zeros, an infinity, a signalling and a quiet NaN. -/
theorem witness_Elements : FTy.f32.isArith = true ∧ 1 ≤ env0.rm ∧ env0.rm ≤ 6 ∧ env0.fz .f32 = false ∧ Rules.isFinite FTy.f32.fmt 0x40200000
    ∧ Rules.isInfinity FTy.f32.fmt true 0xFF800000 ∧ 0x7F800000 < 0x7F800001 % 2 ^ (FTy.f32.fmt.eb + FTy.f32.fmt.mb)
    ∧ Nat.testBit 0x7F800001 22 = false ∧ Nat.testBit 0x7FC00000 22 = true ∧ 0xFF800000 < 2 ^ FTy.f32.fmt.width := by
  unfold Rules.isFinite Rules.isInfinity; decide +kernel
/-- R302, R307, worked by hand: 2.5 is a tie between 2 and 3, to even; −2.5 towards −∞ is −3; and 300 saturates to an 8-bit 255 with IV. -/
theorem test_whole : (frndE .f32 env0 0 [0x40200000]).val = 0x40000000 ∧ (frndE .f32 { env0 with rm := 4 } 0 [0xC0200000]).val = 0xC0400000
    ∧ env0.toInt .n8 .f32 0x43960000 = (255, 1) := by decide +kernel
theorem witness_NanResults : FTy.f32.fmt.infBits < 0xFF800001 % 2 ^ (FTy.f32.fmt.eb + FTy.f32.fmt.mb) ∧ 0xFF800001 < 2 * 2 ^ (FTy.f32.fmt.eb + FTy.f32.fmt.mb)
    ∧ 0xFF % 0x80 = 0x7F ∧ FTy.e4m3.fmt.sp = .nanOnly ∧ FTy.f32.fmt.sp = .ieee := by decide
theorem witness_SpecialValues : env0.fz .f16 = false ∧ 0x8000 < 0x8001 ∧ 0xFC00 ≤ 2 ^ (FTy.f16.fmt.eb + FTy.f16.fmt.mb) + FTy.f16.fmt.infBits := by
  decide +kernel
/-- 65 products, then sums of infinities, of numbers that cancel, and of −0. -/
theorem witness_ChunkSums : 64 < (List.replicate 65 (FVal.fin false 3 (-1))).length ∧ (FVal.inf true) ∈ [FVal.inf true, .fin false 1 0]
    ∧ (FVal.inf false) ∉ [FVal.inf true, .fin false 1 0]
    ∧ ([FVal.fin false 1 0, .fin true 2 (-1)].map Rules.worth).sum = 0 ∧ Rules.worth (.fin true 0 5) = 0 := by
  refine ⟨by decide, by decide, by decide, ?_, ?_⟩ <;> norm_num [Rules.worth]
/-- A −0 stays where every product is one, and +0 comes of products that cancel (R243). -/
theorem test_chunk_zeros : chunkSumAll 0x80000000 [.fin true 0 5, .fin true 0 0] = 0x80000000
    ∧ chunkSumAll 0x80000000 [.fin false 1 0, .fin true 2 (-1)] = 0 := by decide +kernel

/-! Rendering: a frame of one bucket of 16 pixels a side, and patches of one square of a pixel. -/

def desc0 : RDesc := ((((List.replicate 32 0).set 2 1 |>.set 3 0x000F000F).set 4 0x01000000).set 5 16 |>.set 6 0x41800000).set 10 0x9000 |>.set 12 256 |>.set 20 0x1000
/-- A bilinear patch from (x, 1) to (x + 1, 2), for the words of x and x + 1. -/
def patch0 (w x x1 : Word) : PatchRec :=
  [w, 0, 0x10000, 0, 0, 0, 0, 0, x, 0x3F800000, 0x3F800000, x1, 0x3F800000, 0x3F800000, x, 0x40000000, 0x3F800000, x1, 0x40000000, 0x3F800000]
    ++ List.replicate 44 0
theorem witness_patches : (patch0 0 0x3F800000 0x40000000).valid = true ∧ ((patch0 0 0x3F800000 0x40000000).dice desc0).length = 1
    ∧ (patch0 0x80 0x3F800000 0x40000000).valid = false
    ∧ (patch0 0 0xC1200000 0xC1100000).valid = true ∧ ((patch0 0 0xC1200000 0xC1100000).dice desc0).length = 0 := by decide +kernel
def teamR : Team := { tmT with id := 0, stream := none, det := false }
/-- A launch that renders `r`. -/
def rend (r : Render) : State := mapped { s0 with teams := [teamR], groups := [], launches := [{ launch0 with id := 0, placed := 1, render := some r }] }
def bucket0 : Bucket := { id := 0, no := 0, x := 0, y := 0, size := 16, die := 0 }
def render0 : Render := { desc := desc0, todo := [(0, [0]), (1, []), (2, []), (3, [])], buckets := [bucket0] }
theorem witness_renders (r : Render) : Rules.renders (rend r) 0 { launch0 with id := 0, placed := 1, render := some r } r :=
  ⟨rfl, rfl, by simp [rend, mapped], by show (s0.ctxAt 0).en = true; decide +kernel, by show (s0.ctxAt 0).faulted = false; decide +kernel,
   by show (s0.ctxAt 0).busy = false; decide +kernel, by show (s0.ctxAt 0).saved = false; decide +kernel⟩
theorem witness_Dicing : render0.abort = false ∧ (∀ m ∈ (rend render0).launches, ∀ q, m.render = some q → q.held = []) ∧ render0.again = []
    ∧ (∀ g ∈ render0.grids, g.patch ≠ 0) ∧ render0.todo = [] ++ (0, 0 :: []) :: [(1, []), (2, []), (3, [])]
    ∧ (∀ e ∈ ([] ++ [(1, []), (2, []), (3, [])] : List (Nat × List Nat)), e.1 ≠ 0) ∧ (rend render0).teams.filter (fun t => t.launch == 0) = [teamR]
    ∧ teamR.cores = [0] ∧ dieOf 0 = 0 ∧ ((rend render0).ctxAt 0).sumpEmpty = true ∧ (rend render0).restoreWaits 0 0 = false ∧ (rend render0).wells = []
    ∧ (1 + 1) * (1 + 1) < 32 := by decide +kernel
/-- The die holds the patch while it reads it. -/
def holding : State := Rules.rendering (rend render0) 0 { render0 with todo := [(0, []), (1, []), (2, []), (3, [])], held := [{ die := 0, patch := 0 }] }
theorem witness_Dicing_read : ∃ r, holding.engineRead 0 { core := engineCore } ((RDesc.patches desc0 + 256 * 0) % 2 ^ 64) 256
    { code := 10, die := (rend render0).physDie 0 } = .ok r :=
  readable_of (by decide +kernel)
def grid0 : Grid := { patch := 0, g := 0, nu := 1, nv := 1, window := (1, 1, 1, 1), oqe := false, oq := 0
                      verts := List.replicate 4 (some ⟨List.replicate 8 0, false⟩), open_ := 0 }
/-- The copy of one grid on its way to the bucket. -/
def flying (f : Bucket → Bucket) : Render := { render0 with todo := [], grids := [grid0], flight := [(0, 0, 0, none)], buckets := [f bucket0] }
theorem witness_GridCopies : (flying id).flight[0]? = some (0, 0, 0, none) ∧ (flying id).grid? (0, 0) = some grid0 ∧ (flying id).stats.length = 9
    ∧ bucket0.meets desc0 grid0 = true ∧ ({ bucket0 with cistern := true } : Bucket).fill (flying id) + 64 * 5 ≤ 2 ^ 21
    ∧ bucket0.st ≠ .committed ∧ (0, 0) ∉ bucket0.copies
    ∧ bucket0.meets desc0 { grid0 with window := (16, 17, 0, 0) } = false
    ∧ RDesc.spillSize (desc0.set 20 0) < 64 * 5 := by decide +kernel
def shadedR (f : Bucket → Bucket) : Render := { flying f with flight := [] }
theorem witness_Resolves : bucket0.spilled = [] ∧ bucket0.stolen = none ∧ bucket0.st = .waiting ∧ (∀ e ∈ (shadedR id).todo, e.2 = [])
    ∧ (shadedR id).held = [] ∧ (∀ g ∈ (shadedR id).grids, g.open_ = 0) ∧ (shadedR id).abort = false ∧ (shadedR id).flight = []
    ∧ (rend (shadedR id)).unitsBusy 0 < 8 := by decide +kernel
/-- A resolved bucket that owns one pixel. -/
def bucketP : Bucket := { bucket0 with st := .resolved, pixels := [(15, 15, [1, 2, 3, 4])], tested := 5, passed := 3, oq := List.replicate 64 0 }
theorem witness_Commits : bucketP.st = .resolved ∧ bucketP.pixels = [(15, 15, 1 :: 2 :: 3 :: 4 :: [])] ∧ RDesc.half desc0 = false
    ∧ RDesc.depth desc0 = 0 ∧ RDesc.normal desc0 = 0 ∧ RDesc.outbase desc0 + 15 * RDesc.opitch desc0 + 15 * 16 = 0x9FF0 := by decide +kernel
def commits (s : State) : Bool :=
  match s.engineCheck 0 0 { code := 10, die := s.physDie 0 } { kind := .write, core := engineCore } 0x9FF0 16 with | .ok _ => true | .error _ => false
theorem commits_of {s : State} (h : commits s = true) :
    ∃ rs, s.engineCheck 0 0 { code := 10, die := s.physDie 0 } { kind := .write, core := engineCore } 0x9FF0 16 = .ok rs := by
  unfold commits at h; split at h <;> simp_all
theorem witness_Commits_write : ∃ rs, (rend (shadedR fun _ => bucketP)).engineCheck 0 0
    { code := 10, die := (rend (shadedR fun _ => bucketP)).physDie 0 } { kind := .write, core := engineCore } 0x9FF0 16 = .ok rs :=
  commits_of (by decide +kernel)
theorem witness_Steals : 3 < (rend (shadedR id)).dieCount ∧ (rend (shadedR id)).unitsBusy 3 = 0
    ∧ (shadedR id).buckets.filter (fun b => b.stolen.getD b.die == 3 && (shadedR id).ready b) = []
    ∧ (shadedR id).buckets.filter (fun b => b.stolen.getD b.die == 0 && (shadedR id).ready b) = [bucket0]
    ∧ 0 < (rend (shadedR fun _ => bucketP)).unitsBusy 0 := by decide +kernel
def withCopy (ues : Nat) : Bucket := { bucket0 with cistern := true, copies := [(0, 0)], ues }
theorem witness_CisternErrors : (withCopy 0).cistern = true ∧ (withCopy 0).copies ≠ [] ∧ (withCopy 0).st ≠ .committed ∧ 1 ≤ (withCopy 1).ues
    ∧ (∀ e ∈ (shadedR fun _ => withCopy 0).todo, e.2 = []) ∧ (shadedR fun _ => withCopy 0).held = [] ∧ 0 < (rend (shadedR fun _ => withCopy 0)).ctx.length := by
  decide +kernel

/-! Frames, and the machine as a whole. -/

def addOne : Instr := .add .n32 (.v 2) (.v 0) (.lit 1)
theorem witness_RegisterFrame : (∃ k, Rules.integer addOne = some (.v 2, k)) ∧ addOne.wf = true ∧ s0.classReady addOne ∧ s0.grp = some grp0
    ∧ (match execAdd .n32 (.v 2) (.v 0) (.lit 1) s0 with | .next t => (t.group? 0 0).isSome | _ => false) = true :=
  ⟨⟨_, rfl⟩, by decide, ready _ (by decide), rfl, by decide +kernel⟩
theorem witness_StoreFrame : ∃ k, Rules.inTurn (.st .n32 .plain .kall (.v 0) 0 (.v 4)) = some k
    ∧ (State.inOrder (.st .n32 .plain .kall (.v 0) 0 (.v 4)) k [0, 1] (at_ 0x5000)).isSome = true
    ∧ Rules.storedAt (.st .n32 .plain .kall (.v 0) 0 (.v 4)) (at_ 0x5000) 1 = Rules.cells (.dev 0x5004) 4 := ⟨_, rfl, by decide +kernel, by decide +kernel⟩
/-- A store that the core holds. -/
theorem witness_StoreFrame_held : ∃ k, Rules.inTurn (.st .n32 .plain .kall (.v 0) 0 (.v 4)) = some k
    ∧ (State.inOrder (.st .n32 .plain .kall (.v 0) 0 (.v 4)) k [0, 1] { at_ 0x5000 with cur := { s0.cur with delay := true } }).isSome = true :=
  ⟨_, rfl, by decide +kernel⟩
/-- The device about to perform the words of an instruction. -/
def about (i : Instr) : State := State.reset.loaded (encode i)
def decodesTo (xs : List Word) (u : Kind) (i : Instr) : Bool :=
  match decodeFor u xs with | .ok (j, rest) => j == i && rest == [] | .error _ => false
theorem decodes_of {xs : List Word} {u : Kind} {i : Instr} (h : decodesTo xs u i = true) : decodeFor u xs = .ok (i, []) := by
  unfold decodesTo at h; split at h
  · next e => simp at h; rw [e, h.1, h.2]
  · simp at h
theorem witness_StepRunsDecoded_lane : (about addOne).agenda = [.lane 0 0]
    ∧ (about addOne).issues.find? (fun i => i.core == 0 && i.pipe == 0) = some (loadedIssue (encode addOne))
    ∧ decodeFor .lane (encode addOne) = .ok (addOne, []) := ⟨by decide +kernel, by decide +kernel, decodes_of (by decide +kernel)⟩
/-- The class of a clause holds a store back: an instruction that the store precedes, and one that passes it. -/
theorem witness_StepRunsDecoded_held : (∃ b ∈ [held 0 0x5000 1], ({ about addOne with stores := [held 0 0x5000 1] } : State).before 0 0 [0] b = true)
    ∧ Instr.passesStores (.binit (.v 0) (.v 4)) = false ∧ Instr.passesStores addOne = true
    ∧ decodeFor .lane (encode (.binit (.v 0) (.v 4))) = .ok (.binit (.v 0) (.v 4), []) :=
  ⟨⟨_, List.mem_singleton.2 rfl, by decide +kernel⟩, by decide, by decide, decodes_of (by decide +kernel)⟩
theorem witness_StepRunsDecoded_stream : (about .mnop).agenda = [.stream 0] ∧ (about .mnop).team? 0 = some (loadedTeam (encode .mnop))
    ∧ ((about .mnop).ctxAt 0).saving = false ∧ decodeFor .stream (encode .mnop) = .ok (.mnop, []) :=
  ⟨by decide +kernel, by decide +kernel, by decide +kernel, decodes_of (by decide +kernel)⟩
theorem witness_StepRunsDecoded_control : (about .idle).agenda = [.control 0] ∧ (about .idle).ctlRuns 0 = true := by decide +kernel
theorem witness_StepRunsDecoded_event : Instr.isEvent (.governorInterval 1600) = true ∧ Instr.isEvent .powerGood = true := by decide
theorem witness_DecodeEncode : addOne.wf = true ∧ addOne.isEvent = false ∧ (Instr.brk 4095).wf = true ∧ (Instr.frame 128).wf = true
    ∧ (Instr.add .i64 (.v 1022) (.v 1022) (.s 190)).wf = true := by decide
theorem witness_MemoryWfStep : Rules.memories State.reset ∧ Rules.memories (mapped s0) := by unfold Rules.memories; decide +kernel

/-! ### More words of the spec: files 10, 13, 18 and 19 -/

/-! The word of `min.i32 v5, s2, v9` with the opcode that R258 gives `min` (log 29). -/
theorem test_decode_min : dec [0x9242142C#32] = some (.minBase true 5 (.s 2) (.v 9)) := by decide
theorem test_decode_call : dec [0x0000001B#32, 0#32, 0x40#32, 0x140#32, 0#32] = some (.call 4 0x140#64) := by decide
theorem test_decode_shfl : dec [0x0681040B#32, 0#32, 0x03030000#32, 2#32, 0#32] = some (.shfl .n64 .xor 16 (.v 26) (.lit 2#64)) := by decide
theorem test_decode_mvx : dec [0x01008711#32, 0x00000806#32, 0x32400001#32] = some (.mvx .bf16 .auto 1 0 8 (.s 4) (.s 6) (.v 2) 1) := by decide
theorem test_decode_rtrace : dec [0x01010629#32, 8#32, 1#32] = some (.rtrace false false false 16 (.v 4) (.v 8) 1) := by decide
theorem test_decode_mzero : dec [0x00005C25#32, 0#32, 0#32] = some (.mzero 5) := by decide
theorem test_decode_mloop : dec [0x00000C0F#32, 0#32, 0#32, 3#32, 0#32] = some (.mloop 0 (.inr 3#64)) := by decide
theorem test_decode_mwait : dec [0x00400C15#32, 0#32, 0#32] = some (.mwait 0 1) := by decide
theorem test_decode_marr : dec [0x00000C19#32, 0#32, 0x10#32] = some (.marr 1) := by decide
theorem test_decode_mnext : dec [0x00000C11#32, 0#32, 0#32] = some (.mnext 0) := by decide
theorem test_decode_mstop : dec [0x00000C31#32, 0#32, 0#32] = some .mstop := by decide
theorem test_header_trace : Header.ofWords 0x080007FE#32 0xF1#32 1#32 = some ⟨false, true, 0, 1, 1, 15, 1#32⟩ := by decide

/-! ### Steps whose results the spec writes out -/

/-- What slot `d` of lane 0 holds after an instruction, with `v0` and on as given. -/
def res (i : Instr) (regs : List Word) (d : Nat) : Option Word :=
  match exec i (alone fun t => { t with slots := Store.setAll [] 0 regs }) with
  | .next t => (t.group? 0 0).map fun g => (g.lane 0).slots.get d
  | _ => none

theorem test_add_wraps : res (.add .i32 (.v 8) (.v 0) (.v 1)) [0x7FFFFFF0, 0x20] 8 = some 0x80000010 := by decide +kernel
theorem test_add_i8 : res (.add .i8 (.v 8) (.v 0) (.v 1)) [0x7F, 0x01] 8 = some 0xFFFFFF80 := by decide +kernel
theorem test_adds : res (.adds .i32 (.v 8) (.v 0) (.v 1)) [0x7FFFFFF0, 0x20] 8 = some 0x7FFFFFFF := by decide +kernel
theorem test_subs : res (.subs .n32 (.v 8) (.v 0) (.v 1)) [5, 9] 8 = some 0 := by decide +kernel
theorem test_mulhi_i32 : res (.mulhi .i32 (.v 8) (.v 0) (.v 1)) [0xFFFFFFFE, 3] 8 = some 0xFFFFFFFF := by decide +kernel
theorem test_mulhi_n32 : res (.mulhi .n32 (.v 8) (.v 0) (.v 1)) [0xFFFFFFFE, 3] 8 = some 2 := by decide +kernel
theorem test_shl : res (.shl .n32 (.v 8) (.v 0) (.v 1)) [1, 32] 8 = some 0 := by decide +kernel
theorem test_rotl : res (.rotl .n32 (.v 8) (.v 0) (.v 1)) [1, 33] 8 = some 2 := by decide +kernel
theorem test_sra : res (.sra .n32 (.v 8) (.v 0) (.v 1)) [0x80000000, 40] 8 = some 0xFFFFFFFF := by decide +kernel
theorem test_clz : res (.clz .n32 (.v 8) (.v 0)) [0] 8 = some 32 := by decide +kernel
theorem test_ctz : res (.ctz .n16 (.v 8) (.v 0)) [0x100] 8 = some 8 := by decide +kernel
theorem test_abs : res (.abs .i32 (.v 8) (.v 0)) [0x80000000] 8 = some 0x80000000 := by decide +kernel
theorem test_bfe : res (.bfe .i32 (.v 8) (.v 0) 8 7) [0xF0A0] 8 = some 0xFFFFFFF0 := by decide +kernel
theorem test_lea : res (.lea .i32 (.v 8) (.v 0) (.v 2) 3) [0x1000, 0x7F00, 0xFFFFFFFD] 8 = some 0xFE8
    ∧ res (.lea .i32 (.v 8) (.v 0) (.v 2) 3) [0x1000, 0x7F00, 0xFFFFFFFD] 9 = some 0x7F00 := by decide +kernel

/-- The registers that a long-latency issue of lane 0 is to write. -/
def writesOf (i : Instr) (regs : List Word) : Option (List (Nat × Nat × Word)) :=
  match exec i (alone fun t => { t with slots := Store.setAll [] 0 regs }) with
  | .next t => (t.group? 0 0).map fun g => (g.pend.map (·.writes)).flatten
  | _ => none
theorem test_div_signs : writesOf (.div .i32 8 (.v 0) (.v 1) 0) [0xFFFFFFF9, 2] = some [(0, 8, 0xFFFFFFFD), (0, 9, 0xFFFFFFFF)] := by decide +kernel
theorem test_div_corners : writesOf (.div .i32 8 (.v 0) (.v 1) 0) [9, 0] = some [(0, 8, 0xFFFFFFFF), (0, 9, 9)]
    ∧ writesOf (.div .i32 8 (.v 0) (.v 1) 0) [0x80000000, 0xFFFFFFFF] = some [(0, 8, 0x80000000), (0, 9, 0)] := by decide +kernel

/-- Lanes 0, 2, 3 and 6 of a group whose tiles have 8 lanes, with the values of file 11 in `v21`. -/
def tile : State :=
  { s0 with cur := { s0.cur with lanes := [0, 2, 3, 6] }
            groups := [{ grp0 with tpart := 3, lanes := (List.range 8).map fun l =>
              { Lane.start 0x10000 1024 with slots := Store.set [] 21 (if l = 0 then 0x4B800000 else 0x3F800000) } }] }
/-- What slot `d` of the four lanes holds after an instruction. -/
def four (i : Instr) (d : Nat) : Option (List Word) :=
  match exec i tile with | .next t => (t.group? 0 0).map fun g => [0, 2, 3, 6].map fun l => (g.lane l).slots.get d | _ => none
theorem test_tred : four (.tred .f32 .fadd 20 (.v 21)) 20 = some [0x4B800002, 0x4B800002, 0x4B800002, 0x4B800002] := by decide +kernel
theorem test_tscan : four (.tscan .f32 .fadd false 22 (.v 21)) 22 = some [0x4B800000, 0x4B800000, 0x4B800000, 0x4B800000] := by decide +kernel
theorem test_shfl : four (.shfl .n32 .down 23 (.v 21) (.lit 1)) 23 = some [0x4B800000, 0x3F800000, 0x3F800000, 0x3F800000] := by decide +kernel
theorem test_ballot : four (.vote .ballot 24 (.v 21)) 24 = some [0x4D, 0x4D, 0x4D, 0x4D] := by decide +kernel

/-- A lane of a frame of 128 registers after a `calli` of 32, file 10. -/
def called (i : Instr) (f : Lane → Lane) : Option (Nat × Nat × DWord) :=
  match exec i (alone fun t => f { t with f := 128 }) with | .next t => (t.group? 0 0).map fun g => ((g.lane 0).wb, (g.lane 0).f, (g.lane 0).pc) | _ => none
theorem test_calli : called (.calli (.v 20) 4) (fun t => { t with slots := Store.setAll [] 20 [0x20000, 0] }) = some (32, 96, 0x20000) := by decide +kernel
theorem test_frame_ret : called (.frame 6) (fun t => { t with wb := 32, f := 96 }) = some (32, 48, 0x10010)
    ∧ called .ret (fun t => { t with wb := 32, f := 48, ret := [⟨0x30000, 32, 128⟩] }) = some (0, 128, 0x30000) := by decide +kernel

/-- The walk of file 01: three entries, and the page's frame. -/
theorem test_walk : (match ({ mapped (ctx0 fun c => { c with ptroot := 0x0000001200000000 }) with
      memMib := 380928, partWin := [0x01000000, 0, 0, 0]
      mem := Store.setAll (Store.setAll (Store.setAll [] 0x12000032A0 (leBytes 0x0000001200010003 8)) 0x12000108F8 (leBytes 0x0000001200020003 8))
        0x1200020270 (leBytes 0x000000400A000219 8) } : State).walkCtx 0 0 0x00032A47C9D51E30 with
    | .ok (l, es) => some (l.level, l.entry, es.map (·.2)) | .error _ => none)
    = some (1, 0x000000400A000219, [0x0000001200010003, 0x0000001200020003]) := by decide +kernel
/-- The line placed in file 02. -/
theorem test_home : homeOf 4 0x3A5C1F9C0 = (0, 39, 9, 159361) := by decide +kernel
theorem test_bank : (placeOf 4 0x3A5C1F9C0).2.2.1 = 21 := by decide +kernel

/-- The governor's steps of file 16. -/
def episode (g low watts : Nat) : Option (Nat × Nat × Nat × Bool) :=
  match exec (.governorInterval watts) { s0 with quiet := { s0.quiet with cap := 56, pwrCap := 1300, act := 0x80321400, g, low } } with
  | .next t => some (t.quiet.g, t.quiet.low, t.quiet.clk, t.quiet.eng) | _ => none
theorem test_quiet_down : episode 80 0 1520 = some (55, 0, 55, true) ∧ episode 54 0 1305 = some (53, 0, 53, true) := by decide +kernel
theorem test_quiet_up : episode 53 0 1290 = some (53, 0, 53, true) ∧ episode 53 199 1200 = some (54, 200, 54, true)
    ∧ episode 55 201 1210 = some (56, 202, 56, false) := by decide +kernel

end Sys2Proof.Tests
end
end

section
/-!
SUPPORT. Power and the stages of the start (R2, R448, R449, R453): what Stage 1 makes of its report, how it decides between every
die, one die and none, and what the entry into Stage 2 makes of that. Settles O42.
-/
namespace Sys2Proof

/-! ### What a die's report makes of its registers -/

/-- The channels of a die as its report gives them on a part of a form: untrained where the report has none, and of HJ-32B devices
throughout on a module (R1). -/
def DieReport.found (form : Config.Form) (r : DieReport) : List ChannelReport :=
  (List.range 12).map fun k =>
    match r.channels[k]? with
    | some c => { c with hj := c.hj || form == Config.Form.module }
    | none => ⟨false, false, 0⟩

theorem DieReport.found_trained (form : Config.Form) (r : DieReport) : (r.found form).all (·.trained) = Rules.trained r := by
  rw [Bool.eq_iff_iff]
  simp only [DieReport.found, Rules.trained, List.all_eq_true, List.mem_map, List.mem_range, forall_exists_index, and_imp,
    forall_apply_eq_imp_iff₂, Bool.and_eq_true, decide_eq_true_eq]
  constructor
  · intro h
    have hlen : 12 ≤ r.channels.length := by
      by_contra hc
      have := h 11 (by omega)
      rw [List.getElem?_eq_none (by omega)] at this
      exact Bool.false_ne_true this
    refine ⟨hlen, fun c hc => ?_⟩
    obtain ⟨k, hk, rfl⟩ := List.mem_take_iff_getElem.1 hc
    have := h k (by omega)
    rwa [List.getElem?_eq_getElem (by omega)] at this
  · rintro ⟨hlen, h⟩ k hk
    rw [List.getElem?_eq_getElem (by omega)]
    exact h r.channels[k] (List.mem_take_iff_getElem.2 ⟨k, by omega, rfl⟩)

theorem DieReport.found_hj (form : Config.Form) (r : DieReport) : (r.found form).all (·.hj) = true ↔
    ∀ k, k < 12 → ∃ c, r.channels[k]? = some c ∧ (c.hj = true ∨ form = .module) := by
  simp only [DieReport.found, List.all_eq_true, List.mem_map, List.mem_range, forall_exists_index, and_imp, forall_apply_eq_imp_iff₂]
  refine forall₂_congr fun k _ => ?_
  cases r.channels[k]? <;> simp

theorem Config.Form.dies_le (f : Config.Form) : f.dies ≤ 4 := by cases f <;> decide
theorem Config.Form.dies_of_ne_bareDie {f : Config.Form} (h : f ≠ .bareDie) : f.dies = 4 := by
  cases f with
  | bareDie => exact absurd rfl h
  | package => rfl
  | module => rfl

end Sys2Proof
namespace Sys2Proof.Machine

/-- A die's registers after its report. -/
def Die.reported (form : Config.Form) (r : DieReport) (x : Die) : Die :=
  { x with memok := (r.found form).all (·.trained), bank := (r.found form).all (·.hj), linkok := r.linkOk || (form == .bareDie) }

@[simp] theorem Die.reported_memok (form : Config.Form) (r : DieReport) (x : Die) : (x.reported form r).memok = Rules.trained r :=
  r.found_trained form
@[simp] theorem Die.reported_linkok (form : Config.Form) (r : DieReport) (x : Die) :
    (x.reported form r).linkok = (r.linkOk || form == .bareDie) := rfl
theorem Die.reported_bank (form : Config.Form) (r : DieReport) (x : Die) : (x.reported form r).bank = true ↔
    ∀ k, k < 12 → ∃ c, r.channels[k]? = some c ∧ (c.hj = true ∨ form = .module) := r.found_hj form
@[simp] theorem Die.reported_whole (form : Config.Form) (r : DieReport) (x : Die) :
    (x.reported form r).whole = (Rules.trained r && (r.linkOk || form == .bareDie)) := by simp [Die.whole]

/-! ### Every die takes its report -/

/-- Changes of channels one after another change nothing else. -/
theorem State.foldl_updChan {α : Type} (i : α → Nat) (f : α → Channel → Channel) : ∀ (l : List α) (s : State),
    ∃ ch, l.foldl (fun s a => { s with chan := updAt s.chan (i a) (f a) }) s = { s with chan := ch } := by
  intro l
  induction l with
  | nil => exact fun s => ⟨s.chan, rfl⟩
  | cons a l ih =>
    intro s
    obtain ⟨ch, h⟩ := ih { s with chan := updAt s.chan (i a) (f a) }
    exact ⟨ch, by rw [List.foldl_cons, h]⟩

theorem State.takeDie_eq (s : State) (d : Nat) (r : DieReport) :
    ∃ ch, s.takeDie d r = { s with chan := ch, die := updAt s.die d (Die.reported s.part.form r) } := by
  obtain ⟨ch, h⟩ := State.foldl_updChan (fun c : ChannelReport × Nat => 12 * d + c.2)
    (fun c x => { x with trained := c.1.trained, hj := c.1.hj, cecnt := Nat.min 0xFFFFFF c.1.corrected })
    (r.found s.part.form).zipIdx s
  refine ⟨ch, ?_⟩
  show State.updDie (List.foldl _ s _) d _ = _
  exact (congrArg (fun u : State => u.updDie d (Die.reported s.part.form r)) h).trans rfl

/-- Reports taken by different dies, one after another: each has its own, and nothing but channels and dies has changed. -/
theorem State.takeDies_eq (rep : Nat → DieReport) : ∀ (ds : List Nat) (s : State), ds.Nodup → (∀ d ∈ ds, d < s.die.length) →
    ∃ ch dl, ds.foldl (fun s d => s.takeDie d (rep d)) s = { s with chan := ch, die := dl }
      ∧ ∀ d ∈ ds, dl.getD d { en := 0 } = (s.dieAt d).reported s.part.form (rep d) := by
  intro ds
  suffices H : ∀ s : State, ds.Nodup → (∀ d ∈ ds, d < s.die.length) →
      ∃ ch dl, ds.foldl (fun s d => s.takeDie d (rep d)) s = { s with chan := ch, die := dl }
        ∧ (∀ d ∈ ds, dl.getD d { en := 0 } = (s.dieAt d).reported s.part.form (rep d))
        ∧ ∀ d, d ∉ ds → dl.getD d { en := 0 } = s.dieAt d from
    fun s hn hl => (H s hn hl).imp fun _ h => h.imp fun _ h => ⟨h.1, h.2.1⟩
  induction ds with
  | nil => exact fun s _ _ => ⟨s.chan, s.die, rfl, by simp, fun _ _ => rfl⟩
  | cons a r ih =>
    intro s hn hl
    rw [List.nodup_cons] at hn
    obtain ⟨ch, h⟩ := s.takeDie_eq a (rep a)
    obtain ⟨ch', dl, h', hin, hout⟩ := ih (s.takeDie a (rep a)) hn.2 fun d hd => by
      rw [h, updAt_length]; exact hl d (by simp [hd])
    have hdie : ∀ d, (s.takeDie a (rep a)).dieAt d = (s.updDie a (Die.reported s.part.form (rep a))).dieAt d := by rw [h]; exact fun _ => rfl
    refine ⟨ch', dl, by rw [List.foldl_cons, h', h], fun d hd => ?_, fun d hd => ?_⟩
    · rcases List.mem_cons.1 hd with rfl | hd
      · rw [hout _ hn.1, hdie, State.dieAt_updDie_same _ (hl _ (by simp))]
      · have hne : d ≠ a := fun e => hn.1 (e ▸ hd)
        rw [hin d hd, hdie, State.dieAt_updDie_other _ hne, h]
    · simp only [List.mem_cons, not_or] at hd
      rw [hout d hd.2, hdie, State.dieAt_updDie_other _ hd.1]

/-! ### The firmware slot that starts, R449, R453 -/

theorem Firmware.start_of_fails {f : Firmware} {e : Nat} (h : imageError (f.images.getD f.active []) = some e)
    (h' : imageError (f.images.getD (1 - f.active) []) ≠ none) : f.start = .error e := by
  obtain ⟨e', h'⟩ := Option.ne_none_iff_exists'.1 h'
  simp only [Firmware.start, h, h']

theorem Firmware.start_of_verified {f : Firmware}
    (h : imageError (f.images.getD f.active []) = none ∨ imageError (f.images.getD (1 - f.active) []) = none) :
    f.start = .ok (if imageError (f.images.getD f.active []) = none then f.active else 1 - f.active) := by
  unfold Firmware.start
  cases hA : imageError (f.images.getD f.active []) with
  | none => rfl
  | some e =>
    rw [hA] at h
    simp only [h.resolve_left (Option.some_ne_none e), reduceCtorEq, if_false]

/-! ### How Stage 2 can run, R449 -/

theorem State.plan_all {s : State} (h : ∀ d, d < s.part.form.dies → (s.dieAt d).whole = true) : s.plan = .all := by
  have : (List.range s.part.form.dies).all (fun d => (s.dieAt d).whole) = true := by simpa using h
  simp only [State.plan, this, if_true]

theorem State.plan_of_broken {s : State} (h : ∃ d, d < s.part.form.dies ∧ (s.dieAt d).whole = false) :
    s.plan = if s.part.form = .bareDie then .none else if (s.dieAt 0).memok then .single 0
      else if (s.dieAt 2).memok then .single 2 else .none := by
  have : (List.range s.part.form.dies).all (fun d => (s.dieAt d).whole) = false := by
    simpa only [List.all_eq_false, List.mem_range, Bool.not_eq_true] using h
  simp only [State.plan, this, Bool.false_eq_true, if_false]

theorem State.plan_single {s : State} (h : ∃ d, d < s.part.form.dies ∧ (s.dieAt d).whole = false) (hf : s.part.form ≠ .bareDie)
    (hm : (s.dieAt 0).memok = true ∨ (s.dieAt 2).memok = true) : s.plan = .single (if (s.dieAt 0).memok then 0 else 2) := by
  rw [State.plan_of_broken h, if_neg hf]
  by_cases h0 : (s.dieAt 0).memok = true
  · simp [h0]
  · simp [h0, hm.resolve_left h0]

theorem State.plan_none {s : State} (h : ∃ d, d < s.part.form.dies ∧ (s.dieAt d).whole = false)
    (hm : s.part.form = .bareDie ∨ (s.dieAt 0).memok = false ∧ (s.dieAt 2).memok = false) : s.plan = .none := by
  rw [State.plan_of_broken h]
  rcases hm with hf | ⟨h0, h2⟩
  · rw [if_pos hf]
  · simp [h0, h2]

/-! ### Stage 1 and the entry into Stage 2 -/

/-- What Stage 1 makes of a state in which every die has its report. -/
def State.stage1From (s : State) : State :=
  match s.plan with
  | .all => { s with stage := .stage1, ucie := s.pairs }
  | .single _ => { s with stage := .stage1, err := 4 }
  | .none => { s with stage := .halted, err := 3 }

theorem State.stage1From_of_all {s : State} (h : s.plan = .all) : s.stage1From = { s with stage := .stage1, ucie := s.pairs } := by
  simp only [State.stage1From, h]
theorem State.stage1From_of_single {s : State} {d : Nat} (h : s.plan = .single d) : s.stage1From = { s with stage := .stage1, err := 4 } := by
  simp only [State.stage1From, h]
theorem State.stage1From_of_none {s : State} (h : s.plan = .none) : s.stage1From = { s with stage := .halted, err := 3 } := by
  simp only [State.stage1From, h]
theorem State.stage1From_fw (s : State) : s.stage1From.fw = s.fw := by unfold State.stage1From; split <;> rfl
theorem State.stage1From_dieAt (s : State) (d : Nat) : s.stage1From.dieAt d = s.dieAt d := by unfold State.stage1From; split <;> rfl

theorem exec_stage1_of_fails {s : State} {e : Nat} (r : StartReport) (hp : s.powered = true) (hs : s.stage = .priming) (he : s.err = 0)
    (h : s.fw.start = .error e) : exec (.stage1 r) s = .next { s with err := e } := by
  show execStage1 r s = _
  rw [execStage1, if_neg (by simp [hp, hs, he]), h]
  rfl

/-- Stage 1 with a verified image: the slot is active, the dies of the form have their reports, and the plan decides. -/
theorem exec_stage1_of_verified {s : State} {r : StartReport} {slot : Nat} (hp : s.powered = true) (hs : s.stage = .priming)
    (he : s.err = 0) (hd : s.die.length = 4) (h : s.fw.start = .ok slot) :
    ∃ u : State, exec (.stage1 r) s = .next u.stage1From ∧ u.fw.active = slot ∧ u.part = s.part ∧ u.err = 0
      ∧ ∀ d x, d < s.part.form.dies → r.dies[d]? = some x → u.dieAt d = (s.dieAt d).reported s.part.form x := by
  obtain ⟨ch, dl, hu, hdl⟩ := State.takeDies_eq (fun d => r.dies.getD d ⟨false, []⟩) (List.range s.part.form.dies)
    { s with fw := { s.fw with active := slot } } List.nodup_range fun d hdr =>
      Nat.lt_of_lt_of_eq (Nat.lt_of_lt_of_le (List.mem_range.1 hdr) s.part.form.dies_le) hd.symm
  refine ⟨{ s with fw := { s.fw with active := slot }, chan := ch, die := dl }, ?_, rfl, rfl, he, fun d x hx hdx => ?_⟩
  · show execStage1 r s = _
    rw [execStage1, if_neg (by simp [hp, hs, he]), h]
    exact congrArg (fun u => Host.Outcome.next (State.stage1From u)) hu
  · show dl.getD d _ = _
    rw [hdl d (List.mem_range.2 hx), List.getD_eq_getElem?_getD, hdx]
    rfl

/-- Stage 2 entered with the dies that take part. -/
def State.enterStage2 (s : State) : State :=
  { s with stage := .stage2, memMib := s.memBytes / 2 ^ 20,
           quiet := { s.quiet with g := 80, low := 0, clk := if s.therm then 16 else 80 } }

theorem exec_stage2Entry_of_all {s : State} (hs : s.stage = .stage1) (h : s.plan = .all) : exec .stage2Entry s =
    .next (State.enterStage2 { s with single := false, dies := if s.part.form = .bareDie then 1 else 15 }) := by
  show execStage2Entry s = _
  rw [execStage2Entry, if_neg (by simp [hs]), h]
  rfl

theorem exec_stage2Entry_of_single {s : State} {d : Nat} (hs : s.stage = .stage1) (h : s.plan = .single d) : exec .stage2Entry s =
    .next (State.enterStage2 { s with single := true, dies := BitVec.ofNat 4 (2 ^ d), err := if s.err = 0 then 4 else s.err,
                                      ucie := [] }) := by
  show execStage2Entry s = _
  rw [execStage2Entry, if_neg (by simp [hs]), h]
  rfl

theorem exec_stage2Entry_of_none {s : State} (hs : s.stage = .stage1) (h : s.plan = .none) : exec .stage2Entry s =
    .next (State.enterStage2 { s with single := false, dies := if s.part.form = .bareDie then 1 else 15 }) := by
  show execStage2Entry s = _
  rw [execStage2Entry, if_neg (by simp [hs]), h]
  rfl

theorem State.memBytes_of_whole {s : State} (h : s.single = false) :
    s.memBytes = 12 * s.part.form.dies * s.part.devices.granules * 2048 := by
  have : s.dieCount = s.part.form.dies := by simp only [State.dieCount, h]; cases s.part.form <;> rfl
  rw [State.memBytes, this]
theorem State.memBytes_of_single {s : State} (h : s.single = true) : s.memBytes = 12 * 1 * s.part.devices.granules * 2048 := by
  simp [State.memBytes, State.dieCount, h]

/-! ### The statements -/

/-- Stage 1 with a verified image, in the terms of its plan. -/
theorem stage1_of_verified {s : State} {r : StartReport} (hp : s.powered = true) (hs : s.stage = .priming)
    (he : s.err = 0) (hd : s.die.length = 4) (hr : r.dies.length = s.part.form.dies)
    (hv : imageError (s.fw.images.getD s.fw.active []) = none ∨ imageError (s.fw.images.getD (1 - s.fw.active) []) = none) :
    ∃ u : State, exec (.stage1 r) s = .next u.stage1From
      ∧ u.fw.active = (if imageError (s.fw.images.getD s.fw.active []) = none then s.fw.active else 1 - s.fw.active)
      ∧ u.part = s.part ∧ u.err = 0
      ∧ ∀ d, d < s.part.form.dies → ∃ x, r.dies[d]? = some x ∧ u.dieAt d = (s.dieAt d).reported s.part.form x := by
  obtain ⟨u, hu, hact, hpart, herr, hrep⟩ := exec_stage1_of_verified (r := r) hp hs he hd (Firmware.start_of_verified hv)
  refine ⟨u, hu, hact, hpart, herr, fun d hdd => ?_⟩
  have hdr : d < r.dies.length := hr.symm ▸ hdd
  exact ⟨r.dies[d], List.getElem?_eq_getElem hdr, hrep d _ hdd (List.getElem?_eq_getElem hdr)⟩

theorem stagedStart : Rules.StagedStart := by
  refine ⟨fun s hp => ?_, fun s r hp hs he hr hd => ?_, fun s hs => ?_⟩
  · show execPowerGood s = _
    simp [execPowerGood, done, hp]
  · intro fails ok mem
    refine ⟨fun e hA hB => ?_, fun hv => ?_⟩
    · exact exec_stage1_of_fails r hp hs he (Firmware.start_of_fails hA hB)
    · obtain ⟨u, hu, hact, hpart, herr, hrep⟩ := stage1_of_verified hp hs he hd hr hv
      have hwhole : ∀ d, d < s.part.form.dies → (u.dieAt d).whole = ok d := fun d hdd => by
        obtain ⟨x, hx, hux⟩ := hrep d hdd
        simp only [hux, Die.reported_whole, ok, hx]
      have hmem : ∀ d, d < s.part.form.dies → (u.dieAt d).memok = mem d := fun d hdd => by
        obtain ⟨x, hx, hux⟩ := hrep d hdd
        simp only [hux, Die.reported_memok, mem, hx]
      have hbroken : (∃ d, d < s.part.form.dies ∧ ok d = false) → ∃ d, d < u.part.form.dies ∧ (u.dieAt d).whole = false :=
        fun ⟨d, hdd, hok⟩ => ⟨d, by rwa [hpart], by rw [hwhole d hdd, hok]⟩
      have hpackage (hf : s.part.form ≠ .bareDie) : (u.dieAt 0).memok = mem 0 ∧ (u.dieAt 2).memok = mem 2 := by
        have h4 := Config.Form.dies_of_ne_bareDie hf
        exact ⟨hmem 0 (by omega), hmem 2 (by omega)⟩
      refine ⟨_, hu, by rw [u.stage1From_fw, hact], fun hall => ?_, fun hb hf hm => ?_, fun hb hm => ?_, fun d hdd => ?_⟩
      · rw [State.stage1From_of_all (State.plan_all fun d hdd => by rw [hpart] at hdd; rw [hwhole d hdd, hall d hdd])]
        exact ⟨rfl, herr⟩
      · rw [State.stage1From_of_single (State.plan_single (hbroken hb) (by rwa [hpart]) (by rwa [(hpackage hf).1, (hpackage hf).2]))]
        exact ⟨rfl, rfl⟩
      · rw [State.stage1From_of_none (State.plan_none (hbroken hb) ?_)]
        · exact ⟨rfl, rfl⟩
        · rw [hpart]
          by_cases hf : s.part.form = .bareDie
          · exact .inl hf
          · rw [(hpackage hf).1, (hpackage hf).2]
            exact hm
      · obtain ⟨x, hx, hux⟩ := hrep d hdd
        rw [State.stage1From_dieAt, hux, Die.reported_bank]
        exact ⟨by simp only [Die.reported_memok, mem, hx], fun h => ⟨x, hx, h⟩, fun ⟨y, hy, h⟩ => by
          rw [hx] at hy; cases hy; exact h⟩
  · intro n whole entered alone
    by_cases hw : whole
    · refine ⟨_, exec_stage2Entry_of_all hs (State.plan_all fun d hd => ?_), fun _ => ?_, fun h => absurd hw h, fun h => absurd hw h⟩
      · simp [Die.whole, hw d hd]
      · exact ⟨rfl, rfl, rfl, congrArg (· / 2 ^ 20) (State.memBytes_of_whole rfl), rfl, rfl, rfl, rfl, rfl, rfl⟩
    · have hb : ∃ d, d < n ∧ (s.dieAt d).whole = false := by
        simpa [whole, Die.whole, not_and, Classical.not_imp] using hw
      by_cases hone : s.part.form ≠ .bareDie ∧ ((s.dieAt 0).memok = true ∨ (s.dieAt 2).memok = true)
      · have hin (d : Nat) : entered (State.enterStage2 { s with single := true, dies := BitVec.ofNat 4 (2 ^ d), err := alone, ucie := [] })
            1 true (BitVec.ofNat 4 (2 ^ d)) alone :=
          ⟨rfl, rfl, rfl, congrArg (· / 2 ^ 20) (State.memBytes_of_single rfl), rfl, rfl, rfl, rfl, rfl, rfl⟩
        refine ⟨_, exec_stage2Entry_of_single hs (State.plan_single hb hone.1 hone.2), fun h => absurd h hw, fun _ _ h0 => ?_,
          fun _ _ h0 _ => ?_⟩
        · rw [h0]; exact hin 0
        · rw [h0]; exact hin 2
      · have hm : s.part.form = .bareDie ∨ (s.dieAt 0).memok = false ∧ (s.dieAt 2).memok = false := by
          simpa [not_and_or, Classical.or_iff_not_imp_left] using hone
        refine ⟨_, exec_stage2Entry_of_none hs (State.plan_none hb hm), fun h => absurd h hw,
          fun _ hf h0 => absurd ⟨hf, .inl h0⟩ hone, fun _ hf _ h2 => absurd ⟨hf, .inr h2⟩ hone⟩

theorem powerRemoved : Rules.PowerRemoved :=
  fun _ => ⟨_, rfl, rfl, rfl, rfl, rfl, rfl, rfl, rfl, rfl, rfl, rfl, rfl, rfl, rfl, rfl, rfl, rfl, rfl⟩

/-- Settles O42: Stage 1 is decided by the plan of R449 over what the dies report, the entry into Stage 2 by the same plan over what
the dies then hold. -/
theorem powerStages : Obligations.PowerStages := ⟨stagedStart, powerRemoved⟩

end Sys2Proof.Machine
end

section
/-!
SUPPORT. The register views (R438): an offset within a register names that register.
-/
namespace Sys2Proof.Machine

/-! ### Lists of registers -/

theorem regHere_eq_some {base off width : Nat} {r : Reg} {x : Reg × Nat} :
    regHere base off width r = some x ↔ base ≤ off ∧ off < base + width ∧ x = (r, base) := by
  unfold regHere
  split
  · rename_i h; simp [h, eq_comm]
  · rename_i h; simp only [reduceCtorEq, false_iff]; tauto

theorem mem_of_regIn {off : Nat} : ∀ {l : List (Nat × Nat × Reg)} {r : Reg} {b : Nat}, regIn off l = some (r, b) →
    ∃ w, (b, w, r) ∈ l ∧ b ≤ off ∧ off < b + w
  | [], _, _, h => by simp [regIn] at h
  | (b', w', r') :: l, r, b, h => by
    simp only [regIn] at h
    split at h
    · rename_i x hx
      obtain ⟨h1, h2, h3⟩ := regHere_eq_some.1 hx
      cases h
      cases h3
      exact ⟨w', by simp, h1, h2⟩
    · obtain ⟨w, hm, h1, h2⟩ := mem_of_regIn h
      exact ⟨w, by simp [hm], h1, h2⟩

theorem regIn_eq_none {off : Nat} {l : List (Nat × Nat × Reg)} (h : ∀ e ∈ l, e.1 ≤ off → e.1 + e.2.1 ≤ off) : regIn off l = none := by
  cases hr : regIn off l with
  | none => rfl
  | some x =>
    obtain ⟨w, hm, h1, h2⟩ := mem_of_regIn (r := x.1) (b := x.2) hr
    exact absurd (h _ hm h1) (Nat.not_le_of_lt h2)

/-- The registers of a list do not overlap. -/
def Apart (l : List (Nat × Nat × Reg)) : Prop := l.Pairwise fun e f => e.1 + e.2.1 ≤ f.1 ∨ f.1 + f.2.1 ≤ e.1

theorem regIn_of_mem {off : Nat} : ∀ {l : List (Nat × Nat × Reg)} {r : Reg} {b w : Nat}, Apart l → (b, w, r) ∈ l → b ≤ off →
    off < b + w → regIn off l = some (r, b)
  | [], _, _, _, _, h, _, _ => by simp at h
  | (b', w', r') :: l, r, b, w, ha, hm, h1, h2 => by
    obtain ⟨ha1, ha2⟩ := List.pairwise_cons.1 ha
    rcases List.mem_cons.1 hm with h | h
    · cases h
      simp only [regIn, regHere_eq_some.2 ⟨h1, h2, rfl⟩]
    · have hno : regHere b' off w' r' = none := by
        have := ha1 _ h
        refine if_neg ?_
        simp only at this
        omega
      simp only [regIn, hno]
      exact regIn_of_mem ha2 h h1 h2

/-- The bytes of a register, R438. -/
def Reg.width : Reg → Nat
  | .dieCores _ | .dieHalt _ | .vfMap _ _ | .mboxData _ | .invVa | .ptroot _ | .fqbase _ | .rfmtab _ | .lqBase _ _ | .sumpBase _
  | .traprec _ _ | .watch _ _ _ | .ueaddr _ | .apVbase _ => 8
  | .dwin _ o => match dwinField o with | some (_, w) => w | none => 4
  | _ => 4

/-- What a view names at `off` is named at every offset within it. -/
def Spans (view : Nat → Option (Reg × Nat)) (off : Nat) : Prop :=
  ∀ r b, view off = some (r, b) → b ≤ off ∧ off < b + r.width ∧ ∀ y, b ≤ y → y < b + r.width → view y = some (r, b)

/-- Registers within a range on which a view is a fixed list. -/
theorem spans_of_list {view : Nat → Option (Reg × Nat)} {lo hi off : Nat} (l : List (Nat × Nat × Reg))
    (hv : ∀ y, lo ≤ y → y < hi → view y = regIn y l) (ha : Apart l)
    (hl : ∀ e ∈ l, e.1 ≤ off → off < e.1 + e.2.1 → lo ≤ e.1 ∧ e.1 + e.2.1 ≤ hi ∧ e.2.2.width = e.2.1) (h1 : lo ≤ off) (h2 : off < hi) :
    Spans view off := by
  intro r b h
  rw [hv off h1 h2] at h
  obtain ⟨w, hm, hb, hb'⟩ := mem_of_regIn h
  obtain ⟨hlo, hhi, hw⟩ := hl _ hm hb hb'
  simp only at hlo hhi hw
  rw [hw]
  exact ⟨hb, hb', fun y hy hy' => by rw [hv y (by omega) (by omega)]; exact regIn_of_mem ha hm hy hy'⟩

/-! ### The blocks of the privileged view, R439 to R441 -/

theorem spans_of_none {view : Nat → Option (Reg × Nat)} {off : Nat} (h : view off = none) : Spans view off := by
  intro r b h'
  rw [h] at h'
  cases h'

/-- Registers given by their offsets from a place. -/
def placed (b : Nat) (l : List (Nat × Nat × Reg)) : List (Nat × Nat × Reg) := l.map fun e => (b + e.1, e.2)

theorem Apart.placed {l : List (Nat × Nat × Reg)} (h : Apart l) (b : Nat) : Apart (placed b l) :=
  List.pairwise_map.2 (h.imp fun {e f} hef => by simp only; omega)

/-- A row of `size` bytes at `b` in which a view is a fixed list. -/
theorem spans_of_row {view : Nat → Option (Reg × Nat)} {b size off : Nat} (l : List (Nat × Nat × Reg))
    (hv : ∀ y, b ≤ y → y < b + size → view y = regIn y (placed b l)) (h1 : b ≤ off) (h2 : off < b + size) (ha : Apart l)
    (hl : ∀ e ∈ l, e.1 + e.2.1 ≤ size ∧ e.2.2.width = e.2.1) : Spans view off := by
  refine spans_of_list _ hv (ha.placed b) (fun e he _ _ => ?_) h1 h2
  obtain ⟨e, he', rfl⟩ := List.mem_map.1 he
  have := hl e he'
  simp only
  omega

section
variable {off : Nat} (b size : Nat) (l : List (Nat × Nat × Reg))

theorem spans_device (hv : ∀ y, b ≤ y → y < b + size → deviceRegs y = placed b l) (h0 : b + size ≤ 0x1F0000 := by omega)
    (h1 : b ≤ off := by omega) (h2 : off < b + size := by omega) (ha : Apart l := by simp [Apart])
    (hl : ∀ e ∈ l, e.1 + e.2.1 ≤ size ∧ e.2.2.width = e.2.1 := by simp [Reg.width]) : Spans bar0Reg off :=
  spans_of_row l (fun y hy hy' => by rw [bar0Reg, if_pos (by omega), hv y hy hy']) h1 h2 ha hl

theorem spans_block (hv : ∀ y, b ≤ y → y < b + size → blockRegs y = placed b l) (h0 : 0x1F0000 ≤ b := by omega)
    (h0' : b + size ≤ 0x400000 := by omega) (h1 : b ≤ off := by omega) (h2 : off < b + size := by omega)
    (ha : Apart l := by simp [Apart]) (hl : ∀ e ∈ l, e.1 + e.2.1 ≤ size ∧ e.2.2.width = e.2.1 := by simp [Reg.width]) :
    Spans bar0Reg off :=
  spans_of_row l (fun y hy hy' => by rw [bar0Reg, if_neg (by omega), if_pos (by omega), hv y hy hy']) h1 h2 ha hl

end

theorem spans_device_head {off : Nat} (h : off < 0x40) : Spans bar0Reg off := by
  refine spans_device 0 0x40
    [(0, 4, .devId), (4, 4, .devStage), (8, 4, .devStatus), (0xC, 4, .mgmtSem), (0x10, 4, .quietClk), (0x14, 4, .quietPwr),
     (0x18, 4, .quietAct), (0x1C, 4, .quietStat), (0x20, 4, .devMemsz)]
    fun y hy hy' => ?_
  rw [deviceRegs, if_pos (by omega)]
  rfl

theorem spans_dies {off : Nat} (h1 : 0x40 ≤ off) (h2 : off < 0xC0) : Spans bar0Reg off := by
  obtain ⟨n, hn⟩ : ∃ n, n = (off - 0x40) / 0x20 := ⟨_, rfl⟩
  refine spans_device (0x40 + 0x20 * n) 0x20
    [(0, 8, .dieCores n), (8, 8, .dieHalt n), (0x10, 4, .dieStat n), (0x14, 4, .dieTemp n)]
    fun y hy hy' => ?_
  have hn' : (y - 0x40) / 0x20 = n := by omega
  simp only [deviceRegs, hn']
  rw [if_neg (by omega), if_pos (by omega)]
  rfl

theorem spans_vfMap {off : Nat} (h1 : 0xC0 ≤ off) (h2 : off < 0x1C0) : Spans bar0Reg off := by
  obtain ⟨n, hn⟩ : ∃ n, n = (off - 0xC0) / 0x10 := ⟨_, rfl⟩
  refine spans_device (0xC0 + 0x10 * n) 0x10
    [(0, 8, .vfMap n 0), (8, 8, .vfMap n 1)]
    fun y hy hy' => ?_
  have hn' : (y - 0xC0) / 0x10 = n := by omega
  simp only [deviceRegs, hn']
  rw [if_neg (by omega), if_neg (by omega), if_pos (by omega)]
  simp [placed]; omega

theorem spans_mboxCtl {off : Nat} (h1 : 0x1C0 ≤ off) (h2 : off < 0x1010) : Spans bar0Reg off := by
  refine spans_device 0x1C0 (0x1010 - 0x1C0) [(0x1000 - 0x1C0, 4, .mboxCtl)] fun y hy hy' => ?_
  rw [deviceRegs, if_neg (by omega), if_neg (by omega), if_neg (by omega), if_neg (by omega)]
  rfl

theorem spans_mboxData {off : Nat} (h1 : 0x1010 ≤ off) (h2 : off < 0x2000) : Spans bar0Reg off := by
  obtain ⟨n, hn⟩ : ∃ n, n = (off - 0x1010) / 8 := ⟨_, rfl⟩
  refine spans_device (0x1010 + 8 * n) 8
    [(0, 8, .mboxData n)]
    fun y hy hy' => ?_
  have hn' : (y - 0x1010) / 8 = n := by omega
  simp only [deviceRegs, hn']
  rw [if_neg (by omega), if_neg (by omega), if_neg (by omega), if_pos (by omega),
    show y / 8 * 8 = 0x1010 + 8 * n by omega]
  rfl

theorem spans_partWin {off : Nat} (h1 : 0x1F0000 ≤ off) (h2 : off < 0x1F0010) : Spans bar0Reg off := by
  obtain ⟨n, hn⟩ : ∃ n, n = (off - 0x1F0000) / 4 := ⟨_, rfl⟩
  refine spans_block (0x1F0000 + 4 * n) 4
    [(0, 4, .partWin n)]
    fun y hy hy' => ?_
  have hn' : (y - 0x1F0000) / 4 = n := by omega
  simp only [blockRegs, hn']
  rw [if_pos (by omega)]
  rfl

theorem spans_invalidation {off : Nat} (h1 : 0x1F0010 ≤ off) (h2 : off < 0x200000) : Spans bar0Reg off := by
  refine spans_block 0x1F0010 (0x200000 - 0x1F0010)
    [(0xF0, 8, .invVa), (0xF8, 4, .invCtl)]
    fun y hy hy' => ?_
  rw [blockRegs, if_neg (by omega), if_pos (by omega)]
  rfl

theorem spans_contexts {off : Nat} (h1 : 0x200000 ≤ off) (h2 : off < 0x201000) : Spans bar0Reg off := by
  obtain ⟨n, hn⟩ : ∃ n, n = (off - 0x200000) / 0x40 := ⟨_, rfl⟩
  refine spans_block (0x200000 + 0x40 * n) 0x40
    [(0, 8, .ptroot n), (8, 4, .ctrl n), (0xC, 4, .status n), (0x10, 8, .fqbase n), (0x18, 4, .fqsize n), (0x1C, 4, .replay n),
     (0x20, 8, .rfmtab n)]
    fun y hy hy' => ?_
  have hn' : (y - 0x200000) / 0x40 = n := by omega
  simp only [blockRegs, hn']
  rw [if_neg (by omega), if_neg (by omega), if_pos (by omega)]
  rfl

/-- R201: four queues of a context, and room for four more. -/
theorem spans_queues {off : Nat} (h1 : 0x210000 ≤ off) (h2 : off < 0x214000) : Spans bar0Reg off := by
  obtain ⟨n, hn⟩ : ∃ n, n = (off - 0x210000) / 0x20 := ⟨_, rfl⟩
  have hrow (y : Nat) (hy : 0x210000 + 0x20 * n ≤ y) (hy' : y < 0x210000 + 0x20 * n + 0x20) : blockRegs y =
      if n % 8 < 4 then placed (0x210000 + 0x20 * n)
        [(0, 8, .lqBase (n / 8) (n % 8)), (8, 4, .lqCtl (n / 8) (n % 8)), (0xC, 4, .lqStatus (n / 8) (n % 8))] else [] := by
    have hm : (y - 0x210000) / 0x100 = n / 8 := by omega
    have hq : (y - 0x210000) % 0x100 / 0x20 = n % 8 := by omega
    have hb : 0x210000 + 0x100 * (n / 8) + 0x20 * (n % 8) = 0x210000 + 0x20 * n := by omega
    simp only [blockRegs, hm, hq, hb]
    rw [if_neg (by omega), if_neg (by omega), if_neg (by omega), if_pos (by omega)]
    rfl
  by_cases h4 : n % 8 < 4
  · exact spans_block (0x210000 + 0x20 * n) 0x20 _ fun y hy hy' => (hrow y hy hy').trans (if_pos h4)
  · exact spans_block (0x210000 + 0x20 * n) 0x20 [] fun y hy hy' => (hrow y hy hy').trans (if_neg h4)

theorem spans_sumps {off : Nat} (h1 : 0x220000 ≤ off) (h2 : off < 0x220800) : Spans bar0Reg off := by
  obtain ⟨n, hn⟩ : ∃ n, n = (off - 0x220000) / 0x20 := ⟨_, rfl⟩
  refine spans_block (0x220000 + 0x20 * n) 0x20
    [(0, 8, .sumpBase n), (8, 4, .sumpCtl n), (0x10, 4, .sumpHead n), (0x14, 4, .sumpTail n)]
    fun y hy hy' => ?_
  have hn' : (y - 0x220000) / 0x20 = n := by omega
  simp only [blockRegs, hn']
  rw [if_neg (by omega), if_neg (by omega), if_neg (by omega), if_neg (by omega), if_pos (by omega)]
  rfl

theorem spans_sluices {off : Nat} (h1 : 0x230000 ≤ off) (h2 : off < 0x230100) : Spans bar0Reg off := by
  obtain ⟨n, hn⟩ : ∃ n, n = (off - 0x230000) / 0x40 := ⟨_, rfl⟩
  refine spans_block (0x230000 + 0x40 * n) 0x40
    [(0, 4, .sluiceCtl n), (4, 4, .sluiceHint n 0), (8, 4, .sluiceHint n 1), (0xC, 4, .sluiceHint n 2)]
    fun y hy hy' => ?_
  have hn' : (y - 0x230000) / 0x40 = n := by omega
  simp only [blockRegs, hn']
  rw [if_neg (by omega), if_neg (by omega), if_neg (by omega), if_neg (by omega), if_neg (by omega), if_pos (by omega)]
  rfl

theorem spans_manifolds {off : Nat} (h1 : 0x230200 ≤ off) (h2 : off < 0x230210) : Spans bar0Reg off := by
  obtain ⟨n, hn⟩ : ∃ n, n = (off - 0x230200) / 4 := ⟨_, rfl⟩
  refine spans_block (0x230200 + 4 * n) 4
    [(0, 4, .mfldWin n)]
    fun y hy hy' => ?_
  have hn' : (y - 0x230200) / 4 = n := by omega
  simp only [blockRegs, hn']
  rw [if_neg (by omega), if_neg (by omega), if_neg (by omega), if_neg (by omega), if_neg (by omega), if_neg (by omega),
    if_pos (by omega)]
  rfl

theorem spans_traps {off : Nat} (h1 : 0x240000 ≤ off) (h2 : off < 0x242000) : Spans bar0Reg off := by
  obtain ⟨n, hn⟩ : ∃ n, n = (off - 0x240000) / 0x80 := ⟨_, rfl⟩
  refine spans_block (0x240000 + 0x80 * n) 0x80
    [(0, 4, .trapctl n), (4, 4, .trapcmd n), (8, 4, .trapstat n), (0xC, 4, .prectl n), (0x14, 4, .savesz n),
     (0x18, 4, .savebase n), (0x20, 8, .traprec n 0), (0x28, 8, .traprec n 1), (0x30, 8, .traprec n 2),
     (0x38, 8, .traprec n 3), (0x40, 8, .watch n 0 0), (0x48, 8, .watch n 0 1), (0x50, 8, .watch n 1 0),
     (0x58, 8, .watch n 1 1), (0x60, 8, .watch n 2 0), (0x68, 8, .watch n 2 1), (0x70, 8, .watch n 3 0),
     (0x78, 8, .watch n 3 1)]
    fun y hy hy' => ?_
  have hn' : (y - 0x240000) / 0x80 = n := by omega
  simp only [blockRegs, hn']
  rw [if_neg (by omega), if_neg (by omega), if_neg (by omega), if_neg (by omega), if_neg (by omega), if_neg (by omega),
    if_neg (by omega), if_pos (by omega)]
  rfl

theorem spans_channels {off : Nat} (h1 : 0x300000 ≤ off) (h2 : off < 0x300600) : Spans bar0Reg off := by
  obtain ⟨n, hn⟩ : ∃ n, n = (off - 0x300000) / 0x20 := ⟨_, rfl⟩
  refine spans_block (0x300000 + 0x20 * n) 0x20
    [(0, 4, .chstat n), (4, 4, .chctl n), (8, 8, .ueaddr n), (0x10, 4, .baerr n)]
    fun y hy hy' => ?_
  have hn' : (y - 0x300000) / 0x20 = n := by omega
  simp only [blockRegs, hn']
  rw [if_neg (by omega), if_neg (by omega), if_neg (by omega), if_neg (by omega), if_neg (by omega), if_neg (by omega),
    if_neg (by omega), if_neg (by omega), if_pos (by omega)]
  rfl

theorem spans_deviceRegs {off : Nat} (h : off < 0x1F0000) : Spans bar0Reg off := by
  rcases Nat.lt_or_ge off 0x40 with h0 | h0
  · exact spans_device_head h0
  rcases Nat.lt_or_ge off 0xC0 with h1 | h1
  · exact spans_dies h0 h1
  rcases Nat.lt_or_ge off 0x1C0 with h2 | h2
  · exact spans_vfMap h1 h2
  rcases Nat.lt_or_ge off 0x1010 with h3 | h3
  · exact spans_mboxCtl h2 h3
  rcases Nat.lt_or_ge off 0x2000 with h4 | h4
  · exact spans_mboxData h3 h4
  refine spans_of_none ?_
  rw [bar0Reg, if_pos h, deviceRegs, if_neg (by omega), if_neg (by omega), if_neg (by omega), if_neg (by omega)]
  exact regIn_eq_none (by simp; omega)

theorem spans_blockRegs {off : Nat} (h : 0x1F0000 ≤ off) (h' : off < 0x400000) : Spans bar0Reg off := by
  have gap (h : blockRegs off = []) : Spans bar0Reg off :=
    spans_of_none (by rw [bar0Reg, if_neg (by omega), if_pos h', h]; rfl)
  rcases Nat.lt_or_ge off 0x1F0010 with h0 | h0
  · exact spans_partWin h h0
  rcases Nat.lt_or_ge off 0x200000 with h1 | h1
  · exact spans_invalidation h0 h1
  rcases Nat.lt_or_ge off 0x201000 with h2 | h2
  · exact spans_contexts h1 h2
  by_cases h3 : 0x210000 ≤ off ∧ off < 0x214000
  · exact spans_queues h3.1 h3.2
  by_cases h4 : 0x220000 ≤ off ∧ off < 0x220800
  · exact spans_sumps h4.1 h4.2
  by_cases h5 : 0x230000 ≤ off ∧ off < 0x230100
  · exact spans_sluices h5.1 h5.2
  by_cases h6 : 0x230200 ≤ off ∧ off < 0x230210
  · exact spans_manifolds h6.1 h6.2
  by_cases h7 : 0x240000 ≤ off ∧ off < 0x242000
  · exact spans_traps h7.1 h7.2
  by_cases h8 : 0x300000 ≤ off ∧ off < 0x300600
  · exact spans_channels h8.1 h8.2
  exact gap (by
    rw [blockRegs, if_neg (by omega), if_neg (by omega), if_neg (by omega), if_neg h3, if_neg h4, if_neg h5, if_neg h6,
      if_neg h7, if_neg h8])

/-! ### The debug windows, R424 -/

theorem dwinField_spans {o f w : Nat} (h : dwinField o = some (f, w)) :
    0x800 ≤ f ∧ f ≤ o ∧ o < f + w ∧ f + w ≤ 0x2000 ∧ ∀ y, f ≤ y → y < f + w → dwinField y = some (f, w) := by
  unfold dwinField at h
  split_ifs at h with h1 h2 h3 h4 h5 h6 <;> obtain ⟨rfl, rfl⟩ := Prod.mk.inj (Option.some.inj h) <;>
    refine ⟨by omega, by omega, by omega, by omega, fun y hy hy' => ?_⟩ <;> unfold dwinField
  · rw [if_pos (by omega), show y / 4 * 4 = o / 4 * 4 by omega]
  · rw [if_neg (by omega), if_pos (by omega), show y / 8 * 8 = o / 8 * 8 by omega]
  · rw [if_neg (by omega), if_neg (by omega), if_pos (by omega), show y / 4 * 4 = o / 4 * 4 by omega]
  · rw [if_neg (by omega), if_neg (by omega), if_neg (by omega), if_pos (by omega), show y / 8 * 8 = o / 8 * 8 by omega]
  · rw [if_neg (by omega), if_neg (by omega), if_neg (by omega), if_neg (by omega), if_pos (by omega), show y / 4 * 4 = o / 4 * 4 by omega]
  · rw [if_neg (by omega), if_neg (by omega), if_neg (by omega), if_neg (by omega), if_neg (by omega), if_pos (by omega),
      show y / 8 * 8 = o / 8 * 8 by omega]

theorem dwinField_of_lt {o : Nat} (h : o < 0x800) : dwinField o = none := by
  cases hf : dwinField o with
  | none => rfl
  | some x => have := dwinField_spans (f := x.1) (w := x.2) hf; omega

/-- The registers of a core's debug block that select what its window shows. -/
def dwinSelect (gc : Nat) : List (Nat × Nat × Reg) :=
  [(0x400000 + 0x2000 * gc, 4, .dwinSel gc), (0x400000 + 0x2000 * gc + 4, 4, .dwinBase gc), (0x400000 + 0x2000 * gc + 8, 4, .dwinStat gc)]

theorem bar0Reg_debug {gc o : Nat} (hgc : gc < 192) (ho : o < 0x2000) : bar0Reg (0x400000 + 0x2000 * gc + o) =
    regIn (0x400000 + 0x2000 * gc + o) (dwinSelect gc
      ++ (match dwinField o with | some (f, w) => [(0x400000 + 0x2000 * gc + f, w, .dwin gc f)] | none => [])) := by
  have hn : (0x400000 + 0x2000 * gc + o - 0x400000) / 0x2000 = gc := by omega
  rw [bar0Reg, if_neg (by omega), if_neg (by omega), if_pos (by omega)]
  simp only [debugRegs, hn, Nat.add_sub_cancel_left]
  rfl

theorem bar0Reg_dwinSelect {gc o : Nat} (hgc : gc < 192) (ho : o < 0x800) :
    bar0Reg (0x400000 + 0x2000 * gc + o) = regIn (0x400000 + 0x2000 * gc + o) (dwinSelect gc) := by
  rw [bar0Reg_debug hgc (by omega), dwinField_of_lt ho]
  exact congrArg _ (List.append_nil _)

theorem bar0Reg_dwinField {gc o f w : Nat} (hgc : gc < 192) (ho : o < 0x2000) (h : dwinField o = some (f, w)) :
    bar0Reg (0x400000 + 0x2000 * gc + o) = regIn (0x400000 + 0x2000 * gc + o) [(0x400000 + 0x2000 * gc + f, w, .dwin gc f)] := by
  obtain ⟨h1, h2, -⟩ := dwinField_spans h
  have hno {b : Nat} (hb : b + 4 ≤ 0x400000 + 0x2000 * gc + o) (r : Reg) : regHere b (0x400000 + 0x2000 * gc + o) 4 r = none :=
    if_neg (by omega)
  rw [bar0Reg_debug hgc ho, h]
  simp only [dwinSelect, List.cons_append, List.nil_append, regIn]
  rw [hno (by omega), hno (by omega), hno (by omega)]

theorem spans_debug {off : Nat} (h : 0x400000 ≤ off) (h' : off < 0x580000) : Spans bar0Reg off := by
  obtain ⟨gc, o, hgc, ho, rfl⟩ : ∃ gc o, gc < 192 ∧ o < 0x2000 ∧ off = 0x400000 + 0x2000 * gc + o :=
    ⟨(off - 0x400000) / 0x2000, (off - 0x400000) % 0x2000, by omega, by omega, by omega⟩
  rcases Nat.lt_or_ge o 0x800 with h0 | h0
  · refine spans_of_list (lo := 0x400000 + 0x2000 * gc) (hi := 0x400000 + 0x2000 * gc + 0x800) (dwinSelect gc) (fun y hy hy' => ?_)
      ?_ ?_ (by omega) (by omega)
    · obtain ⟨k, rfl⟩ := Nat.exists_eq_add_of_le hy
      exact bar0Reg_dwinSelect hgc (by omega)
    · simp [Apart, dwinSelect]
    · simp [Reg.width, dwinSelect]
  · cases hf : dwinField o with
    | none =>
      refine spans_of_none ?_
      rw [bar0Reg_debug hgc ho, hf]
      exact regIn_eq_none (by simp [dwinSelect]; omega)
    | some x =>
      obtain ⟨f, w⟩ := x
      obtain ⟨h1, h2, h3, h4, h5⟩ := dwinField_spans hf
      have hw : (Reg.dwin gc f).width = w := by simp only [Reg.width, h5 f (Nat.le_refl f) (by omega)]
      refine spans_of_list (lo := 0x400000 + 0x2000 * gc + f) (hi := 0x400000 + 0x2000 * gc + f + w)
        [(0x400000 + 0x2000 * gc + f, w, .dwin gc f)] (fun y hy hy' => ?_) ?_ ?_ (by omega) (by omega)
      · obtain ⟨k, rfl⟩ := Nat.exists_eq_add_of_le hy
        rw [Nat.add_assoc _ f k]
        exact bar0Reg_dwinField hgc (by omega) (h5 _ (by omega) (by omega))
      · simp [Apart]
      · simp [hw]

theorem spans_bar0 (off : Nat) : Spans bar0Reg off := by
  rcases Nat.lt_or_ge off 0x1F0000 with h0 | h0
  · exact spans_deviceRegs h0
  rcases Nat.lt_or_ge off 0x400000 with h1 | h1
  · exact spans_blockRegs h0 h1
  rcases Nat.lt_or_ge off 0x580000 with h2 | h2
  · exact spans_debug h1 h2
  exact spans_of_none (by rw [bar0Reg, if_neg (by omega), if_neg (by omega), if_neg (by omega)])

/-! ### The context pages, R442 -/

theorem regIn_shift (base off : Nat) : ∀ l : List (Nat × Nat × Reg), regIn (base + off) (placed base l) =
    (regIn off l).map fun r => (r.1, base + r.2)
  | [] => rfl
  | (b, w, r) :: l => by
    show regIn (base + off) ((base + b, w, r) :: placed base l) = _
    simp only [regIn, regIn_shift base off l, regHere]
    by_cases h : b ≤ off ∧ off < b + w
    · rw [if_pos h, if_pos (by omega)]; rfl
    · rw [if_neg h, if_neg (by omega)]

/-- The registers of a context page near an offset of it. -/
def pageRegs (n o : Nat) : List (Nat × Nat × Reg) :=
  if 0x100 ≤ o ∧ o < 0x120 then
    [(0x100 + 8 * ((o - 0x100) / 8), 4, .lqTail n ((o - 0x100) / 8)), (0x104 + 8 * ((o - 0x100) / 8), 4, .lqHead n ((o - 0x100) / 8))]
  else [(0, 4, .pageStatus n), (8, 4, .fqHead n), (0xC, 4, .fqTail n), (0x200, 8, .apVbase n)]

theorem pageReg_eq (n base o : Nat) : pageReg n base (base + o) =
    regIn (base + o) (placed base (pageRegs n o)) := by
  rw [regIn_shift, pageReg, Nat.add_sub_cancel_left, pageRegs]
  by_cases h : 0x100 ≤ o ∧ o < 0x120
  · rw [regIn_eq_none (by simp; omega), if_pos h, if_pos h]
    rfl
  · rw [if_neg h, if_neg h]
    cases regIn o _ <;> rfl

/-- The view of BAR2 by a physical function. -/
def bar2Reg (off : Nat) : Option (Reg × Nat) := if off < 0x40000 then pageReg (off / 4096) (off / 4096 * 4096) off else none

theorem bar2Reg_eq {n o : Nat} (hn : n < 64) (ho : o < 4096) :
    bar2Reg (4096 * n + o) = regIn (4096 * n + o) (placed (4096 * n) (pageRegs n o)) := by
  rw [bar2Reg, if_pos (by omega), show (4096 * n + o) / 4096 = n by omega, Nat.mul_comm n, pageReg_eq]

theorem spans_bar2 (off : Nat) : Spans bar2Reg off := by
  rcases Nat.lt_or_ge off 0x40000 with h | h
  swap
  · exact spans_of_none (if_neg (by omega))
  obtain ⟨n, o, hn, ho, rfl⟩ : ∃ n o, n < 64 ∧ o < 4096 ∧ off = 4096 * n + o :=
    ⟨off / 4096, off % 4096, by omega, by omega, by omega⟩
  have page (lo hi : Nat) (hlo : lo ≤ o) (hhi : o < hi) (h4 : hi ≤ 4096)
      (hr : ∀ k, lo ≤ k → k < hi → pageRegs n k = pageRegs n o)
      (ha : Apart (pageRegs n o))
      (hl : ∀ e ∈ pageRegs n o, e.1 ≤ o → o < e.1 + e.2.1 → lo ≤ e.1 ∧ e.1 + e.2.1 ≤ hi ∧ e.2.2.width = e.2.1) :
      Spans bar2Reg (4096 * n + o) := by
    refine spans_of_list (lo := 4096 * n + lo) (hi := 4096 * n + hi) (placed (4096 * n) (pageRegs n o))
      (fun y hy hy' => ?_) (ha.placed _) (fun e he h1 h2 => ?_) (by omega) (by omega)
    · obtain ⟨k, rfl⟩ : ∃ k, y = 4096 * n + k := ⟨y - 4096 * n, by omega⟩
      rw [bar2Reg_eq hn (by omega), hr k (by omega) (by omega)]
    · obtain ⟨e, he', rfl⟩ := List.mem_map.1 he
      have := hl e he' (by simp only at h1; omega) (by simp only at h2; omega)
      simp only
      omega
  by_cases hq : 0x100 ≤ o ∧ o < 0x120
  · refine page (0x100 + 8 * ((o - 0x100) / 8)) (0x108 + 8 * ((o - 0x100) / 8)) (by omega) (by omega) (by omega) (fun k h1 h2 => ?_) ?_ ?_
    · rw [pageRegs, pageRegs, if_pos hq, if_pos (by omega), show (k - 0x100) / 8 = (o - 0x100) / 8 by omega]
    · rw [pageRegs, if_pos hq]; simp [Apart]; omega
    · rw [pageRegs, if_pos hq]; simp [Reg.width]; omega
  · obtain ⟨lo, hi, hlo, hhi, hb⟩ : ∃ lo hi, lo ≤ o ∧ o < hi ∧ (lo = 0 ∧ hi = 0x100 ∨ lo = 0x120 ∧ hi = 4096) := by
      rcases Nat.lt_or_ge o 0x100 with h1 | h1
      · exact ⟨0, 0x100, by omega, h1, .inl ⟨rfl, rfl⟩⟩
      · exact ⟨0x120, 4096, by omega, ho, .inr ⟨rfl, rfl⟩⟩
    refine page lo hi hlo hhi (by omega) (fun k h1 h2 => ?_) ?_ ?_
    · rw [pageRegs, pageRegs, if_neg hq, if_neg (by omega)]
    · rw [pageRegs, if_neg hq]; simp [Apart]
    · rw [pageRegs, if_neg hq]; simp [Reg.width]; omega

theorem State.reach_port (s : State) (p : Port) (bar : Bar) :
    s.reach (.port p) bar = match bar with | .bar0 => bar0Reg | .bar2 => bar2Reg := by cases bar <;> rfl

/-- R438: what a physical function reaches at an offset, it reaches at every offset of that register. -/
theorem State.reach_spans (s : State) (p : Port) (bar : Bar) (off : Nat) : Spans (s.reach (.port p) bar) off := by
  rw [s.reach_port]
  cases bar with
  | bar0 => exact spans_bar0 off
  | bar2 => exact spans_bar2 off

/-- The invalidation interface of a port stands in no context page (R36, R442). -/
theorem pageReg_ne_invVa {n base off : Nat} {r : Reg × Nat} (hb : base ≤ off) (h : pageReg n base off = some r) : r.1 ≠ .invVa := by
  obtain ⟨o, rfl⟩ := Nat.exists_eq_add_of_le hb
  rw [pageReg_eq] at h
  obtain ⟨w, hm, -, -⟩ := mem_of_regIn (r := r.1) (b := r.2) h
  intro he
  rw [he, pageRegs] at hm
  split at hm <;> simp [placed] at hm

theorem State.not_vf_of_reach_invVa {s : State} {by_ : Agent} {bar : Bar} {off b : Nat} (h : s.reach by_ bar off = some (.invVa, b)) :
    ∀ p v, by_ ≠ .vf p v := by
  rintro p v rfl
  cases bar with
  | bar0 => cases h
  | bar2 =>
    simp only [State.reach] at h
    split at h
    · split at h
      · exact pageReg_ne_invVa (by omega) h rfl
      · cases h
    · cases h

end Sys2Proof.Machine
end

section
/-!
SUPPORT. A host's write that reaches one register (R10, R438, R439, R442): what it makes of each register that holds what is written,
and of each W1C bit.
-/
namespace Sys2Proof

/-! ### Bits of a write as they stand at a register, R438 -/

theorem Wr.at_by (w : Wr) (off base : Nat) : (w.at_ off base).by_ = w.by_ := by unfold Wr.at_; split <;> rfl

theorem Wr.at_en (w : Wr) (off base p : Nat) : (w.at_ off base).en.getLsbD p =
    (decide (p < 8 ∧ off ≤ base + p) && w.en.getLsbD (base + p - off)) := by
  unfold Wr.at_
  split
  · rename_i h
    rw [BitVec.getLsbD_shiftLeft, show base + p - off = p - (off - base) by omega, Bool.eq_iff_iff]
    simp; omega
  · rename_i h
    rw [BitVec.getLsbD_ushiftRight, show base - off + p = base + p - off by omega]
    by_cases hp : p < 8
    · simp [hp]; omega
    · rw [BitVec.getLsbD_of_ge _ _ (by omega)]; simp

theorem Wr.at_data (w : Wr) (off base k : Nat) (hk : k < 64) : (w.at_ off base).data.getLsbD k =
    (decide (8 * off ≤ 8 * base + k) && w.data.getLsbD (8 * base + k - 8 * off)) := by
  unfold Wr.at_
  split
  · rename_i h
    rw [BitVec.getLsbD_shiftLeft, show 8 * base + k - 8 * off = k - 8 * (off - base) by omega, Bool.eq_iff_iff]
    simp [hk]; omega
  · rename_i h
    rw [BitVec.getLsbD_ushiftRight, show 8 * (base - off) + k = 8 * base + k - 8 * off by omega]
    simp; omega

/-- A W1C bit or an action is written as 1 at the register where the request writes it as 1. -/
theorem Wr.one_at_iff (w : Wr) (off base k : Nat) (hk : k < 64) : (w.at_ off base).one k = true ↔ Rules.puts w off base k := by
  simp only [Wr.one, Wr.at_en, Wr.at_data w off base k hk, Rules.puts, Bool.and_eq_true, decide_eq_true_eq]
  rw [show base + k / 8 - off = (8 * base + k) / 8 - off by omega,
    show (k / 8 < 8 ∧ off ≤ base + k / 8) ↔ 8 * off ≤ 8 * base + k by omega]
  tauto

/-- A bit known to be written as 1 just where `b` holds. -/
theorem Wr.one_at_eq {w : Wr} {off base k : Nat} {b : Bool} (hk : k < 64) (h : b = true ↔ Rules.puts w off base k) :
    (w.at_ off base).one k = b := by
  rw [Bool.eq_iff_iff, Wr.one_at_iff w off base k hk, h]

/-- R438: the value that `merges` describes is the one that the write leaves. -/
theorem Wr.onto_of_merges {w : Wr} {off base mask old x : Nat} (ho : old < 2 ^ 64) (hm : mask < 2 ^ 64)
    (h : Rules.merges w off base mask old x) : (w.at_ off base).onto old mask = x := by
  refine Wr.onto_of_bits w off base mask old x ho hm h.1 fun k hk => ?_
  rw [h.2 k hk, show (8 * base + k) / 8 - off = base + k / 8 - off by omega,
    show decide (8 * off ≤ 8 * base + k) = decide (off ≤ base + k / 8) by rw [decide_eq_decide]; omega]
  split
  · rename_i hc
    simp only [Bool.and_eq_true, decide_eq_true_eq] at hc
    rw [show 8 * base + k - 8 * off = 8 * (base + k / 8 - off) + k % 8 by omega]
  · rfl

end Sys2Proof
namespace Sys2Proof.Machine

/-! ### The registers that a write reaches -/

theorem eraseDups_eq_singleton {α : Type} [BEq α] [LawfulBEq α] {l : List α} {a : α} (hne : l ≠ []) (h : ∀ x ∈ l, x = a) :
    l.eraseDups = [a] := by
  cases l with
  | nil => exact absurd rfl hne
  | cons b r =>
    have hf : r.filter (fun x => !x == a) = [] := by
      rw [List.filter_eq_nil_iff]
      intro x hx
      simp [h x (by simp [hx])]
    rw [List.eraseDups_cons, h b (by simp), hf]
    rfl

theorem State.mem_covered {s : State} {by_ : Agent} {bar : Bar} {off n : Nat} {named : Nat → Bool} {r : Reg × Nat} :
    r ∈ s.covered by_ bar off named n ↔ ∃ k, k < n ∧ named k = true ∧ s.reach by_ bar (off + k) = some r := by
  simp only [State.covered, List.mem_eraseDups, List.mem_filterMap, List.mem_range]
  refine exists_congr fun k => and_congr_right fun _ => ?_
  split <;> simp [*]

theorem State.covered_eq_nil {s : State} {by_ : Agent} {bar : Bar} {off n : Nat} {named : Nat → Bool}
    (h : ∀ k, k < n → named k = true → s.reach by_ bar (off + k) = none) : s.covered by_ bar off named n = [] := by
  rw [List.eq_nil_iff_forall_not_mem]
  intro r hr
  obtain ⟨k, hk, hn, hr⟩ := State.mem_covered.1 hr
  rw [h k hk hn] at hr
  cases hr

theorem State.covered_eq_singleton {s : State} {by_ : Agent} {bar : Bar} {off n : Nat} {named : Nat → Bool} {r : Reg × Nat}
    (h1 : ∃ k, k < n ∧ named k = true ∧ s.reach by_ bar (off + k) = some r)
    (h : ∀ k, k < n → named k = true → s.reach by_ bar (off + k) = none ∨ s.reach by_ bar (off + k) = some r) :
    s.covered by_ bar off named n = [r] := by
  obtain ⟨k, hk, hn, hr⟩ := h1
  refine eraseDups_eq_singleton (List.ne_nil_of_mem (a := r) ?_) fun x hx => ?_
  · rw [List.mem_filterMap]
    exact ⟨k, List.mem_range.2 hk, by simp [hn, hr]⟩
  · obtain ⟨j, hj, hnj, hxj⟩ := State.mem_covered.1 (List.mem_eraseDups.2 hx)
    rcases h j hj hnj with h | h
    · rw [h] at hxj; cases hxj
    · rw [h] at hxj; exact (Option.some.inj hxj).symm

/-- A write that reaches one register and no other. -/
theorem exec_registerWrite_single {s : State} {bar : Bar} {off : Nat} {w : Wr} {r : Reg} {base : Nat}
    (ha : s.answers w.by_ r = true)
    (h1 : ∃ k, k < 8 ∧ w.en.getLsbD k = true ∧ s.reach w.by_ bar (off + k) = some (r, base))
    (h : ∀ k, k < 8 → w.en.getLsbD k = true → s.reach w.by_ bar (off + k) = none ∨ s.reach w.by_ bar (off + k) = some (r, base)) :
    exec (.registerWrite bar off w) s = .next (s.writeReg w.by_ (w.at_ off base) r) := by
  show execRegisterWrite bar off w s = _
  rw [execRegisterWrite, State.writeUnit, State.covered_eq_singleton h1 h]
  simp [done, ha]

/-! ### Registers that hold what is written -/

theorem updAt_eq_set {α : Type} (l : List α) (i : Nat) (f : α → α) (d : α) : updAt l i f = l.set i (f (l.getD i d)) :=
  (updAt_congr (g := fun _ => f (l.getD i d)) d fun _ => rfl).trans (updAt_const ..)
theorem State.updDie_congr {s : State} {d : Nat} {f g : Die → Die} (h : f (s.dieAt d) = g (s.dieAt d)) : s.updDie d f = s.updDie d g := by
  simp only [State.updDie]
  rw [updAt_congr _ fun _ => h]
theorem State.updPort_congr {s : State} {p : Port} {f g : PortState → PortState} (h : f (s.portAt p) = g (s.portAt p)) :
    s.updPort p f = s.updPort p g := by
  simp only [State.updPort]
  rw [updAt_congr _ fun _ => h]
theorem State.updCore_congr {s : State} {c : Nat} {f g : CoreState → CoreState} (h : f (s.coreAt c) = g (s.coreAt c)) :
    s.updCore c f = s.updCore c g := by
  simp only [State.updCore, h]
theorem State.updLQ_congr {s : State} {n q : Nat} {f g : LQ → LQ}
    (h : f ((s.ctxAt n).lq.getD q {}) = g ((s.ctxAt n).lq.getD q {})) : s.updLQ n q f = s.updLQ n q g := by
  refine State.updCtx_congr fun _ => ?_
  rw [updAt_congr _ fun _ => h]
theorem State.updLQ_id (s : State) (n q : Nat) : s.updLQ n q (fun x => x) = s := by
  simp only [State.updLQ, State.updCtx, updAt_id]
theorem anew_eq_retake (y : LQ) : Rules.anew y = y.retake := by
  cases y with | mk base ctl err ecode erridx tail head taking waitOn =>
  cases taking <;> rfl

theorem bits_low (x : Nat) : bits x 63 0 = x % 2 ^ 64 := by simp [bits]
theorem bits_high {x : Nat} (h : x < 2 ^ 128) : bits x 127 64 = x / 2 ^ 64 := by
  rw [bits]; exact Nat.mod_eq_of_lt (by omega)
theorem setBits_low (x : Nat) {v : Nat} (h : v < 2 ^ 64) : setBits x 63 0 v = x / 2 ^ 64 * 2 ^ 64 + v := by
  simp only [setBits, bits_low]; omega
theorem setBits_high {x v : Nat} (hx : x < 2 ^ 128) (h : v < 2 ^ 64) : setBits x 127 64 v = v * 2 ^ 64 + x % 2 ^ 64 := by
  simp only [setBits, bits_high hx]; omega

section
variable {w : Wr} {mask mask' old old' x : Nat} {takes b : Bool} {become become' : Nat → State} {s t : State}

/-- A register that takes every write. -/
theorem eq_of_open (h : some (mask', true, old', become') = some (mask, takes, old, become))
    (hx : old < 2 ^ 64 → mask < 2 ^ 64 → w.onto old mask = x) (ho : old' < 2 ^ 64) (hm : mask' < 2 ^ 64)
    (ht : t = become' (w.onto old' mask')) : t = if takes then become x else s := by
  cases h
  rw [if_pos rfl, ← hx ho hm, ht]

/-- A register that takes writes while `b` holds. -/
theorem eq_of_gate (h : some (mask', b, old', become') = some (mask, takes, old, become))
    (hx : old < 2 ^ 64 → mask < 2 ^ 64 → w.onto old mask = x) (ho : old' < 2 ^ 64) (hm : mask' < 2 ^ 64)
    (ht : b = true → t = become' (w.onto old' mask')) (hs : b = false → t = s) : t = if takes then become x else s := by
  cases h
  cases takes with
  | true => rw [if_pos rfl, ← hx ho hm, ht rfl]
  | false => exact hs rfl

end

theorem toNat_lt {n : Nat} (x : BitVec n) (h : n ≤ 64 := by decide) : x.toNat < 2 ^ 64 :=
  Nat.lt_of_lt_of_le x.isLt (Nat.pow_le_pow_right (by decide) h)

theorem State.whenOff_of_off {s : State} {n : Nat} (f : Ctx → Ctx) (h : (!(s.ctxAt n).en) = true) : s.whenOff n f = s.updCtx n f :=
  if_neg (by simpa using h)
theorem State.whenOff_of_on {s : State} {n : Nat} (f : Ctx → Ctx) (h : (!(s.ctxAt n).en) = false) : s.whenOff n f = s :=
  if_pos (by simpa using h)
theorem State.gated_of_holds {s : State} {by_ : Agent} (t : State) (h : s.holdsSem by_ = true) : s.gated by_ t = t := if_pos h
theorem State.gated_of_not {s : State} {by_ : Agent} (t : State) (h : s.holdsSem by_ = false) : s.gated by_ t = s := by
  simp [State.gated, h]

theorem State.gated_forDie {s : State} {by_ : Agent} {d : Nat} (f : Die → Die)
    (h : (s.holdsSem by_ && decide (d < s.part.form.dies)) = true) : s.gated by_ (s.forDie d f) = s.updDie d f := by
  obtain ⟨hs, hd⟩ := Bool.and_eq_true_iff.1 h
  rw [State.gated_of_holds _ hs, State.forDie, if_pos (of_decide_eq_true hd)]
theorem State.gated_forDie_not {s : State} {by_ : Agent} {d : Nat} (f : Die → Die)
    (h : (s.holdsSem by_ && decide (d < s.part.form.dies)) = false) : s.gated by_ (s.forDie d f) = s := by
  rcases Bool.and_eq_false_iff.1 h with hs | hd
  · exact State.gated_of_not _ hs
  · rw [State.forDie, if_neg (of_decide_eq_false hd)]
    exact ite_self _
theorem State.coreNamed_of_whole {s : State} {gc : Nat} (h : s.single = false) (hg : gc < 48 * s.part.form.dies) :
    s.coreNamed gc = some gc := by
  rw [State.coreNamed, if_neg (by simp [h]), if_pos (by omega)]

/-- R426: half of a watch register written, the other kept. -/
theorem watch_written (w : Wr) (v : BitVec 128) {half : Nat} (h : half < 2) :
    BitVec.ofNat 128 (setBits v.toNat (64 * half + 63) (64 * half) (w.onto (bits v.toNat (64 * half + 63) (64 * half))
        (if half = 0 then 0xE00000000000001F else 2 ^ 64 - 1)))
      = BitVec.ofNat 128 (
          let x := w.onto (if half = 0 then v.toNat % 2 ^ 64 else v.toNat / 2 ^ 64) (if half = 0 then 0xE00000000000001F else 2 ^ 64 - 1)
          if half = 0 then v.toNat / 2 ^ 64 * 2 ^ 64 + x else x * 2 ^ 64 + v.toNat % 2 ^ 64) := by
  have hv := v.isLt
  obtain rfl | rfl : half = 0 ∨ half = 1 := by omega
  · simp only [if_true, Nat.mul_zero, Nat.zero_add, bits_low]
    rw [setBits_low _ (w.onto_eq _ _ (by omega) (by decide)).1]
  · simp only [one_ne_zero, if_false, Nat.mul_one, Nat.reduceAdd, bits_high hv]
    rw [setBits_high hv (w.onto_eq _ _ (by omega) (by decide)).1]

theorem State.writeLqBase_of_off {s : State} {n q : Nat} {w : Wr} (h : (!((s.ctxAt n).lq.getD q {}).en) = true) :
    s.writeLqBase n q w = s.updLQ n q fun y =>
      if BitVec.ofNat 64 (w.onto ((s.ctxAt n).lq.getD q {}).base.toNat (2 ^ 52 - 2 ^ 12)) = y.base then y
      else { Rules.anew y with base := BitVec.ofNat 64 (w.onto ((s.ctxAt n).lq.getD q {}).base.toNat (2 ^ 52 - 2 ^ 12)) } := by
  refine State.updLQ_congr ?_
  rw [Bool.not_eq_true'] at h
  simp only [h, Bool.false_eq_true, if_false, anew_eq_retake]
  rfl
theorem State.writeLqBase_of_on {s : State} {n q : Nat} {w : Wr} (h : (!((s.ctxAt n).lq.getD q {}).en) = false) :
    s.writeLqBase n q w = s := by
  rw [Bool.not_eq_false'] at h
  refine Eq.trans (State.updLQ_congr ?_) (s.updLQ_id n q)
  simp only [h, if_true, ite_self]

/-- R438: what a write makes of a register that holds what is written to it. -/
theorem State.writeReg_holder {s : State} {by_ : Agent} {w : Wr} {r : Reg} {mask old x : Nat} {takes : Bool} {become : Nat → State}
    (h : Rules.holder s by_ r = some (mask, takes, old, become)) (hv : r = .invVa → ∀ p v, by_ ≠ .vf p v)
    (hx : old < 2 ^ 64 → mask < 2 ^ 64 → w.onto old mask = x) : s.writeReg by_ w r = if takes then become x else s := by
  cases r with
  | ptroot n | trapctl n | savesz n | savebase n | fqHead n | apVbase n =>
    exact eq_of_open h hx (toNat_lt _) (by decide) (State.updCtx_congr fun _ => rfl)
  | fqbase n | fqsize n | sumpBase n | sumpCtl n =>
    exact eq_of_gate h hx (toNat_lt _) (by decide) (fun ho => (State.whenOff_of_off _ ho).trans (State.updCtx_congr fun _ => rfl))
      fun ho => State.whenOff_of_on _ ho
  | lqBase n q => exact eq_of_gate h hx (toNat_lt _) (by decide) State.writeLqBase_of_off State.writeLqBase_of_on
  | lqTail n q => exact eq_of_open h hx (toNat_lt _) (by decide) (State.updLQ_congr rfl)
  | quietClk | quietPwr | quietAct =>
    exact eq_of_gate h hx (toNat_lt _) (by decide) (fun hh => State.gated_of_holds _ hh) fun hh => State.gated_of_not _ hh
  | sluiceCtl d | mfldWin d =>
    exact eq_of_gate h hx (toNat_lt _) (by decide) (fun hh => (State.gated_forDie _ hh).trans (State.updDie_congr rfl))
      fun hh => State.gated_forDie_not _ hh
  | sluiceHint d k =>
    refine eq_of_gate h hx (toNat_lt _) (by decide) (fun hh => (State.gated_forDie _ hh).trans (State.updDie_congr ?_))
      fun hh => State.gated_forDie_not _ hh
    rw [updAt_eq_set _ _ _ 0]
    rfl
  | watch n k half =>
    simp only [Rules.holder] at h
    split at h
    · rename_i hc
      obtain ⟨-, hk, hh⟩ := hc
      have hw := ((s.ctxAt n).watch.getD k 0).isLt
      refine eq_of_open h hx (by split <;> omega) (by split <;> decide) (State.updCtx_congr fun _ => ?_)
      rw [updAt_eq_set _ _ _ 0, watch_written w _ hh]
    · cases h
  | dwinSel gc =>
    simp only [Rules.holder] at h
    split at h
    · rename_i hc
      obtain ⟨hsg, hgc, hl⟩ := hc
      refine eq_of_open h hx (by omega) (by decide) ?_
      simp only [State.writeReg, State.coreNamed_of_whole hsg hgc]
      exact State.updCore_congr rfl
    · cases h
  | dwinBase gc =>
    simp only [Rules.holder] at h
    split at h
    · rename_i hc
      obtain ⟨hsg, hgc, hl⟩ := hc
      refine eq_of_open h hx (by omega) (by decide) ?_
      simp only [State.writeReg, State.coreNamed_of_whole hsg hgc, Nat.mul_comm (2 ^ 8)]
      exact State.updCore_congr rfl
    · cases h
  | invVa =>
    cases by_ with
    | port p => exact eq_of_open h hx (toNat_lt _) (by decide) (State.updPort_congr rfl)
    | vf p v => exact absurd rfl (hv rfl p v)
    | firmware c => cases h
  | _ => cases h

/-! ### W1C bits -/

theorem State.writePrectl_of_idle {s : State} {n : Nat} {w : Wr} (h31 : w.one 31 = false) (h30 : w.one 30 = false) :
    s.writePrectl n w = s.updCtx n fun c => { c with perr := c.perr && !w.one 27, rerr := c.rerr && !w.one 26 } := by
  simp only [State.writePrectl, h31, h30, Bool.or_self, Bool.false_and, Bool.false_eq_true, if_false]

theorem State.channelWorks_of {s : State} {ch : Nat} (hd : ch / 12 < s.part.form.dies) (hs : s.single = true → ch / 12 = s.soloDie) :
    s.channelWorks ch = true := by
  cases hsg : s.single <;> simp_all [State.channelWorks]

theorem registerWrites : Rules.RegisterWrites := by
  intro s bar off w
  refine ⟨fun h => ?_, fun r base ha h1 h => ?_⟩
  · show execRegisterWrite bar off w s = _
    rw [execRegisterWrite, State.writeUnit, State.covered_eq_nil h]
    rfl
  rw [exec_registerWrite_single ha h1 h]
  have one (k : Nat) (hk : k < 64) (hp : Rules.puts w off base k) : (w.at_ off base).one k = true := (w.one_at_iff off base k hk).2 hp
  have notOne (k : Nat) (hk : k < 64) (hp : ¬ Rules.puts w off base k) : (w.at_ off base).one k = false :=
    Wr.one_at_eq hk (by simp [hp])
  refine ⟨fun mask takes old become x hh hm => ?_, ?_, ?_, ?_, ?_, ?_, ?_⟩
  · obtain ⟨k, -, -, hk⟩ := h1
    refine congrArg _ (State.writeReg_holder hh (fun hr => ?_) fun ho hmask => Wr.onto_of_merges ho hmask hm)
    exact State.not_vf_of_reach_invVa (hr ▸ hk)
  · rintro rfl hp
    simp only [State.writeReg, one 29 (by decide) hp, if_true]
  · rintro n k29 k28 k27 k26 rfl h29 h28 h27 h26
    simp only [State.writeReg, State.writeStatus, Wr.one_at_eq (by decide) h29, Wr.one_at_eq (by decide) h28,
      Wr.one_at_eq (by decide) h27, Wr.one_at_eq (by decide) h26]
  · rintro n q rfl hp
    simp only [State.writeReg, one 31 (by decide) hp, Bool.not_true, Bool.and_false]
  · rintro n k27 k26 rfl hn31 hn30 h27 h26
    simp only [State.writeReg, State.writePrectl_of_idle (notOne 31 (by decide) hn31) (notOne 30 (by decide) hn30),
      Wr.one_at_eq (by decide) h27, Wr.one_at_eq (by decide) h26]
  · rintro ch k31 k30 rfl hd hs h31 h30
    simp only [State.writeReg, State.writeChstat, State.channelWorks_of hd hs, Wr.one_at_eq (by decide) h31,
      Wr.one_at_eq (by decide) h30, Bool.not_true, Bool.false_eq_true, if_false]
  · intro hr
    simp only [List.mem_cons, List.not_mem_nil, or_false] at hr
    rcases hr with (rfl | rfl | rfl | rfl) | ⟨d, rfl | rfl | rfl | rfl⟩ | ⟨n, rfl | rfl | rfl | rfl | rfl⟩ | ⟨n, k, rfl | rfl⟩
      | ⟨n, rfl | rfl | rfl⟩ <;> rfl

end Sys2Proof.Machine
end

section
/-!
SUPPORT. A write of 8 bytes that covers two registers of 4 bytes (R438): a register takes what a write enables of its own bytes, so
that each half of the write does what the whole does at the registers of that half. Settles O48.
-/
namespace Sys2Proof

/-! ### A register of 4 bytes takes what is enabled of them -/

/-- Those of the bytes that a write enables that a mask names. -/
def Wr.part (w : Wr) (m : BitVec 8) : Wr := { w with en := w.en &&& m }

/-- The lower 4 bytes of a write. -/
def Wr.low (w : Wr) : Wr := w.part 0x0F#8

theorem lowHalf_getLsbD (k : Nat) : (0x0F#8).getLsbD k = decide (k < 4) := by
  rcases Nat.lt_or_ge k 8 with h | h
  · revert k; decide
  · rw [BitVec.getLsbD_of_ge _ _ h, decide_eq_false (by omega)]

theorem highHalf_getLsbD (k : Nat) : (0xF0#8).getLsbD k = decide (4 ≤ k ∧ k < 8) := by
  rcases Nat.lt_or_ge k 8 with h | h
  · revert k; decide
  · rw [BitVec.getLsbD_of_ge _ _ h, decide_eq_false (by omega)]

theorem Wr.part_en (w : Wr) (m : BitVec 8) (k : Nat) : (w.part m).en.getLsbD k = (w.en.getLsbD k && m.getLsbD k) :=
  BitVec.getLsbD_and

theorem Wr.low_en (w : Wr) (k : Nat) : w.low.en.getLsbD k = (w.en.getLsbD k && decide (k < 4)) := by
  rw [Wr.low, Wr.part_en, lowHalf_getLsbD]

theorem Wr.low_eq_of_agree {w w' : Wr} (hb : w'.by_ = w.by_) (hd : w'.data = w.data)
    (h : ∀ k, k < 4 → w'.en.getLsbD k = w.en.getLsbD k) : w'.low = w.low := by
  have hen : w'.low.en = w.low.en := BitVec.eq_of_getLsbD_eq fun k _ => by
    rw [Wr.low_en, Wr.low_en]
    by_cases hk : k < 4
    · rw [h k hk]
    · simp [hk]
  cases w; cases w'
  simp only [Wr.low, Wr.part, Wr.mk.injEq] at *
  exact ⟨hb, hd, hen⟩

@[simp] theorem Wr.low_data (w : Wr) : w.low.data = w.data := rfl

theorem Wr.low_one (w : Wr) {i : Nat} (h : i < 32) : w.low.one i = w.one i := by
  rw [Wr.one, Wr.one, Wr.low_en, show decide (i / 8 < 4) = true from decide_eq_true (by omega), Bool.and_true, Wr.low_data]

theorem Wr.low_onto (w : Wr) (old : Nat) {mask : Nat} (h : mask < 2 ^ 32) : w.low.onto old mask = w.onto old mask := by
  have he := Wr.enabled_testBit
  simp only [Wr.onto]
  have hm : mask &&& (List.range 8).foldl (fun a k => a + if w.low.en.getLsbD k then 255 * 2 ^ (8 * k) else 0) 0
      = mask &&& (List.range 8).foldl (fun a k => a + if w.en.getLsbD k then 255 * 2 ^ (8 * k) else 0) 0 := by
    refine Nat.eq_of_testBit_eq fun k => ?_
    rw [Nat.testBit_and, Nat.testBit_and]
    by_cases hk : k < 32
    · rw [he w.low.en ⟨k, by omega⟩, he w.en ⟨k, by omega⟩, Wr.low_en]
      simp only [show k / 8 < 4 by omega, decide_true, Bool.and_true]
    · rw [Nat.testBit_lt_two_pow (Nat.lt_of_lt_of_le h (Nat.pow_le_pow_right (by decide) (Nat.le_of_not_lt hk)))]
      rfl
  rw [hm]
  rfl

theorem Wr.low_word (w : Wr) (old : Word) {mask : Nat} (h : mask < 2 ^ 32) : w.low.word old mask = w.word old mask := by
  rw [Wr.word, Wr.word, w.low_onto _ h]

end Sys2Proof
namespace Sys2Proof.Machine

theorem dwinField_width {o f w : Nat} (h : dwinField o = some (f, w)) : w = 4 ∨ w = 8 := by
  unfold dwinField at h
  split_ifs at h <;> simp_all

theorem Reg.width_cases (r : Reg) : r.width = 4 ∨ r.width = 8 := by
  cases r with
  | dwin gc o =>
    simp only [Reg.width]
    split
    · rename_i h; exact dwinField_width h
    · exact .inl rfl
  | _ => simp [Reg.width]

/-! ### Each register of 4 bytes -/

theorem Ctx.acted_low (c : Ctx) (w : Wr) : c.acted w.low = c.acted w := by
  simp (disch := decide) only [Ctx.acted, Wr.low_one, Wr.low_en, Wr.low_data, Nat.zero_lt_succ, Nat.one_lt_ofNat, decide_true, Bool.and_true]

theorem State.writeReplay_low (s : State) (n : Nat) (w : Wr) : s.writeReplay n w.low = s.writeReplay n w := by
  simp (disch := decide) only [State.writeReplay, Ctx.acted_low, Wr.low_one]

theorem State.writeTrapcmd_low (s : State) (n : Nat) (w : Wr) : s.writeTrapcmd n w.low = s.writeTrapcmd n w := by
  simp (disch := decide) only [State.writeTrapcmd, Wr.low_one]

theorem State.writeDwin_low (s : State) {core o : Nat} (w : Wr) (h : dwinField o ≠ some (o, 8)) :
    s.writeDwin core o w.low = s.writeDwin core o w := by
  have h0 : o ≠ 0xC00 := by rintro rfl; exact h rfl
  have h8 : o ≠ 0xC08 := by rintro rfl; exact h rfl
  unfold State.writeDwin
  split
  · rfl
  · simp (disch := decide) only [Wr.low_onto, if_neg h0, if_neg h8]

/-- A register of 4 bytes takes what a write enables of its 4 bytes. -/
theorem State.writeReg_low (s : State) (by_ : Agent) (w : Wr) {r : Reg} (h : r.width = 4) :
    s.writeReg by_ w.low r = s.writeReg by_ w r := by
  cases r with
  | devStatus | status n | lqStatus n q | prectl n | chstat ch | chctl ch | mgmtSem =>
    simp (disch := decide) only [State.writeReg, State.writeSem, State.writeStatus, State.writePrectl, State.writeChstat,
      State.writeChctl, Wr.low_one]
  | quietClk | quietPwr | quietAct | fqsize n | sumpCtl n | sluiceCtl d | sluiceHint d k | mfldWin d | trapctl n | savesz n
  | savebase n =>
    simp (disch := decide) only [State.writeReg, Wr.low_word]
  | dwinSel gc | dwinBase gc | fqHead n | lqTail n q =>
    simp (disch := decide) only [State.writeReg, Wr.low_onto]
  | mboxCtl | partWin n | invCtl | ctrl n | lqCtl n q =>
    simp (disch := decide) only [State.writeReg, State.writeMbox, State.writePartWin, State.writeInvCtl, State.writeCtrl,
      State.writeLqCtl, Wr.low_word, Wr.low_onto, Wr.low_one]
  | replay n => exact s.writeReplay_low n w
  | trapcmd n => exact s.writeTrapcmd_low n w
  | dwin gc o =>
    simp only [State.writeReg]
    split
    · refine s.writeDwin_low w fun hf => ?_
      simp [Reg.width, hf] at h
    · rfl
  | devId | devStage | quietStat | devMemsz | dieStat d | dieTemp d | sumpHead n | sumpTail n | trapstat n | baerr n | dwinStat n
  | pageStatus n | fqTail n | lqHead n q => rfl
  | _ => cases h

/-- R438: a register takes what a write enables of its own bytes. -/
theorem State.writeReg_congr (s : State) (by_ : Agent) {w w' : Wr} {r : Reg} (hb : w'.by_ = w.by_) (hd : w'.data = w.data)
    (h : ∀ k, k < r.width → w'.en.getLsbD k = w.en.getLsbD k) : s.writeReg by_ w' r = s.writeReg by_ w r := by
  rcases r.width_cases with h4 | h8
  · rw [← s.writeReg_low by_ w h4, ← s.writeReg_low by_ w' h4, Wr.low_eq_of_agree hb hd fun k hk => h k (by omega)]
  · have hen : w'.en = w.en := BitVec.eq_of_getLsbD_eq fun k hk => h k (by omega)
    cases w; cases w'
    simp only at hb hd hen
    rw [hb, hd, hen]

/-! ### The halves of a write -/

/-- The part of a write that enables all that the write enables of a register does to it what the write does. -/
theorem State.writeReg_part (s : State) (by_ : Agent) (w : Wr) (m : BitVec 8) {off base : Nat} {r : Reg}
    (h : ∀ k, k < 8 → base ≤ off + k → off + k < base + r.width → m.getLsbD k = true) :
    s.writeReg by_ ((w.part m).at_ off base) r = s.writeReg by_ (w.at_ off base) r := by
  refine s.writeReg_congr by_ (by rw [Wr.at_by, Wr.at_by]; rfl) (by unfold Wr.at_; split <;> rfl) fun p hp => ?_
  rw [Wr.at_en, Wr.at_en]
  by_cases hk : p < 8 ∧ off ≤ base + p
  · congr 1
    rw [Wr.part_en]
    rcases Nat.lt_or_ge (base + p - off) 8 with h8 | h8
    · rw [h _ h8 (by omega) (by omega), Bool.and_true]
    · rw [BitVec.getLsbD_of_ge _ _ h8, Bool.false_and]
  · rw [decide_eq_false hk, Bool.false_and, Bool.false_and]

theorem eraseDups_append_of_disjoint {α : Type} [BEq α] [LawfulBEq α] {l m : List α} (h : ∀ x ∈ l, x ∉ m) :
    (l ++ m).eraseDups = l.eraseDups ++ m.eraseDups := by
  have : m.removeAll l = m := by
    refine List.filter_eq_self.2 fun x hx => ?_
    have : x ∉ l := fun hl => h x hl hx
    simpa using this
  rw [List.eraseDups_append, this]

/-- The registers that a write reaches at some of its bytes, byte by byte. -/
def State.named (s : State) (by_ : Agent) (bar : Bar) (off : Nat) (e : BitVec 8) (ks : List Nat) : List (Reg × Nat) :=
  ks.filterMap fun k => if e.getLsbD k then s.reach by_ bar (off + k) else none

section
variable {s : State} {by_ : Agent} {bar : Bar} {off : Nat} {e e' : BitVec 8} {ks : List Nat}

theorem State.mem_named {x : Reg × Nat} (h : x ∈ s.named by_ bar off e ks) : ∃ k ∈ ks, s.reach by_ bar (off + k) = some x := by
  obtain ⟨k, hk, hx⟩ := List.mem_filterMap.1 h
  split at hx
  · exact ⟨k, hk, hx⟩
  · cases hx

theorem State.named_congr (h : ∀ k ∈ ks, e.getLsbD k = e'.getLsbD k) : s.named by_ bar off e ks = s.named by_ bar off e' ks :=
  List.filterMap_congr fun k hk => by rw [h k hk]

theorem State.named_eq_nil (h : ∀ k ∈ ks, e.getLsbD k = false) : s.named by_ bar off e ks = [] :=
  List.filterMap_eq_nil_iff.2 fun k hk => by rw [h k hk]; rfl

theorem State.covered_eq_named : s.covered by_ bar off e.getLsbD 8 =
    (s.named by_ bar off e [0, 1, 2, 3] ++ s.named by_ bar off e [4, 5, 6, 7]).eraseDups :=
  congrArg List.eraseDups (List.filterMap_append (l := [0, 1, 2, 3]) (l' := [4, 5, 6, 7]))

end

/-- The registers that a write covers are those that its lower half covers, then those that its upper half does, where no register
stands in both halves. -/
theorem State.covered_halves {s : State} {by_ : Agent} {bar : Bar} {off : Nat} (w : Wr)
    (h : ∀ j k, j < 4 → 4 ≤ k → k < 8 → s.reach by_ bar (off + j) = none ∨ s.reach by_ bar (off + j) ≠ s.reach by_ bar (off + k)) :
    s.covered by_ bar off w.en.getLsbD 8 =
      s.covered by_ bar off (w.part 0x0F#8).en.getLsbD 8 ++ s.covered by_ bar off (w.part 0xF0#8).en.getLsbD 8 := by
  have lower {k : Nat} (hk : k ∈ [0, 1, 2, 3]) : k < 4 := by simp at hk; omega
  have upper {k : Nat} (hk : k ∈ [4, 5, 6, 7]) : 4 ≤ k ∧ k < 8 := by simp at hk; omega
  have disjoint : ∀ x ∈ s.named by_ bar off w.en [0, 1, 2, 3], x ∉ s.named by_ bar off w.en [4, 5, 6, 7] := by
    intro x hx hx'
    obtain ⟨j, hj, hxj⟩ := State.mem_named hx
    obtain ⟨k, hk, hxk⟩ := State.mem_named hx'
    rcases h j k (lower hj) (upper hk).1 (upper hk).2 with h | h
    · rw [h] at hxj; cases hxj
    · exact h (hxj.trans hxk.symm)
  have hlo : s.covered by_ bar off (w.part 0x0F#8).en.getLsbD 8 = (s.named by_ bar off w.en [0, 1, 2, 3]).eraseDups := by
    rw [State.covered_eq_named, State.named_eq_nil (ks := [4, 5, 6, 7]), List.append_nil, State.named_congr (e' := w.en)]
    · intro k hk; rw [Wr.part_en, lowHalf_getLsbD, decide_eq_true (lower hk), Bool.and_true]
    · intro k hk; rw [Wr.part_en, lowHalf_getLsbD, decide_eq_false (Nat.not_lt.2 (upper hk).1), Bool.and_false]
  have hhi : s.covered by_ bar off (w.part 0xF0#8).en.getLsbD 8 = (s.named by_ bar off w.en [4, 5, 6, 7]).eraseDups := by
    rw [State.covered_eq_named, State.named_eq_nil (ks := [0, 1, 2, 3]), List.nil_append, State.named_congr (e' := w.en)]
    · intro k hk; rw [Wr.part_en, highHalf_getLsbD, decide_eq_true (upper hk), Bool.and_true]
    · intro k hk
      rw [Wr.part_en, highHalf_getLsbD, decide_eq_false fun h4 => Nat.not_lt.2 h4.1 (lower hk), Bool.and_false]
  rw [State.covered_eq_named, eraseDups_append_of_disjoint disjoint, hlo, hhi]

/-- What a port reaches does not depend on the state. -/
theorem State.covered_port (s t : State) (p : Port) (bar : Bar) (off n : Nat) (named : Nat → Bool) :
    s.covered (.port p) bar off named n = t.covered (.port p) bar off named n := by
  simp only [State.covered, State.reach_port]

/-- The part of a port's write that holds every byte the write enables of the registers covered does what the write does at them. -/
theorem State.writeUnit_part {s : State} {p : Port} {bar : Bar} {off : Nat} {w : Wr} (hp : w.by_ = .port p) (m : BitVec 8)
    (h : ∀ r ∈ s.covered w.by_ bar off (w.part m).en.getLsbD 8, ∀ k, k < 8 → s.reach w.by_ bar (off + k) = some r → m.getLsbD k = true) :
    s.writeUnit bar off (w.part m) = (s.covered w.by_ bar off (w.part m).en.getLsbD 8).foldl (fun s r =>
      if s.answers w.by_ r.1 then s.writeReg w.by_ (w.at_ off r.2) r.1 else s) s := by
  refine List.foldl_ext _ _ _ fun t r hr => ?_
  show (if t.answers w.by_ r.1 then t.writeReg w.by_ ((w.part m).at_ off r.2) r.1 else t) = _
  obtain ⟨j, -, -, hj⟩ := State.mem_covered.1 hr
  obtain ⟨-, -, hspan⟩ := s.reach_spans p bar (off + j) r.1 r.2 (by rw [← hp]; exact hj)
  rw [t.writeReg_part w.by_ w m fun k hk h1 h2 => h r hr k hk (by rw [hp]; exact hspan _ h1 h2)]

theorem wideWrites : Rules.WideWrites := by
  intro s t u bar off w p hp h ht hu
  have ht : s.writeUnit bar off (w.part 0x0F#8) = t := Host.Outcome.next.inj ht
  have hu : t.writeUnit bar off (w.part 0xF0#8) = u := Host.Outcome.next.inj hu
  have hcov : t.covered w.by_ bar off (w.part 0xF0#8).en.getLsbD 8 = s.covered w.by_ bar off (w.part 0xF0#8).en.getLsbD 8 := by
    rw [hp, State.covered_port t s]
  have hreach (k : Nat) : t.reach w.by_ bar (off + k) = s.reach w.by_ bar (off + k) := by rw [hp, State.reach_port, State.reach_port]
  have apart {j k : Nat} {r : Reg × Nat} (hj : j < 4) (hk : 4 ≤ k) (hk8 : k < 8) (hrj : s.reach w.by_ bar (off + j) = some r)
      (hrk : s.reach w.by_ bar (off + k) = some r) : False := by
    rcases h j k hj hk hk8 with h | h
    · rw [h] at hrj; cases hrj
    · exact h (hrj.trans hrk.symm)
  rw [State.writeUnit_part hp] at ht hu
  · refine congrArg Host.Outcome.next (show s.writeUnit bar off w = u from ?_)
    rw [State.writeUnit, State.covered_halves w h, List.foldl_append, ht, ← hcov, hu]
  · intro r hr k hk8 hk
    obtain ⟨j, hj8, hej, hj⟩ := State.mem_covered.1 hr
    rw [Wr.part_en, highHalf_getLsbD, Bool.and_eq_true, decide_eq_true_eq] at hej
    rw [hreach] at hj hk
    rw [highHalf_getLsbD, decide_eq_true_eq]
    exact ⟨Nat.le_of_not_lt fun hk4 => apart hk4 hej.2.1 hj8 hk hj, hk8⟩
  · intro r hr k hk8 hk
    obtain ⟨j, -, hej, hj⟩ := State.mem_covered.1 hr
    rw [Wr.part_en, lowHalf_getLsbD, Bool.and_eq_true, decide_eq_true_eq] at hej
    rw [lowHalf_getLsbD, decide_eq_true_eq]
    exact Nat.lt_of_not_le fun hk4 => apart hej.2 hk4 hk8 hj hk

/-- Settles O48: a write that reaches one register is `State.writeReg` of it, whose merge is that of R438; and a write that covers two
registers is the fold of the two, of which each takes what is enabled of its own bytes. -/
theorem hostRegisters : Obligations.HostRegisters := ⟨registerWrites, wideWrites⟩

end Sys2Proof.Machine
end

section
/-!
SUPPORT. Writes of registers by a host port (R438): what a write by a port to a register that answers it does, and what it leaves in
the register, said once for the statements about single registers.
-/
namespace Sys2Proof

theorem Wr.one_iff_sets (w : Wr) (k : Nat) : w.one k = true ↔ Rules.sets w k := by
  rw [Wr.one, Bool.and_eq_true]; rfl
theorem Wr.one_of_sets {w : Wr} {k : Nat} (h : Rules.sets w k) : w.one k = true := (w.one_iff_sets k).2 h
theorem Wr.one_of_not_sets {w : Wr} {k : Nat} (h : ¬ Rules.sets w k) : w.one k = false :=
  Bool.eq_false_iff.2 fun h' => h ((w.one_iff_sets k).1 h')

/-- R438: the merge at a register's own offset. -/
theorem Wr.onto_of_merges_here {w : Wr} {mask old x : Nat} (ho : old < 2 ^ 64) (hm : mask < 2 ^ 64)
    (h : Rules.merges w 0 0 mask old x) : w.onto old mask = x := by
  rw [← Wr.onto_of_merges ho hm h, Wr.at_same]

/-- What a write leaves of a register has no bit above those of the old value and of the mask. -/
theorem merges_lt {w : Wr} {mask old x n : Nat} (h : Rules.merges w 0 0 mask old x) (ho : old < 2 ^ n) (hm : mask < 2 ^ n) :
    x < 2 ^ n := by
  refine Nat.lt_pow_two_of_testBit x fun k hk => ?_
  rcases Nat.lt_or_ge k 64 with h64 | h64
  · rw [h.2 k h64, Nat.testBit_lt_two_pow (Nat.lt_of_lt_of_le ho (Nat.pow_le_pow_right (by decide) hk)),
      Nat.testBit_lt_two_pow (Nat.lt_of_lt_of_le hm (Nat.pow_le_pow_right (by decide) hk))]
    rfl
  · exact Nat.testBit_lt_two_pow (Nat.lt_of_lt_of_le h.1 (Nat.pow_le_pow_right (by decide) h64))

/-- A register of 32 bits takes the merge. -/
theorem Wr.word_of_merges {w : Wr} {old : Word} {mask x : Nat} (hm : mask < 2 ^ 32) (h : Rules.merges w 0 0 mask old.toNat x) :
    w.word old mask = BitVec.ofNat 32 x := by
  rw [Wr.word, Wr.onto_of_merges_here (Machine.toNat_lt old) (by omega) h]

theorem merges_word_lt {w : Wr} {old : Word} {mask x : Nat} (hm : mask < 2 ^ 32) (h : Rules.merges w 0 0 mask old.toNat x) :
    x < 2 ^ 32 := merges_lt h old.isLt hm

/-- A register of 32 bits reads back the merge. -/
theorem merges_word_toNat {w : Wr} {old : Word} {mask x : Nat} (hm : mask < 2 ^ 32) (h : Rules.merges w 0 0 mask old.toNat x) :
    (BitVec.ofNat 32 x).toNat = x := Nat.mod_eq_of_lt (merges_word_lt hm h)

end Sys2Proof
namespace Sys2Proof.Machine

theorem State.writeView_port {s : State} {w : Wr} {p : Port} {r : Reg} (hw : w.by_ = .port p) (ha : s.answers (.port p) r = true) :
    s.writeView w r = s.writeReg (.port p) w r := by
  simp only [State.writeView, hw, ha, if_true]

theorem State.holdsSem_port (s : State) (p : Port) : s.holdsSem (.port p) = decide (s.mgmt = .port p) := by
  cases h : s.mgmt <;> simp [State.holdsSem, h, Bool.beq_eq_decide_eq, eq_comm]

end Sys2Proof.Machine
end


section
/-!
SUPPORT. The management semaphore, partition windows and function maps (R32, R440, R441). Settles O46.
-/
namespace Sys2Proof.Machine

theorem semaphore : Rules.Semaphore := by
  intro s p ha
  refine ⟨?_, fun w hw => ?_⟩
  · show execMgmtSemAcquire (.port p) s = _
    simp only [execMgmtSemAcquire, ha, State.readSem, State.readReg]
    cases h : s.mgmt <;> simp [done, h] <;> cases p <;> rfl
  · have hrun : exec (.mgmtSemRelease w) s = .next (if w.one 0 && decide (s.mgmt = .port p) then { s with mgmt := .free } else s) := by
      show done (s.writeView w .mgmtSem) = _
      rw [State.writeView_port hw ha, ← s.holdsSem_port]
      rfl
    refine ⟨fun h1 hs => ?_, fun h => ?_⟩
    · rw [hrun, Wr.one_of_sets h1, hs]; simp
    · rw [hrun, if_neg]
      rw [Bool.and_eq_true, w.one_iff_sets, decide_eq_true_eq]
      tauto

theorem winBase_ofNat {x : Nat} (h : x < 2 ^ 32) : winBase (BitVec.ofNat 32 x) = x % 2 ^ 9 := by
  rw [winBase, bits, BitVec.toNat_ofNat, Nat.mod_eq_of_lt h]; simp
theorem winSize_ofNat {x : Nat} (h : x < 2 ^ 32) : winSize (BitVec.ofNat 32 x) = x / 2 ^ 16 % 2 ^ 9 := by
  rw [winSize, bits, BitVec.toNat_ofNat, Nat.mod_eq_of_lt h]
theorem winBase_eq (w : Word) : winBase w = w.toNat % 2 ^ 9 := by simp [winBase, bits]
theorem winSize_eq (w : Word) : winSize w = w.toNat / 2 ^ 16 % 2 ^ 9 := rfl

theorem Ctx.part_eq (c : Ctx) : c.part = c.ctrl.toNat / 2 ^ 22 % 4 := rfl

/-- R32: two windows share no address where either is empty or one ends before the other begins. -/
theorem State.partWin_clear_iff (s : State) (n : Nat) (x : Word) :
    ((List.range 4).all fun k =>
      let y := s.partWin.getD k 0
      k == n || winSize y == 0 || winSize x == 0 || !meets (winBase x) (winSize x) (winBase y) (winSize y)) = false ↔
    ∃ j, j < 4 ∧ j ≠ n ∧ winSize (s.partWin.getD j 0) ≠ 0 ∧ winSize x ≠ 0 ∧
      winBase x < winBase (s.partWin.getD j 0) + winSize (s.partWin.getD j 0) ∧ winBase (s.partWin.getD j 0) < winBase x + winSize x := by
  simp [List.all_eq_false, meets, and_assoc]

theorem State.partWinWrite_eq {s : State} {k x : Nat} {p : Port} {w : Wr}
    (hm : Rules.merges w 0 0 0x01FF01FF (s.partWin.getD k 0).toNat x) :
    let refused : Prop := s.mgmt ≠ .port p ∨ s.memBytes / 2 ^ 30 < x % 2 ^ 9 + x / 2 ^ 16 % 2 ^ 9 ∨ (∃ c ∈ s.ctx, c.en = true ∧ c.part = k)
      ∨ ∃ j, j < 4 ∧ j ≠ k ∧ let y := (s.partWin.getD j 0).toNat
          y / 2 ^ 16 % 2 ^ 9 ≠ 0 ∧ x / 2 ^ 16 % 2 ^ 9 ≠ 0 ∧ x % 2 ^ 9 < y % 2 ^ 9 + y / 2 ^ 16 % 2 ^ 9
            ∧ y % 2 ^ 9 < x % 2 ^ 9 + x / 2 ^ 16 % 2 ^ 9
    (refused → s.writePartWin k (.port p) w = s)
    ∧ (¬ refused → s.writePartWin k (.port p) w = { s with partWin := s.partWin.set k (BitVec.ofNat 32 x) }) := by
  have hx := merges_word_lt (by decide) hm
  have hclear := s.partWin_clear_iff k (BitVec.ofNat 32 x)
  simp only [winBase_eq, winSize_eq, merges_word_toNat (by decide) hm] at hclear
  have hany : (s.ctx.any fun c => c.en && c.part == k) = true ↔ ∃ c ∈ s.ctx, c.en = true ∧ c.part = k := by simp
  simp only [State.writePartWin, Wr.word_of_merges (by decide) hm, winBase_eq, winSize_eq, merges_word_toNat (by decide) hm,
    s.holdsSem_port, State.windowLimit, updAt_const]
  rw [← hclear, ← hany]
  refine ⟨fun h => if_pos ?_, fun h => if_neg ?_⟩
  · simp only [Bool.or_eq_true, Bool.not_eq_true', decide_eq_false_iff_not, decide_eq_true_eq]
    tauto
  · simp only [Bool.or_eq_true, Bool.not_eq_true', decide_eq_false_iff_not, decide_eq_true_eq]
    tauto

theorem and_ne_zero_iff {a b : Nat} (ha : a < 2 ^ 64) : a &&& b ≠ 0 ↔ ∃ k, k < 64 ∧ a.testBit k = true ∧ b.testBit k = true := by
  constructor
  · intro h
    obtain ⟨k, hk⟩ := Nat.exists_testBit_of_ne_zero h
    rw [Nat.testBit_and, Bool.and_eq_true] at hk
    refine ⟨k, Nat.lt_of_not_le fun hge => ?_, hk⟩
    rw [Nat.testBit_lt_two_pow (Nat.lt_of_lt_of_le ha (Nat.pow_le_pow_right (by decide) hge))] at hk
    exact Bool.false_ne_true hk.1
  · rintro ⟨k, -, h1, h2⟩ h0
    have := Nat.testBit_and a b k
    rw [h0, h1, h2, Nat.zero_testBit] at this
    cases this

/-- R441: another map in force shares a slot with a mask. -/
theorem State.vfMap_clash_iff (s : State) (v x : Nat) :
    (bit x 127 && (List.range 16).any fun u => u != v && s.vfEn u && (x % 2 ^ 64 &&& (s.vfmap.getD u 0).toNat % 2 ^ 64) != 0) = true ↔
    x.testBit 127 = true ∧ ∃ u k, u < 16 ∧ u ≠ v ∧ k < 64 ∧ (s.vfmap.getD u 0).getLsbD 127 = true
      ∧ (s.vfmap.getD u 0).getLsbD k = true ∧ x.testBit k = true := by
  have hbits (u k : Nat) (hk : k < 64) : (x % 2 ^ 64).testBit k = true ∧ ((s.vfmap.getD u 0).toNat % 2 ^ 64).testBit k = true ↔
      (s.vfmap.getD u 0).getLsbD k = true ∧ x.testBit k = true := by
    rw [Nat.testBit_mod_two_pow, Nat.testBit_mod_two_pow, BitVec.testBit_toNat]
    simp [hk, and_comm]
  simp only [Bool.and_eq_true, List.any_eq_true, List.mem_range, bne_iff_ne, and_ne_zero_iff (Nat.mod_lt x (Nat.two_pow_pos 64))]
  refine and_congr_right fun _ => exists_congr fun u => ⟨?_, ?_⟩
  · rintro ⟨hu, ⟨hv, he⟩, k, hk, h⟩
    exact ⟨k, hu, hv, hk, he, (hbits u k hk).1 h⟩
  · rintro ⟨k, hu, hv, hk, he, h⟩
    exact ⟨hu, ⟨hv, he⟩, k, hk, (hbits u k hk).2 h⟩

/-- R441: half of a function's map written, the other kept. -/
theorem vfMap_written {w : Wr} {old half x : Nat} (hold : old < 2 ^ 128) (hh : half < 2)
    (hm : Rules.merges w 0 0 (if half = 0 then 2 ^ 64 - 1 else 0x8000000300000000)
      (if half = 0 then old % 2 ^ 64 else old / 2 ^ 64) x) :
    setBits old (64 * half + 63) (64 * half)
        (w.onto (bits old (64 * half + 63) (64 * half)) (if half = 0 then 2 ^ 64 - 1 else 0x8000000300000000))
      = if half = 0 then old / 2 ^ 64 * 2 ^ 64 + x else x * 2 ^ 64 + old % 2 ^ 64 := by
  obtain rfl | rfl : half = 0 ∨ half = 1 := by omega
  · simp only [if_true, Nat.mul_zero, Nat.zero_add, bits_low] at hm ⊢
    rw [Wr.onto_of_merges_here (by omega) (by decide) hm, setBits_low _ hm.1]
  · simp only [one_ne_zero, if_false, Nat.mul_one, Nat.reduceAdd, bits_high hold] at hm ⊢
    rw [Wr.onto_of_merges_here (by omega) (by decide) hm, setBits_high hold hm.1]

theorem partitions : Rules.Partitions := by
  intro s w p hw
  refine ⟨fun k x hk _ ha hm => ?_, fun v half x hv hh _ ha => ?_⟩
  · have hrun : exec (.partWinWrite k w) s = .next (s.writePartWin k (.port p) w) := congrArg _ (State.writeView_port hw ha)
    rw [hrun]
    exact ⟨fun h => congrArg _ ((State.partWinWrite_eq hm).1 h), fun h => congrArg _ ((State.partWinWrite_eq hm).2 h)⟩
  · intro old hm new refused
    have hrun : exec (.vfMapWrite v half w) s = .next (s.writeVfMap v half (.port p) w) := by
      show done (if half < 2 then s.writeView w (.vfMap v half) else s) = _
      rw [if_pos hh, State.writeView_port hw ha]
      rfl
    have hclash := s.vfMap_clash_iff v new
    have hnew := vfMap_written (s.vfmap.getD v 0).isLt hh hm
    simp only [State.writeVfMap] at hrun
    rw [hrun, hnew, s.holdsSem_port, updAt_const]
    have hiff : (!decide (s.mgmt = .port p) || (bit new 127 && (List.range 16).any fun u =>
        u != v && s.vfEn u && (new % 2 ^ 64 &&& (s.vfmap.getD u 0).toNat % 2 ^ 64) != 0)) = true ↔ refused := by
      rw [Bool.or_eq_true, hclash, Bool.not_eq_true', decide_eq_false_iff_not]
    exact ⟨fun h => congrArg _ (if_pos (hiff.2 h)), fun h => congrArg _ (if_neg fun h' => h (hiff.1 h'))⟩

/-- Settles O46: a read acquires a free semaphore and the owner's REL frees it; a window or a map is written by the owner alone, where
the written value meets no window, limit, context or other map. -/
theorem gatedRegisters : Obligations.GatedRegisters := ⟨semaphore, partitions⟩

end Sys2Proof.Machine
end

section
/-!
SUPPORT. Stores held back performed (R119) and invalidations (R36): what each leaves of the state.
-/
namespace Sys2Proof.Machine

/-! ### Stores held back performed -/

theorem State.noteUeAt_chan (s : State) (pa : Nat) : ∃ ch, s.noteUeAt pa = { s with chan := ch } := by
  unfold State.noteUeAt State.noteUe
  split
  · exact ⟨_, rfl⟩
  · exact ⟨s.chan, rfl⟩

theorem State.putByte_stores_cur (s : State) (core : Nat) (p : Place) (x : Byte) :
    (s.putByte core p x).stores = s.stores ∧ (s.putByte core p x).cur = s.cur := by
  cases p <;> exact ⟨rfl, rfl⟩

/-- A byte performed leaves what is held back, and the instruction that is being performed. -/
theorem State.performByte_stores_cur (s : State) (b : HeldByte) :
    (s.performByte b).stores = s.stores ∧ (s.performByte b).cur = s.cur := by
  unfold State.performByte
  split
  · exact ⟨rfl, rfl⟩
  · split
    · rename_i pa _
      obtain ⟨ch, hn⟩ := s.noteUeAt_chan pa
      obtain ⟨cs, he⟩ := (s.noteUeAt pa).endContext_eq b.ctx 0
      rw [he, hn]
      exact ⟨rfl, rfl⟩
    · obtain ⟨h1, h2⟩ := (s.homeRange b.place 1 true b.keep b.first).putByte_stores_cur b.core b.place b.byte
      rw [h1, h2]
      exact State.homeRange_keeps (P := fun t => t.stores = s.stores ∧ t.cur = s.cur) (fun _ _ _ _ _ _ h => h) b.place 1 true b.keep
        b.first false ⟨rfl, rfl⟩

/-- What `f` holds of is performed and no longer held back; the rest is held back as it was. -/
theorem State.perform?_stores_cur (s : State) (f : HeldByte → Bool) :
    (s.perform? f).stores = s.stores.filter (fun b => !f b) ∧ (s.perform? f).cur = s.cur := by
  unfold State.perform?
  refine State.foldl_keeps (P := fun t => t.stores = s.stores.filter (fun b => !f b) ∧ t.cur = s.cur) _ (fun t b h => ?_) _
    (State.foldl_keeps (P := fun t => t.stores = s.stores.filter (fun b => !f b) ∧ t.cur = s.cur) _ (fun t b h => ?_) _ ⟨rfl, rfl⟩)
  · split <;> exact h
  · obtain ⟨h1, h2⟩ := t.performByte_stores_cur b
    exact ⟨h1.trans h.1, h2.trans h.2⟩

@[simp] theorem State.perform?_stores (s : State) (f : HeldByte → Bool) : (s.perform? f).stores = s.stores.filter fun b => !f b :=
  (s.perform?_stores_cur f).1
@[simp] theorem State.perform?_cur (s : State) (f : HeldByte → Bool) : (s.perform? f).cur = s.cur := (s.perform?_stores_cur f).2

theorem State.performTranslated_none (s : State) : s.performTranslated none = s.perform? fun b => b.team.isNone := by
  simp [State.performTranslated]

/-! ### Invalidations -/

/-- A line that leaves its slice changes what L2 holds, the corrected blocks, the old values and the errors of host lines alone. -/
theorem State.evictLine_eq (s : State) (key : Nat × Nat) : ∃ ce past sysUe,
    s.evictLine key = { s with l2 := s.l2.filter fun e => e.key != key, ce := ce, past := past, sysUe := sysUe } := by
  unfold State.evictLine
  dsimp only
  split
  · exact ⟨_, _, s.sysUe, rfl⟩
  · exact ⟨s.ce, s.past, _, rfl⟩

/-- Lines that leave, one after another. -/
theorem State.evictLines_eq (ls : List L2Line) (s : State) : ∃ ce past sysUe,
    ls.foldl (fun s e => s.evictLine e.key) s =
      { s with l2 := s.l2.filter fun x => !ls.any fun e => x.key == e.key, ce := ce, past := past, sysUe := sysUe } := by
  induction ls generalizing s with
  | nil => exact ⟨s.ce, s.past, s.sysUe, by simp⟩
  | cons e ls ih =>
    obtain ⟨c1, p1, u1, h1⟩ := s.evictLine_eq e.key
    obtain ⟨c2, p2, u2, h2⟩ := ih (s.evictLine e.key)
    refine ⟨c2, p2, u2, ?_⟩
    rw [List.foldl_cons, h2, h1]
    simp only [List.filter_filter, List.any_cons, Bool.not_or]
    congr 2
    funext x
    exact Bool.and_comm ..

/-- FLUSH changes L2 and what stands for its lines alone; without a range every line leaves. -/
theorem State.flushLines_eq (s : State) (scope slot lo count : Nat) : ∃ l2 ce past sysUe,
    s.flushLines scope slot lo count = { s with l2 := l2, ce := ce, past := past, sysUe := sysUe }
      ∧ (scope ≠ 2 → l2 = [] ∧ past = []) := by
  unfold State.flushLines
  dsimp only
  generalize (if scope = 2 then _ else [] : List (Nat × Nat)) = frames
  obtain ⟨ce, past, sysUe, h⟩ := State.evictLines_eq (s.l2.filter fun e => scope != 2 || frames.contains (e.key.1, e.key.2 / 32)) s
  rw [h]
  refine ⟨_, _, _, _, rfl, fun hs => ⟨?_, ?_⟩⟩
  · have h2 : (scope != 2) = true := bne_iff_ne.2 hs
    simp only [h2, Bool.true_or, List.filter_true, List.filter_eq_nil_iff, Bool.not_eq_true', Bool.not_eq_false]
    exact fun e he => List.any_eq_true.2 ⟨e, he, beq_self_eq_true _⟩
  · have h2 : (scope == 2) = false := beq_eq_false_iff_ne.2 hs
    simp [h2]

theorem TlbEntry.meets_iff (e : TlbEntry) (lo hi : Nat) : e.meets lo hi = true ↔ e.vbase < hi ∧ lo < e.vbase + e.leaf.pageSize := by
  simp [TlbEntry.meets]

theorem not_mine_iff {scope part asid p a : Nat} :
    (!(scope == 0 || (p == part && a == asid))) = true ↔ scope ≠ 0 ∧ ¬ (p = part ∧ a = asid) := by simp [imp_iff_not_or]

/-- A translation stays where the SCOPE, the context and the range do not name it. -/
theorem not_hit_iff (e : TlbEntry) {scope part asid lo hi : Nat} (h3 : scope ≠ 3) (hlt : scope < 4) :
    (!((scope == 0 || (e.part == part && e.asid == asid)) && (scope != 2 || e.meets lo hi))) = true ↔
      ¬ (scope = 0 ∨ e.part = part ∧ e.asid = asid ∧ (scope = 1 ∨ e.vbase < hi ∧ lo < e.vbase + e.leaf.pageSize)) := by
  rw [Bool.not_eq_true', ← Bool.not_eq_true, Bool.and_eq_true, Bool.or_eq_true, Bool.or_eq_true, Bool.and_eq_true, e.meets_iff]
  simp only [beq_iff_eq, bne_iff_ne]
  obtain rfl | rfl | rfl : scope = 0 ∨ scope = 1 ∨ scope = 2 := by omega
  · simp
  · simp
  · simp [and_assoc]

/-- R36: an invalidation whose SCOPE is not reserved removes what its fields name, and nothing else. -/
theorem State.invalidation_invalidated (s : State) {x : Nat} (lo : Nat) (hx : x / 2 ^ 28 % 4 ≠ 3) :
    Rules.invalidated s (s.invalidation x lo) x lo := by
  have hscope : bits x 29 28 = x / 2 ^ 28 % 4 := rfl
  have hslot : bits x 27 22 = x / 2 ^ 22 % 64 := rfl
  have hcount : bits x 19 0 = x % 2 ^ 20 := by simp [bits]
  have hflush : bit x 21 = decide (x / 2 ^ 21 % 2 = 1) := by
    rw [bit, Nat.testBit_eq_decide_div_mod_eq]
  obtain ⟨l2, ce, past, sysUe, hf, hall, hnone⟩ : ∃ l2 ce past sysUe,
      (if bit x 21 then s.flushLines (bits x 29 28) (bits x 27 22) lo (bits x 19 0) else s)
        = { s with l2 := l2, ce := ce, past := past, sysUe := sysUe }
      ∧ (x / 2 ^ 21 % 2 = 1 → x / 2 ^ 28 % 4 ≠ 2 → l2 = [] ∧ past = [])
      ∧ (x / 2 ^ 21 % 2 = 0 → l2 = s.l2 ∧ ce = s.ce ∧ past = s.past ∧ sysUe = s.sysUe) := by
    split
    · rename_i h
      rw [hflush, decide_eq_true_eq] at h
      obtain ⟨l2, ce, past, sysUe, hf, h2⟩ := s.flushLines_eq (bits x 29 28) (bits x 27 22) lo (bits x 19 0)
      exact ⟨l2, ce, past, sysUe, hf, fun _ => h2, fun h0 => by omega⟩
    · rename_i h
      rw [hflush, decide_eq_true_eq] at h
      exact ⟨s.l2, s.ce, s.past, s.sysUe, rfl, fun h1 => absurd h1 h, fun _ => ⟨rfl, rfl, rfl, rfl⟩⟩
  have hrun : s.invalidation x lo = ({ s with l2 := l2, ce := ce, past := past, sysUe := sysUe } : State).invalidate
      (x / 2 ^ 28 % 4) (x / 2 ^ 22 % 64) lo (x % 2 ^ 20) := by
    rw [← hf, ← hcount]
    rfl
  rw [hrun]
  have hlt : x / 2 ^ 28 % 4 < 4 := Nat.mod_lt _ (by decide)
  refine ⟨rfl, fun e => ?_, fun e => ?_, fun e => ?_, fun e => ?_, hnone, hall⟩
  · exact List.mem_filter.trans (and_congr_right fun _ => not_hit_iff e hx hlt)
  · exact List.mem_filter.trans (and_congr_right fun _ => not_hit_iff e hx hlt)
  · exact List.mem_filter.trans (and_congr_right fun _ => not_mine_iff)
  · refine List.mem_filter.trans (and_congr_right fun _ => ?_)
    simp

end Sys2Proof.Machine
end

section
/-!
SUPPORT. Invalidation by a host port and the counters of a channel (R36, R81). Settles O55.
-/
namespace Sys2Proof.Machine

theorem State.updPort_updPort (s : State) (p : Port) (f g : PortState → PortState) :
    (s.updPort p f).updPort p g = s.updPort p fun q => g (f q) := by simp only [State.updPort, updAt_updAt]

theorem invalidations : Rules.Invalidations := by
  intro s p w x hw ha _ hm held scope
  have hx := merges_word_toNat (by decide) hm
  have hrun : exec (.tlbInvalidate w) s = .next (if !w.one 31 || (s.portAt p).busy || scope == 3 then held s
      else ((held s).invalidation x ((s.portAt p).invva.toNat / 2 ^ 12 % 2 ^ 40 * 2 ^ 12)).updPort p fun q => { q with busy := true }) := by
    show done (s.writeView w .invCtl) = _
    rw [State.writeView_port hw ha]
    show Host.Outcome.next (s.writeInvCtl p w) = _
    simp only [State.writeInvCtl, Wr.word_of_merges (by decide) hm, hx]
    rfl
  refine ⟨fun h => ?_, fun h31 hb h3 => ?_, ?_⟩
  · rw [hrun, if_pos]
    simp only [Bool.or_eq_true, Bool.not_eq_true', beq_iff_eq]
    rcases h with h | h | h
    · exact .inl (.inl (Wr.one_of_not_sets h))
    · exact .inl (.inr h)
    · exact .inr h
  · refine ⟨_, (held s).invalidation_invalidated _ h3, ?_⟩
    rw [hrun, if_neg]
    simp [Wr.one_of_sets h31, hb, h3]
  · refine ⟨?_, fun hs => perform?_nil s _ hs, fun b hb => ?_⟩
    · show done ((s.performTranslated none).updPort p fun q => { q with busy := false }) = _
      rw [s.performTranslated_none]
      rfl
    · rw [State.perform?_stores, List.mem_filter] at hb
      intro hn
      simp [hn] at hb

theorem channelCounts : Rules.ChannelCounts := by
  intro s ch w p i hw ha hi hd hsolo
  have hrun : exec i s = .next { s with chan := updAt s.chan ch (Channel.clear (w.one 31) (w.one 30)) } := by
    have hview : exec i s = .next (s.writeView w (.chctl ch)) := by rcases hi with rfl | rfl <;> rfl
    rw [hview, State.writeView_port hw ha]
    simp only [State.writeReg, State.writeChctl, State.channelWorks_of hd hsolo, Bool.not_true, Bool.false_eq_true, if_false]
  refine ⟨fun h31 h30 => ?_, fun h31 h30 => ?_, fun h31 h30 => ?_⟩
  · rw [hrun, Wr.one_of_sets h31, Wr.one_of_not_sets h30]
    rfl
  · rw [hrun, Wr.one_of_not_sets h31, Wr.one_of_sets h30]
    rfl
  · rw [hrun, Wr.one_of_not_sets h31, Wr.one_of_not_sets h30]
    exact congrArg (fun l => Host.Outcome.next { s with chan := l }) (updAt_id s.chan ch)

/-- Settles O55: START removes what SCOPE names and raises BUSY, the completion performs what is held back and clears it; CECLR and
BACLR clear their own counts. -/
theorem invalidationsAndCounts : Obligations.InvalidationsAndCounts := ⟨invalidations, channelCounts⟩

end Sys2Proof.Machine
end

section
/-!
SUPPORT. Die links, port links, function resets and address translation services (R27, R440, R442, R447). Settles O44.
-/
namespace Sys2Proof.Machine

/-! ### Die links, R447 -/

/-- The contexts that end with the device's work: the enabled ones. -/
def State.enabledSlots (s : State) : List Nat := (List.range 64).filter fun n => (s.ctxAt n).en

theorem State.mem_enabledSlots {s : State} {n : Nat} : n ∈ s.enabledSlots ↔ n < 64 ∧ (s.ctxAt n).en = true := by
  simp [State.enabledSlots]

theorem State.endAll_rest' (s : State) : s.endAll.die = s.die ∧ s.endAll.ucie = s.ucie := by
  obtain ⟨-, -, -, hdie, -, -, hucie, -⟩ := State.endAll_rest s.enabledSlots s
  exact ⟨hdie, hucie⟩

theorem State.endAll_ended {s : State} {n : Nat} (hl : s.ctx.length = 64) (hn : n < 64) (he : (s.ctxAt n).en = true) :
    s.endAll.ctxAt n = (s.ctxAt n).ended 0 :=
  (State.endAll_ctxAt s.enabledSlots s (List.nodup_range.filter _) fun k hk => by rw [hl]; exact (State.mem_enabledSlots.1 hk).1).2.1 n
    (State.mem_enabledSlots.2 ⟨hn, he⟩)

/-- The last module of a pair is lost just where no other one stood. -/
theorem all_lost_iff {ms : List Bool} {k : Nat} : (ms.set k false).all (!·) = true ↔ ∀ j, j ≠ k → ms[j]? ≠ some true := by
  rw [List.all_eq_true]
  constructor
  · intro h j hj hm
    have := h true (List.mem_of_getElem? (i := j) (by rw [List.getElem?_set_ne (Ne.symm hj)]; exact hm))
    cases this
  · intro h x hx
    obtain ⟨j, hj⟩ := List.mem_iff_getElem?.1 hx
    by_cases hjk : j = k
    · subst hjk
      rw [List.getElem?_set, if_pos rfl] at hj
      split at hj <;> cases hj
      rfl
    · rw [List.getElem?_set_ne (Ne.symm hjk)] at hj
      cases x with
      | false => rfl
      | true => exact absurd hj (h j hjk)

/-- LINKOK of both dies of a pair cleared. -/
def State.unlinked (s : State) (a b : Nat) : State := [a, b].foldl (fun s d => s.updDie d fun x => { x with linkok := false }) s

theorem State.unlinked_linkok {s : State} {a b d : Nat} (h : d < s.die.length) (hd : d = a ∨ d = b) :
    ((s.unlinked a b).dieAt d).linkok = false := by
  by_cases hb : d = b
  · subst hb
    rw [State.unlinked, List.foldl_cons, List.foldl_cons, List.foldl_nil,
      State.dieAt_updDie_same _ (by rw [State.updDie, updAt_length]; exact h)]
  · obtain rfl := hd.resolve_right hb
    rw [State.unlinked, List.foldl_cons, List.foldl_cons, List.foldl_nil, State.dieAt_updDie_other _ hb, State.dieAt_updDie_same _ h]

theorem State.unlinked_other {s : State} {a b d : Nat} (ha : d ≠ a) (hb : d ≠ b) : (s.unlinked a b).dieAt d = s.dieAt d :=
  (State.dieAt_updDie_other _ hb).trans (State.dieAt_updDie_other _ ha)

theorem State.mayPlace_eq_false {s : State} {e : Nat × Nat × List Bool} (h : e ∈ s.ucie) (hl : e.2.2.all (!·) = true) : s.mayPlace = false := by
  rw [State.mayPlace, List.any_eq_true.2 ⟨e, h, hl⟩]
  exact Bool.and_false _

section
variable {s : State} {a b k : Nat} {ms : List Bool} {pre post : List (Nat × Nat × List Bool)}

/-- The modules of the device with one of a pair dropped. -/
def dropped (pre post : List (Nat × Nat × List Bool)) (a b k : Nat) (ms : List Bool) : List (Nat × Nat × List Bool) :=
  pre ++ (a, b, ms.set k false) :: post

theorem ucie_dropped (hu : s.ucie = pre ++ (a, b, ms) :: post) (ho : ∀ e ∈ pre ++ post, (e.1, e.2.1) ≠ (a, b)) (hk : ms[k]? = some true) :
    let hit (e : Nat × Nat × List Bool) : Bool := e.1 == a && e.2.1 == b && e.2.2.getD k false
    s.ucie.any hit = true
    ∧ (s.ucie.map fun e => if hit e then (e.1, e.2.1, updAt e.2.2 k fun _ => false) else e) = dropped pre post a b k ms
    ∧ ((dropped pre post a b k ms).any fun e => e.1 == a && e.2.1 == b && e.2.2.all (!·)) = (ms.set k false).all (!·) := by
  intro hit
  have hother (e : Nat × Nat × List Bool) (he : e ∈ pre ∨ e ∈ post) : (e.1 == a && e.2.1 == b) = false := by
    have := ho e (List.mem_append.2 he)
    simpa [Prod.ext_iff] using this
  have hmiss (e : Nat × Nat × List Bool) (he : e ∈ pre ∨ e ∈ post) : hit e = false := by simp only [hit, hother e he, Bool.false_and]
  have hhit : hit (a, b, ms) = true := by simp [hit, hk]
  have hmap (l : List (Nat × Nat × List Bool)) (hl : ∀ e ∈ l, e ∈ pre ∨ e ∈ post) :
      (l.map fun e => if hit e then (e.1, e.2.1, updAt e.2.2 k fun _ => false) else e) = l :=
    (List.map_congr_left fun e he => by rw [hmiss e (hl e he)]; rfl).trans (List.map_id l)
  have hany (l : List (Nat × Nat × List Bool)) (hl : ∀ e ∈ l, e ∈ pre ∨ e ∈ post) :
      (l.any fun e => e.1 == a && e.2.1 == b && e.2.2.all (!·)) = false :=
    List.any_eq_false.2 fun e he => by rw [hother e (hl e he)]; simp
  refine ⟨?_, ?_, ?_⟩
  · rw [hu, List.any_append, List.any_cons, hhit]; simp
  · rw [hu, List.map_append, List.map_cons, hmap pre fun e => .inl, hmap post fun e => .inr, hhit, if_pos rfl, updAt_const]; rfl
  · rw [dropped, List.any_append, List.any_cons, hany pre fun e => .inl, hany post fun e => .inr]; simp

theorem execUcieModuleFail_dropped (hu : s.ucie = pre ++ (a, b, ms) :: post) (ho : ∀ e ∈ pre ++ post, (e.1, e.2.1) ≠ (a, b))
    (hk : ms[k]? = some true) :
    let u : State := { s with ucie := dropped pre post a b k ms }
    exec (.ucieModuleFail a b k false) s = .next (if (ms.set k false).all (!·) then
      if s.stage = .stage2 then { (u.unlinked a b).endAll with linklost := true } else u.unlinked a b else u) := by
  obtain ⟨hany, hmap, hlost⟩ := ucie_dropped hu ho hk
  show execUcieModuleFail a b k false s = _
  simp only [execUcieModuleFail, Bool.false_eq_true, if_false, hany, Bool.not_true, hmap, hlost]
  by_cases hl : (ms.set k false).all (!·) = true
  · by_cases h2 : s.stage = .stage2
    · simp [hl, h2, done, State.unlinked]
    · simp [hl, h2, done, State.unlinked]
  · simp [hl, done]

end

theorem dieLinks : Rules.DieLinks := by
  intro s a b k ms pre post hu ho _ _ hk hctx hdie ha hb
  refine ⟨rfl, _, execUcieModuleFail_dropped hu ho hk, ?_⟩
  generalize hu' : ({ s with ucie := dropped pre post a b k ms } : State) = u
  obtain ⟨hud, huc, hul, hux, hus⟩ : u.die = s.die ∧ u.ctx = s.ctx ∧ u.linklost = s.linklost ∧ u.ucie = dropped pre post a b k ms
      ∧ u.stage = s.stage := by subst hu'; exact ⟨rfl, rfl, rfl, rfl, rfl⟩
  clear hu'
  have hlink (d : Nat) (hd : d = a ∨ d = b) : ((u.unlinked a b).dieAt d).linkok = false :=
    State.unlinked_linkok (by rw [hud, hdie]; omega) hd
  have hrest := (u.unlinked a b).endAll_rest'
  by_cases hlost : (ms.set k false).all (!·) = true
  · have hnone := all_lost_iff.1 hlost
    rw [if_pos hlost]
    refine ⟨?_, fun ⟨j, hj, hm⟩ => absurd hm (hnone j hj), fun _ => ?_, fun _ h2 => ?_⟩
    · split
      · exact hrest.2.trans hux
      · exact hux
    · have hkeep : ∀ d, (if s.stage = .stage2 then { (u.unlinked a b).endAll with linklost := true } else u.unlinked a b).dieAt d =
          (u.unlinked a b).dieAt d := by
        intro d
        split
        · show (u.unlinked a b).endAll.die.getD d _ = (u.unlinked a b).die.getD d _
          rw [hrest.1]
        · rfl
      simp only [hkeep]
      refine ⟨hlink a (.inl rfl), hlink b (.inr rfl), fun d hda hdb => ?_⟩
      rw [State.unlinked_other hda hdb, State.dieAt, State.dieAt, hud]
    · rw [if_pos h2]
      refine ⟨rfl, State.mayPlace_eq_false (e := (a, b, ms.set k false)) ?_ hlost, fun n hn he => ?_⟩
      · show _ ∈ (u.unlinked a b).endAll.ucie
        rw [hrest.2]
        show _ ∈ u.ucie
        rw [hux, dropped]
        simp
      · have hctxAt : (u.unlinked a b).ctxAt n = s.ctxAt n := congrArg (fun l => l.getD n {}) huc
        have hended : (u.unlinked a b).endAll.ctxAt n = (s.ctxAt n).ended 0 := by
          rw [← hctxAt]
          exact State.endAll_ended (by rw [← hctx, ← huc]; rfl) hn (by rw [hctxAt]; exact he)
        show ((u.unlinked a b).endAll.ctxAt n).faulted = true ∧ (_ → ((u.unlinked a b).endAll.ctxAt n).fsub = 0)
        rw [hended]
        exact ⟨Ctx.ended_faulted _ 0, Ctx.ended_fsub 0⟩
  · rw [if_neg hlost]
    refine ⟨hux, fun _ => ⟨huc, hul, hud⟩, fun h => absurd (all_lost_iff.2 h) hlost, fun h => absurd (all_lost_iff.2 h) hlost⟩

/-! ### Ports and functions, R440, R442 -/

theorem State.portAt_updPort {s : State} {p : Port} {f : PortState → PortState} (h : s.ports.length = 2) :
    (s.updPort p f).portAt p = f (s.portAt p) := updAt_getD_same f {} (by cases p <;> simp [h])

theorem State.vfSlots_nodup (s : State) (v : Nat) : (s.vfSlots v).Nodup := by
  unfold State.vfSlots
  split
  · exact List.nodup_range.filter _
  · exact List.nodup_nil

theorem State.lt_of_mem_vfSlots {s : State} {v n : Nat} (h : n ∈ s.vfSlots v) : n < 64 := by
  unfold State.vfSlots at h
  split at h
  · exact List.mem_range.1 (List.mem_filter.1 h).1
  · cases h

/-- Contexts changed one after another, each once. -/
theorem State.updCtxs_eq (f : Ctx → Ctx) : ∀ (ns : List Nat) (s : State), ns.Nodup → (∀ n ∈ ns, n < s.ctx.length) →
    let t := ns.foldl (fun s n => s.updCtx n f) s
    (∀ n, n ∈ ns → t.ctxAt n = f (s.ctxAt n)) ∧ (∀ n, n ∉ ns → t.ctxAt n = s.ctxAt n) ∧ { t with ctx := s.ctx } = s
  | [], s, _, _ => ⟨fun _ h => absurd h List.not_mem_nil, fun _ _ => rfl, rfl⟩
  | a :: ns, s, hn, hl => by
    obtain ⟨ha, hn⟩ := List.nodup_cons.1 hn
    obtain ⟨h1, h2, h3⟩ := State.updCtxs_eq f ns (s.updCtx a f) hn fun n h => by
      rw [State.updCtx, updAt_length]; exact hl n (.tail _ h)
    refine ⟨fun n h => ?_, fun n h => ?_, congrArg (fun t : State => { t with ctx := s.ctx }) h3⟩
    · rcases List.mem_cons.1 h with rfl | h
      · exact (h2 n ha).trans (State.ctxAt_updCtx_same f (hl n (.head _)))
      · exact (h1 n h).trans (congrArg f (State.ctxAt_updCtx_other f fun e => ha (e ▸ h)))
    · obtain ⟨hna, hns⟩ := not_or.1 (mt List.mem_cons.2 h)
      exact (h2 n hns).trans (State.ctxAt_updCtx_other f hna)

section
variable {s : State} {p : Port}

theorem State.hasPort_of (hp : p = .a ∨ s.part.form ≠ .bareDie) : s.hasPort p = true := by
  rw [State.hasPort, Bool.or_eq_true, beq_iff_eq, bne_iff_ne]; exact hp

theorem exec_portLinkDown (hpow : s.powered = true) (hp : s.hasPort p = true) : exec (.portLinkDown p) s = .next
    { s.updPort p (fun q => { q with up := false }) with mgmt := if s.mgmt = .port p then .free else s.mgmt } := by
  show execPortLinkDown p s = _
  by_cases h : s.mgmt = .port p <;> simp only [execPortLinkDown, hpow, hp, done, State.updPort_mgmt, h] <;> rfl

theorem exec_pfFlr (hpow : s.powered = true) (hp : s.hasPort p = true) : exec (.pfFlr p) s = .next
    (s.updPort p fun q => { q with up := true, mboxLen := 0, mboxBusy := false, mboxSem := false, mbox := [], sent := [], sentLen := 0 }) := by
  show execPfFlr p s = _
  simp only [execPfFlr, hpow, hp, done, Bool.not_true, Bool.or_self, Bool.false_eq_true, if_false]

theorem exec_vfFlr (hpow : s.powered = true) (v : Nat) : exec (.vfFlr v) s = .next
    ((s.vfSlots v).foldl (fun s n => s.updCtx n fun c => { c with ctrl := c.ctrl &&& 0x7FFFFFFF#32 }) s) := by
  show execVfFlr v s = _
  simp only [execVfFlr, hpow, done, Bool.not_true, Bool.false_eq_true, if_false]

end

theorem portEvents : Rules.PortEvents := by
  intro s p hpow hports hp
  have hhas := State.hasPort_of hp
  refine ⟨⟨_, exec_portLinkDown hpow hhas, ?_, rfl, rfl⟩, ⟨_, exec_pfFlr hpow hhas, ?_⟩, fun v hctx => ⟨_, exec_vfFlr hpow v, ?_⟩⟩
  · exact congrArg PortState.up (State.portAt_updPort (f := fun q => { q with up := false }) hports)
  · rw [State.portAt_updPort hports]
    exact ⟨rfl, rfl, rfl, rfl, rfl⟩
  · exact State.updCtxs_eq _ (s.vfSlots v) s (s.vfSlots_nodup v) fun n hn => by rw [hctx]; exact State.lt_of_mem_vfSlots hn

/-! ### Address translation services, R27 -/

/-- Several entries of the address translation caches filled. -/
theorem State.fillAtcs_eq {α : Type} (f : α → AtsEntry) (ls : List α) (s : State) : ls.foldl (fun s r => s.fillAtc (f r)) s =
    { s with atc := ls.foldl (fun l r => capped (fun x => x.die == (f r).die) 1024
      (f r :: l.filter fun x => !(x.die == (f r).die && x.ctx == (f r).ctx && x.page == (f r).page))) s.atc } := by
  induction ls generalizing s with
  | nil => rfl
  | cons r ls ih => rw [List.foldl_cons, ih]; rfl

theorem portNo_eq (p : Port) : portNo p = if p = .a then 0 else 1 := by cases p <;> rfl

theorem exec_atsInvalidation (s : State) (p : Port) (page count : Nat) :
    let u := s.perform? fun b => b.team.isNone && b.port == some (if p = .a then 0 else 1)
    exec (.atsInvalidation p page count) s = .next { u with atc := u.atc.filter fun e =>
      !((u.ctxAt e.ctx).port == (if p = .a then 0 else 1) && decide (page ≤ e.page) && decide (e.page < page + count)) } := by
  show execAtsInvalidation p page count s = _
  rw [← portNo_eq]
  simp only [execAtsInvalidation, State.performTranslated, Option.isNone_some, Bool.false_or]
  rfl

theorem addressServices : Rules.AddressServices := by
  refine ⟨fun s p page count => ?_, fun s die slot page hats hpri => ?_, fun s slot page target hpri => ?_⟩
  · intro u
    refine ⟨_, exec_atsInvalidation s p page count, rfl, fun h => perform?_nil s _ h, fun b hb ht => ?_, fun e => ?_⟩
    · have hb : b ∈ u.stores := hb
      rw [State.perform?_stores, List.mem_filter, ht] at hb
      simpa using hb.2
    · refine List.mem_filter.trans (and_congr_right fun _ => ?_)
      rw [Bool.not_eq_true', ← Bool.not_eq_true, Bool.and_eq_true, Bool.and_eq_true, beq_iff_eq, decide_eq_true_eq, decide_eq_true_eq, and_assoc]
  · have hon : (!s.ats.contains (die, slot, page) || s.pri.contains (slot, page)) = false := by simp [hats, hpri]
    refine ⟨fun target => ?_, ?_⟩
    · rw [State.answerAts, if_neg (by rw [hon]; decide)]; rfl
    · rw [State.answerAts, if_neg (by rw [hon]; decide)]
  · have hon : (!s.pri.contains (slot, page)) = false := by simp [hpri]
    have hanswer (x : Option Nat) : s.answerPri slot page x = { s with
        pri := s.pri.filter fun p => p != (slot, page)
        ats := s.ats.filter fun r => !(r.2 == (slot, page))
        atc := (s.ats.filter fun r => r.2 == (slot, page)).foldl (fun l r => capped (fun x => x.die == r.1) 1024
          (⟨r.1, slot, page, x⟩ :: l.filter fun x => !(x.die == r.1 && x.ctx == slot && x.page == page))) s.atc } := by
      rw [State.answerPri, if_neg (by rw [hon]; decide)]
      exact State.fillAtcs_eq _ _ _
    exact ⟨congrArg _ (hanswer (some target)), congrArg _ (hanswer none)⟩

/-- Settles O44: a dropped module leaves the others of its pair in use, and with the last the device's contexts end; a link's fall frees
a semaphore of its port, and resets touch their function alone; the caches of the dies follow the host's answers. -/
theorem linkEvents : Obligations.LinkEvents := ⟨dieLinks, portEvents, addressServices⟩

end Sys2Proof.Machine
end

section
/-!
SUPPORT. The device right after reset (R29 to R32, R36, R42, R81, R201, R421, R439, R443, R448): what its lists hold at any index,
and what each register reads. Settles O13.
-/
namespace Sys2Proof.Machine

theorem getD_replicate_same {α : Type} (n i : Nat) (x : α) : (List.replicate n x).getD i x = x := by
  rw [List.getD_eq_getElem?_getD, List.getElem?_replicate]
  split <;> rfl

theorem reset_ctxAt (n : Nat) : State.reset.ctxAt n = {} := getD_replicate_same 64 n ({} : Ctx)
theorem reset_portAt (p : Port) : State.reset.portAt p = {} := by cases p <;> rfl
theorem reset_own (p : Port) : State.reset.own (.port p) = {} := reset_portAt p
theorem reset_chan (n : Nat) : State.reset.chan.getD n {} = {} := getD_replicate_same 48 n ({} : Channel)
theorem reset_lq (n q : Nat) : (State.reset.ctxAt n).lq.getD q {} = {} := by
  rw [reset_ctxAt]; exact getD_replicate_same 4 q ({} : LQ)
theorem reset_watch (n k : Nat) : (State.reset.ctxAt n).watch.getD k 0 = 0 := by
  rw [reset_ctxAt]; exact getD_replicate_same 4 k 0
theorem reset_partWin (n : Nat) : State.reset.partWin.getD n 0 = 0 := getD_replicate_same 4 n 0
theorem reset_vfmap (n : Nat) : State.reset.vfmap.getD n 0 = 0 := getD_replicate_same 16 n 0
theorem reset_coreAt (c : Nat) : State.reset.coreAt c = {} := rfl
theorem reset_dieAt {d : Nat} (h : d < 4) : State.reset.dieAt d = { en := BitVec.allOnes 48 } := by
  rw [State.dieAt, List.getD_eq_getElem?_getD, State.reset, List.getElem?_replicate, if_pos h]; rfl
theorem reset_readDwin (c o : Nat) : State.reset.readDwin c o = 0 := rfl

/-- A register of a die that the part has. -/
theorem reset_ofDie (f : Die → Nat) {d : Nat} (h : d < 4) :
    (if d < State.reset.part.form.dies then f (State.reset.dieAt d) else 0) = f { en := BitVec.allOnes 48 } := by
  rw [if_pos (show d < State.reset.part.form.dies from h), reset_dieAt h]
theorem reset_ofDie_zero (f : Die → Nat) (d : Nat) (h : f { en := BitVec.allOnes 48 } = 0) :
    (if d < State.reset.part.form.dies then f (State.reset.dieAt d) else 0) = 0 := by
  split
  · rename_i hd
    rw [reset_dieAt hd, h]
  · rfl

theorem Store.rd_nil (a n : Nat) : Store.rd [] a n = 0 := by
  rw [Store.rd]
  induction n generalizing a with
  | zero => rfl
  | succ n ih => rw [Store.getAll, leNat, ih]; rfl

theorem bits_zero (hi lo : Nat) : bits 0 hi lo = 0 := by simp [bits]

/-- Every register with a reset value reads as it. -/
theorem reset_readReg (r : Reg) (p : Port) (v : Nat) (h : Rules.resetValue r = some v) : State.reset.readReg (.port p) r = v := by
  cases r with
  | devId | dieCores d | dieStat d => cases h
  | sluiceCtl d =>
    obtain ⟨hd, hv⟩ := Option.ite_none_right_eq_some.1 h
    cases hv
    exact reset_ofDie (fun x => x.sluiceCtl.toNat) hd
  | sluiceHint d k =>
    obtain ⟨hd, hk⟩ := Option.ite_none_right_eq_some.1 h
    refine (reset_ofDie (fun x => (x.sluiceHint.getD k 0).toNat) hd).trans ?_
    match k with
    | 0 | 1 | 2 => cases hk; rfl
  | mfldWin d =>
    obtain ⟨hd, hv⟩ := Option.ite_none_right_eq_some.1 h
    cases hv
    exact reset_ofDie (fun x => x.mfldWin.toNat) hd
  | dieHalt d =>
    cases h
    exact reset_ofDie_zero (fun x => x.halt.toNat) d rfl
  | dieTemp d =>
    cases h
    exact reset_ofDie_zero (fun x => x.peak * 2 ^ 8 + x.temp) d rfl
  | ptroot n | ctrl n | status n | fqbase n | fqsize n | rfmtab n | sumpBase n | sumpCtl n
  | trapctl n | trapstat n | prectl n | savesz n | savebase n | traprec n k | pageStatus n | fqHead n | apVbase n =>
    cases h
    simp only [State.readReg, reset_ctxAt]
    rfl
  | sumpHead n | sumpTail n | fqTail n =>
    cases h
    simp only [State.readReg, reset_ctxAt]
  | lqBase n q | lqCtl n q | lqStatus n q | lqTail n q | lqHead n q =>
    cases h
    simp only [State.readReg, reset_lq]
    rfl
  | watch n k half =>
    cases h
    simp only [State.readReg, reset_watch]
    exact bits_zero _ _
  | vfMap k half =>
    cases h
    simp only [State.readReg, reset_vfmap]
    exact bits_zero _ _
  | partWin n =>
    cases h
    simp only [State.readReg, reset_partWin]
    rfl
  | mboxCtl | invVa | invCtl =>
    cases h
    simp only [State.readReg, reset_own]
    rfl
  | mboxData k =>
    cases h
    simp only [State.readReg, reset_own]
    exact Store.rd_nil _ _
  | chstat ch =>
    cases h
    simp only [State.readReg, reset_chan, Channel.stat, Bool.and_false]
    exact ite_self _
  | ueaddr ch | baerr ch =>
    cases h
    simp only [State.readReg, reset_chan]
    split <;> rfl
  | dwinSel gc | dwinBase gc | dwinStat gc | dwin gc o =>
    cases h
    simp only [State.readReg, reset_coreAt, reset_readDwin]
    split <;> rfl
  | _ => cases h; rfl

/-- Settles O13: every list of the device holds its reset entry at every index, and each register reads from it. -/
theorem resetMachine : Obligations.ResetMachine := by
  refine ⟨reset_readReg, rfl, rfl, rfl, rfl, rfl, rfl, rfl, rfl, fun c hc => ?_, fun q hq => ?_, ?_⟩
  · rw [List.eq_of_mem_replicate (show c ∈ List.replicate 64 ({} : Ctx) from hc)]
    exact ⟨rfl, rfl, rfl, rfl, rfl, rfl, rfl⟩
  · rw [List.eq_of_mem_replicate (show q ∈ List.replicate 2 ({} : PortState) from hq)]
    exact ⟨rfl, rfl⟩
  · refine ⟨rfl, rfl, rfl, rfl, rfl, rfl, rfl, rfl, rfl, rfl, rfl, rfl, rfl, rfl, rfl, rfl, rfl, fun q => ?_⟩
    cases q <;> rfl

end Sys2Proof.Machine
end

section
/-!
SUPPORT. The system instructions of a control core (R36, R373, R374, R422, R424, R438, R440): how they complete, what an access names,
and what lanes that resume or end leave. Settles O54.
-/
namespace Sys2Proof.Machine

/-! ### Completion, R372 -/

/-- A system instruction that answers a value completes with it in its register. -/
theorem sysResult_control {s t : State} {d v : Nat} {f : State → State × Nat} (hw : s.cur.who = .control) (hf : f s = (t, v))
    (hc : t.cur = s.cur) : sysResult d f s = .next (Rules.controlDone t d (BitVec.ofNat 32 v)) := by
  have hwt : t.cur.who = .control := by rw [hc, hw]
  have hset : t.setUni d (BitVec.ofNat 32 v) = t.updCore t.cur.core fun c => { c with ctlRegs := c.ctlRegs.set d (BitVec.ofNat 32 v) } := by
    simp only [State.setUni, hwt]
  simp only [sysResult, perClass, hf, hset, done, State.advance, State.updCore_cur, hwt, State.updCore_updCore]
  rfl

/-! ### Accesses to registers, R373, R438 -/

theorem bar0Reg_base {off b : Nat} {r : Reg} (h : bar0Reg off = some (r, b)) : b ≤ off := (spans_bar0 off r b h).1

/-- `MGMT_SEM` stands at one offset of the privileged view. -/
theorem bar0Reg_mgmtSem {off b : Nat} (h : bar0Reg off = some (.mgmtSem, b)) : b = 0xC := by
  unfold bar0Reg at h
  split_ifs at h
  · obtain ⟨w, hm, -⟩ := mem_of_regIn h
    unfold deviceRegs at hm
    dsimp only at hm
    split_ifs at hm <;> simp_all
  · obtain ⟨w, hm, -⟩ := mem_of_regIn h
    unfold blockRegs at hm
    dsimp only at hm
    split_ifs at hm <;> simp_all
  · obtain ⟨w, hm, -⟩ := mem_of_regIn h
    unfold debugRegs at hm
    dsimp only at hm
    split at hm <;> simp_all

theorem State.sysRead_other {s : State} {a b : Nat} {r : Reg} (h4 : a % 4 = 0) (hr : bar0Reg a = some (r, b))
    (ha : s.answers (.firmware s.cur.core) r = true) (hs : r ≠ .mgmtSem) :
    s.sysRead a = (s, s.readReg (.firmware s.cur.core) r / 2 ^ (8 * (a - b)) % 2 ^ 32) := by
  simp only [State.sysRead, h4, hr, ha, hs, ne_eq, not_true, if_false, Bool.not_true, Bool.false_eq_true]

theorem State.sysRead_none {s : State} {a : Nat} (h : a % 4 ≠ 0 ∨ bar0Reg a = none) : s.sysRead a = (s, 0) := by
  unfold State.sysRead
  by_cases h4 : a % 4 = 0
  · simp only [h4, h.resolve_left (not_not.2 h4), ne_eq, not_true, if_false]
  · exact if_pos h4

/-- A read of a free semaphore takes it for firmware. -/
theorem State.sysRead_mgmtSem {s : State} {a b : Nat} (h4 : a % 4 = 0) (hr : bar0Reg a = some (.mgmtSem, b))
    (ha : s.answers (.firmware s.cur.core) .mgmtSem = true) (hf : s.mgmt = .free) :
    s.sysRead a = ({ s with mgmt := .firmware }, 0xC0000000) := by
  have hb := bar0Reg_mgmtSem hr
  obtain ⟨h1, h2, -⟩ := spans_bar0 a _ _ hr
  obtain rfl : a = b := by simp only [Reg.width] at h2; omega
  simp only [State.sysRead, h4, hr, ha, ne_eq, not_true, if_false, Bool.not_true, Bool.false_eq_true, if_true, State.readSem, hf,
    State.readReg, Nat.sub_self]
  rfl

theorem syswr_covered {s : State} {c off b : Nat} {r : Reg} {w : Wr} (hw : w.by_ = .firmware c) (hen : w.en = 0x0F)
    (h : ∀ k, k < 4 → bar0Reg (off + k) = some (r, b)) : s.covered w.by_ .bar0 off w.en.getLsbD 8 = [(r, b)] := by
  have hk (k : Nat) (hk : w.en.getLsbD k = true) : k < 4 := by
    have := lowHalf_getLsbD k
    rw [hen, show (0x0F : BitVec 8) = 0x0F#8 from rfl, this] at hk
    exact of_decide_eq_true hk
  rw [hw]
  exact State.covered_eq_singleton ⟨0, by decide, by rw [hen]; rfl, h 0 (by decide)⟩ fun k _ hn => .inr (h k (hk k hn))

theorem State.writeUnit_syswr {s : State} {off b : Nat} {r : Reg} (x : BitVec 64) (h : ∀ k, k < 4 → bar0Reg (off + k) = some (r, b))
    (ha : s.answers (.firmware s.cur.core) r = true) :
    s.writeUnit .bar0 off ⟨.firmware s.cur.core, x, 0x0F⟩ =
      s.writeReg (.firmware s.cur.core) ⟨.firmware s.cur.core, x <<< (8 * (off - b)), 0xF#8 <<< (off - b)⟩ r := by
  rw [State.writeUnit, syswr_covered rfl rfl h]
  simp only [List.foldl_cons, List.foldl_nil, ha, if_true, Wr.at_]
  rw [if_pos (bar0Reg_base (off := off) (h 0 (by decide)))]
  rfl

theorem State.invalidation_cur (s : State) (x lo : Nat) : (s.invalidation x lo).cur = s.cur := by
  rw [State.invalidation]
  split
  · obtain ⟨l2, ce, past, sysUe, h, -⟩ := s.flushLines_eq (bits x 29 28) (bits x 27 22) lo (bits x 19 0)
    rw [h]; rfl
  · rfl

/-- The fields of `tlbinv` that are reserved. -/
theorem tlbinv_reserved_iff (x : Word) : (bits x.toNat 31 30 ≠ 0 ∨ bits x.toNat 29 28 = 3) ↔
    (x.toNat / 2 ^ 30 ≠ 0 ∨ x.toNat / 2 ^ 28 % 4 = 3) := by
  have := x.isLt
  simp only [bits]
  omega

theorem systemRegisters : Rules.SystemRegisters := by
  intro s d a b hw off me
  refine ⟨fun h => ?_, fun r base h4 hr ha => ⟨fun hs => ?_, fun hs hf => ?_, fun hall => ?_⟩, fun h => ?_, fun h1 h3 => ?_⟩
  · exact sysResult_control hw (State.sysRead_none h) rfl
  · refine (sysResult_control hw (State.sysRead_other h4 hr ha hs) rfl).trans ?_
    rw [show BitVec.ofNat 32 (s.readReg me r / 2 ^ (8 * (off - base)) % 2 ^ 32) = BitVec.ofNat 32 (s.readReg me r / 2 ^ (8 * (off - base)))
      from BitVec.eq_of_toNat_eq (by simp)]
  · subst hs
    exact sysResult_control hw (State.sysRead_mgmtSem h4 hr ha hf) rfl
  · show done ((s.writeUnit .bar0 off ⟨me, (s.reg 0 b 0).setWidth 64, 0x0F⟩).advance) = _
    rw [State.writeUnit_syswr _ hall ha]
    rfl
  · exact sysResult_control hw (if_pos ((tlbinv_reserved_iff _).2 h)) rfl
  · refine ⟨(s.performTranslated none).invalidation (s.reg 0 b 0).toNat ((s.pair 0 a).toNat / 2 ^ 12 % 2 ^ 40 * 2 ^ 12), ?_, ?_⟩
    · refine sysResult_control hw (if_neg fun h => ?_) ?_
      · rcases (tlbinv_reserved_iff _).1 h with h | h
        · exact h h1
        · exact h3 h
      · rw [State.invalidation_cur, s.performTranslated_none, State.perform?_cur]
    · rw [s.performTranslated_none]
      exact State.invalidation_invalidated _ _ h3

/-! ### Groups, R291, R373, R425 -/

/-- The elements of a list that satisfy a predicate of their place, counted by place. -/
theorem length_filter_zipIdx {α : Type} (l : List α) (d : α) (p : Nat → α → Bool) :
    (l.zipIdx.filter fun e => p e.2 e.1).length = ((List.range l.length).filter fun i => p i (l.getD i d)).length := by
  have h : l.zipIdx = (List.range l.length).map fun i => (l.getD i d, i) := by
    refine List.ext_getElem (by simp) fun i h1 h2 => ?_
    simp at h1
    simp [h1]
  rw [h, List.filter_map, List.length_map]
  rfl

theorem State.unmap_dwinSlot (s : State) (core slot : Nat) : ((s.unmap core slot).coreAt core).dwinSlot ≠ some slot := by
  rw [State.unmap, State.coreAt_updCore_same]
  split
  · simp
  · assumption

/-- A group whose held lanes go on. -/
theorem State.group?_resumeTrap {s : State} {core slot : Nat} {g : Group} (mask : Nat) (f : Lane → Lane) (h : s.group? core slot = some g) :
    ∃ k, (s.resumeTrap core slot mask f).group? core slot = some k ∧ k.lanes = g.lanes.mapIdx fun l x =>
      if bit mask l && x.trapped then f { x with st := .ready, hold := .none } else x := by
  refine ⟨_, State.group?_updGroup h fun _ => rfl, ?_⟩
  rw [List.mapIdx_eq_zipIdx_map]
  rfl

theorem Group.lane_updLane_same {g : Group} {l : Nat} (f : Lane → Lane) (h : l < g.lanes.length) : (g.updLane l f).lane l = f (g.lane l) :=
  updAt_getD_same f {} h
theorem Group.lane_updLane_other {g : Group} {l k : Nat} (f : Lane → Lane) (h : k ≠ l) : (g.updLane l f).lane k = g.lane k :=
  updAt_getD_other f {} h

/-- A lane of a group ends. -/
theorem State.exitLane_eq {s : State} {core slot : Nat} {g : Group} (a : Nat) (hg : s.group? core slot = some g) :
    { s.exitLane core slot a with groups := s.groups, launches := s.launches } = s
    ∧ ∃ b, (s.exitLane core slot a).group? core slot = some (g.updLane a fun t => t.exit g.tasks b) := by
  have hleft (k : Option (Nat × Nat × Nat)) : ∃ ls, s.gridTaskLeft k = { s with launches := ls } := by
    cases k with
    | none => exact ⟨s.launches, rfl⟩
    | some k => exact ⟨_, rfl⟩
  obtain ⟨ls, hls⟩ := hleft (g.lane a).grid
  simp only [State.exitLane, hg, hls]
  exact ⟨rfl, _, State.group?_updGroup (s := { s with launches := ls }) hg fun _ => rfl⟩

/-- Lanes of a group end, one after another: each has ended, and nothing but them and what grids count of their tasks has changed. -/
theorem State.exitLanes (core slot : Nat) : ∀ (ls : List Nat) (s : State) (g : Group), ls.Nodup → s.group? core slot = some g →
    let t := ls.foldl (fun s l => s.exitLane core slot l) s
    { t with groups := s.groups, launches := s.launches } = s ∧ ∃ h, t.group? core slot = some h ∧ h.lanes.length = g.lanes.length
      ∧ (∀ l ∈ ls, l < g.lanes.length → (h.lane l).st = (if g.tasks then .vacant else .exited) ∧ (h.lane l).ret = [])
      ∧ ∀ l, l ∉ ls → h.lane l = g.lane l
  | [], s, g, _, hg => ⟨rfl, g, hg, rfl, fun _ h => absurd h List.not_mem_nil, fun _ _ => rfl⟩
  | a :: ls, s, g, hn, hg => by
    obtain ⟨ha, hn⟩ := List.nodup_cons.1 hn
    obtain ⟨hs, b, hb⟩ := State.exitLane_eq a hg
    obtain ⟨ht, h, hh, hlen, hin, hout⟩ := State.exitLanes core slot ls _ _ hn hb
    have hlen' : (g.updLane a fun t => t.exit g.tasks b).lanes.length = g.lanes.length := updAt_length ..
    rw [hlen'] at hlen hin
    refine ⟨?_, h, hh, hlen, fun l hl hlt => ?_, fun l hl => ?_⟩
    · exact (congrArg (fun t : State => { t with groups := s.groups, launches := s.launches }) ht).trans hs
    · rcases List.mem_cons.1 hl with rfl | hl
      · rw [hout l ha, Group.lane_updLane_same _ hlt]
        exact ⟨rfl, rfl⟩
      · exact hin l hl hlt
    · obtain ⟨hla, hls⟩ := not_or.1 (mt List.mem_cons.2 hl)
      rw [hout l hls, Group.lane_updLane_other _ hla]

theorem State.exitLanes_rest {s : State} {core slot : Nat} {ls : List Nat} {g : Group} (hn : ls.Nodup) (hg : s.group? core slot = some g) :
    let t := ls.foldl (fun t l => t.exitLane core slot l) s
    t.cur = s.cur ∧ t.cores = s.cores ∧ t.mem = s.mem ∧ t.teams = s.teams := by
  obtain ⟨h, -⟩ := State.exitLanes core slot ls s g hn hg
  have hcur := congrArg State.cur h
  have hcores := congrArg State.cores h
  have hmem := congrArg State.mem h
  have hteams := congrArg State.teams h
  exact ⟨hcur, hcores, hmem, hteams⟩

section
variable {s : State} {d slot mask : Nat} {a b : Src}

/-- The lanes of a group, counted. -/
theorem Group.count_lanes {g : Group} (hl : g.lanes.length = 32) (p : Nat → Lane → Bool) :
    (g.lanes.zipIdx.filter fun e => p e.2 e.1).length = ((List.range 32).filter fun l => p l (g.lane l)).length := by
  rw [length_filter_zipIdx _ {}, hl]; rfl

/-- The lanes that `gresume` lets go on and those that `gkill` ends. -/
def resumes (mask l : Nat) (t : Lane) : Bool := mask.testBit l && t.st == .stopped && t.hold == .trap
def kills (mask l : Nat) (t : Lane) : Bool := mask.testBit l && t.st != .exited && t.st != .vacant

theorem resumes_eq (mask l : Nat) (t : Lane) : (bit mask l && t.trapped) = resumes mask l t := by
  simp only [resumes, Lane.trapped, bit, Bool.and_assoc]
theorem kills_eq (mask l : Nat) (t : Lane) : (bit mask l && !t.gone) = kills mask l t := by
  simp only [kills, Lane.gone, bit, Bool.not_or, bne, Bool.and_assoc]

theorem exec_gresume {g : Group} (hw : s.cur.who = .control) (ha : (s.reg 0 a 0).toNat = slot) (hb : (s.reg 0 b 0).toNat = mask)
    (hg : s.group? s.cur.core slot = some g) (hl : g.lanes.length = 32) :
    exec (.gresume d a b) s = .next (Rules.controlDone ((s.unmap s.cur.core slot).resumeTrap s.cur.core slot mask id) d
      (BitVec.ofNat 32 ((List.range 32).filter fun l => resumes mask l (g.lane l)).length)) := by
  rw [← Group.count_lanes hl (resumes mask)]
  refine sysResult_control hw ?_ rfl
  simp only [Src.word, ha, hb, hg, resumes_eq]

/-- The lanes that a mask of `gkill` names. -/
def Group.killed (g : Group) (mask : Nat) : List Nat := (g.lanes.zipIdx.filter fun e => kills mask e.2 e.1).map (·.2)

theorem Group.mem_killed {g : Group} {mask l : Nat} : l ∈ g.killed mask ↔ l < g.lanes.length ∧ kills mask l (g.lane l) = true := by
  simp only [Group.killed, List.mem_map, List.mem_filter, List.mem_zipIdx_iff_getElem?, Prod.exists, Group.lane, List.getD_eq_getElem?_getD]
  constructor
  · rintro ⟨x, k, ⟨hx, hk⟩, rfl⟩
    obtain ⟨hlt, -⟩ := List.getElem?_eq_some_iff.1 hx
    exact ⟨hlt, by rw [hx]; exact hk⟩
  · rintro ⟨hlt, hk⟩
    rw [List.getElem?_eq_getElem hlt] at hk
    exact ⟨_, l, ⟨List.getElem?_eq_getElem hlt, hk⟩, rfl⟩

theorem Group.killed_nodup (g : Group) (mask : Nat) : (g.killed mask).Nodup := by
  refine (List.filter_sublist.map Prod.snd).nodup ?_
  rw [List.zipIdx_map_snd]
  exact List.nodup_range'

theorem exec_gkill {g : Group} (hw : s.cur.who = .control) (ha : (s.reg 0 a 0).toNat = slot) (hb : (s.reg 0 b 0).toNat = mask)
    (hg : s.group? s.cur.core slot = some g) (hl : g.lanes.length = 32) :
    let t := (g.killed mask).foldl (fun t l => t.exitLane s.cur.core slot l) (s.unmap s.cur.core slot)
    exec (.gkill d a b) s = .next (Rules.controlDone (t.leaveIssue s.cur.core slot (g.killed mask)) d
      (BitVec.ofNat 32 ((List.range 32).filter fun l => kills mask l (g.lane l)).length)) := by
  intro t
  rw [← Group.count_lanes hl (kills mask)]
  have hlen : (g.killed mask).length = (g.lanes.zipIdx.filter fun e => kills mask e.2 e.1).length := List.length_map ..
  rw [← hlen]
  refine sysResult_control hw ?_ ?_
  · simp only [Src.word, ha, hb, hg, kills_eq]
    rfl
  · exact (State.exitLanes_rest (s := s.unmap s.cur.core slot) (g.killed_nodup mask) hg).1

end

theorem groupControl : Rules.GroupControl := by
  intro s d slot mask a b hw ha hb core
  subst ha hb
  refine ⟨fun (hn : s.group? s.cur.core (s.reg 0 a 0).toNat = none) => ⟨?_, ?_, fun h1 => ?_⟩, fun h1 => ?_,
    fun g (hg : s.group? s.cur.core (s.reg 0 a 0).toNat = some g) hl => ⟨?_, ?_, fun h1 ⟨x, hx, hr⟩ => ?_, fun h1 h => ?_⟩⟩
  · exact sysResult_control hw (by simp only [Src.word, hn]; rfl) rfl
  · exact sysResult_control hw (by simp only [Src.word, hn]; rfl) rfl
  · exact sysResult_control hw (if_neg h1 |>.trans (by simp only [Src.word, hn]; rfl)) rfl
  · exact sysResult_control hw (if_pos h1) rfl
  · obtain ⟨k, hk, hlanes⟩ := State.group?_resumeTrap (s.reg 0 b 0).toNat id (s := s.unmap s.cur.core (s.reg 0 a 0).toNat) hg
    refine ⟨_, k, exec_gresume hw rfl rfl hg hl, hk, ?_, ?_, rfl⟩
    · simp only [resumes_eq] at hlanes
      exact hlanes
    · exact s.unmap_dwinSlot _ _
  · obtain ⟨-, k, hk, -, hin, hout⟩ :=
      State.exitLanes s.cur.core _ (g.killed (s.reg 0 b 0).toNat) (s.unmap s.cur.core (s.reg 0 a 0).toNat) g (g.killed_nodup _) hg
    obtain ⟨-, hcores, hmem, hteams⟩ := State.exitLanes_rest (s := s.unmap s.cur.core (s.reg 0 a 0).toNat)
      (g.killed_nodup (s.reg 0 b 0).toNat) hg
    refine ⟨_, k, exec_gkill hw rfl rfl hg hl, hk, fun l h32 hkill => ?_, fun l h32 hkill => ?_, ?_, ?_, ?_⟩
    · exact hin l (Group.mem_killed.2 ⟨by omega, hkill⟩) (by omega)
    · exact hout l fun h => Bool.false_ne_true (hkill.symm.trans (Group.mem_killed.1 h).2)
    · intro h
      refine s.unmap_dwinSlot s.cur.core (s.reg 0 a 0).toNat (Eq.trans ?_ h)
      exact congrArg (fun l => (Assoc.get l s.cur.core {}).dwinSlot) hcores.symm
    · exact hmem
    · exact hteams
  · refine sysResult_control hw ((if_neg h1).trans ?_) rfl
    simp only [Src.word, hg]
    exact if_pos (List.any_eq_true.2 ⟨x, hx, by rw [hr]; rfl⟩)
  · refine sysResult_control hw ((if_neg h1).trans ?_) rfl
    simp only [Src.word, hg]
    exact if_neg fun h' => by
      obtain ⟨x, hx, hr⟩ := List.any_eq_true.1 h'
      exact h x hx (eq_of_beq hr)

/-- Settles O54: a control core reaches the privileged view's registers as a host port does, an invalidation takes what it names, and
the lanes of a group resume or end under a mask. -/
theorem systemInstructions : Obligations.SystemInstructions := ⟨systemRegisters, groupControl⟩

end Sys2Proof.Machine
end

section
/-!
SUPPORT. Replay (R44): what the release of several records makes of everything that waits on one of them, as one pass over each kind
of waiter; and the end of a context by FAIL (R39). Settles O10.
-/
namespace Sys2Proof.Machine

/-- Whether one of these records has this name. -/
def namesOne (rs : List FaultRec) (k : Nat) : Bool := rs.any fun r => r.id == k

section
variable (p q : Nat → Bool)

/-- What waits on a record whose name is in a set, released. -/
def released (x : Option Nat) : Option Nat := if x.any p then none else x
def Hold.within (p : Nat → Bool) : Hold → Bool
  | .record k => p k
  | _ => false
def Lane.letGo (t : Lane) : Lane := if t.st = .stopped ∧ t.hold.within p then { t with st := .ready, hold := .none } else t
def Group.letGo (g : Group) : Group :=
  Group.dropTrap { g with lanes := g.lanes.map (Lane.letGo p), pend := g.pend.map fun e => { e with waitOn := released p e.waitOn } }
def Team.letGo (t : Team) : Team := { t with stream := t.stream.map fun m => { m with waitOn := released p m.waitOn } }
def Copy.letGo (c : Copy) : Copy := { c with waitOn := released p c.waitOn }
def Saved.letGo (v : Saved) : Saved :=
  { v with teams := v.teams.map (Team.letGo p), groups := v.groups.map (Group.letGo p), copies := v.copies.map (Copy.letGo p) }
def Render.letGo (r : Render) : Render :=
  { r with
    held := r.held.map fun h => { h with waitOn := released p h.waitOn }
    flight := r.flight.map fun f => (f.1, f.2.1, f.2.2.1, released p f.2.2.2)
    buckets := r.buckets.map fun b => { b with waitOn := released p b.waitOn } }
def Launch.letGo (l : Launch) : Launch := { l with waitOn := released p l.waitOn, render := l.render.map (Render.letGo p) }
def Ctx.letGo (c : Ctx) : Ctx :=
  { c with recs := c.recs.filter fun r => !p r.id, sumpWait := released p c.sumpWait
           lq := c.lq.map fun x => { x with waitOn := released p x.waitOn } }
def State.letGo (n : Nat) (s : State) : State :=
  { s with
    groups := s.groups.map (Group.letGo p)
    teams := s.teams.map (Team.letGo p)
    copies := s.copies.map (Copy.letGo p)
    windows := s.windows.map fun w => { w with waitOn := released p w.waitOn }
    launches := s.launches.map (Launch.letGo p)
    saves := s.saves.map (Saved.letGo p)
    images := s.images.map (Saved.letGo p)
    ctx := updAt s.ctx n (Ctx.letGo p) }

theorem released_released (x : Option Nat) : released q (released p x) = released (fun k => p k || q k) x := by
  cases x with
  | none => rfl
  | some k => cases hp : p k <;> simp [released, hp]

theorem Lane.letGo_letGo (t : Lane) : (t.letGo p).letGo q = t.letGo fun k => p k || q k := by
  by_cases hs : t.st = .stopped
  · cases hh : t.hold with
    | record k => cases hp : p k <;> simp [Lane.letGo, Hold.within, hs, hh, hp]
    | _ => simp [Lane.letGo, Hold.within, hs, hh]
  · simp [Lane.letGo, hs]

/-- A lane that a release leaves Stopped was Stopped. -/
theorem Lane.stopped_of_letGo {t : Lane} (h : (t.letGo p).st = .stopped) : t.st = .stopped := by
  by_contra hs
  rw [Lane.letGo, if_neg fun h => hs h.1] at h
  exact hs h

theorem Group.letGo_letGo (g : Group) : (g.letGo p).letGo q = g.letGo fun k => p k || q k := by
  have hl : (g.lanes.map (Lane.letGo p)).map (Lane.letGo q) = g.lanes.map (Lane.letGo fun k => p k || q k) := by
    rw [List.map_map]; exact List.map_congr_left fun t _ => t.letGo_letGo p q
  have hp : (g.pend.map fun e => { e with waitOn := released p e.waitOn }).map (fun e => { e with waitOn := released q e.waitOn })
      = g.pend.map fun e => { e with waitOn := released (fun k => p k || q k) e.waitOn } := by
    rw [List.map_map]; exact List.map_congr_left fun e _ => by simp only [Function.comp, released_released]
  have ht : ((g.lanes.map (Lane.letGo p)).map (Lane.letGo q)).any (fun t => t.st == .stopped) = true →
      (g.lanes.map (Lane.letGo p)).any (fun t => t.st == .stopped) = true := by
    simp only [List.any_eq_true, List.mem_map, beq_iff_eq]
    rintro ⟨_, ⟨t, ht, rfl⟩, h⟩
    exact ⟨t, ht, Lane.stopped_of_letGo q h⟩
  rw [hl] at ht
  simp only [Group.letGo, Group.dropTrap, hl, hp]
  congr 1
  split
  · next h => rw [if_pos (ht h)]
  · rfl

theorem Team.letGo_letGo (t : Team) : (t.letGo p).letGo q = t.letGo fun k => p k || q k := by
  simp only [Team.letGo, Option.map_map, Function.comp_def, released_released]
theorem Copy.letGo_letGo (c : Copy) : (c.letGo p).letGo q = c.letGo fun k => p k || q k := by
  simp only [Copy.letGo, released_released]
theorem Saved.letGo_letGo (v : Saved) : (v.letGo p).letGo q = v.letGo fun k => p k || q k := by
  simp only [Saved.letGo, List.map_map, Function.comp_def, Team.letGo_letGo, Group.letGo_letGo, Copy.letGo_letGo]
theorem Render.letGo_letGo (r : Render) : (r.letGo p).letGo q = r.letGo fun k => p k || q k := by
  simp only [Render.letGo, List.map_map, Function.comp_def, released_released]
theorem Launch.letGo_letGo (l : Launch) : (l.letGo p).letGo q = l.letGo fun k => p k || q k := by
  simp only [Launch.letGo, Option.map_map, Function.comp_def, released_released, Render.letGo_letGo]
theorem Ctx.letGo_letGo (c : Ctx) : (c.letGo p).letGo q = c.letGo fun k => p k || q k := by
  simp only [Ctx.letGo, List.filter_filter, List.map_map, Function.comp_def, released_released, Bool.not_or, Bool.and_comm]
theorem State.letGo_letGo (n : Nat) (s : State) : (s.letGo p n).letGo q n = s.letGo (fun k => p k || q k) n := by
  simp only [State.letGo, List.map_map, Function.comp_def, updAt_updAt, released_released, Group.letGo_letGo,
    Team.letGo_letGo, Copy.letGo_letGo, Launch.letGo_letGo, Saved.letGo_letGo, Ctx.letGo_letGo]

end

theorem freed_eq (id : Nat) : freed id = released (id == ·) := by
  funext x; cases x with
  | none => rfl
  | some k => simp only [freed, released, Option.some.injEq, Option.any_some, beq_iff_eq, eq_comm (a := id)]

theorem Lane.replay_eq (id : Nat) : Lane.replay id = Lane.letGo (id == ·) := by
  funext t
  cases hh : t.hold with
  | record k => simp only [Lane.replay, Lane.letGo, Hold.within, hh, Hold.record.injEq, beq_iff_eq, eq_comm (a := id)]
  | _ => simp [Lane.replay, Lane.letGo, Hold.within, hh]

theorem Team.replay_eq (id : Nat) : Team.replay id = Team.letGo (id == ·) := by
  funext t; simp only [Team.replay, Team.letGo, freed_eq]
theorem Copy.replay_eq (id : Nat) : Copy.replay id = Copy.letGo (id == ·) := by
  funext c; simp only [Copy.replay, Copy.letGo, freed_eq]
theorem Group.replay_eq (id : Nat) : Group.replay id = Group.letGo (id == ·) := by
  funext g; simp only [Group.replay, Group.letGo, freed_eq, Lane.replay_eq]
theorem Saved.replay_eq (id : Nat) : Saved.replay id = Saved.letGo (id == ·) := by
  funext v; simp only [Saved.replay, Saved.letGo, Team.replay_eq, Group.replay_eq, Copy.replay_eq]
theorem Launch.replay_eq (id : Nat) : Launch.replay id = Launch.letGo (id == ·) := by
  have h : Render.replay id = Render.letGo (id == ·) := by funext r; simp only [Render.replay, Render.letGo, freed_eq]
  funext l; simp only [Launch.replay, Launch.letGo, freed_eq, h]

theorem State.replayOne_eq (s : State) (n id : Nat) : s.replayOne n id = s.letGo (id == ·) n := by
  have h (c : Ctx) : c.recs.filter (fun r => r.id != id) = c.recs.filter fun r => !(id == r.id) := by simp only [bne, Bool.beq_comm]
  simp only [State.replayOne, State.letGo, h, freed_eq, Group.replay_eq, Team.replay_eq, Copy.replay_eq, Launch.replay_eq,
    Saved.replay_eq]
  rfl

/-- The release of one record after another is one release of them all. -/
theorem State.replays_eq (n : Nat) : ∀ (rs : List FaultRec) (p : Nat → Bool) (s : State),
    rs.foldl (fun s r => s.replayOne n r.id) (s.letGo p n) = s.letGo (fun k => p k || namesOne rs k) n
  | [], p, s => by simp [namesOne]
  | r :: rs, p, s => by
    rw [List.foldl_cons, State.replayOne_eq, State.letGo_letGo, State.replays_eq n rs]
    simp only [namesOne, List.any_cons, Bool.or_assoc]

theorem State.ctxAt_letGo {s : State} {n : Nat} (p : Nat → Bool) (h : n < s.ctx.length) : (s.letGo p n).ctxAt n = (s.ctxAt n).letGo p :=
  updAt_getD_same (Ctx.letGo p) {} h

theorem State.signal_keeps {s : State} {c d : Nat} (h : (s.coreAt c).ctlPending = true) : ((s.signal d).coreAt c).ctlPending = true := by
  by_cases hcd : c = d
  · rw [hcd, State.signal, State.coreAt_updCore_same]
  · rwa [State.signal, State.coreAt_updCore_other _ hcd]

/-- Each core that is signalled has its control core awakened. -/
theorem State.signals_pending {c : Nat} : ∀ (cs : List Nat) (s : State), c ∈ cs ∨ (s.coreAt c).ctlPending = true →
    ((cs.foldl State.signal s).coreAt c).ctlPending = true
  | [], _, h => h.resolve_left List.not_mem_nil
  | d :: cs, s, h => by
    refine State.signals_pending cs _ ?_
    rcases h with h | h
    · rcases List.mem_cons.1 h with rfl | h
      · exact .inr (by rw [State.signal, State.coreAt_updCore_same])
      · exact .inl h
    · exact .inr (State.signal_keeps h)

/-- The core of a group of which a lane waits on one of the records is among those that are signalled. -/
theorem State.mem_waiters {s : State} {g : Group} {rs : List FaultRec} {x : Lane} (hg : g ∈ s.groups) (hx : x ∈ g.lanes)
    (h : x.hold.within (namesOne rs) = true) : g.core ∈ (rs.map fun r => s.waiters r.id).flatten.eraseDups := by
  cases hh : x.hold with
  | record k =>
    rw [hh, Hold.within, namesOne, List.any_eq_true] at h
    obtain ⟨r, hr, hk⟩ := h
    rw [List.mem_eraseDups, List.mem_flatten]
    refine ⟨_, List.mem_map_of_mem hr, ?_⟩
    rw [State.waiters, List.mem_eraseDups]
    refine List.mem_append_left _ (List.mem_append_left _ (List.mem_append_left _ (List.mem_map_of_mem ?_)))
    refine List.mem_filter.2 ⟨hg, Bool.or_eq_true_iff.2 (.inl (List.any_eq_true.2 ⟨x, hx, ?_⟩))⟩
    rw [hh, beq_iff_eq, beq_iff_eq.1 hk]
  | _ => simp [hh, Hold.within] at h

/-- The first trap of the records is kept, where the context has none yet. -/
theorem State.keepTraps_eq (n : Nat) : ∀ (rs : List FaultRec) (s : State),
    rs.foldl (fun s r => s.keepTrap n r) s = s.updCtx n fun c => { c with fatal := c.fatal.or (rs.findSome? fun r => r.trap) }
  | [], s => by simp only [List.foldl_nil, List.findSome?_nil, Option.or_none, State.updCtx, updAt_id]
  | r :: rs, s => by
    rw [List.foldl_cons, State.keepTraps_eq n rs, State.keepTrap]
    cases h : r.trap with
    | none => simp only [List.findSome?_cons, h]
    | some t =>
      simp only [State.keepFatal]
      rw [State.updCtx_updCtx]
      refine State.updCtx_congr fun _ => ?_
      cases hf : (s.ctxAt n).fatal <;> simp [h, hf]

end Sys2Proof.Machine
namespace Sys2Proof.Machine

theorem Ctx.acted_eq (c : Ctx) (w : Wr) : c.acted w = c.recs.filter fun r => r.seq.isSome
    && ((w.data.getLsbD 31 && w.en.getLsbD 3) || w.en.getLsbD 0 && w.en.getLsbD 1 && r.seq == some (w.data.toNat % 2 ^ 16)) := by
  have h31 : w.one 31 = (w.data.getLsbD 31 && w.en.getLsbD 3) := rfl
  rw [Ctx.acted, h31]
  cases ha : w.data.getLsbD 31 && w.en.getLsbD 3
  · cases hb : w.en.getLsbD 0 && w.en.getLsbD 1
    · simp
    · simp [List.filter_filter, Bool.and_comm]
  · simp

/-- A write by a port of CTX_REPLAY, whether it is with FAIL or not. -/
theorem exec_ctxReplay {s : State} {n : Nat} {w : Wr} {p : Port} {i : Instr} (hw : w.by_ = .port p)
    (ha : s.answers (.port p) (.replay n) = true) (hi : i = .ctxReplay n w ∨ i = .ctxReplayFail n w) :
    exec i s = .next (s.writeReplay n w) := by
  have h : exec i s = done (s.writeView w (.replay n)) := by rcases hi with rfl | rfl <;> rfl
  rw [h, State.writeView_port hw ha]; rfl

theorem Group.letGo_eq (p : Nat → Bool) (g : Group) : g.letGo p = { g with
    lanes := g.lanes.map (Lane.letGo p), pend := g.pend.map fun e => { e with waitOn := released p e.waitOn }
    trap := if ∃ x ∈ g.lanes, (x.letGo p).st = .stopped then g.trap else none } := by
  simp [Group.letGo, Group.dropTrap]

section
variable {s : State} {n : Nat} {w : Wr} {r : FaultRec} {rest : List FaultRec}

/-- A write that releases records, once the control cores concerned are awakened. -/
theorem State.writeReplay_released (ha : (s.ctxAt n).acted w = r :: rest) (hf : ¬ Rules.sets w 30) :
    ∃ cs, s.writeReplay n w = State.letGo (namesOne (r :: rest)) n { s with cores := cs }
      ∧ ∀ g ∈ s.groups, (∃ x ∈ g.lanes, x.hold.within (namesOne (r :: rest)) = true) →
        (State.coreAt { s with cores := cs } g.core).ctlPending = true := by
  obtain ⟨cs, hcs⟩ := State.signals_eq (((r :: rest).map fun r => s.waiters r.id).flatten.eraseDups) s
  have hp : ∀ g ∈ s.groups, (∃ x ∈ g.lanes, x.hold.within (namesOne (r :: rest)) = true) →
      (State.coreAt { s with cores := cs } g.core).ctlPending = true := by
    rintro g hg ⟨x, hx, h⟩
    have := State.mem_waiters hg hx h
    rw [← hcs]
    exact State.signals_pending _ s (.inl this)
  refine ⟨cs, ?_, hp⟩
  simp only [State.writeReplay, ha, hcs, Wr.one_of_not_sets hf, Bool.false_eq_true, if_false]
  rw [List.foldl_cons, State.replayOne_eq]
  exact State.replays_eq n rest _ _

/-- A write with FAIL. -/
theorem State.writeReplay_failed (ha : (s.ctxAt n).acted w = r :: rest) (hf : Rules.sets w 30) :
    ∃ cs, s.writeReplay n w = State.endContext (State.updCtx { s with cores := cs } n fun c : Ctx =>
      { c with fatal := c.fatal.or ((r :: rest).findSome? fun r => r.trap) }) n r.sub := by
  obtain ⟨cs, hcs⟩ := State.signals_eq (((r :: rest).map fun r => s.waiters r.id).flatten.eraseDups) s
  refine ⟨cs, ?_⟩
  simp only [State.writeReplay, ha, hcs, Wr.one_of_sets hf, if_true]
  rw [State.keepTraps_eq]

end
/-- Settles O10: one record released after another is one pass over all that waits. -/
theorem replays : Obligations.Replays := by
  intro s n w p i hw ha hn hi
  rw [exec_ctxReplay hw ha hi]
  intro c all acted
  have hacted : (s.ctxAt n).acted w = acted := Ctx.acted_eq _ w
  refine ⟨fun h => by rw [State.writeReplay, hacted, h], fun r rest hr => ?_⟩
  clear_value acted
  subst hr
  refine ⟨fun hf => ?_, fun hf hfa => ?_⟩
  · obtain ⟨cs, hu, hp⟩ := State.writeReplay_released hacted hf
    have hg (g : Group) := g.letGo_eq (namesOne (r :: rest))
    refine ⟨_, rfl, ?_⟩
    rw [hu]
    have hsaved := funext fun v : Saved => congrArg (fun k : Group → Group => { v with
      teams := v.teams.map (Team.letGo (namesOne (r :: rest))), groups := v.groups.map k
      copies := v.copies.map (Copy.letGo (namesOne (r :: rest))) }) (funext hg)
    refine ⟨congrArg (s.groups.map ·) (funext hg), rfl, rfl, rfl, congrArg (s.saves.map ·) hsaved, congrArg (s.images.map ·) hsaved,
      rfl, State.ctxAt_letGo _ hn, rfl, hp⟩
  · obtain ⟨cs, hu⟩ := State.writeReplay_failed hacted hf
    refine ⟨_, rfl, ?_⟩
    obtain ⟨ds, hv⟩ := State.endContext_eq (State.updCtx { s with cores := cs } n fun c : Ctx =>
      { c with fatal := c.fatal.or ((r :: rest).findSome? fun r => r.trap) }) n r.sub
    have hctx : (s.writeReplay n w).ctxAt n
        = Ctx.ended { s.ctxAt n with fatal := (s.ctxAt n).fatal.or ((r :: rest).findSome? fun r => r.trap) } r.sub := by
      rw [hu, State.endContext_ctxAt_same _ (by simpa [State.updCtx] using hn)]
      exact congrArg (Ctx.ended · r.sub) (State.ctxAt_updCtx_same _ hn)
    rw [hctx]
    refine ⟨Ctx.ended_faulted .., Ctx.ended_fsub _ hfa, Ctx.ended_recs .., by rw [hu, hv]; rfl, ?_, by rw [hu, hv]; rfl⟩
    rw [Ctx.ended_fatal]
    change (c.fatal.or _) = _
    cases c.fatal <;> rfl
end Sys2Proof.Machine
end

section
/-!
SUPPORT. Bytes written at a place by its home slice (R60, R71): what such a write leaves. Then the end of a context by a fault (R39),
the record that it writes (R40, R42), and the records of replayable faults (R43). Settles O31.
-/
namespace Sys2Proof.Machine

/-! ### Writes that leave no line in L2 -/

theorem State.countCes_eq (bs : List Nat) : ∀ s : State, ∃ ch, bs.foldl State.countCe s = { s with chan := ch } := by
  induction bs with
  | nil => exact fun s => ⟨s.chan, rfl⟩
  | cons b bs ih =>
    intro s
    obtain ⟨ch, h⟩ := ih (s.countCe b)
    exact ⟨ch, h⟩

theorem State.writtenPage_eq (s : State) (old : Bool) (line : Nat) : ∃ ps, s.writtenPage old line = { s with past := ps } := by
  unfold State.writtenPage State.keepPast State.storedPage
  split
  · split
    · exact ⟨_, rfl⟩
    · exact ⟨s.past, rfl⟩
  · exact ⟨_, rfl⟩

/-- An access to a line that L2 does not keep. -/
theorem State.homeLine_unkept (s : State) (key : Nat × Nat) (write first old : Bool) :
    ∃ l2 ce ch ps, s.homeLine key write false first old = { s with l2 := l2, ce := ce, chan := ch, past := ps } := by
  obtain ⟨ps, hps⟩ : ∃ ps, (if write && key.1 == 0 then s.writtenPage old key.2 else s) = { s with past := ps } := by
    split
    · exact s.writtenPage_eq old key.2
    · exact ⟨s.past, rfl⟩
  unfold State.homeLine
  dsimp only
  rw [hps]
  split
  · exact ⟨_, _, _, _, rfl⟩
  · obtain ⟨ch, hch⟩ := State.countCes_eq (s.ce.filter fun b => key.1 == 0 && b / 128 == key.2) { s with past := ps }
    dsimp only
    rw [hch, if_neg Bool.false_ne_true]
    cases write <;> exact ⟨_, _, _, _, rfl⟩

theorem State.homeRange_unkept (s : State) (p : Place) (n : Nat) (write first old : Bool) :
    ∃ l2 ce ch ps, s.homeRange p n write false first old = { s with l2 := l2, ce := ce, chan := ch, past := ps } := by
  unfold State.homeRange
  dsimp only
  generalize List.range _ = ks
  induction ks generalizing s with
  | nil => exact ⟨s.l2, s.ce, s.chan, s.past, rfl⟩
  | cons k ks ih =>
    obtain ⟨l2, ce, ch, ps, h⟩ := s.homeLine_unkept (p.cell.1, p.lineNo.2 + k) write first old
    rw [List.foldl_cons, h]
    exact ih _

/-- Bytes written to device memory change it, and what L2 knows of the lines. -/
theorem State.wrBytes_dev_frame (a : Nat) (xs : List Byte) : ∀ s : State, { s.wrBytes (.dev a) xs with mem := s.mem, l2 := s.l2 } = s := by
  induction xs generalizing a with
  | nil => exact fun _ => rfl
  | cons x xs ih => exact fun s => congrArg (fun t : State => { t with mem := s.mem, l2 := s.l2 }) (ih (a + 1) (s.wrByte (.dev a) x))

/-- A record written at a place that meets no error. -/
theorem State.putRecord_ok {s : State} {p : Place} {xs : List Byte} (k : State → State) (h : s.ueIn p xs.length = none) :
    ∃ t, s.putRecord p xs k = k t
      ∧ { t with mem := s.mem, sysMem := s.sysMem, l2 := s.l2, past := s.past, ce := s.ce, chan := s.chan } = s
      ∧ ∀ a, p = .dev a → t.mem = (s.wrBytes p xs).mem ∧ t.sysMem = s.sysMem := by
  obtain ⟨l2, ce, ch, ps, hr⟩ := s.homeRange_unkept p xs.length true false false
  refine ⟨(s.homeRange p xs.length true false false).wrBytes p xs, by simp only [State.putRecord, h], ?_, ?_⟩
  · rw [hr]
    exact congrArg (fun t : State => { t with l2 := s.l2, past := s.past, ce := s.ce, chan := s.chan }) (State.frame_wrBytes _ p xs)
  · rintro a rfl
    rw [hr, Store.wrBytes_dev, Store.wrBytes_dev]
    have hs := congrArg State.sysMem (State.wrBytes_dev_frame a xs { s with l2 := l2, ce := ce, chan := ch, past := ps })
    exact ⟨rfl, hs⟩

theorem State.putRecord_ue {s : State} {p : Place} {xs : List Byte} {e : Nat} (k : State → State) (h : s.ueIn p xs.length = some e) :
    s.putRecord p xs k = s.noteUeAt e := by simp only [State.putRecord, h]

theorem faultBytes_length (va seq : Nat) (phase fatal : Bool) (sub : Nat) (kind : Access) (src : Source) (joined level : Nat) :
    (faultBytes va seq phase fatal sub kind src joined level).length = 32 := by
  simp only [faultBytes, List.length_append, leBytes_length]

/-! ### Places of fault records -/

/-- A window lies far below 2^63, and so does a record in it. -/
theorem State.window_lt {s : State} {part a p : Nat} (h : s.window part a = some p) : p + 32 < 2 ^ 63 := by
  simp only [State.window] at h
  split at h
  · next ha =>
    have h1 : winBase (s.partWin.getD part 0) < 2 ^ 9 := Nat.mod_lt _ (by decide)
    have h2 : winSize (s.partWin.getD part 0) < 2 ^ 9 := Nat.mod_lt _ (by decide)
    obtain rfl := Option.some.inj h
    omega
  · cases h

/-- An error met in device memory is recorded in its channel. -/
theorem State.noteUeAt_dev {s t : State} {p n e : Nat} (hp : p + n < 2 ^ 63) (h : s.ueIn (.dev p) n = some e) : t.noteUeAt e = t.noteUe e := by
  have he := List.find?_some h
  simp only [Bool.and_eq_true, decide_eq_true_eq] at he
  exact if_pos (by omega)

theorem Ctx.fqN_some {c : Ctx} {k : Nat} (h : c.fqsize.toNat % 32 = k) (h6 : 6 ≤ k) (h16 : k ≤ 16) : c.fqN = some k := by
  have hb : bits c.fqsize.toNat 4 0 = k := by rw [← h]; simp [bits]
  simp only [Ctx.fqN, hb, if_pos (And.intro h6 h16)]
theorem Ctx.fqN_none {c : Ctx} (h : c.fqsize.toNat % 32 < 6 ∨ 16 < c.fqsize.toNat % 32) : c.fqN = none := by
  have hb : bits c.fqsize.toNat 4 0 = c.fqsize.toNat % 32 := by simp [bits]
  simp only [Ctx.fqN, hb]
  exact if_neg (by omega)
theorem Ctx.fqFull_iff {c : Ctx} {k : Nat} (h : c.fqN = some k) : c.fqFull = true ↔ (c.fqtail + 1) % 2 ^ k = c.fqhead.toNat % 2 ^ k := by
  simp only [Ctx.fqFull, h, decide_eq_true_eq]

/-- With LOC = 0 the record's place is that of the context's partition window. -/
theorem State.fqPlace_device {s : State} {n : Nat} (k : Nat) (h : (s.ctxAt n).fqbase.toNat % 2 = 0) :
    s.fqPlace n k = (s.window (s.ctxAt n).part
      ((s.ctxAt n).fqbase.toNat / 2 ^ 12 % 2 ^ 40 * 2 ^ 12 + 32 * ((s.ctxAt n).fqtail % 2 ^ k))).map .dev := by
  have hb : bit (s.ctxAt n).fqbase.toNat 0 = false := by simp [bit, Nat.testBit_zero, h]
  simp only [State.fqPlace, hb, Bool.false_eq_true, if_false]
  rfl

/-! ### The end of a context by a fault -/

@[simp] theorem Ctx.ended_held (c : Ctx) (sub : Nat) : (c.ended sub).held = [] := by simp only [Ctx.ended]; split <;> rfl
@[simp] theorem Ctx.ended_fqtail (c : Ctx) (sub : Nat) : (c.ended sub).fqtail = c.fqtail := by simp only [Ctx.ended]; split <;> rfl
@[simp] theorem Ctx.ended_seq (c : Ctx) (sub : Nat) : (c.ended sub).seq = c.seq := by simp only [Ctx.ended]; split <;> rfl

@[simp] theorem State.endContext_mem (s : State) (n sub : Nat) : (s.endContext n sub).mem = s.mem := by
  obtain ⟨cs, h⟩ := s.endContext_eq n sub; rw [h]
@[simp] theorem State.endContext_sysMem (s : State) (n sub : Nat) : (s.endContext n sub).sysMem = s.sysMem := by
  obtain ⟨cs, h⟩ := s.endContext_eq n sub; rw [h]
@[simp] theorem State.endContext_chan (s : State) (n sub : Nat) : (s.endContext n sub).chan = s.chan := by
  obtain ⟨cs, h⟩ := s.endContext_eq n sub; rw [h]

/-- What the end of a context makes true, where nothing else of it has changed before and its fatal trap is recorded at last. -/
theorem ended_of_endContext {s t : State} {n sub : Nat} {r : TrapRec} (f : Ctx → Ctx) (hn : n < t.ctx.length) (hg : t.groups = s.groups)
    (hk : ∀ k, k ≠ n → t.ctxAt k = s.ctxAt k) (hf : (t.ctxAt n).faulted = false)
    (hc : ∀ c, (f c).faulted = c.faulted ∧ (f c).fsub = c.fsub ∧ (f c).held = c.held ∧ (f c).recs = c.recs)
    (hr : (f ((t.ctxAt n).ended sub)).fatal = some r) : Rules.ended s ((t.endContext n sub).updCtx n f) n sub r := by
  have hlen : n < (t.endContext n sub).ctx.length := by rw [State.endContext_ctx, updAt_length]; exact hn
  have hat : ((t.endContext n sub).updCtx n f).ctxAt n = f ((t.ctxAt n).ended sub) := by
    rw [State.ctxAt_updCtx_same _ hlen, State.endContext_ctxAt_same _ hn]
  obtain ⟨h1, h2, h3, h4⟩ := hc ((t.ctxAt n).ended sub)
  obtain ⟨cs, he⟩ := t.endContext_eq n sub
  have hout {α : Type} (g : α → Nat) (xs : List α) : ∀ x ∈ xs.filter fun x => g x != n, g x ≠ n := fun x hx => by
    simpa using (List.mem_filter.1 hx).2
  refine ⟨?_, ?_, by rw [hat, hr], ?_, ?_, ?_, ?_, ?_, ?_, ?_, ?_, fun k h => ?_⟩
  · rw [hat]; exact h1.trans (Ctx.ended_faulted ..)
  · rw [hat]; exact h2.trans (Ctx.ended_fsub _ hf)
  · rw [hat]; exact h3.trans (Ctx.ended_held ..)
  · rw [hat]; exact h4.trans (Ctx.ended_recs ..)
  · rw [he]; exact hout Group.ctx t.groups
  · rw [he]; exact hout Team.ctx t.teams
  · rw [he]; exact hout Launch.ctx t.launches
  · rw [he]; exact hout Copy.ctx t.copies
  · rw [he]; exact hout Window.ctx t.windows
  · rw [he, ← hg]; rfl
  · rw [State.ctxAt_updCtx_other _ h, State.endContext_ctxAt_other _ h, hk k h]

/-- The trap's record stands before the context ends. -/
theorem ended_endContext {s t : State} {n sub : Nat} {r : TrapRec} (hn : n < t.ctx.length) (hg : t.groups = s.groups)
    (hk : ∀ k, k ≠ n → t.ctxAt k = s.ctxAt k) (hf : (t.ctxAt n).faulted = false) (hr : (t.ctxAt n).fatal = some r) :
    Rules.ended s (t.endContext n sub) n sub r := by
  have h := ended_of_endContext (sub := sub) (fun c => c) hn hg hk hf (fun _ => ⟨rfl, rfl, rfl, rfl⟩) (by rw [Ctx.ended_fatal, hr])
  rwa [State.updCtx, updAt_id] at h

theorem State.keepFatal_none {s : State} {n : Nat} {r : TrapRec} (h : (s.ctxAt n).fatal = none) :
    s.keepFatal n r = s.updCtx n fun c => { c with fatal := some r } :=
  State.updCtx_congr fun _ => by rw [h]; rfl

/-- What the record of a fatal fault leaves of everything but the memories, and of its context but the queue's tail. -/
theorem State.writeFatalRecord_rest (s : State) (n va sub : Nat) (kind : Access) (src : Source) (level : Nat) :
    ∃ (t : State) (f : Ctx → Ctx), s.writeFatalRecord n va sub kind src level = t.updCtx n f
      ∧ { t with mem := s.mem, sysMem := s.sysMem, l2 := s.l2, past := s.past, ce := s.ce, chan := s.chan } = s
      ∧ ∀ c, (f c).faulted = c.faulted ∧ (f c).fatal = c.fatal := by
  have hself : ∃ (t : State) (f : Ctx → Ctx), s = t.updCtx n f
      ∧ { t with mem := s.mem, sysMem := s.sysMem, l2 := s.l2, past := s.past, ce := s.ce, chan := s.chan } = s
      ∧ ∀ c, (f c).faulted = c.faulted ∧ (f c).fatal = c.fatal :=
    ⟨s, fun c => c, by rw [State.updCtx, updAt_id], rfl, fun _ => ⟨rfl, rfl⟩⟩
  unfold State.writeFatalRecord
  dsimp only
  split
  · exact hself
  · next k _ =>
    split
    · exact hself
    · split
      · exact hself
      · next p _ =>
        generalize hx : faultBytes _ _ _ _ _ _ _ _ _ = xs
        cases hu : s.ueIn p xs.length with
        | none =>
          obtain ⟨t, ht, hrest, -⟩ := State.putRecord_ok (fun s => s.updCtx n (·.advanceTail k)) hu
          exact ⟨t, _, ht, hrest, fun _ => ⟨rfl, rfl⟩⟩
        | some e =>
          rw [State.putRecord_ue _ hu]
          obtain ⟨ch, hch⟩ := s.noteUeAt_chan e
          exact ⟨{ s with chan := ch }, fun c => c, by rw [hch, State.updCtx, updAt_id], rfl, fun _ => ⟨rfl, rfl⟩⟩

section
variable {s : State} {g : Group} {ls : List Nat} {t : Trap}

theorem Trap.isFault_of (h : t.cause = .pageFault ∨ t.cause = .accessViolation) : t.cause.isFault = true := by
  rcases h with h | h <;> rw [h] <;> rfl

/-- What takes a fault of a lane: the awakened control core, the context of the class and the source of its record. -/
def State.classSource (s : State) (ls : List Nat) (t : Trap) : Source :=
  { code := t.source, die := s.physDie (s.cur.core / 48), core := s.cur.core % 48, group := s.cur.slot, lane := ls.headD 0, pc := s.cur.pc }

theorem State.split_fatal (hg : s.grp = some g) (hue : t.ue = none) (hc : t.cause = .pageFault ∨ t.cause = .accessViolation)
    (hd : t.demand = false) :
    s.split ls t = (((s.signal s.cur.core).keepFatal g.ctx (Rules.record s (ls.headD 0) t)).fatalFault g.ctx t.aux t.detail t.kind
      (s.classSource ls t) t.level).withFate .split := by
  have hg' : s.group? s.cur.core s.cur.slot = some g := hg
  simp only [State.split, State.takeTrap, hg', State.noteTrapUe, hue, Trap.isFault_of hc, hd, Bool.and_false, Bool.false_eq_true,
    if_false, if_true]
  rfl

theorem State.split_demand (hg : s.grp = some g) (hue : t.ue = none) (hc : t.cause = .pageFault ∨ t.cause = .accessViolation)
    (hd : t.demand = true) :
    s.split ls t = (match (s.signal s.cur.core).replayable g.ctx t.aux t.detail t.kind (s.classSource ls t) t.level
        (some (Rules.record s (ls.headD 0) t)) with
      | (u, some id) => (u.stopLanes s.cur.core s.cur.slot ls s.cur.pc (.record id)).updGroup s.cur.core s.cur.slot fun g =>
          { g with trap := some (Rules.record s (ls.headD 0) t) }
      | (u, none) => u.keepFatal g.ctx (Rules.record s (ls.headD 0) t)).withFate .split := by
  have hg' : s.group? s.cur.core s.cur.slot = some g := hg
  simp only [State.split, State.takeTrap, hg', State.noteTrapUe, hue, Trap.isFault_of hc, hd, Bool.and_true, if_true]
  rfl

theorem State.writeFatalRecord_none {n va sub level : Nat} {kind : Access} {src : Source}
    (h : (s.ctxAt n).fqN = none ∨ (s.ctxAt n).fqFull = true) : s.writeFatalRecord n va sub kind src level = s := by
  unfold State.writeFatalRecord
  dsimp only
  split
  · rfl
  · next k hk => rw [if_pos (h.resolve_left (by rw [hk]; exact fun h => nomatch h))]

theorem State.writeFatalRecord_at {n k va sub level : Nat} {kind : Access} {src : Source} {p : Place} (hk : (s.ctxAt n).fqN = some k)
    (hf : ¬ (s.ctxAt n).fqFull = true) (hp : s.fqPlace n k = some p) :
    s.writeFatalRecord n va sub kind src level
      = s.putRecord p (faultBytes va (s.ctxAt n).seq (s.ctxAt n).fqwrap true sub kind src 0 level) fun s => s.updCtx n (·.advanceTail k) := by
  simp only [State.writeFatalRecord, hk, hf, hp, Bool.false_eq_true, if_false]

/-- The state in which the record of a fatal fault is written: the control core is awakened and the trap's record stands. -/
def State.faulting (s : State) (g : Group) (ls : List Nat) (t : Trap) : State :=
  (s.signal s.cur.core).updCtx g.ctx fun c => { c with fatal := some (Rules.record s (ls.headD 0) t) }

theorem State.ctxAt_faulting (hn : g.ctx < s.ctx.length) :
    (s.faulting g ls t).ctxAt g.ctx = { s.ctxAt g.ctx with fatal := some (Rules.record s (ls.headD 0) t) } :=
  State.ctxAt_updCtx_same (s := s.signal s.cur.core) _ hn

theorem State.split_fatal_eq (hg : s.grp = some g) (hn : g.ctx < s.ctx.length) (hf : (s.ctxAt g.ctx).faulted = false)
    (hfa : (s.ctxAt g.ctx).fatal = none) (hue : t.ue = none) (hc : t.cause = .pageFault ∨ t.cause = .accessViolation)
    (hd : t.demand = false) :
    s.split ls t = (((s.faulting g ls t).writeFatalRecord g.ctx t.aux t.detail t.kind (s.classSource ls t) t.level).endContext
      g.ctx t.detail).withFate .split := by
  rw [State.split_fatal hg hue hc hd, State.keepFatal_none (s := s.signal s.cur.core) hfa]
  have hf' : ((s.faulting g ls t).ctxAt g.ctx).faulted = false := by rw [State.ctxAt_faulting hn]; exact hf
  exact congrArg (State.withFate · .split) (if_neg (hf'.symm ▸ Bool.false_ne_true))

/-- A replayable fault with no valid queue, which joins no record, ends the context too. -/
theorem State.split_demand_eq (hg : s.grp = some g) (hf : (s.ctxAt g.ctx).faulted = false)
    (hue : t.ue = none) (hc : t.cause = .pageFault ∨ t.cause = .accessViolation)
    (hd : t.demand = true) (hq : (s.ctxAt g.ctx).fqN = none) (hj : ∀ r ∈ (s.ctxAt g.ctx).recs, r.joins t.aux t.detail t.kind = false) :
    s.split ls t = ((((s.signal s.cur.core).endContext g.ctx t.detail).keepFatal g.ctx (Rules.record s (ls.headD 0) t))).withFate .split := by
  rw [State.split_demand hg hue hc hd]
  have hrec : ((s.signal s.cur.core).ctxAt g.ctx).recs.find? (fun r => r.joins t.aux t.detail t.kind) = none :=
    List.find?_eq_none.2 fun r hr => by simp [hj r hr]
  have hq' : ((s.signal s.cur.core).ctxAt g.ctx).fqN = none := hq
  have hf' : ((s.signal s.cur.core).ctxAt g.ctx).faulted = false := hf
  simp only [State.replayable, hrec, hq', Option.isNone_none, if_true, State.fatalFault, hf', Bool.false_eq_true, if_false,
    State.writeFatalRecord_none (.inl hq')]

end

theorem fatalFaults_end : ∀ (s : State) (g : Group) (ls : List Nat) (t : Trap), s.grp = some g → g.ctx < s.ctx.length →
    (s.ctxAt g.ctx).faulted = false → (s.ctxAt g.ctx).fatal = none → t.ue = none →
    (t.cause = .pageFault ∨ t.cause = .accessViolation) →
    (t.demand = false ∨ (s.ctxAt g.ctx).fqN = none ∧ ∀ r ∈ (s.ctxAt g.ctx).recs, r.joins t.aux t.detail t.kind = false) →
    Rules.ended s (s.split ls t) g.ctx t.detail (Rules.record s (ls.headD 0) t) ∧ (s.split ls t).cur.fate = .split := by
  intro s g ls t hg hn hf hfa hue hc h
  cases hd : t.demand with
  | false =>
    rw [State.split_fatal_eq hg hn hf hfa hue hc hd]
    refine ⟨?_, rfl⟩
    obtain ⟨v, f, hv, hrest, hff⟩ := (s.faulting g ls t).writeFatalRecord_rest g.ctx t.aux t.detail t.kind (s.classSource ls t) t.level
    have hgs := congrArg State.groups hrest
    have hcs := congrArg State.ctx hrest
    change v.ctx = (s.faulting g ls t).ctx at hcs
    have hlen : g.ctx < v.ctx.length := by
      rw [hcs]; exact (updAt_length ..).symm ▸ hn
    have hat : v.ctxAt g.ctx = { s.ctxAt g.ctx with fatal := some (Rules.record s (ls.headD 0) t) } :=
      (congrArg (fun cs => cs.getD g.ctx {}) hcs).trans (State.ctxAt_faulting hn)
    have hother : ∀ k, k ≠ g.ctx → v.ctxAt k = s.ctxAt k := fun k hk =>
      (congrArg (fun cs => cs.getD k {}) hcs).trans (State.ctxAt_updCtx_other (s := s.signal s.cur.core) _ hk)
    rw [hv]
    have hat' : (v.updCtx g.ctx f).ctxAt g.ctx = f (v.ctxAt g.ctx) := State.ctxAt_updCtx_same _ hlen
    refine ended_endContext (by simpa [State.updCtx] using hlen) hgs (fun k hk => ?_) ?_ ?_
    · rw [State.ctxAt_updCtx_other _ hk, hother k hk]
    · rw [hat', (hff _).1, hat]; exact hf
    · rw [hat', (hff _).2, hat]
  | true =>
    obtain ⟨hq, hj⟩ := h.resolve_left (by rw [hd]; exact Bool.noConfusion)
    rw [State.split_demand_eq hg hf hue hc hd hq hj]
    refine ⟨?_, rfl⟩
    have hat : ((s.signal s.cur.core).ctxAt g.ctx) = s.ctxAt g.ctx := rfl
    refine ended_of_endContext (s := s) (t := s.signal s.cur.core) _ hn rfl (fun _ _ => rfl) hf ?_ ?_
    · intro c
      split <;> exact ⟨rfl, rfl, rfl, rfl⟩
    · simp [hat, hfa]

theorem faultBytes_fatal (va seq : Nat) (phase : Bool) (sub : Nat) (kind : Access) (src : Source) (level : Nat) :
    faultBytes va seq phase true sub kind src 0 level
      = leBytes va 8
        ++ leBytes (kind.code + src.code * 2 ^ 4 + sub * 2 ^ 8 + 2 ^ 14 + (if phase then 2 ^ 15 else 0) + seq % 2 ^ 16 * 2 ^ 16) 4
        ++ leBytes (src.lane * 2 ^ 4 + src.group * 2 ^ 9 + src.core * 2 ^ 18 + src.die * 2 ^ 24) 4
        ++ leBytes src.pc.toNat 8 ++ leBytes level 4 ++ leBytes 0 4 := by
  simp only [faultBytes, if_true, Nat.zero_min, Nat.zero_mul, Nat.add_zero, Nat.reducePow]

/-- What a trap that ends its context leaves of the memories, the channels and the context. -/
theorem State.split_endContext {u v : State} {n sub : Nat} (h : u = (v.endContext n sub).withFate .split) :
    u.mem = v.mem ∧ u.sysMem = v.sysMem ∧ u.chan = v.chan ∧ (n < v.ctx.length → u.ctxAt n = (v.ctxAt n).ended sub) := by
  subst h
  exact ⟨State.endContext_mem v n sub, State.endContext_sysMem v n sub, State.endContext_chan v n sub, State.endContext_ctxAt_same _⟩

/-- R39, R40, R42, R420. -/
theorem fatalFaults : Rules.FatalFaults := by
  intro s g ls t hg hn _ hf hfa hue hc c u k full
  have hat := State.ctxAt_faulting (s := s) (ls := ls) (t := t) hn
  have hqt := congrArg Ctx.fqtail hat
  have hlen : g.ctx < (s.faulting g ls t).ctx.length := (updAt_length ..).symm ▸ hn
  refine ⟨fun h => fatalFaults_end s g ls t hg hn hf hfa hue hc (h.imp_right fun h => ⟨Ctx.fqN_none h.1, h.2⟩),
    fun hd hroom => ?_, fun p hd h6 h16 hfull hb hw => ?_⟩
  · have hno : ((s.faulting g ls t).ctxAt g.ctx).fqN = none ∨ ((s.faulting g ls t).ctxAt g.ctx).fqFull = true := by
      rw [hat]
      by_cases hk : k < 6 ∨ 16 < k
      · exact .inl (Ctx.fqN_none hk)
      · exact .inr ((Ctx.fqFull_iff (Ctx.fqN_some (k := k) rfl (by omega) (by omega))).2 (hroom.resolve_left hk))
    have hu := State.split_fatal_eq (ls := ls) hg hn hf hfa hue hc hd
    rw [State.writeFatalRecord_none hno] at hu
    obtain ⟨hm, hs, -, hctx⟩ := State.split_endContext hu
    exact ⟨hm, hs, by rw [hctx hlen, Ctx.ended_fqtail, hat]⟩
  · have hk := Ctx.fqN_some (c := c) (k := k) rfl h6 h16
    have hplace : (s.faulting g ls t).fqPlace g.ctx k = some (.dev p) := by
      rw [State.fqPlace_device k (by rw [hat]; exact hb), hat]
      exact congrArg (Option.map Place.dev) hw
    have hu := State.split_fatal_eq (ls := ls) hg hn hf hfa hue hc hd
    rw [State.writeFatalRecord_at (k := k) (by rw [hat]; exact hk)
      (by rw [hat]; exact fun h => hfull ((Ctx.fqFull_iff hk).1 h)) hplace, hat, faultBytes_fatal] at hu
    generalize hx : leBytes t.aux 8 ++ _ ++ _ ++ _ ++ _ ++ _ = xs at hu
    have h32 : xs.length = 32 := by rw [← hx]; simp only [List.length_append, leBytes_length]
    refine ⟨fun e he => ?_, fun he => ?_⟩
    · rw [State.putRecord_ue _ (e := e) (by rw [h32]; exact he), State.noteUeAt_dev (State.window_lt hw) he] at hu
      obtain ⟨hm, hs, hch, hctx⟩ := State.split_endContext hu
      exact ⟨hm, hs, by rw [hctx hlen, Ctx.ended_fqtail]; exact hqt, hch⟩
    · obtain ⟨v, hv, hrest, hmem⟩ := State.putRecord_ok (s := s.faulting g ls t) (p := .dev p) (xs := xs)
        (fun s => s.updCtx g.ctx (·.advanceTail k)) (by rw [h32]; exact he)
      rw [hv] at hu
      obtain ⟨hm, hs, -, hctx⟩ := State.split_endContext hu
      obtain ⟨hmem, hsys⟩ := hmem p rfl
      have hcs := congrArg State.ctx hrest
      change v.ctx = _ at hcs
      have hvl : g.ctx < v.ctx.length := hcs.symm ▸ hlen
      have hva : v.ctxAt g.ctx = _ := (congrArg (fun cs => cs.getD g.ctx {}) hcs).trans hat
      have hctx := hctx ((updAt_length ..).symm ▸ hvl)
      rw [State.ctxAt_updCtx_same _ hvl, hva] at hctx
      refine ⟨hm.trans (hmem.trans ?_), hs.trans hsys, ?_, ?_⟩
      · rw [Store.wrBytes_dev, Store.wrBytes_dev, ← hx]; rfl
      · rw [hctx, Ctx.ended_fqtail]; rfl
      · rw [hctx, Ctx.ended_seq]; rfl

/-! ### Records of replayable faults -/

/-- Lanes that are Stopped, and the trap that stopped them shown. -/
def State.stopped (s : State) (core slot : Nat) (ls : List Nat) (pc : DWord) (h : Hold) (r : TrapRec) : State :=
  ((s.stopLanes core slot ls pc h).updGroup core slot fun g => { g with trap := some r }).withFate .split

theorem State.stopped_eq (s : State) (core slot : Nat) (ls : List Nat) (pc : DWord) (h : Hold) (r : TrapRec) :
    (s.stopped core slot ls pc h r).ctx = s.ctx
    ∧ (s.stopped core slot ls pc h r).groups = s.groups.map (fun g => if g.core = core ∧ g.slot = slot then
          { g with trap := some r
                   lanes := g.lanes.mapIdx fun l t => if l ∈ ls then { t with st := .stopped, hold := h, pc } else t }
        else g)
    ∧ (s.stopped core slot ls pc h r).mem = s.mem ∧ (s.stopped core slot ls pc h r).sysMem = s.sysMem := by
  have hl (g : Group) := Group.updLanes_eq (fun t => { t with st := .stopped, hold := h, pc }) (fun _ => rfl) ls g
  refine ⟨rfl, ?_, rfl, rfl⟩
  rw [State.stopped, State.stopLanes, State.updGroup_updGroup _ _ _ _ _ fun g => by rw [hl]; rfl]
  refine List.map_congr_left fun g _ => ?_
  simp only [Group.isAt, hl, Bool.and_eq_true, beq_iff_eq]

/-- A replayable fault that joins no record makes one. -/
theorem State.replayable_fresh {s : State} {n va sub level : Nat} {kind : Access} {src : Source} {trap : Option TrapRec}
    (hq : (s.ctxAt n).fqN ≠ none) (hj : ∀ r ∈ (s.ctxAt n).recs, r.joins va sub kind = false) :
    s.replayable n va sub kind src level trap
      = (State.updCtx { s with ids := s.ids + 1 } n fun c => { c with recs := c.recs ++ [⟨s.ids, va, sub, kind, src, level, 0, none, trap⟩] },
        some s.ids) := by
  have hrec : (s.ctxAt n).recs.find? (fun r => r.joins va sub kind) = none := List.find?_eq_none.2 fun r hr => by simp [hj r hr]
  have hq' : (s.ctxAt n).fqN.isNone = false := Option.isNone_eq_false_iff.2 (Option.isSome_iff_ne_none.2 hq)
  simp only [State.replayable, hrec, hq', Bool.false_eq_true, if_false, State.fresh]

theorem State.split_replayable {s : State} {g : Group} {ls : List Nat} {t : Trap} (hg : s.grp = some g) (hue : t.ue = none)
    (hc : t.cause = .pageFault) (hd : t.demand = true) (hq : (s.ctxAt g.ctx).fqN ≠ none)
    (hj : ∀ r ∈ (s.ctxAt g.ctx).recs, r.joins t.aux t.detail t.kind = false) :
    s.split ls t = (State.updCtx { s.signal s.cur.core with ids := s.ids + 1 } g.ctx fun c => { c with recs := c.recs ++
        [⟨s.ids, t.aux, t.detail, t.kind, s.classSource ls t, t.level, 0, none, some (Rules.record s (ls.headD 0) t)⟩] }).stopped
          s.cur.core s.cur.slot ls s.cur.pc (.record s.ids) (Rules.record s (ls.headD 0) t) := by
  rw [State.split_demand hg hue (.inl hc) hd, State.replayable_fresh (s := s.signal s.cur.core) hq hj]
  rfl

/-- R39, R43, R415. -/
theorem replayableFaults : Rules.ReplayableFaults := by
  intro s g ls t hg hn _ hc hd hue hq hj
  rw [State.split_replayable hg hue hc hd hq hj]
  obtain ⟨hctx, hgroups, hmem, hsys⟩ := State.stopped_eq (State.updCtx { s.signal s.cur.core with ids := s.ids + 1 } g.ctx fun c =>
    { c with recs := c.recs ++ [⟨s.ids, t.aux, t.detail, t.kind, s.classSource ls t, t.level, 0, none, some (Rules.record s (ls.headD 0) t)⟩] })
    s.cur.core s.cur.slot ls s.cur.pc (.record s.ids) (Rules.record s (ls.headD 0) t)
  refine ⟨?_, hgroups, hmem, hsys⟩
  refine (congrArg (fun cs : List Ctx => (cs.getD g.ctx {}).recs) hctx).trans ?_
  exact congrArg Ctx.recs (State.ctxAt_updCtx_same (s := { s.signal s.cur.core with ids := s.ids + 1 }) _ hn)

theorem faultBytes_record (va seq : Nat) (phase : Bool) (sub : Nat) (kind : Access) (x : Source) (joined level : Nat) :
    faultBytes va seq phase false sub kind x joined level
      = leBytes va 8
        ++ leBytes (kind.code + x.code * 2 ^ 4 + sub * 2 ^ 8 + (if phase then 2 ^ 15 else 0) + seq % 2 ^ 16 * 2 ^ 16) 4
        ++ leBytes (x.lane * 2 ^ 4 + x.group * 2 ^ 9 + x.core * 2 ^ 18 + x.die * 2 ^ 24) 4
        ++ leBytes x.pc.toNat 8 ++ leBytes (level + Nat.min joined 0xFFFF * 2 ^ 16) 4 ++ leBytes 0 4 := by
  simp only [faultBytes, Bool.false_eq_true, if_false, Nat.add_zero, Nat.reducePow]

/-- One record among others of other names is changed by its name. -/
theorem map_named {pre post : List FaultRec} {r : FaultRec} (f : FaultRec → FaultRec) (h : ∀ q ∈ pre ++ post, q.id ≠ r.id) :
    (pre ++ r :: post).map (fun x => if x.id = r.id then f x else x) = pre ++ f r :: post := by
  have hid (qs : List FaultRec) (hq : ∀ q ∈ qs, q.id ≠ r.id) : qs.map (fun x => if x.id = r.id then f x else x) = qs :=
    (List.map_congr_left fun q hm => if_neg (hq q hm)).trans (List.map_id _)
  rw [List.map_append, List.map_cons, if_pos rfl, hid pre fun q hm => h q (List.mem_append_left _ hm),
    hid post fun q hm => h q (List.mem_append_right _ hm)]

section
variable {n k : Nat} {s : State} {r : FaultRec}

/-- What the event does where the queue has room: the cases of the record's place. -/
theorem exec_faultRecordWrite (hr : (s.ctxAt n).recs.find? (fun r => r.seq.isNone) = some r) (hk : (s.ctxAt n).fqN = some k)
    (hf : ¬ (s.ctxAt n).fqFull = true) :
    exec (.faultRecordWrite n) s = .next (match s.fqPlace n k with
      | none => (s.keepTrap n r).endContext n r.sub
      | some p => match s.ueIn p 32 with
        | some pa => ((s.noteUeAt pa).keepTrap n r).endContext n 0
        | none => s.putRecord p (faultBytes r.va (s.ctxAt n).seq (s.ctxAt n).fqwrap false r.sub r.kind r.src r.joined r.level) fun u =>
          u.updCtx n fun c => { c.advanceTail k with
            recs := c.recs.map fun x => if x.id = r.id then { x with seq := some c.seq } else x }) := by
  show execFaultRecordWrite n s = _
  simp only [execFaultRecordWrite, hr, hk, hf, Bool.false_eq_true, if_false]
  rfl

/-- The end of a context by a record of a lane's fault. -/
theorem ended_keepTrap {t : State} {sub : Nat} {y : TrapRec} (hy : r.trap = some y) (hn : n < t.ctx.length)
    (hg : t.groups = s.groups) (hc : t.ctx = s.ctx) (hf : (s.ctxAt n).faulted = false) (hfa : (s.ctxAt n).fatal = none) :
    Rules.ended s ((t.keepTrap n r).endContext n sub) n sub y := by
  have hat (k : Nat) : t.ctxAt k = s.ctxAt k := congrArg (fun cs => cs.getD k {}) hc
  have hkeep : t.keepTrap n r = t.updCtx n fun c => { c with fatal := some y } := by
    simp only [State.keepTrap, hy]
    exact State.keepFatal_none (by rw [hat]; exact hfa)
  rw [hkeep]
  refine ended_endContext ((updAt_length ..).symm ▸ hn) hg (fun k hk => ?_) ?_ ?_
  · rw [State.ctxAt_updCtx_other _ hk, hat]
  · rw [State.ctxAt_updCtx_same _ hn, hat]; exact hf
  · rw [State.ctxAt_updCtx_same _ hn]

theorem State.keepTrap_eq (t : State) (n : Nat) (r : FaultRec) : ∃ f, t.keepTrap n r = t.updCtx n f := by
  unfold State.keepTrap
  split
  · exact ⟨_, rfl⟩
  · exact ⟨fun c => c, by rw [State.updCtx, updAt_id]⟩

end

/-- R40, R42. -/
theorem faultRecords : Rules.FaultRecords := by
  intro n k p s r pre post hn c x hrecs hpre hids hseq hk h6 h16
  have hN := Ctx.fqN_some (c := c) hk h6 h16
  have hfind : c.recs.find? (fun r => r.seq.isNone) = some r := by
    rw [hrecs, List.find?_append, List.find?_eq_none.2 fun q hq => by simpa using hpre q hq]
    simp [hseq]
  have hplace (q : Option Nat) (hb : c.fqbase.toNat % 2 = 0)
      (hw : s.window c.part (c.fqbase.toNat / 2 ^ 12 % 2 ^ 40 * 2 ^ 12 + 32 * (c.fqtail % 2 ^ k)) = q) :
      s.fqPlace n k = q.map .dev := by rw [State.fqPlace_device k hb]; exact congrArg (Option.map Place.dev) hw
  have hroom (h : (c.fqtail + 1) % 2 ^ k ≠ c.fqhead.toNat % 2 ^ k) := exec_faultRecordWrite hfind hN (mt (Ctx.fqFull_iff hN).1 h)
  refine ⟨fun hfull => ?_, fun hne hb hw hue => ?_, fun y e hne hb hw hue hy hf hfa => ?_, fun y hne hb hw hy hf hfa => ?_⟩
  · show execFaultRecordWrite n s = _
    have hF : (s.ctxAt n).fqFull = true := (Ctx.fqFull_iff hN).2 hfull
    have hfind' : (s.ctxAt n).recs.find? (fun r => r.seq.isNone) = some r := hfind
    have hN' : (s.ctxAt n).fqN = some k := hN
    simp only [execFaultRecordWrite, hfind', hN', hF, if_true]
    rfl
  · refine ⟨_, hroom hne, ?_⟩
    have hx : (faultBytes r.va c.seq c.fqwrap false r.sub r.kind r.src r.joined r.level).length = 32 := faultBytes_length ..
    obtain ⟨t, ht, hrest, hmem⟩ := State.putRecord_ok (s := s) (p := .dev p) (fun u => u.updCtx n fun c => { c.advanceTail k with
      recs := c.recs.map fun x => if x.id = r.id then { x with seq := some c.seq } else x }) (hx.symm ▸ hue)
    simp only [hplace _ hb hw, hue, Option.map_some]
    rw [ht]
    obtain ⟨hmem, hsys⟩ := hmem p rfl
    have hcs := congrArg State.ctx hrest
    change t.ctx = s.ctx at hcs
    have hat : t.ctxAt n = c := congrArg (fun cs => cs.getD n {}) hcs
    rw [State.ctxAt_updCtx_same _ (hcs ▸ hn), hat]
    refine ⟨hmem.trans (by rw [faultBytes_record]), ?_, rfl, rfl, rfl, ?_⟩
    · rw [← map_named (fun x => { x with seq := some c.seq }) hids, ← hrecs]
    · rw [← hsys] at hrest
      exact (congrArg (fun u : State => { u with ctx := s.ctx }) hrest)
  · obtain ⟨f, hkeep⟩ := (s.noteUeAt e).keepTrap_eq n r
    refine ⟨_, hroom hne, ?_⟩
    simp only [hplace _ hb hw, hue, Option.map_some]
    obtain ⟨ch, hch⟩ := s.noteUeAt_chan e
    refine ⟨ended_keepTrap hy (by rw [hch]; exact hn) (by rw [hch]) (by rw [hch]) hf hfa, ?_, ?_⟩
    · rw [hkeep, State.endContext_mem, hch]; rfl
    · rw [hkeep, State.endContext_chan, ← State.noteUeAt_dev (State.window_lt hw) hue]; rfl
  · refine ⟨_, hroom hne, ?_⟩
    simp only [hplace _ hb hw, Option.map_none]
    obtain ⟨f, hkeep⟩ := s.keepTrap_eq n r
    exact ⟨ended_keepTrap hy hn rfl rfl hf hfa, by rw [hkeep, State.endContext_mem]; rfl⟩

/-- Settles O31. -/
theorem faults : Obligations.Faults := ⟨fatalFaults, replayableFaults, faultRecords⟩

end Sys2Proof.Machine
end

section
/-!
SUPPORT. A state in which two teams of one id stand, one resident and one saved: what CANCEL of a queue makes of it. Refutes O47.
-/
namespace Sys2Proof.Machine

/-- A team by its id and its launch. -/
def teamOf (id launch : Nat) : Team :=
  { id, ctx := 0, launch, no := 0, cores := [0], logical := 0, spsize := 0, tiles := 0, barbase := 0, roles := [], slots := [], det := false }

/-- Stage 2 with launch 1 of queue 0 and launch 2 of queue 1 of slot 0: team 5 of launch 2 is resident, and a save holds a team of
launch 1 that bears the id 5 too. -/
def sameIds : State :=
  { State.reset with
    powered := true, stage := .stage2, ports := [{ up := true }, { up := true }]
    launches := [{ id := 1, ctx := 0, queue := 0, record := [], table := [], accepted := 0 },
                 { id := 2, ctx := 0, queue := 1, record := [], table := [], accepted := 0 }]
    teams := [teamOf 5 2]
    saves := [{ ctx := 0, at_ := 0, teams := [teamOf 5 1], groups := [], copies := [], tasks := [], held := [] }] }

/-- CANCEL, with LOG2N = 4. -/
def cancelWrite : Wr := ⟨.port .a, 0x40000004, 0x0F⟩

/-- The write takes the resident team with the saved one. -/
theorem cancel_sameIds : (sameIds.writeView cancelWrite (.lqCtl 0 0)).teams = [] := by decide +kernel

/-- The clause of CANCEL (R211), of every state whose resident teams have ids of their own. -/
theorem not_queueControl : ¬ Rules.QueueControl := by
  intro h
  obtain ⟨-, hctl⟩ := h sameIds 0 0 4 cancelWrite .a rfl (by decide +kernel) (by decide +kernel)
  obtain ⟨-, -, -, hcancel⟩ := hctl (by decide +kernel) (by unfold Rules.merges; decide +kernel)
  obtain ⟨t, ht, -, -, -, hteams, -⟩ := hcancel (by unfold Rules.sets; decide +kernel) (by decide +kernel) (by decide) (by decide)
    (by decide +kernel)
  have ht' : t = sameIds.writeView cancelWrite (.lqCtl 0 0) := by injection ht with ht; exact ht.symm
  have hmem := hteams (teamOf 5 2) (by decide +kernel) (by
    rintro ⟨m, hm, hid, -, hq, -⟩
    revert m
    decide +kernel)
  rw [ht', cancel_sameIds] at hmem
  exact List.not_mem_nil hmem

/-- Refutes O47: the model drops the teams of a cancelled launch by their ids, its saved teams' among them, and the statement asks
only of the resident teams that their ids differ. In `sameIds` a saved team of the launch cancelled bears the id of a resident
team of another launch, and CANCEL takes that team too. -/
theorem not_contextBlock : ¬ Obligations.ContextBlock := fun h => not_queueControl h.2.2

end Sys2Proof.Machine
end

section
/-!
SUPPORT. What accesses by engines and by hosts leave beside their bytes (R60, R71, R443), and the requests of hosts through an aperture
window, for bytes of one page (R443, R444, R91). Settles O45.
-/
namespace Sys2Proof.Machine

/-! ### What accesses leave -/

/-- What the reads of tables keep: all that does not speak of what L2 holds. -/
theorem State.tableReads_keeps {P : State → Prop}
    (hl : ∀ s l2 ce chan past sysUe, P s → P { s with l2 := l2, ce := ce, chan := chan, past := past, sysUe := sysUe })
    {s : State} (n : Nat) (m : Mode) (va len : Nat) (h : P s) : P (s.tableReads n m va len) := by
  unfold State.tableReads
  refine State.foldl_keeps _ (fun t k ht => ?_) _ h
  dsimp only
  split
  · exact ht
  · exact State.foldl_keeps _ (fun u p hu => State.homeLine_keeps hl _ _ _ _ _ hu) _ ht

theorem State.homeRuns_keeps {P : State → Prop}
    (hl : ∀ s l2 ce chan past sysUe, P s → P { s with l2 := l2, ce := ce, chan := chan, past := past, sysUe := sysUe })
    {s : State} (write : Bool) (rs : Runs) (k : Hint) (old : Bool) (h : P s) : P (s.homeRuns write rs k old) := by
  refine State.foldl_keeps _ (fun t r ht => ?_) _ h
  split
  · exact State.homeRange_keeps hl _ _ _ _ _ _ ht
  · exact ht

theorem State.throughLine_keeps {P : State → Prop}
    (hl : ∀ s l2 ce chan past sysUe, P s → P { s with l2 := l2, ce := ce, chan := chan, past := past, sysUe := sysUe })
    {s : State} (line : Nat) (h : P s) : P (s.throughLine line) := by
  unfold State.throughLine
  dsimp only
  have hn := State.foldl_keeps (P := P) State.countCe (fun s a hs => hl s s.l2 s.ce _ s.past s.sysUe hs)
    (s := s.evictLine (0, line)) ((s.evictLine (0, line)).ce.filter fun b => b / 128 == line) (hl s _ _ s.chan _ s.sysUe h)
  generalize List.foldl State.countCe _ _ = u at hn ⊢
  have hu := hl u u.l2 (u.ce.filter fun b => b / 128 != line) u.chan u.past u.sysUe hn
  unfold State.keepPast
  split
  · exact hl u u.l2 _ u.chan _ u.sysUe hn
  · exact hu

theorem State.throughRuns_keeps {P : State → Prop}
    (hl : ∀ s l2 ce chan past sysUe, P s → P { s with l2 := l2, ce := ce, chan := chan, past := past, sysUe := sysUe })
    {s : State} (rs : Runs) (h : P s) : P (s.throughRuns rs) := by
  refine State.foldl_keeps _ (fun t r ht => ?_) _ h
  split
  · exact State.foldl_keeps _ (fun u k hu => State.throughLine_keeps hl _ hu) _ ht
  · exact ht

/-- Everything of `t` but what L2 holds, and the records of errors, is as it is in `s`. -/
def besideL2 (s t : State) : Prop := { t with l2 := s.l2, ce := s.ce, chan := s.chan, past := s.past, sysUe := s.sysUe } = s

theorem besideL2_keeps (s u : State) (l2 : List L2Line) (ce : List Nat) (chan : List Channel) (past : List (Nat × List Byte))
    (sysUe : List Nat) (h : besideL2 s u) : besideL2 s { u with l2 := l2, ce := ce, chan := chan, past := past, sysUe := sysUe } := h

theorem State.tableReads_beside (s : State) (n : Nat) (m : Mode) (va len : Nat) : besideL2 s (s.tableReads n m va len) :=
  State.tableReads_keeps (besideL2_keeps s) n m va len rfl
theorem State.homeRuns_beside (s : State) (write : Bool) (rs : Runs) (k : Hint) (old : Bool) : besideL2 s (s.homeRuns write rs k old) :=
  State.homeRuns_keeps (besideL2_keeps s) write rs k old rfl
theorem State.throughRuns_beside (s : State) (rs : Runs) : besideL2 s (s.throughRuns rs) :=
  State.throughRuns_keeps (besideL2_keeps s) rs rfl

theorem besideL2.trans {s t u : State} (h : besideL2 s t) (h' : besideL2 t u) : besideL2 s u := by
  have e := congrArg (fun t : State => { t with l2 := s.l2, ce := s.ce, chan := s.chan, past := s.past, sysUe := s.sysUe }) h'
  exact e.trans h
theorem besideL2.mem {s t : State} (h : besideL2 s t) : t.mem = s.mem := by have := congrArg State.mem h; exact this
theorem besideL2.ue {s t : State} (h : besideL2 s t) : t.ue = s.ue := by have := congrArg State.ue h; exact this

theorem State.apFill_eq (rs : Runs) (n : Nat) (p : Port) : ∀ (va : Nat) (s : State), ∃ c, s.apFill n p va rs = { s with aptc := c } := by
  induction rs with
  | nil => exact fun _ s => ⟨s.aptc, rfl⟩
  | cons r rs ih =>
    intro va s
    obtain ⟨c, h⟩ := ih (va + r.2.1) _
    exact ⟨c, h⟩

/-- The translations of a request leave what they read, and themselves in the port's cache. -/
theorem State.apTranslated_rest (s : State) (slot : Nat) (p : Port) (va n : Nat) (rs : Runs) :
    ∃ c, besideL2 { s with aptc := c } (s.apTranslated slot p va n rs) := by
  obtain ⟨c, hc⟩ := State.apFill_eq rs slot p va (s.tableReads slot { core := engineCore, port := some (portNo p) } va n)
  refine ⟨c, ?_⟩
  rw [State.apTranslated, hc]
  exact congrArg (fun t : State => { t with aptc := c }) (s.tableReads_beside slot _ va n)

/-! ### Requests for bytes of one page -/

section
variable {s : State} {p : Port} {f : Func} {slot off va n : Nat} {kind : Access}

theorem State.apSpan_page (h0 : n ≠ 0) (h : va % 4096 + n ≤ 4096) :
    s.apSpan slot p kind (pagesOf n) va n = (s.apPage slot p kind va).map fun e => [(some (.dev e.2), n, e.1)] := by
  have hj : Nat.min n (4096 - va % 4096) = n := Nat.min_eq_left (by omega)
  simp only [pagesOf, State.apSpan, h0, if_false, hj, Nat.sub_self, if_true]
  cases s.apPage slot p kind va <;> rfl

theorem State.apVa_open (h : Rules.windowVa s slot off va) : s.apVa slot off = some va := by
  obtain ⟨h0, hen, hva⟩ := h
  have hb : bit (s.ctxAt slot).apvbase.toNat 0 = true := by rw [← h0]; rfl
  simp only [State.apVa, hb, hen, Bool.and_self, if_true]
  rw [hva]; rfl
theorem State.apVa_closed (h : (s.ctxAt slot).apvbase.getLsbD 0 = false ∨ (s.ctxAt slot).en = false) : s.apVa slot off = none := by
  have hb : bit (s.ctxAt slot).apvbase.toNat 0 = (s.ctxAt slot).apvbase.getLsbD 0 := rfl
  rcases h with h | h <;> simp only [State.apVa, hb, h, Bool.false_and, Bool.and_false, Bool.false_eq_true, if_false]

theorem State.apRuns_closed (h : s.apVa slot off = none) : s.apRuns p kind slot off n = none := by simp only [State.apRuns, h]
theorem State.apRuns_page (hva : s.apVa slot off = some va) (h0 : n ≠ 0) (h : va % 4096 + n ≤ 4096) :
    s.apRuns p kind slot off n = (s.apPage slot p kind va).map fun e => (va, [(some (.dev e.2), n, e.1)]) := by
  simp only [State.apRuns, hva, State.apSpan_page h0 h, Option.map_map]; rfl

/-- A request through a closed window. -/
theorem State.apRefuse_closed (h : s.apVa slot off = none) :
    s.apRefuse p kind slot off n = { (s.updCtx slot fun c => { c with aperr := true }) with reply := .unsupported } := by
  simp only [State.apRefuse, h, Option.bind_none]

/-- A refused request for bytes of one page looks at that page's tables alone. -/
theorem State.apLost_page (h : va % 4096 + n ≤ 4096) (hp : s.apPage slot p kind va = none) :
    s.apLost p kind slot va n
      = match s.leafAt slot { kind, bank := true, core := engineCore, port := some (portNo p) } va with
        | .error e => e.ue
        | .ok _ => none := by
  have hf : (List.range (pagesOf n)).filter (fun k => k == 0 || decide ((if k = 0 then va else va / 4096 * 4096 + 4096 * k) < va + n)) = [0] := by
    rw [pagesOf, List.range_succ_eq_map, List.filter_cons_of_pos (by rfl), List.filter_eq_nil_iff.2]
    intro k hk
    obtain ⟨j, -, rfl⟩ := List.mem_map.1 hk
    have : ¬ va / 4096 * 4096 + 4096 * (j + 1) < va + n := by omega
    simpa using this
  simp only [State.apLost, hf, List.findSome?_cons, List.findSome?_nil, if_true, hp, Option.isNone_none]
  cases s.leafAt slot { kind, bank := true, core := engineCore, port := some (portNo p) } va <;> rfl

end

section
variable {s : State} {p : Port} {f : Func} {slot off va n a : Nat} {l : Leaf}

/-- The bytes read, and what is left of the read. -/
theorem exec_apertureRead_page (hs : Rules.served s p f slot) (hva : s.apVa slot off = some va) (h0 : n ≠ 0) (hoff : off + n ≤ 2 ^ 32)
    (h : va % 4096 + n ≤ 4096) (hp : s.apPage slot p .read va = some (l, a)) (hue : s.ueIn (.dev a) n = none) :
    ∃ t, exec (.apertureRead p f slot off n) s = .next t ∧ t.reply = .data (s.rdBytes (.dev a) n)
      ∧ { t with reply := s.reply, aptc := s.aptc, l2 := s.l2, ce := s.ce, chan := s.chan, past := s.past, sysUe := s.sysUe } = s := by
  obtain ⟨harr, hserv, hreach⟩ := hs
  obtain ⟨c, hc⟩ := s.apTranslated_rest slot p va n [(some (.dev a), n, l)]
  generalize hu : s.apTranslated slot p va n [(some (.dev a), n, l)] = u at hc
  have hue' : u.ueRuns [(some (.dev a), n, l)] = none := by
    have he : u.ueIn (.dev a) n = none := by rw [State.ueIn, hc.ue]; exact hue
    simp only [State.ueRuns, List.findSome?_cons, he, List.findSome?_nil]
  have hrun : exec (.apertureRead p f slot off n) s = .next { u.homeRuns false [(some (.dev a), n, l)] with
      reply := .data (u.rdRuns [(some (.dev a), n, l)]) } := by
    show execApertureRead p f slot off n s = _
    have hle : ¬ 2 ^ 32 < off + n := by omega
    simp only [execApertureRead, harr, hserv, hreach, hle, State.apRuns_page hva h0 h, hp, Option.map_some, hu, hue', decide_false,
      Bool.not_true, Bool.or_self, Bool.false_eq_true, if_false]
    rfl
  refine ⟨_, hrun, ?_, ?_⟩
  · simp only [State.rdRuns, List.append_nil, Store.rdBytes_dev, hc.mem]
  · have hb := hc.trans (u.homeRuns_beside false [(some (.dev a), n, l)] .kall false)
    exact congrArg (fun t : State => { t with reply := s.reply, aptc := s.aptc }) hb

theorem State.noteHost_eq (s : State) (slot va : Nat) (rs : Runs) : ∃ ls, s.noteHost slot va rs = { s with launches := ls } := ⟨_, rfl⟩

/-- Bytes put by a host at one place of device memory. -/
theorem State.hostPut_page (s : State) (bytes : List Byte) :
    let t := s.hostPut [(some (.dev a), bytes.length, l)] bytes
    t.mem = (s.wrBytes (.dev a) bytes).mem
      ∧ { t with mem := s.mem, l2 := s.l2, ce := s.ce, chan := s.chan, past := s.past, sysUe := s.sysUe } = s := by
  obtain ⟨u, hu, hb⟩ : ∃ u, (if pteBanked l.entry then s.throughRuns [(some (.dev a), bytes.length, l)]
      else s.homeRuns true [(some (.dev a), bytes.length, l)]) = u ∧ besideL2 s u := by
    split
    · exact ⟨_, rfl, s.throughRuns_beside _⟩
    · exact ⟨_, rfl, s.homeRuns_beside _ _ _ _⟩
  have ht : s.hostPut [(some (.dev a), bytes.length, l)] bytes = u.wrBytes (.dev a) bytes := by
    simp only [State.hostPut, hu, State.wrRuns, List.take_length]
  rw [ht]
  refine ⟨by rw [Store.wrBytes_dev, Store.wrBytes_dev, hb.mem], ?_⟩
  have e := congrArg (fun t : State => { t with mem := s.mem, l2 := s.l2, ce := s.ce, chan := s.chan, past := s.past, sysUe := s.sysUe })
    (State.wrBytes_dev_frame a bytes u)
  have e' := congrArg (fun t : State => { t with mem := s.mem }) hb
  exact e.trans e'

/-- The bytes written, and what is left of the write. -/
theorem exec_apertureWrite_page {bytes : List Byte} (hs : Rules.served s p f slot) (hva : s.apVa slot off = some va) (h0 : bytes ≠ [])
    (hoff : off + bytes.length ≤ 2 ^ 32) (h : va % 4096 + bytes.length ≤ 4096) (hp : s.apPage slot p .write va = some (l, a))
    (hue : s.ueIn (.dev a) bytes.length = none) :
    ∃ t, exec (.apertureWrite p f slot off bytes) s = .next t ∧ t.mem = (s.wrBytes (.dev a) bytes).mem ∧ t.reply = .none
      ∧ { t with mem := s.mem, reply := s.reply, aptc := s.aptc, launches := s.launches, l2 := s.l2, ce := s.ce,
                 chan := s.chan, past := s.past, sysUe := s.sysUe } = s := by
  obtain ⟨harr, hserv, hreach⟩ := hs
  obtain ⟨c, hc⟩ := s.apTranslated_rest slot p va bytes.length [(some (.dev a), bytes.length, l)]
  generalize hu : s.apTranslated slot p va bytes.length [(some (.dev a), bytes.length, l)] = u at hc
  have hue' : u.ueRuns [(some (.dev a), bytes.length, l)] = none := by
    have he : u.ueIn (.dev a) bytes.length = none := by rw [State.ueIn, hc.ue]; exact hue
    simp only [State.ueRuns, List.findSome?_cons, he, List.findSome?_nil]
  have hrun : exec (.apertureWrite p f slot off bytes) s = .next { (u.noteHost slot va [(some (.dev a), bytes.length, l)]).hostPut
      [(some (.dev a), bytes.length, l)] bytes with reply := .none } := by
    show execApertureWrite p f slot off bytes s = _
    have hle : ¬ 2 ^ 32 < off + bytes.length := by omega
    have hn : bytes.length ≠ 0 := fun h => h0 (List.length_eq_zero_iff.1 h)
    simp only [execApertureWrite, harr, hserv, hreach, hle, State.apRuns_page hva hn h, hp, Option.map_some, hu, hue', decide_false,
      Bool.not_true, Bool.or_self, Bool.false_eq_true, if_false]
    rfl
  obtain ⟨ls, hls⟩ := u.noteHost_eq slot va [(some (.dev a), bytes.length, l)]
  obtain ⟨hmem, hrest⟩ := State.hostPut_page (a := a) (l := l) (u.noteHost slot va [(some (.dev a), bytes.length, l)]) bytes
  rw [hls] at hmem hrest hrun
  refine ⟨_, hrun, ?_, rfl, ?_⟩
  · exact hmem.trans (by rw [Store.wrBytes_dev, Store.wrBytes_dev]; exact congrArg (Store.setAll · a bytes) hc.mem)
  · have e := congrArg (fun t : State => { t with mem := s.mem, reply := s.reply, aptc := s.aptc, launches := s.launches, l2 := s.l2,
                                                  ce := s.ce, chan := s.chan, past := s.past, sysUe := s.sysUe }) hrest
    have e' := congrArg (fun t : State => { t with mem := s.mem, reply := s.reply, aptc := s.aptc, launches := s.launches }) hc
    exact e.trans e'

/-- A refused write. -/
theorem exec_apertureWrite_refused {bytes : List Byte} (hs : Rules.served s p f slot) (hva : s.apVa slot off = some va) (h0 : bytes ≠ [])
    (hoff : off + bytes.length ≤ 2 ^ 32) (h : va % 4096 + bytes.length ≤ 4096) (hp : s.apPage slot p .write va = none) :
    exec (.apertureWrite p f slot off bytes) s = .next { s.apRefuse p .write slot off bytes.length with reply := .none } := by
  obtain ⟨harr, hserv, hreach⟩ := hs
  show execApertureWrite p f slot off bytes s = _
  have hle : ¬ 2 ^ 32 < off + bytes.length := by omega
  have hn : bytes.length ≠ 0 := fun h => h0 (List.length_eq_zero_iff.1 h)
  simp only [execApertureWrite, harr, hserv, hreach, hle, State.apRuns_page hva hn h, hp, Option.map_none, decide_false,
    Bool.not_true, Bool.or_self, Bool.false_eq_true, if_false]
  rfl

end

/-- R443, R444. -/
theorem apertureRequests : Rules.ApertureRequests := by
  intro s p f slot off va hs hn
  refine ⟨fun n _ hoff hclosed => ?_, fun hw => ?_⟩
  · obtain ⟨harr, hserv, hreach⟩ := hs
    show execApertureRead p f slot off n s = _
    have hle : ¬ 2 ^ 32 < off + n := by omega
    have hva := State.apVa_closed (off := off) hclosed
    simp only [execApertureRead, harr, hserv, hreach, hle, State.apRuns_closed hva, State.apRefuse_closed hva, decide_false,
      Bool.not_true, Bool.or_self, Bool.false_eq_true, if_false]
    rfl
  · have hva := State.apVa_open hw
    refine ⟨fun n l a h0 hoff h hp hue => exec_apertureRead_page hs hva h0 hoff h hp hue,
      fun bytes l a h0 hoff h hp hue => exec_apertureWrite_page hs hva h0 hoff h hp hue, fun bytes h0 hoff h hp => ?_⟩
    have hlost := State.apLost_page h hp
    rw [portNo_eq] at hlost
    intro leaf
    refine ⟨fun hno => ?_, fun e pa he hpa => ?_⟩
    · have hnone : s.apLost p .write slot va bytes.length = none := by
        rw [hlost]
        split
        · next e he => exact hno e he
        · rfl
      rw [exec_apertureWrite_refused hs hva h0 hoff h hp]
      simp only [State.apRefuse, hva, Option.bind_some, hnone]
    · have hsome : s.apLost p .write slot va bytes.length = some pa := by
        have he' : s.leafAt slot _ va = .error e := he
        rw [hlost, he']; exact hpa
      obtain ⟨ch, hch⟩ := s.noteUeAt_chan pa
      rw [exec_apertureWrite_refused hs hva h0 hoff h hp]
      simp only [State.apRefuse, hva, Option.bind_some, hsome]
      refine ⟨_, rfl, ?_, (State.endContext_mem _ _ 0).trans (by rw [hch]), rfl⟩
      refine (congrArg Ctx.faulted (State.endContext_ctxAt_same 0 (by rw [hch]; exact hn))).trans (Ctx.ended_faulted ..)

/-! ### AtomicOps, R91 -/

section
variable {s : State} {p : Port} {f : Func} {slot off va n a : Nat} {l : Leaf} {op : HostAtomic}

/-- The cases of an AtomicOp that is served and whose window is open, on bytes of one page. -/
theorem exec_hostAtomicop_page (hs : Rules.served s p f slot) (hva : s.apVa slot off = some va) (hop : (atomicParts op).1 = n)
    (h0 : n ≠ 0) (hoff : off + n ≤ 2 ^ 32) (h : va % 4096 + n ≤ 4096) (hp : s.apPage slot p .atomic va = some (l, a)) :
    exec (.hostAtomicop p f slot off op) s = .next (
      let u := s.apTranslated slot p va n [(some (.dev a), n, l)]
      if pteBanked l.entry || !(n == 4 || n == 8) || off % n != 0 then { u with reply := .unsupported }
      else match u.ueIn (.dev a) n with
        | some ue => { (u.noteUeAt ue).endContext slot 0 with reply := .unsupported }
        | none => u.hostAtomic slot va a l op) := by
  obtain ⟨harr, hserv, hreach⟩ := hs
  subst hop
  show execHostAtomicop p f slot off op s = _
  have hle : ¬ 2 ^ 32 < off + (atomicParts op).1 := by omega
  simp only [execHostAtomicop, harr, hserv, hreach, hle, State.apRuns_page hva h0 h, hp, Option.map_some, decide_false,
    Bool.not_true, Bool.or_self, Bool.false_eq_true, if_false]
  rfl

/-- An AtomicOp on a page whose ATOM is SYS. -/
theorem State.hostAtomic_sys {n' : Nat} {o : AOp} {b c : Nat} (hop : atomicParts op = (n', o, b, c)) (hsys : pteSysAtom l.entry = true)
    (hn : (atomicTy n').bytes = n') :
    (s.hostAtomic slot va a l op).reply = .data (leBytes (s.rdNat (.dev a) n') n')
    ∧ (s.hostAtomic slot va a l op).mem
      = (s.wrNat (.dev a) n' (aop o (atomicTy n') (s.rdNat (.dev a) n') (b % 2 ^ (atomicTy n').width) (c % 2 ^ (atomicTy n').width))).mem := by
  have hm : ((s.noteHost slot va [(some (.dev a), n', l)]).homeRuns true [(some (.dev a), n', l)] .kall true).mem = s.mem :=
    (State.homeRuns_beside ..).mem
  have hrd : ((s.noteHost slot va [(some (.dev a), n', l)]).homeRuns true [(some (.dev a), n', l)] .kall true).rdNat (.dev a) n'
      = s.rdNat (.dev a) n' := by rw [State.rdNat, State.rdNat, Store.rdBytes_dev, Store.rdBytes_dev, hm]
  simp only [State.hostAtomic, hop, State.atomicAt, hn, hsys, if_true, hrd]
  exact ⟨trivial, by simp only [State.wrNat, Store.wrBytes_dev, hm]⟩

theorem atomicTy_bytes (h : n = 4 ∨ n = 8) : (atomicTy n).bytes = n := by rcases h with rfl | rfl <;> rfl
theorem atomicTy_width (h : n = 4 ∨ n = 8) : (atomicTy n).width = 8 * n := by rcases h with rfl | rfl <;> rfl

/-- The bytes and the operation of an AtomicOp, and what it makes of the value found. -/
theorem atomicParts_new {new : Nat → Nat} (hn : n = 4 ∨ n = 8)
    (h : (∃ x, op = .fetchAdd n x ∧ new = fun old => (old + x.toNat % 2 ^ (8 * n)) % 2 ^ (8 * n))
      ∨ (∃ x, op = .swap n x ∧ new = fun _ => x.toNat % 2 ^ (8 * n))
      ∨ (∃ e x, op = .cas n e x ∧ new = fun old => if old = e.toNat % 2 ^ (8 * n) then x.toNat % 2 ^ (8 * n) else old)) :
    ∃ o b c, atomicParts op = (n, o, b, c)
      ∧ ∀ old, aop o (atomicTy n) old (b % 2 ^ (atomicTy n).width) (c % 2 ^ (atomicTy n).width) = new old := by
  rw [atomicTy_width hn]
  rcases h with ⟨x, rfl, rfl⟩ | ⟨x, rfl, rfl⟩ | ⟨e, x, rfl, rfl⟩
  · exact ⟨_, _, _, rfl, fun old => by rw [aop, atomicTy_width hn]⟩
  · exact ⟨_, _, _, rfl, fun old => rfl⟩
  · exact ⟨_, _, _, rfl, fun old => rfl⟩

/-- An AtomicOp through a closed window. -/
theorem exec_hostAtomicop_closed (hs : Rules.served s p f slot) (hva : s.apVa slot off = none) (hop : (atomicParts op).1 = n)
    (hoff : off + n ≤ 2 ^ 32) :
    exec (.hostAtomicop p f slot off op) s = .next { (s.updCtx slot fun c => { c with aperr := true }) with reply := .unsupported } := by
  obtain ⟨harr, hserv, hreach⟩ := hs
  subst hop
  show execHostAtomicop p f slot off op s = _
  have hle : ¬ 2 ^ 32 < off + (atomicParts op).1 := by omega
  simp only [execHostAtomicop, harr, hserv, hreach, hle, State.apRuns_closed hva, State.apRefuse_closed hva, decide_false,
    Bool.not_true, Bool.or_self, Bool.false_eq_true, if_false]
  rfl

/-- A refusal answers Unsupported Request and leaves memory. -/
theorem State.apRefuse_rest (s : State) (p : Port) (kind : Access) (slot off n : Nat) :
    (s.apRefuse p kind slot off n).reply = .unsupported ∧ (s.apRefuse p kind slot off n).mem = s.mem := by
  unfold State.apRefuse
  split
  · next pa _ =>
    obtain ⟨ch, hch⟩ := s.noteUeAt_chan pa
    exact ⟨rfl, (State.endContext_mem _ _ 0).trans (by rw [hch])⟩
  · exact ⟨rfl, rfl⟩

/-- A 128-bit CAS that is served. -/
theorem exec_hostAtomicop_cas128 (hs : Rules.served s p f slot) (hoff : off + 16 ≤ 2 ^ 32) :
    ∃ t, exec (.hostAtomicop p f slot off .cas128) s = .next t ∧ t.reply = .unsupported ∧ t.mem = s.mem := by
  obtain ⟨harr, hserv, hreach⟩ := hs
  have hle : ¬ 2 ^ 32 < off + 16 := by omega
  refine ⟨_, rfl, ?_⟩
  simp only [harr, hserv, hreach, hle, decide_false, Bool.not_true, Bool.or_self, Bool.false_eq_true, if_false]
  split
  · exact State.apRefuse_rest ..
  · next va rs _ =>
    obtain ⟨c, hc⟩ := s.apTranslated_rest slot p va 16 rs
    split
    · exact ⟨by simp, by simpa using hc.mem⟩
    · obtain ⟨hr, hm⟩ := (s.apTranslated slot p va 16 rs).apRefuse_rest p .atomic slot off 16
      exact ⟨hr, hm.trans hc.mem⟩

end

/-- R24, R91, R444. -/
theorem hostAtomics : Rules.HostAtomics := by
  refine ⟨fun s p f slot off va l a hs _ hw hp hbank hsys n op new hn hmod hoff hue hnew => ?_, fun s p f slot off harr hoff _ =>
    ⟨fun hno => ?_, fun hs hclosed op n hop hoff => ?_, fun hs => exec_hostAtomicop_cas128 hs hoff⟩⟩
  · obtain ⟨o, b, c, hparts, haop⟩ := atomicParts_new hn hnew
    have hva := State.apVa_open hw
    have hpage : va % 4096 + n ≤ 4096 := by
      obtain ⟨-, -, hv⟩ := hw
      rcases hn with rfl | rfl <;> omega
    obtain ⟨d, hd⟩ := s.apTranslated_rest slot p va n [(some (.dev a), n, l)]
    have hrun := exec_hostAtomicop_page hs hva (congrArg Prod.fst hparts) (by omega) hoff hpage hp
    generalize s.apTranslated slot p va n [(some (.dev a), n, l)] = u at hd hrun
    have hue' : u.ueIn (.dev a) n = none := by rw [State.ueIn, hd.ue]; exact hue
    have hn' : (n == 4 || n == 8) = true := by rcases hn with rfl | rfl <;> rfl
    have hrd : u.rdNat (.dev a) n = s.rdNat (.dev a) n := by
      rw [State.rdNat, State.rdNat, Store.rdBytes_dev, Store.rdBytes_dev, hd.mem]
    simp only [hbank, hn', hmod, hue', Bool.not_true, Bool.or_self, bne_self_eq_false, Bool.false_eq_true, if_false] at hrun
    obtain ⟨hreply, hmem⟩ := State.hostAtomic_sys (s := u) (slot := slot) (va := va) (a := a) hparts hsys (atomicTy_bytes hn)
    refine ⟨_, hrun, by rw [hreply, hrd], ?_⟩
    rw [hmem, haop, hrd, State.wrNat, State.wrNat, Store.wrBytes_dev, Store.wrBytes_dev, hd.mem]
  · show execHostAtomicop p f slot off .cas128 s = _
    have hle : ¬ 2 ^ 32 < off + 16 := by omega
    simp only [execHostAtomicop, atomicParts, harr, hno, hle, decide_false, Bool.not_true, Bool.not_false, Bool.or_self,
      Bool.false_eq_true, if_false, if_true]
    rfl
  · refine exec_hostAtomicop_closed hs (State.apVa_closed hclosed) (n := n) ?_ hoff
    rcases hop with ⟨rfl, rfl⟩ | ⟨x, rfl | rfl⟩ | ⟨e, x, rfl⟩ <;> rfl

/-- Settles O45. -/
theorem hostRequests : Obligations.HostRequests := ⟨apertureRequests, hostAtomics⟩

end Sys2Proof.Machine
end

section
/-!
SUPPORT. A memory that is not in canonical form, with a zero byte held back: what performing it leaves. Refutes O39.
-/
namespace Sys2Proof.Machine

/-- A byte of value 0 that group 0 of core 0 holds back, for address 0 of device memory. -/
def heldZero : HeldByte :=
  { core := 0, slot := 0, lane := 0, ctx := 0, team := none, port := none, addr := 0, byte := 0, keep := false, first := false }

/-- Memory that names address 0 twice: a zero stored there takes away the first entry, and the second is found. -/
def doubled : State := { State.reset with mem := [(0, 1), (0, 2)], stores := [heldZero] }

/-- The byte performed does not read back. -/
theorem performed_doubled : (doubled.otherAct (.performStores 0 0 0)).rdByte (.dev 0) = 2 := by decide +kernel

/-- R119 of every state, whatever form its memory has. -/
theorem not_storesPerformed : ¬ Rules.StoresPerformed := by
  intro h
  obtain ⟨-, hmem, -⟩ := h doubled 0 0 0 (0, 0) (by decide +kernel) rfl rfl
  obtain ⟨hread, -⟩ := hmem (by decide +kernel)
  have hzero : (doubled.stores.filter fun b => b.core == 0 && b.slot == 0 && b.word == (0, 0)).filter
      (fun b => b.cell == (Place.dev 0).cell) = [heldZero] := by decide +kernel
  have hq := hread (.dev 0)
  rw [performed_doubled, hzero] at hq
  exact absurd hq (by decide)

/-- Refutes O39: that a byte performed reads back rests on the canonical form of memory (`State.memWf`), which the statement does not
ask for. In `doubled` device memory names address 0 twice; the zero that is performed there takes away one entry, and the address
reads 2. -/
theorem not_memoryRequests : ¬ Obligations.MemoryRequests := fun h => not_storesPerformed h.2.2

end Sys2Proof.Machine
end

section
/-!
SUPPORT. What translation reads of a state. Residency feedback (R46 to R48): a mark is one bit of one byte; what a tiled load of one
thread leaves. Settles O19.
-/
namespace Sys2Proof.Machine

/-! ### What translation reads -/

/-- All that translation reads of `s` stands in `t` too. -/
structure SameTables (s t : State) : Prop where
  mem : t.mem = s.mem
  walk : t.walk = s.walk
  partWin : t.partWin = s.partWin
  ue : t.ue = s.ue
  sysUe : t.sysUe = s.sysUe
  ctx : t.ctx = s.ctx
  tlb : t.tlb = s.tlb
  aptc : t.aptc = s.aptc
  atc : t.atc = s.atc
  launches : t.launches = s.launches

section
variable {s t : State} (h : SameTables s t)
include h

theorem SameTables.ctxAt (n : Nat) : t.ctxAt n = s.ctxAt n := by rw [State.ctxAt, h.ctx]; rfl
theorem SameTables.window (part a : Nat) : t.window part a = s.window part a := by simp only [State.window, h.partWin]
theorem SameTables.ueIn (p : Place) (n : Nat) : t.ueIn p n = s.ueIn p n := by simp only [State.ueIn, h.ue, h.sysUe]

theorem SameTables.tableEntry (w : Walker) (level va a : Nat) : t.tableEntry w level va a = s.tableEntry w level va a := by
  have hc : t.cachedEntry w level va = s.cachedEntry w level va := by simp only [State.cachedEntry, h.walk]
  simp only [State.tableEntry, hc, h.window, h.ueIn, State.rdNat, Store.rdBytes_dev, h.mem]

theorem SameTables.walkFrom (w : Walker) (va : Nat) : ∀ level table, t.walkFrom w va level table = s.walkFrom w va level table := by
  intro level
  induction level with
  | zero => intro table; unfold State.walkFrom; rw [h.tableEntry]
  | succ level ih => intro table; unfold State.walkFrom; rw [h.tableEntry]; simp only [ih]

theorem SameTables.walkCtx (n die va : Nat) : t.walkCtx n die va = s.walkCtx n die va := by
  simp only [State.walkCtx, h.walkFrom, h.ctxAt]

theorem SameTables.leafAt (n : Nat) (m : Mode) (va : Nat) : t.leafAt n m va = s.leafAt n m va := by
  simp only [State.leafAt, State.tlbHit, h.walkCtx, h.ctxAt, h.tlb, h.aptc]

theorem SameTables.translate (n : Nat) (m : Mode) (va : Nat) : t.translate n m va = s.translate n m va := by
  simp only [State.translate, State.hostPlace, h.leafAt, h.ctxAt, h.window, h.atc]

theorem SameTables.mapBit (ctx who core : Nat) (r : Region) (a : Nat) : t.mapBit ctx who core r a = s.mapBit ctx who core r a := by
  simp only [State.mapBit, State.reserved, h.translate, h.ueIn, h.launches]

end

/-! ### Marks -/

/-- A value that is not zero is read back, whatever the form of the store. -/
theorem Store.get_set_ne_zero {w : Nat} {a : Nat} {v : BitVec w} (hv : v ≠ 0#w) : ∀ m : Store w, (m.set a v).get a = v
  | [] => by simp [Store.set, Store.get, hv]
  | (k, x) :: r => by
    simp only [Store.set]
    split
    · simp [hv, Store.get]
    · split
      · simp [hv, Store.get]
      · next h => simp only [Store.get, if_neg h]; exact Store.get_set_ne_zero hv r

theorem State.rdByte_wrByte_ne_zero (s : State) (p : Place) {x : Byte} (h : x ≠ 0#8) : (s.wrByte p x).rdByte p = x := by
  cases p with
  | dev a => exact Store.get_set_ne_zero h s.mem
  | sys q a => exact Store.get_set_ne_zero h s.sysMem

/-- A byte with a bit set is not zero. -/
theorem or_bit_ne_zero (x : Byte) {b : Nat} (h : b < 8) : x ||| BitVec.ofNat 8 (2 ^ b) ≠ 0#8 := by
  intro e
  have hb := congrArg (·.getLsbD b) e
  simp only [BitVec.getLsbD_or, BitVec.getLsbD_ofNat, Nat.testBit_two_pow_self, h, decide_true, Bool.and_true, Bool.or_true,
    Nat.zero_testBit, Bool.and_false, Bool.true_eq_false] at hb

theorem State.dropLines_eq (s : State) (core : Nat) (p : Place) (n : Nat) : ∃ l1, s.dropLines core p n = { s with l1 := l1 } := by
  unfold State.dropLines
  generalize sectorsOf p n = ks
  induction ks generalizing s with
  | nil => exact ⟨s.l1, rfl⟩
  | cons k ks ih =>
    obtain ⟨l1, h⟩ := ih (s.dropLine core (k.1, k.2 / 4))
    exact ⟨l1, h⟩

theorem rdByte_of_mem {s t : State} (hm : t.mem = s.mem) (hs : t.sysMem = s.sysMem) (q : Place) : t.rdByte q = s.rdByte q := by
  cases q <;> simp only [State.rdByte, hm, hs]

theorem besideL2.sysMem {s t : State} (h : besideL2 s t) : t.sysMem = s.sysMem := by have := congrArg State.sysMem h; exact this
theorem besideL2.ctx {s t : State} (h : besideL2 s t) : t.ctx = s.ctx := by have := congrArg State.ctx h; exact this
theorem State.ctxAt_of_ctx {s t : State} (h : t.ctx = s.ctx) (n : Nat) : t.ctxAt n = s.ctxAt n := by rw [State.ctxAt, State.ctxAt, h]

/-- A mark sets its bit, and changes no other byte and no context. -/
theorem State.setMark_some (s : State) (ctx core b : Nat) (p : Place) (l : Leaf) (hb : b < 8) :
    let t := s.setMark ctx core (some (p, b, l))
    t.rdByte p = s.rdByte p ||| BitVec.ofNat 8 (2 ^ b) ∧ (∀ q : Place, q.cell ≠ p.cell → t.rdByte q = s.rdByte q) ∧ t.ctx = s.ctx := by
  have hr := s.homeRuns_beside true [(some p, 1, l)] .kall true
  obtain ⟨l1, hd⟩ := (s.homeRuns true [(some p, 1, l)] .kall true).dropLines_eq core p 1
  simp only [State.setMark, hd]
  generalize s.homeRuns true [(some p, 1, l)] .kall true = u at hr
  have hctx (x : Byte) : (State.wrByte { u with l1 := l1 } p x).ctx = u.ctx := by cases p <;> rfl
  refine ⟨State.rdByte_wrByte_ne_zero _ _ (or_bit_ne_zero _ hb), fun q hq => ?_, (hctx _).trans hr.ctx⟩
  rw [State.rdByte_wrByte_other _ _ hq]
  exact rdByte_of_mem hr.mem hr.sysMem q

/-- A bit that cannot be written. -/
theorem State.setMark_none (s : State) (ctx core : Nat) (h : ctx < s.ctx.length) :
    (∀ q, (s.setMark ctx core none).rdByte q = s.rdByte q)
      ∧ (s.setMark ctx core none).ctxAt ctx = { s.ctxAt ctx with rfmlost := true } :=
  ⟨fun q => by cases q <;> rfl, State.ctxAt_updCtx_same _ h⟩

/-- The feedback of a read of one page that is not resident. -/
theorem State.feedback_page (s : State) (ctx who core va n : Nat) (leaf : Leaf) :
    s.feedback ctx who core va [(none, n, leaf)] = match (s.ctxAt ctx).regionAt va with
      | none => s
      | some r => match s.mapBit ctx who core r va with
        | .ok ms => ms.foldl (fun s m => s.setMark ctx core m) (s.tableReads ctx { kind := .atomic, core } (r.mapByte va) 1)
        | _ => s := by
  simp only [State.feedback, State.marks, State.mapReads]
  cases (s.ctxAt ctx).regionAt va with
  | none => rfl
  | some r => cases h : s.mapBit ctx who core r va <;> simp [h]

/-- The first region that holds an address. -/
theorem Ctx.regionAt_none {c : Ctx} {a : Nat} (h : ∀ r, some r ∈ c.regions → ¬ (r.base ≤ a ∧ a < r.base + r.size)) : c.regionAt a = none := by
  rw [Ctx.regionAt, List.findSome?_eq_none_iff]
  intro x hx
  cases x with
  | none => rfl
  | some r => exact if_neg (h r hx)
theorem Ctx.regionAt_some {c : Ctx} {a : Nat} {pre post : List (Option Region)} {r : Region} (hc : c.regions = pre ++ some r :: post)
    (hpre : ∀ x, some x ∈ pre → ¬ (x.base ≤ a ∧ a < x.base + x.size)) (hr : r.base ≤ a ∧ a < r.base + r.size) : c.regionAt a = some r := by
  have hp := Ctx.regionAt_none (c := { c with regions := pre }) hpre
  rw [Ctx.regionAt] at hp
  rw [Ctx.regionAt, hc, List.findSome?_append, hp, Option.none_or, List.findSome?_cons]
  simp only [hr, and_self, if_true]

/-! ### A tiled load -/

/-- What a load of one page that is not resident leaves before its feedback: the walks that served it. -/
def State.walkedOn (s : State) (l va n : Nat) : State := s.walkServed s.cur.core s.myCtx l va n

theorem State.walkedOn_tables (s : State) (l va n : Nat) : SameTables s (s.walkedOn l va n) := ⟨rfl, rfl, rfl, rfl, rfl, rfl, rfl, rfl, rfl, rfl⟩

theorem State.afterLoad_page (s : State) (l : Nat) (h : Hint) (va n : Nat) (leaf : Leaf) :
    s.afterLoad l false none h va n [(none, n, leaf)] = (s.walkedOn l va n).feedback s.myCtx s.myLaunch s.cur.core va [(none, n, leaf)] := rfl

/-- An issue entered changes no byte and no context. -/
theorem State.issued_keeps (s : State) (l f : Nat) (pc : DWord) (ws : List (Nat × Nat × Word)) (fl : Nat) :
    let u := ((s.setPc l pc).issueFor f .none [l] ws fl).withFate .go
    (∀ q, u.rdByte q = s.rdByte q) ∧ u.ctx = s.ctx := ⟨fun q => by cases q <;> rfl, rfl⟩

section
variable {t : MTy} {k : Hint} {d : Nat} {a : Src} {off : BitVec 12} {f : Nat} {s : State} {l : Nat} {leaf : Leaf}

/-- A tiled load of one thread whose check finds one page that is not resident. -/
theorem exec_ldt_page (hr : s.classReady (.ldt t k d a off f)) (hl : s.cur.lanes = [l]) (hf : s.flagFull f = false)
    (hc : s.check l .read true (s.ea l a off) t.bytes 1 (some k) = .ok [(none, t.bytes, leaf)]) :
    ∃ u, exec (.ldt t k d a off f) s = .next u
      ∧ let v := (s.walkedOn l (s.ea l a off) t.bytes).feedback s.myCtx s.myLaunch s.cur.core (s.ea l a off) [(none, t.bytes, leaf)]
        (∀ q, u.rdByte q = v.rdByte q) ∧ u.ctx = v.ctx := by
  obtain ⟨-, -, -, g, -, hall⟩ := hr
  obtain ⟨-, hframe, hmeets⟩ := hall l (by rw [hl]; exact List.mem_singleton.2 rfl)
  refine ⟨_, ?_, State.issued_keeps _ l f s.cur.next
    ([] ++ (resultsAt d (t.load (leNat (s.forward l (cellsOf [(none, t.bytes, leaf)])
      (s.seenRuns s.cur.core false k [(none, t.bytes, leaf)]))))).map fun r => (l, (s.lane l).wb + r.1, r.2)) (0 ||| 0)⟩
  show execLdt t k d a off f s = _
  simp only [execLdt, loadGlobal, perLaneLong, hf, Bool.false_eq_true, if_false, hl, runLong, hframe, hmeets, hc, Bool.not_true,
    State.afterLoad_page]
  rfl

end

/-- What the check of a tiled load has judged of its feedback. -/
theorem State.check_mapBit {s : State} {l va n : Nat} {leaf : Leaf} {h : Option Hint} {r : Region}
    (hc : s.check l .read true va n 1 h = .ok [(none, n, leaf)]) (hr : (s.ctxAt s.myCtx).regionAt va = some r) :
    ∃ ms, s.mapBit s.myCtx s.myLaunch s.cur.core r va = .ok ms := by
  -- what the checks before the last answer is a trap or a wait, never the places
  unfold State.check at hc
  dsimp only at hc
  split at hc <;> [cases hc; skip]
  split at hc <;> [cases hc; skip]
  split at hc <;> [cases hc; skip]
  split at hc <;> [cases hc; skip]
  split at hc <;> [cases hc; cases hc; skip]
  split at hc <;> [cases hc; skip]
  split at hc <;> [cases hc; skip]
  split at hc <;> [cases hc; skip]
  split at hc <;> [cases hc; cases hc; skip]
  obtain rfl := Chk.ok.inj hc
  next ms hms =>
    simp only [State.marks, hr] at hms
    cases h : s.mapBit s.myCtx s.myLaunch s.cur.core r va with
    | ok ms => exact ⟨ms, rfl⟩
    | bad t => rw [h] at hms; cases hms
    | pri p => rw [h] at hms; cases hms

/-- A map byte that translates takes the bit. -/
theorem State.mapBit_ok {s : State} {ctx who core a : Nat} {r : Region} {p : Place} {e : Leaf} {ms : List (Option (Place × Nat × Leaf))}
    (ht : s.translate ctx { kind := .atomic, core } (r.mapByte a) = .ok p e) (h : s.mapBit ctx who core r a = .ok ms) :
    ms = [some (p, (a - r.base) / 2 ^ 16 % 8, e)] := by
  simp only [State.mapBit, ht] at h
  split at h
  · cases h
  · split at h
    · cases h
    · exact (Feed.ok.inj h).symm

/-- A map byte that cannot be written loses it. -/
theorem State.mapBit_lost {s : State} {ctx who core a : Nat} {r : Region}
    (h : (∃ e, s.translate ctx { kind := .atomic, core } (r.mapByte a) = .bad e ∧ e.ue = none)
      ∨ ∃ e, s.translate ctx { kind := .atomic, core } (r.mapByte a) = .zeros e) : s.mapBit ctx who core r a = .ok [none] := by
  rcases h with ⟨e, he, hue⟩ | ⟨e, he⟩
  · simp only [State.mapBit, he, hue]
  · simp only [State.mapBit, he]

/-- Settles O19: the map bit of the one run, translated as the check found it. -/
theorem residency : Obligations.Residency := by
  intro t k d a off f s g l leaf i hr hg hl hf hn va c hc
  obtain ⟨u, hu, hrd, hctx⟩ := exec_ldt_page hr hl hf hc
  rw [show s.ea l a off = va from rfl] at hrd hctx
  clear_value va
  have hT := s.walkedOn_tables l va t.bytes
  have hmy : s.myCtx = g.ctx := by rw [State.myCtx, hg]
  have hlen : s.myCtx < s.ctx.length := hmy ▸ hn
  rw [State.feedback_page, hT.ctxAt] at hrd hctx
  have hread (p : Place) : (s.walkedOn l va t.bytes).rdByte p = s.rdByte p := rdByte_of_mem rfl rfl p
  intro holds
  refine ⟨fun hno => ⟨u, hu, ?_⟩, fun pre post r hreg hpre hin => ?_⟩
  · have hnone : c.regionAt va = none := Ctx.regionAt_none hno
    simp only [show (s.ctxAt s.myCtx).regionAt va = none from hnone] at hrd hctx
    exact ⟨fun q => (hrd q).trans (hread q), State.ctxAt_of_ctx hctx _⟩
  · have hat : (s.ctxAt s.myCtx).regionAt va = some r := Ctx.regionAt_some hreg hpre hin
    simp only [hat, hT.mapBit] at hrd hctx
    have hb := (s.walkedOn l va t.bytes).tableReads_beside s.myCtx { kind := .atomic, core := s.cur.core } (r.mapByte va) 1
    intro bitNo at_
    refine ⟨fun p e hp => ⟨u, hu, ?_⟩, fun hlost => ⟨u, hu, ?_⟩⟩
    · obtain ⟨ms, hms⟩ := State.check_mapBit hc hat
      obtain rfl := State.mapBit_ok hp hms
      simp only [hms, List.foldl_cons, List.foldl_nil] at hrd hctx
      generalize (s.walkedOn l va t.bytes).tableReads s.myCtx { kind := .atomic, core := s.cur.core } (r.mapByte va) 1 = v at hb hrd hctx
      have hmem (q : Place) := (rdByte_of_mem hb.mem hb.sysMem q).trans (hread q)
      obtain ⟨h1, h2, h3⟩ := v.setMark_some s.myCtx s.cur.core (bitNo % 8) p e (Nat.mod_lt _ (by decide))
      refine ⟨(hrd p).trans (h1.trans (by rw [hmem])), fun q hq => (hrd q).trans ((h2 q hq).trans (hmem q)), ?_⟩
      exact State.ctxAt_of_ctx (hctx.trans (h3.trans hb.ctx)) _
    · simp only [State.mapBit_lost hlost, List.foldl_cons, List.foldl_nil] at hrd hctx
      generalize (s.walkedOn l va t.bytes).tableReads s.myCtx { kind := .atomic, core := s.cur.core } (r.mapByte va) 1 = v at hb hrd hctx
      have hmem (q : Place) := (rdByte_of_mem hb.mem hb.sysMem q).trans (hread q)
      obtain ⟨h1, h2⟩ := v.setMark_none s.myCtx s.cur.core (by rw [hb.ctx]; exact hlen)
      refine ⟨fun q => (hrd q).trans ((h1 q).trans (hmem q)), (State.ctxAt_of_ctx hctx _).trans (h2.trans ?_)⟩
      rw [State.ctxAt_of_ctx hb.ctx]
      rfl

end Sys2Proof.Machine
end

section
/-!
SUPPORT. The slots of a die's walker (R34): what one slot given, and then all of them, make of the requests; and the walk of a page
(R33, R35). Settles O6.
-/
namespace Sys2Proof.Machine

/-! ### Slots -/

/-- The oldest queued request of a core that has one gets the slot. -/
theorem allotFirst_eq (core : Nat) : ∀ ms : List Miss, (ms.any fun m => m.core == core && m.stage == .queued) = true →
    ∃ pre m post, ms = pre ++ m :: post ∧ allotFirst core ms = pre ++ { m with stage := .walking } :: post ∧ m.core = core
      ∧ m.stage = .queued ∧ ∀ x ∈ pre, ¬ (x.core = core ∧ x.stage = .queued)
  | [], h => absurd h Bool.false_ne_true
  | a :: ms, h => by
    by_cases ha : (a.core == core && a.stage == .queued) = true
    · obtain ⟨hc, hs⟩ := Bool.and_eq_true_iff.1 ha
      exact ⟨[], a, ms, rfl, if_pos ha, eq_of_beq hc, eq_of_beq hs, fun x hx => absurd hx List.not_mem_nil⟩
    · rw [List.any_cons, Bool.eq_false_iff.2 ha, Bool.false_or] at h
      obtain ⟨pre, m, post, hms, hall, hc, hs, hpre⟩ := allotFirst_eq core ms h
      refine ⟨a :: pre, m, post, by rw [hms]; rfl, by rw [allotFirst, if_neg ha, hall]; rfl, hc, hs, fun x hx => ?_⟩
      rcases List.mem_cons.1 hx with rfl | hx
      · simpa using ha
      · exact hpre x hx

/-- Requests of a die that got slots: none is lost, none of another die moves, and the oldest of a core goes first. -/
structure Allots (die : Nat) (ms ns : List Miss) : Prop where
  same : ns.map (fun (m : Miss) => { m with stage := .queued }) = ms.map fun (m : Miss) => { m with stage := .queued }
  moves : ∀ (k : Nat) (m : Miss), ms[k]? = some m → ns[k]? = some m
    ∨ m.core / 48 = die ∧ m.stage = .queued ∧ ns[k]? = some { m with stage := .walking }
  order : ∀ (i j : Nat) (a b : Miss), i < j → ns[i]? = some a → ns[j]? = some b → ms[j]? = some { b with stage := .queued } →
    a.core = b.core → a.stage = .queued → b.stage ≠ .walking

theorem Allots.refl (die : Nat) (ms : List Miss) : Allots die ms ms := by
  refine ⟨rfl, fun _ _ h => .inl h, fun i j a b _ _ hb hq _ _ hw => ?_⟩
  have := congrArg Miss.stage (Option.some.inj (hb.symm.trans hq))
  rw [hw] at this
  cases this

/-- A request that is still queued was queued before. -/
theorem Allots.queued_before {die i : Nat} {ms ns : List Miss} {a : Miss} (h : Allots die ms ns) (ha : ns[i]? = some a)
    (hq : a.stage = .queued) : ms[i]? = some a := by
  have hlen : ns.length = ms.length := by simpa using congrArg List.length h.same
  have hi : i < ms.length := hlen ▸ (List.getElem?_eq_some_iff.1 ha).1
  rcases h.moves i ms[i] (List.getElem?_eq_getElem hi) with hm | ⟨-, -, hm⟩
  · rw [List.getElem?_eq_getElem hi, ← Option.some.inj (hm.symm.trans ha)]
  · rw [← Option.some.inj (hm.symm.trans ha)] at hq
    cases hq

theorem Allots.trans {die : Nat} {ms ns os : List Miss} (h : Allots die ms ns) (h' : Allots die ns os) : Allots die ms os := by
  refine ⟨h'.same.trans h.same, fun k m hm => ?_, fun i j a b hij ha hb hj hc hq hw => ?_⟩
  · rcases h.moves k m hm with hn | ⟨hd, hs, hn⟩
    · exact h'.moves k m hn
    · rcases h'.moves k _ hn with ho | ⟨-, hs', -⟩
      · exact .inr ⟨hd, hs, ho⟩
      · cases hs'
  · have hna := h'.queued_before ha hq
    rcases h.moves j _ hj with hn | ⟨-, -, hn⟩
    · exact h'.order i j a b hij ha hb hn hc hq hw
    · have hnb : ns[j]? = some b := by rw [hn]; cases b; cases hw; rfl
      exact h.order i j a b hij hna hnb hj hc hq hw

/-- One slot given. -/
theorem Allots.one {die core : Nat} {ms : List Miss} (hd : core / 48 = die)
    (h : (ms.any fun m => m.core == core && m.stage == .queued) = true) : Allots die ms (allotFirst core ms) := by
  obtain ⟨pre, m, post, rfl, hall, hc, hs, hpre⟩ := allotFirst_eq core ms h
  rw [hall]
  have hother (k : Nat) (hk : k ≠ pre.length) : (pre ++ { m with stage := .walking } :: post)[k]? = (pre ++ m :: post)[k]? := by
    rcases Nat.lt_or_gt_of_ne hk with hk | hk
    · rw [List.getElem?_append_left hk, List.getElem?_append_left hk]
    · rw [List.getElem?_append_right hk.le, List.getElem?_append_right hk.le]
      obtain ⟨j, hj⟩ : ∃ j, k - pre.length = j + 1 := ⟨k - pre.length - 1, by omega⟩
      rw [hj]; rfl
  have hat (x : Miss) : (pre ++ x :: post)[pre.length]? = some x := by simp
  refine ⟨by simp, fun k x hx => ?_, fun i j a b hij ha hb hj hac hq hw => ?_⟩
  · by_cases hk : k = pre.length
    · subst hk
      obtain rfl := Option.some.inj ((hat m).symm.trans hx)
      exact .inr ⟨hc ▸ hd, hs, hat _⟩
    · exact .inl ((hother k hk).trans hx)
  · by_cases hk : j = pre.length
    · subst hk
      have hb' := Option.some.inj ((hat _).symm.trans hb)
      rw [List.getElem?_append_left hij] at ha
      exact hpre a (List.mem_of_getElem? ha) ⟨by rw [hac, ← hb']; exact hc, hq⟩
    · have := congrArg Miss.stage (Option.some.inj (hb.symm.trans ((hother j hk).trans hj)))
      rw [hw] at this
      cases this

/-- The requests of a die that stand at a stage. -/
def missesAt (die : Nat) (g : MissStage) (ms : List Miss) : Nat := (ms.filter fun m => m.core / 48 == die && m.stage == g).length

theorem missesAt_allotFirst {die core : Nat} {ms : List Miss} (hd : core / 48 = die)
    (h : (ms.any fun m => m.core == core && m.stage == .queued) = true) :
    missesAt die .walking (allotFirst core ms) = missesAt die .walking ms + 1 := by
  obtain ⟨pre, m, post, rfl, hall, hc, hs, -⟩ := allotFirst_eq core ms h
  have hm : (m.core / 48 == die) = true := by rw [hc, hd]; exact beq_self_eq_true die
  rw [hall]
  simp only [missesAt, List.filter_append, List.filter_cons, hm, hs, Bool.true_and, beq_self_eq_true, if_true, List.length_append,
    List.length_cons, show ((MissStage.queued == MissStage.walking) = false) from rfl, Bool.false_eq_true, if_false]
  omega

/-- A die's cores in the order in which the slots go round. -/
def turnOrder (die turn : Nat) : List Nat := (List.range 48).map fun k => 48 * die + (turn + 1 + k) % 48

theorem mem_turnOrder {die turn c : Nat} : c ∈ turnOrder die turn ↔ c / 48 = die := by
  rw [turnOrder, List.mem_map]
  constructor
  · rintro ⟨k, -, rfl⟩; omega
  · rintro rfl
    exact ⟨(c % 48 + 48 - (turn + 1) % 48) % 48, List.mem_range.2 (Nat.mod_lt _ (by decide)), by omega⟩

/-- One turn of the slots of a die. -/
theorem State.allot_succ (s : State) (die fuel : Nat) :
    s.allot die (fuel + 1) = (if 64 ≤ missesAt die .walking s.misses then s
      else match (turnOrder die (s.dieAt die).turn).find? fun c => s.misses.any fun m => m.core == c && m.stage == .queued with
        | none => s
        | some c => ({ s with misses := allotFirst c s.misses }.updDie die fun d => { d with turn := c % 48 }).allot die fuel) := rfl

/-- Slots given change the requests and whose turn it is. -/
theorem State.allot_eq (die : Nat) : ∀ (fuel : Nat) (s : State), ∃ ms ds, s.allot die fuel = { s with misses := ms, die := ds }
  | 0, s => ⟨s.misses, s.die, rfl⟩
  | fuel + 1, s => by
    rw [State.allot_succ]
    split
    · exact ⟨s.misses, s.die, rfl⟩
    · split
      · exact ⟨s.misses, s.die, rfl⟩
      · next c _ =>
        obtain ⟨ms, ds, h⟩ := State.allot_eq die fuel ({ s with misses := allotFirst c s.misses }.updDie die fun d => { d with turn := c % 48 })
        exact ⟨ms, ds, h⟩

/-- Slots are given as long as a request waits and a slot is free. -/
theorem State.allot_spec (die : Nat) : ∀ (fuel : Nat) (s : State), let t := s.allot die fuel
    Allots die s.misses t.misses ∧ (missesAt die .walking s.misses ≤ 64 → missesAt die .walking t.misses ≤ 64)
      ∧ (64 ≤ missesAt die .walking t.misses ∨ missesAt die .queued t.misses = 0
        ∨ missesAt die .walking s.misses + fuel ≤ missesAt die .walking t.misses)
  | 0, s => ⟨.refl .., fun h => h, .inr (.inr (Nat.le_refl _))⟩
  | fuel + 1, s => by
    rw [State.allot_succ]
    split
    · next h => exact ⟨.refl .., fun h => h, .inl h⟩
    · next hfree =>
      split
      · next hnone =>
        refine ⟨.refl .., fun h => h, .inr (.inl (List.length_eq_zero_iff.2 (List.filter_eq_nil_iff.2 fun m hm h => ?_)))⟩
        obtain ⟨hd, hq⟩ := Bool.and_eq_true_iff.1 h
        refine List.find?_eq_none.1 hnone m.core (mem_turnOrder.2 (eq_of_beq hd)) (List.any_eq_true.2 ⟨m, hm, ?_⟩)
        rw [hq, beq_self_eq_true, Bool.and_self]
      · next c hsome =>
        have hd := mem_turnOrder.1 (List.mem_of_find?_eq_some hsome)
        have hany := List.find?_some hsome
        obtain ⟨hall, hle, hdone⟩ := State.allot_spec die fuel ({ s with misses := allotFirst c s.misses }.updDie die fun d => { d with turn := c % 48 })
        have hcount : missesAt die .walking (State.updDie { s with misses := allotFirst c s.misses } die fun d => { d with turn := c % 48 }).misses
            = missesAt die .walking s.misses + 1 := missesAt_allotFirst hd hany
        rw [hcount] at hle hdone
        exact ⟨(Allots.one hd hany).trans hall, fun _ => hle (by omega), by omega⟩

/-- R34. -/
theorem walkSlots : Rules.WalkSlots := by
  intro s die t mine
  obtain ⟨hall, hle, hdone⟩ := State.allot_spec die 64 s
  refine ⟨hall.same, hle, ?_, hall.moves, hall.order⟩
  rcases hdone with h | h | h
  · exact .inl h
  · exact .inr h
  · exact .inl (Nat.le_trans (Nat.le_add_left ..) h)

/-! ### Walks -/

section
variable {s t : State} {core n : Nat} {va : DWord}

theorem Miss.wants_iff (m : Miss) (core ctx page : Nat) :
    m.wants core ctx page = true ↔ m.core = core ∧ m.ctx = ctx ∧ m.page = page ∧ m.stage ≠ .walked := by
  simp only [Miss.wants, Miss.ended, Bool.and_eq_true, beq_iff_eq, Bool.not_eq_true', beq_eq_false_iff_ne, and_assoc]

theorem State.cacheable_iff (s : State) (n va : Nat) (l : Leaf) :
    s.cacheable n va l = true ↔ l.entry[10] = false ∧ (l.entry[11] = true ∨ s.window (s.ctxAt n).part (l.target va) ≠ none) := by
  have h10 : pteNonres l.entry = l.entry[10] := rfl
  have h11 : pteLoc l.entry = l.entry[11] := rfl
  rw [State.cacheable, h10, h11, Bool.and_eq_true, Bool.not_eq_true', Bool.or_eq_true, Option.isSome_iff_ne_none]

/-- A page that no request names. -/
theorem exec_pageWalk_new (hst : s.stage = .stage2) (hen : (s.ctxAt n).en = true) (hva : va.toNat < 2 ^ 52) (hc : core < 192)
    (h : (s.misses.any fun m => m.wants core n (va.toNat / 4096)) = false) :
    exec (.pageWalk core n va) s = .next (s.miss core n (va.toNat / 4096) []) := by
  show execPageWalk core n va s = _
  have h1 : ¬ 2 ^ 52 ≤ va.toNat := by omega
  have h2 : ¬ 192 ≤ core := by omega
  simp only [execPageWalk, hst, hen, h1, h2, h, ne_eq, not_true_eq_false, decide_false, Bool.not_true, Bool.not_false, Bool.or_self,
    Bool.false_eq_true, if_false, if_true]
  rfl

/-- A page that a request names: the slots are given, and the first walk of it that has one ends. -/
theorem exec_pageWalk_wanted (hst : s.stage = .stage2) (hen : (s.ctxAt n).en = true) (hva : va.toNat < 2 ^ 52) (hc : core < 192)
    (h : (s.misses.any fun m => m.wants core n (va.toNat / 4096)) = true) :
    exec (.pageWalk core n va) s = .next (
      let t := s.allot (core / 48) 64
      match t.misses.find? fun m => m.wants core n (va.toNat / 4096) && m.stage == .walking with
      | none => t
      | some m =>
        let u := (t.tableReads n { core } va.toNat 1).endWalk m
        match t.walkCtx n (core / 48) va.toNat with
        | .ok (l, es) => if t.cacheable n va.toNat l then u.fillWalk core n va.toNat l es else u
        | .error _ => u) := by
  show execPageWalk core n va s = _
  have h1 : ¬ 2 ^ 52 ≤ va.toNat := by omega
  have h2 : ¬ 192 ≤ core := by omega
  simp only [execPageWalk, hst, hen, h1, h2, h, ne_eq, not_true_eq_false, decide_false, Bool.not_true, Bool.or_self,
    Bool.false_eq_true, if_false]
  rfl

end

/-- A request enters its core's queue while there is room. -/
theorem State.miss_new {s : State} {core n page : Nat} (h : (s.misses.any fun m => m.wants core n page) = false) :
    s.miss core n page [] = if (s.misses.filter fun m => m.core == core && m.stage != .walked).length < 64
      then { s with misses := s.misses ++ [⟨core, n, page, .queued, []⟩] } else s := by
  have hfull : s.missFull core = decide (64 ≤ (s.misses.filter fun m => m.core == core && m.stage != .walked).length) := rfl
  rw [State.miss, h, hfull]
  by_cases hq : 64 ≤ (s.misses.filter fun m => m.core == core && m.stage != .walked).length
  · simp only [hq, not_lt.2 hq, decide_true, Bool.false_eq_true, if_false, if_true]
  · simp only [hq, not_le.1 hq, decide_false, Bool.false_eq_true, if_false, if_true]

/-- The slots given leave what translation reads. -/
theorem State.allot_tables (s : State) (die fuel : Nat) : SameTables s (s.allot die fuel) := by
  obtain ⟨ms, ds, h⟩ := State.allot_eq die fuel s
  rw [h]
  exact ⟨rfl, rfl, rfl, rfl, rfl, rfl, rfl, rfl, rfl, rfl⟩

theorem besideL2.misses {s t : State} (h : besideL2 s t) : t.misses = s.misses := by have := congrArg State.misses h; exact this
theorem besideL2.tlb {s t : State} (h : besideL2 s t) : t.tlb = s.tlb := by have := congrArg State.tlb h; exact this
theorem besideL2.walk {s t : State} (h : besideL2 s t) : t.walk = s.walk := by have := congrArg State.walk h; exact this

/-- The request of a walk that ends leaves, but for the threads that joined it. -/
theorem State.endWalk_eq {u : State} {ms : List Miss} (m : Miss) (h : u.misses = ms) :
    u.endWalk m = { u with misses := (ms.map fun x => if x = m then { x with stage := .walked } else x).filter fun x =>
      x.stage != .walked || !x.joined.isEmpty } := by subst h; rfl

/-- What a walk that succeeds leaves in the two caches. -/
theorem State.fillWalk_eq {u : State} {ms : List Miss} {core n va : Nat} {l : Leaf} {es : List (Nat × DWord)} {c : Ctx} {tlb : List TlbEntry}
    {walk : List WalkEntry} (hc : u.ctxAt n = c) (ht : u.tlb = tlb) (hw : u.walk = walk) :
    State.fillWalk { u with misses := ms } core n va l es = { u with
      misses := ms
      tlb := capped (fun x => x.unit == core && x.vbase / x.leaf.pageSize % 256 == va / l.pageSize * l.pageSize / l.pageSize % 256) 8
        (⟨core, c.part, c.asid, va / l.pageSize * l.pageSize, l⟩ :: tlb)
      walk := capped (fun e => e.die == core / 48) 512
        (es.map (fun e => ⟨core / 48, c.ptroot.toNat / 2 ^ 16 % 2 ^ 36 * 2 ^ 16, c.part, c.asid, e.1, va / 2 ^ (12 + 9 * e.1), e.2⟩)
          ++ walk) } := by
  subst hc ht hw; rfl

/-- R33, R34, R35. -/
theorem walks : Rules.Walks := by
  intro s core n va hst hen hva hc page c root wants queued runs
  refine ⟨fun hno => ?_, fun hsome => ?_⟩
  · have hany : (s.misses.any fun m => m.wants core n (va.toNat / 4096)) = false :=
      List.any_eq_false.2 fun m hm h => hno m hm ((Miss.wants_iff ..).1 h)
    show exec (.pageWalk core n va) s = _
    rw [exec_pageWalk_new hst hen hva hc hany, State.miss_new hany]
  · have hany : (s.misses.any fun m => m.wants core n (va.toNat / 4096)) = true :=
      List.any_eq_true.2 (hsome.imp fun m h => ⟨h.1, (Miss.wants_iff ..).2 h.2⟩)
    have hrun := exec_pageWalk_wanted hst hen hva hc hany
    have hT := s.allot_tables (core / 48) 64
    intro t
    refine ⟨fun hwait => ?_, fun pre m post hms hpre hm hwalk => ?_⟩
    · have hnone : t.misses.find? (fun m => m.wants core n (va.toNat / 4096) && m.stage == .walking) = none := by
        refine List.find?_eq_none.2 fun m hm h => ?_
        obtain ⟨hw, hg⟩ := Bool.and_eq_true_iff.1 h
        rw [hwait m hm ((Miss.wants_iff ..).1 hw)] at hg
        cases hg
      show exec (.pageWalk core n va) s = _
      rw [hrun]
      simp only [show (s.allot (core / 48) 64).misses.find? _ = none from hnone]
      rfl
    · have hfind : t.misses.find? (fun m => m.wants core n (va.toNat / 4096) && m.stage == .walking) = some m := by
        rw [hms, List.find?_append, List.find?_eq_none.2, Option.none_or, List.find?_cons_of_pos]
        · rw [(Miss.wants_iff ..).2 hm, hwalk]; rfl
        · intro x hx h
          obtain ⟨hw, hg⟩ := Bool.and_eq_true_iff.1 h
          rw [hpre x hx ((Miss.wants_iff ..).1 hw)] at hg
          cases hg
      intro read left kept set
      have hread : besideL2 t read := t.tableReads_beside n { core } va.toNat 1
      have hend : read.endWalk m = { read with misses := left } := State.endWalk_eq m hread.misses
      simp only [show (s.allot (core / 48) 64).misses.find? _ = some m from hfind, hT.walkCtx] at hrun
      have hctx : read.ctxAt n = c := (State.ctxAt_of_ctx hread.ctx n).trans (hT.ctxAt n)
      have htlb : read.tlb = s.tlb := hread.tlb.trans hT.tlb
      have hwalks : read.walk = s.walk := hread.walk.trans hT.walk
      have hkept (l : Leaf) : t.cacheable n va.toNat l = true ↔ kept l := by rw [State.cacheable_iff, hT.window, hT.ctxAt]
      refine ⟨fun l es hl hk => ?_, fun l es hl hk => ?_, fun f hf => ?_⟩
      · show exec (.pageWalk core n va) s = _
        rw [hrun, hl]
        simp only [show (s.allot (core / 48) 64).cacheable n va.toNat l = true from (hkept l).2 hk, if_true]
        exact congrArg _ ((congrArg (State.fillWalk · core n va.toNat l es) hend).trans (State.fillWalk_eq hctx htlb hwalks))
      · show exec (.pageWalk core n va) s = _
        rw [hrun, hl]
        simp only [show (s.allot (core / 48) 64).cacheable n va.toNat l = false from Bool.eq_false_iff.2 (mt (hkept l).1 hk),
          Bool.false_eq_true, if_false]
        exact congrArg _ hend
      · show exec (.pageWalk core n va) s = _
        rw [hrun, hf, ← hend]

/-- Settles O6: what one slot given makes of the requests is kept along all of them. -/
theorem pageWalks : Obligations.PageWalks := ⟨walks, walkSlots⟩

end Sys2Proof.Machine
end

section
/-!
SUPPORT. Windows of a manifold: their close and the read of their network (R60, R127, R363, R365), and the delivery of their rows by a
pass (R366). Settles O7.
-/
namespace Sys2Proof.Machine

/-! ### The reads at the close of a window -/

theorem besideL2.windows {s t : State} (h : besideL2 s t) : t.windows = s.windows := by have := congrArg State.windows h; exact this
theorem besideL2.requests {s t : State} (h : besideL2 s t) : t.requests = s.requests := by have := congrArg State.requests h; exact this

/-- A check that passes leaves the reads of its tables. -/
theorem State.engineCheck_beside {s u : State} {ctx who va n : Nat} {src : Source} {m : Mode} {plain : Bool} {runs : Runs}
    (h : s.engineCheck ctx who src m va n plain = .ok (u, runs)) : besideL2 s u := by
  unfold State.engineCheck at h
  split at h
  · cases h
  · cases h
  · split at h
    · cases h
    · split at h
      · cases h
      · split at h
        · cases h
        · cases h
        · cases h
          exact s.tableReads_beside ..

theorem State.manifoldRead_beside {s u : State} {w : Window} {va n : Nat} {xs : List Byte} (h : s.manifoldRead w va n = .ok (u, xs)) :
    besideL2 s u := by
  simp only [State.manifoldRead] at h
  split at h
  · cases h
  · next hc =>
    cases h
    exact (State.engineCheck_beside hc).trans (State.homeRuns_beside ..)

theorem State.readLayer_beside {s u : State} {w : Window} {fp8 : Bool} {l : NetLayer} {x : Weights}
    (h : s.readLayer w fp8 l = .ok (u, x)) : besideL2 s u := by
  simp only [State.readLayer] at h
  split at h
  · cases h
  · next hr =>
    cases h
    exact State.manifoldRead_beside hr

theorem State.readLayers_beside {w : Window} {fp8 : Bool} : ∀ {ls : List NetLayer} {s u : State} {xs : List Weights},
    s.readLayers w fp8 ls = .ok (u, xs) → besideL2 s u
  | [], _, _, _, h => by cases h; rfl
  | l :: ls, s, u, xs, h => by
    simp only [State.readLayers] at h
    split at h
    · cases h
    · next hl =>
      split at h
      · cases h
      · next hls =>
        cases h
        exact (State.readLayer_beside hl).trans (State.readLayers_beside hls)

/-- The reads of a window's network change what L2 holds, and nothing of the manifolds. -/
theorem State.loadRows_beside {s u : State} {w : Window} {rows : List Row} (h : s.loadRows w = .ok (u, rows)) : besideL2 s u := by
  simp only [State.loadRows] at h
  split at h
  · cases h
  · next hr =>
    have hb := State.manifoldRead_beside hr
    split at h
    · cases h; exact hb
    · split at h
      · cases h; exact hb
      · split at h
        · cases h
        · next hl =>
          cases h
          exact hb.trans (State.readLayers_beside hl)

/-! ### The close of a window, R363 -/

theorem updAt_length_append {α : Type} (l : List α) (x : α) (f : α → α) : updAt (l ++ [x]) l.length f = l ++ [f x] := by
  induction l with
  | nil => rfl
  | cons y l ih => exact congrArg (y :: ·) ih

/-- The window in place `k` closed: it stands last. -/
def State.closedLast (s : State) (k : Nat) (w : Window) : State :=
  { s with windows := s.windows.eraseIdx k ++ [{ w with closed := true }] }

section
variable {s u : State} {k : Nat} {w : Window} {rows : List Row}

/-- R127, R60: the network of a closed window is read, and its core's L1 is not consulted for what its threads read after. -/
theorem State.loadWindow_ok (hk : s.windows[k]? = some w) (hc : w.closed = true) (hl : w.loaded = false) (hw : w.waitOn = none)
    (hr : w.rows ≠ []) (h : s.loadRows w = .ok (u, rows)) :
    s.loadWindow k = { u.acquire w.core with windows := updAt s.windows k fun w => { w with rows, loaded := true } } := by
  have hne : w.rows.isEmpty = false := by simpa using hr
  simp only [State.loadWindow, hk, hc, hl, hw, hne, h, (State.loadRows_beside h).windows, Bool.not_true, Option.isSome_none, Bool.or_self,
    Bool.false_eq_true, if_false]

/-- R363: a window with rows that closes is read at once. -/
theorem State.shutWindow_eq (hk : s.windows[k]? = some w) (hl : w.loaded = false) (hw : w.waitOn = none) (hr : w.rows ≠ [])
    (h : (s.closedLast k w).loadRows { w with closed := true } = .ok (u, rows)) :
    s.shutWindow k = { u.acquire w.core with
      windows := s.windows.eraseIdx k ++ [{ w with closed := true, loaded := true, rows }] } := by
  have hlen : (s.closedLast k w).windows.length - 1 = (s.windows.eraseIdx k).length := by simp [State.closedLast]
  have hlast : (s.closedLast k w).windows[(s.windows.eraseIdx k).length]? = some { w with closed := true } := by
    simp [State.closedLast]
  have hshut : s.shutWindow k = (s.closedLast k w).loadWindow ((s.closedLast k w).windows.length - 1) := by
    simp only [State.shutWindow, hk]; rfl
  rw [hshut, hlen, State.loadWindow_ok hlast rfl hl hw hr h, State.closedLast, updAt_length_append]

/-- R363: a core with no request waiting and no full window open admits nothing. -/
theorem State.admitNext_none {core : Nat} (hw : ∀ w ∈ s.windows, w.core = core → w.closed = false → w.rows.length < 256)
    (hr : ∀ r ∈ s.requests, r.core ≠ core) (n : Nat) : s.admitNext core n = s := by
  cases n with
  | zero => rfl
  | succ n =>
    have hfull : (s.windows.findIdx? fun w => w.core == core && !w.closed && decide (Config.windowRows ≤ w.rows.length)) = none :=
      List.findIdx?_eq_none_iff.2 fun w hm => Bool.eq_false_iff.2 fun h => by
        simp only [Bool.and_eq_true, beq_iff_eq, Bool.not_eq_true'] at h
        obtain ⟨⟨hc, hopen⟩, hfull⟩ := h
        exact absurd (hw w hm hc hopen) (Nat.not_lt.2 (of_decide_eq_true hfull))
    have hreq : (s.requests.find? fun r => r.core == core && s.admits r) = none :=
      List.find?_eq_none.2 fun r hm => by simp [hr r hm]
    simp only [State.admitNext, hfull, hreq]

/-- R363: CYC of a core's die, within its limits. -/
theorem State.windowCycles_eq (s : State) (core : Nat) :
    s.windowCycles core = Nat.min 4096 (Nat.max 64 ((s.dieAt (core / 48)).mfldWin.toNat % 2 ^ 13)) := by
  simp [State.windowCycles, dieOf, bits]

theorem exec_manifoldWindowTimeout (hk : s.windows[k]? = some w) (hc : w.closed = false)
    (hcyc : w.since + s.windowCycles w.core ≤ (s.coreAt w.core).clk.toNat) :
    exec (.manifoldWindowTimeout w.core k) s = .next ((s.shutWindow k).admitNext w.core s.admitFuel) := by
  show execManifoldWindowTimeout w.core k s = _
  simp only [execManifoldWindowTimeout, hk, hc, hcyc, State.closeWindow, Bool.not_false, and_self, if_true, Bool.false_eq_true, if_false]
  rfl

end

/-! ### A pass, R366 -/

/-- The closed windows of a core, in order of closing. -/
def State.closedOn (s : State) (core : Nat) : List Window := s.windows.filter fun w => w.core == core && w.closed

/-- The places in a list of the elements of which `p` holds. -/
def places {α : Type} (p : α → Bool) (l : List α) : List Nat := (l.zipIdx.filter fun e => p e.1).map (·.2)

theorem places_of_getElem? {α : Type} {p : α → Bool} {q : Nat → Bool} {l : List α} (h : ∀ k x, l[k]? = some x → q k = p x) :
    (List.range l.length).filter q = places p l := by
  have hr : List.range l.length = l.zipIdx.map (·.2) := by rw [List.zipIdx_map_snd, List.range_eq_range']
  rw [places, hr, List.filter_map]
  exact congrArg _ (List.filter_congr fun e he => h e.2 e.1 (List.mk_mem_zipIdx_iff_getElem?.1 he))

theorem getElem?_of_mem_places {α : Type} {p : α → Bool} {l : List α} {k : Nat} (h : k ∈ places p l) :
    ∃ x, l[k]? = some x ∧ p x = true := by
  obtain ⟨e, he, rfl⟩ := List.mem_map.1 h
  obtain ⟨he, hp⟩ := List.mem_filter.1 he
  exact ⟨e.1, List.mk_mem_zipIdx_iff_getElem?.1 he, hp⟩

theorem mem_places {α : Type} (p : α → Bool) {l : List α} {e : α × Nat} (he : e ∈ l.zipIdx) : e.2 ∈ places p l ↔ p e.1 = true := by
  refine ⟨fun h => ?_, fun h => List.mem_map_of_mem (List.mem_filter.2 ⟨he, h⟩)⟩
  obtain ⟨x, hx, hp⟩ := getElem?_of_mem_places h
  rwa [Option.some.inj (hx.symm.trans (List.mk_mem_zipIdx_iff_getElem?.1 he))] at hp

/-- The elements that are left when those in some places go. -/
theorem drop_places {α : Type} (p : α → Bool) (l : List α) :
    (l.zipIdx.filter fun e => !(places p l).contains e.2).map (·.1) = l.filter fun x => !p x := by
  have hf : (l.zipIdx.filter fun e => !(places p l).contains e.2) = l.zipIdx.filter fun e => !p e.1 :=
    List.filter_congr fun e he => congrArg not (Bool.eq_iff_iff.2 (List.contains_iff_mem.trans (mem_places p he)))
  rw [hf]
  conv_rhs => rw [← List.zipIdx_map_fst 0 l, List.filter_map]
  rfl

theorem length_places {α : Type} (p : α → Bool) (l : List α) : (places p l).length = (l.filter p).length := by
  rw [places, List.length_map]
  conv_rhs => rw [← List.zipIdx_map_fst 0 l, List.filter_map, List.length_map]
  rfl

theorem filterMap_places {α : Type} (p : α → Bool) (l : List α) : (places p l).filterMap (fun k => l[k]?) = l.filter p := by
  rw [places, List.filterMap_map]
  conv_rhs => rw [← List.zipIdx_map_fst 0 l, List.filter_map]
  rw [← List.filterMap_eq_map]
  refine List.filterMap_congr fun e he => ?_
  exact List.mk_mem_zipIdx_iff_getElem?.1 (List.mem_filter.1 he).1

/-- R366: the outputs of a row stand to be written by its issue. -/
theorem Group.deliver_outs (g : Group) {r : Row} (h : r.trap = none) : g.deliver r =
    { g with pend := g.pend.map fun p => if p.work = .neval r.no ∧ r.lane ∈ p.lanes then
        { p with writes := p.writes ++ (List.range r.outs.length).map fun k => (r.lane, r.dst + k, r.outs.getD k 0) } else p } := by
  have houts : (r.outs.zipIdx.map fun e => (r.lane, r.dst + e.2, e.1))
      = (List.range r.outs.length).map fun k => (r.lane, r.dst + k, r.outs.getD k 0) := by
    refine List.ext_getElem (by simp) fun k hk _ => ?_
    have hk' : k < r.outs.length := by simpa using hk
    simp [List.getD_eq_getElem?_getD, hk']
  simp only [Group.deliver, h, houts, List.contains_iff_mem]

/-- A lane of a group changed, said of every lane. -/
theorem Group.updLane_mapIdx (g : Group) (l : Nat) (f : Lane → Lane) :
    g.updLane l f = { g with lanes := g.lanes.mapIdx fun k x => if k = l then f x else x } := by
  simp only [Group.updLane, updAt]
  congr 1
  apply List.ext_getElem?
  intro k
  simp only [List.getElem?_modify, List.getElem?_mapIdx, eq_comm (a := l)]
  by_cases hk : k = l <;> simp [hk]

/-- R365: a row that traps leaves its lane the trap that it will take, while its issue is outstanding. -/
theorem Group.deliver_trap (g : Group) {r : Row} {c : Cause} {d : Nat} (h : r.trap = some (c, d)) : g.deliver r =
    if ∃ p ∈ g.pend, p.work = .neval r.no ∧ r.lane ∈ p.lanes then
      { g with lanes := g.lanes.mapIdx fun l x =>
          if l = r.lane then { x with neval := x.neval ++ [⟨c, d, r.pc.toNat, r.flag⟩] } else x } else g := by
  simp only [Group.deliver, h, Group.updLane_mapIdx, List.any_eq_true, Bool.and_eq_true, beq_iff_eq, List.contains_iff_mem]

/-- The rows of windows delivered to the groups of a core, one after another. -/
def deliverRows (core : Nat) (ws : List Window) (gs : List Group) : List Group :=
  ws.foldl (fun gs w => w.rows.foldl (fun gs r => gs.map fun g => if g.isAt core r.slot then g.deliver r else g) gs) gs

theorem State.deliver_rows (core : Nat) (rows : List Row) : ∀ s : State, rows.foldl (fun s r => s.deliver core r) s =
    { s with groups := rows.foldl (fun gs r => gs.map fun g => if g.isAt core r.slot then g.deliver r else g) s.groups } := by
  induction rows with
  | nil => exact fun _ => rfl
  | cons r rows ih => exact fun s => ih (s.deliver core r)

theorem State.deliver_windows (core : Nat) (ws : List Window) : ∀ s : State,
    ws.foldl (fun s w => w.rows.foldl (fun s r => s.deliver core r) s) s = { s with groups := deliverRows core ws s.groups } := by
  induction ws with
  | nil => exact fun _ => rfl
  | cons w ws ih =>
    intro s
    rw [List.foldl_cons, State.deliver_rows, ih]
    rfl

/-- A closed window that has been read is not read again. -/
theorem State.loadWindow_loaded {s : State} {k : Nat} {w : Window} (hk : s.windows[k]? = some w) (hl : w.loaded = true) :
    s.loadWindow k = s := by
  simp only [State.loadWindow, hk, hl, Bool.or_true, Bool.true_or, if_true]

/-- Windows that have been read, or stand in no place, are not read again. -/
theorem State.loadWindows_loaded {s : State} {ks : List Nat} (h : ∀ k ∈ ks, ∃ w, s.windows[k]? = some w ∧ w.loaded = true) :
    ks.foldl State.loadWindow s = s := by
  induction ks with
  | nil => rfl
  | cons k ks ih =>
    obtain ⟨w, hk, hl⟩ := h k (.head _)
    rw [List.foldl_cons, State.loadWindow_loaded hk hl]
    exact ih fun k hk => h k (.tail _ hk)

/-- The places of the windows that a pass takes. -/
def State.passPlaces (s : State) (core : Nat) : List Nat :=
  ((List.range s.windows.length).filter fun k =>
    match s.windows[k]? with | some w => w.core == core && w.closed | none => false).take Config.manifoldWindows

theorem State.passPlaces_eq {s : State} {core : Nat} (h : (s.closedOn core).length ≤ 16) :
    s.passPlaces core = places (fun w => w.core == core && w.closed) s.windows := by
  rw [State.passPlaces, places_of_getElem? fun k w hk => by rw [hk]]
  exact List.take_of_length_le ((length_places ..).trans_le h)

/-- What a pass leaves of a state whose windows have been read as far as they can be. -/
def State.passed (s : State) (core : Nat) : State :=
  let ws := (s.passPlaces core).filterMap fun k => s.windows[k]?
  if !ws.all fun w => w.loaded then s
  else
    let t := ws.foldl (fun s w => w.rows.foldl (fun s r => s.deliver core r) s) s
    { t with windows := (t.windows.zipIdx.filter fun e => !(s.passPlaces core).contains e.2).map (·.1) }

theorem exec_manifoldPass_eq (s : State) (core : Nat) :
    exec (.manifoldPass core) s = .next (((s.passPlaces core).foldl State.loadWindow s).passed core) := rfl

theorem exec_manifoldPass {s : State} {core : Nat} (hl : ∀ w ∈ s.closedOn core, w.loaded = true) (hn : (s.closedOn core).length ≤ 16) :
    exec (.manifoldPass core) s = .next { s with
      groups := deliverRows core (s.closedOn core) s.groups
      windows := s.windows.filter fun w => !(w.core == core && w.closed) } := by
  have hplaces := State.passPlaces_eq hn
  have hload : (s.passPlaces core).foldl State.loadWindow s = s := State.loadWindows_loaded fun k hk => by
    rw [hplaces] at hk
    obtain ⟨w, hw, hp⟩ := getElem?_of_mem_places hk
    exact ⟨w, hw, hl w (List.mem_filter.2 ⟨List.mem_of_getElem? hw, hp⟩)⟩
  have hws : (places (fun w => w.core == core && w.closed) s.windows).filterMap (fun k => s.windows[k]?) = s.closedOn core :=
    filterMap_places ..
  have hall : (s.closedOn core).all (fun w => w.loaded) = true := List.all_eq_true.2 hl
  rw [exec_manifoldPass_eq, hload]
  simp only [State.passed, hws, hall, Bool.not_true, Bool.false_eq_true, if_false, State.deliver_windows, hplaces, drop_places]

/-- Settles O7: a window that closes is read at once, and a pass folds its delivery over the rows of the windows closed. -/
theorem manifoldWindows : Obligations.ManifoldWindows := by
  constructor
  · rintro s core idx w u rows hk rfl hc hl hw hr hcyc hreq hopen shut hload
    have hshut := State.shutWindow_eq hk hl hw hr hload
    have hb := State.loadRows_beside hload
    have hcyc' : w.since + s.windowCycles w.core ≤ (s.coreAt w.core).clk.toNat := by rw [State.windowCycles_eq]; exact hcyc
    rw [exec_manifoldWindowTimeout hk hc hcyc', hshut, State.admitNext_none]
    · rfl
    · intro v hv hvc hvo
      rcases List.mem_append.1 hv with hv | hv
      · exact hopen v (List.mem_of_mem_eraseIdx hv) hvc hvo
      · cases List.mem_singleton.1 hv
        cases hvo
    · exact fun r hr => hreq r (hb.requests ▸ hr)
  · intro s core hl ws hn deliver
    have hdel (r : Machine.Row) (g : Group) : deliver r g = g.deliver r := by
      cases htrap : r.trap with
      | none => rw [Group.deliver_outs g htrap]; simp only [deliver, htrap]
      | some e => rw [Group.deliver_trap g htrap]; simp only [deliver, htrap]
    have hloaded (w : Window) (hw : w ∈ s.closedOn core) : w.loaded = true := by
      obtain ⟨hm, hp⟩ := List.mem_filter.1 hw
      obtain ⟨hc, hcl⟩ := Bool.and_eq_true_iff.1 hp
      exact hl w hm (beq_iff_eq.1 hc) hcl
    rw [exec_manifoldPass hloaded hn]
    simp only [deliverRows, hdel, Group.isAt, Bool.and_eq_true, beq_iff_eq]
    rfl

end Sys2Proof.Machine
end

section
/-!
SUPPORT. Bank arithmetic (R72 to R78, R81): the units of a clamshell pair, what a load and a stream leave in them, and what a drain takes
and counts. Settles O9.
-/
namespace Sys2Proof.Machine

/-! ### The units of a pair -/

theorem State.unit_at (s : State) (ch device bank : Nat) :
    (s.unit ch device bank).channel = ch ∧ (s.unit ch device bank).device = device ∧ (s.unit ch device bank).bank = bank := by
  unfold State.unit
  cases hu : s.units.find? fun u => u.isAt ch device bank with
  | none => exact ⟨rfl, rfl, rfl⟩
  | some u =>
    have := List.find?_some hu
    simpa [BankUnit.isAt, and_assoc] using this

/-- The units of both devices of a clamshell pair replaced. -/
def State.withPair (s : State) (ch bank : Nat) (v : Nat → BankUnit) : State :=
  { s with units := v 1 :: v 0 :: s.units.filter fun w => !w.isAt ch 0 bank && !w.isAt ch 1 bank }

theorem BankUnit.isAt_eq {u : BankUnit} {ch device bank : Nat} (h : u.channel = ch ∧ u.device = device ∧ u.bank = bank) (k : Nat) :
    u.isAt ch k bank = (device == k) := by
  obtain ⟨rfl, rfl, rfl⟩ := h
  simp [BankUnit.isAt]

section
variable {s : State} {ch bank : Nat}

/-- One device of the pair after the other. -/
theorem State.setUnit_setUnit {v : Nat → BankUnit} (hv : ∀ d, (v d).channel = ch ∧ (v d).device = d ∧ (v d).bank = bank) :
    (s.setUnit (v 0)).setUnit (v 1) = s.withPair ch bank v := by
  obtain ⟨h0c, h0d, h0b⟩ := hv 0
  obtain ⟨h1c, h1d, h1b⟩ := hv 1
  have h01 : (v 0).isAt ch 1 bank = false := (BankUnit.isAt_eq (hv 0) 1).trans rfl
  simp only [State.setUnit, State.withPair, h0c, h0d, h0b, h1c, h1d, h1b, List.filter_cons, h01, Bool.not_false, if_true,
    List.filter_filter, Bool.and_comm]

/-- A unit of one device leaves that of the other. -/
theorem State.unit_setUnit_other {v : BankUnit} {d e : Nat} (hv : v.channel = ch ∧ v.device = d ∧ v.bank = bank) (h : d ≠ e) :
    (s.setUnit v).unit ch e bank = s.unit ch e bank := by
  have hve : v.isAt ch e bank = false := (BankUnit.isAt_eq hv e).trans (beq_eq_false_iff_ne.2 h)
  have hp : (fun u : BankUnit => !u.isAt v.channel v.device v.bank && u.isAt ch e bank) = fun u => u.isAt ch e bank := by
    funext u
    simp only [BankUnit.isAt, hv.2.1]
    by_cases hu : u.device = e
    · simp [hu, Ne.symm h]
    · simp [hu]
  have hf : (s.units.filter fun u => !u.isAt v.channel v.device v.bank).find? (fun u => u.isAt ch e bank)
      = s.units.find? fun u => u.isAt ch e bank := by
    rw [List.find?_filter]
    simp only [Bool.decide_and, Bool.decide_eq_true, hp]
  simp only [State.unit, State.setUnit, List.find?_cons, hve, hf]

/-- The same change of both devices. -/
theorem State.onPair_eq (f : BankUnit → BankUnit) (hf : ∀ u, (f u).channel = u.channel ∧ (f u).device = u.device ∧ (f u).bank = u.bank) :
    s.onPair ch bank f = s.withPair ch bank fun d => f (s.unit ch d bank) :=
  State.setUnit_setUnit (v := fun d => f (s.unit ch d bank)) fun d => by
    obtain ⟨hc, hd, hb⟩ := hf (s.unit ch d bank)
    obtain ⟨hc', hd', hb'⟩ := s.unit_at ch d bank
    exact ⟨hc.trans hc', hd.trans hd', hb.trans hb'⟩

end

theorem State.withPair_congr {s : State} {ch bank : Nat} {v w : Nat → BankUnit} (h : ∀ d, v d = w d) :
    s.withPair ch bank v = s.withPair ch bank w := by
  rw [funext h]

/-! ### Loads, R73 -/

/-- R73: a load writes 32 bytes of a slot in each device, which is loaded for the first call with a block in the bank and for no other. -/
theorem exec_baLoad {s : State} {die channel bank slot off : Nat} {data : List Byte} (hn : s.namesUnit die channel bank = true)
    (hs : slot < 16) (ho : off < 128) (hd : data.length = 64) {ch : Nat} (hch : dieChannel die channel = ch) :
    exec (.baLoad die channel bank slot off data) s = .next (s.withPair ch bank fun device => { s.unit ch device bank with
      slots := Store.setAll (s.unit ch device bank).slots (4096 * slot + 32 * off) ((data.drop (32 * device)).take 32)
      loaded := ((s.callsIn ch bank).head?.map fun c => (slot, c)).toList ++ (s.unit ch device bank).loaded.filter fun e => e.1 != slot }) := by
  have hs' : ¬ 16 ≤ slot := by omega
  have ho' : ¬ 128 ≤ off := by omega
  have hpair := State.onPair_eq (s := s) (ch := ch) (bank := bank)
    (fun u => u.load (s.callsIn ch bank).head? slot (32 * off) ((data.drop (32 * u.device)).take 32)) fun _ => ⟨rfl, rfl, rfl⟩
  show execBaLoad die channel bank slot off data s = _
  simp only [execBaLoad, hn, hs', ho', hd, hch, hpair, Bool.not_true, decide_false, bne_self_eq_false, Bool.or_self, Bool.false_eq_true, if_false]
  refine congrArg _ (State.withPair_congr fun d => ?_)
  simp only [BankUnit.load, (s.unit_at ch d bank).2.1]

/-! ### Streams, R75 to R77 -/

theorem halfRowAt_mod (d ch bank row : Nat) {device : Nat} : halfRowAt d ch device bank row % 1024 = 0 := by
  simp only [halfRowAt]
  omega

theorem Store.getAll_eq_map {w : Nat} (m : Store w) (a n : Nat) : m.getAll a n = (List.range n).map fun k => m.get (a + k) := by
  induction n generalizing a with
  | zero => rfl
  | succ n ih =>
    rw [Store.getAll, ih, List.range_succ_eq_map, List.map_cons, List.map_map]
    simp only [Nat.add_zero, Function.comp_def, Nat.succ_eq_add_one, Nat.add_assoc, Nat.add_comm 1]

theorem State.rdBytes_eq_map (s : State) (a n : Nat) : s.rdBytes (.dev a) n = (List.range n).map fun k => s.rdByte (.dev (a + k)) := by
  rw [Store.rdBytes_dev, Store.getAll_eq_map]
  rfl

/-- Bytes in the midst of others. -/
theorem State.rdBytes_mid (s : State) (a : Nat) {i k n : Nat} (h : i + k ≤ n) :
    ((s.rdBytes (.dev a) n).drop i).take k = s.rdBytes (.dev (a + i)) k := by
  simp only [State.rdBytes_eq_map]
  refine List.ext_getElem (by simp; omega) fun j h1 h2 => ?_
  simp [Nat.add_assoc]

/-- A line put where it stands. -/
theorem take_append_line {α : Type} (l : List α) (i n : Nat) : l.take i ++ (l.drop i).take n ++ l.drop (i + n) = l := by
  rw [List.append_assoc, ← List.drop_drop, List.take_append_drop, List.take_append_drop]

/-- R37: where the device and L2 have held no other bytes, one half-row is all that is held. -/
theorem State.heldRows_eq {s : State} {pa : Nat} {above : List Byte} (habove : s.rdBytes (.dev pa) 1024 = above)
    (hdev : (List.range 1024).map (fun k => s.devByte (pa + k)) = above)
    (hpast : ∀ e ∈ s.past, e.1 / 8 = pa / 1024 → e.2.length = 128 → e.2 = (above.drop (e.1 % 8 * 128)).take 128) :
    s.heldRows pa = [above] := by
  simp only [State.heldRows, habove, hdev]
  refine eraseDups_eq_singleton (List.cons_ne_nil _ _) fun row hrow => ?_
  simp only [List.mem_cons, List.mem_filterMap] at hrow
  obtain h | h | ⟨e, he, hold⟩ := hrow
  · exact h
  · exact h
  · by_cases hl : e.1 / 8 = pa / 1024 ∧ e.2.length = 128
    · rw [if_pos hl, hpast e he hl.1 hl.2, take_append_line] at hold
      exact (Option.some.inj hold).symm
    · rw [if_neg hl] at hold
      cases hold

theorem State.halfRow_of_held {s : State} {pa : Nat} {row : List Byte} (mfmt : Nat) (h : s.heldRows pa = [row]) :
    s.halfRow mfmt pa = (s, row) := by
  unfold State.halfRow
  split
  · next r hr =>
    obtain ⟨rfl, -⟩ := List.cons.inj (hr.symm.trans h)
    rfl
  · next hne => exact absurd h (hne row)

/-- R37: the device and L2 have held no other bytes of a half-row since the last ordinary store to its page. -/
def State.oneHeld (s : State) (pa : Nat) : Prop :=
  (∀ k, k < 1024 → s.devByte (pa + k) = s.rdByte (.dev (pa + k)))
    ∧ ∀ e ∈ s.past, e.1 / 8 = pa / 1024 → e.2.length = 128 → e.2 = s.rdBytes (.dev (128 * e.1)) 128

/-- R37: a stream of such a half-row reads what the home slice answers. -/
theorem State.halfRow_eq {s : State} {pa : Nat} (mfmt : Nat) (hpa : pa % 1024 = 0) (h : s.oneHeld pa) :
    s.halfRow mfmt pa = (s, s.rdBytes (.dev pa) 1024) := by
  obtain ⟨hdev, hpast⟩ := h
  have hdev' : (List.range 1024).map (fun k => s.devByte (pa + k)) = s.rdBytes (.dev pa) 1024 :=
    (List.map_congr_left fun k hk => hdev k (List.mem_range.1 hk)).trans (s.rdBytes_eq_map pa 1024).symm
  have hpast' : ∀ e ∈ s.past, e.1 / 8 = pa / 1024 → e.2.length = 128 →
      e.2 = ((s.rdBytes (.dev pa) 1024).drop (e.1 % 8 * 128)).take 128 := fun e he hl hlen => by
    have hat : 128 * e.1 = pa + e.1 % 8 * 128 := by omega
    rw [s.rdBytes_mid pa (by omega), hpast e he hl hlen, hat]
  exact State.halfRow_of_held mfmt (State.heldRows_eq rfl hdev' hpast')

/-- What a stream that is not rejected leaves in a unit: the results of its chunks and slots, and its status word. -/
def State.streamed (s : State) (r : BankStream) (device : Nat) : BankUnit :=
  let u := s.unit (streamChannel r) device r.bank
  let pa := s.streamAt r device
  { u with
    parity := false
    queue := u.queue ++ (u.results r (s.rdBytes (.dev pa) 1024)).map (fun x => (x, false))
      ++ [(statusWord (s.ueIn (.dev pa) 1024).isSome u.parity false
            (s.ce.filter fun b => decide (pa ≤ b) && decide (b < pa + 1024)).length, true)] }

/-- R76: the status word of a stream that is not rejected. -/
theorem statusWord_legal (ue unit : Bool) (ce : Nat) : statusWord ue unit false ce =
    BitVec.ofNat 32 (2 ^ 31 + (if ue then 2 ^ 30 else 0) + (if unit then 2 ^ 29 else 0) + Nat.min 255 ce) := by
  simp only [statusWord, Bool.false_eq_true, if_false, Nat.add_zero, show Nat.min ce 255 = Nat.min 255 ce from Nat.min_comm ..]

/-- The words of a stream's results. -/
def streamWords (r : BankStream) : Nat := r.count * ((List.range 16).filter (bit r.smask)).length

theorem BankUnit.results_length (u : BankUnit) (r : BankStream) (row : List Byte) : (u.results r row).length = streamWords r := by
  simp [BankUnit.results, streamWords, List.length_flatten, Function.comp_def]

theorem BankUnit.rejects_false {u : BankUnit} {r : BankStream} (hm : r.mfmt < 4) (hc : r.first + r.count ≤ mfmtPerHalf r.mfmt)
    (hw : streamWords r ≠ 0) (hq : u.queue.length + streamWords r + 1 ≤ 512) : u.rejects r (streamWords r) = false := by
  have hm' : ¬ 4 ≤ r.mfmt := by omega
  have hc' : ¬ mfmtPerHalf r.mfmt < r.first + r.count := by omega
  have hq' : ¬ Config.resultQueue < u.queue.length + streamWords r + 1 := Nat.not_lt.2 hq
  simp only [BankUnit.rejects, hm', hc', hw, hq', decide_false, beq_eq_false_iff_ne.2, ne_eq, not_false_eq_true, Bool.or_self]

/-- A stream that is not rejected, of a half-row of which nothing else is held. -/
theorem State.stream_eq {s : State} {r : BankStream} {device : Nat}
    (hrej : (s.unit (streamChannel r) device r.bank).rejects r (streamWords r) = false)
    (hq : (s.unit (streamChannel r) device r.bank).queue.length + streamWords r + 1 ≤ 512)
    (hrow : s.halfRow r.mfmt (s.streamAt r device) = (s, s.rdBytes (.dev (s.streamAt r device)) 1024)) :
    s.stream r device = s.setUnit (s.streamed r device) := by
  rw [streamWords] at hrej
  simp only [State.stream, hrej, hrow, Bool.false_eq_true, if_false, Bool.not_false, Bool.true_and, State.streamed]
  rw [List.take_of_length_le]
  simp only [List.length_append, List.length_map, BankUnit.results_length, List.length_cons, List.length_nil]
  exact hq

/-- R72: a chunk's bytes and a half-row's chunks, format by format. -/
theorem mfmtChunk_eq {m : Nat} (h : m < 4) : mfmtChunk m = if m = 0 then 128 else if m = 3 then 32 else 64 := by
  match m, h with
  | 0, _ | 1, _ | 2, _ | 3, _ => rfl
theorem mfmtPerHalf_eq {m : Nat} (h : m < 4) : mfmtPerHalf m = if m = 0 then 8 else if m = 3 then 30 else 16 := by
  match m, h with
  | 0, _ | 1, _ | 2, _ | 3, _ => rfl

/-- A mask of slots that is not 0 names one. -/
theorem slots_ne_nil {n : Nat} (h0 : 1 ≤ n) (h : n < 2 ^ 16) : (List.range 16).filter (bit n) ≠ [] := by
  obtain ⟨i, hi⟩ := Nat.exists_testBit_of_ne_zero (Nat.one_le_iff_ne_zero.1 h0)
  have hlt : i < 16 := by
    by_contra hge
    rw [Nat.testBit_lt_two_pow (h.trans_le (Nat.pow_le_pow_right (by decide) (Nat.not_lt.1 hge)))] at hi
    cases hi
  exact List.ne_nil_of_mem (List.mem_filter.2 ⟨List.mem_range.2 hlt, hi⟩)

/-- The slots of a stream are loaded for a call in one device. -/
def State.streamReady (s : State) (r : BankStream) (call : Nat × Nat × Nat) (device : Nat) : Bool :=
  (List.range 16).all fun k => !bit r.smask k || (s.unit (streamChannel r) device r.bank).holds call k

theorem State.streamReady_of {s : State} {r : BankStream} {call : Nat × Nat × Nat} {device : Nat}
    (h : ∀ k ∈ (List.range 16).filter (bit r.smask), (k, call) ∈ (s.unit (streamChannel r) device r.bank).loaded) :
    s.streamReady r call device = true := by
  refine List.all_eq_true.2 fun k hk => ?_
  cases hb : bit r.smask k with
  | false => rfl
  | true => simpa [BankUnit.holds] using h k (List.mem_filter.2 ⟨hk, hb⟩)

/-- A stream within the limits of R76 that an outstanding call needs is performed by both devices. -/
theorem exec_baStream {s : State} {r : BankStream} {call : Nat × Nat × Nat} (hn : s.namesUnit r.die r.channel r.bank = true)
    (h1 : 1 ≤ r.count) (h2 : r.count ≤ 32) (h3 : r.first < 32) (h4 : r.row < 2 ^ 17) (h5 : r.vfmt < 2) (h6 : r.mfmt < 8)
    (h7 : r.smask < 2 ^ 16) (hcall : call ∈ s.callsOn (s.streamAt r 0)) (hready : ∀ device, device < 2 → s.streamReady r call device = true) :
    exec (.baStream r) s = .next ((s.stream r 0).stream r 1) := by
  have hany : (s.callsOn (s.streamAt r 0)).any (fun c => s.streamReady r c 0 && s.streamReady r c 1) = true :=
    List.any_eq_true.2 ⟨call, hcall, by rw [hready 0 (by decide), hready 1 (by decide)]; rfl⟩
  have hcond : (!s.namesUnit r.die r.channel r.bank || r.count == 0 || decide (32 < r.count) || decide (32 ≤ r.first)
      || decide (2 ^ 17 ≤ r.row) || decide (2 ≤ r.vfmt) || decide (8 ≤ r.mfmt) || decide (2 ^ 16 ≤ r.smask)
      || !(s.callsOn (s.streamAt r 0)).any (fun c => s.streamReady r c 0 && s.streamReady r c 1)) = false := by
    simp only [hn, hany, Bool.not_true, Bool.or_false, Bool.false_or, Bool.or_eq_false_iff, decide_eq_false_iff_not, beq_eq_false_iff_ne]
    omega
  exact congrArg Host.Outcome.next (if_neg (Bool.eq_false_iff.1 hcond))

theorem State.rdBytes_setUnit (s : State) (v : BankUnit) (a n : Nat) : (s.setUnit v).rdBytes (.dev a) n = s.rdBytes (.dev a) n := by
  rw [Store.rdBytes_dev, Store.rdBytes_dev]
  rfl

theorem State.oneHeld_setUnit {s : State} {pa : Nat} (v : BankUnit) (h : s.oneHeld pa) : (s.setUnit v).oneHeld pa :=
  ⟨h.1, fun e he hl hlen => (h.2 e he hl hlen).trans (s.rdBytes_setUnit v _ _).symm⟩

/-- What lets a device perform a stream whole: the limits of R76, room for its words, and one content of its half-row. -/
structure State.Streams (s : State) (r : BankStream) (device : Nat) : Prop where
  mfmt : r.mfmt < 4
  chunks : r.first + r.count ≤ mfmtPerHalf r.mfmt
  words : streamWords r ≠ 0
  room : (s.unit (streamChannel r) device r.bank).queue.length + streamWords r + 1 ≤ 512
  held : s.oneHeld (s.streamAt r device)

theorem State.Streams.stream {s : State} {r : BankStream} {device : Nat} (h : s.Streams r device) :
    s.stream r device = s.setUnit (s.streamed r device) :=
  State.stream_eq (BankUnit.rejects_false h.mfmt h.chunks h.words h.room) h.room
    (State.halfRow_eq r.mfmt (halfRowAt_mod ..) h.held)

theorem State.streamed_at (s : State) (r : BankStream) (d : Nat) :
    (s.streamed r d).channel = streamChannel r ∧ (s.streamed r d).device = d ∧ (s.streamed r d).bank = r.bank := s.unit_at ..

/-- What one device of a pair queues does not stand on the other's unit. -/
theorem State.streamed_setUnit_other {s : State} {r : BankStream} {v : BankUnit} {d e : Nat}
    (hv : v.channel = streamChannel r ∧ v.device = d ∧ v.bank = r.bank) (h : d ≠ e) : (s.setUnit v).streamed r e = s.streamed r e := by
  have hat : (s.setUnit v).streamAt r e = s.streamAt r e := rfl
  have hue (p : Place) (n : Nat) : (s.setUnit v).ueIn p n = s.ueIn p n := by cases p <;> rfl
  have hce : (s.setUnit v).ce = s.ce := rfl
  simp only [State.streamed, State.unit_setUnit_other hv h, hat, hue, hce, State.rdBytes_setUnit]

/-- R75: both devices of the pair. -/
theorem State.stream_stream {s : State} {r : BankStream} (h : ∀ device, device < 2 → s.Streams r device) :
    (s.stream r 0).stream r 1 = s.withPair (streamChannel r) r.bank (s.streamed r) := by
  have h0 := h 0 (by decide)
  have h1 := h 1 (by decide)
  have hu : (s.setUnit (s.streamed r 0)).unit (streamChannel r) 1 r.bank = s.unit (streamChannel r) 1 r.bank :=
    State.unit_setUnit_other (s.streamed_at r 0) (by decide)
  have h1' : (s.setUnit (s.streamed r 0)).Streams r 1 :=
    ⟨h1.mfmt, h1.chunks, h1.words, hu.symm ▸ h1.room, State.oneHeld_setUnit _ h1.held⟩
  have hs := State.streamed_setUnit_other (s := s) (s.streamed_at r 0) (show 0 ≠ 1 by decide)
  rw [h0.stream, h1'.stream, hs]
  exact State.setUnit_setUnit (s.streamed_at r)

/-! ### Drains, R78, R81 -/

/-- The bits of a status word that report an error, R76. -/
theorem statusErrors_eq (x : Nat) : (bit x 30 || bit x 29 || bit x 28) = (x / 2 ^ 28 % 8 != 0) := by
  rw [Bool.eq_iff_iff]
  simp only [bit, Nat.testBit_eq_decide_div_mod_eq, Bool.or_eq_true, decide_eq_true_eq, bne_iff_ne, ne_eq]
  omega

/-- What status words count in their channel. -/
theorem foldl_takeStatus (ws : List Word) : ∀ c : Channel,
    (ws.foldl Channel.takeStatus c).cecnt = (ws.map fun w => w.toNat).foldl (fun n x => Nat.min 0xFFFFFF (n + x % 256)) c.cecnt
    ∧ (ws.foldl Channel.takeStatus c).bafault = (c.bafault || (ws.map fun w => w.toNat).any fun x => x / 2 ^ 28 % 8 != 0) := by
  induction ws with
  | nil => exact fun c => ⟨rfl, (Bool.or_false _).symm⟩
  | cons w ws ih =>
    intro c
    obtain ⟨hce, hba⟩ := ih (c.takeStatus w)
    refine ⟨hce.trans ?_, hba.trans ?_⟩
    · simp [Channel.takeStatus, bits]
    · simp only [Channel.takeStatus, List.map_cons, List.any_cons, ← statusErrors_eq, Bool.or_assoc]

/-- The words that a drain takes from a queue, with words of 0 where there are none. -/
theorem BankUnit.head_eq (words : Nat) (u : BankUnit) :
    u.head words = (u.queue.take words).map (·.1) ++ List.replicate (words - (u.queue.take words).length) 0#32 := by
  rw [BankUnit.head, List.length_take]
  congr 2
  omega

/-- The status words that a drain takes from both queues. -/
def State.drainStatuses (s : State) (ch bank words : Nat) : List Word :=
  (s.unit ch 0 bank).statuses words ++ (s.unit ch 1 bank).statuses words

theorem State.drainPair_eq (s : State) (ch bank words : Nat) : s.drainPair ch bank words =
    { s.withPair ch bank (fun d => { s.unit ch d bank with queue := (s.unit ch d bank).queue.drop words }) with
      chan := updAt s.chan ch fun c => (s.drainStatuses ch bank words).foldl Channel.takeStatus c } := by
  simp only [State.drainPair, State.onPair_eq (fun u : BankUnit => { u with queue := u.queue.drop words }) fun _ => ⟨rfl, rfl, rfl⟩]
  rfl

theorem exec_baDrain {s : State} {die channel bank words : Nat} (hn : s.namesUnit die channel bank = true) (h1 : 1 ≤ words) (h8 : words ≤ 8)
    {ch : Nat} (hch : dieChannel die channel = ch) :
    exec (.baDrain die channel bank words) s = .next
      { s.withPair ch bank (fun d => { s.unit ch d bank with queue := (s.unit ch d bank).queue.drop words }) with
        chan := updAt s.chan ch fun c => (s.drainStatuses ch bank words).foldl Channel.takeStatus c
        reply := .data (((s.unit ch 0 bank).head words ++ (s.unit ch 1 bank).head words).map fun w => leBytes w.toNat 4).flatten } := by
  have h0 : (words == 0) = false := beq_eq_false_iff_ne.2 (by omega)
  have h8' : ¬ 8 < words := by omega
  show execBaDrain die channel bank words s = _
  simp only [execBaDrain, hn, h0, h8', hch, State.drainPair_eq, Bool.not_true, decide_false, Bool.or_self, Bool.false_eq_true, if_false]
  rfl

theorem State.drainStatuses_toNat (s : State) (ch bank words : Nat) : (s.drainStatuses ch bank words).map (fun w => w.toNat) =
    (((s.unit ch 0 bank).queue.take words ++ (s.unit ch 1 bank).queue.take words).filter (·.2)).map fun x => x.1.toNat := by
  simp only [State.drainStatuses, BankUnit.statuses, List.map_append, List.map_map, List.filter_append, Function.comp_def]

/-- Settles O9: each command is one change of both units of the pair, device by device. -/
theorem bankUnits : Obligations.BankUnits := by
  intro s die channel bank hn ch u both
  refine ⟨fun slot off data hs ho hd => exec_baLoad hn hs ho hd rfl, ?_, ?_⟩
  · rintro r rfl rfl rfl hrow hv hm h1 h32 hfirst hmask hmask' slots pa hroom ⟨call, hcall, hloaded⟩ n result status
    have hfirst' : r.first < 32 := by split_ifs at hfirst <;> omega
    have hunit (d : Nat) : s.streamed r d = { u d with
        parity := false
        queue := (u d).queue ++ ((List.range r.count).map fun j => slots.map fun k => (result d (r.first + j) k, false)).flatten
          ++ [(BitVec.ofNat 32 (status d), true)] } := by
      simp only [State.streamed, BankUnit.results, statusWord_legal, List.map_flatten, List.map_map, Function.comp_def, mfmtChunk_eq hm]
      rfl
    have hstreams (device : Nat) (hd : device < 2) : s.Streams r device := by
      obtain ⟨hqueue, hdev, hpast⟩ := hroom device hd
      exact ⟨hm, (mfmtPerHalf_eq hm).symm ▸ hfirst, Nat.mul_ne_zero (by omega) (mt List.length_eq_zero_iff.1 (slots_ne_nil hmask hmask')),
        hqueue, hdev, hpast⟩
    rw [exec_baStream hn h1 h32 hfirst' hrow hv (by omega) hmask' hcall fun device hd => State.streamReady_of (hloaded device hd),
      State.stream_stream hstreams, funext hunit]
    rfl
  · intro words h1 h8 out status full
    have hst : status = (s.drainStatuses ch bank words).map fun w => w.toNat := (s.drainStatuses_toNat ch bank words).symm
    refine ⟨_, exec_baDrain hn h1 h8 (ch := ch) rfl, ?_, rfl, rfl, fun k hk => ?_, fun hlt => ?_⟩
    · simp only [BankUnit.head_eq]; rfl
    · exact List.getElem?_modify_ne _ _ (Ne.symm hk)
    · obtain ⟨hce, hba⟩ := foldl_takeStatus (s.drainStatuses ch bank words) (s.chan.getD ch {})
      have hchan := updAt_getD_same (fun c => (s.drainStatuses ch bank words).foldl Channel.takeStatus c) {} hlt
      rw [hst]
      exact ⟨(congrArg Channel.cecnt hchan).trans hce, (congrArg Channel.bafault hchan).trans hba⟩

end Sys2Proof.Machine
end

section
/-!
SUPPORT. Groups that leave their slots, teams that end, and the grid barrier (R51, R172, R184, R217, R224, R225). Settles O37.
-/
namespace Sys2Proof.Machine

/-! ### A group leaves its slot, R172 -/

/-- Showing the oldest held record of a context changes the debug window of that record's core alone. -/
theorem State.showHeld_eq (s : State) (n : Nat) : ∃ cs, s.showHeld n = { s with cores := cs } := by
  unfold State.showHeld
  split
  · exact ⟨_, rfl⟩
  · exact ⟨s.cores, rfl⟩

theorem State.dwinSlot_showHeld {s : State} {n core : Nat} {h : HeldTrap} (hh : (s.ctxAt n).held.head? = some h) (hc : h.core = core) :
    ((s.showHeld n).coreAt core).dwinSlot = some h.slot := by
  obtain ⟨rest, hl⟩ := List.head?_eq_some_iff.1 hh
  simp only [State.showHeld, hl, ← hc, State.coreAt_updCore_same]

theorem State.showOthers_only (s : State) (core : Nat) : ∃ cs, s.showOthers core = { s with cores := cs } := by
  unfold State.showOthers
  split
  · exact ⟨s.cores, rfl⟩
  · split
    · exact s.showHeld_eq _
    · exact ⟨s.cores, rfl⟩

/-- The debug window of a core shows what it showed, or the group of the oldest held record of a context (R422, R424). -/
theorem State.dwinSlot_showOthers {s : State} {core slot : Nat} (hs : (s.coreAt core).dwinSlot ≠ some slot)
    (hheld : ∀ c ∈ s.ctx, ∀ h, c.held.head? = some h → h.core = core → h.slot ≠ slot) :
    ((s.showOthers core).coreAt core).dwinSlot ≠ some slot := by
  unfold State.showOthers
  split
  · exact hs
  · split
    · next n hn =>
      have hlt : n < s.ctx.length := List.mem_range.1 (List.mem_of_find?_eq_some hn)
      have hmem : s.ctxAt n ∈ s.ctx := by
        rw [State.ctxAt, List.getD_eq_getElem?_getD, List.getElem?_eq_getElem hlt]
        exact List.getElem_mem hlt
      have hcore := List.find?_some hn
      obtain ⟨h, hh, hc⟩ := Option.map_eq_some_iff.1 (beq_iff_eq.1 hcore)
      rw [State.dwinSlot_showHeld hh hc]
      exact fun e => hheld _ hmem h hh hc (Option.some.inj e)
    · exact hs

/-- Where no key of a core has 32 records, no group forms. -/
theorem State.formFull_none {s : State} {core : Nat} (h : ∀ w ∈ s.wells, w.1 = core → s.keyCount core w.2 < 32) : s.formFull core = s := by
  have hn : (s.wells.find? fun w => w.1 == core && decide (32 ≤ s.keyCount core w.2)) = none :=
    List.find?_eq_none.2 fun w hw hb => by
      obtain ⟨hc, hk⟩ := Bool.and_eq_true_iff.1 hb
      have := h w hw (beq_iff_eq.1 hc)
      have := of_decide_eq_true hk
      omega
  simp only [State.formFull, hn]

theorem Lane.gone_iff (x : Lane) : x.gone = true ↔ x.st = .exited ∨ x.st = .vacant := by simp [Lane.gone]

theorem Group.idle_iff (g : Group) : g.idle = true ↔ (∀ x ∈ g.lanes, x.st = .exited ∨ x.st = .vacant) ∧ ∀ f ∈ g.flags, f = 0 := by
  simp [Group.idle, Lane.gone_iff]

/-- A group gone from its slot: its team keeps its threads' counts, and its core's debug window no longer shows it. -/
def State.leave (s : State) (core slot : Nat) (g : Group) : State :=
  State.updCore { (s.updTeam g.team (Team.keepSeqs g)) with groups := s.groups.filter fun g => !g.isAt core slot } core fun c =>
    if c.dwinSlot = some slot then { c with dwinSlot := none } else c

theorem State.dwinSlot_leave (s : State) (core slot : Nat) (g : Group) : ((s.leave core slot g).coreAt core).dwinSlot ≠ some slot := by
  rw [State.leave, State.coreAt_updCore_same]
  split
  · exact nofun
  · assumption

theorem exec_groupLeaveSlot {s : State} {core slot : Nat} {g : Group} (hg : s.group? core slot = some g) (hi : g.idle = true)
    (hiss : ∀ i ∈ s.issues, i.core = core → i.slot ≠ slot) :
    exec (.groupLeaveSlot core slot) s = .next (((s.leave core slot g).formFull core).showOthers core) := by
  show execGroupLeaveSlot core slot s = _
  have hno : (s.issues.any fun i => i.core == core && i.slot == slot) = false :=
    List.any_eq_false.2 fun i hi hb => by
      obtain ⟨hc, hs⟩ := Bool.and_eq_true_iff.1 hb
      exact hiss i hi (beq_iff_eq.1 hc) (beq_iff_eq.1 hs)
  simp only [execGroupLeaveSlot, hg, hi, hno, Bool.not_true, Bool.or_self, Bool.false_eq_true, if_false]
  rfl

theorem groupLeaves : Rules.GroupLeaves := by
  intro s core slot g hg hlanes hflags hiss hwells hheld
  have hrun := exec_groupLeaveSlot hg (g.idle_iff.2 ⟨hlanes, hflags⟩) hiss
  rw [State.formFull_none (s := s.leave core slot g) hwells] at hrun
  obtain ⟨cs, hcs⟩ := (s.leave core slot g).showOthers_only core
  refine ⟨_, hrun, ?_, State.dwinSlot_showOthers (s.dwinSlot_leave core slot g) hheld, ?_, ?_⟩
  · rw [hcs]; rfl
  · rw [hcs]
    refine List.map_congr_left fun u _ => ?_
    simp only [beq_iff_eq]
    rfl
  · rw [hcs]; rfl

/-! ### A team ends, R51, R217, R224 -/

/-- A team of which nothing is left, of a launch that does not render. -/
theorem State.teamOver_of {s : State} {t : Team} {l : Launch} (hl : s.launch? t.launch = some l) (hr : l.render = none)
    (hg : ∀ g ∈ s.groups, g.team ≠ t.id) (hw : ∀ w ∈ s.wells, w.2.team ≠ t.id) (hsump : ∀ w ∈ s.sumps, w.2.2.team ≠ t.id)
    (hsave : ∀ v ∈ s.saves, ∀ w ∈ v.tasks, w.2.team ≠ t.id) (hc : ∀ c ∈ s.copies, c.team ≠ t.id) : s.teamOver t = true := by
  simp only [State.teamOver, State.groupsOf, hl, hr, Bool.and_eq_true, Bool.not_eq_true', List.isEmpty_iff, List.filter_eq_nil_iff,
    List.any_eq_false, beq_iff_eq, and_true]
  refine ⟨⟨⟨⟨hg, hw⟩, hsump⟩, fun v hv => ?_⟩, hc⟩
  simpa using hsave v hv

/-- A launch found by its name has that name. -/
theorem State.launch?_id {s : State} {k : Nat} {l : Launch} (h : s.launch? k = some l) : l.id = k := by
  simpa using List.find?_some h

theorem State.team?_id {s : State} {k : Nat} {t : Team} (h : s.team? k = some t) : t.id = k := by
  simpa using List.find?_some h

/-- A launch changed in what is not its name is found changed. -/
theorem State.launch?_updLaunch {s : State} {k : Nat} {l : Launch} (h : s.launch? k = some l) (f : Launch → Launch) (hf : ∀ m, (f m).id = m.id) :
    (s.updLaunch k f).launch? k = some (f l) := by
  have hp : ((fun m : Launch => m.id == k) ∘ fun m => if m.id == k then f m else m) = fun m : Launch => m.id == k := by
    funext m
    by_cases hm : m.id = k <;> simp [hm, hf]
  have hfind : s.launches.find? (fun m => m.id == k) = some l := h
  simp only [State.launch?, State.updLaunch, List.find?_map, hp, hfind, Option.map_some, State.launch?_id h, beq_self_eq_true, if_true]

/-- A team gone, and the count of its launch's retired clusters as it stands then. -/
def State.teamGone (s : State) (id : Nat) (l : Launch) (ended : List Nat) (retired : Nat) : State :=
  State.updLaunch { s with teams := s.teams.filter fun u => u.id != id } l.id fun m => { m with ended, retired }

theorem exec_teamEnd {s : State} {id : Nat} {t : Team} {l : Launch} (ht : s.team? id = some t) (hl : s.launch? t.launch = some l)
    (ho : s.teamOver t = true) (hs : (s.ctxAt t.ctx).saving = false) :
    exec (.teamEnd id) s = .next ((s.teamGone id l (s.progress t l).1 (s.progress t l).2).tellProgress l.id) := by
  show execTeamEnd id s = _
  simp only [execTeamEnd, ht, hl, ho, hs, Bool.not_true, Bool.or_self, Bool.false_eq_true, if_false]
  rfl

theorem besideL2.launches {s t : State} (h : besideL2 s t) : t.launches = s.launches := by have := congrArg State.launches h; exact this
theorem State.wrRuns_launches (s : State) (runs : Runs) (xs : List Byte) : (s.wrRuns runs xs).launches = s.launches := by
  have := congrArg State.launches (s.frame_wrRuns runs xs)
  exact this

section
variable {s : State} {k : Nat} {l : Launch}

/-- R217: a count that has not advanced, or a launch without PROG or that waits on a fault, writes nothing. -/
theorem State.tellProgress_none (hl : s.launch? k = some l) (h : l.waitOn ≠ none ∨ l.told = l.retired ∨ LRec.prog l.record = 0) :
    s.tellProgress k = s := by
  have h' : l.waitOn.isSome = true ∨ l.told = l.retired ∨ LRec.prog l.record = 0 := h.imp_left Option.isSome_iff_ne_none.2
  simp only [State.tellProgress, hl, h', if_true]

/-- A write of an engine leaves the launches as they are. -/
theorem State.engineWrite_launches {u : State} {n who va : Nat} {m : Mode} {xs : List Byte} {src : Source}
    (h : s.engineWrite n who m va xs src = .ok u) : u.launches = s.launches := by
  simp only [State.engineWrite, State.writeVa] at h
  split at h
  · next v hput =>
    split at hput
    · cases hput
    · cases hput
    · next runs _ =>
      split at hput
      · cases hput
      · split at hput
        · cases hput
        · obtain rfl : _ = u := (Put.ok.inj hput).trans (Except.ok.inj h)
          rw [State.wrRuns_launches, ((s.tableReads_beside ..).trans (State.homeRuns_beside ..)).launches]
  · cases h
  · cases h

/-- R217: a count that has advanced goes to PROG. -/
theorem State.tellProgress_write {u : State} (hl : s.launch? k = some l) (hw : l.waitOn = none) (ht : l.told ≠ l.retired)
    (hp : LRec.prog l.record ≠ 0)
    (hu : s.engineWrite l.ctx l.id engineMode (LRec.prog l.record) (leBytes l.retired 8) s.launchSource = .ok u) :
    s.tellProgress k = u.updLaunch k fun m => { m with told := m.retired } := by
  simp only [State.tellProgress, hl, hw, ht, hp, hu, Option.isSome_none, Bool.false_eq_true, or_self, if_false]

end

theorem teamEnds : Rules.TeamEnds := by
  intro s id tm l ht hl hg hw hsump hsave hc hr hsv counted
  obtain rfl : tm.id = id := State.team?_id ht
  have hid : l.id = tm.launch := State.launch?_id hl
  have hrun := exec_teamEnd ht hl (State.teamOver_of hl hr hg hw hsump hsave hc) hsv
  have hfound (ended : List Nat) (retired : Nat) : (counted ended retired).launch? l.id = some { l with ended, retired } :=
    State.launch?_updLaunch (s := { s with teams := s.teams.filter fun u => u.id != tm.id }) (hid ▸ hl)
      (fun m => { m with ended, retired }) fun _ => rfl
  constructor
  · intro hdet htold
    have hp : s.progress tm l = (l.ended, l.retired) := by simp only [State.progress, hdet, Bool.not_false, if_true]
    rw [hrun, hp]
    exact congrArg _ (State.tellProgress_none (hfound l.ended l.retired) (.inr (.inl htold)))
  · intro ended retired _ hp
    rw [hrun, hp]
    constructor
    · exact fun h => congrArg _ (State.tellProgress_none (hfound ended retired) h)
    · intro u hwait htold hprog hu
      refine congrArg _ ((State.tellProgress_write (hfound ended retired) hwait htold hprog hu).trans ?_)
      refine congrArg (fun ls => { u with launches := ls }) (List.map_congr_left fun m hm => ?_)
      rw [State.engineWrite_launches hu] at hm
      obtain ⟨m, -, rfl⟩ := List.mem_map.1 hm
      by_cases hml : m.id == l.id <;> simp only [hml, if_true, Bool.false_eq_true, if_false]

/-! ### The grid barrier, R225 -/

/-- A thread that waits at the grid barrier. -/
def Lane.waitsGrid (x : Lane) : Bool := x.st == .heldWait && x.hold == .grid

theorem Lane.waitsGrid_iff (x : Lane) : x.waitsGrid = true ↔ x.st = .heldWait ∧ x.hold = .grid := by simp [Lane.waitsGrid]

/-- Acquires of several cores change L1 alone. -/
theorem State.acquires_eq (gs : List Group) : ∀ s : State, ∃ l1, gs.foldl (fun s g => s.acquire g.core) s = { s with l1 := l1 } := by
  induction gs with
  | nil => exact fun s => ⟨s.l1, rfl⟩
  | cons g gs ih =>
    intro s
    obtain ⟨l1, h⟩ := ih (s.acquire g.core)
    exact ⟨l1, by rw [List.foldl_cons, h]; rfl⟩

/-- R225: a team has arrived when each of its threads waits at the barrier or is gone, and each flag is 0. -/
theorem State.arrived_iff (s : State) (id : Nat) : s.arrived id = true ↔
    ∀ g ∈ s.groups, g.team = id → (∀ f ∈ g.flags, f = 0)
      ∧ ∀ x ∈ g.lanes, x.st = .exited ∨ x.st = .vacant ∨ (x.st = .heldWait ∧ x.hold = .grid) := by
  simp only [State.arrived, State.groupsOf, List.all_eq_true, List.mem_filter, beq_iff_eq, Bool.and_eq_true, Bool.or_eq_true,
    Lane.gone_iff, or_assoc, and_imp]
  exact forall₃_congr fun _ _ _ => and_comm

/-- A thread let go from the grid barrier. -/
def Lane.pastGrid (cont : DWord) (x : Lane) : Lane :=
  if x.st = .heldWait ∧ x.hold = .grid then Lane.arrive (Lane.goTo cont { x with st := .ready, hold := .none }) else x

/-- A group whose threads are let go from the grid barrier, by the roles of its team. -/
def Group.pastGrid (t : Team) (g : Group) : Group :=
  { g with lanes := g.lanes.map (Lane.pastGrid (t.roles.getD g.role ⟨0, 0, 0, 0, false, 0, 0⟩).cont) }

/-- The threads of a grid let go: those of each group by the first team of its name among those of the launch. -/
def State.pastGrid (s : State) (launch : Nat) (g : Group) : Group :=
  match (s.teams.filter fun t => t.launch == launch).find? fun t => t.id == g.team with
  | none => g
  | some t => g.pastGrid t

theorem State.pastGrid_of_none (s : State) {launch : Nat} {g : Group}
    (h : ∀ t ∈ s.teams.filter fun t => t.launch == launch, t.id ≠ g.team) : s.pastGrid launch g = g := by
  have hf : ((s.teams.filter fun t => t.launch == launch).find? fun t => t.id == g.team) = none :=
    List.find?_eq_none.2 fun t ht => by simpa using h t ht
  simp only [State.pastGrid, hf]

theorem State.pastGrid_of_team {s : State} {launch : Nat} {g : Group} {t : Team} (hn : (s.teams.map (·.id)).Nodup)
    (ht : t ∈ s.teams.filter fun t => t.launch == launch) (hid : t.id = g.team) : s.pastGrid launch g = g.pastGrid t := by
  unfold State.pastGrid
  split
  · next hf => exact absurd (beq_iff_eq.2 hid) (List.find?_eq_none.1 hf t ht)
  · next u hf =>
    have hu := List.find?_some hf
    have hmem := List.mem_of_find?_eq_some hf
    rw [List.inj_on_of_nodup_map hn (List.mem_filter.1 hmem).1 (List.mem_filter.1 ht).1 ((beq_iff_eq.1 hu).trans hid.symm)]

/-- R225, R184, R425: where a thread goes from the grid barrier. -/
theorem Lane.pastGrid_waiting {x : Lane} (cont : DWord) (h : x.st = .heldWait ∧ x.hold = .grid) :
    let stays := (x.due.map (·.1)).getD x.pc = x.pc
    let to_ := if stays then cont else x.pc
    x.pastGrid cont = { x with
      st := if to_ = x.meet ∧ to_ ≠ 0xFFFFFFFFFFFFFFFF then .heldMeet else .ready, hold := .none, pc := to_
      due := if stays then x.due.map (fun d => (cont, d.2)) else x.due } := by
  intro stays to_
  have hj : (Lane.judged { x with st := .ready, hold := .none }).1 = (x.due.map (·.1)).getD x.pc := by
    simp only [Lane.judged]
    cases x.due <;> rfl
  have hgo : Lane.goTo cont { x with st := .ready, hold := .none } = { x with
      st := .ready, hold := .none, pc := to_, due := if stays then x.due.map (fun d => (cont, d.2)) else x.due } := by
    by_cases hst : stays
    · have hst' := hj.trans hst
      simp only [Lane.goTo, hst', ne_eq, not_true_eq_false, if_false, to_, hst, if_true]
    · have hst' : ¬ (Lane.judged { x with st := .ready, hold := .none }).1 = x.pc := fun e => hst (hj.symm.trans e)
      simp only [Lane.goTo, ne_eq, hst', not_false_eq_true, if_true, to_, hst, if_false]
  rw [Lane.pastGrid, if_pos h, hgo]
  have hones : (BitVec.allOnes 64 : DWord) = 0xFFFFFFFFFFFFFFFF := by decide
  by_cases hm : to_ = x.meet ∧ to_ ≠ 0xFFFFFFFFFFFFFFFF
  · have hm' : x.meet ≠ 0xFFFFFFFFFFFFFFFF := hm.1 ▸ hm.2
    simp only [Lane.arrive, hones, hm, hm', ne_eq, not_false_eq_true, and_self, if_true]
  · have hm' : ¬ (to_ = x.meet ∧ x.meet ≠ 0xFFFFFFFFFFFFFFFF) := fun e => hm ⟨e.1, e.1.symm ▸ e.2⟩
    simp only [Lane.arrive, hones, hm, hm', true_and, if_false]

/-- A group without a thread at the barrier stays as it is. -/
theorem Group.pastGrid_none {t : Team} {g : Group} (h : (g.lanes.any Lane.waitsGrid) = false) : g.pastGrid t = g := by
  have hl : g.lanes.map (Lane.pastGrid (t.roles.getD g.role ⟨0, 0, 0, 0, false, 0, 0⟩).cont) = g.lanes :=
    (List.map_congr_left fun x hx => if_neg (mt x.waitsGrid_iff.2 (List.any_eq_false.1 h x hx))).trans (List.map_id _)
  rw [Group.pastGrid, hl]

section
variable {s : State} {l : Launch}

/-- The barrier stays closed, or lets every thread go. -/
theorem State.openGrid_eq (hl : s.launch? l.id = some l) : ∃ l1, s.openGrid l.id =
    if !l.allPlaced || s.saves.any (fun v => v.teams.any fun t => t.launch == l.id)
        || !((s.teams.filter fun t => t.launch == l.id).all fun t => s.arrived t.id) then s
    else { s with l1 := l1, groups := s.groups.map (s.pastGrid l.id) } := by
  obtain ⟨l1, h1⟩ := State.acquires_eq (s.groups.filter fun g => g.lanes.any Lane.waitsGrid
    && (s.teams.filter fun t => t.launch == l.id).any fun t => t.id == g.team) s
  refine ⟨l1, ?_⟩
  simp only [State.openGrid, hl]
  refine ite_congr rfl (fun _ => rfl) fun _ => ?_
  rw [show Lane.waitsGrid = fun x => x.st == .heldWait && x.hold == .grid from rfl] at h1
  rw [h1]
  congr 1
  refine List.map_congr_left fun g _ => ?_
  unfold State.pastGrid
  cases (s.teams.filter fun t => t.launch == l.id).find? fun t => t.id == g.team with
  | none => rfl
  | some t =>
    show (if g.lanes.any Lane.waitsGrid = true then g.pastGrid t else g) = g.pastGrid t
    split
    · rfl
    · next h => exact (Group.pastGrid_none (Bool.eq_false_iff.2 h)).symm

end

/-- The statement says its last clause of the groups of no team of the launch alone; `State.pastGrid_of_team` and `Lane.pastGrid_waiting`
say it of every group of a team. -/
theorem gridBarrier : Rules.GridBarrier := by
  intro s l hl mine waits arrived
  obtain ⟨l1, hopen⟩ := State.openGrid_eq hl
  have hmine (t : Team) : t ∈ s.teams.filter (fun t => t.launch == l.id) ↔ mine t := by simp [mine]
  have hcond : (!l.allPlaced || s.saves.any (fun v => v.teams.any fun t => t.launch == l.id)
      || !((s.teams.filter fun t => t.launch == l.id).all fun t => s.arrived t.id)) = false ↔ arrived := by
    simp only [Bool.or_eq_false_iff, Bool.not_eq_false', List.any_eq_false, List.all_eq_true, hmine, State.arrived_iff, and_assoc]
    simp [arrived, waits]
  constructor
  · intro hn
    rw [hopen, if_pos (Bool.of_not_eq_false (mt hcond.1 hn))]
  · intro ha hnodup
    rw [hcond.2 ha] at hopen
    rw [hopen]
    refine ⟨rfl, s.pastGrid l.id, rfl, fun g _ hno => ⟨s.pastGrid_of_none fun t ht => hno t ((hmine t).1 ht), fun t ht hid => ?_⟩⟩
    rw [State.pastGrid_of_team hnodup ((hmine t).2 ht) hid, Group.pastGrid]
    congr 1
    refine List.map_congr_left fun x _ => ?_
    by_cases hx : x.st = .heldWait ∧ x.hold = .grid
    · rw [if_pos hx, Lane.pastGrid_waiting _ hx]
    · rw [if_neg hx, Lane.pastGrid, if_neg hx]

/-- Settles O37: what leaves is taken from the state, and nothing else is. -/
theorem workEnds : Obligations.WorkEnds := ⟨groupLeaves, teamEnds, gridBarrier⟩

end Sys2Proof.Machine
end

section
/-!
SUPPORT. Uncorrectable errors that no access of a thread or an engine meets: on a writeback (R80) and in a cistern (R79, R410). Settles O40.
-/
namespace Sys2Proof.Machine

/-! ### On a writeback -/

/-- R80: the contexts that are enabled and whose window holds an address. -/
def State.holders (s : State) (pa : Nat) : List Nat :=
  (List.range Config.contextSlots).filter fun n =>
    (s.ctxAt n).en && decide (winBase (s.partWin.getD (s.ctxAt n).part 0) * 2 ^ 30 ≤ pa)
      && decide (pa < (winBase (s.partWin.getD (s.ctxAt n).part 0) + winSize (s.partWin.getD (s.ctxAt n).part 0)) * 2 ^ 30)

theorem State.mem_holders {s : State} {pa n : Nat} : n ∈ s.holders pa ↔ n < 64 ∧ (s.ctxAt n).en = true
    ∧ winBase (s.partWin.getD (s.ctxAt n).part 0) * 2 ^ 30 ≤ pa
    ∧ pa < (winBase (s.partWin.getD (s.ctxAt n).part 0) + winSize (s.partWin.getD (s.ctxAt n).part 0)) * 2 ^ 30 := by
  simp only [State.holders, List.mem_filter, List.mem_range, Config.contextSlots, Bool.and_eq_true, decide_eq_true_eq, and_assoc]

theorem State.holders_nodup (s : State) (pa : Nat) : (s.holders pa).Nodup := List.nodup_range.filter _

theorem exec_ueOnWriteback {s : State} {pa : Nat} (hs : s.stage = .stage2) (hpa : pa < s.memBytes) :
    exec (.ueOnWriteback pa) s = .next ((s.holders pa).foldl (fun s n => s.endContext n 0) (s.noteUe pa)) := by
  show execUeOnWriteback pa s = _
  have hpa' : ¬ s.memBytes ≤ pa := by omega
  simp only [execUeOnWriteback, hs, hpa', ne_eq, not_true_eq_false, if_false]
  rfl

theorem errorOnWriteback : Rules.ErrorOnWriteback := by
  intro s pa hs hpa hlen holds
  have hctx (n : Nat) : (s.noteUe pa).ctxAt n = s.ctxAt n := rfl
  have hmem (n : Nat) (hn : n < 64) : n ∈ s.holders pa ↔ holds (s.ctxAt n) :=
    State.mem_holders.trans ⟨fun h => h.2, fun h => ⟨hn, h⟩⟩
  obtain ⟨-, hin, hout⟩ := State.endAll_ctxAt (s.holders pa) (s.noteUe pa) (s.holders_nodup pa) fun n h =>
    Nat.lt_of_lt_of_eq (State.mem_holders.1 h).1 hlen.symm
  obtain ⟨hm, -, hchan, -, -, -, -, -, -, -, -, -, -, hgroups, -⟩ := State.endAll_rest (s.holders pa) (s.noteUe pa)
  refine ⟨_, exec_ueOnWriteback hs hpa, hm, fun n hn h => ?_, fun n hn h => hout n (mt (hmem n hn).1 h), hchan⟩
  have hn' := (hmem n hn).2 h
  rw [hin n hn', hctx]
  refine ⟨Ctx.ended_faulted .., Ctx.ended_fsub 0, fun g hg e => ((hgroups g).1 hg).2 (e ▸ hn')⟩

/-! ### In a cistern -/

section
variable {s : State} {id : Nat} {l : Launch} {r : Render} {b : Bucket} {pre post : List Bucket}

/-- A change of what the one launch of a name renders. -/
theorem State.updRender_eq (h : Rules.renders s id l r) (f : Render → Render) : s.updRender id f = Rules.rendering s id (f r) := by
  obtain ⟨-, hr, huniq, -⟩ := h
  simp only [State.updRender, State.updLaunch, Rules.rendering]
  congr 1
  refine List.map_congr_left fun m hm => ?_
  by_cases hid : m.id = id
  · have hml := huniq m hm hid
    rw [if_pos (beq_iff_eq.2 hid), if_pos hid, hml, hr]
    rfl
  · rw [if_neg (mt beq_iff_eq.1 hid), if_neg hid]

theorem Rules.renders_ctx (h : Rules.renders s id l r) : (s.ctxAt l.ctx).renders = true := by
  obtain ⟨-, -, -, hen, hf, -, hsv⟩ := h
  simp [Ctx.renders, hen, hf, hsv]

theorem Render.bucket?_eq (hb : r.buckets = pre ++ b :: post) (hu : ∀ c ∈ pre ++ post, c.id ≠ b.id) : r.bucket? b.id = some b := by
  rw [Render.bucket?, hb, List.find?_append, List.find?_eq_none.2 fun c hc => by simpa using hu c (by simp [hc])]
  simp

/-- A bucket changed where it stands. -/
theorem Render.updBucket_buckets (hb : r.buckets = pre ++ b :: post) (hu : ∀ c ∈ pre ++ post, c.id ≠ b.id) (f : Bucket → Bucket) :
    (r.updBucket b.id f).buckets = pre ++ f b :: post := by
  have hid {l : List Bucket} (h : ∀ c ∈ l, c.id ≠ b.id) : (l.map fun c => if c.id = b.id then f c else c) = l :=
    (List.map_congr_left fun c hc => if_neg (h c hc)).trans (List.map_id l)
  simp only [Render.updBucket, hb, List.map_append, List.map_cons, if_true, hid fun c hc => hu c (List.mem_append_left _ hc),
    hid fun c hc => hu c (List.mem_append_right _ hc)]

/-- R410: the copies of the cistern that no other bucket holds. -/
theorem Render.mem_onlyIn (hb : r.buckets = pre ++ b :: post) (hu : ∀ c ∈ pre ++ post, c.id ≠ b.id) {t : Token} :
    t ∈ r.onlyIn b ↔ t ∈ b.copies ∧ ∀ c ∈ pre ++ post, t ∉ c.copies ∧ ∀ u ∈ c.spilled, (u.1, u.2.1) ≠ t := by
  have hheld (c : Bucket) : c.holds t = false ↔ t ∉ c.copies ∧ ∀ u ∈ c.spilled, (u.1, u.2.1) ≠ t := by
    simp [Bucket.holds, Prod.ext_iff]
  have hothers : (r.buckets.any fun c => c.id != b.id && c.holds t) = false ↔ ∀ c ∈ pre ++ post, c.holds t = false := by
    rw [hb, List.any_eq_false]
    constructor
    · intro h c hc
      have hc' : c ∈ pre ++ b :: post := by
        rcases List.mem_append.1 hc with hc | hc <;> simp [hc]
      simpa [hu c hc] using h c hc'
    · intro h c hc hcb
      obtain ⟨hne, hh⟩ := Bool.and_eq_true_iff.1 hcb
      have hc' : c ∈ pre ++ post := by
        rcases List.mem_append.1 hc with hc | hc
        · exact List.mem_append_left _ hc
        · rcases List.mem_cons.1 hc with rfl | hc
          · simp at hne
          · exact List.mem_append_right _ hc
      rw [h c hc'] at hh
      cases hh
  simp only [Render.onlyIn, List.mem_filter, Bool.not_eq_true', hothers, hheld]

/-- The patches whose lost copies are to be diced again. -/
theorem Render.mem_lost {n : Nat} : n ∈ ((r.onlyIn b).map (·.1)).eraseDups ↔ ∃ k, (n, k) ∈ r.onlyIn b := by
  simp [List.mem_eraseDups]

/-- The copies that another bucket holds as well travel to the bucket once more. -/
theorem Render.mem_rebuild_flight {dies : Nat} {f : Nat × Nat × Nat × Option Nat} :
    f ∈ (r.rebuild b dies).flight ↔ f ∈ r.flight ∨ ∃ t ∈ b.copies, t ∉ r.onlyIn b ∧ f = (t.1, t.2, b.no, none) := by
  simp only [Render.rebuild, List.mem_append, List.mem_map, List.mem_filter, Bool.not_eq_true', List.contains_eq_mem,
    decide_eq_false_iff_not, and_assoc, @eq_comm _ f]

/-- With no patch queued or in a dicer, every patch of a lost copy is queued at its own die. -/
theorem Render.rebuild_todo (ht : ∀ e ∈ r.todo, e.2 = []) (hh : r.held = []) (dies : Nat) :
    (r.rebuild b dies).todo = r.todo.map fun e => (e.1, ((r.onlyIn b).map (·.1)).eraseDups.filter fun n => n / 64 % dies == e.1) := by
  have hq (n : Nat) : (r.todo.any fun e => e.2.contains n) = false :=
    List.any_eq_false.2 fun e he => by simp [ht e he]
  simp only [Render.rebuild, hq, hh, List.any_nil, Bool.not_false, Bool.and_self, List.filter_true]
  exact List.map_congr_left fun e he => by rw [ht e he, List.append_nil]

theorem exec_cisternUe (h : Rules.renders s id l r) (hb : r.bucket? b.id = some b) (hc : b.cistern = true) (hcop : b.copies ≠ []) :
    exec (.cisternUe id b.id) s =
      .next (if 1 ≤ b.ues then s.endContext l.ctx 0 else Rules.rendering s id (r.rebuild b s.dieCount)) := by
  show execCisternUe id b.id s = _
  have ⟨hl, hr, _⟩ := h
  have he : b.copies.isEmpty = false := by simpa using hcop
  simp only [execCisternUe, hl, hr, hb, Rules.renders_ctx h, hc, he, Bool.not_true, Bool.or_self, Bool.false_eq_true, if_false,
    State.updRender_eq h]
  rfl

end

theorem cisternErrors : Rules.CisternErrors := by
  rintro s id bucket l r b pre post h hb rfl hu hc hcop
  have hrun := exec_cisternUe h (Render.bucket?_eq hb hu) hc hcop
  constructor
  · intro hues hn
    rw [if_pos hues] at hrun
    obtain ⟨-, -, -, -, hf, -⟩ := h
    refine ⟨_, hrun, ?_, ?_, fun g hg => ?_⟩
    · rw [State.endContext_ctxAt_same 0 hn, Ctx.ended_faulted]
    · rw [State.endContext_ctxAt_same 0 hn, Ctx.ended_fsub 0 hf]
    · obtain ⟨cs, e⟩ := s.endContext_eq l.ctx 0
      rw [e] at hg
      simpa using (List.mem_filter.1 hg).2
  · intro hues hst ht hheld lost
    rw [if_neg (by omega)] at hrun
    have hlost (t : Token) : t ∈ r.onlyIn b ↔ lost t := Render.mem_onlyIn hb hu
    refine ⟨_, { b.kill with copies := [], ues := b.ues + 1 }, hrun, Render.updBucket_buckets hb hu _, ?_⟩
    simp only [Bucket.kill, hst, if_false, hues, true_and]
    refine ⟨fun f => ?_, ?_⟩
    · simp only [Render.mem_rebuild_flight, hlost]
    · rw [Render.rebuild_todo ht hheld]
      constructor
      · intro e he n hn
        obtain ⟨e, -, rfl⟩ := List.mem_map.1 he
        obtain ⟨k, hk⟩ := Render.mem_lost.1 (List.mem_filter.1 hn).1
        exact ⟨k, (hlost _).1 hk⟩
      · intro n k hk e he hdie
        obtain ⟨e, -, rfl⟩ := List.mem_map.1 he
        exact List.mem_filter.2 ⟨Render.mem_lost.2 ⟨k, (hlost _).2 hk⟩, beq_iff_eq.2 hdie⟩

/-- Settles O40: the contexts that hold the address end one after another, and a killed bucket stands rebuilt in its place. -/
theorem uncorrectableErrors : Obligations.UncorrectableErrors := ⟨errorOnWriteback, cisternErrors⟩

end Sys2Proof.Machine
end

section
/-!
SUPPORT. What the launch engine reads of the record at a queue's HEAD and makes of it, and how a launch is accepted and retires (R95,
R203, R206, R207, R210). Settles O32.
-/
namespace Sys2Proof.Machine

/-! ### The head record -/

section
variable {s u : State} {n q k va : Nat} {x : LQ}

theorem LQ.logN_some (h : x.ctl.toNat % 16 = k) (h4 : 4 ≤ k) (h12 : k ≤ 12) : x.logN = some k := by
  have hb : bits x.ctl.toNat 3 0 = k := by rw [← h]; simp [bits]
  simp only [LQ.logN, hb, if_pos (And.intro h4 h12)]

/-- R201: the engine may take the record at HEAD. -/
theorem headOf_of_headRecord (h : Rules.headRecord s n q k va x) : (s.ctxAt n).headOf q = some (x, k) := by
  obtain ⟨-, hen, hf, hb, hs, hx, hxen, hw, hk, h4, h12, hht, -⟩ := h
  have hget : (s.ctxAt n).lq.getD q {} = x := by rw [List.getD_eq_getElem?_getD, hx, Option.getD_some]
  simp only [Ctx.headOf, hget, LQ.logN_some hk h4 h12, Ctx.live, hen, hf, hb, hs, hxen, hw, hht, Bool.not_false, Option.isNone_none,
    Bool.and_self, ne_eq, not_false_eq_true, decide_true, if_true]

theorem recordVa_of_headRecord (h : Rules.headRecord s n q k va x) : x.recordVa k = va := by
  obtain ⟨-, -, -, -, -, -, -, -, -, -, -, -, hva⟩ := h
  exact hva.symm

theorem faulted_of_headRecord (h : Rules.headRecord s n q k va x) : (s.ctxAt n).faulted = false := by
  obtain ⟨-, -, hf, -⟩ := h
  exact hf

/-- What the engine has read since leaves the queue as it was, and a change of the queue sets it. -/
theorem updLQ_of_headRecord (h : Rules.headRecord s n q k va x) (hc : u.ctx = s.ctx) (f : LQ → LQ) :
    u.updLQ n q f = Rules.queue u n q (f x) := by
  obtain ⟨-, -, -, -, -, hx, -⟩ := h
  refine State.updCtx_congr fun _ => ?_
  have hget : (u.ctxAt n).lq.getD q {} = x := by
    rw [State.ctxAt_of_ctx hc, List.getD_eq_getElem?_getD, hx, Option.getD_some]
  rw [updAt_eq_set _ _ _ {}, hget]

end

/-! ### Reads by the engine -/

theorem State.engineRead_beside {s u : State} {n va len : Nat} {m : Mode} {src : Source} {xs : List Byte}
    (h : s.engineRead n m va len src = .ok (u, xs)) : besideL2 s u := by
  simp only [State.engineRead] at h
  split at h
  · cases h
    exact (s.tableReads_beside ..).trans (State.homeRuns_beside ..)
  · cases h
  · cases h

section
variable {s u : State} {n va len : Nat} {xs : List Byte}

theorem engineRead_of_reads (h : Rules.reads s n va len u xs) : s.engineRead n engineMode va len s.launchSource = .ok (u, xs) := h
theorem ctx_of_reads (h : Rules.reads s n va len u xs) : u.ctx = s.ctx := (State.engineRead_beside h).ctx

end

/-- R94, R95: the read of a table leaves the contexts as they are. -/
theorem State.readTable_ctx {s u : State} {n : Nat} {r : LRec} {table : Option (List RedRange)} (h : s.readTable n r = .ok (u, table)) :
    u.ctx = s.ctx := by
  simp only [State.readTable] at h
  split at h
  · cases h; rfl
  · split at h
    · cases h
    · next hh =>
      have hhdr := (State.engineRead_beside hh).ctx
      split at h
      · cases h; exact hhdr
      · split at h
        · cases h
        · next he =>
          cases h
          exact (State.engineRead_beside he).ctx.trans hhdr

/-- R376: the read of a descriptor leaves the contexts as they are. -/
theorem State.readDesc_ctx {s u : State} {n : Nat} {r : LRec} {desc : Option (Option (List Word))} (h : s.readDesc n r = .ok (u, desc)) :
    u.ctx = s.ctx := by
  simp only [State.readDesc] at h
  split at h
  · cases h; rfl
  · split at h
    · cases h; rfl
    · split at h
      · cases h
        exact ((s.tableReads_beside ..).trans (State.homeRuns_beside ..)).ctx
      · cases h
      · split at h
        · cases h; rfl
        · cases h

/-! ### Prerequisites, R203, R207 -/

/-- The prerequisites judged in turn are those that the engine reads. -/
theorem readPrereqs_of_judged {n : Nat} : ∀ {es es' : List (Nat × Nat × Bool)} {s u : State}, Rules.judged n s es u es' →
    s.readPrereqs n es = (es', u, none) ∧ u.ctx = s.ctx
  | [], _, s, _, h => by
    obtain ⟨rfl, rfl⟩ := h
    exact ⟨rfl, rfl⟩
  | (a, v, ok) :: rest, es', s, u, h => by
    rw [Rules.judged] at h
    split at h
    · next hok =>
      obtain ⟨more, rfl, hrest⟩ := h
      obtain ⟨hread, hctx⟩ := readPrereqs_of_judged hrest
      have hok' : (ok || a % 8 != 0) = true := by simpa using hok
      exact ⟨by simp only [State.readPrereqs, hok', if_true, hread], hctx⟩
    · next hok =>
      obtain ⟨t, xs, more, ht, rfl, hrest⟩ := h
      obtain ⟨hread, hctx⟩ := readPrereqs_of_judged hrest
      have hok' : (ok || a % 8 != 0) = false := by simpa using hok
      exact ⟨by simp only [State.readPrereqs, hok', Bool.false_eq_true, if_false, engineRead_of_reads ht, hread],
        hctx.trans (ctx_of_reads ht)⟩

/-- What the engine holds of a record whose prerequisites were judged. -/
theorem judge_of_headRecord {s t u : State} {n q k va npre : Nat} {x : LQ} {es es' : List (Nat × Nat × Bool)}
    (h : Rules.headRecord s n q k va x) (ht : t.ctx = s.ctx) (hj : Rules.judged n t es u es') :
    t.judge n q npre es = Rules.queue u n q { x with taking := .prereq npre es', waitOn := none } := by
  obtain ⟨hread, hctx⟩ := readPrereqs_of_judged hj
  have hu : u.ctx = s.ctx := hctx.trans ht
  have hf : (u.ctxAt n).faulted = false := by rw [State.ctxAt_of_ctx hu]; exact faulted_of_headRecord h
  simp only [State.judge, hread, hf, Bool.false_eq_true, if_false]
  exact updLQ_of_headRecord h hu _

theorem prerequisites : Rules.Prerequisites := by
  intro s u n q k va x es h
  constructor
  · intro w0 xs s1 s2 hx hw npre
    constructor
    · intro hnpre
      show execLaunchPrereqRead n q s = _
      have hnpre' : 4 < bits (leNat w0) 26 24 := hnpre
      simp only [execLaunchPrereqRead, done, headOf_of_headRecord h, hx, ne_eq, not_true_eq_false, recordVa_of_headRecord h,
        engineRead_of_reads hw, hnpre', if_true, if_false]
      exact congrArg _ (updLQ_of_headRecord h (ctx_of_reads hw) _)
    · intro hnpre hxs hj
      show execLaunchPrereqRead n q s = _
      have hnpre' : ¬ 4 < bits (leNat w0) 26 24 := Nat.not_lt.2 hnpre
      have hxs' : s1.engineRead n engineMode (va + 0x50) (16 * bits (leNat w0) 26 24) s1.launchSource = .ok (s2, xs) := hxs
      simp only [execLaunchPrereqRead, done, headOf_of_headRecord h, hx, ne_eq, not_true_eq_false, recordVa_of_headRecord h,
        engineRead_of_reads hw, hnpre', hxs', if_false]
      exact congrArg _ (judge_of_headRecord h ((ctx_of_reads hxs).trans (ctx_of_reads hw)) hj)
  · intro npre es0 hx hj
    show execPrereqReread n q s = _
    simp only [execPrereqReread, done, headOf_of_headRecord h, hx]
    exact congrArg _ (judge_of_headRecord h rfl hj)

/-! ### The record, R203, R206 -/

/-- The codes of R206 in their order, each with whether the record meets its condition. -/
def State.brokenCodes (s : State) (r : LRec) (table : Option (List RedRange)) (desc : Option (Option (List Word))) : List (Bool × Nat) :=
  [(r.bad1, 1), (r.bad2, 2), (table.isNone, 3), (s.bad4 r, 4), (r.bad5, 5),
    ((match desc with | none => false | some none => true | some (some d) => !RDesc.valid d r.roles), 6)]

/-- The first code of a list whose condition is met. -/
def firstCode : List (Bool × Nat) → Option Nat
  | [] => none
  | (b, code) :: rest => if b then some code else firstCode rest

theorem firstCode_none {cs : List (Bool × Nat)} (h : ∀ e ∈ cs, e.1 = false) : firstCode cs = none := by
  induction cs with
  | nil => rfl
  | cons e cs ih =>
    rw [firstCode, h e (List.mem_cons_self ..), if_neg Bool.false_ne_true]
    exact ih fun e he => h e (List.mem_cons_of_mem _ he)

theorem firstCode_append {pre post : List (Bool × Nat)} {code : Nat} (h : ∀ e ∈ pre, e.1 = false) :
    firstCode (pre ++ (true, code) :: post) = some code := by
  induction pre with
  | nil => rfl
  | cons e pre ih =>
    rw [List.cons_append, firstCode, h e (List.mem_cons_self ..), if_neg Bool.false_ne_true]
    exact ih fun e he => h e (List.mem_cons_of_mem _ he)

/-- R206: a record is rejected with the lowest code whose condition it meets. -/
theorem State.rejection_eq (s : State) (r : LRec) (table : Option (List RedRange)) (desc : Option (Option (List Word))) :
    s.rejection r table desc = firstCode (s.brokenCodes r table desc) := by
  simp only [State.rejection, State.brokenCodes, firstCode]
  rcases desc with _ | _ | d
  · rfl
  · rfl
  · cases hv : RDesc.valid d r.roles <;> simp only [hv, Bool.not_true, Bool.not_false, Bool.false_eq_true, if_true, if_false]

/-- What the engine makes of a record whose prerequisites are satisfied, when it has read it with its table and its descriptor. -/
theorem exec_launchRecordRead {s s1 s2 u : State} {n q k va npre : Nat} {x : LQ} {es : List (Nat × Nat × Bool)} {xs : List Byte}
    {r : LRec} {table : Option (List RedRange)} {desc : Option (Option (List Word))} (h : Rules.headRecord s n q k va x)
    (hx : x.taking = .prereq npre es) (hes : ∀ e ∈ es, e.2.2 = true) (hxs : Rules.reads s n va 256 s1 xs)
    (hr : patchRecord (wordsAt xs 64) npre es = r) (ht : s1.readTable n r = .ok (s2, table)) (hd : s2.readDesc n r = .ok (u, desc)) :
    exec (.launchRecordRead n q) s = .next (Rules.queue u n q
      (match u.rejection r table desc with
        | some code => Rules.rejected x k code
        | none => { x with taking := .read r (table.getD []) desc.join })) := by
  show execLaunchRecordRead n q s = _
  have hall : (es.all fun e => e.2.2) = true := List.all_eq_true.2 hes
  have hu : u.ctx = s.ctx := ((State.readDesc_ctx hd).trans (State.readTable_ctx ht)).trans (ctx_of_reads hxs)
  simp only [execLaunchRecordRead, done, headOf_of_headRecord h, hx, hall, recordVa_of_headRecord h, Bool.not_true, Bool.false_eq_true,
    if_false]
  -- Both reads stand as variables: else the kernel evaluates them where it compares the branches taken.
  obtain ⟨readTable, hrt⟩ : ∃ f, f = State.readTable := ⟨_, rfl⟩
  obtain ⟨readDesc, hrd⟩ : ∃ f, f = State.readDesc := ⟨_, rfl⟩
  rw [← hrt] at ht
  rw [← hrd] at hd
  rw [← hrt, ← hrd]
  simp only [engineRead_of_reads hxs, hr, ht, hd]
  cases u.rejection r table desc with
  | none => exact congrArg _ (updLQ_of_headRecord h hu _)
  | some code => exact congrArg _ (updLQ_of_headRecord h hu _)

theorem recordRead : Rules.RecordRead := by
  intro s s1 s2 u n q k va npre x es xs table desc h hx hes hxs r ht hd becomes broken
  have hrun := exec_launchRecordRead h hx hes hxs rfl ht hd
  have hrej : u.rejection r table desc = firstCode broken := State.rejection_eq ..
  constructor
  · intro pre code post hb hpre
    rw [hb, firstCode_append hpre] at hrej
    rw [hrej] at hrun
    exact hrun
  · intro hok
    rw [firstCode_none hok] at hrej
    rw [hrej] at hrun
    obtain ⟨ranges, rfl⟩ : ∃ ranges, table = some ranges :=
      Option.isSome_iff_exists.1 (Option.isNone_eq_false_iff.1 (hok (table.isNone, 3) (by simp [broken])))
    exact ⟨ranges, rfl, hrun⟩

/-! ### Acceptance, R95, R203 -/

theorem State.overlapsLaunch_iff (s : State) (n : Nat) (table : List RedRange) : s.overlapsLaunch n table = true ↔
    ∃ l ∈ s.launches, l.ctx = n ∧ ∃ a ∈ l.table, ∃ b ∈ table, ∃ u ∈ [(a.base, a.bytes), (a.log, a.logBytes)],
      ∃ v ∈ [(b.base, b.bytes), (b.log, b.logBytes)], u.1 < v.1 + v.2 ∧ v.1 < u.1 + u.2 := by
  simp only [State.overlapsLaunch, meets, List.any_eq_true, Bool.and_eq_true, beq_iff_eq, decide_eq_true_eq]

theorem launchAcceptance : Rules.LaunchAcceptance := by
  intro s n q k va x r table desc h hx blocks overlap
  have hov : overlap ↔ s.overlapsLaunch n table = true := (s.overlapsLaunch_iff n table).symm
  constructor
  · intro ho
    show execLaunchAccept n q s = _
    simp only [execLaunchAccept, done, headOf_of_headRecord h, hx, hov.1 ho, if_true]
  · intro ho
    show execLaunchAccept n q s = _
    simp only [execLaunchAccept, done, headOf_of_headRecord h, hx, mt hov.2 ho, State.fresh]
    rw [updLQ_of_headRecord h (u := { s with ids := s.ids + 1 }) rfl]
    rfl

/-! ### Retirement, R210 -/

theorem State.teamsLeft_eq_false {s : State} {id : Nat} (ht : ∀ t ∈ s.teams, t.launch ≠ id)
    (hv : ∀ v ∈ s.saves, ∀ t ∈ v.teams, t.launch ≠ id) : s.teamsLeft id = false := by
  simpa [State.teamsLeft] using And.intro ht hv

/-- A launch with nothing left to do makes its last stores and retires. -/
theorem exec_launchRetire {s u : State} {id : Nat} {l : Launch} (hl : s.launch? id = some l) (hp : l.allPlaced = true)
    (ht : s.teamsLeft id = false) (hc : l.committed = true ∨ l.table = []) (hr : l.render = none) (hw : l.waitOn = none)
    (hs : (s.ctxAt l.ctx).saved = false) (htold : l.told = l.retired ∨ LRec.prog l.record = 0)
    (hu : s.storeWords l.ctx id l.lastStores = .ok u) :
    exec (.launchRetire id) s = .next { u with launches := u.launches.filter fun x => x.id != id } := by
  show execLaunchRetire id s = _
  have hc' : (l.committed || l.table.isEmpty) = true := by simpa using hc
  have htold' : ¬ (l.told ≠ l.retired ∧ LRec.prog l.record ≠ 0) := by tauto
  simp only [execLaunchRetire, done, hl, hp, ht, hc', hr, hw, hs, hu, Bool.not_true, Option.isSome_none, Bool.or_self, Bool.false_eq_true,
    if_false, if_neg htold']

theorem retirement : Rules.Retirement := by
  intro s id l hl hp ht hv hc hr hw hs htold
  have hrun {u : State} := exec_launchRetire (u := u) hl hp (State.teamsLeft_eq_false ht hv) hc hr hw hs htold
  constructor
  · intro hcompl
    exact hrun (by simp only [Launch.lastStores, hr, hcompl, if_true, List.append_nil, State.storeWords])
  · intro u hcompl hu
    have hu' : s.engineWrite l.ctx id engineMode (LRec.compl l.record % 2 ^ 64) (leBytes (LRec.complv l.record) 8)
      s.launchSource = .ok u := hu
    exact hrun (by simp only [Launch.lastStores, hr, hcompl, if_false, List.nil_append, State.storeWords, hu'])

/-- Settles O32: each read of the launch engine leaves the contexts as they are, so that what it makes of the record stands in the queue
that it was read from; R206's lowest code is the first of the codes in their order. -/
theorem launches : Obligations.Launches := ⟨prerequisites, recordRead, launchAcceptance, retirement⟩

end Sys2Proof.Machine
end

section
/-!
SUPPORT. A commit whose line takes the place in L2 of a line of system memory that holds an uncorrectable error. Refutes O5.
-/
namespace Sys2Proof.Machine

/-- The commit of a launch of which every team has ended, where no element meets an uncorrectable error (R100). -/
theorem exec_orderedReductionCommit {s : State} {id : Nat} {la : Launch} (hl : s.launch? id = some la) (hc : la.committed = false)
    (hp : la.allPlaced = true) (ht : s.teamsLeft id = false) (hue : s.commitError la = none) :
    exec (.orderedReductionCommit id) s = .next ((s.commit la).updLaunch id fun la => { la with committed := true }) := by
  show execOrderedReductionCommit id s = _
  simp only [execOrderedReductionCommit, hl, hc, hp, ht, hue, Bool.not_true, Bool.or_self, Bool.false_eq_true, if_false, done]

/-- The range of 128 bytes at 0x8000, whose words are summed. -/
def summed : RedRange := { base := 0x8000, bytes := 128, op := .add, ty := .n32, log := 0x10000, logBytes := 16384 }
/-- One contribution to the first word of the range, in a page that stands at address 0 of device memory and lets L2 keep its lines. -/
def addsOne : Contribution := { key := (0, 0, 0), va := 0x8000, pa := 0, range := 0, keep := true, value := 1 }
/-- A launch of one team, which has ended. -/
def summing : Launch :=
  { id := 1, ctx := 0, queue := 0, record := [0, 0, 1, 1, 1], table := [summed], accepted := 0, placed := 1, contrib := [addsOne] }

/-- The set of L2 in which the line at address 0 of device memory stands holds 16 lines: first the line at address 0 behind port A,
with an uncorrectable error in its first sector (R79), then 15 of device memory. -/
def fullSet : State :=
  { State.reset with
    powered := true, stage := .stage2, sysUe := [0], launches := [summing]
    l2 := { key := (1, 0) } :: [196992, 393216, 590208, 787184, 983408, 1180400, 1376624, 1573600, 1769824, 1966816, 2163040, 2360016,
            2556240, 2753232, 2949456].map fun line => { key := (0, line) } }

/-- The commit allocates the line of its element; the line of system memory leaves L2, and its error goes with it. -/
theorem commit_fullSet : (fullSet.commit summing).sysUe = [] := by decide +kernel

/-- Refutes O5: a commit that allocates the line of an element in a full set of L2 gives up the set's oldest line, and an uncorrectable
error in a line of system memory goes with that line (R79). The statement lets L2 change, but not the errors in its lines of system
memory. In `fullSet` the commit of the word at address 0 takes such an error away. -/
theorem not_orderedCommit : ¬ Obligations.OrderedCommit := by
  intro h
  have hcontrib : ∀ c ∈ summing.contrib, c = addsOne := fun c hc => List.mem_singleton.1 hc
  obtain ⟨t, hrun, -, -, -, hframe⟩ := h fullSet 1 summing summed 0 0x8000 0 [addsOne] rfl rfl (by decide) (by decide) (by decide)
    (fun c _ _ _ => rfl) rfl (List.Perm.refl _) (List.pairwise_singleton ..) rfl
    (fun c hc => .inl (by rw [hcontrib c hc]; decide))
  rw [exec_orderedReductionCommit (la := summing) rfl rfl (by decide) rfl rfl] at hrun
  obtain rfl := Host.Outcome.next.inj hrun
  have hkept := congrArg State.sysUe hframe
  change (fullSet.commit summing).sysUe = fullSet.sysUe at hkept
  rw [commit_fullSet] at hkept
  exact absurd hkept (by decide)

end Sys2Proof.Machine
end

section
/-!
SUPPORT. Where a stream waits, and the trap that it takes (R150, R349, R352, R419, R420, R423). Settles O29.
-/
namespace Sys2Proof.Machine

/-! ### One instruction of a stream -/

section
variable {s : State} {t : Team} {m : Stream} {body : Team → Stream → StreamRes}

theorem perStream_hold (ht : s.team? s.cur.slot = some t) (hm : t.stream = some m) (h : body t m = .hold) :
    perStream body s = s.updTeam t.id fun t => t.updStream fun m => { m with st := .held } := by
  simp only [perStream, State.streamTeam, ht, hm, h]

theorem perStream_trap {e : Trap} (ht : s.team? s.cur.slot = some t) (hm : t.stream = some m) (h : body t m = .trap e) :
    perStream body s = s.streamTrap t.id e := by
  simp only [perStream, State.streamTeam, ht, hm, h]

end

/-- R150, R352. -/
theorem streamHolds : Rules.StreamHolds := by
  rintro i s t m ht hm (⟨n, a, rfl, h⟩ | ⟨n, rfl, h⟩ | ⟨d, a, rfl, h⟩ | ⟨a, b, rfl, h⟩)
  · refine congrArg Host.Outcome.next (perStream_hold ht hm ?_)
    rcases h with h | h
    · exact congrArg (BarRes.stream · _) h
    · exact congrArg (BarRes.stream · fun t v => if v = 1 then StreamRes.ok t else .hold) h
  · exact congrArg Host.Outcome.next (perStream_hold ht hm (congrArg (BarRes.stream · _) h))
  · exact congrArg Host.Outcome.next (perStream_hold ht hm (congrArg (BarRes.stream · _) h))
  · exact congrArg Host.Outcome.next (perStream_hold ht hm (congrArg (BarRes.stream · _) h))

/-! ### The traps of objects and rings, R149, R165 -/

/-- A trap that names no place of an uncorrectable error, and is no fault of a page: every trap of a stream. -/
def Trap.pageless (e : Trap) : Prop := e.ue = none ∧ e.cause ≠ .pageFault

theorem windowTrap_pageless (off : Nat) (k : Access) : (windowTrap off k).pageless := ⟨rfl, nofun⟩
theorem barrierMisuse_pageless (d off : Nat) : (barrierMisuse d off).pageless := ⟨rfl, nofun⟩
theorem ringMisuse_pageless (d : Nat) : (ringMisuse d).pageless := ⟨rfl, nofun⟩
theorem memError_pageless : memError.pageless := ⟨rfl, nofun⟩

/-- An operation on an object or a ring takes only such traps. -/
def BarRes.pageless : BarRes → Prop
  | .trap e => e.pageless
  | _ => True

theorem BarRes.pageless_ite {p : Prop} [Decidable p] {q r : BarRes} (hq : q.pageless) (hr : r.pageless) :
    (if p then q else r).pageless := by
  split
  · exact hq
  · exact hr

section
variable (t : Team)

theorem Team.barPlace_pageless {off : Nat} {e : Trap} (h : t.barPlace off = some e) : e.pageless := by
  unfold Team.barPlace at h
  split_ifs at h <;> cases h
  · exact windowTrap_pageless ..
  · exact barrierMisuse_pageless ..
  · exact memError_pageless

theorem Team.barWait_pageless (off p : Nat) (hold : Bool) : (t.barWait off p hold).pageless := by
  unfold Team.barWait
  split
  · next h => exact t.barPlace_pageless h
  · exact BarRes.pageless_ite (BarRes.pageless_ite trivial (barrierMisuse_pageless ..)) trivial

theorem Team.barArrive_pageless (off : Nat) (hold : Bool) : (t.barArrive off hold).pageless := by
  unfold Team.barArrive
  split
  · next h => exact t.barPlace_pageless h
  · exact BarRes.pageless_ite (BarRes.pageless_ite trivial (barrierMisuse_pageless ..))
      (BarRes.pageless_ite (barrierMisuse_pageless ..) trivial)

theorem Team.ringCheck_pageless {off : Nat} {hold : Bool} {e : Trap} (h : t.ringCheck off hold = some (some e)) : e.pageless := by
  unfold Team.ringCheck at h
  dsimp only at h
  split_ifs at h <;> cases h
  · exact windowTrap_pageless ..
  · exact ringMisuse_pageless ..
  · exact memError_pageless
  · exact ringMisuse_pageless ..
  · exact windowTrap_pageless ..

theorem Team.ringAcquire_pageless (off : Nat) (hold : Bool) : (t.ringAcquire off hold).pageless := by
  unfold Team.ringAcquire
  split
  · next h => exact t.ringCheck_pageless h
  · trivial
  · exact BarRes.pageless_ite trivial trivial

theorem Team.ringBar_pageless {bar : Nat} {e : Trap} (h : t.ringBar bar = some e) : e.pageless := by
  unfold Team.ringBar at h
  split_ifs at h <;> cases h
  · exact windowTrap_pageless ..
  · exact ringMisuse_pageless ..
  · exact memError_pageless
  · exact ringMisuse_pageless ..

theorem Team.ringFinish_pageless (off slot : Nat) (pub hold : Bool) : (t.ringFinish off slot pub hold).pageless := by
  unfold Team.ringFinish
  split
  · next h => exact t.ringCheck_pageless h
  · trivial
  · dsimp only
    split
    · next h => exact t.ringBar_pageless h
    · exact BarRes.pageless_ite (ringMisuse_pageless _) (BarRes.pageless_ite (ringMisuse_pageless _) trivial)

end

/-- A trap of a stream, of this cause and detail. -/
def Trap.stops (e : Trap) (c : Cause) (d : Nat) : Prop := e.pageless ∧ e.cause = c ∧ e.detail = d ∧ c ≠ .memUncorrectable

/-- The trap by which an object or a ring refuses a stream's operation. -/
theorem BarRes.stream_stops {r : BarRes} {c : Cause} {d : Nat} (k : Team → Nat → StreamRes) (hr : r.pageless)
    (h : Rules.objectFails r c d) : ∃ e, r.stream k = .trap e ∧ e.stops c d := by
  obtain ⟨e, rfl, hue, rfl, rfl⟩ := h
  exact ⟨e, rfl, hr, rfl, rfl, hue⟩

/-! ### The end of the context, R39, R419, R420, R423 -/

/-- The record of a stream's trap. -/
def streamRecord (s : State) (t : Team) (m : Stream) (c : Cause) (d : Nat) : TrapRec :=
  { cause := c, detail := d, stream := true, die := s.physDie (t.cores.getD 0 0 / 48), core := t.cores.getD 0 0 % 48, group := 0, lane := 0,
    aux := m.idx }

/-- The trap of a stream ends its context. -/
theorem State.streamTrap_ended {s : State} {t : Team} {m : Stream} {e : Trap} (ht : s.team? t.id = some t) (hm : t.stream = some m)
    (hn : t.ctx < s.ctx.length) (hf : (s.ctxAt t.ctx).faulted = false) (hfa : (s.ctxAt t.ctx).fatal = none)
    (hq : (s.ctxAt t.ctx).fqN = none) (he : e.pageless) (hmem : e.cause ≠ .memUncorrectable) :
    Rules.ended s (s.streamTrap t.id e) t.ctx (if e.cause = .accessViolation then e.detail else 0) (streamRecord s t m e.cause e.detail) := by
  obtain ⟨hue, hpage⟩ := he
  let u : State := (s.signal (t.coreAt 0)).updCtx t.ctx fun c => { c with fatal := some (streamRecord s t m e.cause e.detail) }
  have hat : u.ctxAt t.ctx = { s.ctxAt t.ctx with fatal := some (streamRecord s t m e.cause e.detail) } :=
    State.ctxAt_updCtx_same (s := s.signal (t.coreAt 0)) _ hn
  have hend : s.streamTrap t.id e = u.endContext t.ctx (if e.cause = .accessViolation then e.detail else 0) := by
    have hkeep : (s.signal (t.coreAt 0)).keepFatal t.ctx (streamRecord s t m e.cause e.detail) = u := State.keepFatal_none hfa
    have hfault : ∀ va sub k src level, u.fatalFault t.ctx va sub k src level = u.endContext t.ctx sub := fun va sub k src level => by
      rw [State.fatalFault, hat, if_neg (hf.symm ▸ Bool.false_ne_true), State.writeFatalRecord_none (.inl (by rw [hat]; exact hq))]
    simp only [State.streamTrap, ht, hm, State.noteTrapUe, hue, if_neg hmem]
    change (if e.cause.isFault = true then State.fatalFault (State.keepFatal _ _ (streamRecord s t m e.cause e.detail)) _ _ _ _ _ _
      else State.endContext (State.keepFatal _ _ (streamRecord s t m e.cause e.detail)) _ _) = _
    rw [hkeep, hfault]
    by_cases hc : e.cause = .accessViolation
    · rw [if_pos hc, hc]; rfl
    · rw [if_neg hc, if_neg]
      cases h : e.cause <;> simp_all [Cause.isFault]
  rw [hend]
  refine ended_endContext ((updAt_length ..).symm ▸ hn) rfl (fun k hk => ?_) ?_ ?_
  · exact State.ctxAt_updCtx_other (s := s.signal (t.coreAt 0)) _ hk
  · rw [hat]; exact hf
  · rw [hat]

/-! ### Products, R349, R353 -/

/-- The trap of a multiplication that fails a check of its tile or of its operands. -/
theorem multiply_trap {t : Team} {ty : FTy} {scl : Bool} {kv tile a b bands : Nat} {c : Cause} {d : Nat}
    (h : Rules.operandsFail t ty scl tile a b bands c d) :
    ∃ e, multiply t ty scl kv tile a b bands = .trap e ∧ e.stops c d := by
  obtain ⟨hplace, rfl, rfl⟩ | ⟨htile, ⟨ha, hb⟩, hmod, rfl, rfl⟩ := h
  · by_cases htile : tile < t.tiles
    · have hout := hplace.resolve_left (Nat.not_le.2 htile)
      by_cases ha : t.inWindow a (operandSize ty scl) = true
      · refine ⟨windowTrap b .read, ?_, windowTrap_pageless .., rfl, rfl, nofun⟩
        have hb : ¬ t.inWindow b ((bands - 1) * roundUp (operandSize ty scl) 128 + operandSize ty scl) = true := fun hb => hout ⟨ha, hb⟩
        simp [multiply, Team.tileOk, htile, Team.operandTrap, ha, hb]
      · refine ⟨windowTrap a .read, ?_, windowTrap_pageless .., rfl, rfl, nofun⟩
        simp [multiply, Team.tileOk, htile, Team.operandTrap, ha]
    · exact ⟨tileTrap, by simp [multiply, Team.tileOk, htile], ⟨rfl, nofun⟩, rfl, rfl, nofun⟩
  · refine ⟨{ cause := .misaligned, aux := if a % 128 ≠ 0 then a else b }, ?_, ⟨rfl, nofun⟩, rfl, rfl, nofun⟩
    change t.inWindow a (operandSize ty scl) = true at ha
    change t.inWindow b ((bands - 1) * roundUp (operandSize ty scl) 128 + operandSize ty scl) = true at hb
    simp only [multiply, Team.tileOk, htile, decide_true, Bool.not_true, Bool.false_eq_true, if_false, Team.operandTrap, ha, hb, hmod, if_true]

/-! ### The trap of each check, R349 -/

theorem perStream_stops {s : State} {t : Team} {m : Stream} {body : Team → Stream → StreamRes} {c : Cause} {d : Nat}
    (ht : s.team? s.cur.slot = some t) (hm : t.stream = some m) (h : ∃ e, body t m = .trap e ∧ e.stops c d) :
    ∃ e, done (perStream body s) = .next (s.streamTrap t.id e) ∧ e.stops c d :=
  h.imp fun _ h => ⟨congrArg Host.Outcome.next (perStream_trap ht hm h.1), h.2⟩

/-- Which instruction fails a check, and the trap that it takes. -/
theorem exec_streamFails {i : Instr} {s : State} {t : Team} {m : Stream} {c : Cause} {d : Nat} (ht : s.team? s.cur.slot = some t)
    (hm : t.stream = some m) (h : Rules.streamFails t m s.cur.next.toNat i c d) :
    ∃ e, exec i s = .next (s.streamTrap t.id e) ∧ e.stops c d := by
  obtain ⟨k, a, rfl, hloop, rfl, rfl⟩ | ⟨k, rfl, hopen, rfl, rfl⟩ | ⟨tile, rfl, htile, rfl, rfl⟩ | ⟨ty, scl, kv, tile, a, b, rfl, h⟩
    | ⟨ty, scl, kv, tile, a, b, rfl, h⟩ | ⟨n, a, rfl, h⟩ | ⟨n, rfl, h⟩ | ⟨r, a, rfl, h⟩ | ⟨a, b, rfl, h⟩ := h
  · refine perStream_stops ht hm ⟨{ cause := .illegalInstr, detail := 5 }, ?_, ⟨rfl, nofun⟩, rfl, rfl, nofun⟩
    by_cases hdeep : 3 ≤ m.loops.length ∨ (m.loops.any fun e => e.1 == k) = true
    · exact if_pos hdeep
    · have hnext := (hloop.resolve_left fun h => hdeep (.inl h)).resolve_left fun ⟨e, he, hk⟩ =>
        hdeep (.inr (List.any_eq_true.2 ⟨e, he, beq_iff_eq.2 hk⟩))
      dsimp only
      rw [if_neg hdeep, hnext]
  · refine perStream_stops ht hm ⟨{ cause := .illegalInstr, detail := 5 }, ?_, ⟨rfl, nofun⟩, rfl, rfl, nofun⟩
    dsimp only
    cases hl : m.loops with
    | nil => rfl
    | cons e rest => exact if_pos (hopen e (by rw [hl]; rfl))
  · exact perStream_stops ht hm ⟨tileTrap, if_pos (by simpa [Team.tileOk] using htile), ⟨rfl, nofun⟩, rfl, rfl, nofun⟩
  · exact perStream_stops ht hm (multiply_trap (kv := kv) h)
  · exact perStream_stops ht hm (multiply_trap (kv := kv) h)
  · exact perStream_stops ht hm (BarRes.stream_stops _ (t.barWait_pageless ..) h)
  · exact perStream_stops ht hm (BarRes.stream_stops _ (t.barArrive_pageless ..) h)
  · exact perStream_stops ht hm (BarRes.stream_stops _ (t.ringAcquire_pageless ..) h)
  · exact perStream_stops ht hm (BarRes.stream_stops _ (t.ringFinish_pageless ..) h)

/-- R349, R351, R419, R420, R423. -/
theorem streamTraps : Rules.StreamTraps := by
  intro i s t m c d ht hm hn hf hfa hq h core
  obtain ⟨e, hrun, he, rfl, rfl, hmem⟩ := exec_streamFails ht hm h
  rw [← State.team?_id ht] at ht
  exact ⟨_, hrun, State.streamTrap_ended ht hm hn hf hfa hq he hmem⟩

/-- Settles O29: an instruction that waits holds the stream before it; each failed check is one trap, and every trap of a stream ends
its context with the record of its instruction. -/
theorem streamStops : Obligations.StreamStops := ⟨streamHolds, streamTraps⟩

end Sys2Proof.Machine
end

section
/-!
SUPPORT. A window that is not in canonical form: what a field of 0 written over it reads. Refutes O50.
-/
namespace Sys2Proof.Machine

/-- A team with one quarter, whose window of 16 bytes names the low byte of TEXP of its object at offset 0 twice. -/
def doubledWindow : Team :=
  { id := 0, ctx := 0, launch := 0, no := 0, cores := [0], logical := 0, spsize := 16, tiles := 0, barbase := 0, roles := []
    slots := [], det := false, spad := [(6, 1), (6, 2)] }

/-- `binit` of the object for 256 arrivals: the byte of 0 takes away the first entry, and the second is read. -/
theorem barInit_doubledWindow : ∀ u v, doubledWindow.barInit 0 256 = .ok u v → u.rd 6 2 = 258 := by
  rintro u v h
  obtain ⟨rfl, -⟩ := BarRes.ok.inj (h.symm.trans rfl)
  decide +kernel

/-- R143 to R150 of every window, whatever its form. -/
theorem not_barriers : ¬ Rules.Barriers := by
  intro h
  obtain ⟨-, -, hobject, -⟩ := h doubledWindow 0 256 0 false
  obtain ⟨-, -, hinit, -⟩ := hobject (by decide) (by decide) (by decide)
  obtain ⟨u, hu, ⟨-, -, htexp, -⟩, -⟩ := hinit (by decide) (by decide) (by decide) (by decide)
  exact absurd (htexp.symm.trans (barInit_doubledWindow u 0 hu)) (by decide)

/-- Refutes O50: that the fields written to an object read back rests on the canonical form of the window (`Store.wf`), which the
statement does not ask for. The window of `doubledWindow` names the low byte of TEXP twice; the 0 that `binit` for 256 arrivals writes
there takes away one entry, and TEXP reads 258. -/
theorem not_windowObjects : ¬ Obligations.WindowObjects := fun h => not_barriers h.1

end Sys2Proof.Machine
end

section
/-!
SUPPORT. One element of a siphon's copy (R156 to R158): its place in the scratchpad and its address, what its access leaves of the
copies of the device, and the two ways in which it is moved. Settles O8.
-/
namespace Sys2Proof.Machine

/-! ### What an element's access leaves of the copies and the teams -/

theorem besideL2.copies {s t : State} (h : besideL2 s t) : t.copies = s.copies := by have := congrArg State.copies h; exact this
theorem besideL2.teams {s t : State} (h : besideL2 s t) : t.teams = s.teams := by have := congrArg State.teams h; exact this

theorem besideL2.rdByte {s t : State} (h : besideL2 s t) (q : Place) : t.rdByte q = s.rdByte q := rdByte_of_mem h.mem h.sysMem q

theorem State.rdBytes_of_rdByte {s t : State} (h : ∀ q, t.rdByte q = s.rdByte q) (n : Nat) : ∀ p, t.rdBytes p n = s.rdBytes p n := by
  induction n with
  | zero => exact fun _ => rfl
  | succ n ih => exact fun p => by rw [State.rdBytes, State.rdBytes, h, ih]

theorem besideL2.rdRuns {s t : State} (h : besideL2 s t) (runs : Runs) : t.rdRuns runs = s.rdRuns runs := by
  induction runs with
  | nil => rfl
  | cons r rs ih =>
    obtain ⟨_ | p, k, l⟩ := r
    · exact congrArg (List.replicate k 0 ++ ·) ih
    · simp only [State.rdRuns, ih, State.rdBytes_of_rdByte h.rdByte]

theorem State.wrByte_copies (s : State) (p : Place) (x : Byte) : (s.wrByte p x).copies = s.copies := by cases p <;> rfl

theorem State.putRuns_copies (core : Nat) : ∀ (runs : Runs) (s : State) (xs : List Byte), (s.putRuns core runs xs).copies = s.copies
  | [], _, _ => rfl
  | (none, k, _) :: rs, s, xs => State.putRuns_copies core rs s (xs.drop k)
  | (some p, k, _) :: rs, s, xs =>
    (State.putRuns_copies core rs _ (xs.drop k)).trans
      (State.foldl_keeps (P := fun u => u.copies = s.copies) (fun s (e : Byte × Nat) => s.putByte core (p.add e.2) e.1)
        (fun u e hu => (u.wrByte_copies (p.add e.2) e.1).trans hu) _ rfl)

theorem State.setMark_copies (s : State) (ctx core : Nat) (m : Option (Place × Nat × Leaf)) : (s.setMark ctx core m).copies = s.copies := by
  cases m with
  | none => rfl
  | some m =>
    obtain ⟨l1, hd⟩ := (s.homeRuns true [(some m.1, 1, m.2.2)] .kall true).dropLines_eq core m.1 1
    simp only [State.setMark, hd]
    exact (State.wrByte_copies ..).trans (s.homeRuns_beside true [(some m.1, 1, m.2.2)] .kall true).copies

theorem State.mapReads_copies (ctx core : Nat) : ∀ (runs : Runs) (va : Nat) (s : State), (s.mapReads ctx core va runs).copies = s.copies
  | [], _, _ => rfl
  | (some _, k, _) :: rs, va, s => State.mapReads_copies ctx core rs (va + k) s
  | (none, k, _) :: rs, va, s => by
    rw [State.mapReads, State.mapReads_copies ctx core rs]
    cases (s.ctxAt ctx).regionAt va with
    | none => rfl
    | some r => exact (s.tableReads_beside ..).copies

theorem State.feedback_copies (s : State) (ctx who core va : Nat) (runs : Runs) : (s.feedback ctx who core va runs).copies = s.copies := by
  unfold State.feedback
  split
  · exact State.foldl_keeps (P := fun u => u.copies = s.copies) _ (fun u m hu => (u.setMark_copies ctx core m).trans hu) _
      (State.mapReads_copies ctx core runs va s)
  · rfl

theorem State.copyWrites_copies (s : State) (d : Desc) (runs : Runs) : (s.copyWrites d runs).copies = s.copies := by
  unfold State.copyWrites
  split
  · refine State.foldl_keeps (P := fun u => u.copies = s.copies) _ (fun u r hu => ?_) _ rfl
    split
    · exact (u.homeRuns_beside ..).copies.trans hu
    · exact (u.throughRuns_beside _).copies.trans hu
  · exact (s.homeRuns_beside ..).copies

/-! ### The element that a copy moves next, R156 -/

def Copy.column (c : Copy) : Nat := c.done % Desc.e0 c.desc
def Copy.line (c : Copy) : Nat := c.done / Desc.e0 c.desc % Desc.e1 c.desc
def Copy.plane (c : Copy) : Nat := c.done / (Desc.e0 c.desc * Desc.e1 c.desc)
/-- Its offset in the team's window. -/
def Copy.spadAt (c : Copy) : Nat :=
  Desc.soff c.desc + c.line * Desc.ss1 c.desc + c.plane * Desc.ss2 c.desc + c.column * Desc.ssize c.desc
/-- The offset of IDX[i]. -/
def Copy.indexAt (c : Copy) : Nat := Desc.idxoff c.desc + 4 * c.line
/-- The row that it is read from or written to at GADDR. -/
def Copy.row (c : Copy) (t : Team) : Nat :=
  if Desc.gather c.desc then (if c.column = 0 then t.rd c.indexAt 4 else c.index.getD 0) else c.line
def Copy.address (c : Copy) (t : Team) : Nat :=
  (Desc.gaddr c.desc + c.row t * Desc.gs1 c.desc + c.plane * Desc.gs2 c.desc + c.column * Desc.gsize c.desc) % 2 ^ 64
/-- The copy after it. -/
def Copy.moved (c : Copy) (t : Team) : Copy :=
  { c with done := c.done + 1, index := if Desc.gather c.desc then some (c.row t) else none }

/-- What an element reads of the scratchpad beside its own bytes meets no uncorrectable error, and a row that has been begun has its
index. -/
structure Copy.sound (c : Copy) (t : Team) : Prop where
  first : Desc.gather c.desc = true → c.column = 0 → t.spadError c.indexAt 4 = false
  begun : Desc.gather c.desc = true → c.column ≠ 0 → c.index ≠ none
  object : t.spadError (Desc.baroff c.desc) 16 = false

section
variable {s v : State} {c : Copy} {t : Team} {runs : Runs}

/-- IDX[i] of the element's row, as the copy keeps it. -/
theorem Copy.sound.index (h : c.sound t) :
    (if Desc.gather c.desc = true then some (c.rowIndex t c.line c.column) else none) = (c.moved t).index := by
  by_cases hg : Desc.gather c.desc = true
  · have hrow : c.rowIndex t c.line c.column = c.row t := by
      by_cases hj : c.column = 0
      · simp only [Copy.rowIndex, Copy.row, hg, hj, if_true]; rfl
      · obtain ⟨x, hx⟩ := Option.ne_none_iff_exists'.1 (h.begun hg hj)
        simp only [Copy.rowIndex, Copy.row, hg, hj, hx, if_true, if_false, Option.getD_some]
    simp only [Copy.moved, hg, if_true, hrow]
  · simp only [Copy.moved, hg, Bool.false_eq_true, if_false]

theorem Copy.sound.address (h : c.sound t) :
    (Desc.gaddr c.desc + (if Desc.gather c.desc = true then some (c.rowIndex t c.line c.column) else none).getD c.line * Desc.gs1 c.desc
      + c.plane * Desc.gs2 c.desc + c.column * Desc.gsize c.desc) % 2 ^ 64 = c.address t := by
  have hrow : (c.moved t).index.getD c.line = c.row t := by
    by_cases hg : Desc.gather c.desc = true <;> simp [Copy.moved, Copy.row, hg]
  rw [h.index, hrow, Copy.address]

/-- No read of the scratchpad for the element meets an error. -/
theorem Copy.sound.reads (h : c.sound t) (hs : Desc.toSpad c.desc = false → t.spadError c.spadAt (Desc.ssize c.desc) = false) :
    (((if Desc.gather c.desc && (c.column == 0 || c.index.isNone) then [(c.indexAt, 4)] else [])
      ++ (if Desc.toSpad c.desc then [] else [(c.spadAt, Desc.ssize c.desc)])
      ++ [(Desc.baroff c.desc, 16)]).any fun r => t.spadError r.1 r.2) = false := by
  rw [List.any_append, List.any_append, Bool.or_eq_false_iff, Bool.or_eq_false_iff]
  refine ⟨⟨?_, ?_⟩, by simp only [List.any_cons, List.any_nil, Bool.or_false, h.object]⟩
  · split
    · next hi =>
      simp only [Bool.and_eq_true, Bool.or_eq_true, beq_iff_eq, Option.isNone_iff_eq_none] at hi
      have hj : c.column = 0 := hi.2.elim id fun hn => by_contra fun hj => h.begun hi.1 hj hn
      simp only [List.any_cons, List.any_nil, Bool.or_false, h.first hi.1 hj]
    · rfl
  · split
    · rfl
    · next ht => simp only [List.any_cons, List.any_nil, Bool.or_false, hs (Bool.eq_false_iff.2 ht)]

/-! ### Its two ways, R157, R158 -/

/-- An element read at GADDR and written in the team's window. -/
theorem State.copyElement_toSpad (h : c.sound t) (hd : Desc.toSpad c.desc = true) (hp : t.partError c.spadAt (Desc.ssize c.desc) = false)
    (hc : s.copyCheck c { kind := .read, tiled := Desc.tiled c.desc, core := c.core } (c.address t) (Desc.gsize c.desc) = .ok (v, runs)) :
    s.copyElement c t = .ok (((v.homeRuns false runs (Desc.hint c.desc)).feedback c.ctx (v.launchOfTeam c.team) c.core (c.address t)
      runs).updTeam t.id fun t => (t.wr c.spadAt (Desc.ssize c.desc) (c.convert c.done (leNat (v.rdRuns runs)))).land
        (Desc.baroff c.desc) (Desc.dsize c.desc)) (c.moved t).index := by
  have hreads := h.reads fun hf => Bool.noConfusion (hd.symm.trans hf)
  rw [← h.address] at hc
  rw [← h.address, ← h.index]
  refine (if_neg ?_).trans ((if_pos hd).trans ?_)
  · change ¬ ((List.any _ _ || (Desc.toSpad c.desc && t.partError c.spadAt (Desc.ssize c.desc))) = true)
    rw [hp, Bool.and_false, Bool.or_false]
    exact Bool.eq_false_iff.1 hreads
  · dsimp only
    split
    · next heq => cases hc.symm.trans heq
    · next heq =>
      cases hc.symm.trans heq
      rfl

/-- An element read in the team's window and written at GADDR. -/
theorem State.copyElement_toMemory (h : c.sound t) (hd : Desc.toSpad c.desc = false) (hp : t.spadError c.spadAt (Desc.ssize c.desc) = false)
    (hc : s.copyCheck c { kind := .write, bank := Desc.dir c.desc == 2, core := c.core } (c.address t) (Desc.gsize c.desc) = .ok (v, runs)) :
    s.copyElement c t = .ok (((v.copyWrites c.desc runs).putRuns c.core runs
      (leBytes (c.convert c.done (t.rd c.spadAt (Desc.ssize c.desc))) (Desc.gsize c.desc))).updTeam t.id fun t =>
        t.land (Desc.baroff c.desc) (Desc.dsize c.desc)) (c.moved t).index := by
  have hreads := h.reads fun _ => hp
  rw [← h.address] at hc
  rw [← h.index]
  refine (if_neg ?_).trans ((if_neg (Bool.eq_false_iff.1 hd)).trans ?_)
  · change ¬ ((List.any _ _ || (Desc.toSpad c.desc && t.partError c.spadAt (Desc.ssize c.desc))) = true)
    rw [hd, Bool.false_and, Bool.or_false]
    rw [hd] at hreads
    exact Bool.eq_false_iff.1 hreads
  · dsimp only
    split
    · next heq => cases hc.symm.trans heq
    · next heq =>
      cases hc.symm.trans heq
      rfl

end

/-! ### One element of a copy landed -/

/-- The copies after the element at a place of their list has landed. -/
def Copy.passOn (c : Copy) (t : Team) (pos : Nat) (s : State) : State :=
  { s with copies := if c.done + 1 < Desc.elements c.desc then s.copies.set pos (c.moved t) else s.copies.eraseIdx pos }

theorem exec_siphonLand_one {s u : State} {team idx pos : Nat} {c : Copy} {t : Team} (hpos : copyAt team s.copies idx 0 = some pos)
    (hc : s.copies[pos]? = some c) (ht : s.team? c.team = some t) (hw : c.waitOn = none)
    (he : s.copyElement c t = .ok u (c.moved t).index) (hu : u.copies = s.copies) :
    exec (.siphonLand team idx 1) s = .next (c.passOn t pos u) := by
  have hrun : exec (.siphonLand team idx 1) s = .next (s.runCopy pos 1) := by
    show execSiphonLand team idx 1 s = _
    simp only [execSiphonLand, hpos]
    rfl
  have hset : updAt u.copies pos (fun k => { k with done := k.done + 1, index := (c.moved t).index }) = u.copies.set pos (c.moved t) := by
    rw [updAt_eq_set (d := c), List.getD_eq_getElem?_getD, hu, hc]
    rfl
  rw [hrun]
  simp only [State.runCopy, hc, ht, hw, Option.isSome_none, Bool.false_eq_true, if_false, he, hset, Copy.passOn]
  split <;> rfl

/-! ### R144 to R146, R156 to R158 -/

theorem Desc.hint_eq (d : Desc) : Desc.hint d = match Desc.ctl d / 2 ^ 26 % 4 with | 0 => .kall | 1 => .kevict | 2 => .kl2 | _ => .knone := by
  have hb : bits (Desc.ctl d) 27 26 = Desc.ctl d / 2 ^ 26 % 4 := rfl
  have hlt : Desc.ctl d / 2 ^ 26 % 4 < 4 := Nat.mod_lt _ (by decide)
  rw [Desc.hint, hb]
  generalize Desc.ctl d / 2 ^ 26 % 4 = n at hlt
  interval_cases n <;> rfl

theorem Desc.toSpad_iff (d : Desc) : Desc.toSpad d = true ↔ Desc.dir d = 0 := beq_iff_eq

theorem pteLoc_eq (e : DWord) : pteLoc e = e[11] := by
  rw [pteLoc, bit, BitVec.testBit_toNat, BitVec.getLsbD_eq_getElem (by decide)]

theorem State.launchOfTeam_of {s v : State} {k : Nat} {t : Team} (ht : s.team? k = some t) (h : v.teams = s.teams) :
    v.launchOfTeam k = t.launch := by
  have hv : v.team? k = some t := by rw [State.team?, h]; exact ht
  simp only [State.launchOfTeam, hv]

/-- Settles O8: the element is moved by one access, which leaves the copies of the device as they are; the copy then stands at its next
element, or is gone. -/
theorem siphonElements : Obligations.SiphonElements := by
  intro s v team idx pos c t runs hpos hc ht hw d g z j i k row at_ va hfirst hbegun hobject more left counted check hint data
  have hsound : c.sound t := ⟨hfirst, hbegun, hobject⟩
  have hlaunch (u : State) (hu : u.teams = s.teams) : u.launchOfTeam c.team = t.launch := State.launchOfTeam_of ht hu
  have hg : g = Desc.gsize d := by simp only [g, Desc.gsize, Desc.gfmt, d.toSpad_iff]
  have hz : z = Desc.ssize d := by simp only [z, Desc.ssize, Desc.pfmt, d.toSpad_iff]
  have hat : at_ = c.spadAt := by simp only [at_, hz]; rfl
  have hva : va = c.address t := by simp only [va, hg]; rfl
  have haccess {m : Mode} (h : check m) : s.copyCheck c m (c.address t) (Desc.gsize d) = .ok (v, runs) := by
    rw [State.copyCheck, hlaunch s rfl, ← hva, ← hg]; exact h
  have hout (hto : Desc.toSpad d = false) (h : check { kind := .write, bank := Desc.dir d == 2, core := c.core }) (hpart : t.spadError at_ z = false) :
      exec (.siphonLand team idx 1) s = .next (left (((v.copyWrites d runs).putRuns c.core runs data).updTeam t.id counted)) := by
    have he := State.copyElement_toMemory hsound hto (by rw [← hat, ← hz]; exact hpart) (haccess h)
    rw [← hat, ← hz, ← hg] at he
    refine exec_siphonLand_one hpos hc ht hw he ?_
    exact (State.putRuns_copies c.core runs _ data).trans ((v.copyWrites_copies d runs).trans (State.engineCheck_beside h).copies)
  refine ⟨fun hdir hcheck hpart => ?_, fun hdir hcheck hpart => ?_, fun hdir hcheck hpart => ?_⟩
  · have hv := State.engineCheck_beside hcheck
    have he := State.copyElement_toSpad hsound (d.toSpad_iff.2 hdir) (by rw [← hat, ← hz]; exact hpart) (haccess hcheck)
    rw [hlaunch v hv.teams, hv.rdRuns, ← hat, ← hva, Desc.hint_eq, ← hz] at he
    refine exec_siphonLand_one hpos hc ht hw he ?_
    exact (State.feedback_copies ..).trans ((v.homeRuns_beside ..).copies.trans hv.copies)
  · change Desc.dir d = 1 at hdir
    have hwrites : v.copyWrites d runs = v.homeRuns true runs hint :=
      (if_neg (by rw [hdir]; decide)).trans (congrArg (fun h => v.homeRuns true runs h) d.hint_eq)
    rw [← hwrites]
    exact hout (by rw [Desc.toSpad, hdir]; rfl) (by rw [hdir]; exact hcheck) hpart
  · change Desc.dir d = 2 at hdir
    have hwrites : v.copyWrites d runs
        = runs.foldl (fun u r => if r.2.2.entry[11] then u.homeRuns true [r] else u.throughRuns [r]) v :=
      (if_pos hdir).trans (by simp only [pteLoc_eq])
    rw [← hwrites]
    exact hout (by rw [Desc.toSpad, hdir]; rfl) (by rw [hdir]; exact hcheck) hpart

end Sys2Proof.Machine
end

section
/-!
SUPPORT. A write of SAVE or of RESTORE (R427, R432, R436): the cores that it tells, and what it leaves of everything else.
-/
namespace Sys2Proof.Machine

/-- The event of R436 at every core with work of a context. -/
def State.tell (s : State) (n : Nat) : State := (s.coresOf n).foldl State.signal s

theorem State.tell_eq (s : State) (n : Nat) : ∃ cs, s.tell n = { s with cores := cs } := State.signals_eq _ s

theorem State.told_tell {s : State} {n : Nat} {g : Group} (hg : g ∈ s.groups) (hn : g.ctx = n) :
    ((s.tell n).coreAt g.core).ctlPending = true := by
  refine State.signals_pending _ s (.inl (List.mem_eraseDups.2 (List.mem_append_left _ (List.mem_map_of_mem ?_))))
  exact List.mem_filter.2 ⟨hg, beq_iff_eq.2 hn⟩

/-- Where every window is closed, none is to close. -/
theorem State.closeAll_closed {s : State} (h : ∀ v ∈ s.windows, v.closed = true) (core : Nat) : ∀ k, s.closeAll core k = s
  | 0 => rfl
  | k + 1 => by
    have hn : (s.windows.findIdx? fun w => w.core == core && !w.closed) = none :=
      List.findIdx?_eq_none_iff.2 fun w hw => by rw [h w hw, Bool.not_true, Bool.and_false]
    simp only [State.closeAll, hn]

section
variable {s : State} {n : Nat}

theorem State.insideWindow_iff (c : Ctx) : s.insideWindow c.part c.saveBase c.saveBytes = true ↔
    c.savebase.toNat * 2 ^ 12 + c.savesz.toNat % 2 ^ 20 * 2 ^ 12 ≤ winSize (s.partWin.getD c.part 0) * 2 ^ 30 := by
  simp only [State.insideWindow, Ctx.saveBase, Ctx.saveBytes, bits, decide_eq_true_eq, Nat.sub_zero, Nat.pow_zero, Nat.div_one,
    Nat.reduceAdd, Nat.reducePow]

/-- R432: a save area that does not lie in the window abandons the save. -/
theorem State.beginSave_outside (hb : (s.ctxAt n).busy = false) (hs : (s.ctxAt n).saved = false) (hf : (s.ctxAt n).faulted = false)
    (hi : ¬ s.insideWindow (s.ctxAt n).part (s.ctxAt n).saveBase (s.ctxAt n).saveBytes = true) :
    s.beginSave n = s.updCtx n fun c => { c with perr := true } := by
  rw [Bool.not_eq_true] at hi
  simp only [State.beginSave, hb, hs, hf, hi, Bool.or_self, Bool.not_false, Bool.false_eq_true, if_false, if_true]

/-- With no window open and nothing to render, a save that begins marks its context alone. -/
theorem State.beginSave_inside (hb : (s.ctxAt n).busy = false) (hs : (s.ctxAt n).saved = false) (hf : (s.ctxAt n).faulted = false)
    (hi : s.insideWindow (s.ctxAt n).part (s.ctxAt n).saveBase (s.ctxAt n).saveBytes = true) (hw : ∀ v ∈ s.windows, v.closed = true)
    (hl : ∀ l ∈ s.launches, l.render = none) : s.beginSave n = s.updCtx n fun c => { c with busy := true } := by
  have hclose (cores : List Nat) {u : State} (hu : u.windows = s.windows) :
      cores.foldl (fun u core => u.closeAll core u.windows.length) u = u :=
    State.foldl_keeps (P := fun v => v = u) _ (fun v core hv => by rw [hv, State.closeAll_closed (by rw [hu]; exact hw)]) _ rfl
  have hsame : (s.launches.map fun l => if l.ctx = n then { l with render := l.render.map Render.preempt } else l) = s.launches := by
    refine (List.map_congr_left fun l h => ?_).trans (List.map_id _)
    split
    · show { l with render := l.render.map Render.preempt } = l
      rw [show l.render.map Render.preempt = l.render by rw [hl l h]; rfl]
    · rfl
  simp only [State.beginSave, hb, hs, hf, hi, Bool.or_self, Bool.not_true, Bool.false_eq_true, if_false, hclose _ (State.updCtx_windows ..),
    State.updCtx_launches, hsame]
  rfl

/-- R427: a write of SAVE or RESTORE that clears no error tells the cores; SAVE counts where BUSY and SAVED are 0, and else RESTORE. -/
theorem State.writePrectl_tells {w : Wr} (h27 : w.one 27 = false) (h26 : w.one 26 = false) (h : (w.one 31 || w.one 30) = true) :
    s.writePrectl n w = if w.one 31 && !(s.ctxAt n).busy && !(s.ctxAt n).saved then (s.tell n).beginSave n
      else if w.one 30 then (s.tell n).beginRestore n else s.tell n := by
  have hclear : (s.updCtx n fun c => { c with perr := c.perr && !w.one 27, rerr := c.rerr && !w.one 26 }) = s := by
    simp only [h27, h26, Bool.not_false, Bool.and_true]
    rw [State.updCtx, updAt_id]
  simp only [State.writePrectl, hclear, h, if_true]
  rfl

end

/-- R427, R432, R436. -/
theorem saveBegins : Rules.SaveBegins := by
  intro s n w p hw ha hn h27 h26 c inside told
  have hrun : exec (.ctxSave n w) s = .next (s.writePrectl n w) := congrArg Host.Outcome.next (State.writeView_port hw ha)
  have hrun' : exec (.ctxRestore n w) s = .next (s.writePrectl n w) := congrArg Host.Outcome.next (State.writeView_port hw ha)
  have hwrite := State.writePrectl_tells (s := s) (n := n) (Wr.one_of_not_sets h27) (Wr.one_of_not_sets h26)
  obtain ⟨cs, hcs⟩ := s.tell_eq n
  have htold {u : State} (hu : u.cores = (s.tell n).cores) : told u := fun g hg hgn =>
    (congrArg (fun cs => (Assoc.get cs g.core {} : CoreState).ctlPending) hu).trans (State.told_tell hg hgn)
  have hat : (s.tell n).ctxAt n = c := by rw [hcs]; rfl
  refine ⟨fun h31 h30 hno => ⟨_, hrun, ?_⟩, fun h31 h30 hno => ⟨_, hrun', ?_⟩, fun h31 hb hs hf => ?_⟩
  · have hskip : (w.one 31 && !(s.ctxAt n).busy && !(s.ctxAt n).saved) = false := by
      rcases hno with h | h
      · rw [show (s.ctxAt n).busy = true from h, Bool.not_true, Bool.and_false, Bool.false_and]
      · rw [show (s.ctxAt n).saved = true from h, Bool.not_true, Bool.and_false]
    rw [hwrite (by rw [Wr.one_of_sets h31]; rfl), hskip, Wr.one_of_not_sets h30, if_neg Bool.false_ne_true, if_neg Bool.false_ne_true]
    exact ⟨by rw [hcs], htold rfl⟩
  · have hskip : (!((s.tell n).ctxAt n).saved || ((s.tell n).ctxAt n).busy) = true := by
      rw [hat]
      rcases hno with h | h
      · rw [h, Bool.or_true]
      · rw [h]; rfl
    have hrest : (s.tell n).beginRestore n = s.tell n := if_pos hskip
    rw [hwrite (by rw [Wr.one_of_sets h30, Bool.or_true]), Wr.one_of_not_sets h31, Wr.one_of_sets h30, Bool.false_and, Bool.false_and,
      if_neg Bool.false_ne_true, if_pos rfl, hrest]
    exact ⟨by rw [hcs], htold rfl⟩
  · have hgo : (w.one 31 && !(s.ctxAt n).busy && !(s.ctxAt n).saved) = true := by
      rw [Wr.one_of_sets h31, show (s.ctxAt n).busy = false from hb, show (s.ctxAt n).saved = false from hs]; rfl
    have hsave : s.writePrectl n w = (s.tell n).beginSave n := by
      rw [hwrite (by rw [Wr.one_of_sets h31]; rfl), if_pos hgo]
    have hin : inside ↔ (s.tell n).insideWindow ((s.tell n).ctxAt n).part ((s.tell n).ctxAt n).saveBase ((s.tell n).ctxAt n).saveBytes = true := by
      rw [State.insideWindow_iff, hat, hcs]
    have hlen : n < (s.tell n).ctx.length := by rw [hcs]; exact hn
    refine ⟨fun hi => ⟨_, hrun, ?_⟩, fun hi hwin hl => ⟨_, hrun, ?_⟩⟩
    · rw [hsave, State.beginSave_outside (by rw [hat]; exact hb) (by rw [hat]; exact hs) (by rw [hat]; exact hf) (mt hin.2 hi)]
      exact ⟨(State.ctxAt_updCtx_same _ hlen).trans (by rw [hat]), by rw [hcs]; rfl, htold rfl⟩
    · rw [hsave, State.beginSave_inside (by rw [hat]; exact hb) (by rw [hat]; exact hs) (by rw [hat]; exact hf) (hin.1 hi)
        (by rw [hcs]; exact hwin) (by rw [hcs]; exact hl)]
      exact ⟨(State.ctxAt_updCtx_same _ hlen).trans (by rw [hat]), by rw [hcs]; rfl, htold rfl⟩

end Sys2Proof.Machine
end

section
/-!
SUPPORT. What a save needs, takes, frees and writes (R428 to R433): the lemmas that the save of a context and that of a control core
share.
-/
namespace Sys2Proof.Machine

/-! ### The bound of R432 -/

theorem savesNeed_eq (ts : List Team) : savesNeed ts = 64 + (ts.map saveNeed).sum := by
  have h : ∀ (ts : List Team) (a : Nat), ts.foldl (fun a t => a + saveNeed t) a = a + (ts.map saveNeed).sum := by
    intro ts
    induction ts with
    | nil => exact fun _ => rfl
    | cons t ts ih => intro a; rw [List.foldl_cons, ih, List.map_cons, List.sum_cons, Nat.add_assoc]
  exact h ts 64

theorem savesNeed_ge (ts : List Team) : 64 ≤ savesNeed ts := by rw [savesNeed_eq]; omega

theorem savesNeed_sublist {ts us : List Team} (h : ts.Sublist us) : savesNeed ts ≤ savesNeed us := by
  rw [savesNeed_eq, savesNeed_eq]
  exact Nat.add_le_add_left ((h.map saveNeed).sum_le_sum fun _ _ => Nat.zero_le _) 64

/-- What a save needs of its bound is a free value, and lies within it. -/
theorem State.choose_need (s : State) (ts : List Team) : 64 + (s.choose (savesNeed ts - 63)).1 ≤ savesNeed ts := by
  have h := savesNeed_ge ts
  have hlt : (s.choose (savesNeed ts - 63)).1 < savesNeed ts - 63 := by
    simp only [State.choose]
    rw [if_neg (by omega)]
    exact Nat.mod_lt _ (by omega)
  omega

/-- The bytes that a save takes, whole pages. -/
theorem roundUp_page (n : Nat) : roundUp n 4096 % 4096 = 0 ∧ n ≤ roundUp n 4096 ∧ roundUp n 4096 < n + 4096 := by
  simp only [roundUp, ceilDiv]
  omega

theorem State.ueIn_of_le {s : State} {a m n : Nat} (h : m ≤ n) (hm : s.ueIn (.dev a) m ≠ none) : s.ueIn (.dev a) n ≠ none := by
  simp only [State.ueIn, ne_eq, List.find?_eq_none, Bool.and_eq_true, decide_eq_true_eq, not_forall, not_not] at hm ⊢
  obtain ⟨e, he, h1, h2⟩ := hm
  exact ⟨e, he, by omega, h2⟩

/-! ### The teams of a save -/

/-- The names of some teams. -/
def hasName (ts : List Team) (k : Nat) : Bool := ts.any fun t => t.id == k

theorem contains_ids (ts : List Team) (k : Nat) : (ts.map (·.id)).contains k = hasName ts k := by
  rw [Bool.eq_iff_iff]
  simp only [hasName, List.contains_iff_mem, List.mem_map, List.any_eq_true, beq_iff_eq]

/-- The teams that bear a name of some of them bear no other names. -/
theorem hasName_filter {us ts : List Team} (h : ∀ t ∈ ts, t ∈ us) (k : Nat) : hasName (us.filter fun u => hasName ts u.id) k = hasName ts k := by
  rw [Bool.eq_iff_iff]
  simp only [hasName, List.any_eq_true, List.mem_filter, beq_iff_eq]
  constructor
  · rintro ⟨u, ⟨-, t, ht, e⟩, rfl⟩
    exact ⟨t, ht, e⟩
  · rintro ⟨t, ht, rfl⟩
    exact ⟨t, ⟨h t ht, t, ht, rfl⟩, rfl⟩

section
variable (s : State) (n at_ : Nat) (ts : List Team)

/-- What the save of some teams takes. -/
theorem State.gather_ids : let v := s.gather n at_ (ts.map (·.id))
    v.ctx = n ∧ v.at_ = at_ ∧ v.teams = s.teams.filter (fun u => hasName ts u.id)
      ∧ v.groups = (s.groups.filter fun g => hasName ts g.team).map (fun g => { g with lanes := g.lanes.map (s.atRestLane g) })
      ∧ v.copies = s.copies.filter (fun k => hasName ts k.team) ∧ v.tasks = s.wells.filter (fun k => hasName ts k.2.team) := by
  simp only [State.gather, contains_ids, and_self]

/-- What the release of a save leaves (R431): all that is not of its teams, and of the context all but the held records. -/
theorem State.release_eq (v : Saved) : ∃ (cs : List (Nat × CoreState)) (f : List HeldTrap → List HeldTrap), s.release n v = { s with
    teams := s.teams.filter fun u => !hasName v.teams u.id
    groups := s.groups.filter fun g => !hasName v.teams g.team
    copies := s.copies.filter fun k => !hasName v.teams k.team
    wells := s.wells.filter fun k => !hasName v.teams k.2.team
    cores := cs
    ctx := updAt s.ctx n fun c => { c with held := f c.held } } := by
  simp only [State.release, contains_ids]
  generalize hu : State.mk .. = u
  obtain ⟨cs, hcs⟩ : ∃ cs, (if (s.ctxAt n).held.head?.any (fun h => (v.groups.map fun g => (g.core, g.slot)).contains (h.core, h.slot)) = true
      then u.showHeld n else u) = { u with cores := cs } := by
    split
    · exact u.showHeld_eq n
    · exact ⟨u.cores, rfl⟩
  obtain ⟨ds, hds⟩ := State.showOthers_eq ((v.groups.map fun g => (g.core, g.slot)).map (·.1)).eraseDups { u with cores := cs }
  rw [hcs, hds, ← hu]
  exact ⟨ds, _, rfl⟩

end

/-! ### The bytes of a save, R433 -/

/-- Bytes written to device memory, where only it and what L2 knows change. -/
theorem State.wrBytes_dev_eq (s : State) (a : Nat) (xs : List Byte) :
    ∃ l2, s.wrBytes (.dev a) xs = { s with mem := Store.setAll s.mem a xs, l2 := l2 } := by
  refine ⟨(s.wrBytes (.dev a) xs).l2, ?_⟩
  rw [← Store.wrBytes_dev]
  exact congrArg (fun u : State => { u with mem := (s.wrBytes (.dev a) xs).mem, l2 := (s.wrBytes (.dev a) xs).l2 })
    (State.wrBytes_dev_frame a xs s)

theorem State.writeSave_eq (s : State) (pa bytes slot teams tasks : Nat) : ∃ (body : List Byte) (l2 : List L2Line) (ce : List Nat)
    (ch : List Channel) (ps : List (Nat × List Byte)), body.length = bytes - 64
      ∧ s.writeSave pa bytes slot teams tasks = { s with
          mem := Store.setAll s.mem pa (saveHeader bytes teams slot tasks (xorSum body) ++ body)
          l2 := l2, ce := ce, chan := ch, past := ps, free := s.free + 1 } := by
  unfold State.writeSave
  generalize 2 ^ (8 * (bytes - 64)) = k
  obtain ⟨l2, ce, ch, ps, hr⟩ := State.homeRange_unkept { s with free := s.free + 1 } (.dev pa) bytes true false false
  obtain ⟨l2', hw⟩ := State.wrBytes_dev_eq { s with free := s.free + 1, l2 := l2, ce := ce, chan := ch, past := ps } pa
    (saveHeader bytes teams slot tasks (xorSum (leBytes (s.choose k).1 (bytes - 64))) ++ leBytes (s.choose k).1 (bytes - 64))
  refine ⟨leBytes (s.choose k).1 (bytes - 64), l2', ce, ch, ps, leBytes_length .., ?_⟩
  change (State.homeRange { s with free := s.free + 1 } (.dev pa) bytes true false false).wrBytes _ _ = _
  rw [hr]
  exact hw

/-- Bytes inside those written are read back. -/
theorem Store.getAll_setAll_inside {m : Store 8} {a k n : Nat} {xs : List Byte} (hm : m.wf = true) (h : k + n ≤ xs.length) :
    (m.setAll a xs).getAll (a + k) n = (xs.drop k).take n := by
  have hall := Store.getAll_setAll m a xs hm
  rw [Store.getAll_eq_map] at hall ⊢
  refine Eq.trans ?_ (congrArg (fun ys : List Byte => (ys.drop k).take n) hall)
  refine List.ext_getElem (by simp only [List.length_map, List.length_range, List.length_take, List.length_drop]; omega) fun j h1 h2 => ?_
  simp only [List.getElem_map, List.getElem_range, List.getElem_take, List.getElem_drop, Nat.add_assoc]

/-- The fields of a save's header, as memory in canonical form reads them back. -/
theorem saveHeader_read {m : Store 8} {pa bytes teams slot tasks sum : Nat} {body : List Byte} (hm : m.wf = true) :
    let m' := m.setAll pa (saveHeader bytes teams slot tasks sum ++ body)
    leNat (m'.getAll pa 4) = 0x5C040A11 ∧ leNat (m'.getAll (pa + 8) 4) = (slot + teams * 2 ^ 16) % 2 ^ 32
      ∧ leNat (m'.getAll (pa + 12) 4) = tasks % 2 ^ 32 := by
  have hread (k : Nat) (hk : k ≤ 16) : (m.setAll pa (saveHeader bytes teams slot tasks sum ++ body)).getAll (pa + k) 4
      = ((saveHeader bytes teams slot tasks sum ++ body).drop k).take 4 :=
    Store.getAll_setAll_inside hm (by simp only [saveHeader, List.length_append, leBytes_length, List.length_replicate]; omega)
  refine ⟨?_, ?_, ?_⟩
  · exact (congrArg leNat (hread 0 (by decide))).trans (leNat_leBytes saveMagic 4)
  · exact (congrArg leNat (hread 8 (by decide))).trans (leNat_leBytes (slot + teams * 2 ^ 16) 4)
  · exact (congrArg leNat (hread 12 (by decide))).trans (leNat_leBytes tasks 4)

/-! ### Some teams taken, released and written -/

/-- What stands after the save of some teams of the device is written: theirs is gone, and but for the memory, what L2 knows of it and
the held records of the context, everything else is as it was. -/
theorem State.takeSave_eq {s : State} {n at_ : Nat} {ts : List Team} (h : ∀ t ∈ ts, t ∈ s.teams) (pa bytes slot teams tasks : Nat) :
    ∃ (cs : List (Nat × CoreState)) (f : List HeldTrap → List HeldTrap) (body : List Byte) (l2 : List L2Line) (ce : List Nat)
      (ch : List Channel) (ps : List (Nat × List Byte)), body.length = bytes - 64
      ∧ (s.release n (s.gather n at_ (ts.map (·.id)))).writeSave pa bytes slot teams tasks = { s with
        teams := s.teams.filter fun u => !hasName ts u.id
        groups := s.groups.filter fun g => !hasName ts g.team
        copies := s.copies.filter fun k => !hasName ts k.team
        wells := s.wells.filter fun k => !hasName ts k.2.team
        cores := cs
        ctx := updAt s.ctx n fun c => { c with held := f c.held }
        mem := Store.setAll s.mem pa (saveHeader bytes teams slot tasks (xorSum body) ++ body)
        l2 := l2, ce := ce, chan := ch, past := ps, free := s.free + 1 } := by
  obtain ⟨-, -, hteams, -⟩ := s.gather_ids n at_ ts
  obtain ⟨cs, f, hrel⟩ := s.release_eq n (s.gather n at_ (ts.map (·.id)))
  have hnames : hasName (s.gather n at_ (ts.map (·.id))).teams = hasName ts := funext fun k => by rw [hteams, hasName_filter h]
  rw [hnames] at hrel
  obtain ⟨body, l2, ce, ch, ps, hlen, hw⟩ := State.writeSave_eq (s.release n (s.gather n at_ (ts.map (·.id)))) pa bytes slot teams tasks
  rw [hrel] at hw
  exact ⟨cs, f, body, l2, ce, ch, ps, hlen, by rw [hrel]; exact hw⟩

end Sys2Proof.Machine
end

section
/-!
SUPPORT. The save of a context that is at rest, where none of its launches renders (R427 to R433).
-/
namespace Sys2Proof.Machine

/-- A fold whose steps change nothing. -/
theorem foldl_stays {α β : Type} {f : β → α → β} {b : β} : ∀ l : List α, (∀ a ∈ l, f b a = b) → l.foldl f b = b
  | [], _ => rfl
  | a :: l, h => by
    rw [List.foldl_cons, h a (by simp)]
    exact foldl_stays l fun x hx => h x (by simp [hx])

section
variable {s : State} {n : Nat}

/-! ### Launches that do not render -/

theorem State.emptyLaunches_none : ∀ ls : List Launch, (∀ l ∈ ls, l.render = none) → s.emptyLaunches ls = (s, true)
  | [], _ => rfl
  | l :: ls, h => by
    have hl : s.emptyCisterns l = (s, true) := by simp only [State.emptyCisterns, h l (by simp)]
    simp only [State.emptyLaunches, hl, State.emptyLaunches_none ls fun m hm => h m (by simp [hm])]

theorem State.endDicings_none (h : ∀ l ∈ s.launches, l.render = none) : s.endDicings n = s :=
  foldl_stays _ fun l hl => by simp only [h l (List.mem_of_mem_filter hl)]

/-- R428, R429: nothing of the context runs any more. -/
theorem State.atRest_iff (h : ∀ l ∈ s.launches, l.render = none) : s.atRest n = true ↔
    (∀ g ∈ s.groups, g.ctx = n → s.quiescent g = true) ∧ (∀ k ∈ s.copies, k.ctx = n → k.waitOn ≠ none)
      ∧ ∀ l ∈ s.launches, l.ctx = n → ¬(l.allPlaced = true ∧ s.teamsLeft l.id = false ∧ l.committed = false ∧ l.table ≠ []) := by
  have hl : (s.launches.all fun l => l.ctx != n || (s.dicersDone l && !s.commitDue l)) = true ↔
      ∀ l ∈ s.launches, l.ctx = n → ¬(l.allPlaced = true ∧ s.teamsLeft l.id = false ∧ l.committed = false ∧ l.table ≠ []) := by
    rw [List.all_eq_true]
    refine forall₂_congr fun l hl => ?_
    simp only [State.dicersDone, h l hl, State.commitDue, Bool.true_and]
    cases l.allPlaced <;> cases s.teamsLeft l.id <;> cases l.committed <;> simp [Classical.or_iff_not_imp_left]
  rw [State.atRest, Bool.and_eq_true, Bool.and_eq_true, hl, and_assoc]
  simp [Classical.or_iff_not_imp_left, Option.isSome_iff_ne_none]

theorem exec_saveComplete_not {n : Nat} (h : (s.ctxAt n).saving = false ∨ s.atRest n = false) : exec (.saveComplete n) s = .next s := by
  have hno : (!(s.ctxAt n).saving || !s.atRest n) = true := by
    rcases h with h | h
    · rw [h]; rfl
    · rw [h, Bool.not_false, Bool.or_true]
  exact congrArg Host.Outcome.next (if_pos hno)

theorem exec_saveComplete {n : Nat} (h : (s.ctxAt n).saving = true) (hr : s.atRest n = true) (hl : ∀ l ∈ s.launches, l.render = none) :
    exec (.saveComplete n) s = .next (s.finishSave n) := by
  show execSaveComplete n s = _
  simp only [execSaveComplete, h, hr, Bool.not_true, Bool.or_self, Bool.false_eq_true, if_false,
    State.emptyLaunches_none _ fun l hm => hl l (List.mem_of_mem_filter hm), Bool.and_self, if_true]
  rfl

/-! ### The save written -/

/-- The bytes that the save of a context takes. -/
def State.saveTakes (s : State) (n : Nat) : Nat :=
  roundUp (64 + (s.choose (savesNeed ((s.teams.filter fun t => t.ctx == n)
    ++ ((s.saves.filter fun v => v.ctx == n).map (·.teams)).flatten) - 63)).1) 4096

/-- The state of the save's writes: one free value has been taken. -/
def State.chosen (s : State) : State := { s with free := s.free + 1 }

theorem State.chosen_tables (s : State) : SameTables s s.chosen := ⟨rfl, rfl, rfl, rfl, rfl, rfl, rfl, rfl, rfl, rfl⟩

theorem State.fetchWords_chosen (s : State) (ctx core : Nat) : ∀ n va, s.chosen.fetchWords ctx core n va = s.fetchWords ctx core n va
  | 0, _ => rfl
  | n + 1, va => by
    have hword : s.chosen.fetchWord ctx core va = s.fetchWord ctx core va := by
      simp only [State.fetchWord, s.chosen_tables.translate]
      rfl
    simp only [State.fetchWords, hword, State.fetchWords_chosen s ctx core n]

theorem State.atRestLane_chosen (s : State) : s.chosen.atRestLane = s.atRestLane := by
  funext g t
  simp only [State.atRestLane, State.fetchHeader, s.fetchWords_chosen]

theorem State.choose_eq (s : State) (k : Nat) : s.choose k = ((s.choose k).1, s.chosen) := rfl

/-- The save that stands for a context of which no part was saved before, the state with its bytes written, and the end of it. -/
def State.wholeSave (s : State) (n : Nat) : Saved := s.chosen.gather n 0 ((s.teams.filter fun t => t.ctx == n).map (·.id))
def State.wroteSave (s : State) (n pa : Nat) : State :=
  (s.chosen.release n (s.wholeSave n)).writeSave pa (s.saveTakes n) n (s.wholeSave n).teams.length (s.wholeSave n).tasks.length
def State.savedAs (s : State) (n : Nat) (v : Saved) : State :=
  State.updCtx { s with saves := s.saves.filter (fun v => v.ctx != n) ++ [v], images := v :: s.images } n
    fun c => { c with busy := false, saved := true }

/-- A save whose bytes stand at a device address. -/
def Saved.standing (v : Saved) (pa : Nat) (image : List Byte) : Saved := { v with at_ := pa, image }

/-- A save that fits, of a context of which no part was saved before, meets an uncorrectable error, or is written whole. -/
theorem State.finishSave_fits {pa : Nat} (hsaves : ∀ v ∈ s.saves, v.ctx ≠ n) (hl : ∀ l ∈ s.launches, l.render = none)
    (hw : s.window (s.ctxAt n).part (s.ctxAt n).saveBase = some pa)
    (hfit : savesNeed ((s.teams.filter fun t => t.ctx == n) ++ ((s.saves.filter fun v => v.ctx == n).map (·.teams)).flatten)
      ≤ (s.ctxAt n).saveBytes) :
    s.finishSave n = (s.ueIn (.dev pa) (s.saveTakes n)).elim
      ((s.wroteSave n pa).savedAs n ((s.wholeSave n).standing pa ((s.wroteSave n pa).rdBytes (.dev pa) (s.saveTakes n))))
      (fun e => (s.chosen.noteUe e).endContext n 0) := by
  have hparts : s.saves.filter (fun v => v.ctx == n) = [] := List.filter_eq_nil_iff.2 fun v hv => by simpa using hsaves v hv
  unfold State.finishSave
  extract_lets c most
  have hneed : 64 + (s.choose (most - 63)).1 ≤ (s.ctxAt n).saveBytes := (s.choose_need _).trans hfit
  have hbytes : s.saveTakes n = roundUp (64 + (s.choose (most - 63)).1) 4096 := rfl
  rw [State.choose_eq]
  generalize (s.choose (most - 63)).1 = x at hbytes hneed ⊢
  refine (if_neg (Nat.not_lt.2 hneed)).trans ?_
  split
  · next h => cases hw.symm.trans h
  · next h =>
    cases hw.symm.trans h
    extract_lets bytes u parts v tasks teams r all t
    have he : s.chosen.ueIn (.dev pa) bytes = s.ueIn (.dev pa) (s.saveTakes n) := congrArg (s.ueIn (.dev pa)) hbytes.symm
    split
    · next h => rw [← he, h]; rfl
    · next h =>
      rw [← he, h]
      have hu : u = s.chosen := State.endDicings_none hl
      have hp : parts = [] := (congrArg (fun u : State => u.saves.filter fun v => v.ctx == n) hu).trans hparts
      have hb : bytes = s.saveTakes n := hbytes.symm
      clear_value u parts bytes
      subst hu hp hb
      rfl

/-- The bytes that a save takes are a page or more, and not more than its area where its teams' bound fits there. -/
theorem State.saveTakes_bounds {size : Nat} (hsaves : ∀ v ∈ s.saves, v.ctx ≠ n)
    (hfit : savesNeed (s.teams.filter fun t => t.ctx == n) ≤ size) (hsize : size % 4096 = 0) :
    4096 ≤ s.saveTakes n ∧ s.saveTakes n ≤ size := by
  have hparts : s.saves.filter (fun v => v.ctx == n) = [] := List.filter_eq_nil_iff.2 fun v hv => by simpa using hsaves v hv
  have hneed := s.choose_need (s.teams.filter fun t => t.ctx == n)
  simp only [State.saveTakes, hparts, List.map_nil, List.flatten_nil, List.append_nil]
  generalize (s.choose _).1 = x at hneed
  obtain ⟨h0, h1, h2⟩ := roundUp_page (64 + x)
  omega

/-- A context whose save meets an uncorrectable error ends, and memory is as it was. -/
theorem State.endContext_noteUe (hn : n < s.ctx.length) (e : Nat) : (((s.noteUe e).endContext n 0).ctxAt n).faulted = true
    ∧ (∀ g ∈ ((s.noteUe e).endContext n 0).groups, g.ctx ≠ n) ∧ ((s.noteUe e).endContext n 0).mem = s.mem := by
  refine ⟨?_, fun g hg => ?_, State.endContext_mem ..⟩
  · rw [State.endContext_ctxAt_same 0 (show n < (s.noteUe e).ctx.length from hn)]
    exact Ctx.ended_faulted ..
  · obtain ⟨cs, h⟩ := (s.noteUe e).endContext_eq n 0
    rw [h] at hg
    simpa using (List.mem_filter.1 hg).2

theorem State.ctxAt_of_updAt {u : State} {f : Ctx → Ctx} (h : u.ctx = updAt s.ctx n f) (hn : n < s.ctx.length) :
    u.ctxAt n = f (s.ctxAt n) := by
  rw [State.ctxAt, h]
  exact updAt_getD_same _ _ hn

/-- What the end of a save leaves. -/
theorem State.savedAs_ctxAt {v : Saved} (h : n < s.ctx.length) : (s.savedAs n v).ctxAt n = { s.ctxAt n with busy := false, saved := true } :=
  State.ctxAt_updCtx_same _ h

theorem State.savedAs_rdBytes {v : Saved} (a k : Nat) : (s.savedAs n v).rdBytes (.dev a) k = s.rdBytes (.dev a) k := by
  rw [Store.rdBytes_dev, Store.rdBytes_dev]
  rfl

/-- What stands when the bytes of a save are written. -/
theorem State.wroteSave_frame (s : State) (n pa : Nat) : let mine := hasName (s.teams.filter fun t => t.ctx == n)
    let u := s.wroteSave n pa
    (∃ f : List HeldTrap → List HeldTrap, u.ctx = updAt s.ctx n fun c => { c with held := f c.held })
      ∧ u.saves = s.saves ∧ u.images = s.images ∧ u.teams = s.teams.filter (fun t => !mine t.id)
      ∧ u.groups = s.groups.filter (fun g => !mine g.team) ∧ u.copies = s.copies.filter (fun k => !mine k.team)
      ∧ u.wells = s.wells.filter (fun k => !mine k.2.team)
      ∧ ∃ body, u.mem = Store.setAll s.mem pa (saveHeader (s.saveTakes n) (s.wholeSave n).teams.length n (s.wholeSave n).tasks.length
          (xorSum body) ++ body) := by
  obtain ⟨cs, f, body, l2, ce, ch, ps, -, hwrote⟩ := State.takeSave_eq (s := s.chosen) (n := n) (at_ := 0)
    (ts := s.teams.filter fun t => t.ctx == n)
    (fun t ht => List.mem_of_mem_filter ht) pa (s.saveTakes n) n (s.wholeSave n).teams.length (s.wholeSave n).tasks.length
  change s.wroteSave n pa = _ at hwrote
  simp only [hwrote]
  exact ⟨⟨f, rfl⟩, rfl, rfl, rfl, rfl, rfl, rfl, body, rfl⟩

end

theorem Ctx.saving_iff {c : Ctx} : c.saving = true ↔ c.busy = true ∧ c.saved = false := by
  rw [Ctx.saving, Bool.and_eq_true, Bool.not_eq_true']

theorem hasName_of_mem {t : Team} {ts : List Team} (h : t ∈ ts) : hasName ts t.id = true :=
  List.any_eq_true.2 ⟨t, h, beq_self_eq_true _⟩

/-- The teams of a context are among those that bear their names. -/
theorem named_sublist (ts : List Team) (n : Nat) : (ts.filter fun t => t.ctx == n).Sublist
    (ts.filter fun u => hasName (ts.filter fun t => t.ctx == n) u.id) := by
  have hall : (ts.filter fun t => t.ctx == n)
      = (ts.filter fun u => hasName (ts.filter fun t => t.ctx == n) u.id).filter fun t => t.ctx == n := by
    rw [List.filter_filter]
    refine List.filter_congr fun t ht => ?_
    by_cases hn : (t.ctx == n) = true
    · rw [hn, Bool.true_and]
      exact (hasName_of_mem (List.mem_filter.2 ⟨ht, hn⟩)).symm
    · rw [Bool.eq_false_iff.2 hn, Bool.false_and]
  have hsub := List.filter_sublist (p := fun t => t.ctx == n) (l := ts.filter fun u => hasName (ts.filter fun t => t.ctx == n) u.id)
  rwa [← hall] at hsub

/-- R427 to R433. -/
theorem saveCompletes : Rules.SaveCompletes := by
  intro s n pa h64 hn hl c ts mine all still
  refine ⟨fun _ _ h => exec_saveComplete_not (.inr ?_), fun h => exec_saveComplete_not (.inl ?_), ?_⟩
  · exact Bool.eq_false_iff.2 fun hr => h ((State.atRest_iff hl).1 hr)
  · rw [Bool.eq_false_iff, Ne, Ctx.saving_iff]
    rintro ⟨h1, h2⟩
    rcases h with h | h
    · rw [h] at h1; cases h1
    · rw [h] at h2; cases h2
  · intro hb hs hrest hsaves hw size hneed hmem
    have hrun := exec_saveComplete (Ctx.saving_iff.2 ⟨hb, hs⟩) ((State.atRest_iff hl).2 hrest) hl
    have hsize : (s.ctxAt n).saveBytes = size := by
      simp only [Ctx.saveBytes, bits, Nat.sub_zero, Nat.pow_zero, Nat.div_one, Nat.reduceAdd, size, c, Nat.reducePow]
    have hfit : savesNeed ts ≤ size := (savesNeed_sublist (named_sublist s.teams n)).trans hneed
    have hparts : s.saves.filter (fun v => v.ctx == n) = [] := List.filter_eq_nil_iff.2 fun v hv => by simpa using hsaves v hv
    obtain ⟨hpage, harea⟩ := State.saveTakes_bounds hsaves hfit (Nat.mul_mod_left ..)
    have hend := State.finishSave_fits (pa := pa) hsaves hl hw
      (by rw [hparts, hsize]; simpa using hfit)
    rw [hend] at hrun
    refine ⟨fun hue => ?_, fun hok => ?_⟩
    · obtain ⟨e, he⟩ := Option.ne_none_iff_exists'.1 (State.ueIn_of_le hpage hue)
      rw [he, Option.elim_some] at hrun
      exact ⟨_, hrun, State.endContext_noteUe (s := s.chosen) hn e⟩
    · have he : s.ueIn (.dev pa) (s.saveTakes n) = none := by_contra fun h => State.ueIn_of_le harea h hok
      rw [he, Option.elim_none] at hrun
      obtain ⟨hctx, -, hteams, hgroups, hcopies, htasks⟩ := s.chosen.gather_ids n 0 ts
      rw [s.atRestLane_chosen] at hgroups
      obtain ⟨⟨f, hctxs⟩, hs', himages, hteams', hgroups', hcopies', hwells', body, hm⟩ := s.wroteSave_frame n pa
      obtain ⟨hmagic, hslot, htask⟩ := saveHeader_read (m := s.mem) (pa := pa) (bytes := s.saveTakes n) (teams := (s.wholeSave n).teams.length)
        (slot := n) (tasks := (s.wholeSave n).tasks.length) (sum := xorSum body) (body := body) hmem
      rw [← hm] at hmagic hslot htask
      have hat : (s.wroteSave n pa).ctxAt n = { c with held := f c.held } :=
        State.ctxAt_of_updAt hctxs hn
      have hlt : n < (s.wroteSave n pa).ctx.length := by rw [hctxs, updAt_length]; exact hn
      have hkept : s.saves.filter (fun v => v.ctx != n) = s.saves := List.filter_eq_self.2 fun v hv => by simpa using hsaves v hv
      have hall : (s.wholeSave n).teams = all := hteams
      generalize s.wroteSave n pa = u at *
      have hcx (v : Saved) := State.savedAs_ctxAt (v := v) hlt
      refine ⟨_, (s.wholeSave n).standing pa (u.rdBytes (.dev pa) (s.saveTakes n)), hrun, ?_, congrArg _ himages, hctx, rfl, hteams, hgroups,
        hcopies, htasks, ?_, hgroups', hteams', hcopies', hwells', ?_, ?_, ?_, ?_, ?_, ?_⟩
      · exact congrArg (· ++ [_]) ((congrArg (List.filter fun v => v.ctx != n) hs').trans hkept)
      · rw [State.savedAs_rdBytes, show Saved.image _ = u.rdBytes (.dev pa) (s.saveTakes n) from rfl, State.rdBytes_length]
      · exact congrArg Ctx.busy (hcx _)
      · exact congrArg Ctx.saved (hcx _)
      · exact (congrArg Ctx.en (hcx _)).trans (by rw [hat]; rfl)
      · rw [State.savedAs_rdBytes, Store.rdBytes_dev]; exact hmagic
      · rw [State.savedAs_rdBytes, Store.rdBytes_dev]
        refine hslot.trans ?_
        rw [hall]
        omega
      · rw [State.savedAs_rdBytes, Store.rdBytes_dev]; exact htask

end Sys2Proof.Machine
end

section
/-!
SUPPORT. What a control core saves and loads (R161, R373, R374, R433).
-/
namespace Sys2Proof.Machine

/-! ### Teams placed from saves without wellhead records -/

/-- The state has just these teams, performs just this, and no save that it holds has a wellhead record to enter. -/
def State.stands (ts : List Team) (c : Cur) (s : State) : Prop := s.teams = ts ∧ s.cur = c ∧ ∀ v ∈ s.saves, v.tasks = []

section
variable {s : State} {ts : List Team} {c : Cur}

theorem State.dropEmpty_stands (h : s.stands ts c) : s.dropEmpty.stands ts c := by
  obtain ⟨hts, hc, hv⟩ := h
  exact ⟨hts, hc, fun v hm => hv v (List.mem_of_mem_filter hm)⟩

/-- Where no save has a record to enter, none enters. -/
theorem State.enterRestored_stands (h : s.stands ts c) (core : Nat) : ∀ n, s.enterRestored core n = s
  | 0 => rfl
  | n + 1 => by
    obtain ⟨-, -, hv⟩ := h
    have hnone (p : Nat × Task → Bool) : (s.saves.find? fun v => v.tasks.any p) = none :=
      List.find?_eq_none.2 fun v hm => by rw [hv v hm]; exact Bool.false_ne_true
    rw [State.enterRestored]
    split
    · rfl
    · simp only [hnone]

theorem State.enterAll_stands (h : s.stands ts c) (core : Nat) : (s.enterAll core).stands ts c := by
  rw [State.enterAll, State.enterRestored_stands h]
  exact State.dropEmpty_stands h

/-- A team placed from a save stands behind the others. -/
theorem State.placeSaved_stands (h : s.stands ts c) {v : Saved} (hv : v.tasks = []) (t : Team) (unit : List Nat) :
    (s.placeSaved v t unit).stands (ts ++ [{ t with cores := unit, slots := bindTeam ts t.roles unit }]) c := by
  obtain ⟨hts, hc, htasks⟩ := h
  unfold State.placeSaved
  extract_lets new mine core group source copy groups held rest s1 first s2 s3
  have h2 : s2.stands (ts ++ [{ t with cores := unit, slots := bindTeam ts t.roles unit }]) c := by
    refine ⟨by simp only [s2, new, ← hts]; rfl, hc, fun y hy => ?_⟩
    obtain ⟨u, hu, rfl⟩ := List.mem_map.1 hy
    split
    · exact congrArg (List.map _) hv
    · exact htasks u hu
  have h3 : s3.stands (ts ++ [{ t with cores := unit, slots := bindTeam ts t.roles unit }]) c :=
    State.foldl_keeps (fun s core => (s.signal core).acquire core) (fun _ _ h => h) unit h2
  split
  · obtain ⟨cs, he⟩ := s3.showHeld_eq t.ctx
    rw [he]
    exact h3
  · exact h3

/-- A team that stands in a save placed where it fits. -/
theorem State.loadTeams_one (h : s.stands ts c) {v : Saved} {t : Team} {core id : Nat} {u : List Nat}
    (hf : (s.saves.findSome? fun v => (v.teams.find? fun t => t.id == id).map fun t => (v, t)) = some (v, t)) (hv : v.tasks = [])
    (hu : s.unitAt t core = some u) :
    ∃ s', s.loadTeams core [id] = some s' ∧ s'.stands (ts ++ [{ t with cores := u, slots := bindTeam ts t.roles u }]) c := by
  have hplaced := State.placeSaved_stands h hv t u
  have hentered := State.foldl_keeps (P := State.stands _ c) State.enterAll (fun _ core h => State.enterAll_stands h core) u hplaced
  refine ⟨_, ?_, hentered⟩
  simp only [State.loadTeams, hf, hu]

end

/-! ### `ctxld`, R374, R433 -/

section
variable {s : State} {d n x core : Nat} {a b : Src}

theorem exec_ctxld_fails (hw : s.cur.who = .control) (h : s.loadCore s.cur.core (Src.word s b) (s.pair 0 a).toNat = .fails s) :
    exec (.ctxld d a b) s = .next (Rules.controlDone s d 0xFFFFFFFF) := by
  refine sysResult_control (v := sysFail) hw ?_ rfl
  simp only [h]

theorem exec_ctxld_loaded {t : State} (hw : s.cur.who = .control) (h : s.loadCore s.cur.core (Src.word s b) (s.pair 0 a).toNat = .loaded t)
    (hc : t.cur = s.cur) : exec (.ctxld d a b) s = .next (Rules.controlDone t d 0) := by
  refine sysResult_control (v := 0) hw ?_ hc
  simp only [h]

theorem State.loadCore_unaligned (hx : x % 4096 ≠ 0) : s.loadCore core n x = .fails s :=
  if_pos (.inr (.inl hx))

theorem State.loadCore_header (he : s.saveError x n (s.roomAt (s.ctxAt n).part x) = none)
    (hh : s.headerOk x n (s.roomAt (s.ctxAt n).part x) = false) : s.loadCore core n x = .fails s := by
  simp only [State.loadCore, he, hh, Bool.not_false, if_true, ite_self]

/-- The save whose bytes stand at the address is known already, or is placed once more under names of its own. -/
theorem State.loadCore_loaded {v w : Saved} {s1 t : State} (hn : n < 64) (hx : x % 4096 = 0) (hroom : 0 < s.roomAt (s.ctxAt n).part x)
    (he : s.saveError x n (s.roomAt (s.ctxAt n).part x) = none) (hh : s.headerOk x n (s.roomAt (s.ctxAt n).part x) = true)
    (hi : s.imageAt n x = some v)
    (hs : let held := s.saves.any fun u => u.ctx == n && u.teams.any fun t => v.teams.any fun x => x.id == t.id
      held = true ∧ w = v ∧ s1 = s
        ∨ held = false ∧ w = v.renamed s.ids ∧ s1 = { s with saves := s.saves ++ [w], ids := s.ids + v.teams.length })
    (hl : (s1.saveReads x n (s.roomAt (s.ctxAt n).part x)).loadTeams core (w.teams.map (·.id)) = some t) :
    s.loadCore core n x = .loaded t.dropEmpty := by
  have hgo : ¬(Config.contextSlots ≤ n ∨ x % 4096 ≠ 0 ∨ s.roomAt (s.ctxAt n).part x = 0) := by
    simp only [Config.contextSlots]
    omega
  unfold State.loadCore
  simp only [if_neg hgo, he, hh, hi, Bool.not_true, Bool.false_eq_true, if_false]
  rcases hs with ⟨hheld, rfl, rfl⟩ | ⟨hheld, rfl, rfl⟩ <;> simp only [hheld, Bool.false_eq_true, if_false, if_true, hl]

theorem State.saveReads_stands {ts : List Team} {c : Cur} (h : s.stands ts c) (room : Nat) : (s.saveReads x n room).stands ts c := by
  obtain ⟨l2, ce, ch, ps, hr⟩ := s.homeRange_unkept (.dev x)
    (if s.headerFits x n room then Nat.max 64 (s.rdNat (.dev (x + 4)) 4) else 64) false false false
  rw [State.saveReads, hr]
  exact h

/-- The reading of a save changes neither the saves nor the units that a team fits. -/
theorem State.saveReads_places (s : State) (n x room : Nat) : (s.saveReads x n room).saves = s.saves
    ∧ ∀ t core, (s.saveReads x n room).unitAt t core = s.unitAt t core := by
  obtain ⟨l2, ce, ch, ps, hr⟩ := s.homeRange_unkept (.dev x)
    (if s.headerFits x n room then Nat.max 64 (s.rdNat (.dev (x + 4)) 4) else 64) false false false
  rw [State.saveReads, hr]
  exact ⟨rfl, fun _ _ => rfl⟩


/-- A team that stands in a save, loaded. -/
theorem loadsTeam {v w y : Saved} {s1 : State} {z : Team} {u : List Nat} (hw : s.cur.who = .control) (hb : Src.word s b = n)
    (ha : (s.pair 0 a).toNat = x) (hn : n < 64) (hx : x % 4096 = 0) (hroom : 0 < s.roomAt (s.ctxAt n).part x)
    (he : s.saveError x n (s.roomAt (s.ctxAt n).part x) = none) (hh : s.headerOk x n (s.roomAt (s.ctxAt n).part x) = true)
    (hi : s.imageAt n x = some v)
    (hs : let held := s.saves.any fun u => u.ctx == n && u.teams.any fun t => v.teams.any fun x => x.id == t.id
      held = true ∧ w = v ∧ s1 = s
        ∨ held = false ∧ w = v.renamed s.ids ∧ s1 = { s with saves := s.saves ++ [w], ids := s.ids + v.teams.length })
    (hone : w.teams.map (·.id) = [z.id]) (h1 : s1.stands s.teams s.cur)
    (hf : (s1.saves.findSome? fun v => (v.teams.find? fun t => t.id == z.id).map fun t => (v, t)) = some (y, z))
    (hu : s1.unitAt z s.cur.core = some u) :
    ∃ t, exec (.ctxld d a b) s = .next (Rules.controlDone t d 0)
      ∧ t.teams = s.teams ++ [{ z with cores := u, slots := bindTeam s.teams z.roles u }] := by
  obtain ⟨hsaves, hunit⟩ := s1.saveReads_places n x (s.roomAt (s.ctxAt n).part x)
  have hy : y.tasks = [] := by
    obtain ⟨m, hm, e⟩ := List.exists_of_findSome?_eq_some hf
    obtain ⟨_, -, e⟩ := Option.map_eq_some_iff.1 e
    cases e
    exact h1.2.2 y hm
  obtain ⟨t, hl, hts⟩ := State.loadTeams_one (State.saveReads_stands h1 (s.roomAt (s.ctxAt n).part x)) (by rw [hsaves]; exact hf) hy
    ((hunit ..).trans hu)
  obtain ⟨hteams, hcur, -⟩ := State.dropEmpty_stands hts
  refine ⟨t.dropEmpty, exec_ctxld_loaded hw ?_ hcur, hteams⟩
  rw [hb, ha]
  exact State.loadCore_loaded hn hx hroom he hh hi hs (by rw [hone]; exact hl)

end

/-! ### `ctxsv`, R161, R374, R431 -/

section
variable {s : State} {n x core : Nat}

theorem State.saveCore_unaligned (hx : x % 4096 ≠ 0) : s.saveCore core n x = .fails s :=
  if_pos (.inr (.inl hx))

/-- Where no copy of some teams stands, none runs to its end. -/
theorem State.finishCopies_none {ids : List Nat} (h : s.running ids = []) (m k : Nat) : s.finishCopies ids m k = s := by
  cases m with
  | zero => rfl
  | succ m => simp only [State.finishCopies, h, List.getElem?_nil]

theorem State.running_none {ts : List Team} (h : ∀ k ∈ s.copies, ∀ t ∈ ts, k.team ≠ t.id) : s.running (ts.map (·.id)) = [] := by
  refine List.map_eq_nil_iff.2 (List.filter_eq_nil_iff.2 fun k hk hr => ?_)
  obtain ⟨hteam, -⟩ := Bool.and_eq_true_iff.1 hr
  obtain ⟨t, ht, e⟩ := List.mem_map.1 (List.contains_iff_mem.1 hteam)
  exact h _ (List.fst_mem_of_mem_zipIdx hk) t ht e.symm

/-- The bytes of a control core's save, the save, and the state with its bytes written. -/
def State.coreTakes (s : State) (core n : Nat) : Nat := roundUp (64 + (s.choose (savesNeed (s.teamsAt n core) - 63)).1) 4096
def State.coreTaken (s : State) (core n x : Nat) : Saved := s.chosen.gather n x ((s.teamsAt n core).map (·.id))
def State.coreWrote (s : State) (core n x : Nat) : State :=
  (s.chosen.release n (s.coreTaken core n x)).writeSave x (s.coreTakes core n) n (s.coreTaken core n x).teams.length
    (s.coreTaken core n x).tasks.length

/-- A save with its bytes, of which a save of the whole context may be part. -/
def Saved.written (v : Saved) (image : List Byte) (part : Bool) : Saved := { v with image, part }

/-- A save kept, and known again by its bytes. -/
def State.keepSave (s : State) (v : Saved) : State := { s with saves := s.saves ++ [v], images := v :: s.images }

/-- A save that fits, where nothing of its teams runs, meets an uncorrectable error, or is written. -/
theorem State.saveCore_fits (hn : n < 64) (hx : x % 4096 = 0) (hroom : s.coreTakes core n ≤ s.roomAt (s.ctxAt n).part x)
    (hpos : s.roomAt (s.ctxAt n).part x ≠ 0)
    (hstill : ∀ g ∈ s.groups, (g.ctx = n ∧ g.core = core) ∨ hasName (s.teamsAt n core) g.team = true → s.quiescent g = true)
    (hcopies : ∀ k ∈ s.copies, ∀ t ∈ s.teamsAt n core, k.team ≠ t.id) :
    s.saveCore core n x = (s.ueIn (.dev x) (s.coreTakes core n)).elim
      (.saved ((s.coreWrote core n x).keepSave ((s.coreTaken core n x).written
        ((s.coreWrote core n x).rdBytes (.dev x) (s.coreTakes core n)) (s.ctxAt n).saving)) (s.coreTakes core n))
      (fun e => .fails ((s.noteUe e).endContext n 0)) := by
  unfold State.saveCore
  extract_lets c ts ids still s1
  have hs : still = true := List.all_eq_true.2 fun g hg => by
    simp only [ids, contains_ids]
    by_cases h : (g.ctx = n ∧ g.core = core) ∨ hasName (s.teamsAt n core) g.team = true
    · rw [hstill g hg h, Bool.or_true]
    · simp only [not_or, not_and, Bool.not_eq_true] at h
      simp only [ts, h.2, Bool.or_false, Bool.or_eq_true, Bool.not_eq_true', Bool.and_eq_false_iff, beq_eq_false_iff_ne, ne_eq]
      exact .inl (Classical.or_iff_not_imp_left.2 fun h' => h.1 (not_not.1 h'))
  have hr : s.running ids = [] := State.running_none hcopies
  have hs1 : s1 = s := State.finishCopies_none hr ..
  have hgo : ¬(Config.contextSlots ≤ n ∨ x % 4096 ≠ 0 ∨ s.roomAt c.part x = 0 ∨ (!still) = true) := by
    rw [hs]
    exact not_or.2 ⟨Nat.not_le.2 hn, not_or.2 ⟨not_not.2 hx, not_or.2 ⟨hpos, Bool.false_ne_true⟩⟩⟩
  refine (if_neg hgo).trans ?_
  clear_value s1
  subst hs1
  refine (if_neg (by rw [hr]; exact Bool.false_ne_true)).trans ?_
  rw [State.choose_eq]
  have hbytes : s1.coreTakes core n = roundUp (64 + (s1.choose (savesNeed ts - 63)).1) 4096 := rfl
  generalize (s1.choose (savesNeed ts - 63)).1 = y at hbytes ⊢
  refine (if_neg (Nat.not_lt.2 (hbytes.symm.le.trans hroom))).trans ?_
  generalize roundUp (64 + y) 4096 = bytes at hbytes ⊢
  subst hbytes
  split
  · next h => rw [h]; rfl
  · next h => rw [h]; rfl

/-- What stands when the bytes of a control core's save are written. -/
theorem State.coreWrote_frame (s : State) (core n x : Nat) : let mine := hasName (s.teamsAt n core)
    let u := s.coreWrote core n x
    u.saves = s.saves ∧ u.images = s.images ∧ u.teams = s.teams.filter (fun t => !mine t.id)
      ∧ u.groups = s.groups.filter (fun g => !mine g.team) ∧ u.cur = s.cur := by
  obtain ⟨cs, f, body, l2, ce, ch, ps, -, hwrote⟩ := State.takeSave_eq (s := s.chosen) (n := n) (at_ := x) (ts := s.teamsAt n core)
    (fun t ht => List.mem_of_mem_filter ht) x (s.coreTakes core n) n (s.coreTaken core n x).teams.length (s.coreTaken core n x).tasks.length
  change s.coreWrote core n x = _ at hwrote
  simp only [hwrote]
  exact ⟨rfl, rfl, rfl, rfl, rfl⟩

theorem State.endContext_noteUe_cur (s : State) (n e : Nat) : ((s.noteUe e).endContext n 0).cur = s.cur := by
  obtain ⟨cs, h⟩ := (s.noteUe e).endContext_eq n 0
  rw [h]
  rfl

variable {d : Nat} {a b : Src} {t : State}

theorem exec_ctxsv_fails (hw : s.cur.who = .control) (h : s.saveCore s.cur.core (Src.word s b) (s.pair 0 a).toNat = .fails t)
    (hc : t.cur = s.cur) : exec (.ctxsv d a b) s = .next (Rules.controlDone t d 0xFFFFFFFF) := by
  show execCtxsv d a b s = _
  rw [execCtxsv, h]
  exact sysResult_control (v := sysFail) hw rfl hc

theorem exec_ctxsv_saved {bytes : Nat} (hw : s.cur.who = .control)
    (h : s.saveCore s.cur.core (Src.word s b) (s.pair 0 a).toNat = .saved t bytes) (hc : t.cur = s.cur) :
    exec (.ctxsv d a b) s = .next (Rules.controlDone t d (BitVec.ofNat 32 bytes)) := by
  show execCtxsv d a b s = _
  rw [execCtxsv, h]
  exact sysResult_control hw rfl hc

end

/-- R374, R431, R433. -/
theorem coreSaves : Rules.CoreSaves := by
  intro s d n a b hw hn core x w ts room
  have hword : Src.word s b = n := hn
  refine ⟨fun hx => ?_, fun h64 hx hlow hhigh hlen hstill hcopies => ?_, fun h64 he hh => ?_, ?_⟩
  · exact ⟨exec_ctxsv_fails hw (State.saveCore_unaligned hx) rfl, exec_ctxld_fails hw (State.loadCore_unaligned hx)⟩
  · obtain ⟨hpage, hge, hlt⟩ := roundUp_page (64 + (s.choose (savesNeed (s.teamsAt n core) - 63)).1)
    have hneed := s.choose_need (s.teamsAt n core)
    change s.coreTakes core n % 4096 = 0 at hpage
    change _ ≤ s.coreTakes core n at hge
    change s.coreTakes core n < _ at hlt
    have hts : s.teamsAt n core = ts := rfl
    rw [hts] at hneed hge hlt
    generalize (s.choose (savesNeed ts - 63)).1 = y at hneed hge hlt
    have hroom : room = (winBase w + winSize w) * 2 ^ 30 - x := if_pos hlow
    have hfits : s.coreTakes core n ≤ room := by omega
    have hpos : room ≠ 0 := by omega
    have hsave := State.saveCore_fits (core := core) h64 hx hfits hpos
      (fun g hg h => hstill g hg (h.imp_right fun h => by simpa [hasName, hts] using h)) hcopies
    refine ⟨fun hok => ?_, fun hue => ?_⟩
    · have he : s.ueIn (.dev x) (s.coreTakes core n) = none := by_contra fun h => State.ueIn_of_le (by omega) h hok
      rw [he, Option.elim_none] at hsave
      obtain ⟨hctx, -, hteams, hgroups, -, -⟩ := s.chosen.gather_ids n x ts
      rw [s.atRestLane_chosen] at hgroups
      obtain ⟨hs', himages, hteams', hgroups', hcur⟩ := s.coreWrote_frame core n x
      generalize s.coreWrote core n x = u at *
      refine ⟨_, s.coreTakes core n, (s.coreTaken core n x).written (u.rdBytes (.dev x) (s.coreTakes core n)) (s.ctxAt n).saving,
        exec_ctxsv_saved (t := u.keepSave _) hw (by rw [hword]; exact hsave) hcur, hpage, by omega, by omega, congrArg (· ++ [_]) hs', congrArg _ himages,
        hctx, hteams, hgroups, ?_, hteams', hgroups'⟩
      rw [Store.rdBytes_dev (u.keepSave _)]
      exact Store.rdBytes_dev ..
    · obtain ⟨e, he⟩ := Option.ne_none_iff_exists'.1 (State.ueIn_of_le (by omega : 4096 ≤ s.coreTakes core n) hue)
      rw [he, Option.elim_some] at hsave
      refine ⟨_, exec_ctxsv_fails hw (by rw [hword]; exact hsave) (s.endContext_noteUe_cur n e), ?_⟩
      exact State.endContext_noteUe (by rw [hlen]; exact h64) e
  · exact exec_ctxld_fails hw (by rw [hword]; exact State.loadCore_header he hh)
  · intro v tm h64 hx hroom he hh hi hone hgroups htasks hheld hnone loads
    refine ⟨fun y z hctx hf u hu => ?_, fun hnew u hu => ?_⟩
    · obtain ⟨m, hm, e⟩ := List.exists_of_findSome?_eq_some hf
      obtain ⟨z', hz, e⟩ := Option.map_eq_some_iff.1 e
      cases e
      have hid : z.id = tm.id := by simpa using List.find?_some hz
      refine loadsTeam (v := v) (w := v) (s1 := s) hw hword rfl h64 hx hroom he hh hi (.inl ⟨?_, rfl, rfl⟩) (by simp [hone, hid])
        ⟨rfl, rfl, hnone⟩ (by rw [hid]; exact hf) hu
      simp only [List.any_eq_true, Bool.and_eq_true, beq_iff_eq, hone]
      exact ⟨y, hm, hctx, z, List.mem_of_find?_eq_some hz, tm, by simp, hid.symm⟩
    · have hren : (v.renamed s.ids).teams = [{ tm with id := s.ids }] := by simp [Saved.renamed, hone]
      refine loadsTeam (v := v) (w := v.renamed s.ids) (s1 := { s with saves := s.saves ++ [v.renamed s.ids], ids := s.ids + v.teams.length })
        (y := v.renamed s.ids) (z := { tm with id := s.ids }) hw hword rfl h64 hx hroom he hh hi (.inr ⟨?_, rfl, rfl⟩) (by simp [hren])
        ⟨rfl, rfl, ?_⟩ ?_ hu
      · refine Bool.eq_false_iff.2 fun hold => ?_
        simp only [List.any_eq_true, Bool.and_eq_true, beq_iff_eq, hone, List.mem_singleton, exists_eq_left] at hold
        obtain ⟨y, hy, -, z, hz, hid⟩ := hold
        exact (hnew y hy z hz).2 hid.symm
      · intro y hy
        rcases List.mem_append.1 hy with hy | hy
        · exact hnone y hy
        · rw [List.mem_singleton.1 hy]
          exact congrArg (List.map _) htasks
      · have hold : (s.saves.findSome? fun v => (v.teams.find? fun t => t.id == s.ids).map fun t => (v, t)) = none :=
          List.findSome?_eq_none_iff.2 fun y hy => Option.map_eq_none_iff.2 <| List.find?_eq_none.2 fun z hz e =>
            Nat.ne_of_lt (hnew y hy z hz).1 (beq_iff_eq.1 e)
        simp only [List.findSome?_append, hold, Option.none_or, List.findSome?_cons, hren]
        simp

/-- Settles O56: a write of SAVE begins or abandons a save, the end of one takes all that is the context's and frees it, and a control
core's saves and loads take and place the teams of its core. -/
theorem saves : Obligations.Saves := ⟨saveBegins, saveCompletes, coreSaves⟩

end Sys2Proof.Machine
end

section
/-!
SUPPORT. `tspawn` by one thread: what the write of a record to the sump leaves of memory and of the other records, and the answers of
R220 one by one (R220, R221, R341). Settles O4.
-/
namespace Sys2Proof.Machine

/-- A class of one thread that completes goes on to the next instruction. -/
theorem perLane_alone {i : Instr} {body : Nat → State → Res} {s u : State} {l : Nat} (hl : s.cur.lanes = [l]) (hs : s.sound l i)
    (hb : body l s = .ok u none) : perLane i body s = (u.setPc l s.cur.next).withFate .go := by
  obtain ⟨hframe, hmeets⟩ := hs
  simp [perLane, hl, runLanes, hframe, hmeets, hb]

/-! ### The record's bytes in the sump, R221 -/

/-- A record written to the sump is 128 free bytes written at its place. -/
theorem State.writeSump_eq (s : State) (p : Place) (lf : Leaf) :
    ∃ x, s.writeSump p lf = (s.chosen.homeRuns true [(some p, 128, lf)]).wrNat p 128 x :=
  ⟨(s.choose (2 ^ 1024)).1, by unfold State.writeSump; rw [State.choose_eq]⟩

theorem besideL2.sumps {s t : State} (h : besideL2 s t) : t.sumps = s.sumps := by have := congrArg State.sumps h; exact this

theorem State.writeSump_sumps (s : State) (p : Place) (lf : Leaf) : (s.writeSump p lf).sumps = s.sumps := by
  obtain ⟨x, h⟩ := s.writeSump_eq p lf
  have hwrite (u : State) (xs : List Byte) : (u.wrBytes p xs).sumps = u.sumps := by
    have := congrArg State.sumps (u.frame_wrBytes p xs)
    exact this
  rw [h, State.wrNat, hwrite, (s.chosen.homeRuns_beside ..).sumps]
  rfl

theorem State.rdByte_writeSump_other (s : State) (p : Place) (lf : Leaf) (q : Place) (hq : ∀ j, j < 128 → q.cell ≠ (p.add j).cell) :
    (s.writeSump p lf).rdByte q = s.rdByte q := by
  obtain ⟨x, h⟩ := s.writeSump_eq p lf
  rw [h, State.wrNat, State.rdByte_wrBytes_other _ p q _ (by rwa [leBytes_length]), (s.chosen.homeRuns_beside ..).rdByte]
  exact rdByte_of_mem rfl rfl q

/-! ### Where a record goes, R220 -/

/-- The record at SHEAD of a context's sump written, its bytes and its task. -/
def State.enterSump (s : State) (n core : Nat) (k : Task) (p : Place) (lf : Leaf) : State :=
  let x := s.ctxAt n
  let u := (s.tableReads n { kind := .write, core } (x.sumpVa x.shead) 128).writeSump p lf
  { u.updCtx n fun c => { c with shead := (c.shead + 1) % 2 ^ c.sumpN } with sumps := s.sumps ++ [(n, x.shead, k)] }

section
variable {s : State} {k : Task} {n core : Nat} {done : State → Nat → Res}

theorem State.spawn_notTask : s.spawn k core false done = done s 2 := rfl

theorem State.spawn_well (hn : s.myCtx = n) (hroom : s.wellRoom core k.team = true) (hempty : (s.ctxAt n).sumpEmpty = true) :
    s.spawn k core true done = done (s.enterWell core k) 0 := by
  simp [State.spawn, hn, hroom, hempty]

theorem State.spawn_full (hn : s.myCtx = n) (hpast : s.wellRoom core k.team = false ∨ (s.ctxAt n).sumpEmpty = false)
    (hfull : (s.ctxAt n).sumpFull = true) : s.spawn k core true done = done s 1 := by
  have hwell := Bool.and_eq_false_iff.2 hpast
  simp [State.spawn, hn, hwell, hfull]

theorem State.spawn_sump {p : Place} {lf : Leaf} (hn : s.myCtx = n)
    (hpast : s.wellRoom core k.team = false ∨ (s.ctxAt n).sumpEmpty = false) (hroom : (s.ctxAt n).sumpFull = false)
    (hplace : s.translate n { kind := .write, core } ((s.ctxAt n).sumpVa (s.ctxAt n).shead) = .ok p lf)
    (hfree : s.reserved n s.myLaunch .write ((s.ctxAt n).sumpVa (s.ctxAt n).shead) 128 = none) (hue : s.ueIn p 128 = none) :
    s.spawn k core true done = done (s.enterSump n core k p lf) 0 := by
  have hwell := Bool.and_eq_false_iff.2 hpast
  have hsumps (m : Mode) (va len : Nat) : ((s.tableReads n m va len).writeSump p lf).sumps = s.sumps :=
    (State.writeSump_sumps ..).trans (s.tableReads_beside ..).sumps
  simp [State.spawn, State.enterSump, hn, hwell, hroom, hplace, hfree, hue, hsumps]

end

/-! ### The instruction, R341 -/

/-- The task that a thread's `tspawn` names, and whether its role is a task role. -/
def State.spawnedTask (s : State) (g : Group) (tm : Team) (l : Nat) (a b c : Src) : Task :=
  { team := tm.id, quarter := (tm.cores.idxOf? g.core).getD 0, role := (s.reg l c 0).toNat, entry := s.pair l a, args := s.regs l b 16 }
def Team.isTaskRole (tm : Team) (role : Nat) : Bool := (tm.roles[role]?.map (·.task)).getD false

/-- The thread receives in D what the enqueueing answers, and goes on. -/
theorem exec_tspawn_alone {d : Nat} {a b c : Src} {s u : State} {g : Group} {tm : Team} {l v : Nat}
    (hr : s.classReady (.tspawn d a b c)) (hl : s.cur.lanes = [l]) (hg : s.grp = some g) (ht : s.team? g.team = some tm)
    (hspawn : ∀ done, s.spawn (s.spawnedTask g tm l a b c) g.core (tm.isTaskRole (s.reg l c 0).toNat) done = done u v) :
    exec (.tspawn d a b c) s = .next (((u.setV l d (BitVec.ofNat 32 v)).setPc l s.cur.next).withFate .go) := by
  obtain ⟨-, -, -, g', -, hsound⟩ := hr
  have hteam : s.myTeam = some tm := by simp only [State.myTeam, hg, ht]
  have hrole : tm.isTaskRole (s.reg l c 0).toNat
      = match tm.roles[(s.reg l c 0).toNat]? with | some r => r.task | none => false := by
    unfold Team.isTaskRole
    cases tm.roles[(s.reg l c 0).toNat]? <;> rfl
  rw [hrole] at hspawn
  refine congrArg Host.Outcome.next (perLane_alone hl (hsound l (by simp [hl])).2 ?_)
  simp only [hg, hteam]
  exact hspawn _

/-- Settles O4: each answer of R220 is one way in which the record is enqueued, or is not, and the bytes of one in the sump are all
that is written. -/
theorem spawns : Obligations.Spawns := by
  intro d a b c s g tm l hr hl hg ht role task k x va answer
  have hctx : s.myCtx = g.ctx := by simp only [State.myCtx, hg]
  have hlaunch : s.myLaunch = tm.launch := by simp only [State.myLaunch, State.myTeam, hg, ht]
  have answers {t : State} {v : Nat} (hspawn : ∀ done, s.spawn k g.core task done = done t v) :
      exec (.tspawn d a b c) s = .next (answer t (BitVec.ofNat 32 v)) := exec_tspawn_alone hr hl hg ht hspawn
  refine ⟨fun hno => ?_, fun hyes hroom hempty => ?_, fun hyes hpast hfull => ?_, fun p lf hyes hpast hroom hplace hfree hue => ⟨?_, ?_⟩⟩
  · exact answers fun _ => by rw [hno, State.spawn_notTask]
  · exact answers fun _ => by rw [hyes, State.spawn_well hctx hroom hempty]
  · exact answers fun _ => by rw [hyes, State.spawn_full hctx hpast hfull]
  · exact answers (t := s.enterSump g.ctx g.core k p lf) fun _ => by
      rw [hyes, State.spawn_sump hctx hpast hroom hplace (by rwa [hlaunch]) hue]
  · intro q hq
    rw [State.rdByte_writeSump_other _ p lf q hq, (s.tableReads_beside ..).rdByte]

end Sys2Proof.Machine
end

section
/-!
SUPPORT. The rational numbers that dyadic numbers and values stand for: `Rules.worth` of sums and products, and their order (R235,
R297, R298).
-/
namespace Sys2Proof.Machine

/-! ### Powers of two -/

theorem pow2_pos (k : Int) : 0 < pow2 k := Nat.two_pow_pos _

theorem cast_pow2 {k : Int} (h : 0 ≤ k) : ((pow2 k : Nat) : ℚ) = (2 : ℚ) ^ k := by
  obtain ⟨n, rfl⟩ := Int.eq_ofNat_of_zero_le h
  simp [pow2]

theorem pow2_of_nonpos {k : Int} (h : k ≤ 0) : pow2 k = 1 := by
  rw [pow2, Int.toNat_of_nonpos h, Nat.pow_zero]

/-- A negative exponent is kept in the denominator. -/
theorem pow2_div_pow2_neg (k : Int) : ((pow2 k : Nat) : ℚ) / (pow2 (-k) : Nat) = (2 : ℚ) ^ k := by
  rcases Int.le_total 0 k with h | h
  · rw [pow2_of_nonpos (k := -k) (by omega), cast_pow2 h, Nat.cast_one, div_one]
  · rw [pow2_of_nonpos h, cast_pow2 (k := -k) (by omega), zpow_neg, Nat.cast_one, one_div, inv_inv]

/-! ### Dyadic numbers -/

/-- The number that a dyadic number is. -/
def Dy.rat (a : Dy) : ℚ := (a.n : ℚ) * (2 : ℚ) ^ a.e

theorem Dy.rat_eq_zero {a : Dy} : a.rat = 0 ↔ a.n = 0 := by
  simp [Dy.rat, zpow_ne_zero]

theorem Dy.rat_lt_zero {a : Dy} : a.rat < 0 ↔ a.n < 0 := by
  have hpos : 0 < (2 : ℚ) ^ a.e := zpow_pos two_pos _
  simp [Dy.rat, mul_neg_iff, hpos, hpos.not_gt]

theorem Dy.rat_add (a b : Dy) : (a.add b).rat = a.rat + b.rat := by
  have scaled {k e : Int} (n : Int) (h : e ≤ k) : (n : ℚ) * (pow2 (k - e) : Nat) * (2 : ℚ) ^ e = n * 2 ^ k := by
    rw [cast_pow2 (by omega), mul_assoc, ← zpow_add₀ two_ne_zero, sub_add_cancel]
  unfold Dy.add
  split
  next h => rw [Dy.rat_eq_zero.2 h, zero_add]
  next =>
    split
    next h => rw [Dy.rat_eq_zero.2 h, add_zero]
    next =>
      simp only [Dy.rat, Int.cast_add, Int.cast_mul, Int.cast_natCast, add_mul]
      rw [scaled a.n (Int.min_le_left ..), scaled b.n (Int.min_le_right ..)]

theorem Dy.rat_neg (a : Dy) : a.neg.rat = -a.rat := by
  simp [Dy.rat, Dy.neg]

theorem Dy.rat_sub (a b : Dy) : (a.sub b).rat = a.rat - b.rat := by
  rw [Dy.sub, Dy.rat_add, Dy.rat_neg, sub_eq_add_neg]

theorem Dy.lt_iff {a b : Dy} : a.lt b = true ↔ a.rat < b.rat := by
  rw [Dy.lt, decide_eq_true_iff, ← Dy.rat_lt_zero, Dy.rat_sub, sub_neg]

theorem Dy.num_div_den (a : Dy) : (a.num : ℚ) / a.den = |a.rat| := by
  rw [Dy.rat, abs_mul, abs_of_pos (zpow_pos (two_pos (α := ℚ)) a.e), Dy.num, Dy.den, Nat.cast_mul, mul_div_assoc, pow2_div_pow2_neg,
    Nat.cast_natAbs, Int.cast_abs]

theorem Dy.num_pos {a : Dy} (h : a.n ≠ 0) : 0 < a.num := Nat.mul_pos (Int.natAbs_pos.2 h) (pow2_pos _)
theorem Dy.den_pos (a : Dy) : 0 < a.den := pow2_pos _

/-! ### Values -/

/-- A value that is neither a NaN nor an infinity. -/
def FVal.IsFin (v : FVal) : Prop := ∃ s m e, v = .fin s m e

theorem FVal.rat_ofVal (v : FVal) : (Dy.ofVal v).rat = Rules.worth v := by
  cases v with
  | nan => simp [Dy.ofVal, Dy.rat, Rules.worth]
  | inf => simp [Dy.ofVal, Dy.rat, Rules.worth]
  | fin s m e => cases s <;> simp [Dy.ofVal, Dy.rat, Rules.worth]

theorem Dy.num_div_den_fin (s : Bool) (m : Nat) (e : Int) :
    ((Dy.num ⟨m, e⟩ : Nat) : ℚ) / (Dy.den ⟨m, e⟩ : Nat) = |Rules.worth (.fin s m e)| := by
  rw [Dy.num_div_den]
  cases s <;> simp [Dy.rat, Rules.worth, abs_mul]

theorem FVal.worth_eq_abs (s : Bool) (m : Nat) (e : Int) :
    Rules.worth (.fin s m e) = if s then -|Rules.worth (.fin s m e)| else |Rules.worth (.fin s m e)| := by
  cases s <;> simp [Rules.worth, abs_mul]

theorem FVal.worth_eq_zero {s : Bool} {m : Nat} {e : Int} : Rules.worth (.fin s m e) = 0 ↔ m = 0 := by
  cases s <;> simp [Rules.worth, zpow_ne_zero]

/-- A finite value other than zero is negative as its sign says. -/
theorem FVal.decide_worth_lt_zero {s : Bool} {m : Nat} {e : Int} (h : m ≠ 0) : decide (Rules.worth (.fin s m e) < 0) = s := by
  have hpos : 0 < (m : ℚ) * (2 : ℚ) ^ e := mul_pos (Nat.cast_pos.2 (Nat.pos_of_ne_zero h)) (zpow_pos two_pos e)
  cases s <;> simp [Rules.worth, hpos, hpos.le]

theorem FVal.isZero_iff {v : FVal} : v.isZero = true ↔ v.IsFin ∧ Rules.worth v = 0 := by
  cases v with
  | nan => simp [FVal.isZero, FVal.IsFin]
  | inf => simp [FVal.isZero, FVal.IsFin]
  | fin s m e => simp [FVal.isZero, FVal.IsFin, FVal.worth_eq_zero]

theorem FVal.IsFin.negate {v : FVal} (h : v.IsFin) : v.negate.IsFin := by
  obtain ⟨s, m, e, rfl⟩ := h
  exact ⟨!s, m, e, rfl⟩

theorem FVal.worth_negate (v : FVal) : Rules.worth v.negate = -Rules.worth v := by
  cases v with
  | nan => simp [FVal.negate, Rules.worth]
  | inf => simp [FVal.negate, Rules.worth]
  | fin s m e => cases s <;> simp [FVal.negate, Rules.worth]

/-- The sum of finite values is their exact sum. -/
theorem FVal.add_worth (down : Bool) {x y : FVal} (hx : x.IsFin) (hy : y.IsFin) :
    ∃ v, x.add down y = some v ∧ v.IsFin ∧ Rules.worth v = Rules.worth x + Rules.worth y := by
  have hsum : ((Dy.ofVal x).add (Dy.ofVal y)).rat = Rules.worth x + Rules.worth y := by
    rw [Dy.rat_add, FVal.rat_ofVal, FVal.rat_ofVal]
  have hx0 := FVal.isZero_iff (v := x)
  have hy0 := FVal.isZero_iff (v := y)
  obtain ⟨s, m, e, rfl⟩ := hx
  obtain ⟨s', m', e', rfl⟩ := hy
  simp only [FVal.add]
  split
  next h =>
    simp only [Bool.and_eq_true, beq_iff_eq] at h
    rw [(hx0.1 h.1.1).2, (hy0.1 h.1.2).2]
    exact ⟨_, rfl, ⟨s, m, e, rfl⟩, by rw [(hx0.1 h.1.1).2, add_zero]⟩
  next =>
    rw [← hsum]
    generalize (Dy.ofVal (.fin s m e)).add (Dy.ofVal (.fin s' m' e')) = d
    refine ⟨_, rfl, ?_⟩
    split
    next h => exact ⟨⟨_, _, _, rfl⟩, by rw [Dy.rat_eq_zero.2 h, FVal.worth_eq_zero]⟩
    next h =>
      refine ⟨⟨_, _, _, rfl⟩, ?_⟩
      rcases lt_or_ge d.n 0 with hn | hn
      · simp [Rules.worth, Dy.rat, hn, abs_of_neg hn]
      · simp [Rules.worth, Dy.rat, hn, abs_of_nonneg hn]

/-- The product of finite values is their exact product. -/
theorem FVal.mul_worth {x y : FVal} (hx : x.IsFin) (hy : y.IsFin) :
    ∃ v, x.mul y = some v ∧ v.IsFin ∧ Rules.worth v = Rules.worth x * Rules.worth y := by
  obtain ⟨s, m, e, rfl⟩ := hx
  obtain ⟨s', m', e', rfl⟩ := hy
  refine ⟨.fin (s != s') (m * m') (e + e'), rfl, ⟨_, _, _, rfl⟩, ?_⟩
  simp only [Rules.worth, zpow_add₀ (two_ne_zero (α := ℚ)), Nat.cast_mul]
  cases s <;> cases s' <;> simp <;> ring

end Sys2Proof.Machine
end

section
/-!
SUPPORT. What the encodings of a format stand for, in their order, and what they decode to (R229, R230).
-/
namespace Sys2Proof.Machine.Fmt

/-! ### Encodings in order -/

variable (f : Fmt)

/-- How many binades above the lowest a magnitude lies, its significand as an integer, and the exponent of its last place. -/
def binade (n : Nat) : Nat := n / 2 ^ f.mb - 1
def sig (n : Nat) : Nat := n - f.binade n * 2 ^ f.mb
def ulp (n : Nat) : Int := f.binade n + f.emin - f.mb

theorem binade_mul_add_sig (n : Nat) : f.binade n * 2 ^ f.mb + f.sig n = n := by
  have : f.binade n * 2 ^ f.mb ≤ n := (Nat.mul_le_mul_right _ (Nat.sub_le ..)).trans (Nat.div_mul_le_self ..)
  unfold sig
  omega

theorem sig_of_lt {n : Nat} (h : n < 2 ^ f.mb) : f.binade n = 0 ∧ f.sig n = n := by
  simp [sig, binade, Nat.div_eq_of_lt h]

theorem sig_of_ge {n : Nat} (h : 2 ^ f.mb ≤ n) : f.binade n + 1 = n / 2 ^ f.mb ∧ f.sig n = 2 ^ f.mb + n % 2 ^ f.mb := by
  have hdiv : 0 < n / 2 ^ f.mb := Nat.div_pos h (Nat.two_pow_pos _)
  have hb : f.binade n + 1 = n / 2 ^ f.mb := by
    unfold binade
    omega
  have hn := Nat.div_add_mod' n (2 ^ f.mb)
  have hs := f.binade_mul_add_sig n
  rw [← hb, Nat.succ_mul] at hn
  exact ⟨hb, by omega⟩

theorem sig_lt (n : Nat) : f.sig n < 2 ^ (f.mb + 1) := by
  have hmod := Nat.mod_lt n (Nat.two_pow_pos f.mb)
  rw [Nat.pow_succ]
  rcases Nat.lt_or_ge n (2 ^ f.mb) with h | h
  · rw [(f.sig_of_lt h).2]
    omega
  · rw [(f.sig_of_ge h).2]
    omega

/-- A significand with its leading bit, or one of the lowest binade, makes the encoding that has it. -/
theorem binade_sig {E k : Nat} (hk : k < 2 ^ (f.mb + 1)) (h : E = 0 ∨ 2 ^ f.mb ≤ k) :
    f.binade (E * 2 ^ f.mb + k) = E ∧ f.sig (E * 2 ^ f.mb + k) = k := by
  have hpos := Nat.two_pow_pos f.mb
  have hb : f.binade (E * 2 ^ f.mb + k) = E := by
    have hdiv : (E * 2 ^ f.mb + k) / 2 ^ f.mb = E + k / 2 ^ f.mb := by
      rw [Nat.add_comm, Nat.add_mul_div_right _ _ hpos, Nat.add_comm]
    have hle : k / 2 ^ f.mb < 2 := Nat.div_lt_of_lt_mul (by rwa [← Nat.pow_succ])
    rw [binade, hdiv]
    rcases h with rfl | h
    · omega
    · have := Nat.div_pos h hpos
      omega
  exact ⟨hb, by rw [sig, hb, Nat.add_sub_cancel_left]⟩

theorem magnitude_eq (n : Nat) : Rules.magnitude f n = f.sig n * (2 : ℚ) ^ f.ulp n := by
  unfold Rules.magnitude ulp
  split
  next h =>
    obtain ⟨hb, hs⟩ := f.sig_of_lt h
    rw [hb, hs, Nat.cast_zero, zero_add]
  next h =>
    obtain ⟨hb, hs⟩ := f.sig_of_ge (Nat.le_of_not_lt h)
    rw [hs, ← hb]
    congr 2
    simp only [emin, Nat.cast_add, Nat.cast_one]
    ring

theorem magnitude_zero : Rules.magnitude f 0 = 0 := by simp [Rules.magnitude]

/-- A neighbour lies one unit of the last place above. -/
theorem magnitude_succ (n : Nat) : Rules.magnitude f (n + 1) = (f.sig n + 1 : Nat) * (2 : ℚ) ^ f.ulp n := by
  have hn := f.binade_mul_add_sig n
  have hle : f.sig n + 1 ≤ 2 ^ (f.mb + 1) := f.sig_lt n
  have hlead : f.binade n = 0 ∨ 2 ^ f.mb ≤ f.sig n + 1 := by
    rcases Nat.lt_or_ge n (2 ^ f.mb) with h | h
    · exact .inl (f.sig_of_lt h).1
    · exact .inr (by rw [(f.sig_of_ge h).2]; omega)
  rcases Nat.lt_or_eq_of_le hle with hlt | heq
  · obtain ⟨hb, hs⟩ := f.binade_sig hlt hlead
    rw [← Nat.add_assoc, hn] at hb hs
    rw [magnitude_eq, hs, ulp, hb, ulp]
  · have hnext : n + 1 = (f.binade n + 1) * 2 ^ f.mb + 2 ^ f.mb := by
      rw [Nat.succ_mul]
      rw [Nat.pow_succ] at heq
      omega
    obtain ⟨hb, hs⟩ := f.binade_sig (E := f.binade n + 1) (Nat.pow_lt_pow_succ (by decide)) (.inr le_rfl)
    rw [magnitude_eq, hnext, hs, ulp, hb, heq, ulp]
    have : ((f.binade n + 1 : Nat) : Int) + f.emin - f.mb = 1 + (f.binade n + f.emin - f.mb) := by
      push_cast
      ring
    rw [this, zpow_add₀ two_ne_zero, pow_succ]
    push_cast
    ring

theorem magnitude_strictMono : StrictMono (Rules.magnitude f) := by
  refine strictMono_nat_of_lt_succ fun n => ?_
  rw [magnitude_succ, magnitude_eq, Nat.cast_succ]
  exact mul_lt_mul_of_pos_right (lt_add_one _) (zpow_pos two_pos _)

theorem magnitude_nonneg (n : Nat) : 0 ≤ Rules.magnitude f n := by
  rw [← f.magnitude_zero]
  exact f.magnitude_strictMono.monotone n.zero_le

theorem magnitude_eq_zero {n : Nat} : Rules.magnitude f n = 0 ↔ n = 0 := by
  rw [← f.magnitude_zero, f.magnitude_strictMono.injective.eq_iff]

theorem sig_eq_zero {n : Nat} : f.sig n = 0 ↔ n = 0 := by
  rw [← f.magnitude_eq_zero (n := n), magnitude_eq, mul_eq_zero, Nat.cast_eq_zero, or_iff_left (zpow_ne_zero _ two_ne_zero)]

/-! ### Signs -/

theorem signBits_lt (s : Bool) : f.signBits s < 2 * 2 ^ (f.eb + f.mb) := by
  have := Nat.two_pow_pos (f.eb + f.mb)
  cases s <;> simp [signBits]

/-- The sign and the magnitude of an encoding put together. -/
theorem signBits_add {s : Bool} {n : Nat} (h : n < 2 ^ (f.eb + f.mb)) :
    (f.signBits s + n).testBit (f.eb + f.mb) = s ∧ (f.signBits s + n) % 2 ^ (f.eb + f.mb) = n := by
  cases s with
  | false => simp [signBits, Nat.testBit_lt_two_pow h, Nat.mod_eq_of_lt h]
  | true => simp [signBits, Nat.testBit_two_pow_add_eq, Nat.testBit_lt_two_pow h, Nat.mod_eq_of_lt h]

theorem signBits_eq_mul (x k : Nat) : f.signBits (x.testBit k) = x / 2 ^ k % 2 * 2 ^ (f.eb + f.mb) := by
  rw [signBits, Nat.testBit_eq_decide_div_mod_eq]
  rcases Nat.mod_two_eq_zero_or_one (x / 2 ^ k) with h | h <;> simp [h]

/-- An encoding of the format's width is its sign and its magnitude. -/
theorem signBits_add_mod {x : Nat} (h : x < 2 * 2 ^ (f.eb + f.mb)) :
    f.signBits (x.testBit (f.eb + f.mb)) + x % 2 ^ (f.eb + f.mb) = x := by
  have hdiv : x / 2 ^ (f.eb + f.mb) < 2 := Nat.div_lt_of_lt_mul (by rwa [Nat.mul_comm])
  rw [signBits_eq_mul, Nat.mod_eq_of_lt hdiv, Nat.div_add_mod']

theorem two_pow_width : 2 ^ f.width = 2 * 2 ^ (f.eb + f.mb) := by
  rw [width, Nat.add_assoc, Nat.pow_add, Nat.pow_one]

theorem number_signBits_add {s : Bool} {n : Nat} (h : n < 2 ^ (f.eb + f.mb)) :
    Rules.number f (f.signBits s + n) = (if s then -1 else 1) * Rules.magnitude f n := by
  obtain ⟨hs, hn⟩ := f.signBits_add (s := s) h
  rw [Rules.number, hs, hn]

theorem abs_number (x : Nat) : |Rules.number f x| = Rules.magnitude f (x % 2 ^ (f.eb + f.mb)) := by
  unfold Rules.number
  split <;> simp [abs_of_nonneg (f.magnitude_nonneg _)]

end Sys2Proof.Machine.Fmt
namespace Sys2Proof.FTy
open Machine

/-! ### The formats of R229 -/

theorem mb_pos (t : FTy) : 0 < t.fmt.mb := by cases t <;> decide
theorem eb_pos (t : FTy) : 0 < t.fmt.eb := by cases t <;> decide
theorem maxBits_lt (t : FTy) : t.fmt.maxBits < 2 ^ (t.fmt.eb + t.fmt.mb) := by cases t <;> decide
theorem infBits_lt (t : FTy) : t.fmt.infBits < 2 ^ (t.fmt.eb + t.fmt.mb) := by cases t <;> decide
theorem infBits_eq {t : FTy} : t.fmt.sp = .ieee → t.fmt.infBits = t.fmt.maxBits + 1 := by cases t <;> decide
theorem ieee_of_isArith {t : FTy} : t.isArith = true → t.fmt.sp = .ieee := by cases t <;> decide

/-! ### What an encoding decodes to -/

variable {t : FTy} {x : Nat}

/-- A magnitude, its exponent field and its mantissa field. -/
theorem bits_exponent (t : FTy) (x : Nat) :
    bits x (t.fmt.eb + t.fmt.mb - 1) t.fmt.mb = x % 2 ^ (t.fmt.eb + t.fmt.mb) / 2 ^ t.fmt.mb := by
  have hw : t.fmt.eb + t.fmt.mb - 1 - t.fmt.mb + 1 = t.fmt.eb := by
    have := eb_pos t
    omega
  rw [bits, hw, Nat.add_comm, Nat.pow_add, Nat.mod_mul_right_div_self]

theorem mod_mantissa (t : FTy) (x : Nat) : x % 2 ^ t.fmt.mb = x % 2 ^ (t.fmt.eb + t.fmt.mb) % 2 ^ t.fmt.mb :=
  (Nat.mod_mod_of_dvd x (Nat.pow_dvd_pow 2 (Nat.le_add_left ..))).symm

theorem decode_of_finite (h : Rules.isFinite t.fmt x) :
    t.fmt.decode x = .fin (x.testBit (t.fmt.eb + t.fmt.mb)) (t.fmt.sig (x % 2 ^ (t.fmt.eb + t.fmt.mb)))
      (t.fmt.ulp (x % 2 ^ (t.fmt.eb + t.fmt.mb))) := by
  have hmax := maxBits_lt t
  unfold Rules.isFinite at h
  simp only [Fmt.decode, bits_exponent, mod_mantissa t x, bit]
  generalize x % 2 ^ (t.fmt.eb + t.fmt.mb) = n at h
  have hpos := Nat.two_pow_pos t.fmt.mb
  rw [if_neg, if_neg]
  · split
    next h0 =>
      have hlt : n < 2 ^ t.fmt.mb := (Nat.div_eq_zero_iff.1 h0).resolve_left hpos.ne'
      obtain ⟨hb, hs⟩ := t.fmt.sig_of_lt hlt
      rw [Nat.mod_eq_of_lt hlt, hs, Fmt.ulp, hb, Nat.cast_zero, zero_add]
    next h0 =>
      have hge : 2 ^ t.fmt.mb ≤ n := by
        by_contra hlt
        exact h0 (Nat.div_eq_of_lt (Nat.lt_of_not_le hlt))
      obtain ⟨hb, hs⟩ := t.fmt.sig_of_ge hge
      rw [hs, ← hb, Fmt.ulp, Fmt.emin]
      congr 1
      push_cast
      ring
  · rintro ⟨hsp, heq⟩
    have htwo : 2 ≤ 2 ^ (t.fmt.eb + t.fmt.mb) :=
      Nat.le_self_pow (Nat.add_pos_left t.eb_pos _).ne' 2
    simp only [Fmt.maxBits, hsp] at h
    generalize 2 ^ (t.fmt.eb + t.fmt.mb) = top at *
    omega
  · rintro ⟨hsp, heq⟩
    have hmul : (2 ^ t.fmt.eb - 1) * 2 ^ t.fmt.mb ≤ n := heq ▸ Nat.div_mul_le_self n _
    have hinf : (2 ^ t.fmt.eb - 1) * 2 ^ t.fmt.mb = t.fmt.maxBits + 1 := infBits_eq hsp
    rw [hinf] at hmul
    omega

theorem decode_of_zero (h : x % 2 ^ (t.fmt.eb + t.fmt.mb) = 0) :
    t.fmt.decode x = .fin (x.testBit (t.fmt.eb + t.fmt.mb)) 0 (t.fmt.ulp 0) := by
  have hfin : Rules.isFinite t.fmt x := h.le.trans (Nat.zero_le _)
  rw [decode_of_finite hfin, h, t.fmt.sig_eq_zero.2 rfl]

theorem worth_decode (h : Rules.isFinite t.fmt x) : Rules.worth (t.fmt.decode x) = Rules.number t.fmt x := by
  rw [decode_of_finite h, Rules.worth, Rules.number, Fmt.magnitude_eq, mul_assoc]

theorem isFin_decode (h : Rules.isFinite t.fmt x) : (t.fmt.decode x).IsFin := ⟨_, _, _, decode_of_finite h⟩

theorem exponent_ones (h : t.fmt.infBits ≤ x % 2 ^ (t.fmt.eb + t.fmt.mb)) :
    bits x (t.fmt.eb + t.fmt.mb - 1) t.fmt.mb = 2 ^ t.fmt.eb - 1
      ∧ t.fmt.infBits + x % 2 ^ t.fmt.mb = x % 2 ^ (t.fmt.eb + t.fmt.mb) := by
  have hpos := Nat.two_pow_pos t.fmt.mb
  have hlt := Nat.mod_lt x (Nat.two_pow_pos (t.fmt.eb + t.fmt.mb))
  have hex : x % 2 ^ (t.fmt.eb + t.fmt.mb) / 2 ^ t.fmt.mb = 2 ^ t.fmt.eb - 1 := by
    have hle : 2 ^ t.fmt.eb - 1 ≤ x % 2 ^ (t.fmt.eb + t.fmt.mb) / 2 ^ t.fmt.mb := (Nat.le_div_iff_mul_le hpos).2 h
    have hge : x % 2 ^ (t.fmt.eb + t.fmt.mb) / 2 ^ t.fmt.mb < 2 ^ t.fmt.eb :=
      Nat.div_lt_of_lt_mul (by rwa [← Nat.pow_add, Nat.add_comm t.fmt.mb])
    omega
  refine ⟨(bits_exponent t x).trans hex, ?_⟩
  rw [mod_mantissa t x, Fmt.infBits, ← hex, Nat.div_add_mod']

variable (hsp : t.fmt.sp = .ieee)
include hsp

theorem decode_of_inf (h : x % 2 ^ (t.fmt.eb + t.fmt.mb) = t.fmt.infBits) :
    t.fmt.decode x = .inf (x.testBit (t.fmt.eb + t.fmt.mb)) := by
  obtain ⟨hex, hman⟩ := exponent_ones h.ge
  have hzero : x % 2 ^ t.fmt.mb = 0 := by omega
  simp [Fmt.decode, hsp, hex, hzero, bit]

theorem decode_of_nan (h : t.fmt.infBits < x % 2 ^ (t.fmt.eb + t.fmt.mb)) :
    t.fmt.decode x = .nan (x.testBit (t.fmt.eb + t.fmt.mb)) (x % 2 ^ t.fmt.mb) := by
  obtain ⟨hex, hman⟩ := exponent_ones h.le
  have hzero : x % 2 ^ t.fmt.mb ≠ 0 := by omega
  simp [Fmt.decode, hsp, hex, hzero, bit]

/-- An encoding is finite, an infinity or a NaN. -/
theorem encoding_cases (x : Nat) : Rules.isFinite t.fmt x ∨ x % 2 ^ (t.fmt.eb + t.fmt.mb) = t.fmt.infBits
    ∨ t.fmt.infBits < x % 2 ^ (t.fmt.eb + t.fmt.mb) := by
  have := infBits_eq hsp
  unfold Rules.isFinite
  omega

theorem isNan_decode : (t.fmt.decode x).isNan = true ↔ t.fmt.infBits < x % 2 ^ (t.fmt.eb + t.fmt.mb) := by
  have hinf := infBits_eq hsp
  rcases encoding_cases hsp x with h | h | h
  · rw [decode_of_finite h]
    unfold Rules.isFinite at h
    simp only [FVal.isNan, Bool.false_eq_true, false_iff]
    omega
  · rw [decode_of_inf hsp h]
    simp [FVal.isNan, h]
  · simp [decode_of_nan hsp h, FVal.isNan, h]

end Sys2Proof.FTy
end

section
/-!
SUPPORT. `round()`: the encoding below a number, the choice between it and its neighbour, and that what `roundFrac` gives is rounded
once (R235, R236), also to an integer (R302, R307).
-/
namespace Sys2Proof.Machine

/-! ### The binary exponent and the quantum -/

section
variable {p q : Nat} (hp : 0 < p) (hq : 0 < q)
include hp hq

/-- p ÷ q lies in the binade that `fracLog2` names. -/
theorem fracLog2_spec : (2 : ℚ) ^ fracLog2 p q ≤ (p : ℚ) / q ∧ (p : ℚ) / q < (2 : ℚ) ^ (fracLog2 p q + 1) := by
  have hp1 : (2 : ℚ) ^ Nat.log2 p ≤ p := by exact_mod_cast Nat.log2_self_le hp.ne'
  have hp2 : (p : ℚ) < 2 ^ (Nat.log2 p + 1) := by exact_mod_cast Nat.lt_log2_self
  have hq1 : (2 : ℚ) ^ Nat.log2 q ≤ q := by exact_mod_cast Nat.log2_self_le hq.ne'
  have hq2 : (q : ℚ) < 2 ^ (Nat.log2 q + 1) := by exact_mod_cast Nat.lt_log2_self
  have hq0 : (0 : ℚ) < q := Nat.cast_pos.2 hq
  have hbranch (k : Int) : q * pow2 k ≤ p * pow2 (-k) ↔ (2 : ℚ) ^ k ≤ (p : ℚ) / q := by
    rw [← pow2_div_pow2_neg, div_le_div_iff₀ (Nat.cast_pos.2 (pow2_pos _)) hq0, ← Nat.cast_le (α := ℚ), Nat.cast_mul, Nat.cast_mul,
      mul_comm (q : ℚ)]
  unfold fracLog2
  simp only [hbranch]
  split
  next h =>
    refine ⟨h, ?_⟩
    rw [div_lt_iff₀ hq0]
    calc (p : ℚ) < 2 ^ (Nat.log2 p + 1) := hp2
      _ = (2 : ℚ) ^ ((Nat.log2 p : Int) - Nat.log2 q + 1) * 2 ^ Nat.log2 q := by
        rw [← zpow_natCast, ← zpow_natCast, ← zpow_add₀ two_ne_zero]
        congr 1
        push_cast
        ring
      _ ≤ _ := mul_le_mul_of_nonneg_left hq1 (zpow_nonneg zero_le_two _)
  next h =>
    refine ⟨?_, by rw [sub_add_cancel]; exact lt_of_not_ge h⟩
    rw [le_div_iff₀ hq0]
    calc (2 : ℚ) ^ ((Nat.log2 p : Int) - Nat.log2 q - 1) * q
        ≤ (2 : ℚ) ^ ((Nat.log2 p : Int) - Nat.log2 q - 1) * 2 ^ (Nat.log2 q + 1) :=
          mul_le_mul_of_nonneg_left hq2.le (zpow_nonneg zero_le_two _)
      _ = 2 ^ Nat.log2 p := by
        rw [← zpow_natCast, ← zpow_natCast, ← zpow_add₀ two_ne_zero]
        congr 1
        push_cast
        ring
      _ ≤ p := hp1

omit hp

/-- The floor, the remainder and its denominator make up p ÷ q in units of 2^u. -/
theorem quantum_spec (u : Int) : (quantum p q u).2.1 < (quantum p q u).2.2 ∧
    (p : ℚ) / q = ((quantum p q u).1 + (quantum p q u).2.1 / (quantum p q u).2.2 : ℚ) * 2 ^ u := by
  have hd : 0 < q * pow2 u := Nat.mul_pos hq (pow2_pos u)
  have hd0 : ((q * pow2 u : Nat) : ℚ) ≠ 0 := Nat.cast_ne_zero.2 hd.ne'
  refine ⟨Nat.mod_lt _ hd, ?_⟩
  have hdiv : (p * pow2 (-u) : Nat) =
      ((q * pow2 u : Nat) : ℚ) * (p * pow2 (-u) / (q * pow2 u) : Nat) + (p * pow2 (-u) % (q * pow2 u) : Nat) := by
    exact_mod_cast (Nat.div_add_mod _ _).symm
  have hsum : ((quantum p q u).1 + (quantum p q u).2.1 / (quantum p q u).2.2 : ℚ) = (p * pow2 (-u) : Nat) / (q * pow2 u : Nat) := by
    rw [hdiv, add_div, mul_div_cancel_left₀ _ hd0]
    rfl
  have hneg : ((pow2 (-u) : Nat) : ℚ) ≠ 0 := Nat.cast_ne_zero.2 (pow2_pos _).ne'
  have hpow : ((pow2 u : Nat) : ℚ) ≠ 0 := Nat.cast_ne_zero.2 (pow2_pos _).ne'
  have hq0 : (q : ℚ) ≠ 0 := Nat.cast_ne_zero.2 hq.ne'
  rw [hsum, ← pow2_div_pow2_neg]
  push_cast
  field_simp

/-- The floor of a quantum is the greatest multiple of 2^u not above p ÷ q. -/
theorem quantum_floor (u : Int) :
    ((quantum p q u).1 : ℚ) * 2 ^ u ≤ (p : ℚ) / q ∧ (p : ℚ) / q < ((quantum p q u).1 + 1 : ℚ) * 2 ^ u := by
  obtain ⟨hrem, heq⟩ := quantum_spec (p := p) hq u
  have hu : (0 : ℚ) < 2 ^ u := zpow_pos two_pos _
  have hden : (0 : ℚ) < (quantum p q u).2.2 := Nat.cast_pos.2 (Nat.zero_lt_of_lt hrem)
  have hpos : 0 ≤ ((quantum p q u).2.1 : ℚ) / (quantum p q u).2.2 := div_nonneg (Nat.cast_nonneg _) hden.le
  have hone : ((quantum p q u).2.1 : ℚ) / (quantum p q u).2.2 < 1 := (div_lt_one hden).2 (Nat.cast_lt.2 hrem)
  rw [heq]
  exact ⟨mul_le_mul_of_nonneg_right (by linarith) hu.le, mul_lt_mul_of_pos_right (by linarith) hu⟩

end

/-! ### The choice of R235 and R236 -/

/-- Nothing is rounded up where nothing is left over. -/
theorem roundsUp_zero {mode : Nat} {s : Bool} {a den r : Nat} (hden : 0 < den) : roundsUp mode s a 0 den r = false := by
  unfold roundsUp
  split <;> simp [hden.ne', hden.ne]

/-- With `rem` of `den` parts of the way to the neighbour left over, the mode picks as R235 and R236 say. -/
theorem roundsUp_iff {mode : Nat} {s : Bool} {a b rem den r : Nat} {c lo hi : ℚ} (h1 : 1 ≤ mode) (h6 : mode ≤ 6)
    (hpar : a % 2 = b % 2) (hrem : 0 < rem) (hc : 0 < c) (hlo : lo = rem * c) (hhi : lo + hi = den * c) :
    roundsUp mode s a rem den r = true ↔ Rules.goesUp mode r s b lo hi := by
  have hmul (m n : Nat) : m < n ↔ (m : ℚ) * c < n * c := by rw [mul_lt_mul_iff_left₀ hc, Nat.cast_lt]
  have heq (m n : Nat) : m = n ↔ (m : ℚ) * c = n * c := by rw [mul_left_inj' hc.ne', Nat.cast_inj]
  have htwo : ((2 * rem : Nat) : ℚ) * c = lo + lo := by
    rw [hlo]
    push_cast
    ring
  have hhalf : hi < lo ↔ den < 2 * rem := by rw [hmul, htwo, ← hhi, add_lt_add_iff_left]
  have htie : hi = lo ↔ 2 * rem = den := by rw [heq, htwo, ← hhi, add_right_inj, eq_comm]
  have hrand : (r : ℚ) * (lo + hi) < lo * 2 ^ 32 ↔ r * den < rem * 2 ^ 32 := by
    rw [hmul, hhi, hlo, mul_right_comm (rem : ℚ), ← mul_assoc, Nat.cast_mul, Nat.cast_mul, Nat.cast_pow, Nat.cast_ofNat]
  unfold roundsUp Rules.goesUp
  obtain rfl | rfl | rfl | rfl | rfl | rfl : mode = 1 ∨ mode = 2 ∨ mode = 3 ∨ mode = 4 ∨ mode = 5 ∨ mode = 6 := by omega
  · simp only [hhalf, htie, hpar, Bool.or_eq_true, Bool.and_eq_true, decide_eq_true_eq, beq_iff_eq]
  · simp
  · simp [hrem.ne']
  · simp [hrem.ne']
  · simp only [decide_eq_true_eq, le_iff_lt_or_eq, hhalf, htie]
    omega
  · simp only [decide_eq_true_eq, hrand]

/-! ### `roundFrac` -/

namespace Fmt
variable (f : Fmt)

/-- The exponent of the last place that p ÷ q is rounded to, and the encoding of the greatest magnitude not above p ÷ q. -/
def place (p q : Nat) : Int := (if fracLog2 p q < f.emin then f.emin else fracLog2 p q) - f.mb
def floorBits (p q : Nat) : Nat := (f.place p q - (f.emin - f.mb)).toNat * 2 ^ f.mb + (quantum p q (f.place p q)).1

/-- The encoding that the mode picks for p ÷ q. -/
def pickBits (mode r : Nat) (s : Bool) (p q : Nat) : Nat :=
  let (a, rem, den) := quantum p q (f.place p q)
  if roundsUp mode s a rem den r then f.floorBits p q + 1 else f.floorBits p q

theorem roundFrac_val (mode r : Nat) (sat s : Bool) (p q : Nat) : (f.roundFrac mode r sat s p q).val =
    if f.maxBits < f.pickBits mode r s p q then f.overflow mode s sat else f.signBits s + f.pickBits mode r s p q := by
  have hpick : (f.place p q - (f.emin - f.mb)).toNat * 2 ^ f.mb
      + (if roundsUp mode s (quantum p q (f.place p q)).1 (quantum p q (f.place p q)).2.1 (quantum p q (f.place p q)).2.2 r
        then (quantum p q (f.place p q)).1 + 1 else (quantum p q (f.place p q)).1) = f.pickBits mode r s p q := by
    simp only [pickBits, floorBits]
    split <;> rfl
  rw [← hpick]
  unfold roundFrac
  dsimp only
  rw [apply_ite FRes.val, apply_ite FRes.val, ite_self]
  rfl

variable {f} {p q : Nat}

section
variable (hp : 0 < p) (hq : 0 < q)
include hp hq

theorem quantum_lt : (quantum p q (f.place p q)).1 < 2 ^ (f.mb + 1) := by
  have hplace : fracLog2 p q - f.mb ≤ f.place p q := by
    unfold place
    split <;> omega
  have hu : (0 : ℚ) < 2 ^ f.place p q := zpow_pos two_pos _
  have : ((quantum p q (f.place p q)).1 : ℚ) * 2 ^ f.place p q < 2 ^ (f.mb + 1) * 2 ^ f.place p q :=
    calc ((quantum p q (f.place p q)).1 : ℚ) * 2 ^ f.place p q ≤ (p : ℚ) / q := (quantum_floor hq _).1
      _ < 2 ^ (fracLog2 p q + 1) := (fracLog2_spec hp hq).2
      _ ≤ 2 ^ (((f.mb + 1 : Nat) : Int) + f.place p q) := zpow_le_zpow_right₀ one_le_two (by push_cast; omega)
      _ = 2 ^ (f.mb + 1) * 2 ^ f.place p q := by rw [zpow_add₀ two_ne_zero, zpow_natCast]
  exact_mod_cast lt_of_mul_lt_mul_right this hu.le

/-- A quotient that is not subnormal has its leading bit. -/
theorem two_pow_le_quantum (hex : f.emin ≤ fracLog2 p q) : 2 ^ f.mb ≤ (quantum p q (f.place p q)).1 := by
  have hlp : f.place p q = fracLog2 p q - f.mb := by rw [place, if_neg (not_lt.2 hex)]
  have hu : (0 : ℚ) < 2 ^ f.place p q := zpow_pos two_pos _
  refine Nat.lt_succ_iff.1 ?_
  have : (2 : ℚ) ^ f.mb * 2 ^ f.place p q < ((quantum p q (f.place p q)).1 + 1) * 2 ^ f.place p q :=
    calc (2 : ℚ) ^ f.mb * 2 ^ f.place p q = 2 ^ fracLog2 p q := by
          rw [← zpow_natCast, ← zpow_add₀ two_ne_zero, hlp, add_sub_cancel]
      _ ≤ (p : ℚ) / q := (fracLog2_spec hp hq).1
      _ < _ := (quantum_floor hq _).2
  exact_mod_cast lt_of_mul_lt_mul_right this hu.le

/-- The floor's significand and last place are those that `roundFrac` works with. -/
theorem floorBits_sig : f.sig (f.floorBits p q) = (quantum p q (f.place p q)).1 ∧ f.ulp (f.floorBits p q) = f.place p q := by
  have hle : f.emin - f.mb ≤ f.place p q := by
    unfold place
    split <;> omega
  have hlead : (f.place p q - (f.emin - f.mb)).toNat = 0 ∨ 2 ^ f.mb ≤ (quantum p q (f.place p q)).1 := by
    rcases lt_or_ge (fracLog2 p q) f.emin with hex | hex
    · rw [place, if_pos hex]
      exact .inl (by omega)
    · exact .inr (two_pow_le_quantum hp hq hex)
  obtain ⟨hb, hs⟩ := f.binade_sig (quantum_lt hp hq) hlead
  refine ⟨hs, ?_⟩
  rw [ulp, floorBits, hb]
  omega

/-- p ÷ q lies `rem` parts of `den` above the magnitude of its floor, towards the next one. -/
theorem floorBits_spec : ∃ c : ℚ, 0 < c ∧
    (p : ℚ) / q - Rules.magnitude f (f.floorBits p q) = (quantum p q (f.place p q)).2.1 * c ∧
    Rules.magnitude f (f.floorBits p q + 1) - Rules.magnitude f (f.floorBits p q) = (quantum p q (f.place p q)).2.2 * c := by
  obtain ⟨hs, hu⟩ := f.floorBits_sig hp hq
  obtain ⟨hrem, heq⟩ := quantum_spec (p := p) hq (f.place p q)
  have hden : (0 : ℚ) < (quantum p q (f.place p q)).2.2 := Nat.cast_pos.2 (Nat.zero_lt_of_lt hrem)
  refine ⟨2 ^ f.place p q / (quantum p q (f.place p q)).2.2, div_pos (zpow_pos two_pos _) hden, ?_, ?_⟩
  · rw [magnitude_eq, hs, hu, heq]
    ring
  · rw [magnitude_succ, magnitude_eq, hs, hu, mul_div_cancel₀ _ hden.ne']
    push_cast
    ring

/-- The floor is not above p ÷ q, and the next magnitude is above it. -/
theorem floorBits_le :
    Rules.magnitude f (f.floorBits p q) ≤ (p : ℚ) / q ∧ (p : ℚ) / q < Rules.magnitude f (f.floorBits p q + 1) := by
  obtain ⟨c, hc, hlo, hstep⟩ := floorBits_spec (f := f) hp hq
  have hrem := (quantum_spec (p := p) hq (f.place p q)).1
  have h0 : (0 : ℚ) ≤ (quantum p q (f.place p q)).2.1 * c := mul_nonneg (Nat.cast_nonneg _) hc.le
  have h1 : ((quantum p q (f.place p q)).2.1 : ℚ) * c < (quantum p q (f.place p q)).2.2 * c :=
    mul_lt_mul_of_pos_right (Nat.cast_lt.2 hrem) hc
  constructor <;> linarith

theorem floorBits_unique {n : Nat} (hle : Rules.magnitude f n ≤ (p : ℚ) / q) (hlt : (p : ℚ) / q < Rules.magnitude f (n + 1)) :
    n = f.floorBits p q := by
  obtain ⟨hle', hlt'⟩ := floorBits_le (f := f) hp hq
  have h1 := f.magnitude_strictMono.lt_iff_lt.1 (hle.trans_lt hlt')
  have h2 := f.magnitude_strictMono.lt_iff_lt.1 (hle'.trans_lt hlt)
  omega

/-- A magnitude is its own floor, and is picked in every mode. -/
theorem pickBits_of_eq {mode r n : Nat} {s : Bool} (h : Rules.magnitude f n = (p : ℚ) / q) : f.pickBits mode r s p q = n := by
  have hn : n = f.floorBits p q :=
    floorBits_unique hp hq h.le (h ▸ f.magnitude_strictMono (Nat.lt_succ_self n))
  obtain ⟨c, hc, hlo, -⟩ := floorBits_spec (f := f) hp hq
  have hrem := (quantum_spec (p := p) hq (f.place p q)).1
  rw [← hn, h, sub_self, eq_comm, mul_eq_zero, Nat.cast_eq_zero] at hlo
  have hzero := hlo.resolve_right hc.ne'
  simp only [pickBits, hzero, roundsUp_zero (hzero ▸ hrem), Bool.false_eq_true, if_false, ← hn]

/-- Of two neighbours about p ÷ q the mode picks one. -/
theorem pickBits_between (hmb : 0 < f.mb) {mode r a : Nat} {s : Bool} (h1 : 1 ≤ mode) (h6 : mode ≤ 6)
    (hlt : Rules.magnitude f a < (p : ℚ) / q) (hgt : (p : ℚ) / q < Rules.magnitude f (a + 1)) :
    let up := Rules.goesUp mode r s a ((p : ℚ) / q - Rules.magnitude f a) (Rules.magnitude f (a + 1) - (p : ℚ) / q)
    (up → f.pickBits mode r s p q = a + 1) ∧ (¬ up → f.pickBits mode r s p q = a) := by
  intro up
  have ha : a = f.floorBits p q := floorBits_unique hp hq hlt.le hgt
  obtain ⟨c, hc, hlo, hstep⟩ := floorBits_spec (f := f) hp hq
  rw [← ha] at hlo hstep
  have hrem : 0 < (quantum p q (f.place p q)).2.1 := by
    refine Nat.pos_of_ne_zero fun h0 => ?_
    rw [h0, Nat.cast_zero, zero_mul, sub_eq_zero] at hlo
    exact hlt.ne' hlo
  have hpar : (quantum p q (f.place p q)).1 % 2 = a % 2 := by
    have heven : 2 ^ f.mb = 2 * 2 ^ (f.mb - 1) := by rw [← Nat.pow_succ', Nat.succ_eq_add_one, Nat.sub_add_cancel hmb]
    rw [ha, floorBits, heven, Nat.mul_left_comm, Nat.mul_add_mod]
  have hup := roundsUp_iff (s := s) (r := r) h1 h6 hpar hrem hc hlo (by rw [← hstep, sub_add_sub_cancel'])
  simp only [pickBits, ← ha]
  exact ⟨fun h => if_pos (hup.2 h), fun h => if_neg fun hr => h (hup.1 hr)⟩

/-- Numbers are rounded once, R235 and R236. -/
theorem rounds_roundFrac (hmb : 0 < f.mb) {mode : Nat} (h1 : 1 ≤ mode) (h6 : mode ≤ 6) (r : Nat) (s : Bool) :
    Rules.rounds f mode r s ((p : ℚ) / q) (f.roundFrac mode r false s p q).val := by
  have hval (n : Nat) (h : f.pickBits mode r s p q = n) : (f.roundFrac mode r false s p q).val =
      if f.maxBits < n then f.overflow mode s false else f.signBits s + n := by rw [roundFrac_val, h]
  have hover : f.overflow mode s false = f.signBits s +
      if mode = 2 ∨ (mode = 3 ∧ s = true) ∨ (mode = 4 ∧ s = false) then f.maxBits
      else match f.sp with | .ieee => f.infBits | .nanOnly => f.nanBits | .none => f.maxBits := by
    obtain rfl | rfl | rfl | rfl | rfl | rfl : mode = 1 ∨ mode = 2 ∨ mode = 3 ∨ mode = 4 ∨ mode = 5 ∨ mode = 6 := by omega
    all_goals cases s <;> rfl
  have hpick (n : Nat) (h : f.pickBits mode r s p q = n) := (hval n h).trans (by rw [hover, ← apply_ite (f.signBits s + ·)])
  refine ⟨fun n hn h => ?_, fun a hlt hgt => ?_⟩
  · exact (hval n (pickBits_of_eq hp hq h)).trans (if_neg (Nat.not_lt.2 hn))
  · obtain ⟨hup, hdown⟩ := pickBits_between (r := r) (s := s) hp hq hmb h1 h6 hlt hgt
    exact ⟨fun h => hpick _ (hup h), fun h => hpick _ (hdown h)⟩

end

/-- A rounded result is finite or the infinity with its sign. -/
theorem roundFrac_val_eq_signBits_add (hsp : f.sp = .ieee) (mode r : Nat) (sat s : Bool) (p q : Nat) :
    ∃ n, n ≤ max f.maxBits f.infBits ∧ (f.roundFrac mode r sat s p q).val = f.signBits s + n := by
  rw [roundFrac_val]
  split
  · simp only [overflow, hsp]
    exact ⟨_, ite_le_sup .., rfl⟩
  next h => exact ⟨_, (Nat.le_of_not_lt h).trans (le_max_left ..), rfl⟩

end Fmt

/-! ### Rounding to an integer -/

theorem roundInt_wholeOf {mode p q : Nat} (hq : 0 < q) (h1 : 1 ≤ mode) (h6 : mode ≤ 6) (r : Nat) (s : Bool) :
    Rules.wholeOf mode r s ((p : ℚ) / q) (roundInt mode r s p q) := by
  obtain ⟨hrem, heq⟩ := quantum_spec (p := p) hq 0
  have hden : (0 : ℚ) < (quantum p q 0).2.2 := Nat.cast_pos.2 (Nat.zero_lt_of_lt hrem)
  rw [zpow_zero, mul_one] at heq
  simp only [roundInt]
  split
  next h0 => exact .inl (by rw [heq, h0, Nat.cast_zero, zero_div, add_zero])
  next h0 =>
    have hpos : 0 < (quantum p q 0).2.1 := Nat.pos_of_ne_zero h0
    have hfrac : 0 < ((quantum p q 0).2.1 : ℚ) / (quantum p q 0).2.2 := div_pos (Nat.cast_pos.2 hpos) hden
    have hone : ((quantum p q 0).2.1 : ℚ) / (quantum p q 0).2.2 < 1 := (div_lt_one hden).2 (Nat.cast_lt.2 hrem)
    refine .inr ⟨(quantum p q 0).1, by linarith, by linarith, ?_⟩
    rw [← roundsUp_iff (c := 1 / (quantum p q 0).2.2) h1 h6 rfl hpos (one_div_pos.2 hden) (by rw [heq]; ring)
      (by rw [mul_one_div_cancel hden.ne']; ring)]
    split
    next h => exact .inl ⟨h, rfl⟩
    next h => exact .inr ⟨h, rfl⟩

end Sys2Proof.Machine
end

section
/-!
SUPPORT. Operands of operations on elements, the NaNs that operations and conversions give, and results that are rounded once (R230,
R235 to R240, R296). The part of O51 about NaNs.
-/
namespace Sys2Proof.Machine

/-! ### The quiet bit -/

theorem or_two_pow_of_testBit {x k : Nat} (h : x.testBit k = true) : x ||| 2 ^ k = x := by
  refine Nat.eq_of_testBit_eq fun i => ?_
  rw [Nat.testBit_or, Nat.testBit_two_pow]
  by_cases hi : k = i
  · simp [← hi, h]
  · simp [hi]

theorem or_two_pow_of_clear {x k : Nat} (h : x.testBit k = false) : x ||| 2 ^ k = x + 2 ^ k := by
  have heven : x / 2 ^ k + 1 = x / 2 ^ k ||| 1 := by
    rw [Nat.testBit_eq_decide_div_mod_eq, decide_eq_false_iff_not] at h
    have hq : x / 2 ^ k = 2 ^ 1 * (x / 2 ^ k / 2) := by omega
    rw [hq, Nat.two_pow_add_eq_or_of_lt (by decide)]
  have hlow := Nat.mod_lt x (Nat.two_pow_pos k)
  have hsum : x + 2 ^ k = 2 ^ k * (x / 2 ^ k ||| 1) + x % 2 ^ k := by
    rw [← heven, Nat.mul_add_one]
    have := Nat.div_add_mod x (2 ^ k)
    omega
  rw [hsum, Nat.two_pow_add_eq_or_of_lt hlow]
  conv_lhs => rw [← Nat.div_add_mod x (2 ^ k), Nat.two_pow_add_eq_or_of_lt hlow]
  refine Nat.eq_of_testBit_eq fun i => ?_
  simp only [Nat.testBit_or, Nat.testBit_two_pow_mul, Nat.testBit_two_pow]
  rcases Nat.lt_trichotomy i k with hi | rfl | hi
  · simp [Nat.not_le.2 hi, hi.ne']
  · simp
  · have : (1 : Nat).testBit (i - k) = false := by rw [← Nat.pow_zero 2, Nat.testBit_two_pow_of_ne (by omega)]
    simp [hi.le, hi.ne, this]

/-- The quiet bit set in a mantissa field. -/
theorem mod_add_two_pow {x k : Nat} (h : x < 2 ^ (k + 1)) : x % 2 ^ k + 2 ^ k = x ||| 2 ^ k := by
  have hx := Nat.div_add_mod x (2 ^ k)
  have hdiv : x / 2 ^ k < 2 := Nat.div_lt_of_lt_mul (by rwa [← Nat.pow_succ])
  rcases hb : x.testBit k with _ | _
  · rw [or_two_pow_of_clear hb]
    rw [Nat.testBit_eq_decide_div_mod_eq, decide_eq_false_iff_not] at hb
    generalize x / 2 ^ k = d at *
    obtain rfl : d = 0 := by omega
    omega
  · rw [or_two_pow_of_testBit hb]
    rw [Nat.testBit_eq_decide_div_mod_eq, decide_eq_true_iff] at hb
    generalize x / 2 ^ k = d at *
    obtain rfl : d = 1 := by omega
    omega

theorem bit_mantissa (t : FTy) (x : Nat) : bit (x % 2 ^ t.fmt.mb) (t.fmt.mb - 1) = x.testBit (t.fmt.mb - 1) := by
  rw [bit, Nat.testBit_mod_two_pow, decide_eq_true (Nat.sub_lt t.mb_pos Nat.one_pos), Bool.true_and]

/-! ### Operands, R230, R238 -/

section
variable {e : FEnv} {t : FTy} {x : Nat}

theorem FEnv.operand_of_fz (hfz : e.fz t = false) (x : Nat) :
    e.operand t x = (t.fmt.decode x, if t.signalling (t.fmt.decode x) then flIV else 0) := by
  unfold FEnv.operand
  cases t.fmt.decode x with
  | nan s m => rfl
  | inf s => rfl
  | fin s m k => simp [hfz, FTy.signalling]

theorem FEnv.operand_of_finite (hfz : e.fz t = false) (h : Rules.isFinite t.fmt x) : e.operand t x = (t.fmt.decode x, 0) := by
  rw [FEnv.operand_of_fz hfz, FTy.decode_of_finite h]
  rfl

section
variable (hsp : t.fmt.sp = .ieee)
include hsp

theorem FEnv.operand_of_inf (h : x % 2 ^ (t.fmt.eb + t.fmt.mb) = t.fmt.infBits) :
    e.operand t x = (.inf (x.testBit (t.fmt.eb + t.fmt.mb)), 0) := by
  rw [FEnv.operand, FTy.decode_of_inf hsp h]
  rfl

theorem FEnv.operand_of_nan (h : t.fmt.infBits < x % 2 ^ (t.fmt.eb + t.fmt.mb)) :
    e.operand t x = (.nan (x.testBit (t.fmt.eb + t.fmt.mb)) (x % 2 ^ t.fmt.mb),
      if t.isArith = true ∧ x.testBit (t.fmt.mb - 1) = false then flIV else 0) := by
  rw [FEnv.operand, FTy.decode_of_nan hsp h]
  simp only [FTy.signalling, bit_mantissa, Bool.and_eq_true, Bool.not_eq_true']

/-- Flushing makes no NaN and takes none away. -/
theorem FEnv.isNan_operand : (e.operand t x).1.isNan = true ↔ t.fmt.infBits < x % 2 ^ (t.fmt.eb + t.fmt.mb) := by
  rw [← FTy.isNan_decode hsp, FEnv.operand]
  cases t.fmt.decode x with
  | nan s m => rfl
  | inf s => rfl
  | fin s m k =>
    split
    next h =>
      cases h
      split <;> rfl
    next h => exact absurd rfl (h _ _ _)

end

theorem FEnv.operand_of_zero (h : x % 2 ^ (t.fmt.eb + t.fmt.mb) = 0) :
    ∃ k, e.operand t x = (.fin (x.testBit (t.fmt.eb + t.fmt.mb)) 0 k, 0) := by
  refine ⟨t.fmt.ulp 0, ?_⟩
  rw [FEnv.operand, FTy.decode_of_zero h]
  simp

/-- A signalling NaN, and nothing else where nothing is flushed, raises IV. -/
theorem FEnv.operand_fl (ha : t.isArith = true) (hfz : e.fz t = false) (x : Nat) : (e.operand t x).2 =
    if t.fmt.infBits < x % 2 ^ (t.fmt.eb + t.fmt.mb) ∧ x.testBit (t.fmt.mb - 1) = false then 1 else 0 := by
  have hsp := FTy.ieee_of_isArith ha
  have hinf := FTy.infBits_eq hsp
  rcases FTy.encoding_cases hsp x with h | h | h
  · rw [FEnv.operand_of_finite hfz h, if_neg]
    rintro ⟨hn, -⟩
    unfold Rules.isFinite at h
    omega
  · simp [FEnv.operand_of_inf hsp h, h]
  · simp [FEnv.operand_of_nan hsp h, h, ha, flIV]

/-! ### The NaN of an operation, R239 -/

theorem FEnv.nanOf_of_nanc (h : e.nanc = true) (vs : List FVal) : e.nanOf t vs = t.fmt.nanBits := if_pos h

theorem FEnv.nanOf_cons_of_not_nan {v : FVal} (h : v.isNan = false) (vs : List FVal) : e.nanOf t (v :: vs) = e.nanOf t vs := by
  simp [FEnv.nanOf, h]

/-- The first NaN operand is quieted, with its sign and payload. -/
theorem FEnv.nanOf_cons_of_nan (hsp : t.fmt.sp = .ieee) (hc : e.nanc = false) (hx : x < 2 * 2 ^ (t.fmt.eb + t.fmt.mb))
    (hn : t.fmt.infBits < x % 2 ^ (t.fmt.eb + t.fmt.mb)) (vs : List FVal) :
    e.nanOf t ((e.operand t x).1 :: vs) = x ||| 2 ^ (t.fmt.mb - 1) := by
  have hparts : t.fmt.signBits (x.testBit (t.fmt.eb + t.fmt.mb)) + t.fmt.infBits + x % 2 ^ t.fmt.mb = x := by
    rw [Nat.add_assoc, (FTy.exponent_ones hn.le).2, Fmt.signBits_add_mod _ hx]
  rw [FEnv.operand_of_nan hsp hn]
  simp only [FEnv.nanOf, hc, Bool.false_eq_true, if_false, List.find?_cons, FVal.isNan, bit_mantissa]
  rcases hq : x.testBit (t.fmt.mb - 1) with _ | _
  · rw [or_two_pow_of_clear hq, if_neg Bool.false_ne_true, ← Nat.add_assoc, hparts]
  · rw [or_two_pow_of_testBit hq, if_pos rfl, hparts]

/-- Every element of an operation on a NaN is the NaN of R239. -/
theorem FEnv.element_of_nan (hsp : t.fmt.sp = .ieee) {j : Nat} {xs : List Nat} {op : List FVal → Option FVal} {also : List FVal → Bool}
    (h : ∃ x ∈ xs, t.fmt.infBits < x % 2 ^ (t.fmt.eb + t.fmt.mb)) :
    (e.element t j xs op also).val = e.nanOf t (xs.map fun x => (e.operand t x).1) := by
  obtain ⟨x, hx, hn⟩ := h
  have hany : ((xs.map (e.operand t)).map (·.1)).any FVal.isNan = true :=
    List.any_eq_true.2 ⟨_, List.mem_map_of_mem (List.mem_map_of_mem hx), (FEnv.isNan_operand hsp).2 hn⟩
  unfold FEnv.element
  rw [if_pos hany, List.map_map]
  rfl

/-- Where the operation is invalid, the element is the canonical NaN, with IV. -/
theorem FEnv.element_of_none (hsp : t.fmt.sp = .ieee) {j : Nat} {xs : List Nat} {op : List FVal → Option FVal} {also : List FVal → Bool}
    (h : ∀ x ∈ xs, ¬ t.fmt.infBits < x % 2 ^ (t.fmt.eb + t.fmt.mb)) (hop : op (xs.map fun x => (e.operand t x).1) = none) :
    e.element t j xs op also = invalid t ((xs.map (e.operand t)).foldl (fun a o => a ||| o.2) 0) := by
  have hany : ¬ ((xs.map (e.operand t)).map (·.1)).any FVal.isNan = true := by
    simp only [List.any_eq_true, List.mem_map, exists_exists_and_eq_and, not_exists, not_and]
    exact fun x hx hn => h x hx ((FEnv.isNan_operand hsp).1 hn)
  have hop' : op ((xs.map (e.operand t)).map (·.1)) = none := by rwa [List.map_map]
  unfold FEnv.element
  rw [if_neg hany, hop']

theorem invalid_raises (t : FTy) (fl : Nat) : (invalid t fl).val = t.fmt.nanBits ∧ (invalid t fl).fl.testBit 0 = true := by
  simp [invalid, flIV]

/-! ### NaNs converted, R239 -/

/-- The payload that a NaN of the format `u` brings to the format `t`: cut or extended at its low end, none from `.e4m3`. -/
def nanPayload (t u : FTy) (man : Nat) : Nat :=
  if u.fmt.sp = .nanOnly then 0
  else if t.fmt.mb ≤ u.fmt.mb then man / 2 ^ (u.fmt.mb - t.fmt.mb) else man * 2 ^ (t.fmt.mb - u.fmt.mb)

theorem FEnv.convert_nan_val {u : FTy} {s : Bool} {man fl j : Nat} (hx : e.operand u x = (.nan s man, fl)) (ht : t.fmt.sp = .ieee)
    (hc : e.nanc = false) : (e.convert t u j x).val =
      t.fmt.signBits s + t.fmt.infBits + nanPayload t u man % 2 ^ (t.fmt.mb - 1) + 2 ^ (t.fmt.mb - 1) := by
  simp only [FEnv.convert, hx, ht, hc, Bool.false_eq_true, if_false]
  rfl

end

/-- The part of O51 about NaNs: the first NaN operand is quieted, or the canonical NaN delivered, and a conversion fits the
payload to its format. -/
theorem nanResults : Rules.NanResults := by
  intro e t u j x y top isNan isInf sign quiet raises
  refine ⟨fun ha hx hy => ?_, fun hsp hn => ?_, fun hu ht hc hn => ?_⟩
  · have hsp := FTy.ieee_of_isArith ha
    refine ⟨fun r hr hn => ?_, fun hxi hyi hs => ?_, fun hxi hy0 => ?_⟩
    · have hval : r.val = e.nanOf t [(e.operand t x).1, (e.operand t y).1] := by
        have hmem : ∃ z ∈ [x, y], isNan t z := by simpa using hn
        rcases hr with rfl | rfl
        · exact FEnv.element_of_nan hsp hmem
        · exact FEnv.element_of_nan hsp hmem
      rw [hval]
      refine ⟨fun hc => FEnv.nanOf_of_nanc hc _, fun hc hxn => FEnv.nanOf_cons_of_nan hsp hc hx hxn _, fun hc hxn => ?_⟩
      rw [FEnv.nanOf_cons_of_not_nan (Bool.eq_false_iff.2 ((FEnv.isNan_operand hsp).not.2 hxn))]
      exact FEnv.nanOf_cons_of_nan hsp hc hy (hn.resolve_left hxn) _
    · have hsigns : x.testBit (t.fmt.eb + t.fmt.mb) ≠ y.testBit (t.fmt.eb + t.fmt.mb) := by
        rw [Nat.testBit_eq_decide_div_mod_eq, Nat.testBit_eq_decide_div_mod_eq, Ne, decide_eq_decide]
        have hx2 : sign t.fmt x < 2 := Nat.mod_lt _ two_pos
        have hy2 : sign t.fmt y < 2 := Nat.mod_lt _ two_pos
        show ¬ (sign t.fmt x = 1 ↔ sign t.fmt y = 1)
        omega
      have hno : faddE t e j [x, y] = invalid t _ := FEnv.element_of_none hsp (by simpa using ⟨hxi.le, hyi.le⟩)
        (by simp [FEnv.operand_of_inf hsp hxi, FEnv.operand_of_inf hsp hyi, opAdd, FVal.add, hsigns])
      rw [hno]
      exact invalid_raises ..
    · obtain ⟨k, hk⟩ := FEnv.operand_of_zero (e := e) hy0
      have hno : fmulE t e j [x, y] = invalid t _ := FEnv.element_of_none hsp (by simpa using ⟨hxi.le, hy0.le.trans (Nat.zero_le _)⟩)
        (by simp [FEnv.operand_of_inf hsp hxi, hk, opMul, FVal.mul, prodOf, FVal.isZero])
      rw [hno]
      exact invalid_raises ..
  · have hconv := FEnv.operand_of_nan (e := e) hsp hn
    intro man cut r
    have hcut : cut < 2 ^ (t.fmt.mb - 1 + 1) := by
      have hman : man < 2 ^ u.fmt.mb := Nat.mod_lt _ (Nat.two_pow_pos _)
      rw [Nat.sub_add_cancel t.mb_pos]
      simp only [cut]
      split
      next h => exact Nat.div_lt_of_lt_mul (by rwa [← Nat.pow_add, Nat.sub_add_cancel h])
      next h =>
        rw [← Nat.add_sub_of_le (Nat.le_of_not_le h), Nat.pow_add, Nat.add_sub_cancel_left]
        exact Nat.mul_lt_mul_of_pos_right hman (Nat.two_pow_pos _)
    refine ⟨fun ht => ?_, fun ht hc => ?_, fun ht hc => ?_, fun ht hc => ?_⟩
    · simp [r, raises, FEnv.convert, hconv, ht, flIV]
    · cases hto : t.fmt.sp with
      | none => exact absurd hto ht
      | nanOnly => simp [r, FEnv.convert, hconv, hto, hc]
      | ieee => simp [r, FEnv.convert, hconv, hto, hc]
    · simp only [r, FEnv.convert, hconv, ht, hc, Fmt.signBits_eq_mul, Bool.false_eq_true, if_false]
      rfl
    · have hpay : nanPayload t u man = cut := if_neg (by simp [hsp])
      rw [FEnv.convert_nan_val hconv ht hc, Fmt.signBits_eq_mul, Nat.add_assoc, hpay, mod_add_two_pow hcut]
  · subst hu
    have hop : e.operand .e4m3 x = (.nan (x.testBit 7) (x % 8), 0) := by
      have hdec : FTy.e4m3.fmt.decode x = .nan (x.testBit 7) (x % 8) := by
        simp [Fmt.decode, FTy.fmt, bit, hn]
      rw [FEnv.operand, hdec]
      rfl
    have hnan : t.fmt.nanBits = t.fmt.infBits + 2 ^ (t.fmt.mb - 1) := by simp only [Fmt.nanBits, ht]
    have hpay : nanPayload t .e4m3 (x % 8) = 0 := if_pos rfl
    rw [FEnv.convert_nan_val hop ht hc, hpay, Nat.zero_mod, Nat.add_zero, Fmt.signBits_eq_mul, Nat.add_assoc, ← hnan]
    rfl

end Sys2Proof.Machine
end

section
/-!
SUPPORT. Sums, products, fused products, interpolations, conversions and reciprocals of finite operands are rounded once (R235, R236,
R244, R295 to R298).
-/
namespace Sys2Proof.Machine

/-- An element of a type that is an exact number other than zero rounded once, in the mode in use (R235, R236). -/
def FEnv.Rounded (e : FEnv) (t : FTy) (j : Nat) (w : ℚ) (v : Nat) : Prop :=
  w ≠ 0 → Rules.rounds t.fmt e.rm (e.srAt j) (decide (w < 0)) |w| v

/-- A mode of R234 that rounds. -/
def FEnv.HasMode (e : FEnv) : Prop := 1 ≤ e.rm ∧ e.rm ≤ 6

/-- Where nothing is flushed or made canonical, a fraction is rounded under the mode in use. -/
theorem FEnv.finish_of_pos {e : FEnv} {t : FTy} (hfz : e.fz t = false) (hc : t.fmt.sp = .ieee ∨ e.nanc = false) {j p q : Nat}
    {s sat : Bool} (hp : 0 < p) : e.finish t j s p q sat = t.fmt.roundFrac e.rm (e.srAt j) sat s p q := by
  have hcanon (r : FRes) : e.canon t.fmt r = r := by
    refine if_neg ?_
    rintro ⟨hn, hsp, -⟩
    rcases hc with hc | hc
    · rw [hc] at hsp
      cases hsp
    · exact Bool.false_ne_true (hc.symm.trans hn)
  rw [FEnv.finish, if_neg hp.ne', hfz, Bool.false_and, if_neg Bool.false_ne_true, hcanon]
  rfl

section
variable {e : FEnv} {t : FTy} {j : Nat} (hm : e.HasMode) (hfz : e.fz t = false)
include hm hfz

/-- A value delivered is rounded once. -/
theorem FEnv.finish_rounded (hc : t.fmt.sp = .ieee ∨ e.nanc = false) (s : Bool) {m : Nat} {k : Int} :
    e.Rounded t j (Rules.worth (.fin s m k)) (e.finish t j s (Dy.num ⟨m, k⟩) (Dy.den ⟨m, k⟩)).val := by
  intro hw
  have hm0 : m ≠ 0 := FVal.worth_eq_zero.not.1 hw
  have hp : 0 < Dy.num ⟨m, k⟩ := Dy.num_pos (Int.natCast_ne_zero.2 hm0)
  rw [FEnv.finish_of_pos hfz hc hp, FVal.decide_worth_lt_zero hm0, ← Dy.num_div_den_fin]
  exact Fmt.rounds_roundFrac hp (Dy.den_pos _) t.mb_pos hm.1 hm.2 _ _

/-- R296: an element of finite operands is the exact value of the operation on them, rounded once. -/
theorem FEnv.element_rounded (hsp : t.fmt.sp = .ieee) {xs : List Nat} {op : List FVal → Option FVal} {also : List FVal → Bool} {w : ℚ}
    (hx : ∀ x ∈ xs, Rules.isFinite t.fmt x) (hop : ∃ v, op (xs.map t.fmt.decode) = some v ∧ v.IsFin ∧ Rules.worth v = w) :
    e.Rounded t j w (e.element t j xs op also).val := by
  obtain ⟨v, hv, ⟨s, m, k, rfl⟩, rfl⟩ := hop
  have hops : (xs.map (e.operand t)).map (·.1) = xs.map t.fmt.decode := by
    rw [List.map_map]
    exact List.map_congr_left fun x hx' => congrArg Prod.fst (FEnv.operand_of_finite hfz (hx x hx'))
  have hany : ¬ (xs.map t.fmt.decode).any FVal.isNan = true := by
    rw [List.any_map, List.any_eq_true]
    rintro ⟨x, hx', hn⟩
    obtain ⟨s, m, k, hd⟩ := FTy.isFin_decode (hx x hx')
    simp [hd, FVal.isNan] at hn
  unfold FEnv.element
  dsimp only
  rw [hops, if_neg hany, hv]
  exact FEnv.finish_rounded hm hfz (.inl hsp) s

section
variable (hsp : t.fmt.sp = .ieee) {x y z : Nat} (hx : Rules.isFinite t.fmt x) (hy : Rules.isFinite t.fmt y)
include hsp hx hy

theorem faddE_rounded : e.Rounded t j (Rules.number t.fmt x + Rules.number t.fmt y) (faddE t e j [x, y]).val := by
  refine FEnv.element_rounded hm hfz hsp (by simp [hx, hy]) ?_
  rw [← FTy.worth_decode hx, ← FTy.worth_decode hy]
  exact FVal.add_worth _ (FTy.isFin_decode hx) (FTy.isFin_decode hy)

theorem fsubE_rounded : e.Rounded t j (Rules.number t.fmt x - Rules.number t.fmt y) (fsubE t e j [x, y]).val := by
  refine FEnv.element_rounded hm hfz hsp (by simp [hx, hy]) ?_
  rw [← FTy.worth_decode hx, ← FTy.worth_decode hy, sub_eq_add_neg, ← FVal.worth_negate]
  exact FVal.add_worth _ (FTy.isFin_decode hx) (FTy.isFin_decode hy).negate

theorem fmulE_rounded : e.Rounded t j (Rules.number t.fmt x * Rules.number t.fmt y) (fmulE t e j [x, y]).val := by
  refine FEnv.element_rounded hm hfz hsp (by simp [hx, hy]) ?_
  rw [← FTy.worth_decode hx, ← FTy.worth_decode hy]
  exact FVal.mul_worth (FTy.isFin_decode hx) (FTy.isFin_decode hy)

variable (hz : Rules.isFinite t.fmt z)
include hz

theorem ffmaE_rounded :
    e.Rounded t j (Rules.number t.fmt x * Rules.number t.fmt y + Rules.number t.fmt z) (ffmaE t e j [x, y, z]).val := by
  refine FEnv.element_rounded hm hfz hsp (by simp [hx, hy, hz]) ?_
  rw [← FTy.worth_decode hx, ← FTy.worth_decode hy, ← FTy.worth_decode hz]
  obtain ⟨p, hmul, hp, hpw⟩ := FVal.mul_worth (FTy.isFin_decode hx) (FTy.isFin_decode hy)
  simp only [opFma, List.map_cons, List.map_nil, hmul, ← hpw]
  exact FVal.add_worth _ hp (FTy.isFin_decode hz)

theorem lerpE_rounded : e.Rounded t j (Rules.number t.fmt x + Rules.number t.fmt z * (Rules.number t.fmt y - Rules.number t.fmt x))
    (lerpE t e j [x, y, z]).val := by
  refine FEnv.element_rounded hm hfz hsp (by simp [hx, hy, hz]) ?_
  rw [← FTy.worth_decode hx, ← FTy.worth_decode hy, ← FTy.worth_decode hz, sub_eq_add_neg, ← FVal.worth_negate]
  obtain ⟨d, hadd, hd, hdw⟩ := FVal.add_worth (e.rm == 4) (FTy.isFin_decode hy) (FTy.isFin_decode hx).negate
  obtain ⟨p, hmul, hp, hpw⟩ := FVal.mul_worth (FTy.isFin_decode hz) hd
  simp only [opLerp, List.map_cons, List.map_nil, hadd, hmul, ← hdw, ← hpw]
  exact FVal.add_worth _ (FTy.isFin_decode hx) hp

end

theorem FEnv.convert_rounded {u : FTy} {x : Nat} (hfu : e.fz u = false) (hx : Rules.isFinite u.fmt x) (hsat : e.sat = false)
    (hc : t.fmt.sp = .ieee ∨ e.nanc = false) : e.Rounded t j (Rules.number u.fmt x) (e.convert t u j x).val := by
  have hfin := FEnv.finish_rounded (j := j) hm hfz hc (x.testBit (u.fmt.eb + u.fmt.mb))
    (m := u.fmt.sig (x % 2 ^ (u.fmt.eb + u.fmt.mb))) (k := u.fmt.ulp (x % 2 ^ (u.fmt.eb + u.fmt.mb)))
  rw [← FTy.decode_of_finite hx, FTy.worth_decode hx] at hfin
  simp only [FEnv.convert, FEnv.operand_of_finite hfu hx, FTy.decode_of_finite hx, hsat]
  exact hfin

end

/-! ### What a function gives at a value -/

/-- A function at a value that is no NaN. -/
def SpFun.on (f : SpFun) : FVal → SpRes
  | .nan _ _ => .nan
  | .inf s => f.atInf s
  | .fin s m k => f.at s ⟨m, k⟩

section
variable {e : FEnv} {f : SpFun} {t : FTy} {j x : Nat} {v : FVal} (hfz : e.fz t = false) (hv : t.fmt.decode x = v) (hn : v.isNan = false)
include hfz hv hn

theorem FEnv.special_operand : FEnv.operand { e with rm := 1 } t x = (v, 0) := by
  have hfz' : FEnv.fz { e with rm := 1 } t = false := hfz
  rw [FEnv.operand_of_fz hfz', hv]
  cases v with
  | nan s m => cases hn
  | inf s => rfl
  | fin s m k => rfl

end

/-- An exact fraction is delivered as `.f32`. -/
theorem FEnv.special_f32 {e : FEnv} {f : SpFun} {j x p q : Nat} {v : FVal} {s : Bool} (hn : v.isNan = false)
    (hr : f.on v = .frac s p q true) (hfz : e.fz .f32 = false) (hv : FTy.f32.fmt.decode x = v) :
    e.special f .f32 j x = FEnv.finish { e with rm := 1 } .f32 j s p q := by
  have hop := FEnv.special_operand hfz hv hn
  cases v with
  | nan s m => cases hn
  | inf | fin =>
    simp only [SpFun.on] at hr
    simp only [FEnv.special, hop, hr, if_true, Nat.or_zero]

/-- The special functions round to nearest, whatever the mode in use (R244). -/
theorem FEnv.finish_nearest {e : FEnv} {t : FTy} (hfz : e.fz t = false) (hsp : t.fmt.sp = .ieee) {j p q : Nat} {s : Bool} (hp : 0 < p) :
    FEnv.finish { e with rm := 1 } t j s p q = t.fmt.roundFrac 1 0 false s p q := by
  have hfz' : FEnv.fz { e with rm := 1 } t = false := hfz
  have hsr : FEnv.srAt { e with rm := 1 } j = 0 := if_neg (by decide : ¬ 1 = 6)
  rw [FEnv.finish_of_pos hfz' (.inl hsp) hp, hsr]

/-- R244: the reciprocal of a finite number is rounded once, to nearest. -/
theorem FEnv.special_rcp_rounds {e : FEnv} {j x : Nat} (hfz : e.fz .f32 = false) (hx : Rules.isFinite FTy.f32.fmt x)
    (hw : Rules.number FTy.f32.fmt x ≠ 0) :
    Rules.rounds FTy.f32.fmt 1 0 (decide (Rules.number FTy.f32.fmt x < 0)) |1 / Rules.number FTy.f32.fmt x|
      (e.special .rcp .f32 j x).val := by
  obtain ⟨s, m, k, hd⟩ := FTy.isFin_decode hx
  rw [← FTy.worth_decode hx, hd] at hw ⊢
  have hm0 : m ≠ 0 := FVal.worth_eq_zero.not.1 hw
  have hp : 0 < Dy.num ⟨m, k⟩ := Dy.num_pos (Int.natCast_ne_zero.2 hm0)
  have hres : SpFun.on .rcp (.fin s m k) = .frac s (Dy.den ⟨m, k⟩) (Dy.num ⟨m, k⟩) true := if_neg (Int.natCast_ne_zero.2 hm0)
  rw [FEnv.special_f32 rfl hres hfz hd, FEnv.finish_nearest hfz rfl (Dy.den_pos _), FVal.decide_worth_lt_zero hm0, abs_div, abs_one,
    ← Dy.num_div_den_fin, one_div_div]
  exact Fmt.rounds_roundFrac (Dy.den_pos _) hp FTy.f32.mb_pos le_rfl (by decide) 0 s

/-- The part of O51 about results rounded once. -/
theorem rounding : Rules.Rounding := by
  refine ⟨fun t mode r p q neg h1 h6 hp hq => Fmt.rounds_roundFrac hp hq t.mb_pos h1 h6 r neg, ?_⟩
  intro e t u j x y z h1 h6 hft hfu r is num
  have hm : e.HasMode := ⟨h1, h6⟩
  refine ⟨fun ha hx hy hz => ?_, fun hx hsat hc => FEnv.convert_rounded hm hft hfu hx hsat hc, ?_⟩
  · have hsp := FTy.ieee_of_isArith ha
    exact ⟨faddE_rounded hm hft hsp hx hy, fsubE_rounded hm hft hsp hx hy, fmulE_rounded hm hft hsp hx hy,
      ffmaE_rounded hm hft hsp hx hy hz⟩
  · rintro rfl hx hw
    exact FEnv.special_rcp_rounds hft hx hw

end Sys2Proof.Machine
end

section
/-!
SUPPORT. The order of values, minima and maxima, comparisons, rounding to integers and conversions from and to integers (R298 to R302,
R307, R308). Settles O51.
-/
namespace Sys2Proof.Machine

/-! ### The order of values, R299, R301 -/

/-- A value that is no NaN lies below another; zeros are equal. -/
def FVal.Under (v w : FVal) : Prop :=
  (v = .inf true ∧ w ≠ .inf true) ∨ (w = .inf false ∧ v ≠ .inf false) ∨ (v.IsFin ∧ w.IsFin ∧ Rules.worth v < Rules.worth w)

theorem FVal.not_isFin_inf {s : Bool} : ¬ (FVal.inf s).IsFin := by
  rintro ⟨_, _, _, h⟩
  cases h

theorem FVal.Under.asymm {v w : FVal} (h : v.Under w) : ¬ w.Under v := by
  rcases h with ⟨rfl, hw⟩ | ⟨rfl, hv⟩ | ⟨hv, hw, hlt⟩
  · simp [FVal.Under, FVal.not_isFin_inf, hw]
  · simp [FVal.Under, FVal.not_isFin_inf, hv]
  · rintro (⟨rfl, -⟩ | ⟨rfl, -⟩ | ⟨-, -, hgt⟩)
    · exact FVal.not_isFin_inf hw
    · exact FVal.not_isFin_inf hv
    · exact hlt.not_gt hgt

theorem FVal.not_under_of_isZero {v w : FVal} (hv : v.isZero = true) (hw : w.isZero = true) : ¬ v.Under w := by
  obtain ⟨hvf, hv0⟩ := FVal.isZero_iff.1 hv
  obtain ⟨hwf, hw0⟩ := FVal.isZero_iff.1 hw
  rintro (⟨rfl, -⟩ | ⟨rfl, -⟩ | ⟨-, -, h⟩)
  · exact FVal.not_isFin_inf hvf
  · exact FVal.not_isFin_inf hwf
  · rw [hv0, hw0] at h
    exact h.false

/-- The order of minima and maxima puts −0 below +0, and is the order of values elsewhere. -/
theorem FVal.below_iff {v w : FVal} (hv : v.isNan = false) (hw : w.isNan = false) :
    v.below w = true ↔ if v.isZero && w.isZero then v.neg? = true ∧ w.neg? = false else v.Under w := by
  cases v with
  | nan s m => cases hv
  | inf s =>
    cases w with
    | nan s' m' => cases hw
    | inf s' => cases s <;> cases s' <;> simp [FVal.below, FVal.Under, FVal.isZero, FVal.not_isFin_inf]
    | fin s' m' k' => simp [FVal.below, FVal.Under, FVal.isZero, FVal.not_isFin_inf]
  | fin s m k =>
    cases w with
    | nan s' m' => cases hw
    | inf s' => simp [FVal.below, FVal.Under, FVal.isZero, FVal.not_isFin_inf]
    | fin s' m' k' =>
      have hlt : FVal.Under (.fin s m k) (.fin s' m' k') ↔ Rules.worth (.fin s m k) < Rules.worth (.fin s' m' k') := by
        simp [FVal.Under, FVal.IsFin]
      simp only [FVal.below]
      split
      · simp [FVal.neg?]
      · rw [Dy.lt_iff, FVal.rat_ofVal, FVal.rat_ofVal, hlt]

/-- R301: a condition on two numbers, from whether the first lies below the second and the second below the first. -/
def FCond.Holds (c : FCond) (lt gt : Prop) : Prop :=
  match c with
  | .eq => ¬ lt ∧ ¬ gt | .ne => lt ∨ gt | .lt => lt | .le => ¬ gt | .gt => gt | .ge => ¬ lt | .un => False | .ord => True

theorem FCond.onNumbers_iff (c : FCond) {v w : FVal} (hv : v.isNan = false) (hw : w.isNan = false) :
    FCond.onNumbers c v w = true ↔ FCond.Holds c (v.Under w) (w.Under v) := by
  have hvw := FVal.below_iff hv hw
  have hwv := FVal.below_iff hw hv
  have heq : ((v.isZero && w.isZero) || (!v.below w && !w.below v)) = true ↔ ¬ v.Under w ∧ ¬ w.Under v := by
    rcases hz : v.isZero && w.isZero with _ | _
    · rw [hz, if_neg Bool.false_ne_true] at hvw
      rw [Bool.and_comm, hz, if_neg Bool.false_ne_true] at hwv
      simp [← hvw, ← hwv]
    · obtain ⟨hv0, hw0⟩ := Bool.and_eq_true_iff.1 hz
      simp [FVal.not_under_of_isZero hv0 hw0, FVal.not_under_of_isZero hw0 hv0]
  have hlt : (v.below w && !((v.isZero && w.isZero) || (!v.below w && !w.below v))) = true ↔ v.Under w := by
    rcases hz : v.isZero && w.isZero with _ | _
    · rw [hz, if_neg Bool.false_ne_true] at hvw
      rw [← hvw]
      cases v.below w <;> simp
    · obtain ⟨hv0, hw0⟩ := Bool.and_eq_true_iff.1 hz
      simp [FVal.not_under_of_isZero hv0 hw0]
  have hasymm : ¬ (v.Under w ∧ w.Under v) := fun h => h.1.asymm h.2
  unfold FCond.onNumbers FCond.Holds
  dsimp only
  generalize ((v.isZero && w.isZero) || (!v.below w && !w.below v)) = eq at *
  generalize (v.below w && !eq) = lt at *
  clear hvw hwv
  generalize v.Under w = L, w.Under v = G at *
  cases c <;> simp only [Bool.not_eq_true', ← Bool.not_eq_true, Bool.and_eq_true, Bool.or_eq_true, heq, hlt, Bool.false_eq_true] <;> grind

/-! ### Encodings and their values -/

section
variable {t : FTy} (hsp : t.fmt.sp = .ieee) {x y : Nat}
include hsp

theorem FTy.isFinite_iff : Rules.isFinite t.fmt x ↔ (t.fmt.decode x).IsFin := by
  have hinf := FTy.infBits_eq hsp
  refine ⟨FTy.isFin_decode, fun h => ?_⟩
  rcases FTy.encoding_cases hsp x with hx | hx | hx
  · exact hx
  · rw [FTy.decode_of_inf hsp hx] at h
    exact absurd h FVal.not_isFin_inf
  · obtain ⟨s, m, k, h⟩ := h
    rw [FTy.decode_of_nan hsp hx] at h
    cases h

theorem FTy.isInfinity_iff {s : Bool} : Rules.isInfinity t.fmt s x ↔ t.fmt.decode x = .inf s := by
  have hinf := FTy.infBits_eq hsp
  unfold Rules.isInfinity
  rcases FTy.encoding_cases hsp x with hx | hx | hx
  · rw [FTy.decode_of_finite hx]
    unfold Rules.isFinite at hx
    simp only [reduceCtorEq, iff_false]
    omega
  · rw [FTy.decode_of_inf hsp hx]
    simp [hx]
  · rw [FTy.decode_of_nan hsp hx]
    simp [hx.ne']

theorem FTy.isNan_decode_false : (t.fmt.decode x).isNan = false ↔ ¬ t.fmt.infBits < x % 2 ^ (t.fmt.eb + t.fmt.mb) := by
  rw [← FTy.isNan_decode hsp, Bool.not_eq_true]

theorem FTy.less_iff : Rules.less t.fmt x y ↔ (t.fmt.decode x).Under (t.fmt.decode y) := by
  unfold Rules.less FVal.Under
  simp only [FTy.isInfinity_iff hsp, FTy.isFinite_iff hsp, Ne]
  refine or_congr_right (or_congr_right (and_congr_right fun hx => and_congr_right fun hy => ?_))
  rw [FTy.worth_decode ((FTy.isFinite_iff hsp).2 hx), FTy.worth_decode ((FTy.isFinite_iff hsp).2 hy)]

/-- The zeros are the signs alone. -/
theorem FTy.eq_signBits_of_decode {s : Bool} {k : Int} (hx : x < 2 * 2 ^ (t.fmt.eb + t.fmt.mb)) (h : t.fmt.decode x = .fin s 0 k) :
    x = t.fmt.signBits s := by
  have hfin : Rules.isFinite t.fmt x := (FTy.isFinite_iff hsp).2 (h ▸ ⟨s, 0, k, rfl⟩)
  rw [FTy.decode_of_finite hfin] at h
  injection h with hs hm
  have hmag : x % 2 ^ (t.fmt.eb + t.fmt.mb) = 0 := (t.fmt.sig_eq_zero).1 hm
  rw [← t.fmt.signBits_add_mod hx, hmag, hs, Nat.add_zero]

theorem FEnv.flushed_of_fz {e : FEnv} (hfz : e.fz t = false) (hx : x < 2 * 2 ^ (t.fmt.eb + t.fmt.mb)) : e.flushed t x = x := by
  unfold FEnv.flushed
  rw [FEnv.operand_of_fz hfz]
  split
  next h => exact (FTy.eq_signBits_of_decode hsp hx (Prod.mk.inj h).1).symm
  next => rfl

end

/-! ### Minima, maxima and comparisons -/

section
variable {e : FEnv} {t : FTy} {x y j : Nat}

theorem fminmaxE_fl (max : Bool) : (fminmaxE max t e j [x, y]).fl = (e.operand t x).2 ||| (e.operand t y).2 := by
  simp only [fminmaxE]
  split
  · rfl
  · split
    · rfl
    · split <;> rfl

variable (hsp : t.fmt.sp = .ieee) (hfz : e.fz t = false)
include hsp hfz

/-- Numbers raise nothing. -/
theorem FEnv.operand_fl_of_not_nan (hn : ¬ t.fmt.infBits < x % 2 ^ (t.fmt.eb + t.fmt.mb)) : (e.operand t x).2 = 0 := by
  rcases FTy.encoding_cases hsp x with h | h | h
  · rw [FEnv.operand_of_finite hfz h]
  · rw [FEnv.operand_of_inf hsp h]
  · exact absurd h hn

theorem FEnv.operand_of_not_nan (hn : ¬ t.fmt.infBits < x % 2 ^ (t.fmt.eb + t.fmt.mb)) : e.operand t x = (t.fmt.decode x, 0) :=
  Prod.ext (by rw [FEnv.operand_of_fz hfz]) (FEnv.operand_fl_of_not_nan hsp hfz hn)

variable (hx : x < 2 * 2 ^ (t.fmt.eb + t.fmt.mb)) (hy : y < 2 * 2 ^ (t.fmt.eb + t.fmt.mb))

section
variable (hxn : ¬ t.fmt.infBits < x % 2 ^ (t.fmt.eb + t.fmt.mb)) (hyn : ¬ t.fmt.infBits < y % 2 ^ (t.fmt.eb + t.fmt.mb))
include hxn hyn

/-- R299 on numbers. -/
theorem fminmaxE_numbers (hx : x < 2 * 2 ^ (t.fmt.eb + t.fmt.mb)) (hy : y < 2 * 2 ^ (t.fmt.eb + t.fmt.mb)) (max : Bool) :
    fminmaxE max t e j [x, y] = ⟨if (if max then (t.fmt.decode x).below (t.fmt.decode y) else (t.fmt.decode y).below (t.fmt.decode x))
      then y else x, 0⟩ := by
  have hx0 := (FTy.isNan_decode_false hsp).2 hxn
  have hy0 := (FTy.isNan_decode_false hsp).2 hyn
  simp [fminmaxE, FEnv.operand_of_not_nan hsp hfz hxn, FEnv.operand_of_not_nan hsp hfz hyn, hx0, hy0, FEnv.flushed_of_fz hsp hfz hx,
    FEnv.flushed_of_fz hsp hfz hy]

/-- R301 on numbers. -/
theorem fcmpE_numbers (c : FCond) :
    fcmpE c t e j [x, y] = ⟨if FCond.onNumbers c (t.fmt.decode x) (t.fmt.decode y) then 1 else 0, 0⟩ := by
  have hx0 := (FTy.isNan_decode_false hsp).2 hxn
  have hy0 := (FTy.isNan_decode_false hsp).2 hyn
  simp [fcmpE, FEnv.operand_of_not_nan hsp hfz hxn, FEnv.operand_of_not_nan hsp hfz hyn, hx0, hy0]

omit hfz

/-- The lesser of two numbers, and −0 beside +0, is below the other, and not the other way round. -/
theorem FTy.below_decode (h : Rules.less t.fmt x y ∨ (x = 2 ^ (t.fmt.eb + t.fmt.mb) ∧ y = 0)) :
    (t.fmt.decode x).below (t.fmt.decode y) = true ∧ (t.fmt.decode y).below (t.fmt.decode x) = false := by
  have hx0 := (FTy.isNan_decode_false hsp).2 hxn
  have hy0 := (FTy.isNan_decode_false hsp).2 hyn
  rw [← Bool.not_eq_true, FVal.below_iff hx0 hy0, FVal.below_iff hy0 hx0]
  rcases h with h | ⟨rfl, rfl⟩
  · have hu := (FTy.less_iff hsp).1 h
    have hz : ¬ ((t.fmt.decode x).isZero && (t.fmt.decode y).isZero) = true := fun hz =>
      FVal.not_under_of_isZero (Bool.and_eq_true_iff.1 hz).1 (Bool.and_eq_true_iff.1 hz).2 hu
    rw [if_neg hz, if_neg (by rwa [Bool.and_comm])]
    exact ⟨hu, hu.asymm⟩
  · rw [FTy.decode_of_zero (Nat.mod_self _), FTy.decode_of_zero (Nat.zero_mod _)]
    simp [FVal.isZero, FVal.neg?]

end

end

/-! ### Rounding to integers -/

section
variable {t : FTy} (ha : t.isArith = true)
include ha

/-- The last place of the greatest number of an arithmetic type is not below the point. -/
theorem FTy.two_pow_le_magnitude_maxBits : (2 : ℚ) ^ t.fmt.mb ≤ Rules.magnitude t.fmt t.fmt.maxBits := by
  have hulp : t.isArith = true → 0 ≤ t.fmt.ulp t.fmt.maxBits ∧ 2 ^ t.fmt.mb ≤ t.fmt.sig t.fmt.maxBits := by cases t <;> decide
  obtain ⟨hu, hs⟩ := hulp ha
  calc (2 : ℚ) ^ t.fmt.mb = ((2 ^ t.fmt.mb : Nat) : ℚ) * 1 := by rw [mul_one, Nat.cast_pow, Nat.cast_ofNat]
    _ ≤ t.fmt.sig t.fmt.maxBits * (2 : ℚ) ^ t.fmt.ulp t.fmt.maxBits :=
      mul_le_mul (Nat.cast_le.2 hs) (one_le_zpow₀ one_le_two hu) zero_le_one (Nat.cast_nonneg _)
    _ = _ := (t.fmt.magnitude_eq _).symm

/-- Every integer up to 2^mb is a number of the format. -/
theorem FTy.exists_magnitude_eq_natCast {k : Nat} (hk : k ≤ 2 ^ t.fmt.mb) :
    ∃ n, n ≤ t.fmt.maxBits ∧ Rules.magnitude t.fmt n = k := by
  rcases Nat.eq_zero_or_pos k with rfl | hpos
  · exact ⟨0, Nat.zero_le _, by rw [Fmt.magnitude_zero, Nat.cast_zero]⟩
  have hplace : t.fmt.place k 1 ≤ 0 := by
    have hemin : t.isArith = true → t.fmt.emin ≤ t.fmt.mb := by cases t <;> decide
    have hlow := (fracLog2_spec hpos Nat.one_pos).1
    have hlog : (2 : ℚ) ^ fracLog2 k 1 ≤ 2 ^ (t.fmt.mb : Int) := by
      rw [zpow_natCast]
      refine hlow.trans ?_
      rw [Nat.cast_one, div_one]
      exact_mod_cast hk
    have := (zpow_le_zpow_iff_right₀ (one_lt_two (α := ℚ))).1 hlog
    have := hemin ha
    unfold Fmt.place
    split <;> omega
  have hrem : (quantum k 1 (t.fmt.place k 1)).2.1 = 0 := by simp [quantum, pow2_of_nonpos hplace, Nat.mod_one]
  obtain ⟨c, -, hlo, -⟩ := Fmt.floorBits_spec (f := t.fmt) hpos Nat.one_pos
  rw [hrem, Nat.cast_zero, zero_mul, sub_eq_zero, Nat.cast_one, div_one] at hlo
  refine ⟨_, ?_, hlo.symm⟩
  rw [← t.fmt.magnitude_strictMono.le_iff_le, ← hlo]
  refine le_trans ?_ (FTy.two_pow_le_magnitude_maxBits ha)
  exact_mod_cast hk

/-- A number of the format rounded to an integer is a number of the format: past 2^mb every number is an integer already. -/
theorem FTy.exists_magnitude_of_wholeOf {mode r n k : Nat} {s : Bool} (hn : n ≤ t.fmt.maxBits)
    (h : Rules.wholeOf mode r s (Rules.magnitude t.fmt n) k) : ∃ i, i ≤ t.fmt.maxBits ∧ Rules.magnitude t.fmt i = k := by
  rcases h with h | ⟨a, hlt, hgt, hk⟩
  · exact ⟨n, hn, h⟩
  refine FTy.exists_magnitude_eq_natCast ha ?_
  have hulp : t.fmt.ulp n < 0 := by
    by_contra hu
    obtain ⟨u, hu⟩ := Int.eq_ofNat_of_zero_le (Int.not_lt.1 hu)
    have hint : Rules.magnitude t.fmt n = (t.fmt.sig n * 2 ^ u : Nat) := by rw [Fmt.magnitude_eq, hu]; push_cast; rfl
    rw [hint] at hlt hgt
    have h1 : a < t.fmt.sig n * 2 ^ u := by exact_mod_cast hlt
    have h2 : t.fmt.sig n * 2 ^ u < a + 1 := by exact_mod_cast hgt
    omega
  have ha : (a : ℚ) < 2 ^ t.fmt.mb :=
    calc (a : ℚ) < Rules.magnitude t.fmt n := hlt
      _ = t.fmt.sig n * (2 : ℚ) ^ t.fmt.ulp n := t.fmt.magnitude_eq n
      _ ≤ 2 ^ (t.fmt.mb + 1) * 2 ^ (-1 : Int) := by
        refine mul_le_mul ?_ (zpow_le_zpow_right₀ one_le_two (by omega)) (zpow_nonneg zero_le_two _) (by positivity)
        exact_mod_cast (t.fmt.sig_lt n).le
      _ = 2 ^ t.fmt.mb := by
        rw [pow_succ, zpow_neg_one]
        ring
  have ha : a < 2 ^ t.fmt.mb := by exact_mod_cast ha
  rcases hk with ⟨-, rfl⟩ | ⟨-, rfl⟩
  · exact ha
  · exact ha.le

/-- R302: an element rounded to an integer. -/
theorem frndE_finite {e : FEnv} {x j : Nat} (hm : e.HasMode) (hfz : e.fz t = false) (hx : Rules.isFinite t.fmt x) :
    ∃ u n : Nat, frndE t e j [x] = ⟨u, 0⟩ ∧ Rules.isFinite t.fmt u
      ∧ u.testBit (t.fmt.eb + t.fmt.mb) = x.testBit (t.fmt.eb + t.fmt.mb)
      ∧ |Rules.number t.fmt u| = n
      ∧ Rules.wholeOf e.rm (e.srAt j) (x.testBit (t.fmt.eb + t.fmt.mb)) |Rules.number t.fmt x| n := by
  have hop := FEnv.operand_of_finite hfz hx
  have habs := t.fmt.abs_number x
  have hfrac := FTy.decode_of_finite hx ▸ FTy.worth_decode hx
  rw [FTy.decode_of_finite hx] at hop
  generalize x.testBit (t.fmt.eb + t.fmt.mb) = s, t.fmt.sig _ = m, t.fmt.ulp _ = k at hop hfrac ⊢
  have hwhole := roundInt_wholeOf (p := Dy.num ⟨m, k⟩) (Dy.den_pos ⟨m, k⟩) hm.1 hm.2 (e.srAt j) s
  rw [Dy.num_div_den_fin s, hfrac] at hwhole
  generalize hi : roundInt e.rm (e.srAt j) s (Dy.num ⟨m, k⟩) (Dy.den ⟨m, k⟩) = i at hwhole
  obtain ⟨n, hn, hni⟩ := FTy.exists_magnitude_of_wholeOf ha hx (habs ▸ hwhole)
  have hval : (if i = 0 then t.fmt.signBits s else (t.fmt.roundFrac 1 0 false s i 1).val) = t.fmt.signBits s + n := by
    split
    next h0 => rw [h0, Nat.cast_zero, Fmt.magnitude_eq_zero] at hni; rw [hni, Nat.add_zero]
    next h0 =>
      rw [Fmt.roundFrac_val, Fmt.pickBits_of_eq (Nat.pos_of_ne_zero h0) Nat.one_pos (by rw [hni, Nat.cast_one, div_one]),
        if_neg (Nat.not_lt.2 hn)]
  obtain ⟨hsign, hmag⟩ := t.fmt.signBits_add (s := s) (hn.trans_lt t.maxBits_lt)
  refine ⟨t.fmt.signBits s + n, i, ?_, hmag.le.trans hn, hsign, by rw [Fmt.abs_number, hmag, hni], hwhole⟩
  simp only [frndE, List.headD_cons, hop, hi, hval]

omit ha in
/-- R307: a number converted to an integer. -/
theorem FEnv.toInt_finite {e : FEnv} {x : Nat} {to_ : ITy} (hm : e.HasMode) (hfz : e.fz t = false) (hx : Rules.isFinite t.fmt x) :
    ∃ n : Nat, Rules.wholeOf e.rm (e.srAt 0) (x.testBit (t.fmt.eb + t.fmt.mb)) |Rules.number t.fmt x| n ∧
      let w : Int := if x.testBit (t.fmt.eb + t.fmt.mb) then -(n : Int) else n
      e.toInt to_ t x = if w < to_.least then (to_.least, 1) else if to_.most < w then (to_.most, 1)
        else (w, if Rules.number t.fmt x = w then 0 else 16) := by
  have hop := FEnv.operand_of_finite hfz hx
  have hfrac := FTy.decode_of_finite hx ▸ FTy.worth_decode hx
  rw [FTy.decode_of_finite hx] at hop
  generalize x.testBit (t.fmt.eb + t.fmt.mb) = s, t.fmt.sig _ = m, t.fmt.ulp _ = k at hop hfrac ⊢
  have hwhole := roundInt_wholeOf (p := Dy.num ⟨m, k⟩) (Dy.den_pos ⟨m, k⟩) hm.1 hm.2 (e.srAt 0) s
  rw [Dy.num_div_den_fin s, hfrac] at hwhole
  refine ⟨_, hwhole, ?_⟩
  generalize hi : roundInt e.rm (e.srAt 0) s (Dy.num ⟨m, k⟩) (Dy.den ⟨m, k⟩) = i
  intro w
  have hexact : (i : Int) * (Dy.den ⟨m, k⟩ : Int) = (Dy.num ⟨m, k⟩ : Int) ↔ Rules.number t.fmt x = w := by
    have hden : ((Dy.den ⟨m, k⟩ : Nat) : ℚ) ≠ 0 := Nat.cast_ne_zero.2 (Dy.den_pos _).ne'
    have hmag : (i : Int) * (Dy.den ⟨m, k⟩ : Int) = (Dy.num ⟨m, k⟩ : Int) ↔ |Rules.number t.fmt x| = i := by
      rw [← hfrac, ← Dy.num_div_den_fin, div_eq_iff hden, eq_comm]
      exact_mod_cast Iff.rfl
    rw [hmag, ← hfrac]
    have hsign := FVal.worth_eq_abs s m k
    cases s
    · simpa [w] using Eq.congr_left hsign.symm
    · rw [hsign, if_pos rfl]
      simp [w]
  simp only [FEnv.toInt, hop, hi, hexact, Nat.zero_or, flIV, flNX]
  rfl

end

/-! ### NaNs and infinities as operands -/

section
variable {e : FEnv} {t : FTy} {x y z j : Nat}

/-- Of three operands with a NaN among them, the first NaN is quieted. -/
theorem lerpE_nan (hsp : t.fmt.sp = .ieee) (hx : x < 2 * 2 ^ (t.fmt.eb + t.fmt.mb)) (hy : y < 2 * 2 ^ (t.fmt.eb + t.fmt.mb))
    (hz : z < 2 * 2 ^ (t.fmt.eb + t.fmt.mb)) :
    let isNan (x : Nat) : Prop := t.fmt.infBits < x % 2 ^ (t.fmt.eb + t.fmt.mb)
    let quiet (x : Nat) : Nat := x ||| 2 ^ (t.fmt.mb - 1)
    isNan x ∨ isNan y ∨ isNan z → (e.nanc = true → (lerpE t e j [x, y, z]).val = t.fmt.nanBits)
      ∧ (e.nanc = false → isNan x → (lerpE t e j [x, y, z]).val = quiet x)
      ∧ (e.nanc = false → ¬ isNan x → isNan y → (lerpE t e j [x, y, z]).val = quiet y)
      ∧ (e.nanc = false → ¬ isNan x → ¬ isNan y → (lerpE t e j [x, y, z]).val = quiet z) := by
  intro isNan quiet hn
  have hval : (lerpE t e j [x, y, z]).val = e.nanOf t [(e.operand t x).1, (e.operand t y).1, (e.operand t z).1] :=
    FEnv.element_of_nan hsp (by simpa using hn)
  have hskip {x : Nat} (h : ¬ isNan x) : (e.operand t x).1.isNan = false := Bool.eq_false_iff.2 ((FEnv.isNan_operand hsp).not.2 h)
  rw [hval]
  refine ⟨fun hc => FEnv.nanOf_of_nanc hc _, fun hc hxn => FEnv.nanOf_cons_of_nan hsp hc hx hxn _, fun hc hxn hyn => ?_,
    fun hc hxn hyn => ?_⟩
  · rw [FEnv.nanOf_cons_of_not_nan (hskip hxn), FEnv.nanOf_cons_of_nan hsp hc hy hyn]
  · rw [FEnv.nanOf_cons_of_not_nan (hskip hxn), FEnv.nanOf_cons_of_not_nan (hskip hyn)]
    exact FEnv.nanOf_cons_of_nan hsp hc hz ((hn.resolve_left hxn).resolve_left hyn) _

/-- ∞ − ∞ within `lerp` is invalid. -/
theorem lerpE_inf (hsp : t.fmt.sp = .ieee) (hfz : e.fz t = false) {s : Bool} (hx : Rules.isInfinity t.fmt s x)
    (hy : Rules.isInfinity t.fmt s y) (hz : ¬ t.fmt.infBits < z % 2 ^ (t.fmt.eb + t.fmt.mb)) :
    lerpE t e j [x, y, z] = ⟨t.fmt.nanBits, 1⟩ := by
  obtain ⟨hxi, hxs⟩ := hx
  obtain ⟨hyi, hys⟩ := hy
  have hox := FEnv.operand_of_inf (e := e) hsp hxi
  have hoy := FEnv.operand_of_inf (e := e) hsp hyi
  have hno : lerpE t e j [x, y, z] = invalid t _ := FEnv.element_of_none hsp (by simpa [hxi, hyi] using hz)
    (by simp [hox, hoy, hxs, hys, opLerp, FVal.add, FVal.negate])
  rw [hno]
  simp [invalid, hox, hoy, FEnv.operand_fl_of_not_nan hsp hfz hz, flIV]

variable (ha : t.isArith = true) (hfz : e.fz t = false)
include ha hfz

/-- The bits of two operands' signalling NaNs together. -/
theorem FEnv.operands_raise : (e.operand t x).2 ||| (e.operand t y).2 = 1 ↔
    (t.fmt.infBits < x % 2 ^ (t.fmt.eb + t.fmt.mb) ∧ x.testBit (t.fmt.mb - 1) = false)
      ∨ (t.fmt.infBits < y % 2 ^ (t.fmt.eb + t.fmt.mb) ∧ y.testBit (t.fmt.mb - 1) = false) := by
  rw [FEnv.operand_fl ha hfz, FEnv.operand_fl ha hfz]
  split <;> split <;> simp_all

theorem FEnv.operands_fl_le : (e.operand t x).2 ||| (e.operand t y).2 ≤ 1 := by
  rw [FEnv.operand_fl ha hfz, FEnv.operand_fl ha hfz]
  split <;> split <;> decide

/-- R299 with a NaN: the other operand, or the NaN of R239. -/
theorem fminmaxE_nan (hx : x < 2 * 2 ^ (t.fmt.eb + t.fmt.mb)) (hy : y < 2 * 2 ^ (t.fmt.eb + t.fmt.mb))
    (hxn : t.fmt.infBits < x % 2 ^ (t.fmt.eb + t.fmt.mb)) (max : Bool) :
    (¬ t.fmt.infBits < y % 2 ^ (t.fmt.eb + t.fmt.mb) → (fminmaxE max t e j [x, y]).val = y ∧ (fminmaxE max t e j [y, x]).val = y)
      ∧ (t.fmt.infBits < y % 2 ^ (t.fmt.eb + t.fmt.mb) →
        (fminmaxE max t e j [x, y]).val = if e.nanc then t.fmt.nanBits else x ||| 2 ^ (t.fmt.mb - 1)) := by
  have hsp := FTy.ieee_of_isArith ha
  have hx1 := (FEnv.isNan_operand (e := e) hsp).2 hxn
  refine ⟨fun hyn => ?_, fun hyn => ?_⟩
  · have hy0 := Bool.eq_false_iff.2 ((FEnv.isNan_operand (e := e) hsp).not.2 hyn)
    simp [fminmaxE, hx1, hy0, FEnv.flushed_of_fz hsp hfz hy]
  · have hy1 := (FEnv.isNan_operand (e := e) hsp).2 hyn
    have hval : (fminmaxE max t e j [x, y]).val = e.nanOf t [(e.operand t x).1, (e.operand t y).1] := by simp [fminmaxE, hx1, hy1]
    rw [hval]
    split
    next hc => exact FEnv.nanOf_of_nanc hc _
    next hc => exact FEnv.nanOf_cons_of_nan hsp (Bool.eq_false_iff.2 hc) hx hxn _

omit hfz in
/-- R301 with a NaN. -/
theorem fcmpE_nan (c : FCond) (hn : t.fmt.infBits < x % 2 ^ (t.fmt.eb + t.fmt.mb) ∨ t.fmt.infBits < y % 2 ^ (t.fmt.eb + t.fmt.mb)) :
    fcmpE c t e j [x, y] = ⟨if FCond.onNan c then 1 else 0,
      if FCond.signals c then (e.operand t x).2 ||| (e.operand t y).2 ||| flIV else (e.operand t x).2 ||| (e.operand t y).2⟩ := by
  have hsp := FTy.ieee_of_isArith ha
  have hany : ((e.operand t x).1.isNan || (e.operand t y).1.isNan) = true := by
    rwa [Bool.or_eq_true, FEnv.isNan_operand hsp, FEnv.isNan_operand hsp]
  simp only [fcmpE, hany, if_true]

end

/-- R301: the ordered comparisons raise IV for every NaN, the others for signalling NaNs alone. -/
theorem FCond.signals_raise (c : FCond) {fl : Nat} (h : fl ≤ 1) : (if FCond.signals c then fl ||| flIV else fl) = 1 ↔
    c = .lt ∨ c = .le ∨ c = .gt ∨ c = .ge ∨ fl = 1 := by
  obtain rfl | rfl : fl = 0 ∨ fl = 1 := by omega
  all_goals cases c <;> simp [FCond.signals, flIV]

/-- R308: an integer converted is rounded once. -/
theorem FEnv.ofInt_rounded {e : FEnv} {t : FTy} (ha : t.isArith = true) (hm : e.HasMode) (hfz : e.fz t = false) (hsat : e.sat = false)
    (v : Int) : e.Rounded t 0 v (e.ofInt t v).val := by
  have hfin := FEnv.finish_rounded (j := 0) hm hfz (.inl (FTy.ieee_of_isArith ha)) (decide (v < 0)) (m := v.natAbs) (k := 0)
  have hworth : Rules.worth (.fin (decide (v < 0)) v.natAbs 0) = v := by
    rcases lt_or_ge v 0 with h | h
    · simp [Rules.worth, h, abs_of_neg h]
    · simp [Rules.worth, h, abs_of_nonneg h]
  have hnum (n : Nat) : Dy.num ⟨n, 0⟩ = n := by simp [Dy.num, pow2]
  rw [hworth, hnum] at hfin
  rw [FEnv.ofInt, hsat]
  exact hfin

/-- The part of O51 about the elements of single operations. -/
theorem elements : Rules.Elements := by
  intro e t c to_ j x y z v ha h1 h6 hfz hx hy hz f sign num finite isNan quiet signals r is less zeros
  have hsp := FTy.ieee_of_isArith ha
  have hm : e.HasMode := ⟨h1, h6⟩
  rw [Fmt.two_pow_width] at hx hy hz
  refine ⟨?_, lerpE_nan hsp hx hy hz, fun s hxi hyi hzn => lerpE_inf hsp hfz hxi hyi hzn, ?_, ?_, ?_, ?_, frndE_finite ha hm hfz, ?_, ?_,
    FEnv.toInt_finite hm hfz, ?_, ?_, ?_, ?_⟩
  · rintro hxf hyf hzf rfl
    exact lerpE_rounded hm hfz hsp hxf hyf hzf
  · intro hxn hyn
    refine ⟨fun h => ?_, ?_⟩
    · obtain ⟨hlt, hgt⟩ := FTy.below_decode hsp hxn hyn h
      have hxy (max : Bool) := fminmaxE_numbers (j := j) hsp hfz hxn hyn hx hy max
      have hyx (max : Bool) := fminmaxE_numbers (j := j) hsp hfz hyn hxn hy hx max
      simp [hxy, hyx, hlt, hgt]
    · rintro rfl
      have hxx (max : Bool) := fminmaxE_numbers (j := j) hsp hfz hxn hxn hx hx max
      simp [hxx]
  · intro hxn max
    obtain ⟨hone, hboth⟩ := fminmaxE_nan (j := j) ha hfz hx hy hxn max
    exact ⟨hone, hboth, by rw [fminmaxE_fl]; exact FEnv.operands_raise ha hfz⟩
  · intro hxn hyn holds
    have hiff : FCond.onNumbers c (t.fmt.decode x) (t.fmt.decode y) = true ↔ holds := by
      rw [FCond.onNumbers_iff c ((FTy.isNan_decode_false hsp).2 hxn) ((FTy.isNan_decode_false hsp).2 hyn), ← FTy.less_iff hsp,
        ← FTy.less_iff hsp]
      cases c <;> exact Iff.rfl
    rw [fcmpE_numbers hsp hfz hxn hyn]
    exact ⟨fun h => by rw [if_pos (hiff.2 h)], fun h => by rw [if_neg (hiff.not.2 h)]⟩
  · intro hn
    rw [fcmpE_nan ha c hn]
    refine ⟨by cases c <;> rfl, ?_⟩
    rw [FCond.signals_raise c (FEnv.operands_fl_le ha hfz), FEnv.operands_raise ha hfz]
  · rintro ⟨s, hxi, -⟩
    simp [frndE, FEnv.operand_of_inf hsp hxi]
  · intro hxn
    have hop := FEnv.operand_of_nan (e := e) hsp hxn
    have hval : (frndE t e j [x]).val = e.nanOf t [(e.operand t x).1] := by simp [frndE, hop]
    rw [hval]
    split
    next hc => exact FEnv.nanOf_of_nanc hc _
    next hc => exact FEnv.nanOf_cons_of_nan hsp (Bool.eq_false_iff.2 hc) hx hxn _
  · rintro s ⟨hxi, hs⟩
    simp [FEnv.toInt, FEnv.operand_of_inf hsp hxi, show x.testBit (t.fmt.eb + t.fmt.mb) = s from hs, flIV]
  · intro hxn
    simp only [FEnv.toInt, FEnv.operand_of_nan hsp hxn]
    split <;> rfl
  · rintro rfl
    rfl
  · exact fun hsat => FEnv.ofInt_rounded ha hm hfz hsat v

/-- Settles O51. -/
theorem numbers : Obligations.Numbers := ⟨rounding, nanResults, elements⟩

end Sys2Proof.Machine
end

section
/-!
SUPPORT. The chunked sum: a chunk's result, the FP32 addition that follows it, and the order of the chunks (R243).
-/
namespace Sys2Proof.Machine

/-! ### Dyadic numbers rounded -/

namespace Fmt
variable {f : Fmt} {mode r : Nat} {z : Bool} {x : Dy}

theorem roundDy_val_of_zero (h : x.rat = 0) : (f.roundDy mode r z x).val = f.signBits z := by
  rw [roundDy, if_pos (Dy.rat_eq_zero.1 h)]

theorem rounds_roundDy (hmb : 0 < f.mb) (h1 : 1 ≤ mode) (h6 : mode ≤ 6) (h : x.rat ≠ 0) :
    Rules.rounds f mode r (decide (x.rat < 0)) |x.rat| (f.roundDy mode r z x).val := by
  have hn : x.n ≠ 0 := Dy.rat_eq_zero.not.1 h
  have hneg : decide (x.rat < 0) = decide (x.n < 0) := decide_eq_decide.2 Dy.rat_lt_zero
  rw [roundDy, if_neg hn, hneg, ← Dy.num_div_den]
  exact rounds_roundFrac (Dy.num_pos hn) x.den_pos hmb h1 h6 r _

end Fmt

/-- What a sum is rounded to is a number or an infinity. -/
theorem FTy.roundDy_val_eq {t : FTy} (hsp : t.fmt.sp = .ieee) (mode r : Nat) (z : Bool) (x : Dy) :
    ∃ s n, n ≤ t.fmt.infBits ∧ (t.fmt.roundDy mode r z x).val = t.fmt.signBits s + n := by
  rw [Fmt.roundDy]
  split
  · exact ⟨z, 0, Nat.zero_le _, rfl⟩
  · obtain ⟨n, hn, hval⟩ := t.fmt.roundFrac_val_eq_signBits_add hsp mode r false (decide (x.n < 0)) x.num x.den
    rw [FTy.infBits_eq hsp, max_eq_right (Nat.le_succ _)] at hn
    exact ⟨_, n, (FTy.infBits_eq hsp) ▸ hn, hval⟩

/-! ### The result of a chunk -/

/-- The products of a chunk added one after the other, exactly. -/
def exactSum (ps : List FVal) : Dy := ps.foldl (fun a p => a.add (Dy.ofVal p)) ⟨0, 0⟩

theorem rat_foldl_add (ps : List FVal) (d : Dy) :
    (ps.foldl (fun a p => a.add (Dy.ofVal p)) d).rat = d.rat + (ps.map Rules.worth).sum := by
  induction ps generalizing d with
  | nil => simp
  | cons p ps ih => rw [List.foldl_cons, ih, Dy.rat_add, FVal.rat_ofVal, List.map_cons, List.sum_cons, add_assoc]

theorem rat_exactSum (ps : List FVal) : (exactSum ps).rat = (ps.map Rules.worth).sum := by
  rw [exactSum, rat_foldl_add]
  simp [Dy.rat]

section
variable {ps : List FVal}

theorem any_isNan : ps.any FVal.isNan = true ↔ ∃ s m, .nan s m ∈ ps := by
  rw [List.any_eq_true]
  constructor
  · rintro ⟨p, hp, hn⟩
    cases p with
    | nan s m => exact ⟨s, m, hp⟩
    | inf s => cases hn
    | fin s m e => cases hn
  · rintro ⟨s, m, h⟩
    exact ⟨_, h, rfl⟩

theorem any_posInf : (ps.any fun p => p.isInf && !p.neg?) = true ↔ .inf false ∈ ps := by
  rw [List.any_eq_true]
  constructor
  · rintro ⟨p, hp, h⟩
    cases p with
    | nan s m => cases h
    | inf s => cases s with
      | false => exact hp
      | true => cases h
    | fin s m e => cases h
  · exact fun h => ⟨_, h, rfl⟩

theorem any_negInf : (ps.any fun p => p.isInf && p.neg?) = true ↔ .inf true ∈ ps := by
  rw [List.any_eq_true]
  constructor
  · rintro ⟨p, hp, h⟩
    cases p with
    | nan s m => cases h
    | inf s => cases s with
      | false => cases h
      | true => exact hp
    | fin s m e => cases h
  · exact fun h => ⟨_, h, rfl⟩

theorem chunkOf_of_nan (h : (∃ s m, .nan s m ∈ ps) ∨ (.inf true ∈ ps ∧ .inf false ∈ ps)) :
    chunkOf ps = FTy.f32.fmt.nanBits := by
  refine if_pos ?_
  rw [Bool.or_eq_true, Bool.and_eq_true, any_isNan, any_posInf, any_negInf]
  exact h.imp_right And.symm

section
variable (hn : ∀ s m, .nan s m ∉ ps)
include hn

theorem any_isNan_false : ps.any FVal.isNan = false := by
  rw [← Bool.not_eq_true, any_isNan]
  rintro ⟨s, m, h⟩
  exact hn s m h

theorem chunkOf_of_inf {s : Bool} (h : .inf s ∈ ps) (h' : .inf (!s) ∉ ps) :
    chunkOf ps = FTy.f32.fmt.signBits s + FTy.f32.fmt.infBits := by
  unfold chunkOf
  cases s with
  | false =>
    have hneg : (ps.any fun p => p.isInf && p.neg?) = false := by rwa [← Bool.not_eq_true, any_negInf]
    simp [any_isNan_false hn, any_posInf.2 h, hneg, Fmt.signBits]
  | true =>
    have hpos : (ps.any fun p => p.isInf && !p.neg?) = false := by rwa [← Bool.not_eq_true, any_posInf]
    simp [any_isNan_false hn, any_negInf.2 h, hpos]

theorem chunkOf_of_numbers (hi : ∀ s, .inf s ∉ ps) : chunkOf ps =
    (FTy.f32.fmt.roundDy 1 0 (ps.all fun p => p.isZero && p.neg?) (exactSum ps)).val := by
  have hneg : (ps.any fun p => p.isInf && p.neg?) = false := by rw [← Bool.not_eq_true, any_negInf]; exact hi true
  have hpos : (ps.any fun p => p.isInf && !p.neg?) = false := by rw [← Bool.not_eq_true, any_posInf]; exact hi false
  unfold chunkOf
  simp only [any_isNan_false hn, hneg, hpos, Bool.and_self, Bool.or_self, Bool.false_eq_true, if_false]
  rfl

end

end

/-! ### Addition in FP32 -/

section
variable {a b : Nat}

theorem add32_of_nan_left (h : FTy.f32.fmt.infBits < a % 2 ^ (FTy.f32.fmt.eb + FTy.f32.fmt.mb)) : add32 a b = FTy.f32.fmt.nanBits := by
  simp [add32, FTy.decode_of_nan rfl h]

theorem add32_of_nan_right (h : FTy.f32.fmt.infBits < b % 2 ^ (FTy.f32.fmt.eb + FTy.f32.fmt.mb)) : add32 a b = FTy.f32.fmt.nanBits := by
  simp only [add32, FTy.decode_of_nan rfl h]
  cases FTy.f32.fmt.decode a <;> rfl

theorem add32_of_inf_right {s : Bool} (ha : Rules.isFinite FTy.f32.fmt a) (hb : FTy.f32.fmt.decode b = .inf s) : add32 a b = b := by
  simp [add32, FTy.decode_of_finite ha, hb]

theorem add32_of_infs {s s' : Bool} (ha : FTy.f32.fmt.decode a = .inf s) (hb : FTy.f32.fmt.decode b = .inf s') :
    add32 a b = if s = s' then a else FTy.f32.fmt.nanBits := by
  simp [add32, ha, hb]

/-- −0 is the one encoding that is a negative zero. -/
theorem isNegZero_iff (ha : a < 2 ^ 32) : ((FTy.f32.fmt.decode a).isZero && (FTy.f32.fmt.decode a).neg?) = true ↔ a = 0x80000000 := by
  constructor
  · intro h
    cases hd : FTy.f32.fmt.decode a with
    | nan s m => rw [hd] at h; cases h
    | inf s => rw [hd] at h; cases h
    | fin s m k =>
      rw [hd, Bool.and_eq_true] at h
      obtain ⟨rfl, rfl⟩ : m = 0 ∧ s = true := ⟨by simpa [FVal.isZero] using h.1, h.2⟩
      exact FTy.eq_signBits_of_decode rfl ha hd
  · rintro rfl
    rfl

/-- The sum of numbers, rounded once to nearest; an exact zero is −0 where both are −0. -/
theorem add32_of_finite (ha : Rules.isFinite FTy.f32.fmt a) (hb : Rules.isFinite FTy.f32.fmt b) : add32 a b =
    (FTy.f32.fmt.roundDy 1 0 ((FTy.f32.fmt.decode a).isZero && (FTy.f32.fmt.decode b).isZero && (FTy.f32.fmt.decode a).neg?
      && (FTy.f32.fmt.decode b).neg?) ((Dy.ofVal (FTy.f32.fmt.decode a)).add (Dy.ofVal (FTy.f32.fmt.decode b)))).val := by
  simp only [add32, FTy.decode_of_finite ha, FTy.decode_of_finite hb]

theorem rat_ofVal_add_ofVal (ha : Rules.isFinite FTy.f32.fmt a) (hb : Rules.isFinite FTy.f32.fmt b) :
    ((Dy.ofVal (FTy.f32.fmt.decode a)).add (Dy.ofVal (FTy.f32.fmt.decode b))).rat
      = Rules.number FTy.f32.fmt a + Rules.number FTy.f32.fmt b := by
  rw [Dy.rat_add, FVal.rat_ofVal, FVal.rat_ofVal, FTy.worth_decode ha, FTy.worth_decode hb]

end

/-! ### Chunks, ascending -/

section
variable {c : Nat} {ps : List FVal}

theorem chunkSum_nil (c n : Nat) : chunkSum c n [] = c := by cases n <;> rfl

theorem chunkSum_succ (c n : Nat) (h : ps ≠ []) :
    chunkSum c (n + 1) ps = chunkSum (add32 c (chunkOf (ps.take 64))) n (ps.drop 64) := by
  rw [chunkSum, if_neg (by simpa using h)]

theorem chunkSumAll_of_le (h : ps ≠ []) (hlen : ps.length ≤ 64) : chunkSumAll c ps = add32 c (chunkOf ps) := by
  rw [chunkSumAll, chunkSum_succ _ _ h, List.take_of_length_le hlen, List.drop_of_length_le hlen, chunkSum_nil]

theorem chunkSumAll_of_lt (hlen : 64 < ps.length) :
    chunkSumAll c ps = chunkSumAll (chunkSumAll c (ps.take 64)) (ps.drop 64) := by
  have hne : ps ≠ [] := by
    rintro rfl
    cases hlen
  have htake : (ps.take 64).length = 64 := List.length_take_of_le hlen.le
  have hfuel : ps.length / 64 = (ps.drop 64).length / 64 + 1 := by
    rw [List.length_drop]
    omega
  rw [chunkSumAll_of_le (c := c) (by simpa using hne) htake.le, chunkSumAll, chunkSum_succ _ _ hne, chunkSumAll, hfuel]

end

/-! ### A chunk's result added, R243 -/

section
variable {c : Nat} {ps : List FVal}

/-- A chunk with an infinity gives that infinity, or a NaN beside the other one or a NaN. -/
theorem add32_chunkOf_of_inf (hc : c < 2 ^ 32) (hn : ∀ s m, .nan s m ∉ ps) {s : Bool} (hs : .inf s ∈ ps) (hs' : .inf (!s) ∉ ps) :
    let inf := FTy.f32.fmt.signBits s + FTy.f32.fmt.infBits
    (Rules.isFinite FTy.f32.fmt c ∨ c = inf → add32 c (chunkOf ps) = inf)
      ∧ (¬ Rules.isFinite FTy.f32.fmt c → c ≠ inf → add32 c (chunkOf ps) = FTy.f32.fmt.nanBits) := by
  intro inf
  have hdec {s : Bool} : FTy.f32.fmt.decode (FTy.f32.fmt.signBits s + FTy.f32.fmt.infBits) = .inf s := by cases s <;> rfl
  rw [chunkOf_of_inf hn hs hs']
  refine ⟨?_, fun hfin hne => ?_⟩
  · rintro (h | rfl)
    · exact add32_of_inf_right h hdec
    · rw [add32_of_infs hdec hdec, if_pos rfl]
  · rcases (FTy.encoding_cases (t := .f32) rfl c).resolve_left hfin with h | h
    · rw [add32_of_infs (FTy.decode_of_inf rfl h) hdec, if_neg]
      intro hsign
      exact hne (by rw [← FTy.f32.fmt.signBits_add_mod hc, h, hsign])
    · exact add32_of_nan_left h

variable (hfin : ∀ p ∈ ps, ∃ s m e, p = .fin s m e)
include hfin

theorem chunkOf_of_fin : chunkOf ps =
    (FTy.f32.fmt.roundDy 1 0 (ps.all fun p => p.isZero && p.neg?) (exactSum ps)).val :=
  chunkOf_of_numbers
    (fun s m h => by obtain ⟨_, _, _, hp⟩ := hfin _ h; cases hp)
    (fun s h => by obtain ⟨_, _, _, hp⟩ := hfin _ h; cases hp)

/-- A chunk of numbers gives a number or an infinity. -/
theorem chunkOf_bound : chunkOf ps < 2 ^ 32 ∧ chunkOf ps % 2 ^ 31 ≤ FTy.f32.fmt.infBits := by
  obtain ⟨s, n, hn, hval⟩ := FTy.roundDy_val_eq (t := .f32) rfl 1 0 (ps.all fun p => p.isZero && p.neg?) (exactSum ps)
  have hlt : n < 2 ^ 31 := hn.trans_lt FTy.f32.infBits_lt
  have hsign : FTy.f32.fmt.signBits s ≤ 2 ^ 31 := by cases s <;> decide
  rw [chunkOf_of_fin hfin, hval]
  exact ⟨by omega, ((FTy.f32.fmt.signBits_add hlt).2.le).trans hn⟩

theorem chunkOf_rounds (h : (ps.map Rules.worth).sum ≠ 0) :
    Rules.rounds FTy.f32.fmt 1 0 (decide ((ps.map Rules.worth).sum < 0)) |(ps.map Rules.worth).sum| (chunkOf ps) := by
  rw [chunkOf_of_fin hfin]
  rw [← rat_exactSum] at h ⊢
  exact Fmt.rounds_roundDy FTy.f32.mb_pos le_rfl (by decide) h

/-- An exact zero is −0 where every product is. -/
theorem chunkOf_zero (h : (ps.map Rules.worth).sum = 0) :
    chunkOf ps = FTy.f32.fmt.signBits (ps.all fun p => p.isZero && p.neg?) := by
  rw [chunkOf_of_fin hfin]
  exact Fmt.roundDy_val_of_zero (by rwa [rat_exactSum])

end

theorem isZero_and_neg_iff {p : FVal} : (p.isZero && p.neg?) = true ↔ ∃ e, p = .fin true 0 e := by
  cases p with
  | nan s m => simp [FVal.isZero]
  | inf s => simp [FVal.isZero]
  | fin s m e => simp [FVal.isZero, FVal.neg?, and_comm]

/-- The part of O52 about chunks. -/
theorem chunkSums : Rules.ChunkSums := by
  intro c ps f nearest sum minus
  refine ⟨?_, chunkSumAll_of_lt, fun hne hlen hc => ?_⟩
  · rintro rfl
    exact chunkSum_nil c _
  have hall := chunkSumAll_of_le (c := c) hne hlen
  refine ⟨fun h => ?_, fun hn s hs hs' => ?_, fun hfin => ?_⟩
  · rw [hall, chunkOf_of_nan h]
    exact add32_of_nan_right (by decide)
  · rw [hall]
    exact add32_chunkOf_of_inf hc hn hs hs'
  · obtain ⟨hlt, hbound⟩ := chunkOf_bound hfin
    have hminus : (ps.all fun p => p.isZero && p.neg?) = true ↔ ∀ p ∈ ps, minus p := by
      simp only [List.all_eq_true, isZero_and_neg_iff, minus]
    refine ⟨chunkOf ps, hall, hlt, chunkOf_rounds hfin, fun h0 hm => ?_, fun h0 hm => ?_, fun hcf hvf => ⟨?_, ?_⟩,
      fun hcf hvf => ?_, add32_of_nan_left⟩
    · rw [chunkOf_zero hfin h0, hminus.2 hm]
      rfl
    · obtain ⟨p, hp, hpm⟩ := hm
      rw [chunkOf_zero hfin h0, Bool.eq_false_iff.2 (hminus.not.2 fun h => hpm (h p hp))]
      rfl
    · intro hw
      rw [add32_of_finite hcf hvf]
      rw [← rat_ofVal_add_ofVal hcf hvf] at hw ⊢
      exact Fmt.rounds_roundDy FTy.f32.mb_pos le_rfl (by decide) hw
    · intro hw
      rw [add32_of_finite hcf hvf, Fmt.roundDy_val_of_zero (by rwa [rat_ofVal_add_ofVal hcf hvf])]
      have hc0 := isNegZero_iff hc
      have hv0 := isNegZero_iff hlt
      rw [Bool.and_eq_true] at hc0 hv0
      refine if_congr ?_ rfl rfl
      rw [← hc0, ← hv0]
      simp only [Bool.and_eq_true]
      tauto
    · rcases (FTy.encoding_cases (t := .f32) rfl (chunkOf ps)).resolve_left hvf with h | h
      · exact add32_of_inf_right hcf (FTy.decode_of_inf rfl h)
      · exact absurd hbound h.not_ge

end Sys2Proof.Machine
end

section
/-!
SUPPORT. The special values of the special functions (R244, R309, R310). Settles O52.
-/
namespace Sys2Proof.Machine

/-! ### Special results and exact ones -/

section
variable {e : FEnv} {f : SpFun} {t : FTy} {j x : Nat} {v : FVal} (hfz : e.fz t = false) (hv : t.fmt.decode x = v) (hn : v.isNan = false)
include hfz hv hn

theorem FEnv.special_of_nan (hr : f.on v = .nan) : e.special f t j x = ⟨t.fmt.nanBits, 1⟩ := by
  have hop := FEnv.special_operand hfz hv hn
  cases v with
  | nan s m => cases hn
  | inf | fin =>
    simp only [SpFun.on] at hr
    simp only [FEnv.special, hop, hr]
    rfl

theorem FEnv.special_of_inf {s dz : Bool} (hr : f.on v = .inf s dz) :
    e.special f t j x = ⟨t.fmt.signBits s + t.fmt.infBits, if dz then 2 else 0⟩ := by
  have hop := FEnv.special_operand hfz hv hn
  cases v with
  | nan s m => cases hn
  | inf | fin =>
    simp only [SpFun.on] at hr
    simp only [FEnv.special, hop, hr, Nat.zero_or]
    rfl

end

/-- A fraction that is a number of `.f32` is delivered as `.f16` from there. -/
theorem FEnv.special_f16 {e : FEnv} {f : SpFun} {j x p q w m : Nat} {k : Int} {v : FVal} {s : Bool} (hn : v.isNan = false)
    (hr : f.on v = .frac s p q true) (hfz : e.fz .f16 = false) (hv : FTy.f16.fmt.decode x = v)
    (hw : (if p = 0 then ⟨FTy.f32.fmt.signBits s, 0⟩ else FTy.f32.fmt.roundFrac 1 0 false s p q) = (⟨w, 0⟩ : FRes))
    (hd : FTy.f32.fmt.decode w = .fin s m k) :
    e.special f .f16 j x = FEnv.finish { e with rm := 1 } .f16 j s (Dy.num ⟨m, k⟩) (Dy.den ⟨m, k⟩) := by
  have hop := FEnv.special_operand hfz hv hn
  cases v with
  | nan s m => cases hn
  | inf | fin =>
    simp only [SpFun.on] at hr
    simp [FEnv.special, hop, hr, hw, hd]

theorem FEnv.finish_zero {e : FEnv} {t : FTy} {j q : Nat} {s sat : Bool} : e.finish t j s 0 q sat = ⟨t.fmt.signBits s, 0⟩ := rfl

section
variable {e : FEnv} {f : SpFun} {t : FTy} {j x : Nat} {v : FVal} (hfz : e.fz t = false) (hv : t.fmt.decode x = v) (hn : v.isNan = false)
  (ht : t = .f32 ∨ t = .f16)
include hfz hv hn ht

theorem FEnv.special_of_zero {s : Bool} {q : Nat} (hr : f.on v = .frac s 0 q true) : e.special f t j x = ⟨t.fmt.signBits s, 0⟩ := by
  rcases ht with rfl | rfl
  · rw [FEnv.special_f32 hn hr hfz hv, FEnv.finish_zero]
  · have hd : FTy.f32.fmt.decode (FTy.f32.fmt.signBits s) = .fin s 0 (-149) := by cases s <;> decide
    rw [FEnv.special_f16 hn hr hfz hv rfl hd]
    exact FEnv.finish_zero

theorem FEnv.special_of_one {s : Bool} (hr : f.on v = .frac s 1 1 true) :
    e.special f t j x = ⟨t.fmt.signBits s + t.fmt.bias * 2 ^ t.fmt.mb, 0⟩ := by
  have hone : FTy.f32.fmt.roundFrac 1 0 false s 1 1 = ⟨FTy.f32.fmt.signBits s + 127 * 2 ^ 23, 0⟩ := by cases s <;> decide
  rcases ht with rfl | rfl
  · rw [FEnv.special_f32 hn hr hfz hv, FEnv.finish_nearest hfz rfl Nat.one_pos, hone]
    rfl
  · have hd : FTy.f32.fmt.decode (FTy.f32.fmt.signBits s + 127 * 2 ^ 23) = .fin s (2 ^ 23) (-23) := by cases s <;> decide
    rw [FEnv.special_f16 hn hr hfz hv hone hd, FEnv.finish_nearest hfz rfl (Dy.num_pos (by decide))]
    cases s <;> decide

end

/-! ### The functions at zeros, at 1 and below zero -/

theorem FTy.decode_signBits (t : FTy) (s : Bool) : t.fmt.decode (t.fmt.signBits s) = .fin s 0 (t.fmt.ulp 0) := by
  obtain ⟨hs, hn⟩ := t.fmt.signBits_add (s := s) (n := 0) (Nat.two_pow_pos _)
  rw [Nat.add_zero] at hs hn
  rw [FTy.decode_of_zero hn, hs]

theorem FTy.decode_signBits_add_infBits {t : FTy} (hsp : t.fmt.sp = .ieee) (s : Bool) :
    t.fmt.decode (t.fmt.signBits s + t.fmt.infBits) = .inf s := by
  obtain ⟨hs, hn⟩ := t.fmt.signBits_add (s := s) t.infBits_lt
  rw [FTy.decode_of_inf hsp hn, hs]

theorem spTanh_zero (s : Bool) (k : Int) : spTanh s ⟨0, k⟩ = zeroRes s := by simp [spTanh, Dy.num]

theorem spSinCos_zero (s : Bool) (k : Int) : spSinCos s ⟨0, k⟩ = (zeroRes s, .frac false 1 1 true) := by simp [spSinCos, Dy.num]

theorem fracLog2_self (p : Nat) : fracLog2 p p = 0 := by simp [fracLog2]

/-- The logarithm of 1 is +0. -/
theorem spLog2_one {x : Dy} (hx : x.n ≠ 0) (h : x.num = x.den) : spLog2 false x = .frac false 0 fpOne true := by
  unfold spLog2
  rw [if_neg hx, if_neg Bool.false_ne_true]
  dsimp only
  rw [h, fracLog2_self, Int.zero_mul, Int.neg_zero, if_pos rfl, beq_self_eq_true]
  rfl

theorem log2_one {t : FTy} (ht : t = .f32 ∨ t = .f16) : ∃ m k, t.fmt.decode (t.fmt.bias * 2 ^ t.fmt.mb) = .fin false m k
    ∧ SpFun.on .log2 (.fin false m k) = .frac false 0 fpOne true := by
  rcases ht with rfl | rfl
  · exact ⟨2 ^ 23, -23, by decide, spLog2_one (by decide) (by decide)⟩
  · exact ⟨2 ^ 10, -10, by decide, spLog2_one (by decide) (by decide)⟩

/-- The numbers below zero and −∞, between −0 and the negative NaNs. -/
theorem FTy.decode_negative {t : FTy} (hsp : t.fmt.sp = .ieee) {x : Nat} (hlo : 2 ^ (t.fmt.eb + t.fmt.mb) < x)
    (hhi : x ≤ 2 ^ (t.fmt.eb + t.fmt.mb) + t.fmt.infBits) :
    t.fmt.decode x = .inf true ∨ ∃ m k, t.fmt.decode x = .fin true m k ∧ m ≠ 0 := by
  obtain ⟨n, rfl⟩ := Nat.exists_eq_add_of_lt hlo
  have hn : n + 1 ≤ t.fmt.infBits := by omega
  obtain ⟨hs, hmod⟩ := t.fmt.signBits_add (s := true) (hn.trans_lt t.infBits_lt)
  rw [Nat.add_assoc, show 2 ^ (t.fmt.eb + t.fmt.mb) = t.fmt.signBits true from rfl]
  rcases FTy.encoding_cases hsp (t.fmt.signBits true + (n + 1)) with h | h | h
  · refine .inr ⟨_, _, by rw [FTy.decode_of_finite h, hs], ?_⟩
    rw [hmod, Ne, Fmt.sig_eq_zero]
    exact Nat.succ_ne_zero n
  · exact .inl (by rw [FTy.decode_of_inf hsp h, hs])
  · omega

/-! ### The special values, R244 -/

/-- The part of O52 about special values. -/
theorem specialValues : Rules.SpecialValues := by
  intro e t j x ht hfz at_ inf neg one
  have hsp : t.fmt.sp = .ieee := by rcases ht with rfl | rfl <;> rfl
  have pz : t.fmt.decode 0 = _ := FTy.decode_signBits t false
  have nz : t.fmt.decode neg = _ := FTy.decode_signBits t true
  have pi : t.fmt.decode inf = .inf false := Nat.zero_add inf ▸ FTy.decode_signBits_add_infBits hsp false
  have ni : t.fmt.decode (neg + inf) = .inf true := FTy.decode_signBits_add_infBits hsp true
  have nan {f : SpFun} {x : Nat} {v : FVal} (hv : t.fmt.decode x = v) (hn : v.isNan = false) (hr : f.on v = .nan) :
      at_ f x t.fmt.nanBits 1 := FEnv.special_of_nan hfz hv hn hr
  have posInf (dz : Bool) {f : SpFun} {x : Nat} {v : FVal} (hv : t.fmt.decode x = v) (hn : v.isNan = false)
      (hr : f.on v = .inf false dz) : at_ f x inf (if dz then 2 else 0) :=
    (FEnv.special_of_inf hfz hv hn hr).trans (by rw [Fmt.signBits]; simp [inf])
  have negInf (dz : Bool) {f : SpFun} {x : Nat} {v : FVal} (hv : t.fmt.decode x = v) (hn : v.isNan = false)
      (hr : f.on v = .inf true dz) : at_ f x (neg + inf) (if dz then 2 else 0) := FEnv.special_of_inf hfz hv hn hr
  have zero (s : Bool) {f : SpFun} {x q : Nat} {v : FVal} (hv : t.fmt.decode x = v) (hn : v.isNan = false)
      (hr : f.on v = .frac s 0 q true) : at_ f x (t.fmt.signBits s) 0 := FEnv.special_of_zero hfz hv hn ht hr
  have posOne {f : SpFun} {x : Nat} {v : FVal} (hv : t.fmt.decode x = v) (hn : v.isNan = false)
      (hr : f.on v = .frac false 1 1 true) : at_ f x one 0 :=
    (FEnv.special_of_one hfz hv hn ht hr).trans (by rw [Fmt.signBits]; simp [one])
  have negOne {f : SpFun} {x : Nat} {v : FVal} (hv : t.fmt.decode x = v) (hn : v.isNan = false)
      (hr : f.on v = .frac true 1 1 true) : at_ f x (neg + one) 0 := FEnv.special_of_one hfz hv hn ht hr
  obtain ⟨m, k, hone, hlog⟩ := log2_one ht
  have hsin (s : Bool) (k : Int) : SpFun.on .sin (.fin s 0 k) = zeroRes s := congrArg Prod.fst (spSinCos_zero s k)
  have hcos (s : Bool) (k : Int) : SpFun.on .cos (.fin s 0 k) = .frac false 1 1 true := congrArg Prod.snd (spSinCos_zero s k)
  refine ⟨
    -- `rcp`, `rsqrt` and `sqrt`
    posInf true pz rfl rfl, negInf true nz rfl rfl, zero false pi rfl rfl, zero true ni rfl rfl,
    posInf true pz rfl rfl, negInf true nz rfl rfl, zero false pi rfl rfl,
    zero true nz rfl rfl, zero false pz rfl rfl,
    -- `exp2` and `log2`
    zero false ni rfl rfl, posInf false pi rfl rfl,
    negInf true pz rfl rfl, negInf true nz rfl rfl, zero false hone rfl hlog,
    -- `tanh`
    zero false pz rfl (spTanh_zero ..), zero true nz rfl (spTanh_zero ..), posOne pi rfl rfl, negOne ni rfl rfl,
    -- `sin` and `cos`
    zero false pz rfl (hsin ..), zero true nz rfl (hsin ..), posOne pz rfl (hcos ..),
    nan pi rfl rfl, nan pi rfl rfl, nan ni rfl rfl, nan ni rfl rfl, fun hlo hhi => ?_⟩
  rcases FTy.decode_negative hsp hlo hhi with hd | ⟨m, k, hd, hm⟩
  · exact ⟨nan hd rfl rfl, nan hd rfl rfl, nan hd rfl rfl⟩
  · have hn : ¬ (m : Int) = 0 := Int.natCast_ne_zero.2 hm
    exact ⟨nan hd rfl (if_neg hn), nan hd rfl (if_neg hn), nan hd rfl (if_neg hn)⟩

/-- Settles O52. -/
theorem sumsAndSpecials : Obligations.SumsAndSpecials := ⟨chunkSums, specialValues⟩

end Sys2Proof.Machine
end
